-- ==== Sys2Proof/Word.lean ====
section
/-! DEFINITION. The word types of the Worilano 1216 and their plainest arithmetic (R4, R148). -/

namespace Sys2Proof

/-- One byte of memory (R4). -/
abbrev Byte := BitVec 8

/-- A 32-bit lane register or step-memory word (R148). -/
abbrev Word32 := BitVec 32

/-- A 64-bit uniform register or package register (R148). -/
abbrev Word64 := BitVec 64

/-- A 96-bit instruction (R193). -/
abbrev InstrWord := BitVec 96

end Sys2Proof
end

