-- ==== Sys2Proof/Config.lean ====
section
/-! DEFINITION. What an implementation fixes and the manual leaves open: free values without a body. -/

namespace Sys2Proof

/-- Free choice number `n` of a run: which of several allowed outcomes is taken (DESIGN CHOICE, log entry 2).
Applied to the counter `State.freeCount`; the step that draws advances the counter. -/
opaque Config.freeChoice : Nat → Nat

/-- The value a special function proposes for an operand (R273): `f` numbers the function as its opcode,
0 and 1 number the activations gelu and silu. It is the same for every core and run, so it is a function of the operand's
bits alone. The meaning keeps it inside the bound of R272 and R297 (DESIGN CHOICE, log entry 4). -/
opaque Config.specialValue : Nat → BitVec 32 → BitVec 32

/-- Whether a signature over a digest verifies against a key of the root of trust (R410, R425; DESIGN CHOICE, log entry 6).
The first argument numbers the key: 0 the Silonath key, 1 the test key. -/
opaque Config.signatureValid : Nat → List (BitVec 8) → List (BitVec 8) → Bool

/-- The identity key's signature over an attestation report (R426; DESIGN CHOICE, log entry 6). -/
opaque Config.attestationSignature : List (BitVec 8) → List (BitVec 8)

/-- Whether the scan of a socket with a package's vectors passes (R410, R411; DESIGN CHOICE, log entry 6). -/
opaque Config.scanPasses : Nat → List (BitVec 8) → Bool

/-- The version of a firmware image, as an attestation report carries it (R426; DESIGN CHOICE, log entry 6). -/
opaque Config.firmwareVersion : List (BitVec 8) → List (BitVec 8)

/-- The identity key's certificate chain (R426; DESIGN CHOICE, log entry 6). -/
opaque Config.certificateChain : List (BitVec 8)

/-- The set of a translation shard's 8-way cache that holds a page of a context (R59; DESIGN CHOICE, log entry 11). -/
opaque Config.shardSet : Nat → Nat → Nat

end Sys2Proof
end

