-- ==== Sys2Proof/Syntax.lean ====
section
/-! DEFINITION. The instructions of Daref and the steps of the package: one constructor of `Instr` per row of the opcode table. -/

namespace Sys2Proof

/-- The 8-bit register specifier, read into its register class (R149). `rsvd n` is specifier 213 + n. -/
inductive Opnd where
  | v (n : BitVec 7)
  | s (n : BitVec 6)
  | p (n : BitVec 3)
  | k (n : BitVec 3)
  | lid | ones | sgn | fone | amask
  | rsvd (n : BitVec 6)
  | zr
  deriving DecidableEq, Repr

/-- The common header of every instruction without its opcode (R193). -/
structure Hdr where
  sw : Bool
  gw : Bool
  gap : BitVec 3
  keep : Bool
  neg : Bool
  guard : BitVec 3
  mod : BitVec 6
  deriving DecidableEq, Repr

/-- Body F3 (R195). -/
structure F3 where
  h : Hdr
  d : Opnd
  a : Opnd
  b : Opnd
  c : Opnd
  bnd : BitVec 4
  aux : BitVec 4
  imm : BitVec 32
  deriving DecidableEq, Repr

/-- Body FM (R195); `ord` holds scope and sem (R198). -/
structure FM where
  h : Hdr
  d : Opnd
  base : Opnd
  index : Opnd
  data2 : Opnd
  bnd : BitVec 4
  ord : BitVec 4
  offset : BitVec 32
  deriving DecidableEq, Repr

/-- Body FB (R195). -/
structure FB where
  h : Hdr
  link : Opnd
  treg : BitVec 8
  kreg : BitVec 8
  aux16 : BitVec 16
  lineoff : BitVec 29
  slot : BitVec 3
  deriving DecidableEq, Repr

/-- Body FL (R195). -/
structure FL where
  h : Hdr
  d : Opnd
  imm : BitVec 64
  deriving DecidableEq, Repr

/-- A warp (`idx` 0 to 31, its %warp) or the ladle context (`idx` 32) of a resident team. -/
structure AgentKey where
  team : Nat
  idx : Nat
  deriving DecidableEq, Repr

/-- A step group: of one team, or of every team of a cohort grid when `team` is none (R131). -/
structure GroupKey where
  grid : Nat
  team : Option Nat
  group : Nat
  deriving DecidableEq, Repr

/-- One hop: sending socket, receiving socket and plane, that is one colour (R32, R37). -/
structure Hop where
  src : Nat
  dst : Nat
  planeB : Bool
  deriving DecidableEq, Repr

/-- The registers of the register space, by the manual's names; an index is a socket, queue, domain and so on. -/
inductive Reg where
  | pkgcfg | timeskew | leasecfg
  | pinctl (n : Nat) | pinstat (n : Nat) | scrubcfg | memerr (n : Nat)
  | route (i j : Nat)
  | vfctx (n : Nat) | vfs2 (n : Nat) | prqbase (n : Nat) | prqptr (n : Nat) | prresp (n : Nat) | xlataddr | xlatinv
  | cestat (c e : Nat)
  | qcfg (n : Nat) | qstat (n : Nat) | qtl (n : Nat) | qtli (n : Nat) | qnotify (n : Nat)
  | clbudget (c : Nat) | clstat (c : Nat) | pwrcfg | shelfstat | droopCurve (k : Nat) | shedState | permits (n : Nat)
  | fltbase (d : Nat) | fltptr (d : Nat) | coreDom (g : Nat)
  | preempt | qctx (n : Nat) | wdcfg | thermSave | thermHard | emsave | emstat | scanctl
  | hostcfg | hidtab (k : Nat) | hidstat | sbxDom (h : Nat) | suwin (k : Nat) | pacecfg | pacestat
  deriving DecidableEq, Repr

/-- Who makes a write to a queue window (R358). -/
inductive WindowSource where
  | host (function : Nat)
  | hart (h : Nat)
  | copyEngine
  | coreOrLadle
  deriving DecidableEq, Repr

/-- One write that reaches the queue aperture (R356, R358). -/
structure WindowWrite where
  source : WindowSource
  offset : Nat
  bytes : List Byte
  deriving DecidableEq, Repr

/-- A host CXL.mem read (R414, R416); `own` asks for the line to be cached by the host. -/
structure HostRead where
  host : Nat
  pa : Nat
  len : Nat
  own : Bool
  deriving DecidableEq, Repr

/-- A host CXL.mem write (R414, R416). -/
structure HostWrite where
  host : Nat
  pa : Nat
  bytes : List Byte
  deriving DecidableEq, Repr

/-- State of a scale-up port link (R423). -/
inductive LinkState where
  | up | recovering | down
  deriving DecidableEq, Repr

/-- A RISC-V AMO of a sandbox hart, as the home executes it (R421). -/
structure HartAmo where
  op : BitVec 5
  w64 : Bool
  pa : Nat
  v : Word64
  aq : Bool
  rl : Bool
  deriving DecidableEq, Repr

/-- What a management command assigns to a domain (R427). -/
inductive AssignKind where
  | core | hart | queue | function | memoryGib
  deriving DecidableEq, Repr

/-- One firmware image with its signature (R425). -/
structure BootImage where
  bytes : List Byte
  signature : List Byte
  deriving DecidableEq, Repr

/-- What boot finds: the firmware images in loading order, the dies that pass their self-test, the calibrated skew bound
and the device-unique secret's public chain (R13, R48, R425, R426). -/
structure BootImages where
  service : BootImage
  compute : BootImage
  memory : BootImage
  sandbox : BootImage
  selfTest : BitVec 32
  boundNs : BitVec 8
  deriving DecidableEq, Repr

/-- What comes back from host memory, the disaggregated pool or a remote package for a request of the package (R412, R418). -/
structure SystemReply where
  refused : Bool
  poison : Bool
  data : List Byte
  deriving DecidableEq, Repr

/-- The instructions of Daref (R199), each with its header and body, and after them the steps of the package that have no
instruction word, each with the data that comes from outside or that says which object takes the step. -/
inductive Instr where
  | nop (x : F3)
  | bra (x : FB)
  | brx (x : F3)
  | call (x : FB)
  | callx (x : F3)
  | ret (x : F3)
  | join (x : F3)
  | waitj (x : F3)
  | exit (x : F3)
  | yield (x : F3)
  | safe (x : F3)
  | launch (x : F3)
  | cropen (x : FB)
  | crclose (x : F3)
  | trap (x : F3)
  | bkpt (x : F3)
  | step (x : F3)
  | redt (x : F3)
  | waittl (x : F3)
  | tlrd (x : F3)
  | tladv (x : F3)
  | sleep (x : F3)
  | rdtime (x : F3)
  | movsr (x : F3)
  | movrs (x : F3)
  | iadd (x : F3)
  | isub (x : F3)
  | iaddc (x : F3)
  | imul (x : F3)
  | imulh (x : F3)
  | imad (x : F3)
  | imadw (x : F3)
  | idiv (x : F3)
  | irem (x : F3)
  | ineg (x : F3)
  | iabs (x : F3)
  | imin (x : F3)
  | imax (x : F3)
  | lea (x : F3)
  | icmp (x : F3)
  | psel (x : F3)
  | mov (x : F3)
  | movi (x : F3)
  | movil (x : FL)
  | plut (x : F3)
  | p2v (x : F3)
  | v2p (x : F3)
  | dot4 (x : F3)
  | and (x : F3)
  | or (x : F3)
  | xor (x : F3)
  | andn (x : F3)
  | not (x : F3)
  | lut3 (x : F3)
  | shl (x : F3)
  | shr (x : F3)
  | sar (x : F3)
  | rot (x : F3)
  | fshf (x : F3)
  | bfe (x : F3)
  | bfi (x : F3)
  | popc (x : F3)
  | clz (x : F3)
  | ctz (x : F3)
  | brev (x : F3)
  | bperm (x : F3)
  | vote (x : F3)
  | ballot (x : F3)
  | xlane (x : F3)
  | matchL (x : F3)
  | redux (x : F3)
  | scanx (x : F3)
  | readl (x : F3)
  | bcast (x : F3)
  | fadd (x : F3)
  | fsub (x : F3)
  | fmul (x : F3)
  | ffma (x : F3)
  | fmin (x : F3)
  | fmax (x : F3)
  | fcmp (x : F3)
  | fclass (x : F3)
  | frnd (x : F3)
  | ffrac (x : F3)
  | fscale (x : F3)
  | frcp (x : F3)
  | frsq (x : F3)
  | fsqrt (x : F3)
  | fexp2 (x : F3)
  | flog2 (x : F3)
  | fsin (x : F3)
  | fcos (x : F3)
  | ftanh (x : F3)
  | pkadd (x : F3)
  | pkmul (x : F3)
  | pkfma (x : F3)
  | pkmax (x : F3)
  | dadd (x : F3)
  | dmul (x : F3)
  | dfma (x : F3)
  | dcmp (x : F3)
  | fcvt (x : F3)
  | icvt (x : F3)
  | fpack (x : F3)
  | funpack (x : F3)
  | bound (x : F3)
  | mma (x : F3)
  | mmaz (x : F3)
  | fmtv (x : F3)
  | accepi (x : F3)
  | accck (x : F3)
  | mjob (x : F3)
  | accld (x : F3)
  | accst (x : F3)
  | accz (x : F3)
  | ld (x : FM)
  | st (x : FM)
  | lda (x : FM)
  | chka (x : FM)
  | invala (x : FM)
  | ldix (x : FM)
  | pref (x : FM)
  | prefb (x : FM)
  | cwb (x : FM)
  | icinv (x : FM)
  | fetchb (x : FM)
  | fence (x : FM)
  | lds (x : FM)
  | sts (x : FM)
  | stx (x : FM)
  | ldf (x : FM)
  | ste (x : FM)
  | stf (x : FM)
  | tagset (x : FM)
  | tagclr (x : FM)
  | tagrd (x : FM)
  | prsrd (x : FM)
  | atom (x : FM)
  | red (x : FM)
  | atoms (x : FM)
  | reds (x : FM)
  | atomx (x : FM)
  | copy (x : F3)
  | copyg (x : F3)
  | copys (x : F3)
  | copyr (x : F3)
  | cbload (x : F3)
  | cbdrop (x : F3)
  | cqry (x : F3)
  | switchMarkerPass (a : AgentKey)
  | fenceComplete (a : AgentKey)
  | sleepExpiry (a : AgentKey)
  | leaseExpiry (core line : Nat)
  | addressTableExpiry (a : AgentKey)
  | absentLineWake (a : AgentKey)
  | stepComplete (g : GroupKey)
  | nextPlaneRefillDone (team region : Nat)
  | redtResult (g : GroupKey) (k : Nat)
  | whiskMessage (n : Nat)
  | rd (h : Hop)
  | rdr (h : Hop)
  | wr (h : Hop)
  | wrc (h : Hop)
  | atPkt (h : Hop)
  | atr (h : Hop)
  | lx (h : Hop)
  | fm (h : Hop)
  | fmr (h : Hop)
  | xm (h : Hop)
  | pf (h : Hop)
  | pfReply (h : Hop)
  | rm (h : Hop)
  | rma (h : Hop)
  | lc (h : Hop)
  | lossNotice (h : Hop)
  | tx (h : Hop)
  | reservedPacket (h : Hop)
  | linkRetryTimeout (h : Hop)
  | colourDark (h : Hop) (optical : Bool)
  | routeWrite (i j : Nat) (v : Word64)
  | routeRetest (i j : Nat) (v : Word64)
  | routeRetestDone (i j : Nat) (okA okB : Bool)
  | timeExchange (sock : Nat) (t1 t2 t3 t4 : Int)
  | translationRequest (h : Hop)
  | walkReferenceReply (sock walk : Nat)
  | pageRequestPost (sock : Nat)
  | prqRecordComplete (ctx : Nat)
  | prrespRetry (ctx : Nat) (v : Word64)
  | prrespRefuse (ctx : Nat) (v : Word64)
  | xlatinvRange (v : Word64)
  | xlatinvContext (v : Word64)
  | xlatinvAll (v : Word64)
  | xlatinvComplete
  | pinctlUnpinRange (n : Nat) (v : Word64)
  | pinctlUnpinAll (n : Nat) (v : Word64)
  | pinctlComplete (n : Nat)
  | scrubRead (n : Nat)
  | memerrClear (n : Nat) (v : Word64)
  | icinvCommit (h : Hop)
  | lineFill (a : AgentKey) (line : Nat)
  | copyChunk (c e : Nat)
  | copyComplete (c e n : Nat)
  | cbloadServe (c e : Nat)
  | cbdropServe (c e : Nat)
  | jobAdmission (cluster : Nat)
  | jobStep (core : Nat)
  | jobComplete (core : Nat)
  | queueWindowWrite (w : WindowWrite)
  | qcfgWrite (q : Nat) (v : Word64)
  | qstatClear (q : Nat) (v : Word64)
  | dispatchTake
  | teamPlace (grid team core : Nat)
  | cohortPlace (grid : Nat) (cores : List Nat)
  | cohortWaitExpiry (q : Nat)
  | teamRetire (team : Nat)
  | gridRetire (grid : Nat)
  | controlIntervalBoundary (loads : List Nat)
  | shedSafeDeadline
  | shelfSample (f v : BitVec 16) (good : Bool)
  | telemetryStale
  | droopCurveWrite (k : Nat) (v : Word64)
  | droopDetect (cluster : Nat)
  | droopHoldExpiry (cluster : Nat)
  | teamSave (grid : Nat)
  | teamRestore (grid : Nat) (cores : List Nat)
  | watchdogExpiry (a : AgentKey)
  | emergencySaveComplete
  | scanDrainComplete
  | scanRunComplete
  | pacePeriodEnd
  | hostWriteCompletion (n : Nat)
  | hostLinkTimeout
  | snoopTimeout (line : Nat)
  | scaleupRecoveryTimeout (port : Nat)
  | socketPowerUp (sock : Nat)
  | chipletRelease (sock : Nat)
  | icinvChipletAck (a : AgentKey) (sock : Nat)
  | preemptSave (v : Word64)
  | preemptResume (v : Word64)
  | preemptCancel (v : Word64)
  | thermalReport (sock deg : Nat)
  | scanDrain (v : Word64)
  | scanRun (v : Word64)
  | scanRelease (v : Word64)
  | coreDomWrite (g : Nat) (v : Word64)
  | fltbaseWrite (d : Nat) (v : Word64)
  | cestatClear (c e : Nat) (v : Word64)
  | hidstatClear (v : Word64)
  | hostcfgRearm (v : Word64)
  | pacecfgWrite (v : Word64)
  | lagWordReceive (lag : Nat)
  | registerWrite (r : Reg) (v : Word64)
  | hostMemRead (q : HostRead)
  | hostMemWrite (q : HostWrite)
  | snoopResponse (line : Nat) (cells : List (Nat × Byte))
  | dieFailure (sock : Nat)
  | computeChipletFailure (sock : Nat)
  | dieErrorReport (sock : Nat)
  | scaleupLinkState (port : Nat) (st : LinkState)
  | hartFence (hart : Nat) (predW succR : Bool)
  | hartAmo (hart : Nat) (q : HartAmo)
  | hartLr (hart pa : Nat) (w64 : Bool)
  | hartSc (hart pa : Nat) (w64 : Bool) (v : Word64)
  | hartFenceI (hart : Nat)
  | mgmtAssign (kind : AssignKind) (n domain : Nat)
  | mgmtDebugEnable (domain : Nat)
  | mgmtDebugDisable (domain : Nat)
  | mgmtDeclareHostLost
  | domainReset (domain : Nat)
  | firmwareUpdate (image : Nat) (bytes : List Byte)
  | attestationRequest (nonce : List Byte)
  | debugResume (a : AgentKey)
  | packageReset
  | measuredBoot (b : BootImages)
  | hostLinkL0Change (up : Bool)
  | systemRangeReply (n : Nat) (r : SystemReply)
  | standbyPowerLoss
  deriving DecidableEq, Repr

end Sys2Proof
end

