-- ==== Sys2Proof/Machine/State.lean ====
section
/-! DEFINITION. The state of the package as plain data, the reasons a step can stop, and the machine right after package reset. -/

namespace Sys2Proof.Machine

/-- A sparse table: keys strictly rising, no entry equal to its default. -/
abbrev Sparse (V : Type) := List (Nat × V)

/-- Bytes by physical address, in canonical form (R4, R9). -/
abbrev Memory := List Host.Cell

/-! ### Waiting, results and events of an agent -/

/-- A lane's state (R152) with the reason of its park (R345). -/
inductive LaneState where
  | ready
  | waitj (k : BitVec 3)
  | atStep (group : Nat)
  | tagWait
  | absent
  | replay
  | exited
  deriving DecidableEq, Repr

/-- One register effect of a result (R202, R203). `hit` sets %bndflags bits, `special` is a MOVRS write. -/
inductive RegWrite where
  | v (reg lane : Nat) (x : Word32)
  | s (reg : Nat) (x : Word64)
  | p (reg lane : Nat) (x : Bool)
  | k (reg : Nat) (x : Word32)
  | fpstat (flags : BitVec 5)
  | accsat
  | hit (mask : BitVec 16)
  | special (n : Nat) (x : Word64)
  | vPoison (reg lane sub : Nat)
  | sPoison (reg sub : Nat)
  deriving DecidableEq, Repr

/-- A fixed-latency result that takes effect in cluster cycle `due` (R203). -/
structure Pending where
  due : Nat
  writes : List RegWrite
  deriving DecidableEq, Repr

/-- A fault or event (R389): its cause, subcode, %cri word, PC, and what a record adds (R391). -/
structure Event where
  cause : Nat
  sub : Nat
  cri : BitVec 32
  pc : Nat
  deferred : Bool
  info2 : BitVec 32
  addr : Nat
  deriving DecidableEq, Repr

/-- A deferred event with the issue that caused it and its lowest lane (R388); `report` marks the error report of a posted access,
which the next fence delivers too (R134, R218). -/
structure Deferred where
  issue : Nat
  lane : Nat
  ev : Event
  report : Bool
  deriving DecidableEq, Repr

/-- A lane register of another warp that a READL is to read (R262): the warp, its register and lane, the destination, and the
reader's active lanes and PC for its event. -/
structure LaneSource where
  agent : AgentKey
  reg : Nat
  lane : Nat
  dest : Opnd
  act : BitVec 32
  pc : Nat
  deriving DecidableEq, Repr

/-- A variable-latency result that has not been written yet, with the event it brings (R204). `mem` marks the value of a load or atomic
(R77), `table` the waiting-table number that a remote READL holds (R40), `src` what it has still to read (R262). -/
structure VarResult where
  issue : Nat
  writes : List RegWrite
  event : Option Deferred
  mem : Bool := false
  table : Option Nat := none
  src : Option LaneSource := none
  deriving DecidableEq, Repr

/-- A fence path: destination socket and plane (R78). -/
structure Path where
  dst : Nat
  planeB : Bool
  deriving DecidableEq, Repr

/-- Result of a translation (R57): the page that holds the VA and its combined rights. -/
structure Xlat where
  vaBase : Nat
  paBase : Nat
  size : Nat
  attr : BitVec 2
  r : Bool
  w : Bool
  x : Bool
  dirty : Bool
  deriving DecidableEq, Repr

/-- Why an access is translated (R57). -/
inductive Access where
  | read | write | fetch | atomic | copyRead | copyWrite | either | readOrFetch | any
  deriving DecidableEq, Repr

/-- What a memory instruction does at its target; `bank` is an operation shipped to another core's bank (R142, R143), an atomic or a tagged
operation. -/
inductive MemOp where
  | bank (atomic w64 : Bool)
  | load (signExt : Bool) (lda : Bool)
  | store
  | atom (op : BitVec 5) (w64 : Bool)
  | red (op : BitVec 5) (w64 : Bool)
  | ldix (signed : Bool) (signExt : Bool)
  | cwb
  | icinv
  deriving DecidableEq, Repr

/-- One lane's part of a memory instruction: its VA, for LDIX its element base, and its data. `gen` is the number of invalidations written
before its last translation was given (R69). -/
structure LaneReq where
  lane : Nat
  va : Nat
  va2 : Option Nat
  x1 : Option Xlat
  x2 : Option Xlat
  size : Nat
  v : BitVec 128
  c : Word64
  sent : Bool
  gen : Nat := 0
  deriving DecidableEq, Repr

/-- The state of a 64 KiB page that lanes of an entry wait for (R58, R63, R66). -/
inductive GroupState where
  | requested
  | parked (id : Nat)
  | joined
  deriving DecidableEq, Repr

/-- Lanes that wait for one page. -/
structure PageGroup where
  vpn : Nat
  st : GroupState
  deriving DecidableEq, Repr

/-- A waiting-table entry (R40, R58), at number `slot` of the core's table. `dest` is the destination specifier, `expected` the replies still
due; `relSys` tells that a release at less than system scope came before, so that an atomic of a system range has still to run one (R238). -/
structure Entry where
  id : Nat
  slot : Nat := 0
  owner : AgentKey
  issue : Nat
  pc : Nat
  op : MemOp
  dest : Opnd
  size : Nat
  reqs : List LaneReq
  groups : List PageGroup
  expected : Nat
  remote : Bool
  noInstall : List Nat
  expiry : Option Nat
  ldaOk : Bool
  relSys : Bool := false
  deriving DecidableEq, Repr

/-- What a tagged operation does to a word (R141, R234). -/
inductive TagOp where
  | ldf (keep : Bool)
  | ste | stf
  | set | clr | rd
  deriving DecidableEq, Repr

/-- A lane of a tagged instruction: its step address and offset, the core it names if it is another, the lanes that it stands for (R216), its data. -/
structure TagLane where
  lane : Nat
  ea : Nat
  off : Nat
  core : Option Nat
  lanes : BitVec 32
  value : Word32
  deriving DecidableEq, Repr

/-- What a fence goes on with when it ends (R238, R239, R313, R316, R321, R324). -/
inductive Cont where
  | none
  | access (op : MemOp) (dest : Opnd) (size : Nat) (pc : Nat) (reqs : List LaneReq) (acq : Option (BitVec 2)) (relSys : Bool)
  | launch (dest : Opnd) (record : Nat) (tl : Nat) (pc : Nat) (issue : Nat)
  | endAgent
  | stepFence
  | safePark (idx : Nat)
  deriving DecidableEq, Repr

/-- A release or acquire in progress (R77 to R79); `paths` and `xpaths` are those of its markers, which stay recorded if it is abandoned (R394);
`slot` is the waiting-table entry that the access which it goes on with took at its issue (R40). -/
structure Fence where
  id : Nat
  acq : Bool
  rel : Bool
  scope : BitVec 2
  sent : Bool
  replies : Nat
  tMax : Nat
  cont : Cont
  paths : List Path := []
  xpaths : List Path := []
  slot : Option Nat := none
  deriving DecidableEq, Repr

/-- An ICINV in progress (R227): commits and chiplet acknowledgements still due, the lines to drop, when the last of them was known, and the chiplets
that have dropped them, with the time (R73). -/
structure Icinv where
  commits : Nat
  chiplets : List Nat
  ranges : List (Nat × Nat)
  device : Bool
  since : Nat
  dropped : List (Nat × Nat)
  deriving DecidableEq, Repr

/-- What keeps an agent from issuing besides a switch marker (R351); `lacking` is the answer of an issue that finds no waiting-table entry, no
FP64 lanes or no slot in the job queue, so that the agent is not ready. -/
inductive Hold where
  | fence (f : Fence)
  | sleep (till : Nat)
  | icinv (q : Icinv)
  | waittl (tl : Nat) (n : Nat) (pc : Nat)
  | launchWait (reader : Nat)
  | bkpt (code : BitVec 16) (pc : Nat)
  | full
  | lacking
  | safePark (idx : Nat)
  deriving DecidableEq, Repr

/-- An address-table entry (R162). -/
structure AddrEntry where
  num : Nat
  dest : Opnd
  size : Nat
  lanes : List (Nat × Nat × Nat)
  expiry : Nat
  poison : Bool
  deriving DecidableEq, Repr

/-- The A latch of a warp slot (R289): the A field, A's format word and the fragment, one run of 40 bytes per row. -/
structure ALatch where
  field : Opnd
  fmt : BitVec 32
  frag : List (BitVec 320)
  deriving DecidableEq, Repr

/-- Lanes held at an absent step-memory line (R138): the lanes and the lines. -/
structure AbsentWait where
  lanes : BitVec 32
  lines : List Nat
  deriving DecidableEq, Repr

/-- What a release that runs beside its issuer ends with: a number of a timeline (R326), the sending of an entry's lanes (R238), or the tagged
stores of some parked lanes (R141, R142). -/
inductive AdvGoal where
  | count (tl n : Nat)
  | send (entry : Nat)
  | tagged (op : TagOp) (dest : Opnd) (pc issue : Nat) (lanes : List TagLane)
  deriving DecidableEq, Repr

/-- A release operation that runs beside its issuer (R141, R238, R326): it covers the accesses of issues below `upto`, whose paths of its scope it
holds itself; `slot` is the waiting-table entry that its operation took at its issue (R40). -/
structure AdvOp where
  id : Nat
  goal : AdvGoal
  scope : BitVec 2
  sent : Bool
  replies : Nat
  tMax : Nat
  upto : Nat
  paths : List Path
  slot : Option Nat := none
  deriving DecidableEq, Repr

/-- A fetched instruction line (R188): VA of its first byte and its 64 bytes, or why it may not issue (R190). -/
inductive LineState where
  | good (bytes : List Byte)
  | retry
  | parity
  | illegalLine
  | xlatFault (sub : Nat)
  | lost
  deriving DecidableEq, Repr

/-- A line of a fetch buffer (R92): virtual address, physical address and state. -/
structure FetchLine where
  va : Nat
  pa : Nat
  st : LineState
  deriving DecidableEq, Repr

/-- A warp or a ladle context (R96, R148, R164). `live` holds the masks of the SAFE where it is parked, once a save has read them (R402);
`stepFences` has bit n set while a STEP.f of group n waits for its fence; `issueCount` is R315's, `issues` numbers every issue; `stuck` is
the watchdog count in nanoseconds (R405); `pathTimes` holds, by path, the largest completion time that replies have returned (R41); `early`
holds the step-memory words that an MMA has read ahead of its issue: cycle, offset, value, whether poisoned (R290). -/
structure Agent where
  key : AgentKey
  slot : Nat
  v : Sparse Word32
  s : Sparse Word64
  p : Sparse Bool
  k : Sparse Word32
  vPoison : Sparse Nat
  sPoison : Sparse Nat
  lpc : Sparse Nat
  entry : Nat
  lanes : Sparse LaneState
  idle : Sparse Nat
  rounding : Sparse Word32
  crcause : BitVec 32
  cri : BitVec 32
  crpc : Word64
  accsat : Bool
  fpstat : BitVec 5
  rmode : BitVec 2
  regions : List Nat
  issueCount : Nat
  issues : Nat
  addrTable : List AddrEntry
  latch : Option ALatch
  pend : List Pending
  vars : List VarResult
  deferred : List Deferred
  paths : List Path
  pathTimes : Sparse Nat
  xpaths : List Path
  marker : Bool
  markerAcq : Option (BitVec 2)
  hold : Option Hold
  absent : List AbsentWait
  adv : List AdvOp
  fetchBuf : List FetchLine
  needLine : Option Nat
  nextIssue : Nat
  waitCount : Nat
  lastIssue : Nat
  gaveWay : Bool
  yielded : BitVec 32
  stepFences : Nat
  stepArrived : Bool
  stepSent : Option Fence
  redtCount : Sparse Nat
  stuck : Nat
  debugPass : List Nat
  live : Option (Nat × BitVec 128 × BitVec 64)
  ended : Bool
  early : List (Nat × Nat × Word32 × Bool) := []
  deriving DecidableEq, Repr

/-! ### Teams -/

inductive RegionKind where
  | plain | tagged | step
  deriving DecidableEq, Repr

inductive Rule where
  | sum | prior | fault
  deriving DecidableEq, Repr

inductive EType where
  | i32 | u32 | f32 | bf16x2
  deriving DecidableEq, Repr

/-- A used entry of the region table (R120), sizes and base in bytes. -/
structure Region where
  idx : Nat
  size : Nat
  base : Nat
  kind : RegionKind
  rule : Rule
  etype : EType
  zero : Bool
  group : Nat
  deriving DecidableEq, Repr

/-- The kernel header and its tables (R207, R208). -/
structure Header where
  version : Nat
  vregs : Nat
  sregs : Nat
  cohort : Bool
  hasLadle : Bool
  entry : Nat
  ladleEntry : Nat
  tx : Nat
  ty : Nat
  tz : Nat
  ladleMem : Nat
  accTiles : Nat
  collQuota : Nat
  timelines : BitVec 16
  groups : BitVec 8
  cohortGroups : BitVec 8
  groupMasks : List (BitVec 32)
  liveOff : Nat
  liveCount : Nat
  bounds : List Word64
  boundAct : BitVec 32
  imageSize : Nat
  regions : List Region
  deriving DecidableEq, Repr

/-- A next-plane word of a STEP region (R127): `copied` marks a word that a copy, ACCEPI or job replaced. -/
structure NextWord where
  value : Word32
  written : Bool
  rank : Nat
  collided : Bool
  overflowed : Bool
  hiRank : Nat
  loRank : Nat
  copied : Bool
  deriving DecidableEq, Repr

/-- A collision-table entry (R130). -/
structure CollEntry where
  word : Nat
  rank : Nat
  value : Word32
  deriving DecidableEq, Repr

/-- A lane operation that waits at a bank for a tag (R141); `lanes` are the lanes that park for it, those of one access (R216). -/
structure TagWait where
  agent : AgentKey
  lane : Nat
  lanes : BitVec 32
  issue : Nat
  word : Nat
  op : TagOp
  data : Word32
  dest : Opnd
  remote : Option (Nat × Nat)
  deriving DecidableEq, Repr

/-- An exchange store held at a bank for an absent line (R135). -/
structure HeldStx where
  src : Nat
  off : Nat
  rank : Nat
  words : List Word32
  deriving DecidableEq, Repr

/-- A store of a lane to step memory that is on its way to its bank (R79, R127, R435): who issued it and when, where it goes and its bytes. -/
structure BankStore where
  agent : AgentKey
  issue : Nat
  off : Nat
  bytes : List Byte
  deriving DecidableEq, Repr

/-- A timeline counter (R84, R161, R393). -/
structure Timeline where
  issued : Nat
  completed : Nat
  done : List Nat
  faulted : List Nat
  deriving DecidableEq, Repr

/-- A resident team (R338, R341). `uid` is never reused. The poison tables mark 32-bit words of the present plane, the next plane and
accumulator memory (R115, R153); `prefb` holds the replies that PREFB operations still await: timeline, number, count (R225); `saved` marks
a team that a save in progress has drained (R401); `stores` holds its lanes' stores on their way to the banks, in issue order (R79). -/
structure Team where
  uid : Nat
  grid : Nat
  teamid : Nat
  core : Nat
  hdr : Header
  present : Sparse Byte
  stepPoison : Sparse Bool
  next : Sparse NextWord
  nextPoison : Sparse Bool
  tags : Sparse Bool
  copyCount : Sparse Nat
  coll : List CollEntry
  refilling : List Nat
  ladleMem : Sparse Byte
  acc : Sparse Word32
  accPoison : Sparse Bool
  bnd : List Word64
  bndflags : Word64
  tls : List Timeline
  prefb : List (Nat × Nat × Nat)
  tagWaits : List TagWait
  heldStx : List HeldStx
  seed : Word64
  boundaries : Nat
  terminated : Bool
  saved : Bool
  stores : List BankStore := []
  deriving DecidableEq, Repr

/-! ### Cores, jobs and engines -/

/-- A line of a core's L1 (R74). -/
structure L1Line where
  line : Nat
  expiry : Nat
  sectors : BitVec 8
  data : List Host.Cell
  deriving DecidableEq, Repr

/-- An L1 TLB entry (R58); `recent` is its bit of the pseudo-LRU. -/
structure TlbEntry where
  ctx : Nat
  x : Xlat
  recent : Bool := true
  deriving DecidableEq, Repr

/-- One level of a job card's walk (R300). -/
structure CardLevel where
  count : Nat
  tstride : Int
  sa : Int
  sb : Int
  so : Int
  sbias : Int
  deriving DecidableEq, Repr

/-- A job card (R300). -/
structure Card where
  levels : List CardLevel
  aBase : Nat
  bBase : Nat
  oBase : Nat
  biasBase : Nat
  aDelta : Int
  bDelta : Int
  kDelta : Int
  tBase : Nat
  tl : Nat
  fmtA : BitVec 32
  fmtB : BitVec 32
  fmtOut : BitVec 32
  scale : BitVec 32
  epi : Bool
  zero : Bool
  ck : Bool
  bnd : BitVec 4
  bndEn : Bool
  bias : Bool
  act : BitVec 2
  peak : Nat
  energy : Nat
  deriving DecidableEq, Repr

/-- A job held by a core's engine (R301 to R304): `asked` is the cycle in which it asked for admission, `tested` whether that request has
been served, `accumulated` whether the accumulation of step `step` has been done and its epilogue is due, `early` the operand words read
before their step's own read: step, offset, value, whether poisoned (R303); `undo` holds the tile's words and poison before an accumulation
whose epilogue is due, and its words after it, and `sat` whether it saturated (R304); `addr` is the step offset that a range fault names (R391). -/
structure Job where
  issuer : AgentKey
  n : Nat
  pc : Nat
  card : Card
  step : Nat
  accumulated : Bool
  early : List (Nat × Nat × Word32 × Bool)
  undo : List (Word32 × Bool × Word32) := []
  sat : Bool := false
  draws : List Nat
  asked : Nat
  tested : Bool
  admitted : Bool
  blocked : Nat
  fault : Option Nat
  addr : Nat := 0
  finished : Bool
  deriving DecidableEq, Repr

/-- A line of the L0 (R92): context, virtual and physical address, and 64 bytes. -/
structure L0Line where
  ctx : Nat
  va : Nat
  pa : Nat
  bytes : List Byte
  deriving DecidableEq, Repr

/-- A core (R2, R3): its instruction lines, L1, TLB, waiting table, prefetches in flight (the line, and whether a store has overtaken it),
jobs, and the cycle until which each quadrant's FP64 lanes are busy (R275). -/
structure Core where
  l0 : List L0Line
  l1 : List L1Line
  tlb : List TlbEntry
  waiting : List Entry
  prefs : List (Nat × Bool)
  jobs : List Job
  dpBusy : Sparse Nat
  deriving DecidableEq, Repr

/-- What the shard of a page has said to an agent that reads memory (R58, R60, R63): asked and not answered, parked on a page request, a page
with the number of invalidations written before it was given, a fault, or no path to the shard. -/
inductive PageAnswer where
  | asked
  | parked (id : Nat)
  | ok (x : Xlat) (gen : Nat)
  | fault (sub : Nat)
  | lost
  deriving DecidableEq, Repr

/-- What the home of a 16-byte sector has said: asked and not answered, or its bytes with their poison, as in a lane's answer. -/
inductive SectorAnswer where
  | asked
  | got (v : BitVec 128) (poison : Nat)
  deriving DecidableEq, Repr

/-- What an agent of the package that reads memory piece by piece has asked for and been told: pages by number and access, sectors by address
div 16. -/
structure Known where
  pages : List (Nat × Access × PageAnswer)
  sectors : List (Nat × SectorAnswer)
  deriving DecidableEq, Repr

/-- What a reader reads for: an instruction line of an agent, with the count of its fill (R190); a PREF of some lanes; a PREFB of a range
(R225); the record and image of a LAUNCH (R316); the image of the record at the head of a queue (R362, R365); the live masks of a SAFE at
which an agent is to be saved (R402). -/
inductive ReadGoal where
  | line (a : AgentKey) (va : Nat) (again : Bool)
  | pref (vas : List Nat)
  | prefb (team tl n va len : Nat)
  | launch (a : AgentKey) (dest : Opnd) (record tl n pc issue : Nat)
  | judge (queue num : Nat)
  | live (a : AgentKey) (idx va : Nat)
  deriving DecidableEq, Repr

/-- An agent of the package, on a socket and in a context, that reads memory piece by piece: a core's fetch, PREF, PREFB and LAUNCH, through the
core's TLB (R58), or the dispatcher. -/
structure Reader where
  id : Nat
  sock : Nat
  core : Option Nat
  ladle : Bool
  ctx : Nat
  goal : ReadGoal
  know : Known
  deriving DecidableEq, Repr

/-- Copy forms (R106). -/
inductive CopyForm where
  | copy | gather | scatter
  | reduce (op : BitVec 5)
  | codebook (slot : Nat)
  | check
  | cbload (slot count size : Nat)
  | cbdrop (slot : Nat)
  deriving DecidableEq, Repr

/-- The elements a copy moves (R104). -/
structure Shape where
  dims : Nat
  esize : Nat
  count0 : Nat
  count1 : Nat
  count2 : Nat
  src1 : Int
  src2 : Int
  dst1 : Int
  dst2 : Int
  ckOff : Nat
  deriving DecidableEq, Repr

/-- An entry of a copy engine's queue (R102, R110 to R115). `lines` holds the step lines whose count it raised and that it has
not yet finished, `wrote` the step lines it has written; `sums` the column sums of R114; `poisoned` and `mismatched` what it will end with though it
goes on (R115); `fault` what has ended it, with the address that faulted (R391); `held` the groups whose step it waits for (R140); `know` what it
has read (R67, R87); `counted` tells that a lag word has counted it (R424). -/
structure CopyOp where
  seq : Nat
  n : Nat
  tl : Nat
  issuer : AgentKey
  issue : Nat
  grid : Nat
  ctx : Nat
  pc : Nat
  form : CopyForm
  dstStep : Bool
  srcStep : Bool
  idxStep : Bool
  dst : Nat
  src : Nat
  idx : Nat
  shape : Shape
  slack : Nat
  boundary0 : Nat
  late : Bool
  pos : Nat
  outstanding : Nat
  tMax : Nat
  lines : List Nat
  sums : List (BitVec 32)
  wrote : List Nat
  poisoned : Bool
  mismatched : Bool
  fault : Option Nat
  addr : Nat := 0
  paced : Nat
  held : List Nat
  know : Known
  counted : Bool := false
  deriving DecidableEq, Repr

/-- A codebook slot (R108). -/
structure Codebook where
  team : Nat
  count : Nat
  size : Nat
  bytes : List Byte
  deriving DecidableEq, Repr

/-- A copy engine (R101); `pathTimes` holds, by path, the largest completion time that replies have returned (R41). -/
structure Engine where
  queue : List CopyOp
  slots : Sparse (Option Codebook)
  pathTimes : Sparse Nat := []
  deriving DecidableEq, Repr

/-! ### Fabric -/

/-- A remote bank operation carried by an XM packet (R133, R142, R241). -/
inductive BankOp where
  | stx (off rank group : Nat) (words : List Word32)
  | ldf (off : Nat) (keep : Bool)
  | ste (off : Nat) (x : Word32)
  | stf (off : Nat) (x : Word32)
  | tagset (off : Nat)
  | tagclr (off : Nat)
  | tagrd (off : Nat)
  | atomx (off : Nat) (op : BitVec 5) (w64 : Bool) (v c : Word64)
  deriving DecidableEq, Repr

/-- One lane's read, write or atomic in a packet. -/
structure LaneAcc where
  lane : Nat
  pa : Nat
  size : Nat
  v : BitVec 128
  c : Word64
  deriving DecidableEq, Repr

/-- A lane's answer; `poison` is 0 for none, the consumed-poison subcode plus 1, or 100 plus the subcode of a deferred memory fault. -/
structure LaneVal where
  lane : Nat
  v : BitVec 128
  poison : Nat
  deriving DecidableEq, Repr

/-- Who issued a request and awaits its reply (R35 agent and wte). A reader's unit is its core, or 992 for the dispatcher; `device` is a write of
the package's own records, `hart` a sandbox hart's release. -/
inductive Requester where
  | entry (core id : Nat) (ladle : Bool)
  | agent (core : Nat) (a : AgentKey) (issue pc : Nat) (lanes : BitVec 32)
  | engine (c e seq : Nat)
  | fence (core id : Nat) (ladle : Bool)
  | pref (core : Nat) (ladle : Bool)
  | reader (unit id : Nat) (ladle : Bool)
  | walker (sock id : Nat)
  | device (id : Nat)
  | hart (h : Nat)
  | other
  deriving DecidableEq, Repr

/-- A sandbox hart's operation on memory (R421), of 1 to 64 bytes; `load` fills the shared cache under a lease, `fetch` the hart's own instruction
cache. -/
inductive HartOp where
  | load (n : Nat)
  | store (n : Nat) (v : BitVec 512)
  | fetch
  | amo (op : BitVec 5) (w64 aq : Bool) (v : Word64)
  | lr (w64 : Bool)
  | sc (w64 : Bool) (v : Word64)
  deriving DecidableEq, Repr

/-- What an answer to a hart brings instead of what it asked for: nothing, poison, or the fault of an access to no memory (R412, R422). -/
inductive HartBad where
  | fine | poison | fault
  deriving DecidableEq, Repr

/-- What a TX packet encapsulates (R36, R414, R421): a host's access to one line of device memory and its answer, a hart's and its answer, or
traffic that the manual does not describe. -/
inductive TxBody where
  | raw (bytes : List Byte)
  | hostRead (id pa len : Nat) (own : Bool)
  | hostWrite (id : Nat) (cells : List Host.Cell)
  | hostData (id pa : Nat) (bytes : List Byte) (poison : Bool)
  | hostDone (id time : Nat)
  | hart (id h pa : Nat) (op : HartOp)
  | hartDone (id h pa : Nat) (v : BitVec 512) (bad : HartBad) (time : Nat) (cells : List Host.Cell) (expiry : Nat)
  deriving DecidableEq, Repr

/-- What a translation request got from its shard (R60). -/
inductive XlatAnswer where
  | ok (x : Xlat)
  | fault (sub : Nat)
  | request (id : Nat)
  | lost
  deriving DecidableEq, Repr

/-- The content of a packet (R36). -/
inductive Msg where
  | rd (reqs : List LaneAcc) (lease : Bool)
  | xreq (ctx vpn va : Nat) (acc : Access)
  | rdr (vals : List LaneVal) (line : Nat) (cells : List Host.Cell) (expiry : Nat)
  | xrep (vpn : Nat) (ans : XlatAnswer)
  | wr (cells : List Host.Cell) (whole : Bool) (check : Option (BitVec 32)) (poisoned : Bool)
  | wrc (time : Nat) (mismatch : Bool)
  | at (op : BitVec 5) (w64 : Bool) (reqs : List LaneAcc) (returns : Bool)
  | atr (vals : List LaneVal) (time : Nat) (returns : Bool)
  | lx (lane idxPa esize : Nat) (signed : Bool) (elemBase pageBase pageSize : Nat) (attr : BitVec 2)
  | lxe (lane ea esize : Nat)
  | postErr (cause sub : Nat)
  | fm
  | fmr (time : Nat)
  | xm (core grid : Nat) (lane : Nat) (op : BankOp) (from_ : AgentKey) (issue pc : Nat)
  | xmr (vals : List LaneVal)
  | xmErr (lane cause : Nat) (from_ : AgentKey) (issue pc off : Nat)
  | pf (base len : Nat) (team tl n : Nat)
  | pfr (team tl n : Nat)
  | commit (lines : List Nat)
  | commitAck
  | rm (epoch : Nat)
  | rma (epoch : Nat)
  | ack (lack : BitVec 8)
  | selfTest
  | loss (planeB : Bool)
  | cwb (pa : Nat)
  | tx (b : TxBody)
  | reserved
  deriving DecidableEq, Repr

/-- What an invalidation covers (R68). -/
structure Inval where
  scope : Nat
  stage2 : Bool
  ctx : Nat
  base : Nat
  len : Nat
  deriving DecidableEq, Repr

/-- A translation that an access in flight has used: its context, its page, and the number of invalidations written before it was given (R69). -/
structure Via where
  ctx : Nat
  vaBase : Nat
  size : Nat
  gen : Nat
  deriving DecidableEq, Repr

/-- A packet (R35): the fields that routing and order use, and its content. `wte` is the waiting-table number of its requester, which the reply
echoes; `va` the virtual address of the first lane of a posted access, kept for the record of an error report (R391); `via` the translations
that its lanes used. -/
structure Packet where
  src : Nat
  dst : Nat
  relayed : Bool
  planeB : Bool
  who : Requester
  attr : BitVec 2
  pa : Nat
  sseq : BitVec 16
  msg : Msg
  va : Nat := 0
  via : List Via := []
  wte : Nat := 0
  deriving DecidableEq, Repr

/-- A packet on a hop: its link number, the acknowledgement it carries for the reverse hop, when it was sent, and its check field as it travels
(R35, R38). -/
structure Sent where
  lseq : BitVec 8
  lack : BitVec 8
  at_ : Nat
  pkt : Packet
  crc : BitVec 32
  deriving DecidableEq, Repr

/-- A request that a home slice has accepted and not yet applied (R15): the hop that it came by, when it reached the slice, the slice's priority
pointer as that cycle began, and for a prefetch the lines, for a commit the half-lines, still to serve. -/
structure Arrival where
  hop : Hop
  at_ : Nat
  ptr : Nat
  pkt : Packet
  lines : List Nat
  deriving DecidableEq, Repr

/-- One hop's link state (R37, R38, R42): `wire` travels, `unacked` is the replay buffer, `queued` waits for the window. -/
structure Link where
  hop : Hop
  wire : List Sent
  unacked : List Sent
  queued : List Packet
  nextSeq : BitVec 8
  expected : BitVec 8
  resends : Nat
  dark : Bool
  deriving DecidableEq, Repr

/-- Stream numbering of R39 for one (source, destination, plane); `skips` holds the numbers of packets that were dropped for want of a path
(R45), which the destination does not wait for. -/
structure Stream where
  hop : Hop
  next : BitVec 16
  expected : BitVec 16
  skips : List (BitVec 16) := []
  deriving DecidableEq, Repr

/-- A retest of the dark colours of a route (R44): when it began, and the planes that were dark then. -/
structure Retest where
  src : Nat
  dst : Nat
  since : Nat
  planeA : Bool
  planeB : Bool
  deriving DecidableEq, Repr

/-- A drained route change (R46) of one half: packets held at the source, and the hop that the old path begins with. -/
structure RouteChange where
  hop : Hop
  held : List Packet
  epoch : Nat
  old : Option Hop
  deriving DecidableEq, Repr

/-- A whisk-tree message of a cohort group (R50): the number of links that the last contribution, and then the result, has crossed. -/
structure Whisk where
  group : GroupKey
  k : Nat
  isStep : Bool
  links : Nat
  due : Nat
  deriving DecidableEq, Repr

/-- A member's part in a reduction (R323): its destination, and its REDT; `live` until an unwind drops its result. -/
structure RedMember where
  agent : AgentKey
  dest : Opnd
  issue : Nat
  pc : Nat
  live : Bool
  deriving DecidableEq, Repr

/-- The collected k-th reduction of a group (R323). -/
structure Reduction where
  group : GroupKey
  k : Nat
  op : BitVec 3
  mixed : Bool
  value : Word64
  members : List RedMember
  deriving DecidableEq, Repr

/-! ### Home slices, shards -/

/-- A line held by a home slice (R14). The key of the table is PA div 128. `recent` is its bit of the pseudo-LRU; `weak` and `broken` mark the
sectors with one wrong bit, and with more than SEC-DED corrects, that no read has found (R27). -/
structure SliceLine where
  valid : BitVec 8
  dirty : BitVec 8
  poison : BitVec 8
  pin : Bool
  lease : Nat
  recent : Bool
  weak : BitVec 8
  broken : BitVec 8
  deriving DecidableEq, Repr

/-- Rewrite mask of a half-line with its writer (R93). -/
structure Rewrite where
  mask : BitVec 4
  src : Nat
  who : Requester
  deriving DecidableEq, Repr

/-- A cached 64 KiB translation of a shard (R59). -/
structure ShardEntry where
  ctx : Nat
  vpn : Nat
  x : Xlat
  deriving DecidableEq, Repr

/-- Who gets the answer of a walk. -/
structure XReq where
  from_ : Nat
  planeB : Bool
  who : Requester
  ctx : Nat
  vpn : Nat
  va : Nat
  acc : Access
  deriving DecidableEq, Repr

/-- A nested stage-2 walk (R62): the IPA, the level it stands at and the table it reads. -/
structure Nested where
  ipa : Nat
  level : Nat
  table : Nat
  deriving DecidableEq, Repr

/-- A stage-1 leaf found (R54): the entry, its address and the size of its page. -/
structure Leaf where
  entry : Word64
  pa : Nat
  size : Nat
  deriving DecidableEq, Repr

/-- What a walk will answer once its updates have been applied (R55). -/
inductive WalkResult where
  | ok (x : Xlat)
  | fault (sub : Nat)
  deriving DecidableEq, Repr

/-- A walk in progress (R62): the stage-1 level it stands at (4 stands for the output), the stage-1 table, the address of the entry
to read once stage 2 has given it, the stage-2 leaf that gave it (its address and whether it grants w), the nested walk; what the
context's registers said when the walk began (R56); the updates of accessed and dirty still to be applied before it goes on, and its result, if
only those keep it (R55); and what its reference or update under way has come back with. -/
structure Walk where
  id : Nat
  req : XReq
  level : Nat
  table : Nat
  entryPa : Option Nat
  tableW : Bool
  tableLeaf : Option Nat
  s2 : Option Nested
  leaf : Option Leaf
  leafW : Bool
  leafS2 : Option Nat
  poison : Bool
  refs : Nat
  dropped : Bool
  s2en : Bool
  s2root : Nat
  prq : Bool
  ors : List (Nat × Word64)
  result : Option WalkResult
  got : Option (Word64 × Bool)
  deriving DecidableEq, Repr

/-- A shard (R59, R61): entries, second-stage results, walks running, misses waiting. -/
structure Shard where
  entries : List ShardEntry
  stage2 : List (Nat × Nat × Xlat × Nat)
  walks : List Walk
  waiting : List XReq
  toPost : List (XReq × Nat × Nat × Nat)
  deriving DecidableEq, Repr

/-- A page request (R63 to R65): what software has answered, if it has (true asks for a replay), and whether the requester has been told its
identifier. It stays open until both have happened. -/
structure PageReq where
  ctx : Nat
  id : Nat
  req : XReq
  answer : Option Bool := none
  told : Bool := false
  deriving DecidableEq, Repr

/-! ### Queues and grids -/

/-- A launch record (R361). -/
structure Record where
  image : Nat
  args : Word64
  gx : Nat
  gy : Nat
  gz : Nat
  tx : Nat
  ty : Nat
  tz : Nat
  w0 : BitVec 16
  w1 : BitVec 16
  w0val : Nat
  w1val : Nat
  cmp : BitVec 16
  reserved : BitVec 48
  tag : Word64
  deriving DecidableEq, Repr

/-- What the dispatcher has read of a record's image (R362): nothing it can use, since the image is misaligned, has no translation or is poison;
or its header, with whether the header and the region entries follow the rules of R209, and whether the bound table could be read. -/
inductive ImageRead where
  | bad
  | read (h : Header) (fine : Bool) (table : Bool)
  deriving DecidableEq, Repr

/-- A record in a queue with the queue timeline and number it took at enqueue (R360), the instant from which its wait at the head of an
eligible queue is counted, whether a cohort has waited 1 ms there (R343), and what has been read of its image there (R365), with whether it
was read in this nanosecond (R362). -/
structure Queued where
  rec_ : Record
  tlq : Nat
  num : Nat
  headSince : Nat
  blocking : Bool
  judged : Option ImageRead
  fresh : Bool := false
  deriving DecidableEq, Repr

/-- Where a grid's retirement is counted (R344, R360). -/
inductive GridParent where
  | queue (tlq num : Nat)
  | child (team tl num : Nat)
  deriving DecidableEq, Repr

/-- A grid (R338 to R340, R367). -/
structure Grid where
  id : Nat
  queue : Nat
  priority : Nat
  cls : Nat
  domain : Nat
  vf : Nat
  boost : Bool
  depth : Nat
  parent : GridParent
  parentGrid : Option Nat
  launch : Record
  hdr : Header
  nextTeam : Nat
  retired : Nat
  order : Nat
  since : Nat
  blocking : Bool
  terminated : Bool
  faulted : Option Nat
  deriving DecidableEq, Repr

/-- Saved teams of one queue (R400 to R404): what the private layout of the area stands for, held as data (DESIGN CHOICE, log entry 9). -/
structure SaveArea where
  queue : Nat
  base : Nat
  emergency : Bool
  grids : List Grid
  teams : List Team
  agents : List Agent
  deriving DecidableEq, Repr

/-! ### Package -/

/-- A chiplet's package-time counter against the master's (R47); `missed` counts the exchanges that failed since the last good one (R399). -/
structure Clock where
  offset : Int
  remove : Int
  lastSlew : Nat
  good : Nat
  nextExchange : Nat
  missed : Nat := 0
  deriving DecidableEq, Repr

/-- A cluster's clock (R202, R374, R385): phase in hundredths of a cycle, cycles counted, quadrants that have issued in this
cycle, and the end of droop halving. -/
structure Cluster where
  phase : Nat
  cycle : Nat
  issued : List Nat
  ladleTurn : List (Nat × Nat)
  halvedUntil : Option Nat
  deriving DecidableEq, Repr

/-- Run state of a droop curve point (R378). -/
structure CurveRun where
  start : Nat
  clearSince : Option Nat
  deriving DecidableEq, Repr

/-- A request of the package to a system range that waits for its answer (R412, R418): the scale-up port, and what the outside is asked for,
the package identity of a scale-up window and the address in host memory, the pool or the remote package (R412, R423). -/
structure SysReq where
  pkt : Packet
  port : Nat
  pkg : Nat := 0
  addr : Nat := 0
  deriving DecidableEq, Repr

/-- What a write of the package's own records is for (R64, R392, R403). -/
inductive DevGoal where
  | log (domain : Nat)
  | prq (ctx : Nat)
  | save (queue : Nat)
  deriving DecidableEq, Repr

/-- A write of the package's own records to device memory: the die that writes, the bytes while its packets have still to be sent, the answers
that they await, and the largest completion time so far (R64, R392). -/
structure DevWrite where
  id : Nat
  sock : Nat
  goal : DevGoal
  cells : List Host.Cell
  left : Nat
  time : Nat
  deriving DecidableEq, Repr

/-- A host write whose completion has not been returned (R414). -/
structure HostDone where
  host : Nat
  pa : Nat
  time : Nat
  deriving DecidableEq, Repr

/-- A host's access that waits for its homes (R414): the lines that have not answered, and the data and completion time so far. -/
structure HostReq where
  id : Nat
  host : Nat
  pa : Nat
  len : Nat
  write : Bool
  left : Nat
  cells : List Host.Cell
  poison : Bool
  time : Nat
  deriving DecidableEq, Repr

/-- The modes of a hart (R420): machine, hypervisor-extended supervisor, user, and the two of a guest. PRESUMED, log entry 53. -/
inductive HartMode where
  | m | hs | u | vs | vu
  deriving DecidableEq, Repr

/-- A register of a hart: integer, floating-point or vector (R420). PRESUMED, log entry 53. -/
inductive HartReg where
  | x (n : Nat)
  | f (n : Nat)
  | v (n : Nat)
  deriving DecidableEq, Repr

/-- A sandbox hart (R420): its pc, mode, registers (vectors of 256 bits) and control and status registers by number; `rd` is the register that its
instruction at pc loads into, sign-extended or not. `paths` are those of its writes since its last release; a release under way (R421) awaits
`markers` replies and then that package time has passed `till`; `next` is the AMO that waits for it. PRESUMED, log entry 53. -/
structure Hart where
  pc : Word64
  mode : HartMode
  x : Sparse Word64
  f : Sparse Word64
  v : Sparse (BitVec 256)
  csr : Sparse Word64
  rd : HartReg
  signed : Bool
  paths : List Path
  markers : Nat
  till : Nat
  next : Option (Nat × HartOp)
  deriving DecidableEq, Repr

/-- A memory operation of a hart that has not been answered (R421): the register that it loads into, the parts of it that are still out, and
the bytes and faults of those that are in; `stale` marks a fetch that a FENCE.I has overtaken; and its instruction's pc. -/
structure HartPend where
  id : Nat
  hart : Nat
  pa : Nat
  op : HartOp
  rd : HartReg
  signed : Bool
  left : Nat
  got : List Host.Cell
  bad : HartBad
  stale : Bool
  pc : Word64
  deriving DecidableEq, Repr

/-- A line of the shared cache of the sandbox chiplet (R90, R420): its lease, its sectors, and the harts that have loaded it. -/
structure SbxLine where
  line : Nat
  expiry : Nat
  sectors : BitVec 8
  data : List Host.Cell
  harts : BitVec 64
  poison : Bool
  deriving DecidableEq, Repr

/-- A hart's load reservation (R421). -/
structure Reservation where
  hart : Nat
  sector : Nat
  deriving DecidableEq, Repr

/-- What the package has sent to the outside: an MSI-X vector, a host answer, an attestation report, a lag word, an error.
DESIGN CHOICE, log entry 5. -/
inductive Output where
  | msix (function vector : Nat)
  | hostData (host pa : Nat) (data : List Byte) (poison : Bool)
  | hostDone (host pa : Nat)
  | snoop (line : Nat)
  | report (bytes signature : List Byte)
  | lag (n : Nat)
  | deviceError
  | systemWrite (pa : Nat) (data : List Byte)
  | debugHalt (a : AgentKey) (code : BitVec 16)
  | bootFailed
  deriving DecidableEq, Repr

/-- An emergency save in progress, or one that host memory holds (R407 to R409); `cut` tells that a hard trip ended it. -/
structure EmSave where
  pending : List Nat
  lost : List Nat
  nextOff : Nat
  dir : List (Nat × Nat × Nat)
  cut : Bool
  valid : Bool
  deriving DecidableEq, Repr

/-- Where boot stands after a package reset (R13, R386, R425). -/
inductive BootState where
  | before | stopped | done
  deriving DecidableEq, Repr

/-- What befalls the package from outside its own steps (R2, R27, R38, R47, R90, R153, R290, R303, R427): a packet damaged on a wire, a chiplet's
clock that slips, a wrong bit of DRAM or of a slice, an uncorrectable error of a register, a word of accumulator memory, an address-table entry
or a line of the shared cache of the sandbox chiplet, an operand word that a job or an MMA reads ahead, a sandbox hart's plain access or
fetch, another instruction of its own, which leaves it in some state of its registers, and a management command that comes through a
function's mailbox or out of band. DESIGN CHOICE, log entry 5. -/
inductive Disturbance where
  | wire (h : Hop) (mask : BitVec 32)
  | slip (sock : Nat) (ahead : Bool)
  | symbol (half : Nat)
  | sliceBit (sector : Nat)
  | vreg (a : AgentKey) (reg lane : Nat)
  | sreg (a : AgentKey) (reg : Nat)
  | accWord (team word : Nat)
  | addrEntry (a : AgentKey) (num : Nat)
  | sbxLine (line : Nat)
  | early (core job off ahead : Nat)
  | mmaEarly (a : AgentKey) (off : Nat)
  | hart (h pa : Nat) (op : HartOp)
  | hartRun (h : Nat) (st : Hart)
  | mailbox (function : Nat) (cmd : Instr)
  | outOfBand (cmd : Instr)
  deriving DecidableEq, Repr

/-- One move of the machine: an agent issues, a variable result lands, a store reaches its bank, a cluster cycle ends, time advances, a step of the
package happens, or something befalls it. DESIGN CHOICE, log entry 5. -/
inductive Move where
  | issue (a : AgentKey)
  | land (a : AgentKey) (n : Nat)
  | bank (team n : Nat)
  | cycle (cluster : Nat)
  | tick
  | event (i : Instr)
  | befall (d : Disturbance)
  deriving DecidableEq, Repr

/-- The state of the package. `agenda`, `turn` and `freeCount` are the model's own (log entries 2 and 5). DESIGN CHOICE, log entry 5. -/
structure State where
  agenda : List Move
  turn : Option AgentKey
  freeCount : Nat
  time : Nat
  clocks : Sparse Clock
  clusters : Sparse Cluster
  powered : BitVec 32
  released : BitVec 32
  failed : BitVec 32
  regs : Sparse Word64
  meas : List (List Byte)
  mem : Memory
  slice : Memory
  lines : Sparse SliceLine
  dramPoison : Sparse Bool
  badSymbols : Sparse Nat
  rewrites : List (Nat × Rewrite)
  horizon : Sparse Nat
  maxDone : Sparse Nat
  arb : Sparse Nat
  scrubPos : Sparse Nat
  links : List Link
  inbox : List Arrival
  streams : List Stream
  changes : List RouteChange
  rmaHeld : List Packet
  markers : List Packet
  protErr : Sparse Nat
  retests : List Retest
  whisk : List Whisk
  branches : Sparse Nat
  reductions : List Reduction
  shards : Sparse Shard
  pageReqs : List PageReq
  devWrites : List DevWrite
  xlatGen : Nat
  inval : Inval
  cores : Sparse Core
  readers : List Reader
  teams : List Team
  agents : List Agent
  engines : Sparse Engine
  grids : List Grid
  queues : Sparse (List Queued)
  lastTaken : Sparse Nat
  lastTake : Nat
  curve : Sparse (Option CurveRun)
  lastSample : Nat
  staleSince : Nat
  energyLeft : Sparse Nat
  shedSince : Sparse Nat
  lastBoundary : Nat
  logConfigured : BitVec 64
  saves : List SaveArea
  saving : Option Nat
  em : Option EmSave
  scanFail : BitVec 32
  hostHeld : List Nat
  snoops : List (Nat × Nat × Hop × Packet)
  hostUp : Bool
  hostDownSince : Nat
  hostDone : List HostDone
  hostReqs : List HostReq
  sysReqs : List SysReq
  reservations : List Reservation
  sbxLines : List SbxLine
  hartRegs : Sparse Hart
  hartLines : Sparse (List (Nat × List Byte))
  hartOps : List HartPend
  harts : BitVec 64
  mgmt : List Instr
  links18 : List (Nat × LinkState × Nat)
  lags : List Nat
  lastL : Nat
  lateCopies : Nat
  lastPace : Nat
  funcDomain : Sparse Nat
  debugOn : BitVec 64
  memGrants : List (Nat × Nat)
  staged : List (Nat × List Byte)
  firmware : List (List Byte)
  boot : BootState
  outputs : List Output
  nextId : Nat
  hardTrip : Bool
  standby : Bool
  deriving DecidableEq, Repr

/-- Reasons for which the model stops with a fault: there is none, since the spec gives every step of this hardware an effect. -/
inductive Fault where
  deriving DecidableEq, Repr

/-- Reasons for which the model gives a step no meaning. DESIGN CHOICE, log entry 44. -/
inductive Refusal where
  /-- Raised by exec for an instruction without a meaning. Safe: no claim follows from it. -/
  | notModelled (mnemonic : String)
  /-- Raised by a step of the package whose trigger is not present in the state: no such step occurs there. Safe. -/
  | notDue (mnemonic : String)
  /-- Raised by a Daref instruction when no agent has the turn to issue it. Safe. -/
  | noIssuer
  deriving DecidableEq, Repr

/-- The name `next`, `fault` or `refused` of a step's outcome. -/
abbrev Result := Host.Outcome State Fault Refusal

/-- The package right after package reset (R386): time 0 of the reset sequence, only the service chiplet powered, every
register at its reset value, nothing resident (values the manual does not give: DESIGN CHOICE, log entry 3). DESIGN CHOICE, log entry 1. -/
def State.reset : State where
  agenda := []
  turn := none
  freeCount := 0
  time := 0
  clocks := []
  clusters := []
  powered := 0x80000000#32
  released := 0
  failed := 0
  regs := []
  meas := List.replicate 8 (List.replicate 32 0)
  mem := []
  slice := []
  lines := []
  dramPoison := []
  badSymbols := []
  rewrites := []
  horizon := []
  maxDone := []
  arb := []
  scrubPos := []
  links := []
  inbox := []
  streams := []
  changes := []
  rmaHeld := []
  markers := []
  protErr := []
  retests := []
  whisk := []
  branches := []
  reductions := []
  shards := []
  pageReqs := []
  devWrites := []
  xlatGen := 0
  inval := ⟨0, false, 0, 0, 0⟩
  cores := []
  readers := []
  teams := []
  agents := []
  engines := []
  grids := []
  queues := []
  lastTaken := []
  lastTake := 0
  curve := []
  lastSample := 0
  staleSince := 0
  energyLeft := []
  shedSince := []
  lastBoundary := 0
  logConfigured := 0
  saves := []
  saving := none
  em := none
  scanFail := 0
  hostHeld := []
  snoops := []
  hostUp := true
  hostDownSince := 0
  hostDone := []
  hostReqs := []
  sysReqs := []
  reservations := []
  sbxLines := []
  hartRegs := []
  hartLines := []
  hartOps := []
  harts := 0
  mgmt := []
  links18 := []
  lags := []
  lastL := 0
  lateCopies := 0
  lastPace := 0
  funcDomain := []
  debugOn := 0
  memGrants := []
  staged := []
  firmware := []
  boot := .before
  outputs := []
  nextId := 0
  hardTrip := false
  standby := true

end Sys2Proof.Machine
end

