-- ==== Sys2Proof/Machine/Sparse.lean ====
section
/-! DEFINITION. Sparse tables in canonical form, and bit fields and byte order (R4, R5). -/

namespace Sys2Proof.Machine

/-- The entry of a key, if listed. -/
def slookup {V : Type} : Sparse V → Nat → Option V
  | [], _ => none
  | (a, x) :: r, k => if a = k then some x else slookup r k

/-- A table with one key's entry put in key order. -/
def sinsert {V : Type} : Sparse V → Nat → V → Sparse V
  | [], k, v => [(k, v)]
  | (a, x) :: r, k, v =>
    if k < a then (k, v) :: (a, x) :: r else if a = k then (k, v) :: r else (a, x) :: sinsert r k v

/-- A table without a key. -/
def serase {V : Type} (m : Sparse V) (k : Nat) : Sparse V := m.filter fun e => e.1 != k

/-- The value of a key, `d` where it is not listed. -/
def sget {V : Type} (d : V) (m : Sparse V) (k : Nat) : V := (slookup m k).getD d

/-- A table with one key's value changed; writing the default removes the entry. -/
def sset {V : Type} [DecidableEq V] (d : V) (m : Sparse V) (k : Nat) (v : V) : Sparse V :=
  if v = d then serase m k else sinsert m k v

/-- A table with one key's value updated by a function. -/
def supd {V : Type} [DecidableEq V] (d : V) (m : Sparse V) (k : Nat) (f : V → V) : Sparse V :=
  sset d m k (f (sget d m k))

/-- Keys strictly rising. -/
def srising {V : Type} : Sparse V → Bool
  | [] => true
  | [_] => true
  | a :: b :: r => decide (a.1 < b.1) && srising (b :: r)

/-- The canonical form of a sparse table with default `d`. -/
def swf {V : Type} [DecidableEq V] (d : V) (m : Sparse V) : Bool :=
  srising m && m.all fun e => decide (e.2 ≠ d)

/-- The canonical form of memory: what an unlisted address reads as is the byte 0 (DESIGN CHOICE, log entry 1). -/
def Memory.wf (m : Memory) : Bool := swf 0 m

/-- One byte of memory (DESIGN CHOICE, log entry 1). -/
def readByte (m : Memory) (a : Nat) : Byte := sget 0 m a

/-- Memory with one byte written. DESIGN CHOICE, log entry 1. -/
def writeByte (m : Memory) (a : Nat) (b : Byte) : Memory := sset 0 m a b

/-- Memory with a list of cells written in order. -/
def writeCells (m : Memory) (cs : List Host.Cell) : Memory := cs.foldl (fun m c => writeByte m c.1 c.2) m

/-- `n` bytes from `a` upwards. -/
def readBytes (m : Memory) (a n : Nat) : List Byte := (List.range n).map fun i => readByte m (a + i)

/-- The number that a little-endian run of bytes holds (R4). -/
def leNat : List Byte → Nat
  | [] => 0
  | b :: r => b.toNat + 256 * leNat r

/-- The low `n` bytes of a number, lowest first (R4). -/
def leBytes : Nat → Nat → List Byte
  | 0, _ => []
  | n + 1, x => BitVec.ofNat 8 x :: leBytes n (x / 256)

/-- A run of bytes as cells from `a` upwards. -/
def cellsAt (a : Nat) (bs : List Byte) : List Host.Cell := bs.zipIdx.map fun (b, i) => (a + i, b)

/-- `n` bytes as a number. -/
def readLe (m : Memory) (a n : Nat) : Nat := leNat (readBytes m a n)

/-- Bits [hi:lo] as a number (R4). -/
def fld {n : Nat} (w : BitVec n) (hi lo : Nat) : Nat := (w.toNat >>> lo) % 2 ^ (hi + 1 - lo)

/-- Bit i (R4). -/
def bit {n : Nat} (w : BitVec n) (i : Nat) : Bool := w.getLsbD i

/-- A word with bits [hi:lo] replaced. -/
def setFld {n : Nat} (w : BitVec n) (hi lo x : Nat) : BitVec n :=
  let m := BitVec.ofNat n ((2 ^ (hi + 1 - lo) - 1) <<< lo)
  (w &&& ~~~m) ||| (BitVec.ofNat n (x <<< lo) &&& m)

/-- A word with one bit replaced. -/
def setBit {n : Nat} (w : BitVec n) (i : Nat) (b : Bool) : BitVec n := setFld w i i b.toNat

/-- A number saturated at 2^bits - 1, as counters of the register maps are (R30, R116). DEDUCED, log entry 42. -/
def saturate (bits x : Nat) : Nat := min x (2 ^ bits - 1)

/-- Elements of a table with the element of one key updated. -/
def updWhere {α : Type} (p : α → Bool) (f : α → α) (l : List α) : List α := l.map fun a => if p a then f a else a

/-- An element put before the first that does not come before it. -/
def insertBy {α : Type} (le : α → α → Bool) (x : α) : List α → List α
  | [] => [x]
  | y :: r => if le x y then x :: y :: r else y :: insertBy le x r

/-- A list in an order; equal elements keep their places. -/
def sortBy {α : Type} (le : α → α → Bool) (l : List α) : List α := l.foldr (insertBy le) []

/-- Position of the `n`-th set bit, counting from 0, of a mask of `w` bits (R10, R59). -/
def nthSetBit (m : Nat) (n : Nat) (w : Nat) : Nat :=
  (((List.range w).filter fun i => m.testBit i)[n]?).getD 0

/-- Number of set bits among the low `w`. -/
def popCount (m : Nat) (w : Nat) : Nat := ((List.range w).filter fun i => m.testBit i).length

end Sys2Proof.Machine
end

