-- ==== Sys2Proof/Machine/Num.lean ====
section
/-! DEFINITION. Exact values, number formats, the one rounding function, conversions and stochastic draws (R165 to R170, R186, R187). -/

namespace Sys2Proof.Machine

/-- An exact value: NaN, an infinity, or (-1)^neg * m * 2^e; m = 0 is a signed zero. -/
inductive FVal where
  | nan
  | inf (neg : Bool)
  | fin (neg : Bool) (m : Nat) (e : Int)
  deriving DecidableEq, Repr

/-- What a float format has beside finite values: infinities and NaN, NaN only (E4M3), or neither (R165, R173). -/
inductive Special where
  | ieee | nanOnly | finite
  deriving DecidableEq, Repr

/-- A float format by its exponent and mantissa widths; every bias is 2^(E-1) - 1 (R165, R173). -/
structure Fmt where
  eb : Nat
  mb : Nat
  sp : Special
  deriving DecidableEq, Repr

def f64 : Fmt := ⟨11, 52, .ieee⟩
def f32 : Fmt := ⟨8, 23, .ieee⟩
def f16 : Fmt := ⟨5, 10, .ieee⟩
def bf16 : Fmt := ⟨8, 7, .ieee⟩
def e5m2 : Fmt := ⟨5, 2, .ieee⟩
def e4m3 : Fmt := ⟨4, 3, .nanOnly⟩
def e3m2 : Fmt := ⟨3, 2, .finite⟩
def e2m3 : Fmt := ⟨2, 3, .finite⟩
def e2m1 : Fmt := ⟨2, 1, .finite⟩

namespace Fmt

/-- The exponent bias. -/
def bias (f : Fmt) : Nat := 2 ^ (f.eb - 1) - 1

/-- Exponent of the last mantissa bit of a subnormal. -/
def qmin (f : Fmt) : Int := 1 - (f.bias : Int) - f.mb

/-- Exponent of the smallest normal value. -/
def emin (f : Fmt) : Int := 1 - (f.bias : Int)

/-- Number of value bits of the format. -/
def width (f : Fmt) : Nat := 1 + f.eb + f.mb

/-- Code of the largest finite magnitude. -/
def maxCode (f : Fmt) : Nat :=
  match f.sp with
  | .ieee => (2 ^ f.eb - 1) * 2 ^ f.mb - 1
  | .nanOnly => 2 ^ (f.eb + f.mb) - 2
  | .finite => 2 ^ (f.eb + f.mb) - 1

/-- Code of +infinity of a format with infinities. -/
def infCode (f : Fmt) : Nat := (2 ^ f.eb - 1) * 2 ^ f.mb

/-- Canonical quiet NaN (R165, R173); formats without NaN give code 0 (R186). -/
def nanCode (f : Fmt) : Nat :=
  match f.sp with
  | .ieee => if f.mb = 2 then 0x7E else f.infCode + 2 ^ (f.mb - 1)
  | .nanOnly => 2 ^ (f.eb + f.mb) - 1
  | .finite => 0

/-- Sign bit of a format. -/
def signBit (f : Fmt) : Nat := 2 ^ (f.eb + f.mb)

end Fmt

/-- The value of a code (R165, R173). -/
def decodeF (f : Fmt) (c : Nat) : FVal :=
  let neg := c.testBit (f.eb + f.mb)
  let ex := (c >>> f.mb) % 2 ^ f.eb
  let m := c % 2 ^ f.mb
  let mag := c % f.signBit
  match f.sp with
  | .ieee =>
    if ex = 2 ^ f.eb - 1 then (if m = 0 then .inf neg else .nan)
    else if ex = 0 then .fin neg m f.qmin
    else .fin neg (m + 2 ^ f.mb) (f.qmin + (ex : Int) - 1)
  | .nanOnly =>
    if mag = f.nanCode then .nan
    else if ex = 0 then .fin neg m f.qmin else .fin neg (m + 2 ^ f.mb) (f.qmin + (ex : Int) - 1)
  | .finite => if ex = 0 then .fin neg m f.qmin else .fin neg (m + 2 ^ f.mb) (f.qmin + (ex : Int) - 1)

/-- A signalling NaN: a NaN whose top mantissa bit is 0 (R165). -/
def isSnan (f : Fmt) (c : Nat) : Bool := decodeF f c == .nan && !c.testBit (f.mb - 1)

/-- Rounding modes (R168); `sr u` carries the draw of R169. -/
inductive Rnd where
  | rne | rz | ru | rd
  | sr (u : Nat)
  deriving DecidableEq, Repr

/-- The flags of %fpstat (R157): invalid, divide-by-zero, overflow, underflow, inexact. -/
abbrev FFlags := BitVec 5

def fInvalid : FFlags := 16#5
def fDivZero : FFlags := 8#5
def fOverflow : FFlags := 4#5
def fUnderflow : FFlags := 2#5
def fInexact : FFlags := 1#5

/-- Whether rounding at a last bit of weight 2^q moves away from zero, from the kept part, the dropped part and its size. -/
def roundsUp (mode : Rnd) (neg : Bool) (kept rem pow : Nat) : Bool :=
  if rem = 0 then false
  else match mode with
    | .rne => decide (pow < 2 * rem) || (2 * rem == pow && kept % 2 == 1)
    | .rz => false
    | .ru => !neg
    | .rd => neg
    | .sr u => decide (u < rem * 65536 / pow)

/-- m * 2^e rounded to a multiple of 2^q: the multiple, and whether it differs from the exact value (R168, R169). -/
def roundAt (mode : Rnd) (neg : Bool) (m : Nat) (e q : Int) : Nat × Bool :=
  if q ≤ e then (m * 2 ^ (e - q).toNat, false)
  else
    let sh := (q - e).toNat
    let pow := 2 ^ sh
    let kept := m / pow
    let rem := m % pow
    (if roundsUp mode neg kept rem pow then kept + 1 else kept, rem != 0)

/-- Exponent of the leading bit of m * 2^e, m > 0. -/
def leadExp (m : Nat) (e : Int) : Int := (Nat.log2 m : Int) + e

/-- A nonzero finite value rounded to a format's precision, on an unbounded range above: multiple, exponent of its last bit,
inexact, tiny (R167 to R169). -/
def roundPrec (f : Fmt) (mode : Rnd) (neg : Bool) (m : Nat) (e : Int) : Nat × Int × Bool × Bool :=
  let lg := leadExp m e
  let q := max (lg - f.mb) f.qmin
  let r := roundAt mode neg m e q
  let tiny := match mode with
    | .sr _ => decide (lg < f.emin)
    | _ =>
      let q' := lg - f.mb
      let u := roundAt mode neg m e q'
      decide (leadExp u.1 q' < f.emin)
  (r.1, q, r.2, tiny)

/-- Code of k * 2^q where q is at least qmin and k has at most mb + 1 bits, or is 2^(mb + 1). -/
def codeOf (f : Fmt) (k : Nat) (q : Int) : Nat :=
  if k < 2 ^ f.mb then k
  else
    let ex := (q - f.qmin).toNat + 1
    if k = 2 ^ (f.mb + 1) then (ex + 1) * 2 ^ f.mb else ex * 2 ^ f.mb + (k - 2 ^ f.mb)

/-- A code with its sign. -/
def signed (f : Fmt) (neg : Bool) (c : Nat) : Nat := if neg then f.signBit + c else c

/-- What an overflow gives (R168, R169, R186). -/
def overflowCode (f : Fmt) (mode : Rnd) (sat neg : Bool) : Nat :=
  if f.sp != .ieee || sat then signed f neg f.maxCode
  else match mode with
    | .rne | .sr _ => signed f neg f.infCode
    | .rz => signed f neg f.maxCode
    | .ru => signed f neg (if neg then f.maxCode else f.infCode)
    | .rd => signed f neg (if neg then f.infCode else f.maxCode)

/-- A value converted to a float format with its flags (R167, R186). A signalling source is the caller's. -/
def toFloat (f : Fmt) (mode : Rnd) (sat : Bool) : FVal → Nat × FFlags
  | .nan => (f.nanCode, if f.sp = .finite then fInvalid else 0)
  | .inf neg =>
    if f.sp = .ieee && !sat then (signed f neg f.infCode, 0) else (signed f neg f.maxCode, fInvalid)
  | .fin neg m e =>
    if m = 0 then (signed f neg 0, 0)
    else if leadExp m e > 2 * (f.bias : Int) + 2 then (overflowCode f mode sat neg, fOverflow ||| fInexact)
    else
      let (k, q, inexact, tiny) := roundPrec f mode neg m e
      let c := codeOf f k q
      if f.maxCode < c then (overflowCode f mode sat neg, fOverflow ||| fInexact)
      else (signed f neg c,
        (if inexact then fInexact else 0) ||| (if inexact && tiny then fUnderflow else 0))

/-- Whether a conversion of a value to a float format draws under SR (R169): a finite nonzero source that the format does not
represent, which is one that a conversion cannot take without a flag. -/
def drawsFloat (f : Fmt) : FVal → Bool
  | .fin s m e => m != 0 && (toFloat f .rz false (.fin s m e)).2 != 0
  | _ => false

/-- A value rounded to an integer, ties and direction by the mode (R271, R278). -/
def roundInt (mode : Rnd) (neg : Bool) (m : Nat) (e : Int) : Nat × Bool := roundAt mode neg m e 0

/-- A signed number. -/
def sInt (neg : Bool) (n : Nat) : Int := if neg then -(n : Int) else n

/-- The range of an integer target. -/
def intLo (bits : Nat) (sgn : Bool) : Int := if sgn then -(2 ^ (bits - 1) : Nat) else 0
def intHi (bits : Nat) (sgn : Bool) : Int := if sgn then (2 ^ (bits - 1) : Nat) - 1 else (2 ^ bits : Nat) - 1

/-- A value converted to an integer range: out of range and infinite give an end and invalid, NaN gives 0 and invalid (R186). -/
def toInt (lo hi : Int) (mode : Rnd) : FVal → Int × FFlags
  | .nan => (0, fInvalid)
  | .inf neg => (if neg then lo else hi, fInvalid)
  | .fin neg m e =>
    if m = 0 then (0, 0)
    else if leadExp m e > 80 then (if neg then lo else hi, fInvalid)
    else
      let r := roundInt mode neg m e
      let x := sInt neg r.1
      if x < lo then (lo, fInvalid) else if hi < x then (hi, fInvalid)
      else (x, if r.2 then fInexact else 0)

/-- Whether a conversion to an integer target draws under SR (R169): a fraction, or a value outside the range. -/
def drawsInt (lo hi : Int) : FVal → Bool
  | .fin s m e => m != 0 && (toInt lo hi .rz (.fin s m e)).2 != 0
  | _ => false

/-- An integer as an exact value. -/
def ofInt (x : Int) : FVal := .fin (decide (x < 0)) x.natAbs 0

namespace FVal

def neg : FVal → FVal
  | .nan => .nan
  | .inf s => .inf (!s)
  | .fin s m e => .fin (!s) m e

def isNan : FVal → Bool
  | .nan => true
  | _ => false

def isZero : FVal → Bool
  | .fin _ 0 _ => true
  | _ => false

def sign : FVal → Bool
  | .nan => false
  | .inf s => s
  | .fin s _ _ => s

/-- A zero of a sign. -/
def zero (s : Bool) : FVal := .fin s 0 0

/-- The exact product, and whether it is 0 times infinity (R183, R267). -/
def mul : FVal → FVal → FVal × Bool
  | .nan, _ => (.nan, false)
  | _, .nan => (.nan, false)
  | .inf s, .inf t => (.inf (s ^^ t), false)
  | .inf s, .fin t m _ => if m = 0 then (.nan, true) else (.inf (s ^^ t), false)
  | .fin s m _, .inf t => if m = 0 then (.nan, true) else (.inf (s ^^ t), false)
  | .fin s m e, .fin t n g => (.fin (s ^^ t) (m * n) (e + g), false)

/-- The exact sum, and whether it is infinity minus infinity; `rd` chooses the sign of an exact zero sum (R267). -/
def add (rd : Bool) : FVal → FVal → FVal × Bool
  | .nan, _ => (.nan, false)
  | _, .nan => (.nan, false)
  | .inf s, .inf t => if s = t then (.inf s, false) else (.nan, true)
  | .inf s, .fin .. => (.inf s, false)
  | .fin .., .inf t => (.inf t, false)
  | .fin s m e, .fin t n g =>
    if m = 0 ∧ n = 0 then (.fin (if s = t then s else rd) 0 0, false)
    else if m = 0 then (.fin t n g, false)
    else if n = 0 then (.fin s m e, false)
    else
      let b := min e g
      let x := sInt s (m * 2 ^ (e - b).toNat) + sInt t (n * 2 ^ (g - b).toNat)
      if x = 0 then (.fin rd 0 0, false) else (.fin (decide (x < 0)) x.natAbs b, false)

/-- Order of two values, none when one is NaN; zeros are equal (R269). -/
def cmp : FVal → FVal → Option Ordering
  | .nan, _ => none
  | _, .nan => none
  | .inf s, .inf t => some (if s = t then .eq else if s then .lt else .gt)
  | .inf s, .fin .. => some (if s then .lt else .gt)
  | .fin .., .inf t => some (if t then .gt else .lt)
  | .fin s m e, .fin t n g =>
    let b := min e g
    some (compare (sInt s (m * 2 ^ (e - b).toNat)) (sInt t (n * 2 ^ (g - b).toNat)))

/-- Strictly less. -/
def lt (x y : FVal) : Bool := cmp x y == some .lt

end FVal

/-- Sum of two codes rounded in a mode (R267). -/
def addCode (f : Fmt) (mode : Rnd) (a b : Nat) : Nat × FFlags :=
  let snan := isSnan f a || isSnan f b
  let (x, bad) := FVal.add (mode == .rd) (decodeF f a) (decodeF f b)
  let (c, fl) := toFloat f mode false x
  (c, fl ||| (if snan || bad then fInvalid else 0))

/-- Product of two codes rounded in a mode (R267). -/
def mulCode (f : Fmt) (mode : Rnd) (a b : Nat) : Nat × FFlags :=
  let snan := isSnan f a || isSnan f b
  let (x, bad) := FVal.mul (decodeF f a) (decodeF f b)
  let (c, fl) := toFloat f mode false x
  (c, fl ||| (if snan || bad then fInvalid else 0))

/-- a * b + c rounded once (R267). -/
def fmaCode (f : Fmt) (mode : Rnd) (a b c : Nat) : Nat × FFlags :=
  let snan := isSnan f a || isSnan f b || isSnan f c
  let (x, bad) := FVal.mul (decodeF f a) (decodeF f b)
  let (y, bad') := FVal.add (mode == .rd) x (decodeF f c)
  let (r, fl) := toFloat f mode false y
  (r, fl ||| (if snan || bad || bad' then fInvalid else 0))

/-- The code with its sign flipped; FSUB adds it (a NaN stays a NaN). -/
def negCode (f : Fmt) (a : Nat) : Nat := if a.testBit (f.eb + f.mb) then a - f.signBit else a + f.signBit

/-- minimumNumber and maximumNumber (R24, R268): bits of the chosen operand, -0 below +0, two NaNs the canonical NaN. -/
def minMaxCode (f : Fmt) (isMax : Bool) (a b : Nat) : Nat × FFlags :=
  let fl := if isSnan f a || isSnan f b then fInvalid else 0
  let x := decodeF f a
  let y := decodeF f b
  let aFirst : Bool := match FVal.cmp x y with
    | some .lt => true
    | some .gt => false
    | _ => x.sign || !y.sign
  let r := if x.isNan && y.isNan then f.nanCode else if x.isNan then b else if y.isNan then a
    else if isMax then (if aFirst then b else a) else (if aFirst then a else b)
  (r, fl)

/-- The condition of a comparison (R248, R269): codes 0 to 5 are eq, ne, lt, le, gt, ge. -/
def condHolds (cc : Nat) (o : Ordering) : Bool :=
  match cc with
  | 0 => o == .eq
  | 1 => o != .eq
  | 2 => o == .lt
  | 3 => o != .gt
  | 4 => o == .gt
  | 5 => o != .lt
  | _ => false

/-- Clamp of .sat (R265): below +0.0 and NaN to +0.0, above 1.0 to 1.0. -/
def satClamp (f : Fmt) (c : Nat) : Nat :=
  let x := decodeF f c
  let one := f.bias * 2 ^ f.mb
  if x.isNan then 0 else if x.sign then 0 else if FVal.lt (.fin false 1 0) x then one else c

/-- Integer square root of `n` below 4^k, one bit at a time. -/
def isqrt (n : Nat) : Nat → Nat → Nat
  | 0, r => r
  | k + 1, r => let t := r + 2 ^ k; if t * t ≤ n then isqrt n k t else isqrt n k r

/-- The value sqrt(m * 2^e), m > 0, exact, or with a last bit that stands for the rest (sticky). -/
def sqrtVal (m : Nat) (e : Int) : FVal :=
  let e' := e - 200 - (e % 2)
  let n := m * 2 ^ (e - e').toNat
  let r := isqrt n (Nat.log2 n / 2 + 1) 0
  if r * r = n then .fin false r (e' / 2) else .fin false (2 * r + 1) (e' / 2 - 1)

/-- The draw of R170 from a seed, the warp (32 for the ladle), the lane and the lane's counter. -/
def draw (seed : Word64) (w l counter : Nat) : Nat :=
  let x := seed ^^^ BitVec.ofNat 64 (w * 2 ^ 40) ^^^ BitVec.ofNat 64 (l * 2 ^ 32) ^^^ BitVec.ofNat 64 (counter % 2 ^ 32)
  let x := (x ^^^ (x >>> 30)) * 0xBF58476D1CE4E5B9#64
  let x := (x ^^^ (x >>> 27)) * 0x94D049BB133111EB#64
  let x := x ^^^ (x >>> 31)
  x.toNat % 65536

/-- New value of a home or bank atomic (R24); codes 0 to 16 of R197, `bits` 32 or 64. None for .ld, which writes nothing. -/
def atomicNew (op bits o v c : Nat) : Option Nat :=
  let md := 2 ^ bits
  let f := if bits = 64 then f64 else f32
  let sg := fun x : Nat => if x < md / 2 then (x : Int) else (x : Int) - md
  match op with
  | 0 => some ((o + v) % md)
  | 1 => some ((o + (md - v)) % md)
  | 2 => some (if sg v < sg o then v else o)
  | 3 => some (if sg o < sg v then v else o)
  | 4 => some (min o v)
  | 5 => some (max o v)
  | 6 => some (o &&& v)
  | 7 => some (o ||| v)
  | 8 => some (o ^^^ v)
  | 9 => some v
  | 10 => some (if o = c then v else o)
  | 11 => some (if v ≤ o then 0 else o + 1)
  | 12 => some (if o = 0 ∨ v < o then v else o - 1)
  | 14 => some (addCode f .rne o v).1
  | 15 => some (minMaxCode f false o v).1
  | 16 => some (minMaxCode f true o v).1
  | _ => none

end Sys2Proof.Machine
end

