-- ==== Sys2Proof/Machine/Legal.lean ====
section
/-! DEFINITION. Which encodings are instructions (R149, R150, R196 to R200, R206): register classes, unused fields, modifiers. -/

namespace Sys2Proof.Machine

/-- What a register position accepts (R149, R150): lane registers with their number and alignment, uniform registers with
theirs, predicates, rejoin masks, the constant operands, zr, and the all-zero field of an unused position. -/
structure Pos where
  v : Option (Nat × Nat) := none
  s : Option (Nat × Nat) := none
  p : Bool := false
  k : Bool := false
  cst : Bool := false
  zr : Bool := false
  unused : Bool := false
  deriving DecidableEq, Repr

/-- Whether a position accepts a specifier. -/
def Pos.fits (q : Pos) : Opnd → Bool
  | .v n => (q.unused && n == 0) || (match q.v with | some (_, al) => n.toNat % al == 0 | none => false)
  | .s n => match q.s with | some (_, al) => n.toNat % al == 0 | none => false
  | .p _ => q.p
  | .k _ => q.k
  | .lid | .ones | .sgn | .fone | .amask => q.cst
  | .rsvd _ => false
  | .zr => q.zr

/-- Whether the registers of a position lie below the declared counts (R150). -/
def Pos.inCount (q : Pos) (vregs sregs : Nat) : Opnd → Bool
  | .v n => match q.v with | some (span, _) => decide (n.toNat + span ≤ vregs) | none => true
  | .s n => match q.s with | some (span, _) => decide (n.toNat + span ≤ sregs) | none => true
  | _ => true

/-- An unused position, whose field is zero (R196). -/
def posNone : Pos := { unused := true }

/-- A 32-bit source (R242). -/
def src32 : Pos := { v := some (1, 1), s := some (1, 1), cst := true, zr := true }

/-- A 64-bit source (R242). -/
def src64 : Pos := { v := some (2, 2), s := some (1, 1), zr := true }

/-- A 128-bit source: a 2w position at w = 64 (R242). -/
def src128 : Pos := { v := some (4, 4), s := some (2, 2), zr := true }

/-- A 32-bit destination (R149). -/
def dst32 : Pos := { v := some (1, 1), s := some (1, 1), zr := true }

/-- A source of width 64 or 32. -/
def srcW (w64 : Bool) : Pos := if w64 then src64 else src32

/-- A destination of width 64 or 32. -/
def dstW (w64 : Bool) : Pos := if w64 then src64 else dst32

/-- A position of width 2w (R242). -/
def pos2w (w64 : Bool) : Pos := if w64 then src128 else src64

/-- A predicate. -/
def posP : Pos := { p := true }

/-- A predicate or zr. -/
def posPz : Pos := { p := true, zr := true }

/-- A uniform register. -/
def posS : Pos := { s := some (1, 1) }

/-- A uniform register or zr. -/
def posSz : Pos := { s := some (1, 1), zr := true }

/-- A uniform register, or the zero field. -/
def posSor0 : Pos := { s := some (1, 1), unused := true }

/-- One lane register. -/
def posV : Pos := { v := some (1, 1) }

/-- A lane register or a uniform register. -/
def posVS : Pos := { v := some (1, 1), s := some (1, 1) }

/-- Eight lane registers (R283, R294). -/
def posV8 : Pos := { v := some (8, 1) }

/-- An even lane-register pair (R287). -/
def posVpair : Pos := { v := some (2, 2) }

/-- A branch target or link: an even pair or a uniform register (R306). -/
def posTarget : Pos := { v := some (2, 2), s := some (1, 1) }

/-- A link that may be zr (R306). -/
def posLink : Pos := { v := some (2, 2), s := some (1, 1), zr := true }

/-- A rejoin mask. -/
def posK : Pos := { k := true }

/-- Bytes of an access by its size code (R197, R216); 7 is reserved. -/
def sizeBytes (c : Nat) : Nat :=
  match c with
  | 0 => 1 | 1 => 1 | 2 => 2 | 3 => 2 | 4 => 4 | 5 => 8 | 6 => 16 | _ => 0

/-- Data registers of an access of `n` bytes (R216). -/
def posData (n : Nat) : Pos :=
  match n with
  | 8 => { v := some (2, 2), s := some (1, 1), zr := true }
  | 16 => { v := some (4, 4), s := some (2, 2), zr := true }
  | _ => { v := some (1, 1), s := some (1, 1), zr := true }

/-- BASE and INDEX of an address (R196). -/
def posBase : Pos := { v := some (2, 2), s := some (1, 1), zr := true }
def posIndex : Pos := { v := some (1, 1), s := some (1, 1), zr := true }

/-- The operand of an atomic (R237), with the compare value after it for .cas. -/
def posAtom (op : Nat) (w64 : Bool) : Pos :=
  if op = 13 then posNone
  else if op = 10 then
    if w64 then { v := some (4, 4), s := some (2, 2) } else { v := some (2, 2), s := some (2, 2) }
  else if w64 then { v := some (2, 2), s := some (1, 1), zr := true }
  else { v := some (1, 1), s := some (1, 1), zr := true }

/-- The register positions of a body with what each accepts. -/
abbrev Fields := List (Opnd × Pos)

/-- IMMB: operand B is the immediate (R196). -/
def immb (x : F3) : Bool := bit x.aux 3

/-- Positions D, A, B, C of an F3 body; under IMMB, B is the immediate and its field is 255 (R196). -/
def fieldsF3 (x : F3) (d a b c : Pos) : Fields :=
  [(x.d, d), (x.a, a), (x.b, if immb x then { zr := true } else b), (x.c, c)]

/-- Positions of an FM body. -/
def fieldsFM (x : FM) (d base index data2 : Pos) : Fields :=
  [(x.d, d), (x.base, base), (x.index, index), (x.data2, data2)]

/-- The .w64 bit MOD[1]. -/
def w64of (h : Hdr) : Bool := bit h.mod 1

/-- A uniform move, logic form with a rejoin mask (R150, R249, R252). -/
def posWk (w64 : Bool) (dst : Bool) : Pos :=
  let q := if dst then dstW w64 else srcW w64
  if w64 then q else { q with k := true }

/-- The register positions of each instruction (R215, R216, R237, R242, R246, R248 to R262, R263, R282, R306, R330). -/
def fieldsOf : Instr → Fields
  | .nop x => fieldsF3 x posNone posNone posNone posNone
  | .bra x => [(x.link, posNone)]
  | .brx x => fieldsF3 x posNone posTarget posNone posNone
  | .call x => [(x.link, posLink)]
  | .callx x => fieldsF3 x posLink posTarget posNone posNone
  | .ret x => fieldsF3 x posNone posTarget posNone posNone
  | .join x => fieldsF3 x posK posNone posNone posNone
  | .waitj x => fieldsF3 x posNone posK posNone posNone
  | .exit x => fieldsF3 x posNone posNone posNone posNone
  | .yield x => fieldsF3 x posNone posNone posNone posNone
  | .safe x => fieldsF3 x posNone posNone posNone posNone
  | .launch x => fieldsF3 x posSz posS posNone posNone
  | .cropen x => [(x.link, posNone)]
  | .crclose x => fieldsF3 x posNone posNone posNone posNone
  | .trap x => fieldsF3 x posNone posNone posNone posNone
  | .bkpt x => fieldsF3 x posNone posNone posNone posNone
  | .step x => fieldsF3 x posNone posNone posNone posNone
  | .redt x => fieldsF3 x posS posS posNone posNone
  | .waittl x => fieldsF3 x posNone posNone posS posNone
  | .tlrd x => fieldsF3 x posS posNone posNone posNone
  | .tladv x => fieldsF3 x posNone posNone posNone posNone
  | .sleep x => fieldsF3 x posNone posNone posS posNone
  | .rdtime x => fieldsF3 x posS posNone posNone posNone
  | .movsr x => fieldsF3 x (if fld x.imm 7 0 = 0 then posVS else if fld x.imm 7 0 = 7 then posTarget else posS) posNone posNone posNone
  | .movrs x => fieldsF3 x posNone posS posNone posNone
  | .iadd x => fieldsF3 x (dstW (w64of x.h)) (srcW (w64of x.h)) (srcW (w64of x.h)) posNone
  | .isub x => fieldsF3 x (dstW (w64of x.h)) (srcW (w64of x.h)) (srcW (w64of x.h)) posNone
  | .iaddc x => fieldsF3 x (dstW (w64of x.h)) (srcW (w64of x.h)) (srcW (w64of x.h)) posPz
  | .imul x => fieldsF3 x (dstW (w64of x.h)) (srcW (w64of x.h)) (srcW (w64of x.h)) posNone
  | .imulh x => fieldsF3 x (dstW (w64of x.h)) (srcW (w64of x.h)) (srcW (w64of x.h)) posNone
  | .imad x => fieldsF3 x (dstW (w64of x.h)) (srcW (w64of x.h)) (srcW (w64of x.h)) (srcW (w64of x.h))
  | .imadw x => fieldsF3 x (pos2w (w64of x.h)) (srcW (w64of x.h)) (srcW (w64of x.h)) (pos2w (w64of x.h))
  | .idiv x => fieldsF3 x (dstW (w64of x.h)) (srcW (w64of x.h)) (srcW (w64of x.h)) posNone
  | .irem x => fieldsF3 x (dstW (w64of x.h)) (srcW (w64of x.h)) (srcW (w64of x.h)) posNone
  | .ineg x => fieldsF3 x (dstW (w64of x.h)) (srcW (w64of x.h)) posNone posNone
  | .iabs x => fieldsF3 x (dstW (w64of x.h)) (srcW (w64of x.h)) posNone posNone
  | .imin x => fieldsF3 x (dstW (w64of x.h)) (srcW (w64of x.h)) (srcW (w64of x.h)) posNone
  | .imax x => fieldsF3 x (dstW (w64of x.h)) (srcW (w64of x.h)) (srcW (w64of x.h)) posNone
  | .lea x => fieldsF3 x (dstW (bit x.h.mod 3)) (srcW (bit x.h.mod 3)) (srcW (bit x.h.mod 3)) posNone
  | .icmp x => fieldsF3 x posP (srcW (bit x.aux 0)) (srcW (bit x.aux 0)) (if fld x.h.mod 5 4 = 0 then posNone else posP)
  | .psel x => fieldsF3 x (dstW (w64of x.h)) (srcW (w64of x.h)) (srcW (w64of x.h)) posP
  | .mov x => fieldsF3 x (posWk (w64of x.h) true) (posWk (w64of x.h) false) posNone posNone
  | .movi x => fieldsF3 x posVS posNone posNone posNone
  | .movil x => [(x.d, posTarget)]
  | .plut x => fieldsF3 x posP posPz posPz posPz
  | .p2v x => fieldsF3 x posV posNone posNone posNone
  | .v2p x => fieldsF3 x posNone posV posNone posNone
  | .dot4 x => fieldsF3 x dst32 src32 src32 src32
  | .and x => fieldsF3 x (posWk (w64of x.h) true) (posWk (w64of x.h) false) (posWk (w64of x.h) false) posNone
  | .or x => fieldsF3 x (posWk (w64of x.h) true) (posWk (w64of x.h) false) (posWk (w64of x.h) false) posNone
  | .xor x => fieldsF3 x (posWk (w64of x.h) true) (posWk (w64of x.h) false) (posWk (w64of x.h) false) posNone
  | .andn x => fieldsF3 x (posWk (w64of x.h) true) (posWk (w64of x.h) false) (posWk (w64of x.h) false) posNone
  | .not x => fieldsF3 x (posWk (w64of x.h) true) (posWk (w64of x.h) false) posNone posNone
  | .lut3 x => fieldsF3 x (dstW (w64of x.h)) (srcW (w64of x.h)) (srcW (w64of x.h)) (srcW (w64of x.h))
  | .shl x => fieldsF3 x (dstW (w64of x.h)) (srcW (w64of x.h)) src32 posNone
  | .shr x => fieldsF3 x (dstW (w64of x.h)) (srcW (w64of x.h)) src32 posNone
  | .sar x => fieldsF3 x (dstW (w64of x.h)) (srcW (w64of x.h)) src32 posNone
  | .rot x => fieldsF3 x (dstW (w64of x.h)) (srcW (w64of x.h)) src32 posNone
  | .fshf x => fieldsF3 x dst32 src32 src32 src32
  | .bfe x => fieldsF3 x (dstW (w64of x.h)) (srcW (w64of x.h)) src32 posNone
  | .bfi x => fieldsF3 x (dstW (w64of x.h)) (srcW (w64of x.h)) src32 (srcW (w64of x.h))
  | .popc x => fieldsF3 x dst32 (srcW (w64of x.h)) posNone posNone
  | .clz x => fieldsF3 x dst32 (srcW (w64of x.h)) posNone posNone
  | .ctz x => fieldsF3 x dst32 (srcW (w64of x.h)) posNone posNone
  | .brev x => fieldsF3 x (dstW (w64of x.h)) (srcW (w64of x.h)) posNone posNone
  | .bperm x => fieldsF3 x dst32 src32 src32 src32
  | .vote x => fieldsF3 x posP posP posNone posNone
  | .ballot x => fieldsF3 x posVS posP posNone posNone
  | .xlane x => fieldsF3 x posV posV posVS posNone
  | .matchL x => fieldsF3 x posV (if w64of x.h then posVpair else src32) posNone posNone
  | .redux x => fieldsF3 x posVS src32 posNone posNone
  | .scanx x => fieldsF3 x posV src32 posNone posNone
  | .readl x => fieldsF3 x posS posV posS posSz
  | .bcast x => fieldsF3 x posV posV posS posNone
  | .fadd x => fieldsF3 x dst32 src32 src32 posNone
  | .fsub x => fieldsF3 x dst32 src32 src32 posNone
  | .fmul x => fieldsF3 x dst32 src32 src32 posNone
  | .ffma x => fieldsF3 x dst32 src32 src32 src32
  | .fmin x => fieldsF3 x dst32 src32 src32 posNone
  | .fmax x => fieldsF3 x dst32 src32 src32 posNone
  | .fcmp x => fieldsF3 x posP src32 src32 (if fld x.h.mod 5 4 = 0 then posNone else posP)
  | .fclass x => fieldsF3 x dst32 src32 posNone posNone
  | .frnd x => fieldsF3 x dst32 src32 posNone posNone
  | .ffrac x => fieldsF3 x dst32 src32 posNone posNone
  | .fscale x => fieldsF3 x dst32 src32 src32 posNone
  | .frcp x => fieldsF3 x dst32 src32 posNone posNone
  | .frsq x => fieldsF3 x dst32 src32 posNone posNone
  | .fsqrt x => fieldsF3 x dst32 src32 posNone posNone
  | .fexp2 x => fieldsF3 x dst32 src32 posNone posNone
  | .flog2 x => fieldsF3 x dst32 src32 posNone posNone
  | .fsin x => fieldsF3 x dst32 src32 posNone posNone
  | .fcos x => fieldsF3 x dst32 src32 posNone posNone
  | .ftanh x => fieldsF3 x dst32 src32 posNone posNone
  | .pkadd x => fieldsF3 x dst32 src32 src32 posNone
  | .pkmul x => fieldsF3 x dst32 src32 src32 posNone
  | .pkfma x => fieldsF3 x dst32 src32 src32 src32
  | .pkmax x => fieldsF3 x dst32 src32 src32 posNone
  | .dadd x => fieldsF3 x src64 src64 src64 posNone
  | .dmul x => fieldsF3 x src64 src64 src64 posNone
  | .dfma x => fieldsF3 x src64 src64 src64 src64
  | .dcmp x => fieldsF3 x posP src64 src64 (if fld x.h.mod 5 4 = 0 then posNone else posP)
  | .fcvt x => fieldsF3 x (dstW (fld x.imm 7 0 == 32)) (srcW (fld x.imm 15 8 == 32)) posNone posNone
  | .icvt x => fieldsF3 x dst32 src32 posNone posNone
  | .fpack x => fieldsF3 x dst32 src32 src32 src32
  | .funpack x => fieldsF3 x dst32 src32 posNone posNone
  | .bound x => fieldsF3 x dst32 src32 posNone posNone
  | .mma x => fieldsF3 x posVpair posV8 posS posSor0
  | .mmaz x => fieldsF3 x posVpair posV8 posS posSor0
  | .fmtv x => fieldsF3 x posS posVpair posNone posNone
  | .accepi x => fieldsF3 x posNone posS posS posNone
  | .accck x => fieldsF3 x posS posS posS posNone
  | .mjob x => fieldsF3 x posNone posNone posS posNone
  | .accld x => fieldsF3 x posNone posV8 posNone posNone
  | .accst x => fieldsF3 x posV8 posNone posNone posNone
  | .accz x => fieldsF3 x posNone posNone posNone posNone
  | .ld x => fieldsFM x (posData (sizeBytes (fld x.h.mod 2 0))) posBase posIndex posNone
  | .st x => fieldsFM x posNone posBase posIndex (posData (sizeBytes (fld x.h.mod 2 0)))
  | .lda x => fieldsFM x (posData (sizeBytes (fld x.h.mod 2 0))) posBase posIndex posNone
  | .chka x => fieldsFM x (posData (sizeBytes (fld x.h.mod 2 0))) posBase posIndex posNone
  | .invala x => fieldsFM x (if bit x.h.mod 0 then posNone else dst32) posNone posNone posNone
  | .ldix x => fieldsFM x (posData (sizeBytes (fld x.h.mod 2 0))) posBase posIndex posTarget
  | .pref x => fieldsFM x posNone posBase posIndex posNone
  | .prefb x => fieldsFM x posNone posSz posSz posS
  | .cwb x => fieldsFM x posNone posBase posIndex posNone
  | .icinv x => fieldsFM x posNone posSz posSz posS
  | .fetchb x => fieldsFM x posNone posNone posNone posNone
  | .fence x => fieldsFM x posNone posNone posNone posNone
  | .lds x => fieldsFM x (posData (sizeBytes (fld x.h.mod 2 0))) posBase posIndex posNone
  | .sts x => fieldsFM x posNone posBase posIndex (posData (sizeBytes (fld x.h.mod 2 0)))
  | .stx x => fieldsFM x posNone posBase posIndex (posData (sizeBytes (fld x.h.mod 2 0)))
  | .ldf x => fieldsFM x (posData (sizeBytes (fld x.h.mod 2 0))) posBase posIndex posNone
  | .ste x => fieldsFM x posNone posBase posIndex (posData (sizeBytes (fld x.h.mod 2 0)))
  | .stf x => fieldsFM x posNone posBase posIndex (posData (sizeBytes (fld x.h.mod 2 0)))
  | .tagset x => fieldsFM x posNone posBase posIndex posNone
  | .tagclr x => fieldsFM x posNone posBase posIndex posNone
  | .tagrd x => fieldsFM x dst32 posBase posIndex posNone
  | .prsrd x => fieldsFM x dst32 posBase posIndex posNone
  | .atom x => fieldsFM x (posData (if bit x.h.mod 5 then 8 else 4)) posBase posIndex (posAtom (fld x.h.mod 4 0) (bit x.h.mod 5))
  | .red x => fieldsFM x posNone posBase posIndex (posAtom (fld x.h.mod 4 0) (bit x.h.mod 5))
  | .atoms x => fieldsFM x (posData (if bit x.h.mod 5 then 8 else 4)) posBase posIndex (posAtom (fld x.h.mod 4 0) (bit x.h.mod 5))
  | .reds x => fieldsFM x posNone posBase posIndex (posAtom (fld x.h.mod 4 0) (bit x.h.mod 5))
  | .atomx x => fieldsFM x (posData (if bit x.h.mod 5 then 8 else 4)) posBase posIndex (posAtom (fld x.h.mod 4 0) (bit x.h.mod 5))
  | .copy x => fieldsF3 x (if bit x.aux 0 then posP else posNone) posS posS posS
  | .copyg x => fieldsF3 x (if bit x.aux 0 then posP else posNone) posS posS { s := some (2, 2) }
  | .copys x => fieldsF3 x (if bit x.aux 0 then posP else posNone) posS posS { s := some (2, 2) }
  | .copyr x => fieldsF3 x (if bit x.aux 0 then posP else posNone) posS posS posS
  | .cbload x => fieldsF3 x posNone posNone posS posS
  | .cbdrop x => fieldsF3 x posNone posNone posNone posNone
  | .cqry x => fieldsF3 x posS posNone posNone posNone
  | .switchMarkerPass _ => []
  | .fenceComplete _ => []
  | .sleepExpiry _ => []
  | .leaseExpiry _ _ => []
  | .addressTableExpiry _ => []
  | .absentLineWake _ => []
  | .stepComplete _ => []
  | .nextPlaneRefillDone _ _ => []
  | .redtResult _ _ => []
  | .whiskMessage _ => []
  | .rd _ => []
  | .rdr _ => []
  | .wr _ => []
  | .wrc _ => []
  | .atPkt _ => []
  | .atr _ => []
  | .lx _ => []
  | .fm _ => []
  | .fmr _ => []
  | .xm _ => []
  | .pf _ => []
  | .pfReply _ => []
  | .rm _ => []
  | .rma _ => []
  | .lc _ => []
  | .lossNotice _ => []
  | .tx _ => []
  | .reservedPacket _ => []
  | .linkRetryTimeout _ => []
  | .colourDark _ _ => []
  | .routeWrite _ _ _ => []
  | .routeRetest _ _ _ => []
  | .routeRetestDone _ _ _ _ => []
  | .timeExchange _ _ _ _ _ => []
  | .translationRequest _ => []
  | .walkReferenceReply _ _ => []
  | .pageRequestPost _ => []
  | .prqRecordComplete _ => []
  | .prrespRetry _ _ => []
  | .prrespRefuse _ _ => []
  | .xlatinvRange _ => []
  | .xlatinvContext _ => []
  | .xlatinvAll _ => []
  | .xlatinvComplete => []
  | .pinctlUnpinRange _ _ => []
  | .pinctlUnpinAll _ _ => []
  | .pinctlComplete _ => []
  | .scrubRead _ => []
  | .memerrClear _ _ => []
  | .icinvCommit _ => []
  | .lineFill _ _ => []
  | .copyChunk _ _ => []
  | .copyComplete _ _ _ => []
  | .cbloadServe _ _ => []
  | .cbdropServe _ _ => []
  | .jobAdmission _ => []
  | .jobStep _ => []
  | .jobComplete _ => []
  | .queueWindowWrite _ => []
  | .qcfgWrite _ _ => []
  | .qstatClear _ _ => []
  | .dispatchTake => []
  | .teamPlace _ _ _ => []
  | .cohortPlace _ _ => []
  | .cohortWaitExpiry _ => []
  | .teamRetire _ => []
  | .gridRetire _ => []
  | .controlIntervalBoundary _ => []
  | .shedSafeDeadline => []
  | .shelfSample _ _ _ => []
  | .telemetryStale => []
  | .droopCurveWrite _ _ => []
  | .droopDetect _ => []
  | .droopHoldExpiry _ => []
  | .preemptSave _ => []
  | .preemptResume _ => []
  | .preemptCancel _ => []
  | .teamSave _ => []
  | .teamRestore _ _ => []
  | .watchdogExpiry _ => []
  | .thermalReport _ _ => []
  | .emergencySaveComplete => []
  | .scanDrain _ => []
  | .scanDrainComplete => []
  | .scanRun _ => []
  | .scanRunComplete => []
  | .scanRelease _ => []
  | .coreDomWrite _ _ => []
  | .fltbaseWrite _ _ => []
  | .cestatClear _ _ _ => []
  | .hidstatClear _ => []
  | .hostcfgRearm _ => []
  | .pacecfgWrite _ => []
  | .pacePeriodEnd => []
  | .lagWordReceive _ => []
  | .registerWrite _ _ => []
  | .hostMemRead _ => []
  | .hostMemWrite _ => []
  | .hostWriteCompletion _ => []
  | .snoopResponse _ _ => []
  | .hostLinkTimeout => []
  | .snoopTimeout _ => []
  | .dieFailure _ => []
  | .computeChipletFailure _ => []
  | .dieErrorReport _ => []
  | .scaleupLinkState _ _ => []
  | .scaleupRecoveryTimeout _ => []
  | .hartFence _ _ _ => []
  | .hartAmo _ _ => []
  | .hartLr _ _ _ => []
  | .hartSc _ _ _ _ => []
  | .hartFenceI _ => []
  | .mgmtAssign _ _ _ => []
  | .mgmtDebugEnable _ => []
  | .mgmtDebugDisable _ => []
  | .mgmtDeclareHostLost => []
  | .domainReset _ => []
  | .firmwareUpdate _ _ => []
  | .attestationRequest _ => []
  | .debugResume _ => []
  | .packageReset => []
  | .socketPowerUp _ => []
  | .measuredBoot _ => []
  | .chipletRelease _ => []
  | .hostLinkL0Change _ => []
  | .systemRangeReply _ _ => []
  | .icinvChipletAck _ _ => []
  | .standbyPowerLoss => []

/-- The other fields of an F3 body: MOD within a mask, AUX flags within a mask, IMMB, BND. -/
def f3Plain (x : F3) (modMask auxMask : Nat) (acceptImmb : Bool) (useImm : Bool) (useBnd : Bool) : Bool :=
  (x.h.mod.toNat &&& ((63 : Nat) - modMask)) == 0 && ((x.aux.toNat % 8) &&& (7 - auxMask)) == 0
    && (if immb x then acceptImmb else useImm || x.imm == 0) && (useBnd || x.bnd == 0) && !x.h.keep

/-- No guard (R307). -/
def noGuard (h : Hdr) : Bool := h.guard == 0 && !h.neg

/-- Rounding selectors of R197: up to .dyn, or up to .sr for conversions. -/
def rndOk (h : Hdr) (sr : Bool) : Bool := decide (fld h.mod 2 0 ≤ if sr then 5 else 4)

/-- An operand that names a lane register. -/
def isV : Opnd → Bool
  | .v _ => true
  | _ => false

/-- An operand that names a uniform register. -/
def isS : Opnd → Bool
  | .s _ => true
  | _ => false

/-- An operand that names a rejoin mask. -/
def isK : Opnd → Bool
  | .k _ => true
  | _ => false

/-- An s- or k-register destination takes no lane-register source (R199, R243). -/
def uniformDest (d : Opnd) (srcs : List Opnd) : Bool := !((isS d || isK d) && srcs.any isV)

/-- Register positions, and a uniform destination's sources, of an instruction of 11_isa and 12_isa. The fields D, A, B, C
that are unused hold zero and name no register. -/
def aluDest (i : Instr) (d : Opnd) : Bool :=
  uniformDest d (((fieldsOf i).drop 1).filter (fun e => !e.2.unused) |>.map (·.1))

/-- A rejoin mask makes a move or logic instruction uniform (R150, R249). -/
def kUniform (x : F3) : Bool :=
  !((isK x.a || isK x.b) && isV x.d) && !((isK x.a || isK x.b || isK x.d) && (isV x.a || isV x.b))

/-- MOV copies a rejoin mask or an s-register from any uniform source, and any source to a lane register (R249). -/
def movOk (x : F3) : Bool := !(isK x.d && isV x.a) && !(isS x.d && isV x.a)

/-- The other fields of an FM body: MOD within a mask, the ORD values accepted, BND, OFFSET. -/
def fmPlain (x : FM) (modMask : Nat) (ords : List Nat) (useBnd useOff : Bool) : Bool :=
  (x.h.mod.toNat &&& (63 - modMask)) == 0 && ords.contains x.ord.toNat && (useBnd || x.bnd == 0)
    && (useOff || x.offset == 0) && !x.h.keep

/-- A size of a load: any but 7 (R197). -/
def loadSize (h : Hdr) : Bool := decide (fld h.mod 2 0 ≠ 7)

/-- A size of a store: not .i8, .i16 or 7; .bnd takes .b32 or wider, and BND is zero without it (R197, R216, R219). -/
def storeSize (x : FM) : Bool :=
  let c := fld x.h.mod 2 0
  decide (c ≠ 7 ∧ c ≠ 1 ∧ c ≠ 3) && (if bit x.h.mod 3 then decide (4 ≤ c) else x.bnd == 0)

/-- No mixture of s- and v-registers among data and destination, and no s-register with per-lane addresses but for ST (R216). -/
def noMix (x : FM) (data : List Opnd) (st : Bool) : Bool :=
  !(data.any isS && data.any isV) && (st || !(data.any isS && (isV x.base || isV x.index)))

/-- The operations of R237 by instruction: `red` without old value, `step` on step memory. -/
def atomOpOk (h : Hdr) (red step : Bool) : Bool :=
  let op := fld h.mod 4 0
  decide (op ≤ 16) && !(red && (op == 9 || op == 10 || op == 13)) && !(step && bit h.mod 5 && decide (14 ≤ op))

/-- The data registers of an atomic; DATA2 of .ld is the unused zero field. -/
def atomData (x : FM) : List Opnd := if fld x.h.mod 4 0 = 13 then [x.d] else [x.d, x.data2]

/-- Engine codes 0 to 5, and 7 for ANY where accepted (R330). -/
def engineOk (x : F3) (any : Bool) : Bool := decide (fld x.imm 10 8 ≤ 5) || (any && fld x.imm 10 8 == 7)

/-- The .nb predicate is p1 to p7 (R330). -/
def nbOk (x : F3) : Bool := !bit x.aux 0 || (match x.d with | .p n => n != 0 | _ => false)

/-- Widths of FPACK and FUNPACK by type code (R276, R279); 0 for a code that is not accepted. -/
def packWidth (t : Nat) : Nat :=
  match t with
  | 1 => 16 | 2 => 16 | 3 => 8 | 4 => 8 | 5 => 8 | 6 => 8 | 7 => 4
  | 17 => 16 | 18 => 8 | 19 => 8 | 20 => 4 | 21 => 4 | 22 => 2 | 26 => 2 | 27 => 1
  | _ => 0

/-- Unused fields, modifiers, immediates and class rules of each instruction (R196 to R198, R206 to R216, R237, R242 to R262,
R266, R276 to R282, R306, R307, R330, R334). -/
def restOk : Instr → Bool
  | .nop x => f3Plain x 0 0 false false false
  | .bra x => x.h.mod == 0 && !x.h.keep && x.treg == 0 && x.kreg == 0 && x.aux16 == 0 && decide (x.slot.toNat ≤ 4)
  | .brx x => f3Plain x 0 0 false false false
  | .call x => x.h.mod == 0 && !x.h.keep && x.treg == 0 && x.kreg == 0 && x.aux16 == 0 && decide (x.slot.toNat ≤ 4)
  | .callx x => f3Plain x 0 0 false false false && uniformDest x.d [x.a]
  | .ret x => f3Plain x 0 0 false false false
  | .join x => f3Plain x 0 0 false false false
  | .waitj x => f3Plain x 0 0 false false false && noGuard x.h
  | .exit x => f3Plain x 0 0 false false false
  | .yield x => f3Plain x 0 0 false false false
  | .safe x => f3Plain x 0 0 false true false && fld x.imm 31 12 == 0 && !immb x && noGuard x.h
  | .launch x => f3Plain x 0 0 false false true
  | .cropen x => x.h.mod == 0 && !x.h.keep && x.treg == 0 && x.kreg == 0 && x.aux16 == 0 && decide (x.slot.toNat ≤ 4) && noGuard x.h
  | .crclose x => f3Plain x 0 0 false false false && noGuard x.h
  | .trap x => f3Plain x 0 0 false true false && fld x.imm 31 16 == 0
  | .bkpt x => f3Plain x 0 0 false true false && fld x.imm 31 16 == 0
  | .step x => f3Plain x 1 0 false true false && fld x.imm 31 3 == 0 && noGuard x.h
  | .redt x => f3Plain x 7 0 false true false && fld x.imm 31 3 == 0
  | .waittl x => f3Plain x 0 0 true false true
  | .tlrd x => f3Plain x 0 0 false true true && fld x.imm 31 1 == 0
  | .tladv x => f3Plain x 0 0 false false true
  | .sleep x => f3Plain x 0 0 true false false
  | .rdtime x => f3Plain x 0 0 false false false
  | .movsr x => f3Plain x 0 0 false true false && fld x.imm 31 8 == 0 && decide (fld x.imm 7 0 ≤ 31)
  | .movrs x => f3Plain x 0 0 false true false && fld x.imm 31 8 == 0 && (let n := fld x.imm 7 0; n == 9 || (decide (13 ≤ n) && decide (n ≤ 31)))
  | .iadd x => f3Plain x 6 0 true false false && aluDest (.iadd x) x.d
  | .isub x => f3Plain x 6 0 true false false && aluDest (.isub x) x.d
  | .iaddc x => f3Plain x 2 0 true false false && aluDest (.iaddc x) x.d
  | .imul x => f3Plain x 2 0 true false false && aluDest (.imul x) x.d
  | .imulh x => f3Plain x 3 0 true false false && aluDest (.imulh x) x.d
  | .imad x => f3Plain x 6 0 true false false && aluDest (.imad x) x.d
  | .imadw x => f3Plain x 3 0 true false false && aluDest (.imadw x) x.d
  | .idiv x => f3Plain x 3 0 true false false && aluDest (.idiv x) x.d
  | .irem x => f3Plain x 3 0 true false false && aluDest (.irem x) x.d
  | .ineg x => f3Plain x 6 0 false false false && aluDest (.ineg x) x.d
  | .iabs x => f3Plain x 6 0 false false false && aluDest (.iabs x) x.d
  | .imin x => f3Plain x 3 0 true false false && aluDest (.imin x) x.d
  | .imax x => f3Plain x 3 0 true false false && aluDest (.imax x) x.d
  | .lea x => f3Plain x 15 0 true false false && aluDest (.lea x) x.d
  | .icmp x => f3Plain x 63 1 true false false && decide (fld x.h.mod 2 0 ≤ 5)
  | .psel x => f3Plain x 2 0 true false false && aluDest (.psel x) x.d
  | .mov x => f3Plain x 2 0 false false false && movOk x
  | .movi x => f3Plain x 0 0 false true false
  | .movil x => x.h.mod == 0 && !x.h.keep
  | .plut x => f3Plain x 0 0 false true false && fld x.imm 31 8 == 0
  | .p2v x => f3Plain x 0 0 false false false
  | .v2p x => f3Plain x 0 0 false true false && fld x.imm 31 8 == 0
  | .dot4 x => f3Plain x 5 0 true false false && aluDest (.dot4 x) x.d
  | .and x => f3Plain x 2 0 true false false && aluDest (.and x) x.d && kUniform x
  | .or x => f3Plain x 2 0 true false false && aluDest (.or x) x.d && kUniform x
  | .xor x => f3Plain x 2 0 true false false && aluDest (.xor x) x.d && kUniform x
  | .andn x => f3Plain x 2 0 true false false && aluDest (.andn x) x.d && kUniform x
  | .not x => f3Plain x 2 0 false false false && aluDest (.not x) x.d && !(isK x.a && isV x.d)
  | .lut3 x => f3Plain x 2 0 false true false && aluDest (.lut3 x) x.d && fld x.imm 31 8 == 0
  | .shl x => f3Plain x 3 0 true false false && aluDest (.shl x) x.d
  | .shr x => f3Plain x 3 0 true false false && aluDest (.shr x) x.d
  | .sar x => f3Plain x 3 0 true false false && aluDest (.sar x) x.d
  | .rot x => f3Plain x 3 0 true false false && aluDest (.rot x) x.d
  | .fshf x => f3Plain x 5 0 true false false && aluDest (.fshf x) x.d
  | .bfe x => f3Plain x 3 0 true false false && aluDest (.bfe x) x.d
  | .bfi x => f3Plain x 2 0 true false false && aluDest (.bfi x) x.d
  | .popc x => f3Plain x 2 0 false false false && aluDest (.popc x) x.d
  | .clz x => f3Plain x 2 0 false false false && aluDest (.clz x) x.d
  | .ctz x => f3Plain x 2 0 false false false && aluDest (.ctz x) x.d
  | .brev x => f3Plain x 2 0 false false false && aluDest (.brev x) x.d
  | .bperm x => f3Plain x 0 0 true false false && aluDest (.bperm x) x.d
  | .vote x => f3Plain x 3 0 false false false && decide (fld x.h.mod 1 0 ≤ 2)
  | .ballot x => f3Plain x 0 0 false false false
  | .xlane x => f3Plain x 3 0 true false false
  | .matchL x => f3Plain x 3 0 false false false
  | .redux x => f3Plain x 7 0 false false false
  | .scanx x => f3Plain x 15 0 false false false
  | .readl x => f3Plain x 0 0 true false false
  | .bcast x => f3Plain x 0 0 true false false
  | .fadd x => f3Plain x 15 0 true false false && aluDest (.fadd x) x.d && rndOk x.h false
  | .fsub x => f3Plain x 15 0 true false false && aluDest (.fsub x) x.d && rndOk x.h false
  | .fmul x => f3Plain x 15 0 true false false && aluDest (.fmul x) x.d && rndOk x.h false
  | .ffma x => f3Plain x 15 0 true false false && aluDest (.ffma x) x.d && rndOk x.h false
  | .fmin x => f3Plain x 0 0 true false false && aluDest (.fmin x) x.d
  | .fmax x => f3Plain x 0 0 true false false && aluDest (.fmax x) x.d
  | .fcmp x => f3Plain x 63 0 true false false && decide (fld x.h.mod 2 0 ≤ 5)
  | .fclass x => f3Plain x 0 0 false false false && aluDest (.fclass x) x.d
  | .frnd x => f3Plain x 7 0 false false false && aluDest (.frnd x) x.d && rndOk x.h false
  | .ffrac x => f3Plain x 0 0 false false false && aluDest (.ffrac x) x.d
  | .fscale x => f3Plain x 15 0 true false false && aluDest (.fscale x) x.d && rndOk x.h false
  | .frcp x => f3Plain x 0 0 false false false && aluDest (.frcp x) x.d
  | .frsq x => f3Plain x 0 0 false false false && aluDest (.frsq x) x.d
  | .fsqrt x => f3Plain x 7 0 false false false && aluDest (.fsqrt x) x.d && rndOk x.h false
  | .fexp2 x => f3Plain x 0 0 false false false && aluDest (.fexp2 x) x.d
  | .flog2 x => f3Plain x 0 0 false false false && aluDest (.flog2 x) x.d
  | .fsin x => f3Plain x 0 0 false false false && aluDest (.fsin x) x.d
  | .fcos x => f3Plain x 0 0 false false false && aluDest (.fcos x) x.d
  | .ftanh x => f3Plain x 0 0 false false false && aluDest (.ftanh x) x.d
  | .pkadd x => f3Plain x 15 0 true false false && aluDest (.pkadd x) x.d && rndOk x.h false
  | .pkmul x => f3Plain x 15 0 true false false && aluDest (.pkmul x) x.d && rndOk x.h false
  | .pkfma x => f3Plain x 15 0 true false false && aluDest (.pkfma x) x.d && rndOk x.h false
  | .pkmax x => f3Plain x 0 0 true false false && aluDest (.pkmax x) x.d
  | .dadd x => f3Plain x 7 0 false false false && aluDest (.dadd x) x.d && rndOk x.h false
  | .dmul x => f3Plain x 7 0 false false false && aluDest (.dmul x) x.d && rndOk x.h false
  | .dfma x => f3Plain x 7 0 false false false && aluDest (.dfma x) x.d && rndOk x.h false
  | .dcmp x => f3Plain x 63 0 false false false && decide (fld x.h.mod 2 0 ≤ 5)
  | .fcvt x => f3Plain x 15 0 false true false && aluDest (.fcvt x) x.d && rndOk x.h true && fld x.imm 31 16 == 0
  | .icvt x => f3Plain x 15 0 false true false && aluDest (.icvt x) x.d && rndOk x.h true && fld x.imm 31 16 == 0
  | .fpack x => f3Plain x 15 0 false true false && aluDest (.fpack x) x.d && rndOk x.h true && fld x.imm 31 12 == 0 && (packWidth (fld x.imm 7 0) == 0 || decide (2 * packWidth (fld x.imm 7 0) * (fld x.imm 11 8 + 1) ≤ 32))
  | .funpack x => f3Plain x 15 0 false true false && aluDest (.funpack x) x.d && rndOk x.h true && fld x.imm 14 13 == 0 && fld x.imm 31 16 == 0 && (packWidth (fld x.imm 7 0) == 0 || decide (packWidth (fld x.imm 7 0) * (fld x.imm 12 8 + 1) ≤ 32))
  | .bound x => f3Plain x 0 0 false false true && aluDest (.bound x) x.d
  | .mma x => x.h.mod == 0 && x.aux == 0 && x.bnd == 0 && fld x.imm 31 6 == 0
  | .mmaz x => x.h.mod == 0 && x.aux == 0 && x.bnd == 0 && fld x.imm 31 6 == 0
  | .fmtv x => f3Plain x 0 0 false false false
  | .accepi x => f3Plain x 31 0 false true true && fld x.imm 31 7 == 0 && (bit x.h.mod 3 || x.bnd == 0)
  | .accck x => f3Plain x 0 0 false false false
  | .mjob x => x.h.mod == 0 && !x.h.keep && x.aux.toNat % 8 == 0 && x.bnd == 0 && (if immb x then fld x.imm 31 20 == 0 else x.imm == 0)
  | .accld x => f3Plain x 0 0 false true false && fld x.imm 31 10 == 0 && fld x.imm 7 6 == 0
  | .accst x => f3Plain x 0 0 false true false && fld x.imm 31 10 == 0 && fld x.imm 7 6 == 0
  | .accz x => f3Plain x 0 0 false true false && fld x.imm 31 15 == 0 && fld x.imm 7 6 == 0 && decide (1 ≤ fld x.imm 14 8 ∧ fld x.imm 14 8 ≤ 64)
  | .ld x => fmPlain x 7 [0, 5, 9, 13] false true && loadSize x.h && noMix x [x.d] false
  | .st x => fmPlain x 15 [0] true true && storeSize x && noMix x [x.data2] true
  | .lda x => fmPlain x 7 [0] false true && loadSize x.h && noMix x [x.d] false
  | .chka x => fmPlain x 7 [0] false true && loadSize x.h && noMix x [x.d] false
  | .invala x => fmPlain x 1 [0] false false
  | .ldix x => fmPlain x 23 [0] false true && loadSize x.h && noMix x [x.d, x.data2] false
  | .pref x => fmPlain x 0 [0] false true
  | .prefb x => fmPlain x 0 [0] true true
  | .cwb x => fmPlain x 0 [0] false true
  | .icinv x => fmPlain x 0 [4, 8] false true
  | .fetchb x => fmPlain x 0 [0] false false
  | .fence x => fmPlain x 0 [5, 6, 7, 9, 10, 11, 13, 14, 15] false false
  | .lds x => fmPlain x 7 [0] false true && loadSize x.h && noMix x [x.d] false
  | .sts x => fmPlain x 15 [0] true true && storeSize x && noMix x [x.data2] false
  | .stx x => fmPlain x 15 [0] true true && storeSize x && noMix x [x.data2] false
  | .ldf x => fmPlain x 23 [0] false true && fld x.h.mod 2 0 == 4 && noMix x [x.d] false
  | .ste x => fmPlain x 15 [0] true true && storeSize x && fld x.h.mod 2 0 == 4 && noMix x [x.data2] false
  | .stf x => fmPlain x 15 [0] true true && storeSize x && fld x.h.mod 2 0 == 4 && noMix x [x.data2] false
  | .tagset x => fmPlain x 0 [0] false true
  | .tagclr x => fmPlain x 0 [0] false true
  | .tagrd x => fmPlain x 0 [0] false true && noMix x [x.d] false
  | .prsrd x => fmPlain x 0 [0] false true && noMix x [x.d] false
  | .atom x => fmPlain x 63 [0, 9, 10, 11, 13, 14, 15] false true && atomOpOk x.h false false && noMix x (atomData x) false
  | .red x => fmPlain x 63 [0, 10, 14] false true && atomOpOk x.h true false && noMix x [x.data2] false
  | .atoms x => fmPlain x 63 [0] false true && atomOpOk x.h false true && noMix x (atomData x) false
  | .reds x => fmPlain x 63 [0] false true && atomOpOk x.h true true && noMix x [x.data2] false
  | .atomx x => fmPlain x 63 [0] false true && atomOpOk x.h false true && noMix x (atomData x) false
  | .copy x => f3Plain x 3 1 false true true && decide (fld x.h.mod 1 0 ≠ 3) && engineOk x true && fld x.imm 17 14 == 0 && fld x.imm 31 20 == 0 && (bit x.h.mod 0 || fld x.imm 19 18 == 0) && nbOk x
  | .copyg x => f3Plain x 0 1 false true true && engineOk x true && fld x.imm 31 18 == 0 && (if bit x.imm 11 then fld x.imm 17 15 == 0 else decide (fld x.imm 17 15 ≤ 4)) && nbOk x
  | .copys x => f3Plain x 0 1 false true true && engineOk x true && fld x.imm 31 18 == 0 && (if bit x.imm 11 then fld x.imm 17 15 == 0 else decide (fld x.imm 17 15 ≤ 4)) && nbOk x
  | .copyr x => f3Plain x 63 1 false true true && engineOk x true && fld x.imm 31 14 == 0 && (decide (fld x.h.mod 4 0 ≤ 8) || (decide (14 ≤ fld x.h.mod 4 0) && decide (fld x.h.mod 4 0 ≤ 16))) && nbOk x
  | .cbload x => f3Plain x 0 0 false true true && engineOk x false && fld x.imm 7 0 == 0 && fld x.imm 12 11 == 0 && fld x.imm 17 14 == 0 && fld x.imm 31 20 == 0
  | .cbdrop x => f3Plain x 0 0 false true true && engineOk x false && fld x.imm 7 0 == 0 && fld x.imm 17 11 == 0 && fld x.imm 31 20 == 0
  | .cqry x => f3Plain x 0 0 false true false && engineOk x true && fld x.imm 7 0 == 0 && fld x.imm 31 11 == 0
  | .switchMarkerPass _ => true
  | .fenceComplete _ => true
  | .sleepExpiry _ => true
  | .leaseExpiry _ _ => true
  | .addressTableExpiry _ => true
  | .absentLineWake _ => true
  | .stepComplete _ => true
  | .nextPlaneRefillDone _ _ => true
  | .redtResult _ _ => true
  | .whiskMessage _ => true
  | .rd _ => true
  | .rdr _ => true
  | .wr _ => true
  | .wrc _ => true
  | .atPkt _ => true
  | .atr _ => true
  | .lx _ => true
  | .fm _ => true
  | .fmr _ => true
  | .xm _ => true
  | .pf _ => true
  | .pfReply _ => true
  | .rm _ => true
  | .rma _ => true
  | .lc _ => true
  | .lossNotice _ => true
  | .tx _ => true
  | .reservedPacket _ => true
  | .linkRetryTimeout _ => true
  | .colourDark _ _ => true
  | .routeWrite _ _ _ => true
  | .routeRetest _ _ _ => true
  | .routeRetestDone _ _ _ _ => true
  | .timeExchange _ _ _ _ _ => true
  | .translationRequest _ => true
  | .walkReferenceReply _ _ => true
  | .pageRequestPost _ => true
  | .prqRecordComplete _ => true
  | .prrespRetry _ _ => true
  | .prrespRefuse _ _ => true
  | .xlatinvRange _ => true
  | .xlatinvContext _ => true
  | .xlatinvAll _ => true
  | .xlatinvComplete => true
  | .pinctlUnpinRange _ _ => true
  | .pinctlUnpinAll _ _ => true
  | .pinctlComplete _ => true
  | .scrubRead _ => true
  | .memerrClear _ _ => true
  | .icinvCommit _ => true
  | .lineFill _ _ => true
  | .copyChunk _ _ => true
  | .copyComplete _ _ _ => true
  | .cbloadServe _ _ => true
  | .cbdropServe _ _ => true
  | .jobAdmission _ => true
  | .jobStep _ => true
  | .jobComplete _ => true
  | .queueWindowWrite _ => true
  | .qcfgWrite _ _ => true
  | .qstatClear _ _ => true
  | .dispatchTake => true
  | .teamPlace _ _ _ => true
  | .cohortPlace _ _ => true
  | .cohortWaitExpiry _ => true
  | .teamRetire _ => true
  | .gridRetire _ => true
  | .controlIntervalBoundary _ => true
  | .shedSafeDeadline => true
  | .shelfSample _ _ _ => true
  | .telemetryStale => true
  | .droopCurveWrite _ _ => true
  | .droopDetect _ => true
  | .droopHoldExpiry _ => true
  | .preemptSave _ => true
  | .preemptResume _ => true
  | .preemptCancel _ => true
  | .teamSave _ => true
  | .teamRestore _ _ => true
  | .watchdogExpiry _ => true
  | .thermalReport _ _ => true
  | .emergencySaveComplete => true
  | .scanDrain _ => true
  | .scanDrainComplete => true
  | .scanRun _ => true
  | .scanRunComplete => true
  | .scanRelease _ => true
  | .coreDomWrite _ _ => true
  | .fltbaseWrite _ _ => true
  | .cestatClear _ _ _ => true
  | .hidstatClear _ => true
  | .hostcfgRearm _ => true
  | .pacecfgWrite _ => true
  | .pacePeriodEnd => true
  | .lagWordReceive _ => true
  | .registerWrite _ _ => true
  | .hostMemRead _ => true
  | .hostMemWrite _ => true
  | .hostWriteCompletion _ => true
  | .snoopResponse _ _ => true
  | .hostLinkTimeout => true
  | .snoopTimeout _ => true
  | .dieFailure _ => true
  | .computeChipletFailure _ => true
  | .dieErrorReport _ => true
  | .scaleupLinkState _ _ => true
  | .scaleupRecoveryTimeout _ => true
  | .hartFence _ _ _ => true
  | .hartAmo _ _ => true
  | .hartLr _ _ _ => true
  | .hartSc _ _ _ _ => true
  | .hartFenceI _ => true
  | .mgmtAssign _ _ _ => true
  | .mgmtDebugEnable _ => true
  | .mgmtDebugDisable _ => true
  | .mgmtDeclareHostLost => true
  | .domainReset _ => true
  | .firmwareUpdate _ _ => true
  | .attestationRequest _ => true
  | .debugResume _ => true
  | .packageReset => true
  | .socketPowerUp _ => true
  | .measuredBoot _ => true
  | .chipletRelease _ => true
  | .hostLinkL0Change _ => true
  | .systemRangeReply _ _ => true
  | .icinvChipletAck _ _ => true
  | .standbyPowerLoss => true

/-- Whether an instruction's encoding is one that R196 to R200 assign, whatever the version and the agent. DEDUCED, log entry 29. -/
def encodingLegal (i : Instr) : Bool := restOk i && (fieldsOf i).all fun e => e.2.fits e.1

/-- The header of a Daref instruction. -/
def hdrOf : Instr → Option Hdr
  | .nop x => some x.h
  | .bra x => some x.h
  | .brx x => some x.h
  | .call x => some x.h
  | .callx x => some x.h
  | .ret x => some x.h
  | .join x => some x.h
  | .waitj x => some x.h
  | .exit x => some x.h
  | .yield x => some x.h
  | .safe x => some x.h
  | .launch x => some x.h
  | .cropen x => some x.h
  | .crclose x => some x.h
  | .trap x => some x.h
  | .bkpt x => some x.h
  | .step x => some x.h
  | .redt x => some x.h
  | .waittl x => some x.h
  | .tlrd x => some x.h
  | .tladv x => some x.h
  | .sleep x => some x.h
  | .rdtime x => some x.h
  | .movsr x => some x.h
  | .movrs x => some x.h
  | .iadd x => some x.h
  | .isub x => some x.h
  | .iaddc x => some x.h
  | .imul x => some x.h
  | .imulh x => some x.h
  | .imad x => some x.h
  | .imadw x => some x.h
  | .idiv x => some x.h
  | .irem x => some x.h
  | .ineg x => some x.h
  | .iabs x => some x.h
  | .imin x => some x.h
  | .imax x => some x.h
  | .lea x => some x.h
  | .icmp x => some x.h
  | .psel x => some x.h
  | .mov x => some x.h
  | .movi x => some x.h
  | .movil x => some x.h
  | .plut x => some x.h
  | .p2v x => some x.h
  | .v2p x => some x.h
  | .dot4 x => some x.h
  | .and x => some x.h
  | .or x => some x.h
  | .xor x => some x.h
  | .andn x => some x.h
  | .not x => some x.h
  | .lut3 x => some x.h
  | .shl x => some x.h
  | .shr x => some x.h
  | .sar x => some x.h
  | .rot x => some x.h
  | .fshf x => some x.h
  | .bfe x => some x.h
  | .bfi x => some x.h
  | .popc x => some x.h
  | .clz x => some x.h
  | .ctz x => some x.h
  | .brev x => some x.h
  | .bperm x => some x.h
  | .vote x => some x.h
  | .ballot x => some x.h
  | .xlane x => some x.h
  | .matchL x => some x.h
  | .redux x => some x.h
  | .scanx x => some x.h
  | .readl x => some x.h
  | .bcast x => some x.h
  | .fadd x => some x.h
  | .fsub x => some x.h
  | .fmul x => some x.h
  | .ffma x => some x.h
  | .fmin x => some x.h
  | .fmax x => some x.h
  | .fcmp x => some x.h
  | .fclass x => some x.h
  | .frnd x => some x.h
  | .ffrac x => some x.h
  | .fscale x => some x.h
  | .frcp x => some x.h
  | .frsq x => some x.h
  | .fsqrt x => some x.h
  | .fexp2 x => some x.h
  | .flog2 x => some x.h
  | .fsin x => some x.h
  | .fcos x => some x.h
  | .ftanh x => some x.h
  | .pkadd x => some x.h
  | .pkmul x => some x.h
  | .pkfma x => some x.h
  | .pkmax x => some x.h
  | .dadd x => some x.h
  | .dmul x => some x.h
  | .dfma x => some x.h
  | .dcmp x => some x.h
  | .fcvt x => some x.h
  | .icvt x => some x.h
  | .fpack x => some x.h
  | .funpack x => some x.h
  | .bound x => some x.h
  | .mma x => some x.h
  | .mmaz x => some x.h
  | .fmtv x => some x.h
  | .accepi x => some x.h
  | .accck x => some x.h
  | .mjob x => some x.h
  | .accld x => some x.h
  | .accst x => some x.h
  | .accz x => some x.h
  | .ld x => some x.h
  | .st x => some x.h
  | .lda x => some x.h
  | .chka x => some x.h
  | .invala x => some x.h
  | .ldix x => some x.h
  | .pref x => some x.h
  | .prefb x => some x.h
  | .cwb x => some x.h
  | .icinv x => some x.h
  | .fetchb x => some x.h
  | .fence x => some x.h
  | .lds x => some x.h
  | .sts x => some x.h
  | .stx x => some x.h
  | .ldf x => some x.h
  | .ste x => some x.h
  | .stf x => some x.h
  | .tagset x => some x.h
  | .tagclr x => some x.h
  | .tagrd x => some x.h
  | .prsrd x => some x.h
  | .atom x => some x.h
  | .red x => some x.h
  | .atoms x => some x.h
  | .reds x => some x.h
  | .atomx x => some x.h
  | .copy x => some x.h
  | .copyg x => some x.h
  | .copys x => some x.h
  | .copyr x => some x.h
  | .cbload x => some x.h
  | .cbdrop x => some x.h
  | .cqry x => some x.h
  | .switchMarkerPass _ => none
  | .fenceComplete _ => none
  | .sleepExpiry _ => none
  | .leaseExpiry _ _ => none
  | .addressTableExpiry _ => none
  | .absentLineWake _ => none
  | .stepComplete _ => none
  | .nextPlaneRefillDone _ _ => none
  | .redtResult _ _ => none
  | .whiskMessage _ => none
  | .rd _ => none
  | .rdr _ => none
  | .wr _ => none
  | .wrc _ => none
  | .atPkt _ => none
  | .atr _ => none
  | .lx _ => none
  | .fm _ => none
  | .fmr _ => none
  | .xm _ => none
  | .pf _ => none
  | .pfReply _ => none
  | .rm _ => none
  | .rma _ => none
  | .lc _ => none
  | .lossNotice _ => none
  | .tx _ => none
  | .reservedPacket _ => none
  | .linkRetryTimeout _ => none
  | .colourDark _ _ => none
  | .routeWrite _ _ _ => none
  | .routeRetest _ _ _ => none
  | .routeRetestDone _ _ _ _ => none
  | .timeExchange _ _ _ _ _ => none
  | .translationRequest _ => none
  | .walkReferenceReply _ _ => none
  | .pageRequestPost _ => none
  | .prqRecordComplete _ => none
  | .prrespRetry _ _ => none
  | .prrespRefuse _ _ => none
  | .xlatinvRange _ => none
  | .xlatinvContext _ => none
  | .xlatinvAll _ => none
  | .xlatinvComplete => none
  | .pinctlUnpinRange _ _ => none
  | .pinctlUnpinAll _ _ => none
  | .pinctlComplete _ => none
  | .scrubRead _ => none
  | .memerrClear _ _ => none
  | .icinvCommit _ => none
  | .lineFill _ _ => none
  | .copyChunk _ _ => none
  | .copyComplete _ _ _ => none
  | .cbloadServe _ _ => none
  | .cbdropServe _ _ => none
  | .jobAdmission _ => none
  | .jobStep _ => none
  | .jobComplete _ => none
  | .queueWindowWrite _ => none
  | .qcfgWrite _ _ => none
  | .qstatClear _ _ => none
  | .dispatchTake => none
  | .teamPlace _ _ _ => none
  | .cohortPlace _ _ => none
  | .cohortWaitExpiry _ => none
  | .teamRetire _ => none
  | .gridRetire _ => none
  | .controlIntervalBoundary _ => none
  | .shedSafeDeadline => none
  | .shelfSample _ _ _ => none
  | .telemetryStale => none
  | .droopCurveWrite _ _ => none
  | .droopDetect _ => none
  | .droopHoldExpiry _ => none
  | .preemptSave _ => none
  | .preemptResume _ => none
  | .preemptCancel _ => none
  | .teamSave _ => none
  | .teamRestore _ _ => none
  | .watchdogExpiry _ => none
  | .thermalReport _ _ => none
  | .emergencySaveComplete => none
  | .scanDrain _ => none
  | .scanDrainComplete => none
  | .scanRun _ => none
  | .scanRunComplete => none
  | .scanRelease _ => none
  | .coreDomWrite _ _ => none
  | .fltbaseWrite _ _ => none
  | .cestatClear _ _ _ => none
  | .hidstatClear _ => none
  | .hostcfgRearm _ => none
  | .pacecfgWrite _ => none
  | .pacePeriodEnd => none
  | .lagWordReceive _ => none
  | .registerWrite _ _ => none
  | .hostMemRead _ => none
  | .hostMemWrite _ => none
  | .hostWriteCompletion _ => none
  | .snoopResponse _ _ => none
  | .hostLinkTimeout => none
  | .snoopTimeout _ => none
  | .dieFailure _ => none
  | .computeChipletFailure _ => none
  | .dieErrorReport _ => none
  | .scaleupLinkState _ _ => none
  | .scaleupRecoveryTimeout _ => none
  | .hartFence _ _ _ => none
  | .hartAmo _ _ => none
  | .hartLr _ _ _ => none
  | .hartSc _ _ _ _ => none
  | .hartFenceI _ => none
  | .mgmtAssign _ _ _ => none
  | .mgmtDebugEnable _ => none
  | .mgmtDebugDisable _ => none
  | .mgmtDeclareHostLost => none
  | .domainReset _ => none
  | .firmwareUpdate _ _ => none
  | .attestationRequest _ => none
  | .debugResume _ => none
  | .packageReset => none
  | .socketPowerUp _ => none
  | .measuredBoot _ => none
  | .chipletRelease _ => none
  | .hostLinkL0Change _ => none
  | .systemRangeReply _ _ => none
  | .icinvChipletAck _ _ => none
  | .standbyPowerLoss => none

/-- Opcodes (R199); `none` for a step of the package. -/
def opcodeOf : Instr → Option Nat
  | .nop _ => some 0x00
  | .bra _ => some 0x01
  | .brx _ => some 0x02
  | .call _ => some 0x03
  | .callx _ => some 0x04
  | .ret _ => some 0x05
  | .join _ => some 0x06
  | .waitj _ => some 0x07
  | .exit _ => some 0x08
  | .yield _ => some 0x09
  | .safe _ => some 0x0A
  | .launch _ => some 0x0B
  | .cropen _ => some 0x0C
  | .crclose _ => some 0x0D
  | .trap _ => some 0x0E
  | .bkpt _ => some 0x0F
  | .step _ => some 0x10
  | .redt _ => some 0x11
  | .waittl _ => some 0x12
  | .tlrd _ => some 0x13
  | .tladv _ => some 0x14
  | .sleep _ => some 0x15
  | .rdtime _ => some 0x16
  | .movsr _ => some 0x17
  | .movrs _ => some 0x18
  | .iadd _ => some 0x20
  | .isub _ => some 0x21
  | .iaddc _ => some 0x22
  | .imul _ => some 0x23
  | .imulh _ => some 0x24
  | .imad _ => some 0x25
  | .imadw _ => some 0x26
  | .idiv _ => some 0x27
  | .irem _ => some 0x28
  | .ineg _ => some 0x29
  | .iabs _ => some 0x2A
  | .imin _ => some 0x2B
  | .imax _ => some 0x2C
  | .lea _ => some 0x2D
  | .icmp _ => some 0x2E
  | .psel _ => some 0x2F
  | .mov _ => some 0x30
  | .movi _ => some 0x31
  | .movil _ => some 0x32
  | .plut _ => some 0x33
  | .p2v _ => some 0x34
  | .v2p _ => some 0x35
  | .dot4 _ => some 0x36
  | .and _ => some 0x40
  | .or _ => some 0x41
  | .xor _ => some 0x42
  | .andn _ => some 0x43
  | .not _ => some 0x44
  | .lut3 _ => some 0x45
  | .shl _ => some 0x46
  | .shr _ => some 0x47
  | .sar _ => some 0x48
  | .rot _ => some 0x49
  | .fshf _ => some 0x4A
  | .bfe _ => some 0x4B
  | .bfi _ => some 0x4C
  | .popc _ => some 0x4D
  | .clz _ => some 0x4E
  | .ctz _ => some 0x4F
  | .brev _ => some 0x50
  | .bperm _ => some 0x51
  | .vote _ => some 0x52
  | .ballot _ => some 0x53
  | .xlane _ => some 0x54
  | .matchL _ => some 0x55
  | .redux _ => some 0x56
  | .scanx _ => some 0x57
  | .readl _ => some 0x58
  | .bcast _ => some 0x59
  | .fadd _ => some 0x60
  | .fsub _ => some 0x61
  | .fmul _ => some 0x62
  | .ffma _ => some 0x63
  | .fmin _ => some 0x64
  | .fmax _ => some 0x65
  | .fcmp _ => some 0x66
  | .fclass _ => some 0x67
  | .frnd _ => some 0x68
  | .ffrac _ => some 0x69
  | .fscale _ => some 0x6A
  | .frcp _ => some 0x70
  | .frsq _ => some 0x71
  | .fsqrt _ => some 0x72
  | .fexp2 _ => some 0x73
  | .flog2 _ => some 0x74
  | .fsin _ => some 0x75
  | .fcos _ => some 0x76
  | .ftanh _ => some 0x77
  | .pkadd _ => some 0x78
  | .pkmul _ => some 0x79
  | .pkfma _ => some 0x7A
  | .pkmax _ => some 0x7B
  | .dadd _ => some 0x80
  | .dmul _ => some 0x81
  | .dfma _ => some 0x82
  | .dcmp _ => some 0x83
  | .fcvt _ => some 0x84
  | .icvt _ => some 0x85
  | .fpack _ => some 0x86
  | .funpack _ => some 0x87
  | .bound _ => some 0x88
  | .mma _ => some 0x90
  | .mmaz _ => some 0x91
  | .fmtv _ => some 0x92
  | .accepi _ => some 0x93
  | .accck _ => some 0x94
  | .mjob _ => some 0x95
  | .accld _ => some 0x96
  | .accst _ => some 0x97
  | .accz _ => some 0x98
  | .ld _ => some 0xA0
  | .st _ => some 0xA1
  | .lda _ => some 0xA2
  | .chka _ => some 0xA3
  | .invala _ => some 0xA4
  | .ldix _ => some 0xA5
  | .pref _ => some 0xA6
  | .prefb _ => some 0xA7
  | .cwb _ => some 0xA8
  | .icinv _ => some 0xA9
  | .fetchb _ => some 0xAA
  | .fence _ => some 0xAB
  | .lds _ => some 0xB0
  | .sts _ => some 0xB1
  | .stx _ => some 0xB2
  | .ldf _ => some 0xB3
  | .ste _ => some 0xB4
  | .stf _ => some 0xB5
  | .tagset _ => some 0xB6
  | .tagclr _ => some 0xB7
  | .tagrd _ => some 0xB8
  | .prsrd _ => some 0xB9
  | .atom _ => some 0xC0
  | .red _ => some 0xC1
  | .atoms _ => some 0xC2
  | .reds _ => some 0xC3
  | .atomx _ => some 0xC4
  | .copy _ => some 0xD0
  | .copyg _ => some 0xD1
  | .copys _ => some 0xD2
  | .copyr _ => some 0xD3
  | .cbload _ => some 0xD4
  | .cbdrop _ => some 0xD5
  | .cqry _ => some 0xD6
  | .switchMarkerPass _ => none
  | .fenceComplete _ => none
  | .sleepExpiry _ => none
  | .leaseExpiry _ _ => none
  | .addressTableExpiry _ => none
  | .absentLineWake _ => none
  | .stepComplete _ => none
  | .nextPlaneRefillDone _ _ => none
  | .redtResult _ _ => none
  | .whiskMessage _ => none
  | .rd _ => none
  | .rdr _ => none
  | .wr _ => none
  | .wrc _ => none
  | .atPkt _ => none
  | .atr _ => none
  | .lx _ => none
  | .fm _ => none
  | .fmr _ => none
  | .xm _ => none
  | .pf _ => none
  | .pfReply _ => none
  | .rm _ => none
  | .rma _ => none
  | .lc _ => none
  | .lossNotice _ => none
  | .tx _ => none
  | .reservedPacket _ => none
  | .linkRetryTimeout _ => none
  | .colourDark _ _ => none
  | .routeWrite _ _ _ => none
  | .routeRetest _ _ _ => none
  | .routeRetestDone _ _ _ _ => none
  | .timeExchange _ _ _ _ _ => none
  | .translationRequest _ => none
  | .walkReferenceReply _ _ => none
  | .pageRequestPost _ => none
  | .prqRecordComplete _ => none
  | .prrespRetry _ _ => none
  | .prrespRefuse _ _ => none
  | .xlatinvRange _ => none
  | .xlatinvContext _ => none
  | .xlatinvAll _ => none
  | .xlatinvComplete => none
  | .pinctlUnpinRange _ _ => none
  | .pinctlUnpinAll _ _ => none
  | .pinctlComplete _ => none
  | .scrubRead _ => none
  | .memerrClear _ _ => none
  | .icinvCommit _ => none
  | .lineFill _ _ => none
  | .copyChunk _ _ => none
  | .copyComplete _ _ _ => none
  | .cbloadServe _ _ => none
  | .cbdropServe _ _ => none
  | .jobAdmission _ => none
  | .jobStep _ => none
  | .jobComplete _ => none
  | .queueWindowWrite _ => none
  | .qcfgWrite _ _ => none
  | .qstatClear _ _ => none
  | .dispatchTake => none
  | .teamPlace _ _ _ => none
  | .cohortPlace _ _ => none
  | .cohortWaitExpiry _ => none
  | .teamRetire _ => none
  | .gridRetire _ => none
  | .controlIntervalBoundary _ => none
  | .shedSafeDeadline => none
  | .shelfSample _ _ _ => none
  | .telemetryStale => none
  | .droopCurveWrite _ _ => none
  | .droopDetect _ => none
  | .droopHoldExpiry _ => none
  | .preemptSave _ => none
  | .preemptResume _ => none
  | .preemptCancel _ => none
  | .teamSave _ => none
  | .teamRestore _ _ => none
  | .watchdogExpiry _ => none
  | .thermalReport _ _ => none
  | .emergencySaveComplete => none
  | .scanDrain _ => none
  | .scanDrainComplete => none
  | .scanRun _ => none
  | .scanRunComplete => none
  | .scanRelease _ => none
  | .coreDomWrite _ _ => none
  | .fltbaseWrite _ _ => none
  | .cestatClear _ _ _ => none
  | .hidstatClear _ => none
  | .hostcfgRearm _ => none
  | .pacecfgWrite _ => none
  | .pacePeriodEnd => none
  | .lagWordReceive _ => none
  | .registerWrite _ _ => none
  | .hostMemRead _ => none
  | .hostMemWrite _ => none
  | .hostWriteCompletion _ => none
  | .snoopResponse _ _ => none
  | .hostLinkTimeout => none
  | .snoopTimeout _ => none
  | .dieFailure _ => none
  | .computeChipletFailure _ => none
  | .dieErrorReport _ => none
  | .scaleupLinkState _ _ => none
  | .scaleupRecoveryTimeout _ => none
  | .hartFence _ _ _ => none
  | .hartAmo _ _ => none
  | .hartLr _ _ _ => none
  | .hartSc _ _ _ _ => none
  | .hartFenceI _ => none
  | .mgmtAssign _ _ _ => none
  | .mgmtDebugEnable _ => none
  | .mgmtDebugDisable _ => none
  | .mgmtDeclareHostLost => none
  | .domainReset _ => none
  | .firmwareUpdate _ _ => none
  | .attestationRequest _ => none
  | .debugResume _ => none
  | .packageReset => none
  | .socketPowerUp _ => none
  | .measuredBoot _ => none
  | .chipletRelease _ => none
  | .hostLinkL0Change _ => none
  | .systemRangeReply _ _ => none
  | .icinvChipletAck _ _ => none
  | .standbyPowerLoss => none

/-- Ladle codes (R199). -/
inductive LadleCode where
  | y | u | n | l
  deriving DecidableEq, Repr

/-- The ladle code of an opcode (R199). -/
def ladleCode (opc : Nat) : LadleCode :=
  if opc = 0x06 ∨ opc = 0x07 ∨ opc = 0x0B ∨ opc = 0x10 ∨ opc = 0x11 ∨ opc = 0x34 ∨ opc = 0x35 then .n
  else if opc = 0x02 ∨ opc = 0x03 ∨ opc = 0x04 ∨ opc = 0x05 then .u
  else if opc ≤ 0x0F ∨ opc = 0x12 ∨ opc = 0x14 ∨ opc = 0x15 then .y
  else if 0x52 ≤ opc ∧ opc ≤ 0x59 then .n
  else if 0x90 ≤ opc ∧ opc ≤ 0x98 then .n
  else if opc = 0xB2 then .n
  else if 0xD0 ≤ opc then .l
  else .u

/-- The first encoding version that assigns an opcode (R199, R201). -/
def firstVersion (opc : Nat) : Nat :=
  if opc = 0x92 ∨ opc = 0x94 ∨ opc = 0xA5 ∨ opc = 0xB2 ∨ opc = 0xC4 then 3
  else if opc = 0x95 ∨ (0xB3 ≤ opc ∧ opc ≤ 0xB8) then 2
  else 1

/-- The header bits that a version reserves are zero: bit 93 before version 3, bit 90 in version 1 (R201). -/
def versionHdr (version : Nat) (h : Hdr) : Bool :=
  (version == 3 || !bit h.gap 2) && (version != 1 || !h.keep)

/-- Whether an agent of a team with these declared counts may issue the instruction (R150, R199, R200, R201, R206). DEDUCED, log entry 29. -/
def issueLegal (i : Instr) (version vregs sregs : Nat) (ladle : Bool) : Bool :=
  match opcodeOf i, hdrOf i with
  | some opc, some h =>
    encodingLegal i && decide (firstVersion opc ≤ version) && versionHdr version h
      && (fieldsOf i).all (fun e => e.2.inCount vregs sregs e.1)
      && (match ladleCode opc with
          | .n => !ladle
          | .l => ladle
          | .y => true
          | .u => !ladle || (fieldsOf i).all fun e => (e.2.unused && e.1 == .v 0) || !(isV e.1 || isK e.1))
  | _, _ => false

end Sys2Proof.Machine
end

