-- ==== Sys2Proof/WellFormed.lean ====
section
/-! DEFINITION. Well-formed instructions: what an encoder may be given and a decoder may rely on. -/

namespace Sys2Proof

/-- An instruction whose fields R149, R150 and R196 to R200 accept in some encoding version; a step of the package has no word
and is well formed as it stands. -/
def wf (i : Instr) : Bool := Machine.encodingLegal i

end Sys2Proof
end

