-- ==== Sys2Proof/Decode.lean ====
section
/-! DEFINITION. The 96-bit instruction word (R193, R195, R199): decoding, total on any word, and the encoder. -/

namespace Sys2Proof

/-- The register specifier of an 8-bit field (R149). -/
def opndOf (c : BitVec 8) : Opnd :=
  let n := c.toNat
  if n < 128 then .v (BitVec.ofNat 7 n)
  else if n < 192 then .s (BitVec.ofNat 6 (n - 128))
  else if n < 200 then .p (BitVec.ofNat 3 (n - 192))
  else if n < 208 then .k (BitVec.ofNat 3 (n - 200))
  else if n = 208 then .lid
  else if n = 209 then .ones
  else if n = 210 then .sgn
  else if n = 211 then .fone
  else if n = 212 then .amask
  else if n = 255 then .zr
  else .rsvd (BitVec.ofNat 6 (n - 213))

/-- The 8-bit field of a register specifier (R149). -/
def opndCode : Opnd → BitVec 8
  | .v n => BitVec.ofNat 8 n.toNat
  | .s n => BitVec.ofNat 8 (128 + n.toNat)
  | .p n => BitVec.ofNat 8 (192 + n.toNat)
  | .k n => BitVec.ofNat 8 (200 + n.toNat)
  | .lid => 208
  | .ones => 209
  | .sgn => 210
  | .fone => 211
  | .amask => 212
  | .rsvd n => BitVec.ofNat 8 (213 + n.toNat)
  | .zr => 255

/-- Bits [hi:lo] of the word as a vector of the field's width. -/
def wbits (w : InstrWord) (lo len : Nat) : BitVec len := w.extractLsb' lo len

/-- The common header (R193). -/
def hdrField (w : InstrWord) : Hdr where
  sw := w.getLsbD 95
  gw := w.getLsbD 94
  gap := wbits w 91 3
  keep := w.getLsbD 90
  neg := w.getLsbD 89
  guard := wbits w 86 3
  mod := wbits w 72 6

/-- The opcode field (R193). -/
def opcField (w : InstrWord) : BitVec 8 := wbits w 78 8

/-- Body F3 (R195). -/
def f3Field (w : InstrWord) : F3 where
  h := hdrField w
  d := opndOf (wbits w 64 8)
  a := opndOf (wbits w 56 8)
  b := opndOf (wbits w 48 8)
  c := opndOf (wbits w 40 8)
  bnd := wbits w 36 4
  aux := wbits w 32 4
  imm := wbits w 0 32

/-- Body FM (R195). -/
def fmField (w : InstrWord) : FM where
  h := hdrField w
  d := opndOf (wbits w 64 8)
  base := opndOf (wbits w 56 8)
  index := opndOf (wbits w 48 8)
  data2 := opndOf (wbits w 40 8)
  bnd := wbits w 36 4
  ord := wbits w 32 4
  offset := wbits w 0 32

/-- Body FB (R195). -/
def fbField (w : InstrWord) : FB where
  h := hdrField w
  link := opndOf (wbits w 64 8)
  treg := wbits w 56 8
  kreg := wbits w 48 8
  aux16 := wbits w 32 16
  lineoff := wbits w 3 29
  slot := wbits w 0 3

/-- Body FL (R195). -/
def flField (w : InstrWord) : FL where
  h := hdrField w
  d := opndOf (wbits w 64 8)
  imm := wbits w 0 64

/-- Bits [95:72] of a word (R193). -/
def hdrBits (opc : BitVec 8) (h : Hdr) : BitVec 24 :=
  BitVec.ofBool h.sw ++ BitVec.ofBool h.gw ++ h.gap ++ BitVec.ofBool h.keep ++ BitVec.ofBool h.neg ++ h.guard ++ opc ++ h.mod

/-- The word of an F3 instruction (R193, R195). -/
def f3Word (opc : BitVec 8) (x : F3) : InstrWord :=
  hdrBits opc x.h ++ opndCode x.d ++ opndCode x.a ++ opndCode x.b ++ opndCode x.c ++ x.bnd ++ x.aux ++ x.imm

/-- The word of an FM instruction. -/
def fmWord (opc : BitVec 8) (x : FM) : InstrWord :=
  hdrBits opc x.h ++ opndCode x.d ++ opndCode x.base ++ opndCode x.index ++ opndCode x.data2 ++ x.bnd ++ x.ord ++ x.offset

/-- The word of an FB instruction. -/
def fbWord (opc : BitVec 8) (x : FB) : InstrWord :=
  hdrBits opc x.h ++ opndCode x.link ++ x.treg ++ x.kreg ++ x.aux16 ++ x.lineoff ++ x.slot

/-- The word of an FL instruction. -/
def flWord (opc : BitVec 8) (x : FL) : InstrWord := hdrBits opc x.h ++ opndCode x.d ++ x.imm

/-- The instruction of a word whose opcode is `opc` (R199); a reserved opcode has none (R200). -/
def decodeOpc (opc : Nat) (w : InstrWord) : Option Instr :=
  match opc with
  | 0x00 => some (.nop (f3Field w))
  | 0x01 => some (.bra (fbField w))
  | 0x02 => some (.brx (f3Field w))
  | 0x03 => some (.call (fbField w))
  | 0x04 => some (.callx (f3Field w))
  | 0x05 => some (.ret (f3Field w))
  | 0x06 => some (.join (f3Field w))
  | 0x07 => some (.waitj (f3Field w))
  | 0x08 => some (.exit (f3Field w))
  | 0x09 => some (.yield (f3Field w))
  | 0x0A => some (.safe (f3Field w))
  | 0x0B => some (.launch (f3Field w))
  | 0x0C => some (.cropen (fbField w))
  | 0x0D => some (.crclose (f3Field w))
  | 0x0E => some (.trap (f3Field w))
  | 0x0F => some (.bkpt (f3Field w))
  | 0x10 => some (.step (f3Field w))
  | 0x11 => some (.redt (f3Field w))
  | 0x12 => some (.waittl (f3Field w))
  | 0x13 => some (.tlrd (f3Field w))
  | 0x14 => some (.tladv (f3Field w))
  | 0x15 => some (.sleep (f3Field w))
  | 0x16 => some (.rdtime (f3Field w))
  | 0x17 => some (.movsr (f3Field w))
  | 0x18 => some (.movrs (f3Field w))
  | 0x20 => some (.iadd (f3Field w))
  | 0x21 => some (.isub (f3Field w))
  | 0x22 => some (.iaddc (f3Field w))
  | 0x23 => some (.imul (f3Field w))
  | 0x24 => some (.imulh (f3Field w))
  | 0x25 => some (.imad (f3Field w))
  | 0x26 => some (.imadw (f3Field w))
  | 0x27 => some (.idiv (f3Field w))
  | 0x28 => some (.irem (f3Field w))
  | 0x29 => some (.ineg (f3Field w))
  | 0x2A => some (.iabs (f3Field w))
  | 0x2B => some (.imin (f3Field w))
  | 0x2C => some (.imax (f3Field w))
  | 0x2D => some (.lea (f3Field w))
  | 0x2E => some (.icmp (f3Field w))
  | 0x2F => some (.psel (f3Field w))
  | 0x30 => some (.mov (f3Field w))
  | 0x31 => some (.movi (f3Field w))
  | 0x32 => some (.movil (flField w))
  | 0x33 => some (.plut (f3Field w))
  | 0x34 => some (.p2v (f3Field w))
  | 0x35 => some (.v2p (f3Field w))
  | 0x36 => some (.dot4 (f3Field w))
  | 0x40 => some (.and (f3Field w))
  | 0x41 => some (.or (f3Field w))
  | 0x42 => some (.xor (f3Field w))
  | 0x43 => some (.andn (f3Field w))
  | 0x44 => some (.not (f3Field w))
  | 0x45 => some (.lut3 (f3Field w))
  | 0x46 => some (.shl (f3Field w))
  | 0x47 => some (.shr (f3Field w))
  | 0x48 => some (.sar (f3Field w))
  | 0x49 => some (.rot (f3Field w))
  | 0x4A => some (.fshf (f3Field w))
  | 0x4B => some (.bfe (f3Field w))
  | 0x4C => some (.bfi (f3Field w))
  | 0x4D => some (.popc (f3Field w))
  | 0x4E => some (.clz (f3Field w))
  | 0x4F => some (.ctz (f3Field w))
  | 0x50 => some (.brev (f3Field w))
  | 0x51 => some (.bperm (f3Field w))
  | 0x52 => some (.vote (f3Field w))
  | 0x53 => some (.ballot (f3Field w))
  | 0x54 => some (.xlane (f3Field w))
  | 0x55 => some (.matchL (f3Field w))
  | 0x56 => some (.redux (f3Field w))
  | 0x57 => some (.scanx (f3Field w))
  | 0x58 => some (.readl (f3Field w))
  | 0x59 => some (.bcast (f3Field w))
  | 0x60 => some (.fadd (f3Field w))
  | 0x61 => some (.fsub (f3Field w))
  | 0x62 => some (.fmul (f3Field w))
  | 0x63 => some (.ffma (f3Field w))
  | 0x64 => some (.fmin (f3Field w))
  | 0x65 => some (.fmax (f3Field w))
  | 0x66 => some (.fcmp (f3Field w))
  | 0x67 => some (.fclass (f3Field w))
  | 0x68 => some (.frnd (f3Field w))
  | 0x69 => some (.ffrac (f3Field w))
  | 0x6A => some (.fscale (f3Field w))
  | 0x70 => some (.frcp (f3Field w))
  | 0x71 => some (.frsq (f3Field w))
  | 0x72 => some (.fsqrt (f3Field w))
  | 0x73 => some (.fexp2 (f3Field w))
  | 0x74 => some (.flog2 (f3Field w))
  | 0x75 => some (.fsin (f3Field w))
  | 0x76 => some (.fcos (f3Field w))
  | 0x77 => some (.ftanh (f3Field w))
  | 0x78 => some (.pkadd (f3Field w))
  | 0x79 => some (.pkmul (f3Field w))
  | 0x7A => some (.pkfma (f3Field w))
  | 0x7B => some (.pkmax (f3Field w))
  | 0x80 => some (.dadd (f3Field w))
  | 0x81 => some (.dmul (f3Field w))
  | 0x82 => some (.dfma (f3Field w))
  | 0x83 => some (.dcmp (f3Field w))
  | 0x84 => some (.fcvt (f3Field w))
  | 0x85 => some (.icvt (f3Field w))
  | 0x86 => some (.fpack (f3Field w))
  | 0x87 => some (.funpack (f3Field w))
  | 0x88 => some (.bound (f3Field w))
  | 0x90 => some (.mma (f3Field w))
  | 0x91 => some (.mmaz (f3Field w))
  | 0x92 => some (.fmtv (f3Field w))
  | 0x93 => some (.accepi (f3Field w))
  | 0x94 => some (.accck (f3Field w))
  | 0x95 => some (.mjob (f3Field w))
  | 0x96 => some (.accld (f3Field w))
  | 0x97 => some (.accst (f3Field w))
  | 0x98 => some (.accz (f3Field w))
  | 0xA0 => some (.ld (fmField w))
  | 0xA1 => some (.st (fmField w))
  | 0xA2 => some (.lda (fmField w))
  | 0xA3 => some (.chka (fmField w))
  | 0xA4 => some (.invala (fmField w))
  | 0xA5 => some (.ldix (fmField w))
  | 0xA6 => some (.pref (fmField w))
  | 0xA7 => some (.prefb (fmField w))
  | 0xA8 => some (.cwb (fmField w))
  | 0xA9 => some (.icinv (fmField w))
  | 0xAA => some (.fetchb (fmField w))
  | 0xAB => some (.fence (fmField w))
  | 0xB0 => some (.lds (fmField w))
  | 0xB1 => some (.sts (fmField w))
  | 0xB2 => some (.stx (fmField w))
  | 0xB3 => some (.ldf (fmField w))
  | 0xB4 => some (.ste (fmField w))
  | 0xB5 => some (.stf (fmField w))
  | 0xB6 => some (.tagset (fmField w))
  | 0xB7 => some (.tagclr (fmField w))
  | 0xB8 => some (.tagrd (fmField w))
  | 0xB9 => some (.prsrd (fmField w))
  | 0xC0 => some (.atom (fmField w))
  | 0xC1 => some (.red (fmField w))
  | 0xC2 => some (.atoms (fmField w))
  | 0xC3 => some (.reds (fmField w))
  | 0xC4 => some (.atomx (fmField w))
  | 0xD0 => some (.copy (f3Field w))
  | 0xD1 => some (.copyg (f3Field w))
  | 0xD2 => some (.copys (f3Field w))
  | 0xD3 => some (.copyr (f3Field w))
  | 0xD4 => some (.cbload (f3Field w))
  | 0xD5 => some (.cbdrop (f3Field w))
  | 0xD6 => some (.cqry (f3Field w))
  | _ => none

/-- The instruction of a 96-bit word (R193, R195, R199). -/
def decode (w : InstrWord) : Option Instr := decodeOpc (opcField w).toNat w

/-- The instruction held in 12 bytes, bits [7:0] in the first (R188); none for another number of bytes. -/
def decodeBytes (bs : List Byte) : Option Instr :=
  if bs.length = 12 then decode (BitVec.ofNat 96 (Machine.leNat bs)) else none

/-- The word of an instruction; a step of the package has none. -/
def encode : Instr → Option InstrWord
  | .nop x => some (f3Word 0x00 x)
  | .bra x => some (fbWord 0x01 x)
  | .brx x => some (f3Word 0x02 x)
  | .call x => some (fbWord 0x03 x)
  | .callx x => some (f3Word 0x04 x)
  | .ret x => some (f3Word 0x05 x)
  | .join x => some (f3Word 0x06 x)
  | .waitj x => some (f3Word 0x07 x)
  | .exit x => some (f3Word 0x08 x)
  | .yield x => some (f3Word 0x09 x)
  | .safe x => some (f3Word 0x0A x)
  | .launch x => some (f3Word 0x0B x)
  | .cropen x => some (fbWord 0x0C x)
  | .crclose x => some (f3Word 0x0D x)
  | .trap x => some (f3Word 0x0E x)
  | .bkpt x => some (f3Word 0x0F x)
  | .step x => some (f3Word 0x10 x)
  | .redt x => some (f3Word 0x11 x)
  | .waittl x => some (f3Word 0x12 x)
  | .tlrd x => some (f3Word 0x13 x)
  | .tladv x => some (f3Word 0x14 x)
  | .sleep x => some (f3Word 0x15 x)
  | .rdtime x => some (f3Word 0x16 x)
  | .movsr x => some (f3Word 0x17 x)
  | .movrs x => some (f3Word 0x18 x)
  | .iadd x => some (f3Word 0x20 x)
  | .isub x => some (f3Word 0x21 x)
  | .iaddc x => some (f3Word 0x22 x)
  | .imul x => some (f3Word 0x23 x)
  | .imulh x => some (f3Word 0x24 x)
  | .imad x => some (f3Word 0x25 x)
  | .imadw x => some (f3Word 0x26 x)
  | .idiv x => some (f3Word 0x27 x)
  | .irem x => some (f3Word 0x28 x)
  | .ineg x => some (f3Word 0x29 x)
  | .iabs x => some (f3Word 0x2A x)
  | .imin x => some (f3Word 0x2B x)
  | .imax x => some (f3Word 0x2C x)
  | .lea x => some (f3Word 0x2D x)
  | .icmp x => some (f3Word 0x2E x)
  | .psel x => some (f3Word 0x2F x)
  | .mov x => some (f3Word 0x30 x)
  | .movi x => some (f3Word 0x31 x)
  | .movil x => some (flWord 0x32 x)
  | .plut x => some (f3Word 0x33 x)
  | .p2v x => some (f3Word 0x34 x)
  | .v2p x => some (f3Word 0x35 x)
  | .dot4 x => some (f3Word 0x36 x)
  | .and x => some (f3Word 0x40 x)
  | .or x => some (f3Word 0x41 x)
  | .xor x => some (f3Word 0x42 x)
  | .andn x => some (f3Word 0x43 x)
  | .not x => some (f3Word 0x44 x)
  | .lut3 x => some (f3Word 0x45 x)
  | .shl x => some (f3Word 0x46 x)
  | .shr x => some (f3Word 0x47 x)
  | .sar x => some (f3Word 0x48 x)
  | .rot x => some (f3Word 0x49 x)
  | .fshf x => some (f3Word 0x4A x)
  | .bfe x => some (f3Word 0x4B x)
  | .bfi x => some (f3Word 0x4C x)
  | .popc x => some (f3Word 0x4D x)
  | .clz x => some (f3Word 0x4E x)
  | .ctz x => some (f3Word 0x4F x)
  | .brev x => some (f3Word 0x50 x)
  | .bperm x => some (f3Word 0x51 x)
  | .vote x => some (f3Word 0x52 x)
  | .ballot x => some (f3Word 0x53 x)
  | .xlane x => some (f3Word 0x54 x)
  | .matchL x => some (f3Word 0x55 x)
  | .redux x => some (f3Word 0x56 x)
  | .scanx x => some (f3Word 0x57 x)
  | .readl x => some (f3Word 0x58 x)
  | .bcast x => some (f3Word 0x59 x)
  | .fadd x => some (f3Word 0x60 x)
  | .fsub x => some (f3Word 0x61 x)
  | .fmul x => some (f3Word 0x62 x)
  | .ffma x => some (f3Word 0x63 x)
  | .fmin x => some (f3Word 0x64 x)
  | .fmax x => some (f3Word 0x65 x)
  | .fcmp x => some (f3Word 0x66 x)
  | .fclass x => some (f3Word 0x67 x)
  | .frnd x => some (f3Word 0x68 x)
  | .ffrac x => some (f3Word 0x69 x)
  | .fscale x => some (f3Word 0x6A x)
  | .frcp x => some (f3Word 0x70 x)
  | .frsq x => some (f3Word 0x71 x)
  | .fsqrt x => some (f3Word 0x72 x)
  | .fexp2 x => some (f3Word 0x73 x)
  | .flog2 x => some (f3Word 0x74 x)
  | .fsin x => some (f3Word 0x75 x)
  | .fcos x => some (f3Word 0x76 x)
  | .ftanh x => some (f3Word 0x77 x)
  | .pkadd x => some (f3Word 0x78 x)
  | .pkmul x => some (f3Word 0x79 x)
  | .pkfma x => some (f3Word 0x7A x)
  | .pkmax x => some (f3Word 0x7B x)
  | .dadd x => some (f3Word 0x80 x)
  | .dmul x => some (f3Word 0x81 x)
  | .dfma x => some (f3Word 0x82 x)
  | .dcmp x => some (f3Word 0x83 x)
  | .fcvt x => some (f3Word 0x84 x)
  | .icvt x => some (f3Word 0x85 x)
  | .fpack x => some (f3Word 0x86 x)
  | .funpack x => some (f3Word 0x87 x)
  | .bound x => some (f3Word 0x88 x)
  | .mma x => some (f3Word 0x90 x)
  | .mmaz x => some (f3Word 0x91 x)
  | .fmtv x => some (f3Word 0x92 x)
  | .accepi x => some (f3Word 0x93 x)
  | .accck x => some (f3Word 0x94 x)
  | .mjob x => some (f3Word 0x95 x)
  | .accld x => some (f3Word 0x96 x)
  | .accst x => some (f3Word 0x97 x)
  | .accz x => some (f3Word 0x98 x)
  | .ld x => some (fmWord 0xA0 x)
  | .st x => some (fmWord 0xA1 x)
  | .lda x => some (fmWord 0xA2 x)
  | .chka x => some (fmWord 0xA3 x)
  | .invala x => some (fmWord 0xA4 x)
  | .ldix x => some (fmWord 0xA5 x)
  | .pref x => some (fmWord 0xA6 x)
  | .prefb x => some (fmWord 0xA7 x)
  | .cwb x => some (fmWord 0xA8 x)
  | .icinv x => some (fmWord 0xA9 x)
  | .fetchb x => some (fmWord 0xAA x)
  | .fence x => some (fmWord 0xAB x)
  | .lds x => some (fmWord 0xB0 x)
  | .sts x => some (fmWord 0xB1 x)
  | .stx x => some (fmWord 0xB2 x)
  | .ldf x => some (fmWord 0xB3 x)
  | .ste x => some (fmWord 0xB4 x)
  | .stf x => some (fmWord 0xB5 x)
  | .tagset x => some (fmWord 0xB6 x)
  | .tagclr x => some (fmWord 0xB7 x)
  | .tagrd x => some (fmWord 0xB8 x)
  | .prsrd x => some (fmWord 0xB9 x)
  | .atom x => some (fmWord 0xC0 x)
  | .red x => some (fmWord 0xC1 x)
  | .atoms x => some (fmWord 0xC2 x)
  | .reds x => some (fmWord 0xC3 x)
  | .atomx x => some (fmWord 0xC4 x)
  | .copy x => some (f3Word 0xD0 x)
  | .copyg x => some (f3Word 0xD1 x)
  | .copys x => some (f3Word 0xD2 x)
  | .copyr x => some (f3Word 0xD3 x)
  | .cbload x => some (f3Word 0xD4 x)
  | .cbdrop x => some (f3Word 0xD5 x)
  | .cqry x => some (f3Word 0xD6 x)
  | .switchMarkerPass _ => none
  | .fenceComplete _ => none
  | .sleepExpiry _ => none
  | .leaseExpiry _ _ => none
  | .addressTableExpiry _ => none
  | .absentLineWake _ => none
  | .stepComplete _ => none
  | .nextPlaneRefillDone _ _ => none
  | .redtResult _ _ => none
  | .whiskMessage _ => none
  | .rd _ => none
  | .rdr _ => none
  | .wr _ => none
  | .wrc _ => none
  | .atPkt _ => none
  | .atr _ => none
  | .lx _ => none
  | .fm _ => none
  | .fmr _ => none
  | .xm _ => none
  | .pf _ => none
  | .pfReply _ => none
  | .rm _ => none
  | .rma _ => none
  | .lc _ => none
  | .lossNotice _ => none
  | .tx _ => none
  | .reservedPacket _ => none
  | .linkRetryTimeout _ => none
  | .colourDark _ _ => none
  | .routeWrite _ _ _ => none
  | .routeRetest _ _ _ => none
  | .routeRetestDone _ _ _ _ => none
  | .timeExchange _ _ _ _ _ => none
  | .translationRequest _ => none
  | .walkReferenceReply _ _ => none
  | .pageRequestPost _ => none
  | .prqRecordComplete _ => none
  | .prrespRetry _ _ => none
  | .prrespRefuse _ _ => none
  | .xlatinvRange _ => none
  | .xlatinvContext _ => none
  | .xlatinvAll _ => none
  | .xlatinvComplete => none
  | .pinctlUnpinRange _ _ => none
  | .pinctlUnpinAll _ _ => none
  | .pinctlComplete _ => none
  | .scrubRead _ => none
  | .memerrClear _ _ => none
  | .icinvCommit _ => none
  | .lineFill _ _ => none
  | .copyChunk _ _ => none
  | .copyComplete _ _ _ => none
  | .cbloadServe _ _ => none
  | .cbdropServe _ _ => none
  | .jobAdmission _ => none
  | .jobStep _ => none
  | .jobComplete _ => none
  | .queueWindowWrite _ => none
  | .qcfgWrite _ _ => none
  | .qstatClear _ _ => none
  | .dispatchTake => none
  | .teamPlace _ _ _ => none
  | .cohortPlace _ _ => none
  | .cohortWaitExpiry _ => none
  | .teamRetire _ => none
  | .gridRetire _ => none
  | .controlIntervalBoundary _ => none
  | .shedSafeDeadline => none
  | .shelfSample _ _ _ => none
  | .telemetryStale => none
  | .droopCurveWrite _ _ => none
  | .droopDetect _ => none
  | .droopHoldExpiry _ => none
  | .preemptSave _ => none
  | .preemptResume _ => none
  | .preemptCancel _ => none
  | .teamSave _ => none
  | .teamRestore _ _ => none
  | .watchdogExpiry _ => none
  | .thermalReport _ _ => none
  | .emergencySaveComplete => none
  | .scanDrain _ => none
  | .scanDrainComplete => none
  | .scanRun _ => none
  | .scanRunComplete => none
  | .scanRelease _ => none
  | .coreDomWrite _ _ => none
  | .fltbaseWrite _ _ => none
  | .cestatClear _ _ _ => none
  | .hidstatClear _ => none
  | .hostcfgRearm _ => none
  | .pacecfgWrite _ => none
  | .pacePeriodEnd => none
  | .lagWordReceive _ => none
  | .registerWrite _ _ => none
  | .hostMemRead _ => none
  | .hostMemWrite _ => none
  | .hostWriteCompletion _ => none
  | .snoopResponse _ _ => none
  | .hostLinkTimeout => none
  | .snoopTimeout _ => none
  | .dieFailure _ => none
  | .computeChipletFailure _ => none
  | .dieErrorReport _ => none
  | .scaleupLinkState _ _ => none
  | .scaleupRecoveryTimeout _ => none
  | .hartFence _ _ _ => none
  | .hartAmo _ _ => none
  | .hartLr _ _ _ => none
  | .hartSc _ _ _ _ => none
  | .hartFenceI _ => none
  | .mgmtAssign _ _ _ => none
  | .mgmtDebugEnable _ => none
  | .mgmtDebugDisable _ => none
  | .mgmtDeclareHostLost => none
  | .domainReset _ => none
  | .firmwareUpdate _ _ => none
  | .attestationRequest _ => none
  | .debugResume _ => none
  | .packageReset => none
  | .socketPowerUp _ => none
  | .measuredBoot _ => none
  | .chipletRelease _ => none
  | .hostLinkL0Change _ => none
  | .systemRangeReply _ _ => none
  | .icinvChipletAck _ _ => none
  | .standbyPowerLoss => none

/-- What the decoder reads from an instruction with the low `nbits` bits of `w` and zeros above them. DESIGN CHOICE, log entry 10. -/
def decodeTableWord (nbits w : Nat) : Option Instr := decodeBytes (Machine.leBytes 12 (w % 2 ^ nbits))

end Sys2Proof
end

