-- ==== Sys2Proof/Machine/Regs.lean ====
section
/-! DEFINITION. The register space: where each register is held, its reset value and its writable bits (R5 and each register's map). -/

namespace Sys2Proof.Machine

/-- Key of a register with up to two indices. -/
def regKey (kind i j : Nat) : Nat := kind * 16777216 + (i % 4096) * 4096 + j % 4096

/-- Each register's own key in the register table. -/
def regCode : Reg → Nat
  | .pkgcfg => regKey 0 0 0
  | .timeskew => regKey 1 0 0
  | .leasecfg => regKey 2 0 0
  | .pinctl n => regKey 3 0 n
  | .pinstat n => regKey 4 0 n
  | .scrubcfg => regKey 5 0 0
  | .memerr n => regKey 6 0 n
  | .route i j => regKey 7 i j
  | .vfctx n => regKey 8 0 n
  | .vfs2 n => regKey 9 0 n
  | .prqbase n => regKey 10 0 n
  | .prqptr n => regKey 11 0 n
  | .prresp n => regKey 12 0 n
  | .xlataddr => regKey 13 0 0
  | .xlatinv => regKey 14 0 0
  | .cestat c e => regKey 15 c e
  | .qcfg n => regKey 16 0 n
  | .qstat n => regKey 17 0 n
  | .qtl n => regKey 18 0 n
  | .qtli n => regKey 19 0 n
  | .qnotify n => regKey 20 0 n
  | .clbudget c => regKey 21 0 c
  | .clstat c => regKey 22 0 c
  | .pwrcfg => regKey 23 0 0
  | .shelfstat => regKey 24 0 0
  | .droopCurve k => regKey 25 0 k
  | .shedState => regKey 26 0 0
  | .permits n => regKey 27 0 n
  | .fltbase d => regKey 28 0 d
  | .fltptr d => regKey 29 0 d
  | .coreDom g => regKey 30 0 g
  | .preempt => regKey 31 0 0
  | .qctx n => regKey 32 0 n
  | .wdcfg => regKey 33 0 0
  | .thermSave => regKey 34 0 0
  | .thermHard => regKey 35 0 0
  | .emsave => regKey 36 0 0
  | .emstat => regKey 37 0 0
  | .scanctl => regKey 38 0 0
  | .hostcfg => regKey 39 0 0
  | .hidtab k => regKey 40 0 k
  | .hidstat => regKey 41 0 0
  | .sbxDom h => regKey 42 0 h
  | .suwin k => regKey 43 0 k
  | .pacecfg => regKey 44 0 0
  | .pacestat => regKey 45 0 0

/-- Reset values (each register's map); PKGCFG before boot, XLATADDR and SUWIN_k: DESIGN CHOICE, log entry 3. -/
def regReset : Reg → Word64
  | .pkgcfg => 0x80000000#64
  | .timeskew => 3
  | .leasecfg => 0x07D0
  | .scrubcfg => 0x80000018
  | .qnotify _ => 0xFFFFFFFFFFFFFFFF
  | .clbudget _ => 0x3E809C400001CFDE
  | .pwrcfg => 0x271003E800000004
  | .shelfstat => 0x0001000000000000
  | .shedState => 0x0000080000000000
  | .permits _ => 0x00400000
  | .wdcfg => 0x800000000000C350
  | .thermSave => 0x80000069
  | .thermHard => 0x73
  | .hostcfg => 100
  | .pacecfg => 0x80000802
  | _ => 0

/-- Which registers exist (the index ranges of their rules). -/
def regExists : Reg → Bool
  | .pinctl n | .pinstat n | .memerr n => decide (12 ≤ n ∧ n ≤ 27)
  | .route i j => decide (i < 32 ∧ j < 32 ∧ i ≠ j)
  | .vfctx n | .vfs2 n | .prqbase n | .prqptr n | .prresp n | .fltbase n | .fltptr n | .hidtab n | .sbxDom n => decide (n < 64)
  | .cestat c e => decide (c < 12 ∧ e < 6)
  | .qcfg n | .qstat n | .qtl n | .qtli n | .qnotify n | .qctx n => decide (n < 2048)
  | .clbudget c | .clstat c => decide (c < 96)
  | .droopCurve k => decide (k < 8)
  | .permits n => decide (n < 48)
  | .coreDom g => decide (g < 384)
  | .suwin k => decide (k < 256)
  | _ => true

/-- Bits that a write stores as written (access RW). -/
def regRw : Reg → Word64
  | .leasecfg => 0xFFFF
  | .pinctl _ => 0x000FFFFFFFFFFFFF
  | .scrubcfg => 0x8000FFFF
  | .route _ _ => 0xFFFE0000
  | .vfctx _ => 0xE00FFFFFFFFF0000
  | .vfs2 _ => 0x000FFFFFFFFF0000
  | .prqbase _ => 0x00FFFFFFFFFFF000
  | .prqptr _ => 0xFFFFFFFF00000000
  | .xlataddr => 0xFFFFFFFFFFFFFFFF
  | .xlatinv => 0x7FC0000000000000
  | .qcfg _ => 0xFFFFF00000000000
  | .qnotify _ => 0xFFFFFFFFFFFFFFFF
  | .clbudget _ => 0xFFFFFFFF00FFFFFF
  | .pwrcfg => 0xFFFFFFFF000000FF
  | .droopCurve _ => 0xF800FFFFFFFF0FFF
  | .fltbase _ => 0x40FFFFFFFFFFF000
  | .fltptr _ => 0xFFFFFFFF00000000
  | .coreDom _ | .sbxDom _ => 0xC00000000000003F
  | .preempt => 0xFFF
  | .qctx _ => 0x000FFFFFFFFFFFFF
  | .wdcfg => 0x80000000FFFFFFFF
  | .thermSave => 0x800000FF
  | .thermHard => 0xFF
  | .emsave => 0xFFFFFFFFFFFFF000
  | .scanctl => 0x07CFFFFFFFFFFFFF
  | .hostcfg => 0xFFFF
  | .hidtab _ => 0xE000FFF000FFFFFF
  | .suwin _ => 0xFFFFFE0FFFFFFFFF
  | .pacecfg => 0x8000FFFF
  | _ => 0

/-- Bits that a write of 1 clears (access W1C). -/
def regW1c : Reg → Word64
  | .pinstat _ => 0x80000000
  | .memerr _ => 0x8000000000
  | .route _ _ => 0x1000
  | .prqbase _ | .fltbase _ | .emstat => 0x8000000000000000
  | .coreDom _ | .sbxDom _ | .preempt => 0x1000000000000000
  | _ => 0

/-- The stored word of a register. -/
def regGet (s : State) (r : Reg) : Word64 := sget (regReset r) s.regs (regCode r)

/-- The state with a register's stored word replaced (the device's own updates). -/
def regPut (s : State) (r : Reg) (w : Word64) : State := { s with regs := sset (regReset r) s.regs (regCode r) w }

/-- What a software write leaves in a register by its access codes alone (R5). -/
def regWritten (r : Reg) (old v : Word64) : Word64 := ((old &&& ~~~regRw r) ||| (v &&& regRw r)) &&& ~~~(v &&& regW1c r)

/-- A field of a register. -/
def regFld (s : State) (r : Reg) (hi lo : Nat) : Nat := fld (regGet s r) hi lo

/-- A bit of a register. -/
def regBit (s : State) (r : Reg) (i : Nat) : Bool := bit (regGet s r) i

/-- The device sets a field of a register. -/
def regSet (s : State) (r : Reg) (hi lo x : Nat) : State := regPut s r (setFld (regGet s r) hi lo x)

/-- The device sets a bit of a register. -/
def regSetBit (s : State) (r : Reg) (i : Nat) (b : Bool) : State := regPut s r (setBit (regGet s r) i b)

/-- The budget of a cluster that is in force until the next boundary (R370), held beside the written one. -/
def budgetInForce (s : State) (c : Nat) : Word64 := sget (regReset (.clbudget 0)) s.regs (regKey 46 0 c)

/-- Takes the written budget into force (R370). -/
def budgetTake (s : State) (c : Nat) : State :=
  { s with regs := sset (regReset (.clbudget 0)) s.regs (regKey 46 0 c) (regGet s (.clbudget c)) }

end Sys2Proof.Machine
end

