-- ==== Sys2Proof/Machine/Coherent.lean ====
section
/-! DEFINITION. Where an address is homed, and the home slice's copy of a line over DRAM (R9 to R11, R14, R16 to R21, R27, R28, R93). -/

namespace Sys2Proof.Machine

/-- M, the count of live memory chiplets (R7, R12). -/
def mCount (s : State) : Nat := regFld s .pkgcfg 36 32

/-- D, the count of live dies with a translation shard (R7, R12). -/
def dCount (s : State) : Nat := regFld s .pkgcfg 41 37

/-- The live mask of PKGCFG (R12). -/
def liveMask (s : State) : Nat := regFld s .pkgcfg 31 0

/-- Bytes of one memory chiplet's DRAM: 144 GiB. -/
def chipletBytes : Nat := 144 * 2 ^ 30

/-- Top of device DRAM (R9). -/
def dramTop (s : State) : Nat := mCount s * chipletBytes

/-- First system-range address (R9, R412). -/
def sysBase : Nat := 2 ^ 48

/-- The low nibble's swizzle (R10). -/
def swizzle (g : Nat) : Nat :=
  let x := (g % 16) ^^^ (g / 2 ^ 4 % 16) ^^^ (g / 2 ^ 8 % 16) ^^^ (g / 2 ^ 12 % 16) ^^^ (g / 2 ^ 16 % 16)
  g / 16 * 16 + x

/-- The home index of a device address (R10). -/
def homeIndex (s : State) (pa : Nat) : Nat := swizzle (pa / 256) % mCount s

/-- The local granule of a device address (R10). -/
def localGranule (s : State) (pa : Nat) : Nat := swizzle (pa / 256) / mCount s

/-- The home socket of a device address (R10). -/
def homeSocket (s : State) (pa : Nat) : Nat := 12 + nthSetBit (liveMask s / 2 ^ 12 % 2 ^ 16) (homeIndex s pa) 16

/-- The local line of a device address (R11). -/
def localLine (s : State) (pa : Nat) : Nat := localGranule s pa * 2 + pa / 128 % 2

/-- The address of a granule from its home index and local granule: the inverse of R10 (R30 note). -/
def granuleAddress (s : State) (idx lg : Nat) : Nat := swizzle (lg * mCount s + idx) * 256

/-- The home index of a memory socket (R10). -/
def indexOfSocket (s : State) (sock : Nat) : Nat := popCount (liveMask s / 2 ^ 12 % 2 ^ (sock - 12)) 16

/-- Offset of a socket's package time from the master's (R47). -/
def clockInit : Clock := ⟨0, 0, 0, 0, 0, 0⟩

/-- Package time on a socket (R47). -/
def timeAt (s : State) (sock : Nat) : Nat := ((s.time : Int) + (sget clockInit s.clocks sock).offset).toNat

/-- TIMESKEW.bound_ns (R48). -/
def skew (s : State) : Nat := regFld s .timeskew 7 0

/-- A home slice line with nothing in it (R14). -/
def lineInit : SliceLine := ⟨0, 0, 0, false, 0, false, 0, 0⟩

/-- The slice's line that holds an address; the default when it is absent. -/
def lineAt (s : State) (pa : Nat) : SliceLine := sget lineInit s.lines (pa / 128)

/-- Whether the slice holds a line. A held line always differs from the empty line. -/
def linePresent (s : State) (pa : Nat) : Bool := (slookup s.lines (pa / 128)).isSome

/-- The line in the slice with its state replaced. -/
def putLine (s : State) (pa : Nat) (l : SliceLine) : State := { s with lines := sset lineInit s.lines (pa / 128) l }

/-- The sector number of an address in its line. -/
def sectorIx (pa : Nat) : Nat := pa / 16 % 8

/-- Whether a memory chiplet has failed at run time (R28). -/
def socketFailed (s : State) (sock : Nat) : Bool := s.failed.getLsbD sock

/-- One byte as the home holds it: the slice's where its sector is valid, DRAM's otherwise. -/
def homeByte (s : State) (pa : Nat) : Byte :=
  if bit (lineAt s pa).valid (sectorIx pa) then readByte s.slice pa else readByte s.mem pa

/-- Bytes as the home holds them. -/
def homeBytes (s : State) (pa n : Nat) : List Byte := (List.range n).map fun i => homeByte s (pa + i)

/-- Whether an address's sector is poisoned, or its chiplet has failed (R28). -/
def sectorPoisoned (s : State) (pa : Nat) : Bool :=
  socketFailed s (homeSocket s pa) ||
    (if bit (lineAt s pa).valid (sectorIx pa) then bit (lineAt s pa).poison (sectorIx pa)
     else sget false s.dramPoison (pa / 16))

/-- Whether any sector of a range is poisoned. -/
def rangePoisoned (s : State) (pa n : Nat) : Bool :=
  (List.range ((pa + n - 1) / 16 + 1 - pa / 16)).any fun i => sectorPoisoned s ((pa / 16 + i) * 16)

/-- Whether DRAM's copy of a sector cannot be corrected: two bad symbols in its half-line, or poison (R27). -/
def dramBad (s : State) (sector : Nat) : Bool := sget false s.dramPoison sector || decide (2 ≤ sget 0 s.badSymbols (sector / 4))

/-- An error of a socket's DRAM or slice counted (R27, R30). -/
def countDramError (s : State) (pa : Nat) (ue : Bool) : State :=
  let r := Reg.memerr (homeSocket s pa)
  if ue then
    regSetBit (regSet (regSet s r 47 40 (saturate 8 (regFld s r 47 40 + 1))) r 29 0 (localGranule s pa)) r 39 true
  else regSet s r 63 48 (saturate 16 (regFld s r 63 48 + 1))

/-- Whether the slice holds a dirty sector of a half-line (R29). -/
def halfDirty (s : State) (pa : Nat) : Bool :=
  let l := lineAt s pa
  (List.range 4).any fun i => bit l.valid (sectorIx (pa / 64 * 64 + 16 * i)) && bit l.dirty (sectorIx (pa / 64 * 64 + 16 * i))

/-- A read of a DRAM half-line (R27, R29): one bad symbol is corrected and counted, and rewritten unless the slice holds a dirty sector of the
half-line, whose write-back supplies the data; two bad symbols poison its sectors. -/
def dramCheck (s : State) (pa : Nat) : State :=
  match sget 0 s.badSymbols (pa / 64) with
  | 0 => s
  | 1 => countDramError (if halfDirty s pa then s else { s with badSymbols := sset 0 s.badSymbols (pa / 64) 0 }) pa false
  | _ =>
    let s := countDramError { s with badSymbols := sset 0 s.badSymbols (pa / 64) 0 } pa true
    { s with dramPoison := (List.range 4).foldl (fun m i => sset false m (pa / 64 * 4 + i) true) s.dramPoison }

/-- A read of a sector that the slice holds (R27): one wrong bit is repaired and counted, more than SEC-DED corrects poison the sector. -/
def sliceCheck (s : State) (pa : Nat) : State :=
  let l := lineAt s pa
  let i := sectorIx pa
  let clear : SliceLine := { l with weak := setBit l.weak i false, broken := setBit l.broken i false }
  if !bit l.valid i then s
  else if bit l.broken i then countDramError (putLine s pa { clear with poison := setBit l.poison i true }) pa true
  else if bit l.weak i then countDramError (putLine s pa clear) pa false
  else s

/-- A sector filled from DRAM when it is not valid (R14), or checked where the slice holds it (R27). -/
def fillSector (s : State) (pa : Nat) : State :=
  let l := lineAt s pa
  let i := sectorIx pa
  if bit l.valid i then sliceCheck s pa
  else
    let s := dramCheck s pa
    let b := pa / 16 * 16
    let s := { s with slice := writeCells s.slice (cellsAt b (readBytes s.mem b 16)) }
    putLine s pa { l with valid := setBit l.valid i true, poison := setBit l.poison i (sget false s.dramPoison (pa / 16)) }

/-- A dirty sector written to DRAM (R14, R27): its half-line is read for the other sectors and written as a whole. -/
def writeBackSector (s : State) (pa : Nat) : State :=
  if bit (lineAt s pa).valid (sectorIx pa) && bit (lineAt s pa).dirty (sectorIx pa) then
    let s := dramCheck (sliceCheck s pa) pa
    let l := lineAt s pa
    let i := sectorIx pa
    let b := pa / 16 * 16
    putLine { s with mem := writeCells s.mem (cellsAt b (readBytes s.slice b 16))
                     dramPoison := sset false s.dramPoison (pa / 16) (bit l.poison i)
                     badSymbols := sset 0 s.badSymbols (pa / 64) 0 }
      pa { l with dirty := setBit l.dirty i false }
  else s

/-- All dirty sectors of a line written to DRAM (R14, R226). -/
def writeBackLine (s : State) (pa : Nat) : State :=
  (List.range 8).foldl (fun s i => writeBackSector s (pa / 128 * 128 + 16 * i)) s

/-- A line leaves the slice: dirty sectors written back, the horizon raised by a lease still running (R14, R18). -/
def evictLine (s : State) (pa : Nat) : State :=
  if linePresent s pa then
    let s := writeBackLine s pa
    let h := homeSocket s pa
    let l := lineAt s pa
    let s := if timeAt s h < l.lease then { s with horizon := supd 0 s.horizon h (max l.lease) } else s
    let s := if l.pin then regSet s (.pinstat h) 17 0 (regFld s (.pinstat h) 17 0 - 1) else s
    let b := pa / 128 * 128
    { s with lines := serase s.lines (pa / 128), slice := (List.range 128).foldl (fun m i => writeByte m (b + i) 0) s.slice }
  else s

/-- Lines of the same slice and set as an address (R14). DESIGN CHOICE, log entry 11. -/
def setMates (s : State) (pa : Nat) : Sparse SliceLine :=
  s.lines.filter fun e => e.1 != pa / 128 && homeSocket s (e.1 * 128) == homeSocket s pa
    && localLine s (e.1 * 128) % 32768 == localLine s pa % 32768

/-- A free choice among `n` outcomes, and the counter advanced (DESIGN CHOICE, log entry 2). -/
def pick (s : State) (n : Nat) : Nat × State := (Config.freeChoice s.freeCount % n, { s with freeCount := s.freeCount + 1 })

/-- A way of the set made free: when 16 lines are held, one of the unpinned lines that have not been used recently is evicted, or of all unpinned
lines where all have (R14; which one is free, DESIGN CHOICE, log entry 2). DESIGN CHOICE, log entry 11. -/
def makeRoom (s : State) (pa : Nat) : State :=
  let mates := setMates s pa
  if mates.length < 16 then s
  else
    let unpinned := mates.filter fun e => !e.2.pin
    let old := unpinned.filter fun e => !e.2.recent
    let victims := if old.isEmpty then unpinned else old
    let (k, s) := pick s victims.length
    match victims[k]? with
    | some e => evictLine s (e.1 * 128)
    | none => s

/-- A line of the slice used (R14): its bit of the pseudo-LRU is set, and when the bits of all unpinned lines of a full set would be, those of the
others are cleared. DESIGN CHOICE, log entry 11. -/
def useLine (s : State) (pa : Nat) : State :=
  if (lineAt s pa).recent then s
  else
    let mates := setMates s pa
    let others := mates.filter fun e => !e.2.pin
    let s := if mates.length == 15 && !(lineAt s pa).pin && others.all (fun e => e.2.recent) then
        others.foldl (fun s e => putLine s (e.1 * 128) { lineAt s (e.1 * 128) with recent := false }) s
      else s
    putLine s pa { lineAt s pa with recent := true }

/-- The line made present in the slice for a request under an attribute other than UNCACHED: the lease of a new line is the
eviction horizon, and a PINNED access pins within the budget (R14, R18, R20, R21). -/
def touchLine (s : State) (pa : Nat) (attr : BitVec 2) : State :=
  let s := if linePresent s pa then s else
    let s := makeRoom s pa
    let h := homeSocket s pa
    -- a line that holds no sector yet is kept listed by filling the sector that the request names
    fillSector (putLine s pa { lineInit with lease := sget 0 s.horizon h }) pa
  let s := useLine s pa
  if attr = 2 && !(lineAt s pa).pin then
    let h := homeSocket s pa
    if ((setMates s pa).filter fun e => e.2.pin).length < 4 then
      regSet (putLine s pa { lineAt s pa with pin := true }) (.pinstat h) 17 0 (regFld s (.pinstat h) 17 0 + 1)
    else regSetBit s (.pinstat h) 31 true
  else s

/-- The latest lease that bounds a completion on a line: the line's, or the horizon where it is absent (R16, R18, R20). -/
def latestLease (s : State) (pa : Nat) : Nat :=
  if linePresent s pa then (lineAt s pa).lease else sget 0 s.horizon (homeSocket s pa)

/-- The completion time of a write (R16); a failed chiplet answers now() + TIMESKEW (R28). -/
def completionTime (s : State) (pa : Nat) : Nat :=
  let h := homeSocket s pa
  if socketFailed s h then timeAt s h + skew s else max (timeAt s h) (latestLease s pa) + skew s

/-- Key of the running maximum of a slice for a source socket and plane (R16). -/
def maxKey (h src : Nat) (planeB : Bool) : Nat := (h * 32 + src) * 2 + planeB.toNat

/-- A completion time noted for fence markers (R16). -/
def noteCompletion (s : State) (h src : Nat) (planeB : Bool) (t : Nat) : State :=
  { s with maxDone := supd 0 s.maxDone (maxKey h src planeB) (max t) }

/-- The rewrite mask of a half-line after a partial write by a writer (R93). -/
def rewriteUpdate (r : Option Rewrite) (sectors : BitVec 4) (src : Nat) (who : Requester) : Option Rewrite :=
  let mask := match r with
    | some r => if r.src = src ∧ r.who = who then r.mask ||| sectors else sectors
    | none => sectors
  if mask = 15#4 then none else some ⟨mask, src, who⟩

/-- The agent field of R35 that distinguishes writers: core, ladle, engine. -/
def writerKind : Requester → Requester
  | .entry c _ l | .fence c _ l | .pref c l | .reader c _ l => .pref c l
  | .agent c a _ _ _ => .pref c (a.idx == 32)
  | .engine c e _ => .engine c e 0
  | .hart h => .hart h
  | .walker _ _ | .device _ | .other => .other

/-- Rewrite masks after one request's cells in one half-line; a whole half-line clears it (R93). -/
def noteRewrite (s : State) (half : Nat) (addrs : List Nat) (src : Nat) (who : Requester) : State :=
  let mine := addrs.filter fun a => a / 64 = half
  if mine.isEmpty then s
  else if mine.length ≥ 64 then { s with rewrites := s.rewrites.filter fun e => e.1 != half }
  else
    let sec := mine.foldl (fun (m : BitVec 4) a => setBit m (a / 16 % 4) true) 0
    let old := (s.rewrites.find? fun e => e.1 = half).map (·.2)
    let rest := s.rewrites.filter fun e => e.1 != half
    match rewriteUpdate old sec src (writerKind who) with
    | some r => { s with rewrites := (half, r) :: rest }
    | none => { s with rewrites := rest }

/-- Whether a fill of a half-line is marked torn (R93). -/
def torn (s : State) (pa : Nat) : Bool := s.rewrites.any fun e => e.1 == pa / 64 && e.2.mask != 0

/-- The cells of one line written in the slice: sectors filled first where only part is written, dirty set, poison cleared by a
whole-sector write and kept by a partial one (R14, R28). -/
def writeSectorCells (s : State) (pa : Nat) (cells : List Host.Cell) (poisoned : Bool) : State :=
  let mine := cells.filter fun c => c.1 / 16 = pa / 16
  if mine.isEmpty then s
  else
    let whole := decide (16 ≤ mine.length)
    let s := if whole then s else fillSector s pa
    let l := lineAt s pa
    let i := sectorIx pa
    let s := { s with slice := writeCells s.slice mine }
    putLine s pa { l with valid := setBit l.valid i true, dirty := setBit l.dirty i true
                          poison := setBit l.poison i (poisoned || (!whole && bit l.poison i))
                          weak := setBit l.weak i false, broken := setBit l.broken i false }

/-- Cells of one 128-byte line written at its home under an attribute (R14, R20, R28, R93); nothing at a failed chiplet. The attribute of a write
that no page-table entry translates (a hart's, a device's record) is L2ONLY (DESIGN CHOICE, log entry 47). -/
def homeWrite (s : State) (attr : BitVec 2) (cells : List Host.Cell) (src : Nat) (who : Requester) (poisoned : Bool) : State :=
  match cells with
  | [] => s
  | c :: _ =>
    let pa := c.1
    if socketFailed s (homeSocket s pa) then s
    else
      let base := pa / 128 * 128
      -- a write to a sector ends the harts' reservations on it (R421)
      let s := { s with reservations := s.reservations.filter fun r => !cells.any fun c => c.1 / 16 == r.sector }
      let s := noteRewrite s (base / 64) (cells.map (·.1)) src who
      let s := noteRewrite s (base / 64 + 1) (cells.map (·.1)) src who
      let wr := fun s => (List.range 8).foldl (fun s i => writeSectorCells s (base + 16 * i) cells poisoned) s
      if attr = 3 then
        -- UNCACHED: the line is dropped, then DRAM is written through a transient copy (R20)
        let s := evictLine s pa
        let h := homeSocket s pa
        let keep := sget 0 s.horizon h
        let s := evictLine (wr (putLine s pa lineInit)) pa
        { s with horizon := sset 0 s.horizon h keep }
      else wr (touchLine s pa attr)

/-- A line prepared for a read at its home: an UNCACHED read drops the line, any other holds it with the sectors of the range
filled (R14, R20). -/
def homePrepare (s : State) (attr : BitVec 2) (pa n : Nat) : State :=
  if attr = 3 then dramCheck (evictLine s pa) pa
  else
    (List.range ((pa + n - 1) / 16 + 1 - pa / 16)).foldl (fun s i => fillSector s ((pa / 16 + i) * 16)) (touchLine s pa attr)

/-- The lease that the home grants on a line, if any (R17): its expiry, with latest-lease raised. -/
def grantLease (s : State) (pa : Nat) : Nat × State :=
  let n := regFld s .leasecfg 15 0
  if n = 0 || socketFailed s (homeSocket s pa) then (0, s)
  else
    let e := timeAt s (homeSocket s pa) + n
    let l := lineAt s pa
    (e, putLine s pa { l with lease := max l.lease e })


end Sys2Proof.Machine
end

