-- ==== Sys2Proof/Machine/Ops.lean ====
section
/-! DEFINITION. Agents and teams, lanes and issue, results in flight, and taking an event: the record, the unwind and the termination
(R148 to R152, R194, R203, R204, R315, R318, R345, R346, R387 to R396). -/

namespace Sys2Proof.Machine

/-! ### Looking up and updating -/

def agentOf (s : State) (k : AgentKey) : Option Agent := s.agents.find? fun a => a.key == k

def teamOf (s : State) (u : Nat) : Option Team := s.teams.find? fun t => t.uid == u

def gridOf (s : State) (g : Nat) : Option Grid := s.grids.find? fun x => x.id == g

def updAgent (s : State) (k : AgentKey) (f : Agent → Agent) : State :=
  { s with agents := updWhere (fun a => a.key == k) f s.agents }

def updTeam (s : State) (u : Nat) (f : Team → Team) : State :=
  { s with teams := updWhere (fun t => t.uid == u) f s.teams }

def updGrid (s : State) (g : Nat) (f : Grid → Grid) : State :=
  { s with grids := updWhere (fun x => x.id == g) f s.grids }

/-- A core with nothing cached and nothing in flight. -/
def coreInit : Core := ⟨[], [], [], [], [], [], []⟩

def coreOf (s : State) (g : Nat) : Core := sget coreInit s.cores g

def updCore (s : State) (g : Nat) (f : Core → Core) : State := { s with cores := supd coreInit s.cores g f }

/-- A copy engine with nothing queued. -/
def engineInit : Engine := ⟨[], [], []⟩

/-- Key of engine `e` of chiplet `c`. -/
def engineKey (c e : Nat) : Nat := c * 8 + e

def engineOf (s : State) (c e : Nat) : Engine := sget engineInit s.engines (engineKey c e)

def updEngine (s : State) (c e : Nat) (f : Engine → Engine) : State :=
  { s with engines := supd engineInit s.engines (engineKey c e) f }

/-- A cluster at its reset phase (DESIGN CHOICE, log entry 7). -/
def clusterInit : Cluster := ⟨0, 0, [], [], none⟩

/-- The cluster of a core: 4 cores under one clock (R369). -/
def clusterOf (core : Nat) : Nat := core / 4

/-- Cycles that a core's cluster has counted. -/
def cycleOf (s : State) (core : Nat) : Nat := (sget clusterInit s.clusters (clusterOf core)).cycle

/-- The socket of a global core (R230). -/
def socketOf (core : Nat) : Nat := core / 32

/-- Package time on a core's chiplet. -/
def coreTime (s : State) (core : Nat) : Nat := timeAt s (socketOf core)

/-- A ladle context is agent 32 of its team. -/
def isLadle (k : AgentKey) : Bool := k.idx == 32

/-- A fresh number for objects of the model. -/
def fresh (s : State) : Nat × State := (s.nextId, { s with nextId := s.nextId + 1 })

/-- Number of warps of a team (R207). -/
def warpCount (h : Header) : Nat := h.tx * h.ty * h.tz / 32

/-! ### Registers -/

/-- Key of lane `l` of lane register `n`. -/
def laneKey (n l : Nat) : Nat := n * 32 + l

def vGet (a : Agent) (n l : Nat) : Word32 := sget 0 a.v (laneKey n l)
def sGet (a : Agent) (n : Nat) : Word64 := sget 0 a.s n
def kGet (a : Agent) (n : Nat) : Word32 := sget 0 a.k n

/-- A predicate; p0 reads as true (R148). -/
def pGet (a : Agent) (n l : Nat) : Bool := n == 0 || sget false a.p (laneKey n l)

/-- One register effect applied: a full write clears the poison mark (R389), p0 discards (R148), the unused names of zr do not
occur. Hit bits and special registers of the team are applied by `applyWrite`. -/
def writeReg (a : Agent) : RegWrite → Agent
  | .v n l x => { a with v := sset 0 a.v (laneKey n l) x, vPoison := sset 0 a.vPoison (laneKey n l) 0 }
  | .s n x => { a with s := sset 0 a.s n x, sPoison := sset 0 a.sPoison n 0 }
  | .p n l x => if n = 0 then a else { a with p := sset false a.p (laneKey n l) x }
  | .k n x => { a with k := sset 0 a.k n x }
  | .fpstat f => { a with fpstat := a.fpstat ||| f }
  | .accsat => { a with accsat := true }
  | .vPoison n l sub => { a with vPoison := sset 0 a.vPoison (laneKey n l) (sub + 1) }
  | .sPoison n sub => { a with sPoison := sset 0 a.sPoison n (sub + 1) }
  | .hit _ | .special _ _ => a

/-- Lanes parked at a WAITJ whose mask has arrived or exited are released to their successor (R151, R312). -/
def releaseWaitj (a : Agent) (k : BitVec 3) : Agent :=
  let m := kGet a k.toNat
  let parked := (List.range 32).filter fun l => sget .ready a.lanes l == .waitj k
  let groups := parked.map fun l => sget a.entry a.lpc l
  let done := fun pc => (List.range 32).all fun l =>
    !bit m l || sget .ready a.lanes l == .exited || (sget .ready a.lanes l == .waitj k && sget a.entry a.lpc l == pc)
  let succ := fun (pc : Nat) => if pc % 64 < 48 then pc + 12 else pc + 16
  parked.foldl (fun b l =>
    let pc := sget a.entry a.lpc l
    if groups.contains pc && done pc then
      { b with lanes := sset .ready b.lanes l .ready, lpc := sset b.entry b.lpc l (succ pc) }
    else b) a

/-- A MOVRS write takes effect (R157 to R160): action codes of 3 leave that register's action, hit bits are cleared by ones. -/
def writeSpecial (s : State) (k : AgentKey) (n : Nat) (x : Word64) : State :=
  if n = 9 then
    updTeam s k.team fun t =>
      let act := (List.range 16).foldl (fun (w : Word64) i =>
        let c := fld x (33 + 2 * i) (32 + 2 * i)
        if c = 3 then w else setFld w (33 + 2 * i) (32 + 2 * i) c) t.bndflags
      { t with bndflags := act &&& ~~~(x &&& 0xFFFF#64) }
  else if n = 13 then updAgent s k fun a => { a with accsat := bit x 0 }
  else if n = 14 then updAgent s k fun a => { a with fpstat := BitVec.ofNat 5 (fld x 4 0) }
  else if n = 15 then updAgent s k fun a => { a with rmode := BitVec.ofNat 2 (fld x 1 0) }
  else if 16 ≤ n ∧ n ≤ 31 then updTeam s k.team fun t => { t with bnd := t.bnd.set (n - 16) x }
  else s

/-- One effect of a result applied to an agent and its team (R203, R264, R281, R158); a rejoin mask releases its lanes (R151). -/
def applyWrite (s : State) (k : AgentKey) (w : RegWrite) : State :=
  match w with
  | .hit m => updTeam s k.team fun t => { t with bndflags := t.bndflags ||| BitVec.ofNat 64 m.toNat }
  | .special n x => writeSpecial s k n x
  | .k n _ => updAgent s k fun a => releaseWaitj (writeReg a w) (BitVec.ofNat 3 n)
  | w => updAgent s k fun a => writeReg a w

/-- Effects of a result applied in order. -/
def applyWrites (s : State) (k : AgentKey) (ws : List RegWrite) : State := ws.foldl (fun s w => applyWrite s k w) s

/-- Whether an effect is a sticky flag that an instruction sets (R158, R160). -/
def isFlag : RegWrite → Bool
  | .fpstat _ => true
  | .hit _ => true
  | .accsat => true
  | .v _ _ _ => false
  | .s _ _ => false
  | .p _ _ _ => false
  | .k _ _ => false
  | .special _ _ => false
  | .vPoison _ _ _ => false
  | .sPoison _ _ => false

/-- The effects of an agent's fixed-latency results that are due by a cycle, in issue order (R203). -/
def dueWrites (s : State) (k : AgentKey) (cycle : Nat) : List RegWrite :=
  ((agentOf s k).map fun a => (a.pend.filter fun p => p.due ≤ cycle).flatMap (·.writes)).getD []

/-- Fixed-latency results of some agents that are due by a cycle take effect (R203): the flags after every other effect of the cycle, so
that a flag set in the cycle of a clearing write stays set, whichever agent set it (R158, R160). -/
def landAll (s : State) (ks : List AgentKey) (cycle : Nat) : State :=
  let due := ks.map fun k => (k, dueWrites s k cycle)
  let s := ks.foldl (fun s k => updAgent s k fun a => { a with pend := a.pend.filter fun p => cycle < p.due }) s
  let s := due.foldl (fun s e => applyWrites s e.1 (e.2.filter fun w => !isFlag w)) s
  due.foldl (fun s e => applyWrites s e.1 (e.2.filter isFlag)) s

/-- The same for one agent. -/
def landDue (s : State) (k : AgentKey) (cycle : Nat) : State := landAll s [k] cycle

/-! ### Lanes and issue -/

/-- Lanes of an agent: one for a ladle context (R96). -/
def laneIds (k : AgentKey) : List Nat := if isLadle k then [0] else List.range 32

def laneState (a : Agent) (l : Nat) : LaneState := sget .ready a.lanes l

def lpcOf (a : Agent) (l : Nat) : Nat := sget a.entry a.lpc l

/-- The sequential successor of a legal PC (R188). -/
def succPc (pc : Nat) : Nat := if pc % 64 < 48 then pc + 12 else pc + 16

/-- A legal PC (R152, R188). -/
def legalPc (pc : Nat) : Bool := pc % 64 % 12 == 0 && decide (pc % 64 ≤ 48)

/-- Candidate lanes (R345). -/
def candidates (a : Agent) : List Nat := (laneIds a.key).filter fun l => laneState a l == .ready

/-- The least PC of some lanes. -/
def minPc (a : Agent) (ls : List Nat) : Option Nat := (ls.map (lpcOf a)).min?

/-- The issue address of an agent (R345). -/
def issueAddress (a : Agent) : Option Nat :=
  let c := candidates a
  let starving := c.filter fun l => 512 ≤ sget 0 a.idle l
  let other := c.filter fun l => !bit a.yielded l
  if !starving.isEmpty then minPc a starving
  else if !other.isEmpty then minPc a other
  else minPc a c

/-- The lanes that execute at a PC (R345). -/
def executing (a : Agent) (pc : Nat) : List Nat := (candidates a).filter fun l => lpcOf a l == pc

/-- A guard's value in a lane (R194). -/
def guardOf (a : Agent) (h : Hdr) (l : Nat) : Bool := pGet a h.guard.toNat l ^^ h.neg

/-- A set of lanes as a mask. -/
def maskOf (ls : List Nat) : BitVec 32 := ls.foldl (fun m l => m ||| BitVec.ofNat 32 (2 ^ l)) 0

/-- An event with neither info2 nor an address. -/
def mkEvent (cause sub : Nat) (cri : BitVec 32) (pc : Nat) : Event := ⟨cause, sub, cri, pc, false, 0, 0⟩

/-- An instruction as it issues: the state in which its issue is entered, the state before, the agent with its registers, its team
and grid, its PC, the lanes that execute and those that are active (R217), and its issue number. -/
structure Iss where
  s : State
  s0 : State
  a : Agent
  t : Team
  g : Grid
  pc : Nat
  ex : List Nat
  act : List Nat
  n : Nat

/-- What an instruction does: it completes, it raises a precise event in place of itself, or it is not issued. -/
inductive Eff where
  | ok (s : State)
  | trap (s : State) (e : Event)
  | stay (s : State)

/-- The registers that an instruction reads as sources (R203, R389): every position but the destination, D too for MMA, MMAZ and
ACCLD's fragment; the fragments and lanes that an instruction reads by its own rules are left to it. -/
def sourceFields (i : Instr) : Fields :=
  match i with
  | .mma x | .mmaz x => [(x.d, posVpair), (x.b, posS), (x.c, posSor0)]
  | .xlane x | .bcast x | .readl x => [(x.b, posVS), (x.c, posSz)]
  | .invala _ => []
  | i => (fieldsOf i).drop 1

/-- The lane registers that a position reads. -/
def spanV (e : Opnd × Pos) : List Nat :=
  match e.1, e.2.v with
  | .v n, some (k, _) => if e.2.unused then [] else (List.range k).map (n.toNat + ·)
  | _, _ => []

/-- The uniform registers that a position reads. -/
def spanS (e : Opnd × Pos) : List Nat :=
  match e.1, e.2.s with
  | .s n, some (k, _) => (List.range k).map (n.toNat + ·)
  | _, _ => []

/-- Lanes that read poison through lane registers or uniform registers, with the subcode of the lowest (R389). -/
def poisonRead (a : Agent) (vs ss act : List Nat) : Option (Nat × List Nat) :=
  let sub := fun l => (vs.map fun n => sget 0 a.vPoison (laneKey n l)).find? (· != 0)
  let subS := (ss.map fun n => sget 0 a.sPoison n).find? (· != 0)
  let bad := act.filter fun l => subS.isSome || (sub l).isSome
  match bad with
  | [] => none
  | l :: _ => some (((sub l).getD (subS.getD 1)) - 1, bad)

/-- Consumed poison of an instruction's sources (R389). -/
def poisonEvent (a : Agent) (i : Instr) (act : List Nat) (pc : Nat) : Option Event :=
  let f := sourceFields i
  (poisonRead a (f.flatMap spanV) (f.flatMap spanS) act).map fun (sub, ls) => mkEvent 19 sub (maskOf ls) pc

/-! ### Fault records, unwinding and termination -/

/-- A notification vector raised to a function (R419). -/
def raiseVector (s : State) (function vector : Nat) : State := { s with outputs := s.outputs ++ [.msix function vector] }

/-- Vector 1 in every function of a domain (R419). -/
def notifyDomain (s : State) (d : Nat) : State :=
  (List.range 64).foldl (fun s f => if sget 0 s.funcDomain f = d then raiseVector s f 1 else s) s

/-- A fault record's fields (R391). -/
structure FaultRec where
  cause : Nat
  sub : Nat
  agent : Nat
  contained : Bool := false
  terminated : Bool := false
  deferred : Bool := false
  queue : Nat := 0
  domain : Nat := 0
  socket : Nat := 0
  unit : Nat := 0
  warp : Nat := 0
  gridid : Nat := 0
  teamid : Nat := 0
  pc : Nat := 0
  info : Nat := 0
  info2 : Nat := 0
  addr : Nat := 0
  opnum : Nat := 0
  tag : Nat := 0
  time : Nat := 0

/-- The 64 bytes of a record (R391). -/
def FaultRec.bytes (r : FaultRec) : List Byte :=
  leBytes 4 (r.cause + r.sub * 2 ^ 8 + r.agent * 2 ^ 16 + r.contained.toNat * 2 ^ 19 + r.terminated.toNat * 2 ^ 20
      + r.deferred.toNat * 2 ^ 21)
    ++ leBytes 4 (r.queue % 2 ^ 11 + r.domain * 2 ^ 11 + r.socket * 2 ^ 17 + r.unit * 2 ^ 22 + r.warp * 2 ^ 27)
    ++ leBytes 4 r.gridid ++ leBytes 4 r.teamid ++ leBytes 8 r.pc ++ leBytes 4 r.info ++ leBytes 4 r.info2
    ++ leBytes 8 r.addr ++ leBytes 8 r.opnum ++ leBytes 8 r.tag ++ leBytes 8 r.time

/-- Entries of a ring (R64). -/
def ringEntries (base : Word64) : Nat := 2 ^ (fld base 55 52 + 4)

/-- Bytes that a die of the package writes to device memory of its own accord, put among its writes, whose packets leave at the end of the
move (R64, R392, R403). DEDUCED, log entry 31. -/
def deviceWrite (s : State) (sock pa : Nat) (bs : List Byte) (g : DevGoal) : State :=
  { s with nextId := s.nextId + 1
           devWrites := s.devWrites ++ [⟨s.nextId, sock, g, cellsAt pa bs, (pa + bs.length - 1) / 128 + 1 - pa / 128, 0⟩] }

/-- The writes under way for one purpose, in order. -/
def writesFor (s : State) (g : DevGoal) : List DevWrite := s.devWrites.filter fun w => w.goal == g

/-- Whether a write of the package has completed at system scope: its packets have left and are answered, and package time on its die has passed
the completion time (R16, R78). -/
def DevWrite.over (s : State) (w : DevWrite) : Bool := w.cells.isEmpty && w.left == 0 && decide (w.time < timeAt s w.sock)

/-- A record written to a domain's log, whose tail follows once the write has completed: dropped with overflow when the log is not configured, the
ring is full, or the ring is not in device DRAM (R392); none is written once the service chiplet has failed (R399). DEDUCED, log entry 31. -/
def logRecord (s : State) (r : FaultRec) : State :=
  let b := Reg.fltbase r.domain
  let p := Reg.fltptr r.domain
  let tail := regFld s p 31 0 + (writesFor s (.log r.domain)).length
  let head := regFld s p 63 32
  let base := fld (regGet s b) 51 12 * 4096
  let n := ringEntries (regGet s b)
  let pa := base + 64 * (tail % n)
  if socketFailed s 31 then s
  else if !bit s.logConfigured r.domain || (tail + 2 ^ 32 - head) % 2 ^ 32 ≥ n || dramTop s < pa + 64 then regSetBit s b 63 true
  else deviceWrite s 31 pa r.bytes (.log r.domain)

/-- The records whose writes have completed at system scope: in their order tail advances, and the domain is notified (R392, R419).
DEDUCED, log entry 31. -/
def settleLogs (s : State) : State :=
  s.devWrites.foldl (fun s w =>
    match w.goal with
    | .log d =>
      if !w.over s || (writesFor s w.goal).head? != some w then s
      else
        let p := Reg.fltptr d
        notifyDomain (regSet { s with devWrites := s.devWrites.erase w } p 31 0 ((regFld s p 31 0 + 1) % 2 ^ 32)) d
    | _ => s) s

/-- Whether an event unwinds a warp that has a region open (R389). -/
def unwinds (cause : Nat) : Bool := decide (18 ≤ cause ∧ cause ≤ 24)

/-- The record of an event in an agent (R391). -/
def agentRecord (s : State) (a : Agent) (t : Team) (g : Grid) (e : Event) (contained terminated : Bool) : FaultRec where
  cause := e.cause
  sub := e.sub
  agent := if isLadle a.key then 1 else 0
  contained := contained
  terminated := terminated
  deferred := e.deferred
  queue := g.queue
  domain := g.domain
  socket := socketOf t.core
  unit := t.core % 32
  warp := if isLadle a.key then 0 else a.key.idx
  gridid := g.id
  teamid := t.teamid
  pc := e.pc
  info := e.cri.toNat
  info2 := e.info2.toNat
  addr := e.addr
  tag := g.launch.tag.toNat
  time := coreTime s t.core

/-- Whether a grid descends from another, itself included; `fuel` bounds the depth (R316: at most 10). -/
def descends (s : State) : Nat → Nat → Nat → Bool
  | 0, g, anc => g == anc
  | fuel + 1, g, anc =>
    g == anc || match gridOf s g with
      | some x => match x.parentGrid with
        | some p => descends s fuel p anc
        | none => false
      | none => false

/-- Whether lanes of an agent's entries are parked on a page (R58, R63): its reply is awaited. DEDUCED, log entry 39. -/
def pageParked (mine : List Entry) (vpn : Nat) : Bool :=
  mine.any fun e => e.groups.any fun g => g.vpn == vpn && (match g.st with | .parked _ => true | _ => false)

/-- The virtual page number VA[54:16] (R51). -/
def vpnOf (va : Nat) : Nat := va / 65536 % 2 ^ 39

/-- What is left of an agent's waiting-table entries when its outstanding work is discarded (R66, R394, R396). Instructions with results and
invalidations go; a posted instruction goes on but for the lanes whose page is parked. DEDUCED, log entry 39. -/
def abandonEntries (k : AgentKey) (es : List Entry) : List Entry :=
  let mine := es.filter fun e => e.owner == k
  -- a group that joined one under replay is parked too, though the page's own request is out again
  let parked := fun (e : Entry) (vpn : Nat) => pageParked mine vpn || e.groups.any fun g => g.vpn == vpn && g.st == .joined
  let kept := fun (e : Entry) =>
    { e with reqs := e.reqs.filter fun r => r.sent || !parked e (vpnOf r.va), groups := e.groups.filter fun g => !parked e g.vpn }
  es.filterMap fun e =>
    if e.owner != k then some e
    else match e.op with
      | .store | .red _ _ | .cwb => if (kept e).reqs.all (·.sent) then none else some (kept e)
      | _ => none

/-- Key of a path among an agent's completion times. -/
def pathKey (p : Path) : Nat := 2 * p.dst + p.planeB.toNat

/-- The agent that waits for what a reader reads. -/
def ReadGoal.owner : ReadGoal → Option AgentKey
  | .line a _ _ | .launch a _ _ _ _ _ _ | .live a _ _ => some a
  | _ => none

/-- What is left of a reader whose agent is unwound: a LAUNCH already numbered keeps its number and its child, without a result (R394).
DEDUCED, log entry 39. -/
def ReadGoal.detached : ReadGoal → Option ReadGoal
  | .launch k _ record tl n pc issue => some (.launch k .zr record tl n pc issue)
  | _ => none

/-- Outstanding work of an agent discarded at its core and at every bank where its lanes wait (R394). -/
def discardWork (s : State) (k : AgentKey) (core : Nat) : State :=
  let s := updCore s core fun c => { c with waiting := abandonEntries k c.waiting }
  { s with
    readers := s.readers.filterMap fun r => if r.goal.owner != some k then some r else r.goal.detached.map fun g => { r with goal := g }
    teams := s.teams.map fun t => { t with tagWaits := t.tagWaits.filter fun w => w.agent != k }
    reductions := s.reductions.map fun r =>
      { r with members := updWhere (fun m => m.agent == k) (fun m => { m with live := false }) r.members } }

/-- Occupied entries of an engine's queue. -/
def queued (s : State) (c e : Nat) : Nat := (engineOf s c e).queue.length

/-- A codebook slot's owner and entry size, as it stands. -/
def slotOf (s : State) (c e n : Nat) : Option Codebook := sget none (engineOf s c e).slots n

/-- CESTAT's queued and cb_valid follow the engine (R116). -/
def showEngine (s : State) (c e : Nat) : State :=
  let r := Reg.cestat c e
  let s := regSet s r 22 16 (queued s c e)
  (List.range 4).foldl (fun s n => regSetBit s r (28 + n) (slotOf s c e n).isSome) s

/-- The codebook slots that some teams have tagged are cleared (R109). -/
def clearSlots (s : State) (teams : List Nat) : State :=
  (List.range 96).foldl (fun s i =>
    let mine := (engineOf s (i / 8) (i % 8)).slots.filter fun e => match e.2 with | some b => teams.contains b.team | none => false
    if mine.isEmpty then s
    else showEngine (updEngine s (i / 8) (i % 8) fun g => { g with slots := mine.foldl (fun m e => serase m e.1) g.slots }) (i / 8) (i % 8)) s

/-- Whether a release beside its issuer goes on without it (R394, R396): one that ends a number of a timeline does. -/
def AdvOp.counts (o : AdvOp) : Bool := match o.goal with | .count _ _ => true | _ => false

/-- A grid and its descendants stop, their results discarded; copies, jobs and posted stores go on, the copies that waited for a swap too, which
does not come any more (R140, R396). DEDUCED, log entry 39. -/
def terminateGrid (s : State) (g : Nat) (cause : Nat) : State :=
  let gs := (s.grids.filter fun x => descends s 12 x.id g).map (·.id)
  let ts := s.teams.filter fun t => gs.contains t.grid
  let s := { s with
    grids := updWhere (fun x => gs.contains x.id)
      (fun x => { x with terminated := true, faulted := some (x.faulted.getD cause) }) s.grids,
    teams := updWhere (fun t => gs.contains t.grid) (fun t => { t with terminated := true }) s.teams }
  let s := s.agents.foldl (fun s a => match ts.find? fun t => t.uid == a.key.team with
    | some t => discardWork s a.key t.core
    | none => s) s
  let stop := fun (a : Agent) =>
    { a with ended := true, vars := [], deferred := [], pend := [], marker := false, hold := none, absent := [], adv := a.adv.filter (·.counts) }
  let free := fun (q : List CopyOp) => updWhere (fun c => ts.any fun t => t.uid == c.issuer.team) (fun c => { c with held := [] }) q
  clearSlots { s with
    readers := s.readers.filter fun r => !r.goal.owner.any fun k => ts.any fun t => t.uid == k.team
    engines := s.engines.map fun e => (e.1, { e.2 with queue := free e.2.queue })
    agents := updWhere (fun a => ts.any fun t => t.uid == a.key.team) stop s.agents } (ts.map (·.uid))

/-- The refill value of a word (R126, R128). -/
def presentWord (t : Team) (off : Nat) : Word32 :=
  BitVec.ofNat 32 (leNat ((List.range 4).map fun i => sget 0 t.present (off + i)))

/-- The region that wholly holds a range of step offsets (R119). -/
def regionAt (h : Header) (off n : Nat) : Option Region :=
  h.regions.find? fun r => decide (r.base ≤ off ∧ off + n ≤ r.base + r.size)

/-- The next-plane word that a completed STEP leaves before any write: the present word, or zero (R126). -/
def refillWord (t : Team) (r : Region) (off : Nat) : NextWord :=
  { value := if r.zero then 0 else presentWord t off, written := false, rank := 0, collided := false, overflowed := false
    hiRank := 0, loRank := 0, copied := false }

/-- A word of the next plane that nothing has written since the last boundary. -/
def nextInit : NextWord := ⟨0, false, 0, false, false, 0, 0, false⟩

/-- The warps of a step group, as the mask of a team (R131). -/
def groupMask (h : Header) (n : Nat) : BitVec 32 :=
  if n = 0 then BitVec.ofNat 32 (2 ^ warpCount h - 1) else (h.groupMasks[n - 1]?).getD 0

/-- The position of a warp among a group's warps (R129). -/
def warpPosition (m : BitVec 32) (w : Nat) : Nat := popCount (m.toNat % 2 ^ w) 32

/-- The rank of a thread in a group (R129). -/
def rankOf (t : Team) (n warp lane : Nat) : Nat :=
  let m := groupMask t.hdr n
  let inTeam := warpPosition m warp * 32 + lane
  if bit t.hdr.cohortGroups n then t.teamid * 32 * popCount m.toNat 32 + inTeam else inTeam

/-- The written next-plane word at an offset, or the refill value. -/
def nextWord (t : Team) (off : Nat) : NextWord := sget nextInit t.next off

/-- The group that a warp's team names by a number (R131). -/
def groupKey (t : Team) (n : Nat) : GroupKey := ⟨t.grid, if bit t.hdr.cohortGroups n then none else some t.uid, n⟩

/-- Whether a warp of a team is a member of a group (R131). -/
def isMember (t : Team) (n warp : Nat) : Bool := bit t.hdr.groups n && bit (groupMask t.hdr n) warp

/-- A warp's next-plane stores of the current step discarded from one team (R145): only a member of a region's group has any there. -/
def discardTeamRanks (t : Team) (src : Team) (warp : Nat) : Team :=
  let mine := fun (r : Region) (k : Nat) => isMember src r.group warp && (List.range 32).any fun l => rankOf src r.group warp l == k
  (t.next.map (·.1)).foldl (fun t off =>
    match t.hdr.regions.find? fun r => r.kind == .step && decide (r.base ≤ off ∧ off < r.base + r.size) with
    | none => t
    | some r =>
      if t.uid != src.uid && !bit t.hdr.cohortGroups r.group then t else
      let w := nextWord t off
      if w.copied && !w.written then t
      else if !w.collided then
        if w.written && mine r w.rank then { t with next := sset nextInit t.next off { nextInit with overflowed := w.overflowed } } else t
      else match r.rule with
        | .sum =>
          let keep := t.coll.filter fun c => !(c.word == off && mine r c.rank)
          let left := keep.filter fun c => c.word == off
          match left with
          | [] => { t with coll := keep, next := sset nextInit t.next off { nextInit with overflowed := w.overflowed } }
          | [c] => { t with coll := keep.filter (fun c => c.word != off)
                            next := sset nextInit t.next off { w with value := c.value, rank := c.rank, written := true, collided := false } }
          | _ => { t with coll := keep }
        | _ => t) t

/-- A warp's next-plane stores of the current step discarded everywhere in its grid (R145, R394). -/
def discardRanks (s : State) (src : Team) (warp : Nat) : State :=
  { s with teams := updWhere (fun t => t.grid == src.grid) (fun t => discardTeamRanks t src warp) s.teams }

/-- An arrival at the step of a team's group is withdrawn: that step is open again, so no copy waits for its swap and none of its messages stands
on the whisk tree (R140, R394). -/
def reopenStep (s : State) (t : Team) (n : Nat) : State :=
  let g := groupKey t n
  let mine := fun (u : Nat) => s.teams.any fun x => x.uid == u && x.grid == g.grid && (g.team.isNone || u == t.uid)
  { s with
    whisk := s.whisk.filter fun w => !(w.isStep && w.group == g)
    engines := s.engines.map fun e =>
      (e.1, { e.2 with queue := updWhere (fun c => mine c.issuer.team) (fun c => { c with held := c.held.filter (· != n) }) e.2.queue }) }

/-- The groups at whose STEP lanes of an agent stand. -/
def stepsAt (a : Agent) : List Nat :=
  ((laneIds a.key).filterMap fun l => match laneState a l with | .atStep n => some n | _ => none).dedup

/-- An agent's arrival withdrawn, and that of which only the markers are out (R394). -/
def withdrawArrival (s : State) (a : Agent) (t : Team) : State :=
  if a.stepArrived || a.stepSent.isSome then (stepsAt a).foldl (fun s n => reopenStep s t n) s else s

/-- Whether a line of a fetch buffer holds a fetch that failed, which a later fetch of the line asks for again (R70). -/
def FetchLine.failed (l : FetchLine) : Bool := match l.st with | .xlatFault _ | .lost => true | _ => false

/-- Paths recorded again beside others (R394). -/
def recordAgain (ps more : List Path) : List Path := ps ++ more.filter fun p => !ps.contains p

/-- The fences of an agent in progress: one that holds it, and the markers of its arrival. -/
def fencesHeld (a : Agent) : List Fence := (match a.hold with | some (.fence f) => [f] | _ => []) ++ a.stepSent.toList

/-- A containment unwind (R318, R394). -/
def unwind (s : State) (a : Agent) (t : Team) (e : Event) : State :=
  match a.regions with
  | [] => s
  | handler :: rest =>
    let s := discardWork s a.key t.core
    let s := if isLadle a.key then s else discardRanks s t a.key.idx
    let s := withdrawArrival s a t
    updAgent s a.key fun a =>
      let live := (laneIds a.key).filter fun l => laneState a l != .exited
      { a with
        regions := rest
        lpc := live.foldl (fun m l => sset a.entry m l handler) a.lpc
        lanes := live.foldl (fun m l => sset .ready m l .ready) a.lanes
        crcause := BitVec.ofNat 32 (e.cause + e.sub * 2 ^ 16 + rest.length * 2 ^ 24 + e.deferred.toNat * 2 ^ 31)
        cri := e.cri
        crpc := BitVec.ofNat 64 e.pc
        issueCount := 0
        idle := []
        vars := []
        deferred := []
        marker := false
        markerAcq := none
        hold := none
        addrTable := []
        latch := none
        paths := recordAgain a.paths ((fencesHeld a).flatMap (·.paths))
        xpaths := recordAgain a.xpaths ((fencesHeld a).flatMap (·.xpaths))
        absent := []
        adv := a.adv.filter (fun o => match o.goal with | .tagged .. => false | _ => true)
        early := []
        fetchBuf := a.fetchBuf.filter fun l => !l.failed
        yielded := 0
        needLine := none
        stepFences := 0
        debugPass := []
        stepArrived := false
        stepSent := none }

/-- The deferred events that an unwind or a termination discards are logged when the domain logs contained events (R388, R392).
DEDUCED, log entry 39. -/
def logDiscarded (s : State) (a : Agent) (t : Team) (g : Grid) (ds : List Deferred) : State :=
  if bit (regGet s (.fltbase g.domain)) 62 then
    ds.foldl (fun s d => logRecord s (agentRecord s a t g d.ev false false)) s
  else s

/-- An event taken by an agent: unwound inside a region, terminated otherwise, with its record (R389, R392, R394, R396). DEDUCED, log entry 39. -/
def raise (s : State) (k : AgentKey) (e : Event) (taken : List Deferred := []) : State :=
  match agentOf s k, teamOf s k.team with
  | some a, some t =>
    match gridOf s t.grid with
    | some g =>
      let others := a.deferred.filter fun d => !taken.contains d
      if unwinds e.cause && !a.regions.isEmpty then
        let s := if bit (regGet s (.fltbase g.domain)) 62 then logRecord s (agentRecord s a t g e true false) else s
        unwind (logDiscarded s a t g others) a t e
      else
        let s := logRecord s (agentRecord s a t g e false true)
        terminateGrid (logDiscarded s a t g others) g.id e.cause
    | none => s
  | _, _ => s

/-- Order of delivery of deferred events (R388). -/
def deferredLe (x y : Deferred) : Bool := decide (x.issue < y.issue ∨ (x.issue = y.issue ∧ x.lane ≤ y.lane))

/-- The deferred event that falls due first (R388). -/
def firstDeferred : List Deferred → Option Deferred
  | [] => none
  | d :: r => match firstDeferred r with
    | none => some d
    | some e => some (if deferredLe d e then d else e)

/-- Lanes of one instruction that deferred the same event are named together: the cause and subcode of the first (R388, R389). -/
def mergeDeferred (ds : List Deferred) (d : Deferred) : Event :=
  let same := ds.filter fun x => x.issue == d.issue && x.ev.cause == d.ev.cause && x.ev.sub == d.ev.sub
  { d.ev with cri := same.foldl (fun m x => m ||| x.ev.cri) d.ev.cri, deferred := true }

/-- The first of an agent's deferred events that some test admits, raised; none when nothing is due (R387, R388). -/
def deliverOf (s : State) (k : AgentKey) (due : Deferred → Bool) : Option State :=
  match agentOf s k with
  | none => none
  | some a => (firstDeferred (a.deferred.filter due)).map fun d =>
    raise s k (mergeDeferred a.deferred d) (a.deferred.filter fun x => x.issue == d.issue && x.ev.cause == d.ev.cause && x.ev.sub == d.ev.sub)

/-- Deferred events of an agent raised at a switch marker (R387). -/
def deliver (s : State) (k : AgentKey) : Option State := deliverOf s k fun _ => true

/-- An event deferred by an instruction of an agent, in some lanes (R387). -/
def deferEvent (s : State) (k : AgentKey) (issue lane : Nat) (e : Event) : State :=
  updAgent s k fun a => if a.ended then a else { a with deferred := a.deferred ++ [⟨issue, lane, e, false⟩] }

/-- An error report of a posted access of an agent (R134, R218). -/
def deferReport (s : State) (k : AgentKey) (issue lane : Nat) (e : Event) : State :=
  updAgent s k fun a => if a.ended then a else { a with deferred := a.deferred ++ [⟨issue, lane, e, true⟩] }

/-! ### Issue -/

/-- The bookkeeping of an issue: executing lanes move to the successor, idle, issue and wait counts, the watchdog count, GAP, GW, SW (R203,
R205, R315, R346, R351, R353, R405). -/
def book (a : Agent) (h : Hdr) (pc : Nat) (ex : List Nat) (cycle : Nat) : Agent :=
  let cands := candidates a
  { a with
    lpc := ex.foldl (fun m l => sset a.entry m l (succPc pc)) a.lpc
    idle := if isLadle a.key then [] else
      cands.foldl (fun m l => sset 0 m l (if ex.contains l then 0 else sget 0 a.idle l + 1)) a.idle
    yielded := 0
    issueCount := a.issueCount + 1
    issues := a.issues + 1
    nextIssue := cycle + 1 + h.gap.toNat
    lastIssue := cycle + 1
    waitCount := 0
    gaveWay := h.gw && !isLadle a.key
    hold := if a.hold == some .lacking then none else a.hold
    early := []
    stuck := 0
    marker := a.marker || h.sw }

/-- What comes of an agent's turn before the instruction's own effect (R194, R200, R315, R345, R388, R389): there is no issuer, an event is
raised in place of the instruction, or the instruction goes on with its context. -/
inductive Turn where
  | idle
  | event (s : State) (k : AgentKey) (e : Event)
  | goes (c : Iss)

/-- The turn of an agent that is to issue an instruction with a header: the overrun comes first, then the encoding, then the consumed
poison. DEDUCED, log entry 28. DESIGN CHOICE, log entry 44. -/
def turnOf (i : Instr) (h : Hdr) (s : State) : Turn :=
  match s.turn with
  | none => .idle
  | some k =>
    let s := { s with turn := none }
    match agentOf s k, teamOf s k.team with
    | some a, some t =>
      match gridOf s t.grid, issueAddress a with
      | some g, some pc =>
        let ex := executing a pc
        if 256 ≤ a.issueCount then .event s k (mkEvent 15 0 (maskOf ex) pc)
        else if !issueLegal i t.hdr.version t.hdr.vregs t.hdr.sregs (isLadle k) then .event s k (mkEvent 1 0 (maskOf ex) pc)
        else
          let act := ex.filter (guardOf a h)
          match poisonEvent a i act pc with
          | some e => .event s k e
          | none =>
            let a' := book a h pc ex (cycleOf s t.core)
            .goes { s := updAgent s k fun _ => a', s0 := s, a := a', t := t, g := g, pc := pc, ex := ex, act := act, n := a.issues }
      | _, _ => .idle
    | _, _ => .idle

/-- The end of an instruction's own effect. -/
def Eff.result (k : AgentKey) : Eff → Result
  | .ok s => .next s
  | .trap s e => .next (raise s k e)
  | .stay s => .next s

/-- One issue of the agent that has the turn, with the instruction's own effect `f`. DESIGN CHOICE, log entry 44. -/
def issue (i : Instr) (h : Hdr) (s : State) (f : Iss → Eff) : Result :=
  match turnOf i h s with
  | .idle => .refused .noIssuer
  | .event s k e => .next (raise s k e)
  | .goes c => (f c).result c.a.key

/-- A precise event of the issuing instruction that leaves nothing else changed. -/
def Iss.fault (c : Iss) (cause sub : Nat) (cri : BitVec 32) : Eff := .trap c.s0 (mkEvent cause sub cri c.pc)

/-- The same with the address that the record names. -/
def Iss.faultAt (c : Iss) (cause sub : Nat) (cri : BitVec 32) (addr : Nat) : Eff :=
  .trap c.s0 { mkEvent cause sub cri c.pc with addr := addr }

/-- Illegal instruction (R200). -/
def Iss.illegal (c : Iss) : Eff := c.fault 1 0 (maskOf c.ex)

/-- The state with the issuing agent updated. -/
def Iss.upd (c : Iss) (f : Agent → Agent) : State := updAgent c.s c.a.key f

/-- A result that later issues read after `lat` cycles (R203). -/
def Iss.pend (c : Iss) (lat : Nat) (ws : List RegWrite) : State :=
  if ws.isEmpty then c.s
  else updAgent c.s c.a.key fun a => { a with pend := a.pend ++ [⟨cycleOf c.s c.t.core + lat, ws⟩] }

/-- A variable-latency result put among those that an agent awaits (R204). -/
def addResult (s : State) (k : AgentKey) (r : VarResult) : State :=
  updAgent s k fun a => if a.ended then a else { a with vars := a.vars ++ [r] }

/-- A local variable-latency result, with the event that comes with it (R204). -/
def addVar (s : State) (k : AgentKey) (n : Nat) (ws : List RegWrite) (ev : Option Deferred) : State :=
  addResult s k { issue := n, writes := ws, event := ev }

/-- The value that a load or an atomic returns (R77, R204). -/
def addLoad (s : State) (k : AgentKey) (n : Nat) (ws : List RegWrite) : State :=
  addResult s k { issue := n, writes := ws, event := none, mem := true }

/-- The instruction is not issued: it lacks a waiting-table entry, FP64 lanes or a slot of a queue (R40, R275, R301, R351). -/
def Iss.later (c : Iss) : Eff := .stay (updAgent c.s0 c.a.key fun a => { a with hold := some .lacking })

/-- Whether a binary64 operation needs its quadrant's FP64 lanes: a warp's with an active lane does (R275). -/
def Iss.needsDp (c : Iss) : Bool := !isLadle c.a.key && !c.act.isEmpty

/-- Whether a binary64 operation finds the FP64 lanes free, or needs none (R275). -/
def Iss.dpFree (c : Iss) : Bool :=
  !c.needsDp || decide (sget 0 (coreOf c.s c.t.core).dpBusy (c.a.slot / 16) ≤ cycleOf c.s c.t.core)

/-- The quadrant's FP64 lanes taken for 16 cycles (R275). -/
def Iss.dpTaken (c : Iss) : Iss :=
  if c.needsDp then
    { c with s := updCore c.s c.t.core fun k => { k with dpBusy := sset 0 k.dpBusy (c.a.slot / 16) (cycleOf c.s c.t.core + 16) } }
  else c

/-- A binary64 operation waits until the FP64 lanes are free (R275). -/
def Iss.onDp (c : Iss) (f : Iss → Eff) : Eff := if c.dpFree then f c.dpTaken else c.later

end Sys2Proof.Machine
end

