-- ==== Sys2Proof/Machine/Operands.lean ====
section
/-! DEFINITION. Operand forms: register, constant and immediate sources, destinations, uniform evaluation, addresses
(R148, R149, R151, R196, R206, R216, R242, R243, R263). -/

namespace Sys2Proof.Machine

/-- A number of `w` bits read as signed (R244). -/
def toS (w n : Nat) : Int := if n < 2 ^ (w - 1) then (n : Int) else (n : Int) - (2 ^ w : Nat)

/-- An integer taken modulo 2^w (R244). -/
def ofI (w : Nat) (x : Int) : Nat := (x % ((2 ^ w : Nat) : Int)).toNat

/-- The low `w` bits of a number, sign-extended from bit `k - 1`. -/
def sext (k w n : Nat) : Nat := ofI w (toS k (n % 2 ^ k))

/-- A 32-bit source operand in a lane (R149, R151). amask is the mask of executing lanes; the ladle's constants are R206's. -/
def val32 (a : Agent) (ex : List Nat) (o : Opnd) (l : Nat) : Nat :=
  match o with
  | .v n => (vGet a n.toNat l).toNat
  | .s n => (sGet a n.toNat).toNat % 2 ^ 32
  | .p n => (pGet a n.toNat l).toNat
  | .k n => (kGet a n.toNat).toNat
  | .lid => if isLadle a.key then 0 else l
  | .ones => 0xFFFFFFFF
  | .sgn => 0x80000000
  | .fone => 0x3F800000
  | .amask => if isLadle a.key then 1 else (maskOf ex).toNat
  | .rsvd _ => 0
  | .zr => 0

/-- A 64-bit source operand (R148, R149): a lane pair, even register low, or an s-register. -/
def val64 (a : Agent) (o : Opnd) (l : Nat) : Nat :=
  match o with
  | .v n => (vGet a n.toNat l).toNat + (vGet a (n.toNat + 1) l).toNat * 2 ^ 32
  | .s n => (sGet a n.toNat).toNat
  | _ => 0

/-- A 128-bit source operand (R216, R242): four lane registers or an s-pair. -/
def val128 (a : Agent) (o : Opnd) (l : Nat) : Nat :=
  match o with
  | .v n => val64 a (.v n) l + ((vGet a (n.toNat + 2) l).toNat + (vGet a (n.toNat + 3) l).toNat * 2 ^ 32) * 2 ^ 64
  | .s n => (sGet a n.toNat).toNat + (sGet a (n.toNat + 1)).toNat * 2 ^ 64
  | _ => 0

/-- A source operand of width 32, 64 or 128. -/
def Iss.val (c : Iss) (w : Nat) (o : Opnd) (l : Nat) : Nat :=
  if w = 32 then val32 c.a c.ex o l else if w = 64 then val64 c.a o l else val128 c.a o l

/-- Operand B: the register, or IMM sign-extended to the position's width (R196). -/
def Iss.valB (c : Iss) (w : Nat) (x : F3) (l : Nat) : Nat :=
  if immb x then sext 32 w x.imm.toNat else c.val w x.b l

/-- A predicate source; zr reads as false (R250). -/
def Iss.pred (c : Iss) (o : Opnd) (l : Nat) : Bool :=
  match o with
  | .p n => pGet c.a n.toNat l
  | _ => false

/-- The register effects of a result of `w` bits in a lane (R148, R149, R151). -/
def regWrites (w : Nat) (d : Opnd) (l x : Nat) : List RegWrite :=
  match d with
  | .v n =>
    if w = 32 then [.v n.toNat l (BitVec.ofNat 32 x)]
    else (List.range (w / 32)).map fun i => .v (n.toNat + i) l (BitVec.ofNat 32 (x / 2 ^ (32 * i)))
  | .s n =>
    if w = 32 then [.s n.toNat (BitVec.ofNat 64 (x % 2 ^ 32))]
    else (List.range (w / 64)).map fun i => .s (n.toNat + i) (BitVec.ofNat 64 (x / 2 ^ (64 * i)))
  | .k n => [.k n.toNat (BitVec.ofNat 32 x)]
  | _ => []

/-- Marks of poison on the registers of a result (R389). -/
def poisonMarks (w : Nat) (d : Opnd) (l sub : Nat) : List RegWrite :=
  match d with
  | .v n => (List.range (max 1 (w / 32))).map fun i => .vPoison (n.toNat + i) l sub
  | .s n => (List.range (max 1 (w / 64))).map fun i => .sPoison (n.toNat + i) sub
  | _ => []

/-- Whether an instruction is evaluated once per issue: no lane register among its operands (R148, R199, R243). Reading lid makes
it lane-wise unless the destination is uniform (DEDUCED, log entry 12). -/
def uniformInstr (i : Instr) (d : Opnd) : Bool :=
  let ops := ((fieldsOf i).filter fun e => !(e.2.unused && e.1 == .v 0)).map (·.1)
  isS d || isK d || (!ops.any isV && !ops.contains .lid)

/-- Lanes in which an instruction is evaluated: the lowest active lane once for a uniform one (R194, R243). DEDUCED, log entry 12. -/
def Iss.evalLanes (c : Iss) (i : Instr) (d : Opnd) : List Nat := if uniformInstr i d then c.act.take 1 else c.act

/-- The flags of some lanes ORed into %fpstat with the result (R264). -/
def fpWrites (fs : List FFlags) : List RegWrite :=
  let f := fs.foldl (· ||| ·) 0
  if f = 0 then [] else [.fpstat f]

/-- A result of `w` bits in each lane where the instruction is evaluated, read after `lat` cycles, with its flags. -/
def Iss.aluF (c : Iss) (i : Instr) (d : Opnd) (w lat : Nat) (f : Nat → Nat × FFlags) : Eff :=
  let rs := (c.evalLanes i d).map fun l => (l, f l)
  .ok (c.pend lat (rs.flatMap (fun r => regWrites w d r.1 r.2.1) ++ fpWrites (rs.map (·.2.2))))

/-- The same without flags. -/
def Iss.alu (c : Iss) (i : Instr) (d : Opnd) (w lat : Nat) (f : Nat → Nat) : Eff :=
  .ok (c.pend lat ((c.evalLanes i d).flatMap fun l => regWrites w d l (f l)))

/-- A predicate result: in each lane, or one value in every active lane for an instruction that its destination `u` and its operands make
uniform (R243, R246). DEDUCED, log entry 12. -/
def Iss.predWrites (c : Iss) (i : Instr) (u d : Opnd) (f : Nat → Bool) : List RegWrite :=
  match d with
  | .p n =>
    if uniformInstr i u then
      match c.act with
      | [] => []
      | l :: _ => c.act.map fun m => .p n.toNat m (f l)
    else c.act.map fun l => .p n.toNat l (f l)
  | _ => []

/-- A predicate result after `lat` cycles with the flags of the lanes evaluated. -/
def Iss.aluP (c : Iss) (i : Instr) (d : Opnd) (lat : Nat) (f : Nat → Bool × FFlags) : Eff :=
  .ok (c.pend lat (c.predWrites i d d (fun l => (f l).1) ++ fpWrites ((c.evalLanes i d).map fun l => (f l).2)))

/-- The width of .w64 at MOD[1]. -/
def widthOf (h : Hdr) : Nat := if w64of h then 64 else 32

/-- The effective address of an FM body in a lane (R196). -/
def Iss.ea (c : Iss) (x : FM) (size l : Nat) : Nat :=
  let base := val64 c.a x.base l
  let index := match x.index with
    | .v n => toS 32 (vGet c.a n.toNat l).toNat
    | .s n => ((sGet c.a n.toNat).toNat : Int)
    | _ => 0
  ofI 64 ((base : Int) + index * size + toS 32 x.offset.toNat)

/-- Whether a memory instruction makes one access per issue: no lane register among address, data and destination (R216). -/
def uniformFM (x : FM) (data : List Opnd) : Bool := !(x.base :: x.index :: data).any isV

/-- The lanes that access memory (R216, R217). The one access of a uniform instruction is the lowest active lane's, whose rank a uniform STS or STX in
a STEP region stores under (R127; DEDUCED, log entry 40). -/
def Iss.memLanes (c : Iss) (x : FM) (data : List Opnd) : List Nat := if uniformFM x data then c.act.take 1 else c.act

/-- Data of `n` bytes from a register position (R216). -/
def Iss.data (c : Iss) (n : Nat) (o : Opnd) (l : Nat) : Nat :=
  if n = 16 then val128 c.a o l else if n = 8 then val64 c.a o l else val32 c.a c.ex o l % 2 ^ (8 * n)

/-- A loaded value of `n` bytes as its register result: its width in bits and the value, extended (R216). -/
def loadResult (n : Nat) (signExt : Bool) (x : Nat) : Nat × Nat :=
  if n = 16 then (128, x) else if n = 8 then (64, x)
  else (32, if signExt then sext (8 * n) 32 x else x % 2 ^ (8 * n))

/-- Whether a size code sign-extends: .i8 and .i16 (R197). -/
def signedSize (h : Hdr) : Bool := fld h.mod 2 0 == 1 || fld h.mod 2 0 == 3

/-- Bytes of the size field. -/
def sizeOf (h : Hdr) : Nat := sizeBytes (fld h.mod 2 0)

end Sys2Proof.Machine
end

