-- ==== Sys2Proof/Machine/Special.lean ====
section
/-! DEFINITION. The special functions and activations (R272, R273, R297): a free value kept within the stated bound.
A reference value is worked out in fixed point to far more bits than the bound needs; the value that Config.specialValue proposes is
taken when it lies within the bound of the reference, and the nearest value of the reference otherwise (DESIGN CHOICE, log entry 4). -/

namespace Sys2Proof.Machine

/-- Fraction bits of the fixed-point references. -/
def fxBits : Nat := 100

/-- One in fixed point. -/
def fxOne : Nat := 2 ^ fxBits

/-- floor(ln 2 * 2^100). -/
def fxLn2 : Nat := 878668439483319573618263538048

/-- floor(log2 e * 2^160). -/
def fxLog2e160 : Nat := 2108501164428393954197770173035669514763056903505

/-- floor(2/pi * 2^320). -/
def fxTwoOverPi320 : Nat := 1359811580588074570142559197398069198769296258184023578860945716795750546175199547322122783019744

/-- floor(pi/2 * 2^100). -/
def fxHalfPi : Nat := 1991220906497848681844175556976

/-- floor(2 * sqrt(2/pi) * 2^100). -/
def fxGelu : Nat := 2022877684829178931751713263627

/-- m * 2^e in units of 2^-s, rounded down. -/
def scaleDown (m : Nat) (e : Int) (s : Nat) : Nat :=
  let k := e + s
  if 0 ≤ k then m * 2 ^ k.toNat else m / 2 ^ (-k).toNat

/-- Terms k, k+1, ... of the series of exp(y), from the term before. -/
def expSum (y : Nat) : Nat → Nat → Nat → Nat
  | 0, _, _ => 0
  | n + 1, k, term => let t := term * y / fxOne / k; t + expSum y n (k + 1) t

/-- exp(y) for y in [0, 1). -/
def fxExp (y : Nat) : Nat := fxOne + expSum y 32 1 fxOne

/-- 2^y for a signed fixed-point y: a multiplier in [1, 2) and an exponent. -/
def fxExp2 (y : Int) : Nat × Int :=
  let n := y / (fxOne : Int)
  let f := (y % (fxOne : Int)).toNat
  (fxExp (f * fxLn2 / fxOne), n)

/-- Terms of the alternating series of sin and cos: `k` is the last factorial index used. -/
def trigSum (y2 : Nat) : Nat → Nat → Nat → Int
  | 0, _, term => term
  | n + 1, k, term => (term : Int) - trigSum y2 n (k + 2) (term * y2 / fxOne / ((k + 1) * (k + 2)))

/-- sin and cos of an angle in [0, pi/2). -/
def fxSin (y : Nat) : Int := trigSum (y * y / fxOne) 20 1 y
def fxCos (y : Nat) : Int := trigSum (y * y / fxOne) 20 0 fxOne

/-- Bits of log2 of x in [1, 2) by repeated squaring. -/
def log2Bits : Nat → Nat → Nat → Nat
  | 0, _, acc => acc
  | n + 1, x, acc =>
    let y := x * x / fxOne
    if 2 * fxOne ≤ y then log2Bits n (y / 2) (2 * acc + 1) else log2Bits n y (2 * acc)

/-- A signed fixed-point number as a value. -/
def fxVal (x : Int) : FVal := .fin (decide (x < 0)) x.natAbs (-(fxBits : Int))

/-- Magnitude of a difference. -/
def absDiff (x y : FVal) : FVal :=
  match (FVal.add false x y.neg).1 with
  | .fin _ m e => .fin false m e
  | v => v

/-- The spacing of binary32 at a reference value, in units of 2^-16. -/
def ulpExp : FVal → Int
  | .fin _ m e => if m = 0 then f32.qmin else max (leadExp m e - 23) f32.qmin
  | _ => f32.qmin

/-- The bound of `n` ulps at a reference, less the slack of the reference (2^-16 of the bound). DESIGN CHOICE, log entry 4. -/
def ulpBound (n : Nat) (ref : FVal) : FVal := .fin false (n * 65535) (ulpExp ref - 16)

/-- The absolute bound 2^-k, less the slack of the reference. DESIGN CHOICE, log entry 4. -/
def absBound (k : Nat) : FVal := .fin false 65535 (-(k : Int) - 16)

/-- A result code and its flags: a result that is not exact sets inexact, and underflow when it is tiny (R272). -/
def inexactResult (c : Nat) : Nat × FFlags :=
  (c, fInexact ||| (if c % 2 ^ 31 < 2 ^ 23 then fUnderflow else 0))

/-- The proposed code when it is a number within the bound that passes `ok`, else the nearest code of the reference (R273).
DESIGN CHOICE, log entry 4. -/
def withinBound (prop : BitVec 32) (ref bound : FVal) (ok : FVal → Bool) : Nat × FFlags :=
  let v := decodeF f32 prop.toNat
  let accept := match v with
    | .fin .. => !FVal.lt bound (absDiff v ref) && ok v
    | _ => false
  inexactResult (if accept then prop.toNat else (toFloat f32 .rne false ref).1)

/-- No further condition. -/
def anyValue (_ : FVal) : Bool := true

/-- The special functions of one operand. -/
inductive SFun where
  | rcp | rsq | sqrt (mode : Rnd) | exp2 | log2 | sin | cos | tanh | gelu | silu
  deriving DecidableEq, Repr

/-- The number of a function for Config.specialValue: its opcode, or 0 and 1 for the activations. -/
def SFun.code : SFun → Nat
  | .rcp => 0x70 | .rsq => 0x71 | .sqrt _ => 0x72 | .exp2 => 0x73 | .log2 => 0x74
  | .sin => 0x75 | .cos => 0x76 | .tanh => 0x77 | .gelu => 0 | .silu => 1

/-- A power of two: its exponent. -/
def isPow2 (m : Nat) (e : Int) : Option Int := if m ≠ 0 ∧ 2 ^ Nat.log2 m = m then some (leadExp m e) else none

/-- 1/x for finite nonzero x: one of the two neighbours (R272). -/
def rcpResult (prop : BitVec 32) (s : Bool) (m : Nat) (e : Int) : Nat × FFlags :=
  let q := 2 ^ 400 / m
  let v : FVal := if q * m = 2 ^ 400 then .fin s q (-400 - e) else .fin s (2 * q + 1) (-401 - e)
  let lo := toFloat f32 .rz false v
  let hi := toFloat f32 (if s then .rd else .ru) false v
  (if prop.toNat = hi.1 then hi.1 else lo.1, if lo.1 = hi.1 then lo.2 else lo.2 ||| hi.2)

/-- 1/sqrt(x) for finite positive x (R272). -/
def rsqResult (prop : BitVec 32) (m : Nat) (e : Int) : Nat × FFlags :=
  let e' := e % 2
  let n := m * 2 ^ e'.toNat
  let r := isqrt (2 ^ 400 / n) 200 0
  let ref : FVal := .fin false r (-200 - (e - e') / 2)
  match isPow2 m e with
  | some k => if k % 2 = 0 then ((toFloat f32 .rne false (.fin false 1 (-(k / 2)))).1, 0)
      else withinBound prop ref (ulpBound 2 ref) anyValue
  | none => withinBound prop ref (ulpBound 2 ref) anyValue

/-- 2^x for finite x (R272). -/
def exp2Result (prop : BitVec 32) (s : Bool) (m : Nat) (e : Int) : Nat × FFlags :=
  if leadExp m e > 10 then
    if s then
      let ref : FVal := .fin false 1 (-400)
      withinBound prop ref (ulpBound 2 ref) anyValue
    else (f32.infCode, fOverflow ||| fInexact)
  else
    let y := sInt s (scaleDown m e fxBits)
    let y := if s && decide ((scaleDown m e fxBits : Int) = 0) then -1 else y
    let (k, n) := fxExp2 y
    if 128 ≤ n then (f32.infCode, fOverflow ||| fInexact)
    else if y % (fxOne : Int) = 0 ∧ -149 ≤ n ∧ (0 ≤ e ∨ m % 2 ^ (-e).toNat = 0) then ((toFloat f32 .rne false (.fin false 1 n)).1, 0)
    else
      let ref : FVal := .fin false k (n - fxBits)
      withinBound prop ref (ulpBound 2 ref) anyValue

/-- log2 x for finite positive x (R272). -/
def log2Result (prop : BitVec 32) (m : Nat) (e : Int) : Nat × FFlags :=
  match isPow2 m e with
  | some k => ((toFloat f32 .rne false (ofInt k)).1, 0)
  | none =>
    let lg := leadExp m e
    let x := m * 2 ^ fxBits / 2 ^ Nat.log2 m
    let ref : FVal := (FVal.add false (ofInt lg) (.fin false (log2Bits 80 x 0) (-80))).1
    withinBound prop ref (if lg = 0 ∨ lg = -1 then absBound 22 else ulpBound 2 ref) anyValue

/-- The quadrant and the angle in it of |x|, reduced exactly (R272). -/
def reduceAngle (m : Nat) (e : Int) : Nat × Nat :=
  let t := scaleDown (m * fxTwoOverPi320) (e - 320) fxBits
  (t / fxOne % 4, t % fxOne * fxHalfPi / fxOne)

/-- sin of a positive value. -/
def sinRef (m : Nat) (e : Int) : Int :=
  let (q, y) := reduceAngle m e
  match q with
  | 0 => fxSin y
  | 1 => fxCos y
  | 2 => -fxSin y
  | _ => -fxCos y

/-- cos of a positive value. -/
def cosRef (m : Nat) (e : Int) : Int :=
  let (q, y) := reduceAngle m e
  match q with
  | 0 => fxCos y
  | 1 => -fxSin y
  | 2 => -fxCos y
  | _ => fxSin y

/-- |x| * k for a constant k in units of 2^-160, in fixed point, |x| below 2^12. -/
def fxTimes160 (m : Nat) (e : Int) (k : Nat) : Nat := scaleDown (m * k) (e - 160) fxBits

/-- tanh x for finite nonzero x (R272). -/
def tanhResult (prop : BitVec 32) (s : Bool) (m : Nat) (e : Int) : Nat × FFlags :=
  let ref : FVal :=
    if leadExp m e < -30 then .fin s m e
    else if leadExp m e > 5 then .fin s (2 ^ 100 - 1) (-100)
    else
      let (k, n) := fxExp2 (fxTimes160 m (e + 1) fxLog2e160)
      let E := k * 2 ^ n.toNat
      .fin s ((E - fxOne) * 2 ^ 150 / (E + fxOne)) (-150)
  withinBound prop ref (ulpBound 2 ref) fun v => !FVal.lt (.fin false 1 0) (absDiff v (.zero false))

/-- x / (1 + 2^-y) for a signed fixed-point y, the sign of x and y alike. -/
def sigmoidTimes (s : Bool) (m : Nat) (e : Int) (y : Nat) : FVal :=
  let (k, n) := fxExp2 y
  -- E = 2^|y| = k * 2^n / 2^100; for s clear the factor is E / (E + 1), for s set 1 / (E + 1)
  let E := k * 2 ^ n.toNat
  let num := (if s then fxOne else E) * 2 ^ 200
  .fin s (m * (num / (E + fxOne))) (e - 200)

/-- The bound of the activations: 2 ulp, or 2^-24 where the exact value lies below 2^-20 in magnitude (R297). -/
def actBound (ref : FVal) : FVal :=
  if FVal.lt (absDiff ref (.zero false)) (.fin false 1 (-20)) then absBound 24 else ulpBound 2 ref

/-- silu x = x / (1 + e^-x) for finite nonzero x (R297). -/
def siluResult (prop : BitVec 32) (s : Bool) (m : Nat) (e : Int) : Nat × FFlags :=
  let ref : FVal :=
    if leadExp m e > 8 then (if s then .fin true 1 (-700) else .fin false (m * 2 ^ 60 - 1) (e - 60))
    else sigmoidTimes s m e (fxTimes160 m e fxLog2e160)
  withinBound prop ref (actBound ref) anyValue

/-- gelu x = x / (1 + e^-2u), u = sqrt(2/pi) (x + 0.044715 x^3), for finite nonzero x (R297). -/
def geluResult (prop : BitVec 32) (s : Bool) (m : Nat) (e : Int) : Nat × FFlags :=
  let ref : FVal :=
    if leadExp m e > 3 then (if s then .fin true 1 (-700) else .fin false (m * 2 ^ 60 - 1) (e - 60))
    else
      let x := scaleDown m e fxBits
      let x3 := x * x / fxOne * x / fxOne
      let u2 := fxGelu * (x + x3 * 44715 / 1000000) / fxOne
      sigmoidTimes s m e (u2 * fxLog2e160 / 2 ^ 160)
  withinBound prop ref (actBound ref) anyValue

/-- A special function of a binary32 code: result and flags (R272, R273, R297). The activations' flags are not used. DESIGN CHOICE, log entry 4. -/
def specialFn (f : SFun) (a : BitVec 32) : Nat × FFlags :=
  let prop := Config.specialValue f.code a
  let c := a.toNat
  let x := decodeF f32 c
  let snan : FFlags := if isSnan f32 c then fInvalid else 0
  match f, x with
  | _, .nan => (f32.nanCode, snan)
  | .rcp, .inf s => (signed f32 s 0, 0)
  | .rcp, .fin s m e => if m = 0 then (signed f32 s f32.infCode, fDivZero) else rcpResult prop s m e
  | .rsq, .inf s => if s then (f32.nanCode, fInvalid) else (0, 0)
  | .rsq, .fin s m e =>
    if m = 0 then (signed f32 s f32.infCode, fDivZero) else if s then (f32.nanCode, fInvalid) else rsqResult prop m e
  | .sqrt _, .inf s => if s then (f32.nanCode, fInvalid) else (f32.infCode, 0)
  | .sqrt mode, .fin s m e =>
    if m = 0 then (c, 0) else if s then (f32.nanCode, fInvalid) else toFloat f32 mode false (sqrtVal m e)
  | .exp2, .inf s => (if s then 0 else f32.infCode, 0)
  | .exp2, .fin s m e => if m = 0 then (0x3F800000, 0) else exp2Result prop s m e
  | .log2, .inf s => if s then (f32.nanCode, fInvalid) else (f32.infCode, 0)
  | .log2, .fin s m e =>
    if m = 0 then (signed f32 true f32.infCode, fDivZero) else if s then (f32.nanCode, fInvalid) else log2Result prop m e
  | .sin, .inf _ => (f32.nanCode, fInvalid)
  | .sin, .fin s m e =>
    if m = 0 then (c, 0)
    else let ref := fxVal (if s then -sinRef m e else sinRef m e)
      withinBound prop ref (absBound 22) anyValue
  | .cos, .inf _ => (f32.nanCode, fInvalid)
  | .cos, .fin _ m e =>
    if m = 0 then (0x3F800000, 0) else withinBound prop (fxVal (cosRef m e)) (absBound 22) anyValue
  | .tanh, .inf s => (signed f32 s 0x3F800000, 0)
  | .tanh, .fin s m e => if m = 0 then (c, 0) else tanhResult prop s m e
  | .gelu, .inf s => (if s then f32.signBit else f32.infCode, 0)
  | .gelu, .fin s m e => if m = 0 then (c, 0) else geluResult prop s m e
  | .silu, .inf s => (if s then f32.signBit else f32.infCode, 0)
  | .silu, .fin s m e => if m = 0 then (c, 0) else siluResult prop s m e

end Sys2Proof.Machine
end

