-- ==== Sys2Proof/Machine/Flags.lean ====
section
/-! DEFINITION. Rounding selectors and draws, the flags of %fpstat, and the bound check with its hit bits (R169, R170, R219, R264, R265). -/

namespace Sys2Proof.Machine

/-- The mode of a rounding selector without SR; .dyn reads %rmode (R264). -/
def modeOf (a : Agent) (sel : Nat) : Rnd :=
  match sel with
  | 0 => .rne
  | 1 => .rz
  | 2 => .ru
  | 3 => .rd
  | 4 => match a.rmode.toNat with
    | 0 => .rne
    | 1 => .rz
    | 2 => .ru
    | _ => .rd
  | _ => .rne

/-- The draw of a lane at a counter value (R170). -/
def drawAt (t : Team) (k : AgentKey) (l counter : Nat) : Nat :=
  draw t.seed (if isLadle k then 32 else k.idx) (if isLadle k then 0 else l) counter

/-- A lane's rounding counter (R170). -/
def roundCounter (a : Agent) (l : Nat) : Nat := (sget 0 a.rounding l).toNat

/-- The mode of a conversion that may draw: SR with the lane's next draw, and the counter after it (R169, R170). -/
def drawMode (t : Team) (a : Agent) (sel l counter : Nat) (draws : Bool) : Rnd × Nat :=
  if sel = 5 then
    if draws then (.sr (drawAt t a.key l counter), counter + 1) else (.rz, counter)
  else (modeOf a sel, counter)

/-- A lane's rounding counter advanced. -/
def setCounter (a : Agent) (l n : Nat) : Agent := { a with rounding := sset 0 a.rounding l (BitVec.ofNat 32 n) }

/-- The outcome of a bound check: the value, whether the hit bit is set, whether it traps (R219). -/
structure Bounded where
  value : Nat
  hit : Bool
  trap : Bool
  deriving DecidableEq, Repr

/-- bound_apply of R219 on a binary32 code, from the bound register and its action. -/
def boundApply (bnd : Word64) (act x : Nat) : Bounded :=
  let loC := fld bnd 31 0
  let hiC := fld bnd 63 32
  let lo := decodeF f32 loC
  let hi := decodeF f32 hiC
  let v := decodeF f32 x
  if lo.isNan || hi.isNan || FVal.lt hi lo then ⟨x, true, false⟩
  else if v.isNan || FVal.lt v lo || FVal.lt hi v then
    if act = 1 then ⟨if FVal.lt hi v then hiC else loC, true, false⟩
    else ⟨x, true, act == 2⟩
  else ⟨x, false, false⟩

/-- The action of a bound register (R160). -/
def boundAct (flags : Word64) (n : Nat) : Nat := fld flags (33 + 2 * n) (32 + 2 * n)

/-- bound_apply with a team's register `n` (R219). -/
def teamBound (t : Team) (n x : Nat) : Bounded := boundApply ((t.bnd[n]?).getD 0) (boundAct t.bndflags n) x

/-- The hit bit of register `n` set at once (R219). -/
def setHit (s : State) (team n : Nat) : State :=
  updTeam s team fun t => { t with bndflags := t.bndflags ||| BitVec.ofNat 64 (2 ^ n) }

/-- Each 32-bit word of a store's data checked (R219): the data after clamping, any hit, any trap. -/
def boundWords (t : Team) (n bytes x : Nat) : Bounded :=
  (List.range (bytes / 4)).foldl (fun r i =>
    let b := teamBound t n (x / 2 ^ (32 * i) % 2 ^ 32)
    ⟨r.value + b.value * 2 ^ (32 * i), r.hit || b.hit, r.trap || b.trap⟩) ⟨0, false, false⟩

/-- What .bnd does to the data of a store in its lanes: the data, and the event if a word trapped (R219, R389). -/
def Iss.boundStore (c : Iss) (h : Hdr) (bnd : Nat) (bytes : Nat) (ls : List Nat) (data : Nat → Nat) :
    (List (Nat × Nat)) × Bool × List Nat :=
  if bit h.mod 3 then
    let rs := ls.map fun l => (l, boundWords c.t bnd bytes (data l))
    (rs.map fun r => (r.1, r.2.value), rs.any (·.2.hit), (rs.filter (·.2.trap)).map (·.1))
  else (ls.map fun l => (l, data l), false, [])

/-- A store's bound trap: nothing is stored and the hit bit stays set (R219). -/
def Iss.boundTrap (c : Iss) (bnd : Nat) (lanes : List Nat) : Eff :=
  .trap (setHit c.s0 c.t.uid bnd) (mkEvent 20 bnd (maskOf lanes) c.pc)

end Sys2Proof.Machine
end

