-- ==== Sys2Proof/Machine/Packet.lean ====
section
/-! DEFINITION. Packets as bits: colours, header fields, flits and their check field (R32, R35, R36). -/

namespace Sys2Proof.Machine

/-! ### Colours -/

/-- The colour of plane A from a socket to another, 0 to 31 (R32). -/
def colourA (i j : Nat) : Nat := (j + 32 - i % 32) % 32

/-- The colour of plane B from a socket to another, 32 to 63 (R32). -/
def colourB (i j : Nat) : Nat := 32 + colourA i j

/-- The output port at which light of a plane-local colour that enters an input port leaves the router (R31). -/
def outputPort (i c : Nat) : Nat := (i + c) % 32

/-- The colour of a hop (R32). A hop from a socket to itself is the way inside the die, without light: colours 0 and 32 carry the link self-test
only. -/
def colourOf (h : Hop) : Option Nat :=
  if h.src = h.dst then none else some (if h.planeB then colourB h.src h.dst else colourA h.src h.dst)

/-! ### Fields -/

/-- The type of a packet (R36). -/
def Msg.code : Msg → Nat
  | .rd .. | .xreq .. => 0
  | .rdr .. | .xrep .. => 1
  | .wr .. | .cwb _ => 2
  | .wrc .. | .postErr .. | .commitAck => 3
  | .at .. => 4
  | .atr .. => 5
  | .lx .. | .lxe .. => 6
  | .fm => 7
  | .fmr _ => 8
  | .xm .. | .xmr _ | .xmErr .. => 9
  | .pf .. | .pfr .. | .commit _ => 10
  | .rm _ => 11
  | .rma _ => 12
  | .ack _ | .loss _ | .selfTest => 13
  | .tx _ => 14
  | .reserved => 15

/-- The kind of agent that a socket's die is, for traffic that no core or engine has asked for (R2, R35). -/
def dieKind (sock : Nat) : Nat :=
  if sock < 12 then 0 else if sock < 28 then 3 else if sock < 30 then 5 else if sock = 30 then 6 else 7

/-- The agent field (R35): the kind in [7:5], the core or engine in [4:0]. DESIGN CHOICE, log entry 48. -/
def Packet.agent (p : Packet) : Nat :=
  let unit := fun (core : Nat) (ladle : Bool) => if core < 384 then ladle.toNat * 32 + core % 32 else 7 * 32
  if 11 ≤ p.msg.code ∧ p.msg.code ≤ 13 then 4 * 32
  else match p.who with
    | .entry c _ l | .fence c _ l | .pref c l | .reader c _ l => unit c l
    | .agent c a _ _ _ => unit c (a.idx == 32)
    | .engine _ e _ => 2 * 32 + e
    | .walker _ _ => 3 * 32
    | .hart _ => 6 * 32
    | .device _ | .other => dieKind p.src * 32

/-- The identifier of the fence that a marker belongs to (R36). DESIGN CHOICE, log entry 48. -/
def Packet.fenceId (p : Packet) : Nat :=
  match p.who with
  | .fence _ id _ | .engine _ _ id | .device id | .hart id => id
  | _ => 0

/-- The operation modifier (R35): the operation of an atomic or reduction, the context of a translation request (R60).
DESIGN CHOICE, log entry 48. -/
def Packet.modField (p : Packet) : Nat :=
  match p.msg with
  | .xreq ctx _ _ _ => ctx % 64
  | .at op w64 _ _ => w64.toNat * 32 + op.toNat
  | .xm _ _ _ (.atomx _ op w64 _ _) _ _ _ => w64.toNat * 32 + op.toNat
  | _ => 0

/-- The code of an access size in bytes (R35). -/
def sizeCode (n : Nat) : Nat :=
  if n = 1 then 1 else if n = 2 then 2 else if n = 4 then 3 else if n = 8 then 4 else if n = 16 then 5 else if n = 0 then 0 else 7

/-- Whether some cells are one aligned access of 1, 2, 4, 8 or 16 bytes. -/
def plainAccess (cells : List Host.Cell) : Bool :=
  match cells with
  | [] => false
  | c :: _ => [1, 2, 4, 8, 16].contains cells.length && c.1 % cells.length == 0 && cells.zipIdx.all fun e => e.1.1 == c.1 + e.2

/-- The access size of a packet (R35, R60). -/
def Packet.size (p : Packet) : Nat :=
  match p.msg with
  | .rd [r] _ => sizeCode r.size
  | .rd _ _ => 7
  | .wr cells whole _ _ => if whole then 7 else if plainAccess cells then sizeCode cells.length else 6
  | .at _ w64 _ _ => if w64 then 4 else 3
  | .lx _ _ n _ _ _ _ _ | .lxe _ _ n => sizeCode n
  | _ => 0

/-! ### Flits -/

/-- Data flits of some bytes: at most 4 (R35). -/
def dataFlits (n : Nat) : Nat := min 4 ((n + 31) / 32)

/-- The data bytes that follow a packet's header (R36). -/
def Msg.data : Msg → List Byte
  | .rdr vals _ cells _ => if cells.isEmpty then (vals.flatMap fun v => leBytes 16 v.v.toNat).take 128 else cells.map (·.2)
  | .xrep vpn _ => leBytes 8 vpn
  | .wr cells _ _ _ => cells.map (·.2)
  | .xm _ _ _ op _ _ _ => match op with
    | .stx _ _ _ ws => ws.flatMap fun w => leBytes 4 w.toNat
    | .ste _ x | .stf _ x => leBytes 4 x.toNat
    | .atomx _ _ _ v c => leBytes 8 v.toNat ++ leBytes 8 c.toNat
    | _ => []
  | .xmr vals => vals.flatMap fun v => leBytes 4 v.v.toNat
  | _ => []

/-- The bytes of a packet's mask or operand flit, where it has one (R35, R36). -/
def Packet.operand (p : Packet) : Option (List Byte) :=
  match p.msg with
  | .wr cells _ _ _ =>
    if p.size = 6 then some (leBytes 16 (cells.foldl (fun m c => m ||| 2 ^ (c.1 % 128)) 0)) else none
  | .at _ _ reqs _ => some ((reqs.take 1).flatMap fun r => leBytes 16 r.v.toNat ++ leBytes 8 r.c.toNat)
  | .lx _ idx _ _ base pageBase _ _ => some (leBytes 8 idx ++ leBytes 8 base ++ leBytes 8 pageBase)
  | .lxe _ ea _ => some (leBytes 8 ea)
  | _ => none

/-- Flits of a packet (R35, R36): the header, a mask or operand flit, and the data. -/
def Packet.flits (p : Packet) : Nat :=
  let least := match p.msg with | .rdr .. | .xrep .. => 1 | _ => 0
  1 + p.operand.isSome.toNat + max least (dataFlits p.msg.data.length)

/-- The auxiliary field of a message to another core's bank (R35, R133): the rank and the group of an exchange store, the operand of the others. -/
def BankOp.aux : BankOp → Nat
  | .stx _ rank group _ => rank % 2 ^ 16 + group % 8 * 2 ^ 16
  | .ste _ x | .stf _ x => x.toNat
  | .atomx _ _ _ v _ => v.toNat
  | _ => 0

/-- The auxiliary field (R35, R36): a completion time, a lease expiry, an atomic's old value (the first lane's, where several share the packet), a
check word, a rank and group or an operand, a fence, an epoch. DESIGN CHOICE, log entry 48. -/
def Packet.aux (p : Packet) : Nat :=
  match p.msg with
  | .atr (v :: _) _ true => v.v.toNat
  | .rdr _ _ _ t | .wrc t _ | .atr _ t _ | .fmr t | .rm t | .rma t => t
  | .wr _ _ (some w) _ => w.toNat
  | .xm _ _ _ op _ _ _ => op.aux
  | .fm => p.fenceId
  | .pf _ len _ _ n => len % 2 ^ 32 + n % 2 ^ 32 * 2 ^ 32
  | .pfr _ _ n => n
  | _ => 0

/-- The header of a packet on a hop, with its check field zero (R35). -/
def headerBits (lseq lack : BitVec 8) (p : Packet) : Nat :=
  p.msg.code * 2 ^ 252 + p.src % 32 * 2 ^ 247 + p.dst % 32 * 2 ^ 242 + p.relayed.toNat * 2 ^ 241 + p.planeB.toNat * 2 ^ 240
    + p.agent % 256 * 2 ^ 232 + p.wte % 512 * 2 ^ 223 + lseq.toNat * 2 ^ 215 + lack.toNat * 2 ^ 207 + p.sseq.toNat * 2 ^ 191
    + p.modField * 2 ^ 185 + p.attr.toNat * 2 ^ 183 + dataFlits p.msg.data.length * 2 ^ 180 + p.size * 2 ^ 176
    + p.pa % 2 ^ 52 * 2 ^ 124 + p.aux % 2 ^ 92 * 2 ^ 32

/-- Bytes filled up with zeros to whole flits. -/
def padFlits (bs : List Byte) : List Byte := bs ++ List.replicate ((32 - bs.length % 32) % 32) 0

/-- A packet's bytes on a hop, flit after flit, each from its lowest byte (R35). DESIGN CHOICE, log entry 48. -/
def packetBytes (lseq lack : BitVec 8) (p : Packet) : List Byte :=
  leBytes 32 (headerBits lseq lack p) ++ padFlits (p.operand.getD []) ++ padFlits (p.msg.data.take 128)

/-! ### The check field -/

/-- One bit of CRC-32C, least significant bit first. -/
def crcBit (c : Nat) : Nat := if c % 2 = 1 then (c / 2) ^^^ 0x82F63B78 else c / 2

/-- CRC-32C of some bytes. -/
def crc32c (bs : List Byte) : BitVec 32 :=
  BitVec.ofNat 32 ((bs.foldl (fun c b => (List.range 8).foldl (fun c _ => crcBit c) (c ^^^ b.toNat)) 0xFFFFFFFF) ^^^ 0xFFFFFFFF)

/-- The check field of a packet on a hop (R35). -/
def packetCrc (lseq lack : BitVec 8) (p : Packet) : BitVec 32 := crc32c (packetBytes lseq lack p)

/-- A packet given to a hop's wire at a time, with its check field. -/
def wrap (lseq lack : BitVec 8) (now : Nat) (p : Packet) : Sent := ⟨lseq, lack, now, p, packetCrc lseq lack p⟩

/-! ### Agents and sizes of requests -/

/-- Whether a request names an agent and a size that are valid for its type (R36). The service chiplet reads for the dispatcher and for the
walkers of its kind, and writes as a device (DESIGN CHOICE, log entry 48). -/
def validRequest (p : Packet) : Bool :=
  let kind := p.agent / 32
  match p.msg with
  | .rd reqs _ => [0, 1, 2, 3, 7].contains kind && reqs.all fun r => [1, 2, 4, 8, 16, 128].contains r.size
  | .xreq .. => [0, 1, 2, 7].contains kind
  | .wr cells _ _ _ => [0, 1, 2, 3, 5, 7].contains kind && !cells.isEmpty
  | .at .. => [0, 1, 2, 3].contains kind
  | .lx _ _ n _ _ _ _ _ | .lxe _ _ n => decide (kind ≤ 1) && [1, 2, 4, 8, 16].contains n
  | .fm => [0, 1, 2, 3, 6, 7].contains kind
  | .xm .. => decide (kind ≤ 1)
  | .pf .. => decide (kind ≤ 1)
  | _ => true

end Sys2Proof.Machine
end

