-- ==== Sys2Proof/Machine/Fabric.lean ====
section
/-! DEFINITION. The fabric: where an address leads, routes and modes, streams, go-back-N links, and what becomes of traffic that has
no path or whose die has failed (R31 to R46, R398, R399, R412). -/

namespace Sys2Proof.Machine

/-- The plane of an address: bit 7 chooses B (R34). -/
def planeOf (addr : Nat) : Bool := addr.testBit 7

/-- The socket that serves a physical address, none in no range (R9, R10, R412). A scale-up window's port is its number modulo 16,
ports 0 to 7 on I/O chiplet A (DESIGN CHOICE, log entry 14). -/
def destOf (s : State) (pa : Nat) : Option Nat :=
  if pa < dramTop s then some (homeSocket s pa)
  else if pa < sysBase then none
  else if pa < 0x4000000000000 then some 28
  else if pa < 0x8000000000000 then some 29
  else if pa < 0x8100000000000 then some (if pa / 2 ^ 36 % 16 < 8 then 28 else 29)
  else if 0xFFFFFFFFE0000 ≤ pa ∧ pa < 2 ^ 52 then some 31
  else none

/-- Whether an address is in a scale-up window (R423). -/
def isWindow (pa : Nat) : Bool := decide (0x8000000000000 ≤ pa ∧ pa < 0x8100000000000)

/-- Whether an address is host memory (R412). -/
def isHostMem (pa : Nat) : Bool := decide (sysBase ≤ pa ∧ pa < 0x4000000000000)

/-- Whether an address is disaggregated memory (R412). -/
def isPool (pa : Nat) : Bool := decide (0x4000000000000 ≤ pa ∧ pa < 0x8000000000000)

/-- Whether an address is in the queue aperture (R412). -/
def isAperture (pa : Nat) : Bool := decide (0xFFFFFFFFE0000 ≤ pa ∧ pa < 2 ^ 52)

/-- The address that a request to a system range carries outside (R412, R423): in host memory, in the pool, or in the remote package that its
scale-up window maps, whose identity comes first. -/
def outerAddress (s : State) (pa : Nat) : Nat × Nat :=
  if isWindow pa then
    let w := regGet s (.suwin (pa / 2 ^ 36 % 256))
    (fld w 62 41, fld w 35 0 * 2 ^ 30 + pa % 2 ^ 36)
  else (0, if isPool pa then pa - 2 ^ 50 else pa - sysBase)

/-- Whether a compute chiplet (R2). -/
def isCompute (sock : Nat) : Bool := decide (sock < 12)

/-- Whether a memory chiplet (R2). -/
def isMemory (sock : Nat) : Bool := decide (12 ≤ sock ∧ sock ≤ 27)

/-- Whether a socket's die is live by PKGCFG (R12). -/
def isLive (s : State) (sock : Nat) : Bool := regBit s .pkgcfg sock

/-! ### Links -/

def linkInit (h : Hop) : Link := ⟨h, [], [], [], 0, 0, 0, false⟩

def linkOf (s : State) (h : Hop) : Link := (s.links.find? fun l => l.hop == h).getD (linkInit h)

def setLink (s : State) (l : Link) : State :=
  if s.links.any fun x => x.hop == l.hop then { s with links := updWhere (fun x => x.hop == l.hop) (fun _ => l) s.links }
  else { s with links := s.links ++ [l] }

def updLink (s : State) (h : Hop) (f : Link → Link) : State := setLink s (f (linkOf s h))

def reverseHop (h : Hop) : Hop := ⟨h.dst, h.src, h.planeB⟩

/-- Acknowledgements and loss notices are link control: they take no link number (R38, R42). DESIGN CHOICE, log entry 20. -/
def linkControl : Msg → Bool
  | .ack _ | .loss _ | .selfTest => true
  | _ => false

/-- Packets that belong to a stream (R39): all but link control and route acknowledgements. -/
def streamed : Msg → Bool
  | .ack _ | .loss _ | .selfTest | .rma _ => false
  | _ => true

/-- Whether the replay buffer admits one more packet: 127 packets, 256 flits (R38). -/
def windowOpen (l : Link) (p : Packet) : Bool :=
  l.unacked.length < 127 && decide ((l.unacked.map fun x => x.pkt.flits).sum + p.flits ≤ 256)

/-- A packet leaves on a hop's wire; a dark wire loses it. -/
def putWire (l : Link) (x : Sent) : Link := if l.dark then l else { l with wire := l.wire ++ [x] }

/-- A packet sent on a hop (R37, R38). -/
def emit (s : State) (h : Hop) (p : Packet) : State :=
  let lack := (linkOf s (reverseHop h)).expected
  updLink s h fun l =>
    if h.src = h.dst || linkControl p.msg then putWire l (wrap 0 lack s.time p)
    else if l.queued.isEmpty && windowOpen l p then
      let x := wrap l.nextSeq lack s.time p
      putWire { l with unacked := l.unacked ++ [x], nextSeq := l.nextSeq + 1 } x
    else { l with queued := l.queued ++ [p] }

/-- Queued packets leave while the window admits them. -/
def drainQueue (l : Link) (now : Nat) (lack : BitVec 8) : List Packet → Link
  | [] => { l with queued := [] }
  | p :: r =>
    if windowOpen l p then
      let x := wrap l.nextSeq lack now p
      drainQueue (putWire { l with unacked := l.unacked ++ [x], nextSeq := l.nextSeq + 1 } x) now lack r
    else { l with queued := p :: r }

/-- A cumulative acknowledgement arrives at a hop's sender: everything before `lack` is done (R38). -/
def acknowledge (s : State) (h : Hop) (lack : BitVec 8) : State :=
  let back := (linkOf s (reverseHop h)).expected
  updLink s h fun l =>
    let done := match l.unacked with | x :: _ => (lack - x.lseq).toNat | [] => 0
    if done = 0 ∨ l.unacked.length < done then l
    else drainQueue { l with unacked := l.unacked.drop done, resends := 0 } s.time back l.queued

/-! ### Routes -/

/-- Whether the colour of a pair on a plane is dark (R43). -/
def routeDark (s : State) (i j : Nat) (planeB : Bool) : Bool := regBit s (.route i j) (if planeB then 14 else 15)

/-- Mode, lost planes and relay of a pair (R43). -/
structure RouteCfg where
  mode : Nat
  lost : Nat
  relay : Nat
  deriving DecidableEq, Repr

def routeCfg (s : State) (i j : Nat) : RouteCfg := ⟨regFld s (.route i j) 31 30, regFld s (.route i j) 29 28, regFld s (.route i j) 27 23⟩

/-- The hop that a half of i → j takes first under a configuration, or none when it has no path (R44, R45). -/
def pathUnder (s : State) (c : RouteCfg) (i j : Nat) (planeB : Bool) : Option Hop :=
  let lost := fun (b : Bool) => c.lost.testBit b.toNat
  let lit := fun (k : Nat) (b : Bool) => if routeDark s i k b then none else some ⟨i, k, b⟩
  if c.mode = 0 || !lost planeB then lit j planeB
  else if c.mode = 1 then (if lost (!planeB) then none else lit j (!planeB))
  else if c.relay = i || c.relay = j || !isLive s c.relay then none
  else lit c.relay planeB

def firstHop (s : State) (i j : Nat) (planeB : Bool) : Option Hop := pathUnder s (routeCfg s i j) i j planeB

/-- The hop of a relayed packet at its relay: its own plane's colour if lit, else the other (R44). -/
def relayHop (s : State) (k j : Nat) (planeB : Bool) : Option Hop :=
  if !routeDark s k j planeB then some ⟨k, j, planeB⟩
  else if !routeDark s k j (!planeB) then some ⟨k, j, !planeB⟩
  else none

/-- The way of a loss notice or a route acknowledgement: a lit colour of the pair, plane A first, else a route of either half (R42, R46).
DEDUCED, log entry 27. -/
def controlHop (s : State) (i j : Nat) : Option Hop :=
  if !routeDark s i j false then some ⟨i, j, false⟩
  else if !routeDark s i j true then some ⟨i, j, true⟩
  else match firstHop s i j false with
    | some h => some h
    | none => firstHop s i j true

/-! ### Streams -/

def streamOf (s : State) (h : Hop) : Stream := (s.streams.find? fun x => x.hop == h).getD ⟨h, 0, 0, []⟩

/-- The next number that a stream's destination expects, past those that were dropped for want of a path (R39, R45). -/
def Stream.passSkips : Nat → Stream → Stream
  | 0, x => x
  | n + 1, x => if x.skips.contains x.expected then passSkips n { x with expected := x.expected + 1, skips := x.skips.erase x.expected } else x

/-- A stream whose destination has accepted the number it expected. -/
def Stream.accepted (x : Stream) : Stream := Stream.passSkips x.skips.length { x with expected := x.expected + 1 }

/-- A stream one of whose numbers will not come. -/
def Stream.skip (x : Stream) (n : BitVec 16) : Stream := Stream.passSkips (x.skips.length + 1) { x with skips := n :: x.skips }

def setStream (s : State) (x : Stream) : State :=
  if s.streams.any fun y => y.hop == x.hop then { s with streams := updWhere (fun y => y.hop == x.hop) (fun _ => x) s.streams }
  else { s with streams := s.streams ++ [x] }

/-- The stream of a packet (R39). -/
def streamHop (p : Packet) : Hop := ⟨p.src, p.dst, p.planeB⟩

/-- The next stream number given to a packet (R35, R39). -/
def number (s : State) (p : Packet) : State × Packet :=
  if streamed p.msg then
    let x := streamOf s (streamHop p)
    (setStream s { x with next := x.next + 1 }, { p with sseq := x.next })
  else (s, p)

/-! ### Sending -/

/-- The socket that a requester's reply goes to (R26: the element home answers the core). -/
def replySocket (p : Packet) : Nat :=
  match p.who with
  | .entry c _ _ | .agent c _ _ _ _ | .fence c _ _ | .pref c _ | .reader c _ _ => socketOf c
  | .engine c _ _ | .walker c _ => c
  | .hart _ => 30
  | .device _ | .other => p.src

/-- A packet on its path, held while its half drains (R46); where it has no path, `lost` says what becomes of it (R45). -/
def sendOn (s : State) (p : Packet) (lost : State → State) : State :=
  let half : Hop := ⟨p.src, p.dst, p.planeB⟩
  if p.src = p.dst then emit s ⟨p.src, p.src, p.planeB⟩ p
  else if s.changes.any fun c => c.hop == half then
    { s with changes := updWhere (fun c => c.hop == half) (fun c => { c with held := c.held ++ [p] }) s.changes }
  else match firstHop s p.src p.dst p.planeB with
    | none => lost s
    | some h => let (s, p) := number s p; emit s h { p with relayed := h.dst != p.dst }

/-- A packet on its path without any answer where it has none. -/
def sendPlain (s : State) (p : Packet) : State := sendOn s p id

/-- A reply to a request from a socket, on the plane of the request (R34). -/
def replyFrom (at_ : Nat) (p : Packet) (m : Msg) : Packet :=
  { p with src := at_, dst := replySocket p, relayed := false, sseq := 0, msg := m }

/-- Poison with a subcode in every lane of a request (R45, R398, R399). -/
def poisonVals (sub : Nat) : Msg → List LaneVal
  | .rd reqs _ | .at _ _ reqs _ => reqs.map fun r => ⟨r.lane, 0, sub + 1⟩
  | .lx lane .. | .lxe lane .. | .xm _ _ lane _ _ _ _ => [⟨lane, 0, sub + 1⟩]
  | _ => []

/-- The answer that socket `at_` gives in place of an unreachable destination, if the packet wants one: poison for requests, the
present time plus TIMESKEW for markers, empty prefetches (R45, R398, R399); stores, reductions, tagged messages and replies go
unanswered. DESIGN CHOICE, log entry 20. -/
def answerFor (s : State) (at_ sub : Nat) (p : Packet) : Option Msg :=
  match p.msg with
  | .rd reqs lease => some (.rdr (poisonVals sub (.rd reqs lease)) (p.pa / 128) [] 0)
  | .xreq _ vpn _ _ => some (.xrep vpn .lost)
  | .at op w64 reqs true => some (.atr (poisonVals sub (.at op w64 reqs true)) 0 true)
  | .lx lane .. | .lxe lane .. => some (.rdr [⟨lane, 0, sub + 1⟩] 0 [] 0)
  | .fm => some (.fmr (timeAt s at_ + skew s))
  | .pf _ _ team tl n => some (.pfr team tl n)
  | .commit _ => some .commitAck
  | .xm _ _ lane (.atomx ..) _ _ _ => some (.xmr [⟨lane, 0, sub + 1⟩])
  | .tx (.hostRead id pa _ _) => some (.tx (.hostData id pa [] true))
  | .tx (.hostWrite id _) => some (.tx (.hostDone id (timeAt s at_ + skew s)))
  | .tx (.hart id h pa _) => some (.tx (.hartDone id h pa 0 .poison 0 [] 0))
  | _ => none

/-- A packet answered where it stands instead of at its destination (R45). -/
def answerHere (s : State) (at_ sub : Nat) (p : Packet) : State :=
  match answerFor s at_ sub p with
  | some m => sendPlain s (replyFrom at_ p m)
  | none => s

/-- A request that names an agent or size not valid for its type, answered with poison: a posted one and one to a bank that returns nothing by an
error report of consumed poison (R36). -/
def rejectHere (s : State) (p : Packet) : State :=
  let reply := fun (m : Msg) => sendPlain s (replyFrom p.dst p m)
  match p.msg with
  | .wr .. | .cwb _ | .at _ _ _ false => reply (.postErr 19 0)
  | .xm _ _ lane (.stx off ..) k issue pc => reply (.xmErr lane 19 k issue pc off)
  | .xm _ _ lane .. => reply (.xmr [⟨lane, 0, 1⟩])
  | _ => answerHere s p.dst 0 p

/-- The answer for a failed die, when the sending socket gives it (R398, R399). -/
def failedAnswer (s : State) (p : Packet) : Option (Option Msg) :=
  if !socketFailed s p.dst then none
  else match p.msg with
    | .fm | .pf .. => some (answerFor s p.src 1 p)
    | .cwb _ => some none
    | .commit _ => some (some .commitAck)
    | .xreq _ vpn _ _ => some (some (.xrep vpn (if isMemory p.dst then .fault 9 else .lost)))
    | m =>
      if isMemory p.dst then none
      else if p.dst = 28 && isHostMem p.pa then
        match m with
        | .wr .. | .at _ _ _ false => some (some (.postErr 19 2))
        | _ => some (answerFor s p.src 2 p)
      else match m with
        | .wr .. | .at _ _ _ false => if p.dst = 28 || p.dst = 29 then some (some (.postErr 19 1)) else some none
        | _ => some (answerFor s p.src 1 p)

/-- A packet sent by its source socket (R34, R44 to R46, R398, R399). DESIGN CHOICE, log entry 20. -/
def send (s : State) (p : Packet) : State :=
  match failedAnswer s p with
  | some (some m) => sendPlain s (replyFrom p.src p m)
  | some none => s
  | none => sendOn s p fun s => answerHere s p.src 1 p

/-- The write packets and the marker that follows them of one line of a write of the package (R64, R78). -/
def sendDeviceLine (s : State) (w : DevWrite) (line : Nat) : State :=
  let cells := w.cells.filter fun c => c.1 / 128 == line
  let pa := (cells.map (·.1)).head?.getD (line * 128)
  let pkt := fun (m : Msg) => (⟨w.sock, homeSocket s pa, false, planeOf pa, .device w.id, 1, pa, 0, m, 0, [], 0⟩ : Packet)
  send (send s (pkt (.wr cells (cells.length == 128) none false))) (pkt .fm)

/-- The writes that dies of the package have begun leave for their homes (R64, R392, R403). DEDUCED, log entry 31. -/
def flushDevWrites (s : State) : State :=
  s.devWrites.foldl (fun s w => ((w.cells.map fun c => c.1 / 128).dedup).foldl (fun s l => sendDeviceLine s w l)
      { s with devWrites := updWhere (fun x => x.id == w.id) (fun x => { x with cells := [] }) s.devWrites }) s

/-- A numbered packet sent again from a socket, or, where it has no path, dropped, so that the destination does not wait for its number (R39, R44,
R45); an RMA waits for a route (R46). DESIGN CHOICE, log entry 20. -/
def sendAgain (s : State) (at_ : Nat) (p : Packet) : State :=
  let way := if at_ = p.src then firstHop s p.src p.dst p.planeB else relayHop s at_ p.dst p.planeB
  match way with
  | some h => emit s h { p with relayed := p.relayed || h.dst != p.dst }
  | none =>
    if streamed p.msg then
      let x := streamOf s (streamHop p)
      if (p.sseq - x.expected).toNat < 2 ^ 15 && !x.skips.contains p.sseq then answerHere (setStream s (x.skip p.sseq)) at_ 1 p else s
    else match p.msg with
      | .rma _ => { s with rmaHeld := s.rmaHeld ++ [p] }
      | _ => s

/-! ### Kinds of packets (R36) -/

/-- The packets of RD. -/
def isRd : Msg → Bool
  | .rd _ _ => true
  | _ => false

/-- The packets of WR. -/
def isWr : Msg → Bool
  | .wr _ _ _ _ | .cwb _ => true
  | _ => false

/-- The packets of AT. -/
def isAtPkt : Msg → Bool
  | .at _ _ _ _ => true
  | _ => false

/-- The packets of LX. -/
def isLx : Msg → Bool
  | .lx _ _ _ _ _ _ _ _ | .lxe _ _ _ => true
  | _ => false

/-- The packets of PF. -/
def isPf : Msg → Bool
  | .pf _ _ _ _ _ => true
  | _ => false

/-- The packets of ICINV_COMMIT. -/
def isIcinvCommit : Msg → Bool
  | .commit _ => true
  | _ => false

/-- The packets of RDR. -/
def isRdr : Msg → Bool
  | .rdr _ _ _ _ | .xrep _ _ => true
  | _ => false

/-- The packets of WRC. -/
def isWrc : Msg → Bool
  | .wrc _ _ | .postErr _ _ | .commitAck => true
  | _ => false

/-- The packets of ATR. -/
def isAtr : Msg → Bool
  | .atr _ _ _ => true
  | _ => false

/-- The packets of PF_REPLY. -/
def isPfReply : Msg → Bool
  | .pfr _ _ _ => true
  | _ => false

/-- The packets of FMR. -/
def isFmr : Msg → Bool
  | .fmr _ => true
  | _ => false

/-- The packets of XM. -/
def isXm : Msg → Bool
  | .xm _ _ _ _ _ _ _ | .xmr _ | .xmErr _ _ _ _ _ _ => true
  | _ => false

/-- The packets of RM. -/
def isRm : Msg → Bool
  | .rm _ => true
  | _ => false

/-- The packets of RMA. -/
def isRma : Msg → Bool
  | .rma _ => true
  | _ => false

/-- The packets of LC. -/
def isLc : Msg → Bool
  | .ack _ | .selfTest => true
  | _ => false

/-- The packets of LOSS_NOTICE. -/
def isLossNotice : Msg → Bool
  | .loss _ => true
  | _ => false

/-- The packets of TX. -/
def isTx : Msg → Bool
  | .tx _ => true
  | _ => false

/-- The packets of RESERVED_PACKET. -/
def isReservedPacket : Msg → Bool
  | .reserved => true
  | _ => false

/-- The packets of TRANSLATION_REQUEST. -/
def isTranslationRequest : Msg → Bool
  | .xreq _ _ _ _ => true
  | _ => false

/-- The packets of FM. -/
def isFm : Msg → Bool
  | .fm => true
  | _ => false

/-! ### Accepting -/

/-- What taking the first packet of a hop's wire gives. -/
inductive Taken where
  | notDue
  | passed (s : State)
  | got (p : Packet) (s : State)

/-- Nanoseconds of a hop: 20 between sockets (R33), none within one. DESIGN CHOICE, log entry 20. DESIGN CHOICE, log entry 21. -/
def hopLatency (h : Hop) : Nat := if h.src = h.dst then 0 else 20

/-- The first packet of a wire that has arrived. -/
def arrived (s : State) (h : Hop) : Option Sent :=
  match (linkOf s h).wire with
  | x :: _ => if x.at_ + hopLatency h ≤ s.time then some x else none
  | [] => none

/-- A hop's receiver acknowledges what it has accepted (R38): on the reverse colour, or where that is dark the way of a loss notice (R42,
R45; DEDUCED, log entry 27). -/
def sendAck (s : State) (h : Hop) : State :=
  match if routeDark s h.dst h.src h.planeB then controlHop s h.dst h.src else some (reverseHop h) with
  | some r => emit s r ⟨h.dst, h.src, r.dst != h.src, h.planeB, .other, 0, 0, 0, .ack (linkOf s h).expected, 0, [], 0⟩
  | none => s

/-- A packet accepted at a hop's receiver if it has the kind asked for: check field, link number, acknowledgement, relay and stream are dealt with
(R38, R39, R44). DESIGN CHOICE, log entry 20. -/
def take (s : State) (h : Hop) (kind : Msg → Bool) : Taken :=
  match arrived s h with
  | none => .notDue
  | some x =>
    if !kind x.pkt.msg then .notDue
    else
      let s := updLink s h fun l => { l with wire := l.wire.drop 1 }
      if h.src = h.dst then .got x.pkt s
      else if packetCrc x.lseq x.lack x.pkt != x.crc then .passed s
      else
        let s := acknowledge s (reverseHop h) x.lack
        if linkControl x.pkt.msg then
          if x.pkt.dst = h.dst then .got x.pkt s
          else .passed (match relayHop s h.dst x.pkt.dst x.pkt.planeB with | some r => emit s r x.pkt | none => s)
        else if x.lseq != (linkOf s h).expected then .passed (sendAck s h)
        else
          let s := updLink s h fun l => { l with expected := l.expected + 1 }
          let s := sendAck s h
          if x.pkt.dst != h.dst then .passed (sendAgain s h.dst x.pkt)
          else if !streamed x.pkt.msg then .got x.pkt s
          else
            let st := streamOf s (streamHop x.pkt)
            if st.expected = x.pkt.sseq then .got x.pkt (setStream s st.accepted)
            else .passed s

/-- A step that accepts a packet of one kind and applies it. -/
def onPacket (mnemonic : String) (s : State) (h : Hop) (kind : Msg → Bool) (f : Packet → State → State) : Result :=
  match take s h kind with
  | .notDue => .refused (.notDue mnemonic)
  | .passed s => .next s
  | .got p s => .next (f p s)

/-! ### Losing a colour -/

/-- Route acknowledgements that wait for a route are sent once there is one (R46). -/
def flushRma (s : State) : State :=
  s.rmaHeld.foldl (fun s p => match controlHop s p.src p.dst with
    | some h => emit { s with rmaHeld := s.rmaHeld.filter (· != p) } h p
    | none => s) s

/-- busy of a pair follows its changes in progress (R43). -/
def setBusy (s : State) (i j : Nat) : State :=
  regSetBit s (.route i j) 16 (s.changes.any fun c => c.hop.src == i && c.hop.dst == j)

/-- Packets of the halves that drain, which their old paths have not acknowledged or not sent, other than those of one hop; what had not been sent
leaves its queue (R46). -/
def takeOld (s : State) (hop : Hop) (cs : List RouteChange) : State × List Packet :=
  cs.foldl (fun (acc : State × List Packet) c =>
    match c.old with
    | none => acc
    | some o =>
      if o == hop then acc
      else
        let mine := fun (p : Packet) => streamHop p == c.hop
        let l := linkOf acc.1 o
        (setLink acc.1 { l with queued := l.queued.filter fun p => !mine p },
          acc.2 ++ ((l.unacked.map (·.pkt)) ++ l.queued).filter mine)) (s, [])

/-- A colour of i → j is lost at its sender (R45, R46): the dark bit, the mode entered, the end of a drained change, and everything
unacknowledged sent again, then what was held. Every unacknowledged packet of the lost hop counts as a resend of the pair
(DESIGN CHOICE, log entry 20). -/
def applyLoss (s : State) (i j : Nat) (planeB : Bool) : State :=
  if routeDark s i j planeB then s
  else
    let r := Reg.route i j
    let s := regSetBit s r (if planeB then 14 else 15) true
    let mine := s.changes.filter fun c => c.hop.src == i && c.hop.dst == j
    let held := mine.flatMap (·.held)
    let s := setBusy { s with changes := s.changes.filter fun c => !(c.hop.src == i && c.hop.dst == j) } i j
    let s := if mine.isEmpty && regFld s r 31 30 = 0 then
        let onLoss := regBit s r 22
        let s := regSet (regSet s r 31 30 (if onLoss then 2 else 1)) r 29 28 (if planeB then 2 else 1)
        if onLoss then regSet s r 27 23 (regFld s r 21 17) else s
      else s
    let hop : Hop := ⟨i, j, planeB⟩
    let l := linkOf s hop
    let s := setLink s { l with wire := [], unacked := [], queued := [], resends := 0, dark := true }
    let (s, old) := takeOld s hop mine
    let again := l.unacked.map (·.pkt) ++ l.queued ++ old
    let s := regSet s r 7 0 (saturate 8 (regFld s r 7 0 + l.unacked.length))
    flushRma (held.foldl send (again.foldl (fun s p => sendAgain s i p) s))

end Sys2Proof.Machine
end

