-- ==== Sys2Proof/Machine/Xlat.lean ====
section
/-! DEFINITION. Translation: table entries, the two-stage walk one reference at a time, the shards' caches and the cores' L1 TLBs
(R51 to R62, R68). -/

namespace Sys2Proof.Machine

/-- Whether two byte ranges overlap. -/
def rangesMeet (a n b m : Nat) : Bool := decide (a < b + m ∧ b < a + n)

/-- Whether a command names a context. -/
def Inval.names (i : Inval) (ctx : Nat) : Bool := i.scope == 2 || i.ctx == ctx

/-- Whether a combined translation is covered: any part of its page, or all of its context for a stage-2 command (R57, R68). -/
def Inval.covers (i : Inval) (ctx : Nat) (x : Xlat) : Bool :=
  i.names ctx && (i.scope != 0 || i.stage2 || rangesMeet x.vaBase x.size i.base i.len)

/-- Whether a second-stage result is covered. -/
def Inval.covers2 (i : Inval) (ctx : Nat) (x : Xlat) : Bool :=
  i.names ctx && (i.scope != 0 || (i.stage2 && rangesMeet x.vaBase x.size i.base i.len))

/-- A canonical virtual address (R51). -/
def canonical (va : Nat) : Bool := va / 2 ^ 54 == 0 || va / 2 ^ 54 == 1023

/-- The index of an address at a table level (R51). -/
def levelIndex (level a : Nat) : Nat :=
  match level with
  | 1 => a / 2 ^ 42 % 8192
  | 2 => a / 2 ^ 29 % 8192
  | _ => a / 2 ^ 16 % 8192

/-- What an entry is at its level (R52 to R54). -/
inductive EntryKind where
  | invalid
  | malformed
  | table (addr : Nat)
  | leaf (addr size : Nat)
  deriving DecidableEq, Repr

/-- The reading of an entry at a level (R52 to R54). -/
def entryKind (level : Nat) (e : Word64) : EntryKind :=
  let addr := fld e 51 16 * 65536
  if !bit e 0 then .invalid
  else if fld e 60 56 != 0 || fld e 15 10 != 0 || fld e 6 5 != 0 then .malformed
  else if !bit e 1 then
    if level = 3 || fld e 62 61 != 0 || bit e 9 || fld e 4 2 != 0 then .malformed else .table addr
  else match level with
    | 1 => .malformed
    | 2 => if bit e 9 && addr % 2 ^ 38 == 0 then .leaf addr (2 ^ 38) else .malformed
    | _ => if !bit e 9 then .leaf addr 65536 else if addr % 2 ^ 25 = 0 then .leaf addr (2 ^ 25) else .malformed

/-- How a walk ends. -/
inductive WalkEnd where
  | ok (x : Xlat)
  | fault (sub : Nat)
  | invalid (stage ipa : Nat)
  | lost
  deriving DecidableEq, Repr

/-- A walk goes on or ends. -/
inductive WalkNext where
  | more (w : Walk)
  | done (e : WalkEnd)
  deriving DecidableEq, Repr

/-- Whether a translation grants what an access needs (R57). -/
def hasRight (acc : Access) (r w x : Bool) : Bool :=
  match acc with
  | .read | .copyRead => r
  | .write | .copyWrite => w
  | .atomic => r && w
  | .fetch => x
  | .either => r || w
  | .readOrFetch => r || x
  | .any => true

/-- Whether an access writes through its leaf (R55). -/
def isWriteAccess : Access → Bool
  | .write | .copyWrite | .atomic => true
  | _ => false

/-- A context's registers (R56). -/
def ctxEnabled (s : State) (ctx : Nat) : Bool := regBit s (.vfctx ctx) 63
def s2Enabled (s : State) (ctx : Nat) : Bool := regBit s (.vfctx ctx) 62
def prqEnabled (s : State) (ctx : Nat) : Bool := regBit s (.vfctx ctx) 61

/-- The shard of a page (R59). -/
def hashV (v c : Nat) : Nat := ((v % 8192) ^^^ (v / 2 ^ 13 % 8192) ^^^ (v / 2 ^ 26 % 8192) ^^^ (c * 128)) % 8192

def shardSocket (s : State) (ctx vpn : Nat) : Nat := nthSetBit (liveMask s % 2 ^ 28) (hashV vpn ctx % dCount s) 28

def shardInit : Shard := ⟨[], [], [], [], []⟩

def shardOf (s : State) (sock : Nat) : Shard := sget shardInit s.shards sock

def updShard (s : State) (sock : Nat) (f : Shard → Shard) : State := { s with shards := supd shardInit s.shards sock f }

/-- Whether a socket has no path to another on a plane (R45). -/
def unreachable (s : State) (i j : Nat) (planeB : Bool) : Bool := i != j && (firstHop s i j planeB).isNone

/-- A walk's nested stage-2 walk started, or its cached result (R61). -/
def s2Start (s : State) (sock : Nat) (w : Walk) (ipa : Nat) : Nested ⊕ (Xlat × Nat) :=
  match (shardOf s sock).stage2.find? fun e => e.1 == w.req.ctx && e.2.1 == ipa / 65536 with
  | some e => .inr (e.2.2.1, e.2.2.2)
  | none => .inl ⟨ipa, 1, w.s2root⟩

/-- The IPA that a walk needs stage 2 for: the entry of the next stage-1 level, or the output. -/
def walkIpa (w : Walk) : Nat :=
  match w.leaf with
  | some l => fld l.entry 51 16 * 65536 / l.size * l.size + w.req.va % l.size
  | none => w.table + 8 * levelIndex w.level w.req.va

/-- The address that a translation gives. -/
def Xlat.pa (x : Xlat) (a : Nat) : Nat := x.paBase + a % x.size

/-- The end of a walk (R55, R57, R9): combined attribute, rights and page, with the updates of dirty that have to be applied first. Poison goes before
a missing right, and that before an unbacked address (DESIGN CHOICE, log entry 49). -/
def walkFinish (s : State) (w : Walk) (l : Leaf) (x2 : Option (Xlat × Nat)) : WalkNext :=
  let e := l.entry
  let out := walkIpa w
  let attr2 := match x2 with | some (x, _) => x.attr | none => 0
  let attr := if attr2.toNat ≤ fld e 62 61 then BitVec.ofNat 2 (fld e 62 61) else attr2
  let and2 := fun (b : Bool) (f : Xlat → Bool) => b && (match x2 with | some (x, _) => f x | none => true)
  let r := and2 (bit e 2) (·.r)
  let wr := and2 (bit e 3) (·.w)
  let x := and2 (bit e 4) (·.x)
  let size := match x2 with | some (y, _) => min l.size y.size | none => l.size
  let pa := match x2 with | some (y, _) => y.pa out | none => out
  if w.poison then .done (.fault 9)
  else if !hasRight w.req.acc r wr x then .done (.fault 5)
  else if dramTop s ≤ pa ∧ pa < sysBase then .done (.fault 7)
  else
    let write := isWriteAccess w.req.acc
    if write && !bit e 8 && w.s2en && !w.leafW then .done (.fault 5)
    else
      let first := if write && !bit e 8 then (l.pa, 0x100#64) :: (w.leafS2.toList.map fun p => (p, 0x100#64)) else []
      let second := match x2 with | some (y, p) => if write && !y.dirty then [(p, 0x100#64)] else [] | none => []
      let dirty := write || (bit e 8 && (match x2 with | some (y, _) => y.dirty | none => true))
      .more { w with
        ors := w.ors ++ first ++ second
        result := some (.ok { vaBase := w.req.va / size * size, paBase := pa / size * size, size := size, attr := attr, r := r, w := wr, x := x
                              dirty := dirty }) }

/-- What a walk does with a stage-2 result. -/
def afterS2 (s : State) (w : Walk) (x2 : Xlat) (leafPa : Nat) : WalkNext :=
  match w.leaf with
  | some l => walkFinish s w l (some (x2, leafPa))
  | none =>
    if !x2.r then .done (.fault 5)
    else .more { w with s2 := none, entryPa := some (x2.pa (walkIpa w)), tableW := x2.w, tableLeaf := some leafPa }

/-- The next thing that a walk needs without a reference (R61, R62). -/
def walkPrepare (s : State) (sock : Nat) (w : Walk) : WalkNext :=
  if w.s2en then
    match s2Start s sock w (walkIpa w) with
    | .inl n => .more { w with s2 := some n }
    | .inr (x, p) => afterS2 s w x p
  else match w.leaf with
    | some l => walkFinish s w l none
    | none => .more { w with entryPa := some (walkIpa w) }

/-- A walk begins (R51, R56, R62). -/
def walkBegin (s : State) (sock : Nat) (q : XReq) (id : Nat) : WalkNext :=
  if !canonical q.va then .done (.fault 0)
  else if !ctxEnabled s q.ctx then .done (.fault 1)
  else walkPrepare s sock
    { id := id, req := q, level := 1, table := fld (regGet s (.vfctx q.ctx)) 51 16 * 65536, entryPa := none, tableW := true
      tableLeaf := none, s2 := none, leaf := none, leafW := true, leafS2 := none, poison := false, refs := 0, dropped := false
      s2en := s2Enabled s q.ctx, s2root := fld (regGet s (.vfs2 q.ctx)) 51 16 * 65536, prq := prqEnabled s q.ctx
      ors := [], result := none, got := none }

/-- The address of the reference that a walk makes next. -/
def walkAddress (w : Walk) : Option Nat :=
  match w.s2 with
  | some n => some (n.table + 8 * levelIndex n.level n.ipa)
  | none => w.entryPa

/-- The update of accessed that an entry needs before the walk goes on, with the dirty of the stage-2 leaf through which a shard writes it,
set after it (R55). DEDUCED, log entry 41. -/
def accessedUpdates (e : Word64) (pa : Nat) (through : Option Nat) : List (Nat × Word64) :=
  if bit e 7 then [] else (pa, 0x80#64) :: through.toList.map fun p => (p, 0x100#64)

/-- A walk's next state with the updates that come first, also where a fault follows them (R55). -/
def withUpdates (w : Walk) (n : WalkNext) : WalkNext :=
  match n with
  | .done (.fault sub) => if w.ors.isEmpty then n else .more { w with result := some (.fault sub) }
  | n => n

/-- What a walk does with the entry that its reference at an address has brought (R52 to R55, R61, R62). -/
def walkStep (s : State) (sock : Nat) (w : Walk) (pa : Nat) (e : Word64) (bad : Bool) : State × WalkNext :=
  let w := { w with refs := w.refs + 1 }
  if bad then (s, .done (.fault 9))
  else match w.s2 with
  | some n => match entryKind n.level e with
    | .invalid => (s, .done (.invalid 2 (n.ipa / 65536 * 65536)))
    | .malformed => (s, .done (.fault 4))
    | .table addr =>
      (s, .more { w with s2 := some { n with level := n.level + 1, table := addr }, poison := w.poison || bit e 63
                         ors := w.ors ++ accessedUpdates e pa none })
    | .leaf addr size =>
      let x : Xlat := { vaBase := n.ipa / size * size, paBase := addr, size := size, attr := BitVec.ofNat 2 (fld e 62 61), r := bit e 2
                        w := bit e 3, x := bit e 4, dirty := bit e 8 }
      let w := { w with poison := w.poison || bit e 63, ors := w.ors ++ accessedUpdates e pa none }
      let s := if w.poison then s else updShard s sock fun h => { h with stage2 := (w.req.ctx, n.ipa / 65536, x, pa) :: h.stage2 }
      (s, withUpdates w (afterS2 s w x pa))
  | none => match entryKind w.level e with
    | .invalid => (s, .done (.invalid 1 0))
    | .malformed => (s, .done (.fault 4))
    | .table addr =>
      if !bit e 7 && !w.tableW then (s, .done (.fault 5))
      else
        let w := { w with level := w.level + 1, table := addr, entryPa := none, tableLeaf := none, poison := w.poison || bit e 63
                          ors := w.ors ++ accessedUpdates e pa w.tableLeaf }
        (s, withUpdates w (walkPrepare s sock w))
    | .leaf _ size =>
      if !bit e 7 && !w.tableW then (s, .done (.fault 5))
      else
        let w := { w with leaf := some ⟨e, pa, size⟩, level := 4, entryPa := none, leafW := w.tableW, leafS2 := w.tableLeaf, tableLeaf := none
                          poison := w.poison || bit e 63, ors := w.ors ++ accessedUpdates e pa w.tableLeaf }
        (s, withUpdates w (walkPrepare s sock w))

/-! ### Caches of translations -/

/-- Whether a cached translation serves an access: its right, and dirty set for a write (R55, R57). -/
def serves (x : Xlat) (acc : Access) : Bool := hasRight acc x.r x.w x.x && (!isWriteAccess acc || x.dirty)

/-- Whether a translation's page holds an address. -/
def Xlat.holds (x : Xlat) (va : Nat) : Bool := decide (x.vaBase ≤ va ∧ va < x.vaBase + x.size)

/-- A list kept within a size by dropping a free choice (R58, R59: replacement order is not visible). DESIGN CHOICE, log entry 2.
DESIGN CHOICE, log entry 11. -/
def dropOne {α : Type} (s : State) (cap : Nat) (l : List α) : State × List α :=
  if l.length < cap then (s, l)
  else let (k, s) := pick s l.length; (s, l.eraseIdx k)

/-- The set of a shard's cache that holds a page (R59): 16,384 entries in 8 ways (DESIGN CHOICE, log entry 11). -/
def shardSet (ctx vpn : Nat) : Nat := Config.shardSet ctx vpn % 2048

/-- A shard keeps a translation for a 64 KiB page in its set (R59). DESIGN CHOICE, log entry 11. -/
def shardInsert (s : State) (sock ctx va : Nat) (x : Xlat) : State :=
  let vpn := vpnOf va
  let rest := (shardOf s sock).entries.filter fun e => !(e.ctx == ctx && e.vpn == vpn)
  let (mates, others) := rest.partition fun e => shardSet e.ctx e.vpn == shardSet ctx vpn
  let (s, mates) := dropOne s 8 mates
  updShard s sock fun h => { h with entries := ⟨ctx, vpn, x⟩ :: mates ++ others }

/-- The entries of a TLB beside one that is used (R58): when the bits of all of a full TLB would be set, theirs are cleared.
DESIGN CHOICE, log entry 11. -/
def tlbAged (rest : List TlbEntry) : List TlbEntry :=
  if 127 ≤ rest.length && rest.all (·.recent) then rest.map fun e => { e with recent := false } else rest

/-- A full TLB without one entry that has not been used recently, which one being a free choice (R58). DESIGN CHOICE, log entry 11.
DESIGN CHOICE, log entry 2. -/
def tlbRoom (s : State) (rest : List TlbEntry) : State × List TlbEntry :=
  if rest.length < 128 then (s, rest)
  else
    let old := rest.filter fun e => !e.recent
    let victims := if old.isEmpty then rest else old
    let (k, s) := pick s victims.length
    (s, match victims[k]? with | some v => rest.erase v | none => rest)

/-- A core's TLB keeps a translation (R58). DESIGN CHOICE, log entry 11. -/
def tlbInsert (s : State) (core ctx : Nat) (x : Xlat) : State :=
  let rest := (coreOf s core).tlb.filter fun e => !(e.ctx == ctx && e.x.vaBase == x.vaBase && e.x.size == x.size)
  let (s, rest) := tlbRoom s rest
  updCore s core fun c => { c with tlb := ⟨ctx, x, true⟩ :: tlbAged rest }

/-- The entry of a TLB that serves an access (R58). -/
def tlbEntry (s : State) (core ctx va : Nat) (acc : Access) : Option TlbEntry :=
  (coreOf s core).tlb.find? fun e => e.ctx == ctx && e.x.holds va && serves e.x acc

/-- A TLB hit (R58). -/
def tlbFind (s : State) (core ctx va : Nat) (acc : Access) : Option Xlat := (tlbEntry s core ctx va acc).map (·.x)

/-- A TLB hit notes the use of its entry (R58). DESIGN CHOICE, log entry 11. -/
def tlbUse (s : State) (core ctx va : Nat) (acc : Access) : State :=
  match tlbEntry s core ctx va acc with
  | some e => if e.recent then s else
    updCore s core fun c => { c with tlb := { e with recent := true } :: tlbAged (c.tlb.erase e) }
  | none => s

/-- A shard hit (R59). -/
def shardFind (s : State) (sock ctx va : Nat) (acc : Access) : Option Xlat :=
  ((shardOf s sock).entries.find? fun e => e.ctx == ctx && e.vpn == vpnOf va && e.x.holds va && serves e.x acc).map (·.x)

/-- Whether an access that misses makes no page request (R57): the prefetches alone. -/
def Access.quiet : Access → Bool
  | .any => true
  | _ => false

/-! ### Page requests -/

/-- The first identifier from `n` that no outstanding request of a context holds (R64). -/
def freeId (used : List Nat) : Nat → Nat → Nat
  | 0, n => n
  | fuel + 1, n => if used.contains n then freeId used fuel ((n + 1) % 65536) else n

/-- Whether software has answered a request and its requester has acted on the answer: only its identifier is still kept, from a request that the
same group posts again (R65, R444). -/
def PageReq.closed (p : PageReq) : Bool := p.answer.isSome && p.told

/-- The closed requests of a group forgotten, once its replay has ended. -/
def forgetClosed (s : State) (q : XReq) : State :=
  { s with pageReqs := s.pageReqs.filter fun p => !(p.closed && p.ctx == q.ctx && p.req.who == q.who && p.req.vpn == q.vpn) }

/-- A page request made by a shard (R63): its identifier is a free choice among those not outstanding, and not the one that the group was replayed
from (R444); it waits to be posted. DESIGN CHOICE, log entry 2. -/
def newPageReq (s : State) (sock : Nat) (q : XReq) (stage ipa : Nat) : Nat × State :=
  let used := (s.pageReqs.filter fun p => p.ctx == q.ctx).map (·.id)
  let (k, s) := pick s 65536
  let id := freeId used (used.length + 1) k
  let s := forgetClosed s q
  (id, updShard { s with pageReqs := s.pageReqs ++ [⟨q.ctx, id, q, none, false⟩] } sock fun h => { h with toPost := h.toPost ++ [(q, id, stage, ipa)] })

end Sys2Proof.Machine
end

