-- ==== Sys2Proof/Machine/Reader.lean ====
section
/-! DEFINITION. Agents of the package that read memory piece by piece: what they know, what they lack, and the requests that they send
(R37, R52, R58 to R60, R63, R67, R69, R87, R92, R362). -/

namespace Sys2Proof.Machine

/-- What a reader lacks: a page's translation for an access, or a sector at its home. -/
inductive Need where
  | page (vpn va : Nat) (acc : Access)
  | sector (key : Nat) (attr : BitVec 2) (via : Via)
  deriving DecidableEq, Repr

/-- What can be said of something with what a reader knows: its value, what it lacks (nothing new where answers are on their way), or the fault of a
page with the address that faulted; `lost` where the shard cannot be reached. -/
inductive Look (α : Type) where
  | ok (a : α)
  | need (ns : List Need)
  | fault (sub addr : Nat)
  | lost

/-- What follows from something that can be said. -/
def Look.andThen {α β : Type} (l : Look α) (f : α → Look β) : Look β :=
  match l with
  | .ok a => f a
  | .need ns => .need ns
  | .fault n a => .fault n a
  | .lost => .lost

/-- A reader's place and knowledge. -/
structure Eye where
  sock : Nat
  core : Option Nat
  ctx : Nat
  know : Known

def Known.none : Known := ⟨[], []⟩

/-- Whether answers are on their way. -/
def Known.asking (k : Known) : Bool := (k.pages.any fun p => p.2.2 == .asked) || k.sectors.any fun e => e.2 == .asked

/-- Whether a page request has not been answered (R63). -/
def Known.parked (k : Known) : Bool := k.pages.any fun p => match p.2.2 with | .parked _ => true | _ => false

/-- The page of an address for an access: the core's TLB holds it, the shard has answered, or it has to be asked (R57 to R60). -/
def lookPage (s : State) (e : Eye) (acc : Access) (va : Nat) : Look Xlat :=
  if !canonical va then .fault 0 va
  else match e.core.bind fun c => tlbFind s c e.ctx va acc with
    | some x => .ok x
    | none => match e.know.pages.find? fun p => p.1 == vpnOf va && p.2.1 == acc with
      | none => .need [.page (vpnOf va) va acc]
      | some (_, _, .ok x _) => .ok x
      | some (_, _, .fault n) => .fault n va
      | some (_, _, .lost) => .lost
      | some (_, _, .asked) | some (_, _, .parked _) => .need [.page (vpnOf va) va acc]

/-- The subcode of an address that nothing backs (R9, R412, R423). -/
def unbacked (s : State) (pa : Nat) : Option Nat :=
  if pa < sysBase then (if dramTop s ≤ pa then some 7 else none)
  else if (destOf s pa).isNone || (isWindow pa && !regBit s (.suwin (pa / 2 ^ 36 % 256)) 63) then some 16 else none

/-- The 16 bytes of an address's sector, with their poison, under a translation. -/
def lookSector (s : State) (e : Eye) (x : Xlat) (va : Nat) : Look (BitVec 128 × Nat) :=
  let pa := x.pa va
  match unbacked s pa with
  | some n => .fault n va
  | none => match e.know.sectors.find? fun k => k.1 == pa / 16 with
    | none => .need [.sector (pa / 16) (if sysBase ≤ pa then 3 else x.attr) ⟨e.ctx, x.vaBase, x.size, s.xlatGen⟩]
    | some (_, .got v bad) => .ok (v, bad)
    | some (_, .asked) => .need []

/-- Whether a page's translation is lacking. -/
def Need.isPage : Need → Bool
  | .page .. => true
  | _ => false

/-- Several things looked at in order: all that they lack at once, but no more than one page at a time. -/
def lookAll {α β : Type} (f : α → Look β) : List α → Look (List β)
  | [] => .ok []
  | a :: r =>
    match f a with
    | .ok v => (lookAll f r).andThen fun vs => .ok (v :: vs)
    | .need ns =>
      if ns.any Need.isPage then .need ns
      else match lookAll f r with
        | .need ms => .need (ns ++ ms)
        | _ => .need ns
    | .fault n a => .fault n a
    | .lost => .lost

/-- The sectors of a range. -/
def lookSectors (s : State) (e : Eye) (acc : Access) (vas : List Nat) : Look (List (BitVec 128 × Nat)) :=
  lookAll (fun va => (lookPage s e acc va).andThen fun x => lookSector s e x va) vas

/-- The first addresses of the sectors of a range. -/
def sectorStarts (va n : Nat) : List Nat := (List.range ((va + n - 1) / 16 + 1 - va / 16)).map fun i => (va / 16 + i) * 16

/-- Bytes at a virtual address, with the poison of their sectors. -/
def lookBytes (s : State) (e : Eye) (acc : Access) (va n : Nat) : Look (List (Byte × Nat)) :=
  (lookSectors s e acc (sectorStarts va n)).andThen fun vs =>
    .ok (((vs.flatMap fun v => (leBytes 16 v.1.toNat).map fun b => (b, v.2)).drop (va % 16)).take n)

/-! ### Asking -/

/-- Needs that have not been asked for. -/
def Known.lacks (k : Known) (n : Need) : Bool :=
  match n with
  | .page vpn _ acc => !k.pages.any fun p => p.1 == vpn && p.2.1 == acc
  | .sector key _ _ => !k.sectors.any fun e => e.1 == key

/-- One read packet for the sectors of a line; the lane of each is its place in the line (R36). -/
def askLine (s : State) (sock : Nat) (who : Requester) (line : Nat) (ks : List (Nat × BitVec 2 × Via)) : State :=
  match ks with
  | (_, attr, _) :: _ => (destOf s (line * 128)).elim s fun dst =>
    send s { src := sock, dst := dst, relayed := false, planeB := planeOf (line * 128), who := who, attr := attr, pa := line * 128, sseq := 0
             msg := .rd (ks.map fun k => ⟨k.1 % 8, k.1 * 16, 16, 0, 0⟩) false, via := (ks.map fun k => k.2.2).dedup }
  | [] => s

/-- A translation request (R59, R60). -/
def askPageOf (s : State) (sock ctx : Nat) (who : Requester) (vpn va : Nat) (acc : Access) (wte : Nat := 0) : State :=
  send s { src := sock, dst := shardSocket s ctx vpn, relayed := false, planeB := planeOf vpn, who := who, attr := 0, pa := vpn, sseq := 0
           msg := .xreq ctx vpn va acc, wte := wte }

/-- What a reader knows once some needs have been asked for. -/
def Known.ask (k : Known) (ns : List Need) : Known :=
  ns.foldl (fun k n =>
    if !k.lacks n then k
    else match n with
      | .page vpn _ acc => { k with pages := k.pages ++ [(vpn, acc, .asked)] }
      | .sector key _ _ => { k with sectors := k.sectors ++ [(key, .asked)] }) k

/-- The first of each kind among some needs that have not been asked for. -/
def Known.fresh (k : Known) : List Need → List Need
  | [] => []
  | n :: r => if k.lacks n then n :: Known.fresh (k.ask [n]) r else Known.fresh k r

/-- The requests for needs that a reader has not asked for yet: each page to its shard, each line to its home. -/
def sendNeeds (s : State) (sock ctx : Nat) (who : Requester) (k : Known) (ns : List Need) : State :=
  let fresh := k.fresh ns
  let pages := fresh.filterMap fun n => match n with | .page vpn va acc => some (vpn, va, acc) | _ => none
  let sectors := fresh.filterMap fun n => match n with | .sector key attr via => some (key, attr, via) | _ => none
  let s := pages.foldl (fun s p => askPageOf s sock ctx who p.1 p.2.1 p.2.2) s
  ((sectors.map fun e => e.1 / 8).dedup).foldl (fun s l => askLine s sock who l (sectors.filter fun e => e.1 / 8 == l)) s

/-! ### Answers -/

/-- Sectors of a line learnt from a reply (R36, R87): one value for each. -/
def Known.learn (k : Known) (line : Nat) (vals : List LaneVal) : Known :=
  vals.foldl (fun k v =>
    { k with sectors := updWhere (fun e => e.1 == line * 8 + v.lane && e.2 == .asked) (fun e => (e.1, .got v.v v.poison)) k.sectors }) k

/-- What a shard's answer says of a page. -/
def pageAnswer (ans : XlatAnswer) (gen : Nat) : PageAnswer :=
  match ans with
  | .ok x => .ok x gen
  | .fault n => .fault n
  | .request id => .parked id
  | .lost => .lost

/-- A page that had been asked for, answered by its shard. -/
def Known.learnPage (k : Known) (vpn : Nat) (a : PageAnswer) : Known :=
  { k with pages := updWhere (fun p => p.1 == vpn && p.2.2 == .asked) (fun p => (p.1, p.2.1, a)) k.pages }

/-- A page to be asked for again: its answer is out of date (R69), or its request is to be retried (R65). -/
def Known.forget (k : Known) (f : Nat × Access × PageAnswer → Bool) : Known := { k with pages := k.pages.filter fun p => !f p }

/-- A page parked on a request that has been refused (R65, R70). -/
def Known.refuse (k : Known) (id : Nat) : Known :=
  { k with pages := updWhere (fun p => p.2.2 == .parked id) (fun p => (p.1, p.2.1, .fault 8)) k.pages }

/-- Whether an invalidation that has not completed covers a translation that was given before it (R68, R69). -/
def staleXlat (s : State) (ctx : Nat) (x : Xlat) (gen : Nat) : Bool :=
  decide (gen < s.xlatGen) && regBit s .xlatinv 63 && s.inval.covers ctx x

/-- The first virtual address of a page number (R51). -/
def vaOfVpn (vpn : Nat) : Nat := if vpn.testBit 38 then vpn * 65536 + (2 ^ 64 - 2 ^ 55) else vpn * 65536

/-- Whether an invalidation that has not completed covers a shard's answer of a page that was given before it: a translation, or a fault
(R68, R69). -/
def staleAnswer (s : State) (ctx vpn : Nat) (ans : XlatAnswer) (gen : Nat) : Bool :=
  match ans with
  | .ok x => staleXlat s ctx x gen
  | .fault _ => staleXlat s ctx { vaBase := vaOfVpn vpn, paBase := 0, size := 65536, attr := 0, r := false, w := false, x := false, dirty := false } gen
  | .request _ | .lost => false

/-- A shard's answer taken into what an agent knows; an answer that an invalidation has overtaken is discarded (R69). -/
def Known.answered (s : State) (ctx : Nat) (k : Known) (vpn : Nat) (ans : XlatAnswer) (gen : Nat) : Known :=
  if staleAnswer s ctx vpn ans gen then k.forget fun p => p.1 == vpn && p.2.2 == .asked else k.learnPage vpn (pageAnswer ans gen)

/-! ### Readers -/

/-- The number that stands for the dispatcher's unit in a requester: the service chiplet's first. -/
def dispatcherUnit : Nat := 992

/-- The unit of a reader (R35). -/
def Reader.unit (r : Reader) : Nat := r.core.getD dispatcherUnit

def Reader.eye (r : Reader) : Eye := ⟨r.sock, r.core, r.ctx, r.know⟩

def readerOf (s : State) (id : Nat) : Option Reader := s.readers.find? fun r => r.id == id

def updReader (s : State) (id : Nat) (f : Reader → Reader) : State := { s with readers := updWhere (fun r => r.id == id) f s.readers }

/-- A reader that is done, or whose agent is gone. -/
def dropReader (s : State) (id : Nat) : State := { s with readers := s.readers.filter fun r => r.id != id }

/-- A reader begun: on a core, or the dispatcher. -/
def newReader (s : State) (core : Option Nat) (ladle : Bool) (ctx : Nat) (goal : ReadGoal) : Nat × State :=
  let (id, s) := fresh s
  let sock := match core with | some c => socketOf c | none => 31
  (id, { s with readers := s.readers ++ [⟨id, sock, core, ladle, ctx, goal, .none⟩] })

/-- A reader asks for what it lacks. -/
def askReader (s : State) (r : Reader) (ns : List Need) : State :=
  updReader (sendNeeds s r.sock r.ctx (.reader r.unit r.id r.ladle) r.know ns) r.id fun x => { x with know := x.know.ask ns }

/-- A shard's answer at a reader: a translation enters the core's TLB (R58). -/
def readerXlat (s : State) (r : Reader) (vpn : Nat) (ans : XlatAnswer) (gen : Nat) : State :=
  let s := match r.core, ans with
    | some c, .ok x => if staleXlat s r.ctx x gen then s else tlbInsert s c r.ctx x
    | _, _ => s
  updReader s r.id fun x => { x with know := Known.answered s r.ctx x.know vpn ans gen }

end Sys2Proof.Machine
end

