-- ==== Sys2Proof/Machine/Launch.lean ====
section
/-! DEFINITION. Launch records and kernel headers, the checks of a launch, what a core can hold, and placing a team
(R120 to R122, R129, R131, R154, R161, R164, R207 to R209, R338 to R343, R361 to R363). -/

namespace Sys2Proof.Machine

/-! ### Records and headers -/

/-- The number in bytes [a, a + n) of a block. -/
def blockNum (b : List Byte) (a n : Nat) : Nat := leNat ((b.drop a).take n)

/-- A launch record's fields (R361). -/
def parseRecord (b : List Byte) : Record where
  image := blockNum b 0 8
  args := BitVec.ofNat 64 (blockNum b 8 8)
  gx := blockNum b 16 2
  gy := blockNum b 18 2
  gz := blockNum b 20 2
  tx := blockNum b 22 2
  ty := blockNum b 24 2
  tz := blockNum b 26 2
  w0 := BitVec.ofNat 16 (blockNum b 28 2)
  w1 := BitVec.ofNat 16 (blockNum b 30 2)
  w0val := blockNum b 32 8
  w1val := blockNum b 40 8
  cmp := BitVec.ofNat 16 (blockNum b 48 2)
  reserved := BitVec.ofNat 48 (blockNum b 50 6)
  tag := BitVec.ofNat 64 (blockNum b 56 8)

/-- The kind of a region by its code (R120). -/
def regionKind (c : Nat) : RegionKind := if c = 0 then .plain else if c = 1 then .tagged else .step

def regionRule (c : Nat) : Rule := if c = 0 then .sum else if c = 1 then .prior else .fault

def regionType (c : Nat) : EType := if c = 0 then .i32 else if c = 1 then .u32 else if c = 2 then .f32 else .bf16x2

/-- A region-table entry (R120). -/
def parseRegion (i : Nat) (e : Word64) : Region where
  idx := i
  size := fld e 63 51 * 128
  base := fld e 50 39 * 128
  kind := regionKind (fld e 38 37)
  rule := regionRule (fld e 36 35)
  etype := regionType (fld e 34 33)
  zero := bit e 32
  group := fld e 31 29

/-- The region entries of a header (R207). -/
def regionWordsOf (b : List Byte) : List Word64 := (List.range 16).map fun i => BitVec.ofNat 64 (blockNum b (128 + 8 * i) 8)

/-- A header's fields, with the bound presets found in the image (R207, R208). -/
def parseHeader (b : List Byte) (bounds : List Word64) : Header where
  version := blockNum b 4 1
  vregs := blockNum b 5 1
  sregs := blockNum b 6 1
  cohort := (blockNum b 7 1).testBit 0
  hasLadle := (blockNum b 7 1).testBit 1
  entry := blockNum b 8 8
  ladleEntry := blockNum b 16 8
  tx := blockNum b 24 2
  ty := blockNum b 26 2
  tz := blockNum b 28 2
  ladleMem := blockNum b 32 2
  accTiles := blockNum b 34 1
  collQuota := blockNum b 35 1
  timelines := BitVec.ofNat 16 (blockNum b 36 2)
  groups := BitVec.ofNat 8 (blockNum b 38 1)
  cohortGroups := BitVec.ofNat 8 (blockNum b 39 1)
  groupMasks := (List.range 7).map fun i => BitVec.ofNat 32 (blockNum b (40 + 4 * i) 4)
  liveOff := blockNum b 68 4
  liveCount := blockNum b 72 2
  bounds := bounds
  boundAct := BitVec.ofNat 32 (blockNum b 80 4)
  imageSize := blockNum b 84 4
  regions := ((regionWordsOf b).zipIdx.filter fun e => fld e.1 63 51 != 0).map fun e => parseRegion e.2 e.1

/-- The bound presets of an image without a table: every register from −∞ to +∞ (R208). -/
def defaultBounds : List Word64 := List.replicate 16 0x7F800000FF800000#64

/-- A count that lies in a range by steps of 8 (R148). -/
def stepsOf8 (lo hi n : Nat) : Bool := decide (lo ≤ n ∧ n ≤ hi) && n % 8 == 0

/-- The rules of one used region entry by itself (R121). -/
def regionEntryOk (groups : BitVec 8) (e : Word64) : Bool :=
  decide (fld e 63 51 + fld e 50 39 ≤ 4096) && fld e 38 37 != 3 && fld e 28 0 == 0
    && (if fld e 38 37 = 2 then fld e 36 35 != 3 && bit groups (fld e 31 29) else fld e 36 29 == 0)

/-- Whether two used entries overlap. -/
def regionsOverlap (a b : Word64) : Bool :=
  decide (fld a 50 39 < fld b 50 39 + fld b 63 51 ∧ fld b 50 39 < fld a 50 39 + fld a 63 51)

/-- Whether some pair of a list of entries overlaps. -/
def anyOverlap : List Word64 → Bool
  | [] => false
  | a :: r => r.any (regionsOverlap a) || anyOverlap r

/-- Bytes of step memory that a team's regions consume (R122). -/
def footprint (h : Header) : Nat := (h.regions.map fun r => if r.kind = .step then r.size * 5 / 2 else r.size).sum

/-- Rules of the header by itself (R121, R122, R129, R131, R207 to R209) for a grid of `teams` teams. A table that is not aligned to 8 (R207), a
ladle entry without its flag and a mask of a group that is not declared break them too. DEDUCED, log entry 51. -/
def headerOk (b : List Byte) (h : Header) (teams : Nat) : Bool :=
  let used := (regionWordsOf b).filter fun e => fld e 63 51 != 0
  let w := warpCount h
  let named := fun (g : Nat) => (h.groupMasks[g - 1]?).getD 0
  let entryOk := fun (e : Nat) => decide (256 ≤ e ∧ e < h.imageSize) && legalPc e
  blockNum b 0 4 == 0x31465244 && decide (1 ≤ h.version ∧ h.version ≤ 3) && stepsOf8 16 128 h.vregs && stepsOf8 8 64 h.sregs
    && decide (blockNum b 7 1 < 4) && entryOk h.entry && (if h.hasLadle then entryOk h.ladleEntry else h.ladleEntry == 0)
    && h.tx * h.ty * h.tz == 32 * w && decide (1 ≤ w ∧ w ≤ 32) && blockNum b 30 2 == 0
    && decide (h.ladleMem ≤ 64 ∧ h.accTiles ≤ 64 ∧ h.collQuota ≤ 16) && bit h.groups 0 && !bit h.cohortGroups 0
    && (List.range 7).all (fun i =>
      let m := named (i + 1)
      if bit h.groups (i + 1) then m != 0 && decide (m.toNat < 2 ^ w) && (!bit h.cohortGroups (i + 1) || h.cohort)
        && (!bit h.cohortGroups (i + 1) || decide (teams * 32 * popCount m.toNat 32 ≤ 65536))
      else m == 0)
    && h.liveOff % 8 == 0 && decide (h.liveCount ≤ 4096) && (h.liveCount == 0 || decide (h.liveOff + 24 * h.liveCount ≤ h.imageSize))
    && blockNum b 74 2 == 0 && blockNum b 76 4 % 8 == 0 && (blockNum b 76 4 == 0 || decide (blockNum b 76 4 + 128 ≤ h.imageSize))
    && ((b.drop 88).take 40).all (· == 0) && used.all (regionEntryOk h.groups) && !anyOverlap used && decide (footprint h ≤ 512 * 1024)

/-- Number of warps of a team in a quadrant (R154). -/
def quadrantWarps (w q : Nat) : Nat := (w + 3 - q) / 4

/-- Whether an empty core of the package holds a team, and a cohort grid fits the live compute chiplets (R154, R341, R343). -/
def fitsEmpty (s : State) (h : Header) (teams : Nat) : Bool :=
  (List.range 4).all (fun q => decide (quadrantWarps (warpCount h) q ≤ min 16 (131072 / (128 * h.vregs))))
    && (!h.cohort || decide (teams ≤ 32 * popCount (liveMask s) 12))

/-- The domain of a queue (R357). -/
def queueDomain (s : State) (q : Nat) : Nat := regFld s (.qcfg q) 55 50

/-- A wait or completion field (R361). -/
def fieldQueue (w : BitVec 16) : Nat := fld w 10 0

/-- What the checks of R362 give: the first that fails, or the header. -/
inductive LaunchCheck where
  | bad (n : Nat)
  | ok (h : Header)
  deriving DecidableEq, Repr

/-- The first check of R362: reserved fields, the grid counts, the number of teams. -/
def recordFine (r : Record) : Bool :=
  fld r.w0 14 11 == 0 && fld r.w1 14 11 == 0 && fld r.cmp 14 11 == 0 && r.reserved == 0
    && decide (0 < r.gx * r.gy * r.gz ∧ r.gx * r.gy * r.gz < 2 ^ 32)

/-- The bytes of a run of memory that a launch reads, none of them poison. -/
def cleanBytes (bs : List (Byte × Nat)) : Option (List Byte) := if bs.all fun b => b.2 == 0 then some (bs.map (·.1)) else none

/-- What an agent can say of a record's image (R362): header, region entries and bound table, read as data, each page with right r. A header that
breaks R209 names no table to read (DEDUCED, log entry 51). -/
def imageLook (s : State) (e : Eye) (r : Record) : Look ImageRead :=
  if r.image % 256 != 0 then .ok .bad
  else match lookBytes s e .read r.image 256 with
    | .need ns => .need ns
    | .ok bs => match cleanBytes bs with
      | none => .ok .bad
      | some b =>
        let h := parseHeader b defaultBounds
        let fine := headerOk b h (r.gx * r.gy * r.gz) && r.tx == h.tx && r.ty == h.ty && r.tz == h.tz
        let off := blockNum b 76 4
        if off = 0 || !fine then .ok (.read h fine true)
        else match lookBytes s e .read (r.image + off) 128 with
          | .need ns => .need ns
          | .ok ts => match cleanBytes ts with
            | some t => .ok (.read (parseHeader b ((List.range 16).map fun i => BitVec.ofNat 64 (blockNum t (8 * i) 8))) fine true)
            | none => .ok (.read h fine false)
          | _ => .ok (.read h fine false)
    | _ => .ok .bad

/-- The checks of R362 in order, for a record of a domain whose image has been read. A child's completion field is ignored (R316). -/
def checkRecord (s : State) (domain : Nat) (child : Bool) (r : Record) (img : ImageRead) : LaunchCheck :=
  let foreign := fun (w : BitVec 16) => bit w 15 && queueDomain s (fieldQueue w) != domain
  if !recordFine r then .bad 1
  else match img with
    | .bad => .bad 2
    | .read h fine table =>
      if !table then .bad 2
      else if !fine then .bad 3
      else if foreign r.w0 || foreign r.w1 || (!child && foreign r.cmp) then .bad 4
      else if !fitsEmpty s h (r.gx * r.gy * r.gz) then .bad 5
      else .ok h

/-- The launch-fault record of a refused launch (R391, R392). -/
def launchFault (s : State) (queue domain : Nat) (check : Nat) (tag : Word64) : State :=
  logRecord s { cause := 28, sub := check, agent := 4, queue := queue, domain := domain, socket := 31, gridid := 0xFFFFFFFF
                tag := tag.toNat, time := timeAt s 31 }

/-- The first number from `n` that no grid holds; `fuel` bounds the search by the number of grids (R339). -/
def firstFree (used : List Nat) (top : Nat) : Nat → Nat → Nat
  | 0, n => n
  | fuel + 1, n => if used.contains n then firstFree used top fuel ((n + 1) % top) else n

/-- A number that no resident, waiting or saved grid holds, never 0xFFFF_FFFF (R339, R402). -/
def newGridId (s : State) : Nat × State :=
  let (k, s) := pick s 0xFFFFFFFF
  let used := (s.grids ++ s.saves.flatMap (·.grids)).map (·.id)
  (firstFree used 0xFFFFFFFF (used.length + 1) k, s)

/-- A grid accepted (R339, R340, R367). -/
def addGrid (s : State) (r : Record) (h : Header) (queue prio cls domain vf : Nat) (boost : Bool) (depth : Nat)
    (parent : GridParent) (parentGrid : Option Nat) : State × Nat :=
  let (id, s) := newGridId s
  let (o, s) := fresh s
  let g : Grid :=
    { id := id, queue := queue, priority := prio, cls := cls, domain := domain, vf := vf, boost := boost, depth := depth
      parent := parent, parentGrid := parentGrid, launch := r, hdr := h, nextTeam := 0, retired := 0, order := o
      since := s.time, blocking := false, terminated := false, faulted := none }
  ({ s with grids := s.grids ++ [g] }, id)

/-- Teams of a grid. -/
def gridTeams (g : Grid) : Nat := g.launch.gx * g.launch.gy * g.launch.gz

/-! ### Timelines -/

/-- A team without the timeline `tl` in its mask does not have it (R161). -/
def hasTimeline (t : Team) (tl : Nat) : Bool := bit t.hdr.timelines tl

def timelineOf (t : Team) (tl : Nat) : Timeline := (t.tls[tl]?).getD ⟨0, 0, [], []⟩

def setTimeline (t : Team) (tl : Nat) (x : Timeline) : Team := { t with tls := t.tls.set tl x }

/-- The next number on a timeline (R84). -/
def takeNumber (s : State) (team tl : Nat) : State × Nat :=
  match teamOf s team with
  | none => (s, 0)
  | some t =>
    let n := (timelineOf t tl).issued + 1
    (updTeam s team fun t => setTimeline t tl { timelineOf t tl with issued := n }, n)

/-- The completed count after some finished operations (R84). -/
def advanceDone : Nat → Nat → List Nat → Nat × List Nat
  | 0, c, d => (c, d)
  | fuel + 1, c, d => if d.contains (c + 1) then advanceDone fuel (c + 1) (d.filter (· != c + 1)) else (c, d)

/-- An operation of a timeline is complete, with or without a fault (R84, R393). -/
def completeOp (s : State) (team tl n : Nat) (fault : Bool) : State :=
  updTeam s team fun t =>
    let x := timelineOf t tl
    let (c, d) := advanceDone (x.done.length + 1) x.completed (x.done ++ [n])
    setTimeline t tl { x with completed := c, done := d, faulted := if fault then x.faulted ++ [n] else x.faulted }

/-- The fault mark: the lowest faulted number (R393). -/
def faultMark (x : Timeline) : Option Nat := x.faulted.min?

/-! ### Placement -/

/-- Teams that hold resources of a core. -/
def coreTeams (s : State) (g : Nat) : List Team := s.teams.filter fun t => t.core == g

/-- Sum of a resource over the teams of a core. -/
def coreUse (s : State) (g : Nat) (f : Header → Nat) : Nat := ((coreTeams s g).map fun t => f t.hdr).sum

/-- The warps, or ladle contexts, of a core that have not ended (R313): an ended one has freed its slot and its file space. -/
def liveAgents (s : State) (g : Nat) (ladle : Bool) : List (Agent × Team) :=
  s.agents.filterMap fun a => match teamOf s a.key.team with
    | some t => if t.core == g && !a.ended && isLadle a.key == ladle then some (a, t) else none
    | none => none

/-- Whether a core accepts a team now (R95, R97, R122, R130, R147, R154, R155, R161, R341, R397, R411). -/
def coreAccepts (s : State) (g : Nat) (h : Header) (domain : Nat) : Bool :=
  let r := Reg.coreDom g
  let use := coreUse s g
  decide (g < 384) && isLive s (socketOf g) && !socketFailed s (socketOf g) && s.released.getLsbD (socketOf g)
    && !s.scanFail.getLsbD (socketOf g)
    && regBit s r 63 && !regBit s r 62 && regFld s r 5 0 == domain
    && (List.range 4).all (fun q =>
      let ws := (liveAgents s g false).filter fun e => e.1.key.idx % 4 == q
      decide (ws.length + quadrantWarps (warpCount h) q ≤ 16)
        && decide ((ws.map fun e => 128 * e.2.hdr.vregs).sum + quadrantWarps (warpCount h) q * 128 * h.vregs ≤ 131072))
    && decide (use footprint + footprint h ≤ 512 * 1024)
    && decide (use (·.collQuota) + h.collQuota ≤ 16)
    && decide (use (·.accTiles) + h.accTiles ≤ 64)
    && decide (use (fun x => popCount x.timelines.toNat 16) + popCount h.timelines.toNat 16 ≤ 16)
    && (!h.hasLadle || (decide ((liveAgents s g true).length < 8)
      && decide (use (fun x => if x.hasLadle then x.ladleMem else 0) + h.ladleMem ≤ 64)))

/-- The bound actions loaded at placement: a code of 3 becomes 0 (R208). -/
def presetActions (act : BitVec 32) : Word64 :=
  (List.range 16).foldl (fun (w : Word64) i =>
    let c := fld act (2 * i + 1) (2 * i)
    if c = 3 then w else setFld w (33 + 2 * i) (32 + 2 * i) c) 0

/-- A team as it is placed (R147, R159, R161, R164, R170). -/
def newTeam (uid : Nat) (g : Grid) (teamid core : Nat) : Team where
  uid := uid
  grid := g.id
  teamid := teamid
  core := core
  hdr := g.hdr
  present := []
  stepPoison := []
  next := []
  nextPoison := []
  tags := []
  copyCount := []
  coll := []
  refilling := []
  ladleMem := []
  acc := []
  accPoison := []
  bnd := g.hdr.bounds
  bndflags := presetActions g.hdr.boundAct
  tls := List.replicate 16 ⟨0, 0, [], []⟩
  prefb := []
  tagWaits := []
  heldStx := []
  seed := BitVec.ofNat 64 ((g.id * 2 ^ 32) ^^^ teamid)
  boundaries := 0
  terminated := false
  saved := false

/-- An agent as it is placed at a PC, with s0 to s2 written by the launch unit (R164, R363). -/
def newAgent (key : AgentKey) (slot entry : Nat) (g : Grid) (cycle : Nat) : Agent where
  key := key
  slot := slot
  v := []
  s := sset 0 (sset 0 (sset 0 [] 0 g.launch.args)
    1 (BitVec.ofNat 64 (g.launch.gx + g.launch.gy * 2 ^ 16 + g.launch.gz * 2 ^ 32))) 2 (BitVec.ofNat 64 g.launch.image)
  p := []
  k := []
  vPoison := []
  sPoison := []
  lpc := []
  entry := entry
  lanes := []
  idle := []
  rounding := []
  crcause := 0
  cri := 0
  crpc := 0
  accsat := false
  fpstat := 0
  rmode := 0
  regions := []
  issueCount := 0
  issues := 0
  addrTable := []
  latch := none
  pend := []
  vars := []
  deferred := []
  paths := []
  pathTimes := []
  xpaths := []
  marker := false
  markerAcq := none
  hold := none
  absent := []
  adv := []
  fetchBuf := []
  needLine := none
  nextIssue := cycle
  waitCount := 0
  lastIssue := 0
  gaveWay := false
  yielded := 0
  stepFences := 0
  stepArrived := false
  stepSent := none
  redtCount := []
  stuck := 0
  debugPass := []
  live := none
  ended := false

/-- Slots in use on a core, by quadrant for warps and by context for ladles (R313). -/
def usedSlots (s : State) (core : Nat) (ladle : Bool) : List Nat := (liveAgents s core ladle).map (·.1.slot)

/-- The lowest slot not in use among `n` from `base`; any free slot is allowed (R341). DEDUCED, log entry 25. -/
def lowestSlot (used : List Nat) (base n : Nat) : Nat := (((List.range n).map (base + ·)).find? fun x => !used.contains x).getD base

/-- An agent added to a core in a free slot. -/
def addAgent (s : State) (core : Nat) (a : Agent) : State :=
  let slot := if isLadle a.key then lowestSlot (usedSlots s core true) 0 8
    else lowestSlot (usedSlots s core false) (16 * (a.key.idx % 4)) 16
  { s with agents := s.agents ++ [{ a with slot := slot }] }

/-- A core's live flag follows its teams, jobs and copies (R397). -/
def coreBusy (s : State) (g : Nat) : Bool :=
  !(coreTeams s g).isEmpty || !(coreOf s g).jobs.isEmpty
    || s.engines.any fun e => e.1 / 8 == socketOf g && e.2.queue.any fun c =>
      s.teams.any fun t => t.uid == c.issuer.team && t.core == g

def refreshBusy (s : State) (g : Nat) : State := regSetBit s (.coreDom g) 61 (coreBusy s g)

/-- A team placed on a core with its agents (R95, R164, R341, R363). -/
def placeTeam (s : State) (g : Grid) (teamid core : Nat) : State :=
  let (uid, s) := fresh s
  let s := { s with teams := s.teams ++ [newTeam uid g teamid core] }
  let cyc := cycleOf s core
  let mk := fun (idx entry : Nat) => newAgent ⟨uid, idx⟩ 0 (g.launch.image + entry) g cyc
  let s := (List.range (warpCount g.hdr)).foldl (fun s w => addAgent s core (mk w g.hdr.entry)) s
  let s := if g.hdr.hasLadle then addAgent s core (mk 32 g.hdr.ladleEntry) else s
  refreshBusy s core

end Sys2Proof.Machine
end

