-- ==== Sys2Proof/Machine/Access.lean ====
section
/-! DEFINITION. Global memory accesses of an agent: the waiting table, lanes and page groups, the L1 and the address table, requests and
what their replies do (R40, R41, R58, R63, R66, R74 to R76, R162, R163, R217 to R223, R238, R239, R412). -/

namespace Sys2Proof.Machine

/-- Whether an operation is posted: it gives no register result (R76, R226). -/
def posted : MemOp → Bool
  | .store | .red _ _ | .cwb | .icinv => true
  | _ => false

/-- The right that an operation asks for (R57). -/
def accessOf : MemOp → Access
  | .load _ _ | .ldix _ _ | .bank _ _ => .read
  | .store | .red _ _ => .write
  | .atom op _ => if op = 13 then .read else .atomic
  | .cwb => .either
  | .icinv => .readOrFetch

/-- The context of an agent's team (R56). -/
def ctxOf (s : State) (k : AgentKey) : Nat :=
  match teamOf s k.team with
  | some t => match gridOf s t.grid with | some g => g.vf | none => 0
  | none => 0

/-- The core of an agent's team. -/
def coreOfAgent (s : State) (k : AgentKey) : Nat := match teamOf s k.team with | some t => t.core | none => 0

/-! ### Events and results of an entry -/

/-- A deferred memory event of one lane of an instruction (R70, R218). -/
def laneEvent (cause sub pc va lane : Nat) : Event :=
  { cause := cause, sub := sub, cri := BitVec.ofNat 32 (2 ^ lane), pc := pc, deferred := true, info2 := 0, addr := va }

def deferLane (s : State) (e : Entry) (cause sub : Nat) (r : LaneReq) : State :=
  deferEvent s e.owner e.issue r.lane (laneEvent cause sub e.pc r.va r.lane)

/-- Bits of an operation's register result. -/
def resultWidth (e : Entry) : Nat :=
  match e.op with
  | .atom _ w64 | .bank _ w64 => if w64 then 64 else 32
  | _ => if e.size = 16 then 128 else if e.size = 8 then 64 else 32

/-- A lane's value as the register result of an operation (R216, R237). -/
def resultValue (e : Entry) (x : Nat) : Nat :=
  match e.op with
  | .load sx _ | .ldix _ sx => (loadResult e.size sx x).2
  | _ => x

/-- Poison reaches a lane of an operation: loads and operations at another core's bank mark the destination, ATOM, LDIX and posted forms
defer the event (R218, R241, R389). DEDUCED, log entry 17. -/
def poisonLane (s : State) (e : Entry) (sub : Nat) (r : LaneReq) : State :=
  let mark := fun (s : State) => addLoad s e.owner e.issue (poisonMarks (resultWidth e) e.dest r.lane sub)
  match e.op with
  | .load _ _ | .bank _ _ => mark s
  | .atom _ _ => deferLane (mark s) e 19 sub r
  | _ => deferLane s e 19 sub r

/-- A translation fault of a lane (R70): deferred; subcode 9 is delivered as consumed poison too (DEDUCED, log entry 17). -/
def faultLane (s : State) (e : Entry) (sub : Nat) (r : LaneReq) : State :=
  let s := deferLane s e 18 sub r
  if sub = 9 then poisonLane s e 0 r else s

/-! ### L1 and address table -/

/-- An unexpired L1 line (R74). -/
def l1Line (s : State) (core line : Nat) : Option L1Line :=
  (coreOf s core).l1.find? fun l => l.line == line && decide (coreTime s core < l.expiry)

/-- Bytes of an L1 hit: every sector of the access is held (R74). -/
def l1Read (s : State) (core pa n : Nat) : Option (List Byte) :=
  match l1Line s core (pa / 128) with
  | none => none
  | some l =>
    if (List.range n).all fun i => bit l.sectors ((pa + i) / 16 % 8) then
      some ((List.range n).map fun i => sget 0 l.data (pa + i))
    else none

/-- A store updates the bytes of a present line (R75). -/
def l1Store (s : State) (core pa : Nat) (bs : List Byte) : State :=
  let put := fun (l : L1Line) =>
    { l with data := bs.zipIdx.foldl (fun m e => if bit l.sectors ((pa + e.2) / 16 % 8) then sset 0 m (pa + e.2) e.1 else m) l.data }
  updCore s core fun c => { c with l1 := updWhere (fun l => l.line == pa / 128) put c.l1 }

/-- ATOM and RED drop the line (R75). -/
def l1Drop (s : State) (core pa : Nat) : State :=
  updCore s core fun c => { c with l1 := c.l1.filter fun l => l.line != pa / 128 }

/-- Replies to requests that left before a store, ATOM or RED to their line are not installed (R75); a prefetch likewise. -/
def l1Overtake (s : State) (core pa : Nat) : State :=
  let line := pa / 128
  let left := fun (r : LaneReq) => r.sent && match r.x1 with | some x => x.pa r.va / 128 == line | none => false
  let mark := fun (e : Entry) =>
    if e.noInstall.contains line || !e.reqs.any left then e else { e with noInstall := e.noInstall ++ [line] }
  updCore s core fun c => { c with waiting := c.waiting.map mark, prefs := updWhere (fun p => p.1 == line) (fun p => (p.1, true)) c.prefs }

/-- Lines of 128 bytes in 256 KiB (R3). DESIGN CHOICE, log entry 11. -/
def l1Capacity : Nat := 2048

/-- A reply installs its sectors under its lease (R74). DESIGN CHOICE, log entry 11. -/
def l1Install (s : State) (core line expiry : Nat) (cells : List Host.Cell) : State :=
  let old := (coreOf s core).l1.find? fun l => l.line == line
  let sectors := cells.foldl (fun (m : BitVec 8) c => setBit m (c.1 / 16 % 8) true) 0
  match old with
  | some _ =>
    let put := fun (l : L1Line) =>
      let live := decide (coreTime s core < l.expiry)
      { l with
        expiry := if live then min l.expiry expiry else expiry
        sectors := if live then l.sectors ||| sectors else sectors
        data := cells.foldl (fun m e => sset 0 m e.1 e.2) (if live then l.data else []) }
    updCore s core fun c => { c with l1 := updWhere (fun l => l.line == line) put c.l1 }
  | none =>
    let (s, rest) := dropOne s l1Capacity (coreOf s core).l1
    updCore s core fun c => { c with l1 := ⟨line, expiry, sectors, cells.foldl (fun m e => sset 0 m e.1 e.2) []⟩ :: rest }

/-- Address-table entries of a core's agents that some test meets are removed (R163). -/
def dropAddrs (s : State) (core : Nat) (hit : AgentKey → AddrEntry → Bool) : State :=
  let us := (s.teams.filter fun t => t.core == core).map (·.uid)
  let cut := fun (a : Agent) => { a with addrTable := a.addrTable.filter fun e => !hit a.key e }
  { s with agents := updWhere (fun a => us.contains a.key.team && !a.addrTable.isEmpty) cut s.agents }

/-- An LDA of a core that is still under way makes no entry once a store overlaps one of its lanes (R75, R163). DEDUCED, log entry 41. -/
def spoilLda (s : State) (core : Nat) (hit : Entry → LaneReq → Bool) : State :=
  let isLda := fun (e : Entry) => match e.op with | .load _ lda => lda | _ => false
  updCore s core fun c => { c with waiting := updWhere (fun e => isLda e && e.reqs.any (hit e)) (fun e => { e with ldaOk := false }) c.waiting }

/-- Removal by virtual address at issue, in the issuer's context (R163). -/
def dropAddrsVa (s : State) (core ctx va n : Nat) : State :=
  spoilLda (dropAddrs s core fun k e => ctxOf s k == ctx && e.lanes.any fun l => rangesMeet l.2.1 e.size va n) core
    fun e r => ctxOf s e.owner == ctx && rangesMeet r.va e.size va n

/-- Removal by physical address when the access leaves (R163). -/
def dropAddrsPa (s : State) (core pa n : Nat) : State :=
  spoilLda (dropAddrs s core fun _ e => e.lanes.any fun l => rangesMeet l.2.2 e.size pa n) core
    fun e r => match r.x1 with | some x => rangesMeet (x.pa r.va) e.size pa n | none => false

/-! ### Entries -/

/-- Waiting-table entries of an agent on its core. -/
def entriesOf (s : State) (core : Nat) (k : AgentKey) : List Entry := (coreOf s core).waiting.filter fun e => e.owner == k

def entryOf (s : State) (core id : Nat) : Option Entry := (coreOf s core).waiting.find? fun e => e.id == id

def updEntry (s : State) (core id : Nat) (f : Entry → Entry) : State :=
  updCore s core fun c => { c with waiting := updWhere (fun e => e.id == id) f c.waiting }

/-- The numbers of the waiting-table entries of a core that are taken: by accesses, by remote READL, and by accesses and tagged stores whose release
runs first (R40). -/
def tableTaken (s : State) (core : Nat) : List Nat :=
  let us := (s.teams.filter fun t => t.core == core).map (·.uid)
  let held := fun (a : Agent) => match a.hold with | some (.fence f) => f.slot.toList | _ => []
  ((coreOf s core).waiting.map (·.slot)) ++ (s.agents.filter fun a => us.contains a.key.team).flatMap fun a =>
    a.vars.filterMap (·.table) ++ held a ++ a.adv.filterMap (·.slot)

/-- Whether the waiting table takes one more entry of an agent: 16 of 512 are the ladle's (R40). -/
def tableFree (s : State) (core : Nat) (ladle : Bool) : Bool :=
  decide (((tableTaken s core).filter fun n => decide (496 ≤ n) == ladle).length < if ladle then 16 else 496)

/-- The number of the waiting-table entry that an agent's next instruction takes: the lowest free one of its kind, the ladle's being the last 16
(R35, R40). DESIGN CHOICE, log entry 48. -/
def tableNext (s : State) (core : Nat) (ladle : Bool) : Nat :=
  let taken := tableTaken s core
  if ladle then firstFree taken 512 16 496 else firstFree taken 496 496 0

/-- The number that a new address-table entry takes (R162): that of the destination's entry, the lowest free one, or that of the entry with
the earliest expiry, the lowest-numbered among equals. DESIGN CHOICE, log entry 45. -/
def addrNumber (table : List AddrEntry) (dest : Opnd) : Nat :=
  match table.find? fun y => y.dest == dest with
  | some y => y.num
  | none => match (List.range 16).find? fun n => !table.any fun y => y.num == n with
    | some n => n
    | none =>
      let first := ((table.map (·.expiry)).min?).getD 0
      (((table.filter fun y => y.expiry == first).map (·.num)).min?).getD 0

/-- The address-table entry of a finished LDA (R162); an LDA that makes none leaves its destination's entry (DESIGN CHOICE, log entry 45).
DEDUCED, log entry 41. -/
def makeAddr (s : State) (e : Entry) : State :=
  match e.op with
  | .load _ true =>
    match e.ldaOk, e.expiry with
    | true, some x =>
      updAgent s e.owner fun a =>
        let n := addrNumber a.addrTable e.dest
        let new : AddrEntry := ⟨n, e.dest, e.size, e.reqs.map fun r => (r.lane, r.va, match r.x1 with | some t => t.pa r.va | none => 0), x, false⟩
        { a with addrTable := a.addrTable.filter (fun y => y.num != n) ++ [new] }
    | _, _ => s
  | _ => s

/-- Whether a 64-byte line at a physical address lies in some ranges. -/
def inRanges (rs : List (Nat × Nat)) (pa : Nat) : Bool := rs.any fun r => decide (r.1 ≤ pa ∧ pa < r.1 + r.2)

/-- A fetch of a core that has asked for a sector of some physical ranges: what it was told may be older than the drop (R94). -/
def fetchesIn (rs : List (Nat × Nat)) (core : Nat) (r : Reader) : Bool :=
  r.core == some core && (match r.goal with | .line .. => true | _ => false) && r.know.sectors.any fun k => inRanges rs (k.1 * 16 / 64 * 64)

/-- Fetches of a core that read some physical ranges begin again, so that no answer under way to them enters a cache (R94, R227). -/
def restartFetches (s : State) (rs : List (Nat × Nat)) (core : Nat) : State :=
  (s.readers.filter (fetchesIn rs core)).foldl (fun s r =>
    let (id, s) := fresh s
    { s with readers := updWhere (fun x => x.id == r.id) (fun x => { x with id := id, know := .none }) s.readers }) s

/-- Instruction lines of some physical ranges dropped from a core's L0 and from the fetch buffers of its agents, those on their way too (R92, R94,
R227). -/
def dropLines (s : State) (rs : List (Nat × Nat)) (core : Nat) : State :=
  let us := (s.teams.filter fun t => t.core == core).map (·.uid)
  let s := updCore s core fun c => { c with l0 := c.l0.filter fun l => !inRanges rs l.pa }
  let cut := fun (a : Agent) => { a with fetchBuf := a.fetchBuf.filter fun l => !inRanges rs l.pa }
  restartFetches { s with agents := updWhere (fun a => us.contains a.key.team && !a.fetchBuf.isEmpty) cut s.agents } rs core

/-- An ICINV whose commits and acknowledgements are all in completes; at team scope its lines are dropped then (R227). -/
def icinvCheck (s : State) (k : AgentKey) (core : Nat) : State :=
  match agentOf s k with
  | none => s
  | some a => match a.hold with
    | some (.icinv q) =>
      let walking := (coreOf s core).waiting.any fun e => e.owner == k && e.op == .icinv
      if walking || q.commits != 0 || !q.chiplets.isEmpty then s
      else
        let s := if q.device then s else dropLines s q.ranges core
        updAgent s k fun a => { a with hold := none }
    | _ => s

/-- An entry with nothing left to wait for is freed (R40, R58). -/
def finishEntry (s : State) (core id : Nat) : State :=
  match entryOf s core id with
  | none => s
  | some e =>
    if e.groups.isEmpty && e.expected == 0 && e.reqs.all (·.sent) then
      let s := makeAddr (updCore s core fun c => { c with waiting := c.waiting.filter fun x => x.id != id }) e
      if e.op = .icinv then icinvCheck s e.owner core else s
    else s

/-- A path put among some paths. -/
def addPath (ps : List Path) (p : Path) : List Path := if ps.contains p then ps else ps ++ [p]

/-- Whether a release of a scope covers a path: device scope leaves the system paths (R78). DEDUCED, log entry 41. -/
def scopeHas (scope : BitVec 2) (p : Path) : Bool := scope == 3 || decide (p.dst < 28)

/-- A path on which an issue of an agent has sent, noted for the next fence (R78) and for the releases beside the agent that cover the issue
(R238, R326). -/
def notePath (s : State) (k : AgentKey) (issue : Nat) (p : Path) : State :=
  updAgent s k fun a =>
    { a with
      paths := addPath a.paths p
      adv := updWhere (fun o => !o.sent && decide (issue < o.upto) && scopeHas o.scope p) (fun o => { o with paths := addPath o.paths p }) a.adv }

/-- A completion time returned to an agent on a path (R41). -/
def notePathTime (s : State) (k : AgentKey) (p : Path) (t : Nat) : State :=
  updAgent s k fun a => { a with pathTimes := supd 0 a.pathTimes (pathKey p) (max t) }

/-- A lane's returned value, which is written at some time up to the marker (R204). -/
def landLane (s : State) (e : Entry) (lane x : Nat) : State :=
  addLoad s e.owner e.issue (regWrites (resultWidth e) e.dest lane (resultValue e x))

/-- The host is declared lost (R415). -/
def hostLost (s : State) : Bool := regBit s .hostcfg 31

/-- Why an access ends without a request, as a cause and a subcode: an address that no DRAM backs, which a page may straddle (R9), or a system
range that does not take it (R389, R412, R415, R423, R238, R239). -/
def systemStop (s : State) (pa : Nat) (atomic : Bool) : Option (Nat × Nat) :=
  if pa < sysBase then (if dramTop s ≤ pa then some (18, 7) else none)
  else if (destOf s pa).isNone then some (18, 16)
  else if isWindow pa && !regBit s (.suwin (pa / 2 ^ 36 % 256)) 63 then some (18, 16)
  else if atomic && (isHostMem pa || isAperture pa) then some (18, 19)
  else if isHostMem pa && hostLost s then some (19, 2)
  else none

/-- One packet of an entry's lanes in one line (R217). -/
def requestPacket (core : Nat) (who : Requester) (dst : Nat) (attr : BitVec 2) (pa : Nat) (m : Msg) (wte : Nat := 0) : Packet :=
  { src := socketOf core, dst := dst, relayed := false, planeB := planeOf pa, who := who, attr := attr, pa := pa, sseq := 0, msg := m, wte := wte }

/-- The attribute of an access: system ranges count as UNCACHED (R412). -/
def attrAt (x : Xlat) (pa : Nat) : BitVec 2 := if sysBase ≤ pa then 3 else x.attr

/-- The 128-byte lines of virtual memory that a lane's request touches: the first and the count. -/
def LaneReq.lines (r : LaneReq) : Nat × Nat := (r.va / 128, (r.va % 128 + max 1 r.size + 127) / 128)

/-- Whether a lane waits behind an earlier access of its agent to a line of its own that has not been sent: the core's requests to one line leave
in issue order, an ICINV's commits too (R66, R76, R227). -/
def heldBehind (before : List Entry) (r : LaneReq) : Bool :=
  before.any fun e => e.reqs.any fun b => !b.sent && rangesMeet b.lines.1 b.lines.2 r.lines.1 r.lines.2

/-- Lane requests of an entry that have their translations, have not been sent and wait behind no earlier access of their agent. -/
def readyReqs (before : List Entry) (e : Entry) : List LaneReq :=
  e.reqs.filter fun r => !r.sent && r.x1.isSome && (r.va2.isNone || r.x2.isSome) && !heldBehind before r

/-- The requester field of an entry's packets. -/
def requesterOf (core : Nat) (e : Entry) (lanes : BitVec 32) : Requester :=
  if posted e.op then .agent core e.owner e.issue e.pc lanes else .entry core e.id (isLadle e.owner)

/-- The cells of some stores in one line, later lanes over earlier ones (R217). -/
def storeCells (rs : List (LaneReq × Nat)) (size : Nat) : List Host.Cell :=
  rs.foldl (fun m r => (leBytes size r.1.v.toNat).zipIdx.foldl (fun m b => sset2 m (r.2 + b.2) b.1) m) []
where
  /-- A cell list with one address set. -/
  sset2 (m : List Host.Cell) (a : Nat) (b : Byte) : List Host.Cell := sinsert m a b

/-- The translations that some lanes have used (R69). -/
def viaOf (ctx : Nat) (rs : List LaneReq) : List Via :=
  (rs.flatMap fun r => (r.x1.toList ++ r.x2.toList).map fun x => (⟨ctx, x.vaBase, x.size, r.gen⟩ : Via)).dedup

/-- The requests of some lanes of an entry that lie in one 128-byte line, sent to their home (R74 to R76, R217, R220 to R226). -/
def sendLine (s : State) (core : Nat) (e : Entry) (rs : List (LaneReq × Nat)) : State :=
  match rs with
  | [] => s
  | (r0, pa0) :: _ =>
    let attr := match r0.x1 with | some x => attrAt x pa0 | none => 0
    let lanes := maskOf (rs.map (·.1.lane))
    let acc := fun (p : LaneReq × Nat) => (⟨p.1.lane, p.2, e.size, p.1.v, p.1.c⟩ : LaneAcc)
    (destOf s pa0).elim s fun dst =>
      let who := requesterOf core e lanes
      let ctx := ctxOf s e.owner
      let pkt := fun (m : Msg) => { requestPacket core who dst attr pa0 m e.slot with va := r0.va, via := viaOf ctx (rs.map (·.1)) }
      let path : Path := ⟨dst, planeOf pa0⟩
      let expect := fun (s : State) => updEntry s core e.id fun x => { x with expected := x.expected + 1 }
      match e.op with
      | .load _ _ =>
        let hits := rs.filterMap fun r =>
          if attr = 0 then (l1Read s core r.2 e.size).map fun bs => (r.1, leNat bs) else none
        let missed := rs.filter fun r => !hits.any fun h => h.1 == r.1
        let s := hits.foldl (fun s h => landLane s e h.1.lane h.2) s
        let s := if hits.isEmpty then s else
          match l1Line s core (pa0 / 128) with
          | some l => updEntry s core e.id fun x => { x with expiry := some (match x.expiry with | some y => min y l.expiry | none => l.expiry) }
          | none => s
        if missed.isEmpty then s
        else send (expect s) (pkt (.rd (missed.map acc) (attr == 0)))
      | .store =>
        let cells := storeCells rs e.size
        let s := rs.foldl (fun s r => l1Store s core r.2 (leBytes e.size r.1.v.toNat)) s
        let s := rs.foldl (fun s r => dropAddrsPa s core r.2 e.size) (l1Overtake s core pa0)
        send (notePath s e.owner e.issue path) (pkt (.wr cells (cells.length == 128) none false))
      | .atom op w64 =>
        let s := rs.foldl (fun s r => dropAddrsPa s core r.2 e.size) (l1Overtake (l1Drop s core pa0) core pa0)
        send (notePath (expect s) e.owner e.issue path) (pkt (.at op w64 (rs.map acc) true))
      | .red op w64 =>
        let s := rs.foldl (fun s r => dropAddrsPa s core r.2 e.size) (l1Overtake (l1Drop s core pa0) core pa0)
        send (notePath s e.owner e.issue path) (pkt (.at op w64 (rs.map acc) false))
      | .ldix sg _ =>
        rs.foldl (fun s r => match r.1.x2, r.1.va2 with
          | some x2, some va2 =>
            send (updEntry s core e.id fun x => { x with expected := x.expected + 1 })
              { requestPacket core who dst attr r.2
                  (.lx r.1.lane r.2 e.size sg (x2.pa va2) x2.paBase x2.size (attrAt x2 (x2.pa va2))) e.slot with
                va := r.1.va, via := viaOf ctx [r.1] }
          | _, _ => s) s
      | .cwb => if attr = 3 then s else send s (pkt (.cwb (pa0 / 128 * 128)))
      | .icinv | .bank _ _ => s

/-- Groups some lanes by the line of their address, in order of first appearance. -/
def byLine (rs : List (LaneReq × Nat)) : List (List (LaneReq × Nat)) :=
  ((rs.map fun r => r.2 / 128).dedup).map fun l => rs.filter fun r => r.2 / 128 == l

/-- The commits of an ICINV's page: one packet for each home of its lines (R227). -/
def sendCommits (s : State) (core : Nat) (e : Entry) (r : LaneReq) : State :=
  match r.x1 with
  | none => s
  | some x =>
    let pa := x.pa r.va / 64 * 64
    let n := (x.pa r.va + r.size + 63) / 64 * 64 - pa
    let halves := (List.range (n / 64)).map fun i => pa + 64 * i
    let homes := if sysBase ≤ pa then [] else ((halves.map fun h => (homeSocket s h, planeOf h)).dedup)
    let s := homes.foldl (fun s d =>
      send s { requestPacket core (.agent core e.owner e.issue e.pc 0) d.1 x.attr pa
                (.commit (halves.filter fun h => homeSocket s h == d.1 && planeOf h == d.2)) e.slot with
              planeB := d.2, va := r.va, via := viaOf (ctxOf s e.owner) [r] }) s
    updAgent s e.owner fun a => match a.hold with
      | some (.icinv q) => { a with hold := some (.icinv { q with commits := q.commits + homes.length, ranges := q.ranges ++ [(pa, n)], since := s.time }) }
      | _ => a

/-- An atomic of a system range whose release was not at system scope has one begun beside the agent, behind which its lanes wait (R238). -/
def releaseFirst (s : State) (e : Entry) : State :=
  match agentOf s e.owner with
  | none => s
  | some a =>
    if a.adv.any fun o => o.goal == .send e.id then s
    else
      let (id, s) := fresh s
      updAgent s e.owner fun a => { a with adv := a.adv ++ [⟨id, .send e.id, 3, false, 0, 0, e.issue, a.paths, none⟩] }

/-- Every lane of an entry that is translated is sent, and stops before a request are taken (R220 to R227, R238, R412). -/
def sendReady (s : State) (core id : Nat) : State :=
  match entryOf s core id with
  | none => s
  | some e =>
    let before := (entriesOf s core e.owner).takeWhile fun x => x.id != id
    let paOf := fun (r : LaneReq) => match r.x1 with | some x => x.pa r.va | none => 0
    let remote := fun (r : LaneReq) => e.relSys && (isWindow (paOf r) || isPool (paOf r))
    let all := readyReqs before e
    let rs := all.filter fun r => !remote r
    let s := if all.any remote then releaseFirst s e else s
    let s := updEntry s core id fun x => { x with reqs := x.reqs.map fun r => if rs.contains r then { r with sent := true } else r }
    if e.op = .icinv then
      finishEntry (rs.foldl (fun s r => match systemStop s (paOf r) false with
        | some (18, 7) => deferLane s e 18 7 r
        | _ => sendCommits s core e r) s) core id
    else
      let atomic := match e.op with | .atom .. | .red .. => true | _ => false
      let stop := fun (r : LaneReq) => if e.op = .cwb && decide (sysBase ≤ paOf r) then none else systemStop s (paOf r) atomic
      let s := rs.foldl (fun s r => match stop r with
        | some (19, sub) => poisonLane s e sub r
        | some (c, sub) =>
          if sub = 19 && posted e.op then deferReport s e.owner e.issue r.lane (laneEvent c sub e.pc r.va r.lane)
          else deferLane s e c sub r
        | none => s) s
      let go := (rs.filter fun r => (stop r).isNone).map fun r => (r, paOf r)
      let s := if go.any fun r => match r.1.x1 with | some x => attrAt x r.2 != 0 | none => true then
        updEntry s core id fun x => { x with ldaOk := false } else s
      finishEntry ((byLine go).foldl (fun s l => sendLine s core e l) s) core id

/-! ### Translation of an entry's lanes -/

/-- The translations of a page put into the lanes that need it. -/
def giveXlat (gen vpn : Nat) (x : Xlat) (e : Entry) : Entry :=
  { e with
    reqs := e.reqs.map fun r =>
      let r := if r.x1.isNone && vpnOf r.va == vpn && canonical r.va then { r with x1 := some x, gen := if r.x2.isSome then min r.gen gen else gen } else r
      match r.va2 with
      | some b => if r.x2.isNone && vpnOf b == vpn && canonical b then { r with x2 := some x, gen := if r.x1.isSome then min r.gen gen else gen } else r
      | none => r
    groups := e.groups.filter fun g => g.vpn != vpn }

/-- Lanes that need a page's translation. -/
def lanesOf (vpn : Nat) (e : Entry) : List LaneReq :=
  e.reqs.filter fun r => !r.sent && ((r.x1.isNone && vpnOf r.va == vpn) || (match r.va2 with | some b => r.x2.isNone && vpnOf b == vpn | none => false))

/-- Lanes of a page leave an entry (their fault or poison has been taken). -/
def dropLanes (vpn : Nat) (e : Entry) : Entry :=
  let gone := lanesOf vpn e
  { e with reqs := e.reqs.filter fun r => !gone.contains r, groups := e.groups.filter fun g => g.vpn != vpn
           ldaOk := e.ldaOk && gone.isEmpty }

/-- A translation request for a page of an entry (R58 to R60). -/
def requestXlat (s : State) (core id : Nat) (ladle : Bool) (ctx vpn va : Nat) (acc : Access) : State :=
  askPageOf s (socketOf core) ctx (.entry core id ladle) vpn va acc (((entryOf s core id).map (·.slot)).getD 0)

/-- The pages that an entry's lanes still need, with the first address in each. -/
def pagesNeeded (e : Entry) : List (Nat × Nat) :=
  let vs := e.reqs.flatMap fun r =>
    (if r.x1.isNone then [r.va] else []) ++ (match r.va2 with | some b => if r.x2.isNone then [b] else [] | none => [])
  ((vs.map vpnOf).dedup).filterMap fun p => (vs.find? fun v => vpnOf v == p).map fun v => (p, v)

/-- An entry's group asks its page's shard (R58, R63, R65). -/
def askPage (s : State) (core : Nat) (e : Entry) (vpn : Nat) : State :=
  let s := updEntry s core e.id fun e => { e with groups := updWhere (fun g => g.vpn == vpn) (fun g => { g with st := .requested }) e.groups }
  match (pagesNeeded e).find? fun p => p.1 == vpn with
  | some p => requestXlat s core e.id (isLadle e.owner) (ctxOf s e.owner) vpn p.2 (accessOf e.op)
  | none => s

/-- The lanes of an entry's page end with a fault or with poison (R70). -/
def endLanes (s : State) (core : Nat) (e : Entry) (vpn : Nat) (f : State → LaneReq → State) : State :=
  finishEntry (updEntry ((lanesOf vpn e).foldl f s) core e.id (dropLanes vpn)) core e.id

/-- What a shard's answer does to the group of the entry that asked (R57, R63, R66, R70). -/
def answerEntry (s : State) (core : Nat) (e : Entry) (vpn : Nat) (ans : XlatAnswer) : State :=
  match ans with
  | .ok x => sendReady (updEntry s core e.id (giveXlat s.xlatGen vpn x)) core e.id
  | .fault sub => endLanes s core e vpn fun s r => faultLane s e sub r
  | .lost => endLanes s core e vpn fun s r => poisonLane s e 1 r
  | .request id =>
    updEntry s core e.id fun x => { x with groups := updWhere (fun g => g.vpn == vpn) (fun g => { g with st := .parked id }) x.groups }

/-- What the answer to a parked group does to a group that joined it (R57, R65, R66): a refusal is theirs too, a translation that serves their
own access is used, and any other answer leaves them to ask for themselves. DEDUCED, log entry 41. -/
def answerJoined (s : State) (core : Nat) (e : Entry) (vpn : Nat) (ans : XlatAnswer) : State :=
  match ans with
  | .ok x => if serves x (accessOf e.op) then answerEntry s core e vpn ans else askPage s core e vpn
  | .fault sub => if sub = 8 then answerEntry s core e vpn ans else askPage s core e vpn
  | .lost => askPage s core e vpn
  | .request _ => s

/-- Whether a lane stands under the replay mask of one of its agent's entries (R63). -/
def replaying (es : List Entry) (l : Nat) : Bool :=
  es.any fun e => e.reqs.any fun r => r.lane == l && !r.sent && e.groups.any fun g =>
    g.st != .requested && (g.vpn == vpnOf r.va || (match r.va2 with | some b => g.vpn == vpnOf b | none => false))

/-- Lanes are parked by a replay mask while they stand under it, and ready again after (R63, R345). -/
def showReplay (s : State) (core : Nat) (k : AgentKey) : State :=
  let es := entriesOf s core k
  let state := fun (a : Agent) (l : Nat) =>
    if laneState a l == .ready && replaying es l then LaneState.replay
    else if laneState a l == .replay && !replaying es l then .ready else laneState a l
  updAgent s k fun a => { a with lanes := (laneIds k).foldl (fun m l => sset .ready m l (state a l)) a.lanes }

/-- Lanes of every core's entries that no earlier access of their agent holds back any more are sent, and lanes that no replay mask holds any
more are ready (R63, R66, R76). -/
def flushLanes (s : State) : State :=
  let entries := s.cores.flatMap fun c => c.2.waiting.map fun e => (c.1, e.id)
  let s := entries.foldl (fun s e => match entryOf s e.1 e.2 with
    | some x => if (readyReqs ((entriesOf s e.1 x.owner).takeWhile fun y => y.id != x.id) x).isEmpty then s else sendReady s e.1 e.2
    | none => s) s
  (s.agents.filter fun a => (laneIds a.key).any fun l => laneState a l == .replay).foldl (fun s a => showReplay s (coreOfAgent s a.key) a.key) s


/-- A shard's answer for the entry that asked, and for the groups of its agent that had joined it, in issue order (R66, R69). A result that an
invalidation has overtaken is discarded, and its page is asked for again. -/
def answerXlat (s : State) (core id vpn : Nat) (ans : XlatAnswer) (gen : Nat) : State :=
  match entryOf s core id with
  | none => s
  | some e =>
    if !e.groups.any fun g => g.vpn == vpn then s
    else
      let ctx := ctxOf s e.owner
      if staleAnswer s ctx vpn ans gen then askPage s core e vpn
      else
        let s := match ans with | .ok x => tlbInsert s core ctx x | _ => s
        let others := (entriesOf s core e.owner).filter fun o => o.id != id && o.groups.any fun g => g.vpn == vpn && g.st == .joined
        showReplay (others.foldl (fun s o => answerJoined s core o vpn ans) (answerEntry s core e vpn ans)) core e.owner

/-- Whether a page of an agent is parked, so that a later access to it joins (R66). -/
def joinsPage (s : State) (core : Nat) (k : AgentKey) (id vpn : Nat) : Bool := pageParked ((entriesOf s core k).filter fun e => e.id != id) vpn

/-- The translation of one page of an entry begun: a group that joins a parked one of the warp, a TLB hit, or a request of its own (R58,
R63, R66). DEDUCED, log entry 41. -/
def beginPage (s : State) (core : Nat) (k : AgentKey) (id ctx : Nat) (acc : Access) (vpn va : Nat) : State :=
  if joinsPage s core k id vpn then updEntry s core id fun e => { e with groups := e.groups ++ [⟨vpn, .joined⟩] }
  else match tlbFind s core ctx va acc with
    | some x => updEntry (tlbUse s core ctx va acc) core id (giveXlat s.xlatGen vpn x)
    | none => requestXlat (updEntry s core id fun e => { e with groups := e.groups ++ [⟨vpn, .requested⟩] }) core id (isLadle k) ctx vpn va acc

/-- Whether an access of some lanes needs a waiting-table entry: it returns a value, a page misses the TLB or is parked, or a lane waits behind
an earlier access to its line (R40, R58, R66). -/
def needsEntry (s : State) (core : Nat) (k : AgentKey) (op : MemOp) (vas : List Nat) : Bool :=
  let mine := entriesOf s core k
  !posted op || vas.any fun va =>
    (tlbFind s core (ctxOf s k) va (accessOf op)).isNone || pageParked mine (vpnOf va)
      || mine.any fun e => e.reqs.any fun b => !b.sent && decide (b.lines.1 ≤ va / 128 ∧ va / 128 < b.lines.1 + b.lines.2)

/-- A lane's request before translation. -/
def laneReq (lane va : Nat) (va2 : Option Nat) (size : Nat) (v : BitVec 128) (c : Word64) : LaneReq :=
  ⟨lane, va, va2, none, none, size, v, c, false, 0⟩

/-- An access of an agent begins: its entry is made, at the waiting-table number that it took at its issue if it took one then, non-canonical lanes
fault, pages are translated or asked for, and what is ready is sent (R40, R58, R66, R70, R220 to R227). -/
def startAccess (s : State) (k : AgentKey) (core issue pc : Nat) (op : MemOp) (dest : Opnd) (size : Nat) (reqs : List LaneReq)
    (relSys : Bool := false) (slot : Option Nat := none) : State :=
  let ctx := ctxOf s k
  let (id, s) := fresh s
  let bad := fun (r : LaneReq) => !canonical r.va || (match r.va2 with | some b => !canonical b | none => false)
  let e : Entry :=
    { id := id, slot := slot.getD (tableNext s core (isLadle k)), owner := k, issue := issue, pc := pc, op := op, dest := dest, size := size, reqs := reqs.filter fun r => !bad r
      groups := [], expected := 0, remote := false, noInstall := [], expiry := none, ldaOk := (reqs.filter bad).isEmpty, relSys := relSys }
  let s := (reqs.filter bad).foldl (fun s r => faultLane s e 0 r) s
  let s := match op with
    | .store | .atom .. | .red .. => reqs.foldl (fun s r => dropAddrsVa s core ctx r.va size) s
    | _ => s
  let s := updCore s core fun c => { c with waiting := c.waiting ++ [e] }
  let s := (pagesNeeded e).foldl (fun s p => beginPage s core k id ctx (accessOf op) p.1 p.2) s
  showReplay (sendReady s core id) core k

/-! ### Replies -/

/-- A reply's lanes written to an entry (R40, R218): values, poison, or deferred memory faults (from 100 up). -/
def entryReply (s : State) (core id : Nat) (vals : List LaneVal) (expiry : Option Nat) (count : Bool) : State :=
  match entryOf s core id with
  | none => s
  | some e =>
    let s := vals.foldl (fun s v =>
      match e.reqs.find? fun r => r.lane == v.lane with
      | none => s
      | some r =>
        if v.poison = 0 then landLane s e v.lane v.v.toNat
        else if v.poison < 100 then poisonLane s e (v.poison - 1) r
        else faultLane s e (v.poison - 100) r) s
    let s := updEntry s core id fun x =>
      { x with
        expected := if count then x.expected - 1 else x.expected
        ldaOk := x.ldaOk && expiry.isSome
        expiry := match x.expiry, expiry with | some a, some b => some (min a b) | none, b => b | a, none => a }
    finishEntry s core id

end Sys2Proof.Machine
end

