-- ==== Sys2Proof/Machine/Integer.lean ====
section
/-! DEFINITION. Integer arithmetic, comparison, moves and predicates, logic and bit fields: opcodes 0x20 to 0x51 (R242 to R256). -/

namespace Sys2Proof.Machine

/-- Clamp to the signed range of w bits (R244). -/
def satS (w : Nat) (x : Int) : Int := max (-(2 ^ (w - 1) : Nat)) (min ((2 ^ (w - 1) : Nat) - 1) x)

/-- A result of w bits, saturated as signed or wrapped (R244). -/
def finishInt (w : Nat) (sat : Bool) (x : Int) : Nat := ofI w (if sat then satS w x else x)

/-- An operand read as unsigned or signed (R244). -/
def readInt (w : Nat) (u : Bool) (n : Nat) : Int := if u then (n : Int) else toS w n

/-- IADD, ISUB, INEG, IABS, IMUL, IMAD (R245): `sat` only where R197 assigns it. -/
def addInt (w : Nat) (sat : Bool) (a b : Nat) : Nat := finishInt w sat (toS w a + toS w b)
def subInt (w : Nat) (sat : Bool) (a b : Nat) : Nat := finishInt w sat (toS w a - toS w b)
def negInt (w : Nat) (sat : Bool) (a : Nat) : Nat := finishInt w sat (-toS w a)
def absInt (w : Nat) (sat : Bool) (a : Nat) : Nat := finishInt w sat ((toS w a).natAbs : Int)
def mulInt (w : Nat) (a b : Nat) : Nat := (a * b) % 2 ^ w
def madInt (w : Nat) (sat : Bool) (a b c : Nat) : Nat := finishInt w sat (toS w a * toS w b + toS w c)

/-- The high half of the product (R245). -/
def mulhInt (w : Nat) (u : Bool) (a b : Nat) : Nat := ofI w (readInt w u a * readInt w u b / ((2 ^ w : Nat) : Int))

/-- The wide multiply-add (R245). -/
def madwInt (w : Nat) (u : Bool) (a b c : Nat) : Nat := ofI (2 * w) (readInt w u a * readInt w u b + (c : Int))

/-- The quotient truncated toward zero, all ones for a zero divisor (R247). -/
def divInt (w : Nat) (u : Bool) (a b : Nat) : Nat :=
  if b = 0 then 2 ^ w - 1 else ofI w (Int.tdiv (readInt w u a) (readInt w u b))

/-- The remainder with the sign of the dividend, the dividend for a zero divisor (R247). -/
def remInt (w : Nat) (u : Bool) (a b : Nat) : Nat :=
  if b = 0 then a else ofI w (Int.tmod (readInt w u a) (readInt w u b))

def minInt (w : Nat) (u : Bool) (a b : Nat) : Nat := if readInt w u b < readInt w u a then b else a
def maxInt (w : Nat) (u : Bool) (a b : Nat) : Nat := if readInt w u a < readInt w u b then b else a

/-- (a << n) + b (R245). -/
def leaInt (w sh a b : Nat) : Nat := (a * 2 ^ sh + b) % 2 ^ w

/-- A comparison combined with a predicate (R248): none, and, or, xor. -/
def combine (mode : Nat) (r p : Bool) : Bool :=
  match mode with
  | 1 => r && p
  | 2 => r || p
  | 3 => r ^^ p
  | _ => r

/-- Truth-table lookup of each bit (R252). -/
def lut3 (w lut a b c : Nat) : Nat :=
  (List.range w).foldl (fun r i =>
    if lut.testBit ((a.testBit i).toNat + 2 * (b.testBit i).toNat + 4 * (c.testBit i).toNat) then r + 2 ^ i else r) 0

/-- The shift amount (R253). -/
def shiftAmount (w : Nat) (wrap : Bool) (n : Nat) : Nat := if wrap then n % w else n

def shlInt (w n a : Nat) : Nat := if w ≤ n then 0 else a * 2 ^ n % 2 ^ w
def shrInt (w n a : Nat) : Nat := if w ≤ n then 0 else a / 2 ^ n
def sarInt (w n a : Nat) : Nat := ofI w (toS w a / ((2 ^ min n (w - 1) : Nat) : Int))
def rotInt (w n a : Nat) : Nat := let k := n % w; (a * 2 ^ k) % 2 ^ w + a / 2 ^ (w - k)

/-- The funnel shift (R254). -/
def funnel (right : Bool) (n lo hi : Nat) : Nat :=
  let x := hi * 2 ^ 32 + lo
  if right then x / 2 ^ n % 2 ^ 32 else x * 2 ^ n / 2 ^ 32 % 2 ^ 32

/-- Bit-field extract (R255). -/
def bfe (w : Nat) (sx : Bool) (a ctl : Nat) : Nat :=
  let pos := ctl % 256
  let len := min (ctl / 256 % 256) w
  let fill := sx && a.testBit (w - 1)
  let f := (List.range len).foldl (fun r i => if (if pos + i < w then a.testBit (pos + i) else fill) then r + 2 ^ i else r) 0
  if len = 0 then 0 else if sx then sext len w f else f

/-- Bit-field insert (R255). -/
def bfi (w : Nat) (a ctl c : Nat) : Nat :=
  let pos := ctl % 256
  let len := min (ctl / 256 % 256) w
  (List.range w).foldl (fun r i =>
    let b := if pos ≤ i ∧ i < pos + len then a.testBit (i - pos) else c.testBit i
    if b then r + 2 ^ i else r) 0

def clz (w a : Nat) : Nat := if a = 0 then w else w - 1 - Nat.log2 a
def ctz (w a : Nat) : Nat := ((List.range w).find? fun i => a.testBit i).getD w
def brev (w a : Nat) : Nat := (List.range w).foldl (fun r i => if a.testBit i then r + 2 ^ (w - 1 - i) else r) 0

/-- Byte permute (R256). -/
def bperm (a b sel : Nat) : Nat :=
  (List.range 4).foldl (fun r k =>
    let s := sel / 2 ^ (4 * k) % 16
    let y := (b * 2 ^ 32 + a) / 2 ^ (8 * (s % 8)) % 256
    r + (if 8 ≤ s then (if 128 ≤ y then 255 else 0) else y) * 2 ^ (8 * k)) 0

/-- Four byte products added (R251). -/
def dot4 (u sat : Bool) (a b c : Nat) : Nat :=
  let byte := fun (x k : Nat) => readInt 8 u (x / 2 ^ (8 * k) % 256)
  let t := (List.range 4).foldl (fun (t : Int) k => t + byte a k * byte b k) (readInt 32 u c)
  if sat then ofI 32 (if u then max 0 (min (2 ^ 32 - 1) t) else satS 32 t) else ofI 32 t

/-! ### Shared forms -/

/-- D := f A B at the width of .w64. -/
def Iss.binW (c : Iss) (i : Instr) (x : F3) (w lat : Nat) (f : Nat → Nat → Nat) : Eff :=
  c.alu i x.d w lat fun l => f (c.val w x.a l) (c.valB w x l)

/-- D := f A at a width. -/
def Iss.unW (c : Iss) (i : Instr) (x : F3) (w dw lat : Nat) (f : Nat → Nat) : Eff :=
  c.alu i x.d dw lat fun l => f (c.val w x.a l)

/-! ### Integer arithmetic -/

def execIadd (x : F3) (s : State) : Result :=
  issue (.iadd x) x.h s fun c => c.binW (.iadd x) x (widthOf x.h) 4 (addInt (widthOf x.h) (bit x.h.mod 2))

def execIsub (x : F3) (s : State) : Result :=
  issue (.isub x) x.h s fun c => c.binW (.isub x) x (widthOf x.h) 4 (subInt (widthOf x.h) (bit x.h.mod 2))

/-- Add with carry (R246): cin from the predicate, or 0 for zr; the carry is written unless C is zr or p0. -/
def execIaddc (x : F3) (s : State) : Result :=
  issue (.iaddc x) x.h s fun c =>
    let w := widthOf x.h
    let sum := fun l => c.val w x.a l + c.valB w x l + (c.pred x.c l).toNat
    let uni := (c.evalLanes (.iaddc x) x.d).flatMap fun l => regWrites w x.d l (sum l % 2 ^ w)
    .ok (c.pend 4 (uni ++ c.predWrites (.iaddc x) x.d x.c fun l => decide (2 ^ w ≤ sum l)))

def execImul (x : F3) (s : State) : Result :=
  issue (.imul x) x.h s fun c => c.binW (.imul x) x (widthOf x.h) 4 (mulInt (widthOf x.h))

def execImulh (x : F3) (s : State) : Result :=
  issue (.imulh x) x.h s fun c => c.binW (.imulh x) x (widthOf x.h) 4 (mulhInt (widthOf x.h) (bit x.h.mod 0))

def execImad (x : F3) (s : State) : Result :=
  issue (.imad x) x.h s fun c =>
    let w := widthOf x.h
    c.alu (.imad x) x.d w 4 fun l => madInt w (bit x.h.mod 2) (c.val w x.a l) (c.valB w x l) (c.val w x.c l)

def execImadw (x : F3) (s : State) : Result :=
  issue (.imadw x) x.h s fun c =>
    let w := widthOf x.h
    c.alu (.imadw x) x.d (2 * w) 4 fun l => madwInt w (bit x.h.mod 0) (c.val w x.a l) (c.valB w x l) (c.val (2 * w) x.c l)

def execIdiv (x : F3) (s : State) : Result :=
  issue (.idiv x) x.h s fun c => c.binW (.idiv x) x (widthOf x.h) 12 (divInt (widthOf x.h) (bit x.h.mod 0))

def execIrem (x : F3) (s : State) : Result :=
  issue (.irem x) x.h s fun c => c.binW (.irem x) x (widthOf x.h) 12 (remInt (widthOf x.h) (bit x.h.mod 0))

def execIneg (x : F3) (s : State) : Result :=
  issue (.ineg x) x.h s fun c => c.unW (.ineg x) x (widthOf x.h) (widthOf x.h) 4 (negInt (widthOf x.h) (bit x.h.mod 2))

def execIabs (x : F3) (s : State) : Result :=
  issue (.iabs x) x.h s fun c => c.unW (.iabs x) x (widthOf x.h) (widthOf x.h) 4 (absInt (widthOf x.h) (bit x.h.mod 2))

def execImin (x : F3) (s : State) : Result :=
  issue (.imin x) x.h s fun c => c.binW (.imin x) x (widthOf x.h) 4 (minInt (widthOf x.h) (bit x.h.mod 0))

def execImax (x : F3) (s : State) : Result :=
  issue (.imax x) x.h s fun c => c.binW (.imax x) x (widthOf x.h) 4 (maxInt (widthOf x.h) (bit x.h.mod 0))

def execLea (x : F3) (s : State) : Result :=
  issue (.lea x) x.h s fun c =>
    let w := if bit x.h.mod 3 then 64 else 32
    c.binW (.lea x) x w 4 (leaInt w (fld x.h.mod 2 0))

/-! ### Comparison and selection -/

def execIcmp (x : F3) (s : State) : Result :=
  issue (.icmp x) x.h s fun c =>
    let w := if bit x.aux 0 then 64 else 32
    let u := bit x.h.mod 3
    c.aluP (.icmp x) x.d 4 fun l =>
      let r := condHolds (fld x.h.mod 2 0) (compare (readInt w u (c.val w x.a l)) (readInt w u (c.valB w x l)))
      (combine (fld x.h.mod 5 4) r (c.pred x.c l), 0)

def execPsel (x : F3) (s : State) : Result :=
  issue (.psel x) x.h s fun c =>
    let w := widthOf x.h
    c.alu (.psel x) x.d w 4 fun l => if c.pred x.c l then c.val w x.a l else c.valB w x l

/-! ### Moves and predicates -/

def execMov (x : F3) (s : State) : Result :=
  issue (.mov x) x.h s fun c => c.unW (.mov x) x (widthOf x.h) (widthOf x.h) 4 id

def execMovi (x : F3) (s : State) : Result :=
  issue (.movi x) x.h s fun c => c.alu (.movi x) x.d 32 4 fun _ => x.imm.toNat

def execMovil (x : FL) (s : State) : Result :=
  issue (.movil x) x.h s fun c => c.alu (.movil x) x.d 64 4 fun _ => x.imm.toNat

def execPlut (x : F3) (s : State) : Result :=
  issue (.plut x) x.h s fun c =>
    c.aluP (.plut x) x.d 4 fun l =>
      ((fld x.imm 7 0).testBit ((c.pred x.a l).toNat + 2 * (c.pred x.b l).toNat + 4 * (c.pred x.c l).toNat), 0)

def execP2v (x : F3) (s : State) : Result :=
  issue (.p2v x) x.h s fun c =>
    c.alu (.p2v x) x.d 32 4 fun l => (List.range 8).foldl (fun r n => r + (pGet c.a n l).toNat * 2 ^ n) 0

def execV2p (x : F3) (s : State) : Result :=
  issue (.v2p x) x.h s fun c =>
    .ok (c.pend 4 (c.act.flatMap fun l =>
      ((List.range 8).filter fun n => n != 0 && bit x.imm n).map fun n => .p n l ((c.val 32 x.a l).testBit n)))

def execDot4 (x : F3) (s : State) : Result :=
  issue (.dot4 x) x.h s fun c =>
    c.alu (.dot4 x) x.d 32 4 fun l =>
      dot4 (bit x.h.mod 0) (bit x.h.mod 2) (c.val 32 x.a l) (c.valB 32 x l) (c.val 32 x.c l)

/-! ### Logic and bit fields -/

def execAnd (x : F3) (s : State) : Result :=
  issue (.and x) x.h s fun c => c.binW (.and x) x (widthOf x.h) 4 (· &&& ·)

def execOr (x : F3) (s : State) : Result :=
  issue (.or x) x.h s fun c => c.binW (.or x) x (widthOf x.h) 4 (· ||| ·)

def execXor (x : F3) (s : State) : Result :=
  issue (.xor x) x.h s fun c => c.binW (.xor x) x (widthOf x.h) 4 (· ^^^ ·)

def execAndn (x : F3) (s : State) : Result :=
  issue (.andn x) x.h s fun c => c.binW (.andn x) x (widthOf x.h) 4 fun a b => a &&& (2 ^ widthOf x.h - 1 - b)

def execNot (x : F3) (s : State) : Result :=
  issue (.not x) x.h s fun c => c.unW (.not x) x (widthOf x.h) (widthOf x.h) 4 fun a => 2 ^ widthOf x.h - 1 - a

def execLut3 (x : F3) (s : State) : Result :=
  issue (.lut3 x) x.h s fun c =>
    let w := widthOf x.h
    c.alu (.lut3 x) x.d w 4 fun l => lut3 w (fld x.imm 7 0) (c.val w x.a l) (c.val w x.b l) (c.val w x.c l)

/-- A shift of A by B's low 32 bits (R253). -/
def Iss.shift (c : Iss) (i : Instr) (x : F3) (f : Nat → Nat → Nat → Nat) : Eff :=
  let w := widthOf x.h
  c.alu i x.d w 4 fun l => f w (shiftAmount w (bit x.h.mod 0) (c.valB 32 x l)) (c.val w x.a l)

def execShl (x : F3) (s : State) : Result := issue (.shl x) x.h s fun c => c.shift (.shl x) x shlInt

def execShr (x : F3) (s : State) : Result := issue (.shr x) x.h s fun c => c.shift (.shr x) x shrInt

def execSar (x : F3) (s : State) : Result := issue (.sar x) x.h s fun c => c.shift (.sar x) x sarInt

def execRot (x : F3) (s : State) : Result := issue (.rot x) x.h s fun c => c.shift (.rot x) x rotInt

def execFshf (x : F3) (s : State) : Result :=
  issue (.fshf x) x.h s fun c =>
    c.alu (.fshf x) x.d 32 4 fun l =>
      let n := c.val 32 x.c l
      funnel (bit x.h.mod 0) (if bit x.h.mod 2 then n % 32 else min n 32) (c.val 32 x.a l) (c.valB 32 x l)

def execBfe (x : F3) (s : State) : Result :=
  issue (.bfe x) x.h s fun c =>
    let w := widthOf x.h
    c.alu (.bfe x) x.d w 4 fun l => bfe w (bit x.h.mod 0) (c.val w x.a l) (c.valB 32 x l)

def execBfi (x : F3) (s : State) : Result :=
  issue (.bfi x) x.h s fun c =>
    let w := widthOf x.h
    c.alu (.bfi x) x.d w 4 fun l => bfi w (c.val w x.a l) (c.valB 32 x l) (c.val w x.c l)

def execPopc (x : F3) (s : State) : Result :=
  issue (.popc x) x.h s fun c => c.unW (.popc x) x (widthOf x.h) 32 4 fun a => popCount a (widthOf x.h)

def execClz (x : F3) (s : State) : Result :=
  issue (.clz x) x.h s fun c => c.unW (.clz x) x (widthOf x.h) 32 4 (clz (widthOf x.h))

def execCtz (x : F3) (s : State) : Result :=
  issue (.ctz x) x.h s fun c => c.unW (.ctz x) x (widthOf x.h) 32 4 (ctz (widthOf x.h))

def execBrev (x : F3) (s : State) : Result :=
  issue (.brev x) x.h s fun c => c.unW (.brev x) x (widthOf x.h) (widthOf x.h) 4 (brev (widthOf x.h))

def execBperm (x : F3) (s : State) : Result :=
  issue (.bperm x) x.h s fun c =>
    c.alu (.bperm x) x.d 32 4 fun l => bperm (c.val 32 x.a l) (c.valB 32 x l) (c.val 32 x.c l)

end Sys2Proof.Machine
end

