-- ==== Sys2Proof/Machine/Lane.lean ====
section
/-! DEFINITION. Lane operations of one warp: opcodes 0x52 to 0x59 (R257 to R262). -/

namespace Sys2Proof.Machine

/-- One value written to D: once to an s-register, or in every participant (R258, R261). -/
def Iss.same (c : Iss) (d : Opnd) (lat : Nat) (v : Nat) : Eff :=
  match c.act with
  | [] => .ok c.s
  | l :: _ => .ok (c.pend lat (if isS d then regWrites 32 d l v else c.act.flatMap fun m => regWrites 32 d m v))

def execVote (x : F3) (s : State) : Result :=
  issue (.vote x) x.h s fun c =>
    let vs := c.act.map (c.pred x.a)
    let r := match fld x.h.mod 1 0 with
      | 0 => vs.all id
      | 1 => vs.any id
      | _ => vs.all id || !vs.any id
    match x.d with
    | .p n => .ok (c.pend 6 (c.act.map fun l => .p n.toNat l r))
    | _ => .ok c.s

def execBallot (x : F3) (s : State) : Result :=
  issue (.ballot x) x.h s fun c => c.same x.d 6 (maskOf (c.act.filter (c.pred x.a))).toNat

/-- Participants that would read a poisoned register of another lane (R389). -/
def Iss.lanePoison (c : Iss) (a : Agent) (o : Opnd) (src : Nat → Option Nat) : Option (Nat × List Nat) :=
  match o with
  | .v n =>
    let sub := fun l => match src l with
      | some m => sget 0 a.vPoison (laneKey n.toNat m)
      | none => 0
    let bad := c.act.filter fun l => sub l != 0
    match bad with
    | [] => none
    | l :: _ => some (sub l - 1, bad)
  | _ => none

/-- The source lane of XLANE's forms (R259). -/
def xlaneSource (mode l b : Nat) : Option Nat :=
  match mode with
  | 0 => some (b % 32)
  | 1 => some ((l + b) % 32)
  | 2 => if b ≤ l then some (l - b) else none
  | _ => some (l ^^^ (b % 32))

def execXlane (x : F3) (s : State) : Result :=
  issue (.xlane x) x.h s fun c =>
    let src := fun l => xlaneSource (fld x.h.mod 1 0) l (c.valB 32 x l)
    match c.lanePoison c.a x.a src with
    | some (sub, ls) => c.fault 19 sub (maskOf ls)
    | none => .ok (c.pend 6 (c.act.flatMap fun l => regWrites 32 x.d l (match src l with
        | some m => c.val 32 x.a m
        | none => 0)))

def execMatchL (x : F3) (s : State) : Result :=
  issue (.matchL x) x.h s fun c =>
    let w := widthOf x.h
    let v := fun l => c.val w x.a l
    let mask := fun l =>
      if bit x.h.mod 0 then (if c.act.all fun m => v m == v l then maskOf c.act else 0)
      else maskOf (c.act.filter fun m => v m == v l)
    .ok (c.pend 6 (c.act.flatMap fun l => regWrites 32 x.d l (mask l).toNat))

/-- The combining operations of REDUX, SCANX and REDT at a width (R261, R323). -/
def reduceOp (w op a b : Nat) : Nat :=
  match op with
  | 0 => (a + b) % 2 ^ w
  | 1 => minInt w false a b
  | 2 => maxInt w false a b
  | 3 => minInt w true a b
  | 4 => maxInt w true a b
  | 5 => a &&& b
  | 6 => a ||| b
  | _ => a ^^^ b

/-- Their identities (R261). -/
def reduceUnit (w op : Nat) : Nat :=
  match op with
  | 1 => 2 ^ (w - 1) - 1
  | 2 => 2 ^ (w - 1)
  | 3 => 2 ^ w - 1
  | 5 => 2 ^ w - 1
  | _ => 0

def execRedux (x : F3) (s : State) : Result :=
  issue (.redux x) x.h s fun c =>
    let op := fld x.h.mod 2 0
    c.same x.d 6 ((c.act.map fun l => c.val 32 x.a l).foldl (reduceOp 32 op) (reduceUnit 32 op))

def execScanx (x : F3) (s : State) : Result :=
  issue (.scanx x) x.h s fun c =>
    let op := fld x.h.mod 2 0
    let upTo := fun l => c.act.filter fun m => if bit x.h.mod 3 then m < l else m ≤ l
    .ok (c.pend 6 (c.act.flatMap fun l =>
      regWrites 32 x.d l (((upTo l).map fun m => c.val 32 x.a m).foldl (reduceOp 32 op) (reduceUnit 32 op))))

/-- The warp whose lane READL reads (R242, R262). -/
def Iss.readlWarp (c : Iss) (x : F3) (l : Nat) : Nat := match x.c with | .zr => c.a.key.idx | o => c.val 32 o l

/-- Whether a warp index names no warp of the team that runs: out of range, or exited (R262). -/
def warpGone (s : State) (t : Team) (w : Nat) : Bool :=
  match agentOf s ⟨t.uid, w⟩ with
  | some b => decide (warpCount t.hdr ≤ w) || b.ended || (List.range 32).all fun m => laneState b m == .exited
  | none => true

/-- READL (R40, R262): LANE for the issuing warp; for another warp of the team a waiting-table entry and a VAR result that is read at some
instant before it is written. DESIGN CHOICE, log entry 13. -/
def execReadl (x : F3) (s : State) : Result :=
  issue (.readl x) x.h s fun c =>
    match c.act with
    | [] => .ok c.s
    | l :: _ =>
      let src := c.valB 32 x l % 32
      let w := c.readlWarp x l
      let n := match x.a with
        | .v n => n.toNat
        | _ => 0
      if w = c.a.key.idx then
        match sget 0 c.a.vPoison (laneKey n src) with
        | 0 => .ok (c.pend 6 (regWrites 32 x.d l (vGet c.a n src).toNat))
        | _ => c.fault 19 0 (maskOf c.act)
      else if !tableFree c.s0 c.t.core false then c.later
      else
        let from_ : LaneSource := ⟨⟨c.a.key.team, w⟩, n, src, x.d, maskOf c.act, c.pc⟩
        let r : VarResult := { issue := c.n, writes := [], event := none, table := some (tableNext c.s0 c.t.core false) }
        .ok (addResult c.s c.a.key
          (if warpGone c.s c.t w then { r with writes := regWrites 32 x.d l 0 } else { r with src := some from_ }))

/-- A remote READL's value read from its source now (R262): zero for a warp that has exited, consumed poison of subcode 0 for a poisoned
register. -/
def sampleSource (s : State) (r : VarResult) (f : LaneSource) : VarResult :=
  let r := { r with src := none }
  let lane := ((List.range 32).find? fun l => bit f.act l).getD 0
  match teamOf s f.agent.team, agentOf s f.agent with
  | some t, some b =>
    if warpGone s t f.agent.idx then { r with writes := regWrites 32 f.dest lane 0 }
    else if sget 0 b.vPoison (laneKey f.reg f.lane) != 0 then { r with event := some ⟨r.issue, lane, mkEvent 19 0 f.act f.pc, false⟩ }
    else { r with writes := regWrites 32 f.dest lane (vGet b f.reg f.lane).toNat }
  | _, _ => { r with writes := regWrites 32 f.dest lane 0 }

def execBcast (x : F3) (s : State) : Result :=
  issue (.bcast x) x.h s fun c =>
    let src := fun l => c.valB 32 x l % 32
    match c.lanePoison c.a x.a (fun l => some (src l)) with
    | some (sub, ls) => c.fault 19 sub (maskOf ls)
    | none => .ok (c.pend 6 (c.act.flatMap fun l => regWrites 32 x.d l (c.val 32 x.a (src l))))

end Sys2Proof.Machine
end

