-- ==== Sys2Proof/Machine/StepOps.lean ====
section
/-! DEFINITION. Step memory: checks of an access, presence, bytes, next-plane stores and the collision table, tags and their waits, bank
atomics, and the resolution of a step (R118 to R145). -/

namespace Sys2Proof.Machine

/-- First offset of the ladle-memory window (R97, R119). -/
def windowBase : Nat := 0x80000

/-- Kinds of access that R123 tells apart. -/
inductive StepAccess where
  | load | store | stx | tag | atomic | presence
  deriving DecidableEq, Repr

/-- Whether a region kind accepts an access (R123). -/
def kindAccepts (k : RegionKind) : StepAccess → Bool
  | .load | .store | .presence => true
  | .stx => k == .step
  | .tag => k == .tagged
  | .atomic => k != .step

/-- The first check of R124 that an access fails, as its cause: 6 range, 7 kind, 8 width, 9 alignment. `member` tells whether the
issuer belongs to the region's group (R133, R232), `ladle` whether it is the team's ladle context (R97, R123). -/
def stepCheck (t : Team) (ladle : Bool) (member : Region → Bool) (off n : Nat) (acc : StepAccess) : Option Nat :=
  if windowBase ≤ off then
    if !ladle || decide (windowBase + t.hdr.ladleMem * 256 < off + n) then some 6
    else if acc = .tag || acc = .stx || acc = .presence then some 7
    else if off % n != 0 then some 9 else none
  else match regionAt t.hdr off n with
    | none => some 6
    | some r =>
      if !kindAccepts r.kind acc || (r.kind == .step && acc == .store && ladle) then some 7
      else if r.kind == .step && (acc == .store || acc == .stx) && !member r then some 7
      else if acc == .stx && !bit t.hdr.cohortGroups r.group then some 7
      else if r.kind == .step && (acc == .store || acc == .stx) && decide (n < 4) then some 8
      else if off % n != 0 then some 9 else none

/-- The fault of an instruction whose lanes fail with some causes: that of the lowest lane, naming the lanes that share it (R124). -/
def firstFault (fs : List (Nat × Nat × Nat)) : Option (Nat × List Nat × Nat) :=
  match fs with
  | [] => none
  | (_, cause, off) :: _ => some (cause, (fs.filter fun f => f.2.1 == cause).map (·.1), off)

/-- Lines of 128 bytes that a range touches. -/
def stepLines (off n : Nat) : List Nat := (List.range ((off + n - 1) / 128 + 1 - off / 128)).map (off / 128 + ·)

def countOf (t : Team) (line : Nat) : Nat := sget 0 t.copyCount line

/-- Whether a line is present (R112, R137); the ladle window has no presence bits (R97). -/
def lineReady (t : Team) (line : Nat) : Bool := decide (windowBase / 128 ≤ line) || countOf t line == 0

/-- The absent lines of a range. -/
def absentLines (t : Team) (off n : Nat) : List Nat := (stepLines off n).filter fun l => !lineReady t l

/-- One byte that loads read: the present plane, or the ladle window (R97, R125). -/
def stepByte (t : Team) (off : Nat) : Byte :=
  if windowBase ≤ off then sget 0 t.ladleMem (off - windowBase) else sget 0 t.present off

/-- `n` bytes that loads read, as a number. -/
def stepRead (t : Team) (off n : Nat) : Nat := leNat ((List.range n).map fun i => stepByte t (off + i))

/-- One byte written outside next planes. -/
def putStepByte (t : Team) (off : Nat) (b : Byte) : Team :=
  if windowBase ≤ off then { t with ladleMem := sset 0 t.ladleMem (off - windowBase) b }
  else { t with present := sset 0 t.present off b }

/-- Whether a read of the present plane touches a poisoned word (R115, R153). DEDUCED, log entry 40. -/
def stepPoisoned (t : Team) (off n : Nat) : Bool := (List.range ((off + n + 3) / 4 - off / 4)).any fun i => sget false t.stepPoison (off / 4 + i)

/-- The words that a range covers whole. -/
def wholeWords (off n : Nat) : List Nat := (List.range ((off + n) / 4 - (off + 3) / 4)).map ((off + 3) / 4 + ·)

/-- Bytes written outside next planes; a full write of a word clears its poison (R153). DEDUCED, log entry 40. -/
def putStepBytes (t : Team) (off : Nat) (bs : List Byte) : Team :=
  let t := bs.zipIdx.foldl (fun t e => putStepByte t (off + e.2) e.1) t
  if t.stepPoison.isEmpty then t
  else { t with stepPoison := (wholeWords off bs.length).foldl (fun m w => sset false m w false) t.stepPoison }

/-! ### Stores on their way to the banks -/

/-- The banks of a range: 32, each with every 32nd word (R118). -/
def banksOf (off n : Nat) : List Nat := (List.range ((off + n + 3) / 4 - off / 4)).map fun i => (off / 4 + i) % 32

/-- Whether two ranges share a bank. -/
def shareBank (a n b m : Nat) : Bool := (banksOf a n).any (banksOf b m).contains

/-- Whether a store passes through a bank of a range. -/
def BankStore.at_ (w : BankStore) (r : Nat × Nat) : Bool := shareBank w.off w.bytes.length r.1 r.2

/-- A store of an agent put on its way (R79, R435). -/
def postStore (t : Team) (w : BankStore) : Team := { t with stores := t.stores ++ [w] }

/-- Whether the n-th store of a team may reach its banks now: no earlier store of its agent is on the way to one of them (R127). -/
def storeFirst (t : Team) (n : Nat) : Bool :=
  match t.stores[n]? with
  | some w => !(t.stores.take n).any fun x => x.agent == w.agent && x.at_ (w.off, w.bytes.length)
  | none => false

/-- The n-th store of a team written in its banks (R79, R232). -/
def landStore (t : Team) (n : Nat) : Team :=
  match t.stores[n]? with
  | some w => putStepBytes { t with stores := t.stores.eraseIdx n } w.off w.bytes
  | none => t

/-- The stores of an agent that pass through the banks of some ranges, with those before them in their banks, in issue order, and the ranges that
all of them take (R127). -/
def storesBefore (k : AgentKey) (rs : List (Nat × Nat)) (ws : List BankStore) : List BankStore × List (Nat × Nat) :=
  ws.foldr (fun w acc => if w.agent == k && acc.2.any w.at_ then (w :: acc.1, (w.off, w.bytes.length) :: acc.2) else acc) ([], rs)

/-- A team as an access of an agent finds the banks of some ranges: the agent's earlier stores there have been written, since its accesses pass
through each bank in issue order (R127, R290). DEDUCED, log entry 40. -/
def landFor (t : Team) (k : AgentKey) (rs : List (Nat × Nat)) : Team :=
  let ws := (storesBefore k rs t.stores).1
  ws.foldl (fun t w => putStepBytes t w.off w.bytes) { t with stores := t.stores.filter fun w => !ws.contains w }

/-- Whether stores of an agent that it issued before some issue have not been written in their banks (R79). -/
def storesOut (t : Team) (k : AgentKey) (upto : Nat) : Bool := t.stores.any fun w => w.agent == k && decide (w.issue < upto)

/-! ### Next planes -/

/-- table_put of R127: replaces the entry of a word and rank, or takes one of the team's quota; without one the word is
marked overflowed (R130). -/
def tablePut (t : Team) (off rank : Nat) (v : Word32) : Team :=
  if t.coll.any fun c => c.word == off && c.rank == rank then
    { t with coll := updWhere (fun c => c.word == off && c.rank == rank) (fun c => { c with value := v }) t.coll }
  else if t.coll.length < 64 * t.hdr.collQuota then { t with coll := t.coll ++ [⟨off, rank, v⟩] }
  else { t with next := sset nextInit t.next off { nextWord t off with overflowed := true } }

/-- record_ranks of R127: the two highest distinct ranks of a FAULT word. -/
def recordRanks (w : NextWord) (k : Nat) : NextWord :=
  let hi := if w.collided then w.hiRank else w.rank
  let lo := if w.collided then some w.loRank else none
  let w := { w with collided := true }
  if k = hi || lo = some k then { w with hiRank := hi, loRank := lo.getD hi }
  else if hi < k then { w with hiRank := k, loRank := hi }
  else match lo with
    | none => { w with hiRank := hi, loRank := k }
    | some l => { w with hiRank := hi, loRank := max l k }

/-- A lane store of one word into a next plane (R127). -/
def putNext (t : Team) (r : Region) (off rank : Nat) (v : Word32) : Team :=
  let w := nextWord t off
  let t := if t.nextPoison.isEmpty then t else { t with nextPoison := sset false t.nextPoison (off / 4) false }
  let put := fun (t : Team) (w : NextWord) => { t with next := sset nextInit t.next off w }
  if !w.written then put t { w with value := v, rank := rank, written := true, copied := false }
  else match r.rule with
    | .prior => if w.rank ≤ rank then put t { w with value := v, rank := rank } else t
    | .fault => if w.rank = rank then put t { w with value := v } else put t (recordRanks w rank)
    | .sum =>
      if !w.collided && w.rank == rank then put t { w with value := v }
      else if w.collided then tablePut t off rank v
      else tablePut (put (tablePut t off w.rank w.value) { nextWord (tablePut t off w.rank w.value) off with collided := true }) off rank v

/-- The words of a store into a next plane (R127). -/
def putNextWords (t : Team) (r : Region) (off rank : Nat) (words : List Word32) : Team :=
  words.zipIdx.foldl (fun t e => putNext t r (off + 4 * e.2) rank e.1) t

/-- Data as 32-bit words, lowest first. -/
def wordsOf (n x : Nat) : List Word32 := (List.range (n / 4)).map fun i => BitVec.ofNat 32 (x / 2 ^ (32 * i))

/-- A copy, ACCEPI or job write of one next-plane word: it replaces the word and removes its collision (R103, R139); a poisoned source
sector writes poison (R115). DEDUCED, log entry 40. -/
def replaceNext (t : Team) (off : Nat) (v : Word32) (bad : Bool) : Team :=
  { t with next := sset nextInit t.next off { nextInit with value := v, copied := true }
           nextPoison := sset false t.nextPoison (off / 4) bad
           coll := t.coll.filter fun c => c.word != off }

/-! ### Tags -/

/-- Tag of a word: true is full (R141). -/
def tagOf (t : Team) (off : Nat) : Bool := sget false t.tags (off / 4 * 4)

def setTag (t : Team) (off : Nat) (full : Bool) : Team := { t with tags := sset false t.tags (off / 4 * 4) full }

/-- The tag word of a line: bit i is the tag of word i of the aligned 128-byte line (R234). -/
def tagWord (t : Team) (off : Nat) : Word32 :=
  (List.range 32).foldl (fun m i => if tagOf t (off / 128 * 128 + 4 * i) then m ||| BitVec.ofNat 32 (2 ^ i) else m) 0

/-- A tagged operation applied at its bank: the team and the word it returns (R141). -/
def applyTagWait (t : Team) (w : TagWait) : Team × Word32 :=
  let store := fun (_ : Unit) => setTag (putStepBytes t w.word (leBytes 4 w.data.toNat)) w.word true
  match w.op with
  | .ldf keep => (setTag t w.word keep, BitVec.ofNat 32 (stepRead t w.word 4))
  | .ste | .stf => (store (), 0)
  | .set => (setTag t w.word true, 0)
  | .clr => (setTag t w.word false, 0)
  | .rd => (t, tagWord t w.word)

/-- Whether a tagged operation can be applied: its line is present (R138, R234), and its word is in the state that it waits for (R141). -/
def tagReady (t : Team) (w : TagWait) : Bool :=
  lineReady t (w.word / 128) && match w.op with
    | .ldf _ => tagOf t w.word
    | .ste => !tagOf t w.word
    | _ => true

/-- The waiting operations on a word served in their order of arrival while its tag allows (R141). -/
def serveTags (word : Nat) : Nat → Team → Team × List (TagWait × Word32 × Bool)
  | 0, t => (t, [])
  | fuel + 1, t =>
    match t.tagWaits.find? fun w => w.word == word && tagReady t w with
    | none => (t, [])
    | some w =>
      let bad := stepPoisoned t w.word 4 && match w.op with | .ldf _ => true | _ => false
      let (t, x) := applyTagWait { t with tagWaits := t.tagWaits.erase w } w
      let (t, r) := serveTags word fuel t
      (t, (w, x, bad) :: r)

/-- The presence word of a 4 KiB block: lines outside every region read 0 (R236). -/
def presenceWord (t : Team) (off : Nat) : Word32 :=
  (List.range 32).foldl (fun m i =>
    let o := off / 4096 * 4096 + 128 * i
    if (regionAt t.hdr o 1).isSome && countOf t (o / 128) == 0 then m ||| BitVec.ofNat 32 (2 ^ i) else m) 0

/-- A bank atomic (R143): the team and the old value; a poisoned word is not written (R25, R153). -/
def bankAtomic (t : Team) (off : Nat) (op : Nat) (w64 : Bool) (v c : Nat) : Team × Nat :=
  let n := if w64 then 8 else 4
  let old := stepRead t off n
  if stepPoisoned t off n then (t, old)
  else match atomicNew op (8 * n) old v c with
  | some x => (putStepBytes t off (leBytes n x), old)
  | none => (t, old)

/-! ### Copy counts -/

/-- One count of a line lowered (R112). -/
def dropCount (t : Team) (line : Nat) : Team := { t with copyCount := sset 0 t.copyCount line (countOf t line - 1) }

/-- Poison marks on the words that a range touches (R115). -/
def markStep (t : Team) (off n : Nat) (bad : Bool) : Team :=
  if bad then
    { t with stepPoison := (List.range ((off + n + 3) / 4 - off / 4)).foldl (fun m i => sset false m (off / 4 + i) true) t.stepPoison }
  else t

/-- What a word of a next plane holds (R126, R127). -/
def nextValue (t : Team) (r : Region) (off : Nat) : Word32 :=
  let w := nextWord t off
  if w.written || w.copied then w.value else (refillWord t r off).value

/-- The offsets of the words that a range touches. -/
def touchedWords (off n : Nat) : List Nat := (List.range ((off + n + 3) / 4 - off / 4)).map fun i => off / 4 * 4 + 4 * i

/-- A word at an offset with some of its bytes replaced by those of a run. -/
def mergedWord (v : Word32) (w off : Nat) (bs : List Byte) : Word32 :=
  BitVec.ofNat 32 (leNat ((List.range 4).map fun i => if off ≤ w + i ∧ w + i < off + bs.length then bs.getD (w + i - off) 0
    else BitVec.ofNat 8 (v.toNat / 2 ^ (8 * i))))

/-- A write of bytes by a copy, ACCEPI or a job (R103): words of a next plane replaced, one that a copy's fault cuts short in part (R115), or bytes
written with the tags of whole words of a TAGGED region set; the operations that waited on those words are served. `bad` writes poison (R115). -/
def landBytes (t : Team) (off : Nat) (bs : List Byte) (bad : Bool) : Team × List (TagWait × Word32 × Bool) :=
  match regionAt t.hdr off bs.length with
  | none => (t, [])
  | some r =>
    match r.kind with
    | .step => ((touchedWords off bs.length).foldl (fun t w => replaceNext t w (mergedWord (nextValue t r w) w off bs) bad) t, [])
    | .plain => (markStep (putStepBytes t off bs) off bs.length bad, [])
    | .tagged =>
      let t := markStep (putStepBytes t off bs) off bs.length bad
      let whole := (List.range ((off + bs.length) / 4 + 1)).filter fun w => off ≤ 4 * w && 4 * w + 4 ≤ off + bs.length
      whole.foldl (fun (acc : Team × List (TagWait × Word32 × Bool)) w =>
        let (t, r) := serveTags (4 * w) (acc.1.tagWaits.length + 1) (setTag acc.1 (4 * w) true)
        (t, acc.2 ++ r)) (t, [])

/-! ### Completing a step -/

/-- The exact sum of some codes, rounded once by RNE, with the special rules of R128. -/
def sumCodes (f : Fmt) (xs : List Nat) : Nat :=
  match xs with
  | [] => 0
  | x :: r => (toFloat f .rne false (r.foldl (fun (a : FVal) y => (a.add false (decodeF f y)).1) (decodeF f x))).1

/-- The new present value of a collided SUM word (R128). -/
def resolveSum (ty : EType) (vs : List Word32) : Word32 :=
  match ty with
  | .i32 | .u32 => vs.foldl (· + ·) 0
  | .f32 => BitVec.ofNat 32 (sumCodes f32 (vs.map (·.toNat)))
  | .bf16x2 => BitVec.ofNat 32 (sumCodes bf16 (vs.map fun v => fld v 15 0) + sumCodes bf16 (vs.map fun v => fld v 31 16) * 65536)

/-- The STEP regions of a group (R131). -/
def groupRegions (h : Header) (g : Nat) : List Region := h.regions.filter fun r => r.kind == .step && r.group == g

/-- The words of a region. -/
def regionWords (r : Region) : List Nat := (List.range (r.size / 4)).map fun i => r.base + 4 * i

/-- The listed next-plane words of a region. -/
def listedWords (t : Team) (r : Region) : List Nat := (t.next.map (·.1)).filter fun o => r.base ≤ o && o < r.base + r.size

/-- A word that traps at STEP: overflowed, or collided under FAULT (R130, R132). -/
def wordTraps (r : Region) (w : NextWord) : Bool := w.overflowed || (w.collided && r.rule == .fault)

/-- What a collision event names (R132, R389): the offset, whether capacity, and the two highest ranks. -/
structure StepTrap where
  off : Nat
  capacity : Bool
  hi : Nat
  lo : Nat
  deriving DecidableEq, Repr

/-- The lowest trapping word of a team's regions of a group (R132). -/
def teamTrap (t : Team) (g : Nat) : Option StepTrap :=
  let bad := (groupRegions t.hdr g).flatMap fun r => (listedWords t r).filter fun o => wordTraps r (nextWord t o)
  bad.min?.map fun o => let w := nextWord t o; ⟨o, w.overflowed, w.hiRank, w.loRank⟩

/-- Step 5 of R132 in one region: the new present plane under R128, the next plane cleared with its refill begun (R126). -/
def swapRegion (t : Team) (r : Region) : Team :=
  let value := fun (o : Nat) =>
    let w := nextWord t o
    if w.collided then resolveSum r.etype ((t.coll.filter fun c => c.word == o).map (·.value))
    else if w.written || w.copied then w.value
    else if r.zero then 0 else presentWord t o
  let words := if r.zero then regionWords r else listedWords t r
  let new := words.map fun o => (o, value o)
  let t := new.foldl (fun t e =>
    markStep (putStepBytes t e.1 (leBytes 4 e.2.toNat)) e.1 4 (sget false t.nextPoison (e.1 / 4))) t
  { t with next := t.next.filter (fun e => !(r.base ≤ e.1 && e.1 < r.base + r.size))
           nextPoison := t.nextPoison.filter (fun e => !(r.base ≤ 4 * e.1 && 4 * e.1 < r.base + r.size))
           coll := t.coll.filter (fun c => !(r.base ≤ c.word && c.word < r.base + r.size))
           refilling := t.refilling.filter (· != r.idx) ++ [r.idx] }

/-- What a trapped STEP leaves in a region: values kept, faulting words zero, marks and entries cleared (R132). DEDUCED, log entry 40. -/
def trapRegion (t : Team) (r : Region) : Team :=
  let t := (listedWords t r).foldl (fun t o =>
    let w := nextWord t o
    let v := if w.collided || w.overflowed then 0 else w.value
    let keep := w.written || w.copied || w.collided || w.overflowed
    { t with next := sset nextInit t.next o (if keep then { nextInit with value := v, copied := true } else nextInit) }) t
  { t with coll := t.coll.filter fun c => !(r.base ≤ c.word && c.word < r.base + r.size) }

end Sys2Proof.Machine
end

