-- ==== Sys2Proof/Machine/Warp.lean ====
section
/-! DEFINITION. Waits of an agent: switch markers, fences and their markers, arrival at a step, the whisk tree, child launches and the end of
a warp (R50, R66, R77 to R80, R131, R132, R136, R144, R313, R316, R317, R321, R323, R326, R353). -/

namespace Sys2Proof.Machine

/-! ### What is outstanding -/

/-- Lanes of an agent that wait for tags (R141). -/
def tagWaitsOf (s : State) (k : AgentKey) : List TagWait := (s.teams.flatMap (·.tagWaits)).filter fun w => w.agent == k

/-- Reductions whose result an agent still awaits (R323). -/
def redtPending (s : State) (k : AgentKey) : Bool := s.reductions.any fun r => r.members.any fun m => m.agent == k && m.live

/-- Whether a release beside its issuer ends with tagged stores (R141). -/
def AdvOp.tags (o : AdvOp) : Bool := match o.goal with | .tagged .. => true | _ => false

/-- Whether a VAR result of an agent is outstanding (R234, R353): a waiting-table entry, a local result, a tag wait, a STE behind its release, a
REDT. -/
def outstanding (s : State) (a : Agent) (core : Nat) : Bool :=
  !a.vars.isEmpty || !(entriesOf s core a.key).isEmpty || !(tagWaitsOf s a.key).isEmpty || a.adv.any (·.tags) || redtPending s a.key

/-- Whether an operation is a load, an atomic that returns a value, or an LDIX, for whose value a fence waits (R77). -/
def isLoad : MemOp → Bool
  | .load _ _ | .atom _ _ | .ldix _ _ => true
  | .bank atomic _ => atomic
  | _ => false

/-- Whether a load, atomic or LDIX of an agent has not returned (R77). -/
def loadsOut (s : State) (a : Agent) (core : Nat) : Bool :=
  a.vars.any (·.mem) || (entriesOf s core a.key).any fun e => isLoad e.op

/-- Whether an entry keeps a release from sending its markers: lanes that wait to be translated and sent, of a CWB only those that are parked on a
page request (R66, R78, R229). -/
def Entry.holdsMarkers (e : Entry) : Bool := if e.op == .cwb then e.groups.any (fun g => g.st != .requested) else e.reqs.any fun r => !r.sent

/-- Whether lanes of an agent still wait to be translated and sent, or are parked (R66, R78). -/
def accessesOut (s : State) (a : Agent) (core : Nat) : Bool := (entriesOf s core a.key).any (·.holdsMarkers)

/-- Whether stores to step memory or tagged stores of an agent have not been written in their banks (R79). -/
def bankWritesOut (s : State) (a : Agent) : Bool :=
  a.adv.any (·.tags) || (teamOf s a.key.team).any fun t => t.stores.any fun w => w.agent == a.key

/-- Whether every lane of an agent has exited (R152). -/
def allExited (a : Agent) : Bool := (laneIds a.key).all fun l => laneState a l == .exited

/-- Whether a warp has left every group (R132). -/
def hasLeft (a : Agent) : Bool := a.ended || allExited a

/-- Whether a power class is shed (R381). -/
def classShed (s : State) (c : Nat) : Bool := c != 0 && regBit s .shedState (44 + c)

/-- Whether 500 µs have passed since a class was shed, as SHED_SAFE_DEADLINE has noted (R380). -/
def shedDeadline (s : State) (c : Nat) : Bool := classShed s c && sget 0 s.shedSince (8 + c) != 0

/-- Whether a save of a grid has been asked for and not finished (R400, R401, R407). -/
def savePending (s : State) (g : Grid) : Bool :=
  s.saving == some g.queue || (match s.em with | some e => e.pending.contains g.queue | none => false)

/-- Whether an agent of a grid parks at a SAFE that takes effect (R99, R380, R401). -/
def parksAtSafe (s : State) (g : Grid) (ladle : Bool) : Bool :=
  savePending s g || (if ladle then classShed s g.cls else shedDeadline s g.cls)

/-- The grid of an agent. -/
def gridOfAgent (s : State) (k : AgentKey) : Option Grid := (teamOf s k.team).bind fun t => gridOf s t.grid

/-- Jobs that an agent issued and that have not completed (R305). -/
def jobsOf (s : State) (core : Nat) (k : AgentKey) : List Job := (coreOf s core).jobs.filter fun j => j.issuer == k

/-! ### Fences -/

/-- Fence markers of an agent sent on some paths (R78). -/
def sendMarkers (s : State) (core id : Nat) (ladle : Bool) (ps : List Path) : State :=
  ps.foldl (fun s p =>
    send s { src := socketOf core, dst := p.dst, relayed := false, planeB := p.planeB, who := .fence core id ladle, attr := 0, pa := 0, sseq := 0
             msg := .fm }) s

/-- The paths that a fence of a scope covers (R78). -/
def fencePaths (a : Agent) (scope : BitVec 2) : List Path := a.paths.filter (scopeHas scope)

/-- A fence begun (R77), with the waiting-table entry that what it goes on with has taken (R40). -/
def newFence (s : State) (acq rel : Bool) (scope : BitVec 2) (c : Cont) (slot : Option Nat := none) : Fence × State :=
  let (id, s) := fresh s
  ({ id := id, acq := acq, rel := rel, scope := scope, sent := false, replies := 0, tMax := 0, cont := c, slot := slot }, s)

/-- An agent held by a fence (R229). -/
def holdFence (s : State) (k : AgentKey) (acq rel : Bool) (scope : BitVec 2) (c : Cont) (slot : Option Nat := none) : State :=
  let (f, s) := newFence s acq rel scope c slot
  updAgent s k fun a => { a with hold := some (.fence f) }

/-- Whether a fence's replies are in and its time has passed (R78). -/
def fenceOver (s : State) (core : Nat) (sent : Bool) (replies tMax : Nat) : Bool :=
  sent && replies == 0 && (tMax == 0 || decide (tMax < coreTime s core))

/-! ### Groups and arrival -/

/-- Teams of a group. -/
def groupTeams (s : State) (g : GroupKey) : List Team :=
  s.teams.filter fun t => t.grid == g.grid && (match g.team with | some u => t.uid == u | none => true)

/-- The warps of a group that have not left it. -/
def groupMembers (s : State) (g : GroupKey) : List Agent :=
  (groupTeams s g).flatMap fun t => s.agents.filter fun a =>
    a.key.team == t.uid && !isLadle a.key && isMember t g.group a.key.idx && !hasLeft a

/-- The group at whose STEP every non-exited lane of a warp stands (R132). -/
def stepGroupOf (a : Agent) : Option Nat :=
  match (laneIds a.key).filter fun l => laneState a l != .exited with
  | [] => none
  | l :: r => match laneState a l with
    | .atStep g => if r.all fun m => laneState a m == .atStep g then some g else none
    | _ => none

/-- Whether every member of a group has arrived (R132); a group whose members have all left has no step. -/
def allArrived (s : State) (g : GroupKey) : Bool :=
  let ms := groupMembers s g
  !ms.isEmpty && ms.all fun a => a.stepArrived && stepGroupOf a == some g.group

/-- Latencies of the links of a cohort group's path through the whisk tree, the turn-round included (R50). DEDUCED, log entry 19. -/
def whiskLinks (s : State) (g : GroupKey) : List Nat :=
  let socks := ((groupMembers s g).map fun a => socketOf (coreOfAgent s a.key)).dedup
  if socks.length ≤ 1 then [14, 18]
  else if (socks.map (· / 3)).dedup.length ≤ 1 then [14, 18, 22, 14]
  else [14, 18, 20, 24, 18, 14]

/-- A cohort group's message begun on the tree when its last contribution is in (R50, R132, R323). DEDUCED, log entry 19. -/
def startWhisk (s : State) (g : GroupKey) (k : Nat) (isStep : Bool) : State :=
  if g.team.isSome || s.whisk.any (fun w => w.group == g && w.k == k && w.isStep == isStep) then s
  else { s with whisk := s.whisk ++ [⟨g, k, isStep, 0, s.time + ((whiskLinks s g)[0]?).getD 0⟩] }

/-- Whether a group's message has come down again; a group of one core's team needs none (R50). DEDUCED, log entry 19. -/
def whiskDone (s : State) (g : GroupKey) (k : Nat) (isStep : Bool) : Bool :=
  g.team.isSome || s.whisk.any fun w => w.group == g && w.k == k && w.isStep == isStep && decide ((whiskLinks s g).length ≤ w.links)

/-- What an arrival or an exit may set off in a group: the message of a cohort step (R132). -/
def checkGroup (s : State) (g : GroupKey) : State := if allArrived s g then startWhisk s g 0 true else s

/-- Whether every member that has not left has made its contribution (R323). -/
def redtComplete (s : State) (r : Reduction) : Bool :=
  (groupMembers s r.group).all fun a => r.members.any fun m => m.agent == a.key

/-- The messages of complete reductions of a grid begun. -/
def checkReductions (s : State) (grid : Nat) : State :=
  (s.reductions.filter fun r => r.group.grid == grid && redtComplete s r).foldl (fun s r => startWhisk s r.group r.k false) s

/-- All groups of a grid looked at again, after a warp has left them. -/
def checkGrid (s : State) (t : Team) : State :=
  checkReductions ((List.range 8).foldl (fun s n => checkGroup s (groupKey t n)) s) t.grid

/-- A warp that has reached a STEP in every lane goes on to arrive (R132, R136, R144, R305, R321): its jobs are complete, its class is not
shed, the fence of STEP.f has ended, markers go out on the paths of its exchange stores and messages. DEDUCED, log entry 39. -/
def tryArrive (s : State) (k : AgentKey) : State :=
  match agentOf s k, teamOf s k.team with
  | some a, some t =>
    match stepGroupOf a, gridOf s t.grid with
    | some n, some g =>
      if a.marker || a.hold.isSome || a.stepArrived || a.stepSent.isSome || a.ended then s
      else if !a.deferred.isEmpty then updAgent s k fun a => { a with marker := true }
      else if !(jobsOf s t.core k).isEmpty || classShed s g.cls || savePending s g then s
      else if a.stepFences.testBit n then holdFence s k false true 2 .stepFence
      else if a.xpaths.isEmpty then checkGroup (updAgent s k fun a => { a with stepArrived := true }) (groupKey t n)
      else
        let (f, s) := newFence s false true 2 .none
        let s := updAgent s k fun a => { a with stepSent := some { f with sent := true, replies := a.xpaths.length, xpaths := a.xpaths }, xpaths := [] }
        sendMarkers s t.core f.id false a.xpaths
    | _, _ => s
  | _, _ => s

/-! ### Child launches -/

/-- The result of a LAUNCH; one whose agent has been unwound has none (R316, R394). -/
def launchResult (s : State) (k : AgentKey) (dest : Opnd) (issue x : Nat) : State :=
  if dest == .zr then s else addVar s k issue (regWrites 32 dest 0 x) none

/-- A refused child launch: its record, its number completes with a fault, and its destination reads the refusal value (R316, R317). -/
def refuseLaunch (s : State) (k : AgentKey) (dest : Opnd) (tl n check issue : Nat) (tag : Word64) : State :=
  match teamOf s k.team, gridOfAgent s k with
  | some t, some g =>
    let s := logRecord s { cause := 28, sub := check, agent := 4, queue := g.queue, domain := g.domain, socket := socketOf t.core
                           unit := t.core % 32, gridid := 0xFFFFFFFF, opnum := n, tag := tag.toNat, time := coreTime s t.core }
    launchResult (completeOp s k.team tl n true) k dest issue 0xFFFFFFFF
  | _, _ => s

/-- A child launch whose record and image have been read: it is accepted, or refused with the first check that fails (R316, R317). -/
def settleLaunch (s : State) (k : AgentKey) (g : Grid) (dest : Opnd) (tl n issue : Nat) (r : Record) (img : ImageRead) : State :=
  match checkRecord s g.domain true r img with
  | .bad m => refuseLaunch s k dest tl n m issue r.tag
  | .ok h =>
    let (s, id) := addGrid s r h g.queue g.priority g.cls g.domain g.vf g.boost (g.depth + 1) (.child k.team tl n) (some g.id)
    launchResult s k dest issue id

/-- What a child launch does with what its reader knows (R316, R317): the record is read as one access with right r, then the image; what is lacking
is asked for, and a record or image that cannot be read is refused. -/
def launchRun (s : State) (r : Reader) : State :=
  match r.goal with
  | .launch k dest record tl n _ issue =>
    match gridOfAgent s k with
    | none => dropReader s r.id
    | some g =>
      let freed := updAgent (dropReader s r.id) k fun a => if a.hold == some (.launchWait r.id) then { a with hold := none } else a
      match lookBytes s r.eye .read record 64 with
      | .need ns => askReader s r ns
      | .ok bs =>
        match cleanBytes bs with
        | none => refuseLaunch freed k dest tl n 2 issue 0
        | some b =>
          let rec_ := parseRecord b
          match (if recordFine rec_ then imageLook s r.eye rec_ else .ok .bad) with
          | .need ns => askReader s r ns
          | .ok i => settleLaunch freed k g dest tl n issue rec_ i
          | _ => refuseLaunch freed k dest tl n 2 issue rec_.tag
      | _ => refuseLaunch freed k dest tl n 2 issue 0
  | _ => s

/-- A child launch begun: its agent waits for a reader of its core (R316). -/
def beginLaunch (s : State) (k : AgentKey) (dest : Opnd) (record tl n pc issue : Nat) : State :=
  match teamOf s k.team, gridOfAgent s k with
  | some t, some g =>
    let (id, s) := newReader s (some t.core) false g.vf (.launch k dest record tl n pc issue)
    let s := updAgent s k fun a => { a with hold := some (.launchWait id) }
    match readerOf s id with
    | some r => launchRun s r
    | none => s
  | _, _ => s

/-! ### Messages to other cores -/

/-- A path of an exchange store or tagged message noted for fences and for the next arrival (R78, R136). -/
def noteXpath (s : State) (k : AgentKey) (issue : Nat) (p : Path) : State :=
  updAgent (notePath s k issue p) k fun a => if a.xpaths.contains p then a else { a with xpaths := a.xpaths ++ [p] }

/-- Whether a core holds a team of the grid (R133, R134). -/
def teamAt (s : State) (grid core : Nat) : Bool := s.teams.any fun t => t.grid == grid && t.core == core

/-- The error report of a message that breaks R133 (R134). -/
def reportRange (s : State) (k : AgentKey) (issue pc lane ea : Nat) : State :=
  deferReport s k issue lane { mkEvent 6 0 (BitVec.ofNat 32 (2 ^ lane)) pc with addr := ea }

/-- One XM packet of a lane (R36, R133, R142, R241). -/
def sendMessage (s : State) (t : Team) (who : Requester) (lane core off : Nat) (op : BankOp) (k : AgentKey) (issue pc : Nat) : State :=
  send s { src := socketOf t.core, dst := socketOf core, relayed := false, planeB := planeOf off, who := who, attr := 0, pa := off
           sseq := 0, msg := .xm core t.grid lane op k issue pc }

/-- A waiting-table entry for messages to other cores, at a number taken at the issue if one was: one reply for each lane (R40, R235, R241). `c` holds
the lanes that park until the reply. -/
def bankEntry (s : State) (core : Nat) (k : AgentKey) (issue pc : Nat) (op : MemOp) (dest : Opnd) (size : Nat)
    (ls : List (Nat × Nat × BitVec 32)) (slot : Option Nat := none) : Nat × State :=
  let (id, s) := fresh s
  let e : Entry :=
    { id := id, slot := slot.getD (tableNext s core (isLadle k)), owner := k, issue := issue, pc := pc, op := op, dest := dest, size := size
      reqs := ls.map fun p => ⟨p.1, p.2.1, none, none, none, size, 0, BitVec.ofNat 64 p.2.2.toNat, true, 0⟩
      groups := [], expected := ls.length, remote := true, noInstall := [], expiry := none, ldaOk := false }
  (id, updCore s core fun c => { c with waiting := c.waiting ++ [e] })

/-- The same as an operation of an XM packet (R142). -/
def TagOp.message (o : TagOp) (off : Nat) (x : Word32) : BankOp :=
  match o with
  | .ldf keep => .ldf off keep
  | .ste => .ste off x
  | .stf => .stf off x
  | .set => .tagset off
  | .clr => .tagclr off
  | .rd => .tagrd off

/-- Lanes that park at a tagged operation go on behind it (R141, R235). -/
def wakeTagLanes (s : State) (k : AgentKey) (lanes : BitVec 32) : State :=
  updAgent s k fun a => (laneIds k).foldl (fun a l =>
    if bit lanes l && laneState a l == .tagWait then
      { a with lanes := sset .ready a.lanes l .ready, lpc := sset a.entry a.lpc l (succPc (lpcOf a l)) }
    else a) a

/-- Poisoned tags and words given to the lanes that waited for them (R141, R142): a local lane goes on and its data lands as a VAR result,
a remote one is answered. -/
def tagDone (s : State) (core : Nat) (done : List (TagWait × Word32 × Bool)) : State :=
  done.foldl (fun s (w, x, bad) =>
    match w.remote with
    | some (c, id) =>
      send s { src := socketOf core, dst := socketOf c, relayed := false, planeB := planeOf w.word, who := .entry c id (isLadle w.agent), attr := 0
               pa := w.word, sseq := 0, msg := .xmr [⟨w.lane, BitVec.ofNat 128 x.toNat, bad.toNat⟩] }
    | none =>
      let s := wakeTagLanes s w.agent w.lanes
      let value := addVar s w.agent w.issue (regWrites 32 w.dest w.lane x.toNat ++ if bad then poisonMarks 32 w.dest w.lane 0 else []) none
      match w.op with
      | .ldf _ | .rd => value
      | _ => s) s

/-- A word's operations served as far as its line and its tag allow (R141). -/
def serveWord (s : State) (team word : Nat) : State :=
  match teamOf s team with
  | none => s
  | some t =>
    let (t', done) := serveTags word (t.tagWaits.length + 1) t
    tagDone (updTeam s team fun _ => t') t.core done

/-- The operations that wait on words of some lines served, as when the lines become present (R138, R234). -/
def serveLines (s : State) (team : Nat) (lines : List Nat) : State :=
  match teamOf s team with
  | none => s
  | some t => (((t.tagWaits.filter fun w => lines.contains (w.word / 128)).map (·.word)).dedup).foldl (fun s w => serveWord s team w) s

/-- A tagged operation applied at its bank (R141): it queues at its word, and the word is served in the order of arrival. DEDUCED, log entry 41. -/
def bankTag (s : State) (team : Nat) (w : TagWait) : State :=
  serveWord (updTeam s team fun t => { t with tagWaits := t.tagWaits ++ [w] }) team w.word

/-- The lanes of a tagged instruction carried out (R141, R142, R234, R235): those of the own core at its bank, behind the agent's stores there
(R127), the others by messages. A lane whose core holds no team of the grid reports the fault of R134. -/
def carryTags (s : State) (k : AgentKey) (t : Team) (o : TagOp) (dest : Opnd) (pc issue : Nat) (ls : List TagLane) (slot : Option Nat := none) :
    State :=
  let own := ls.filter fun l => l.core.isNone
  let far := ls.filterMap fun l => l.core.map fun c => (c, l)
  let (sent, lost) := far.partition fun p => teamAt s t.grid p.1
  let s := lost.foldl (fun s p => wakeTagLanes (reportRange s k issue pc p.2.lane p.2.ea) k p.2.lanes) s
  let s := updTeam s t.uid fun t => landFor t k (own.map fun l => (l.off, 4))
  let s := own.foldl (fun s l =>
    bankTag s t.uid { agent := k, lane := l.lane, lanes := l.lanes, issue := issue, word := l.off, op := o, data := l.value, dest := dest, remote := none }) s
  if sent.isEmpty then s
  else
    let (id, s) := bankEntry s t.core k issue pc (.bank false false) dest 4 (sent.map fun p => (p.2.lane, p.2.off, p.2.lanes)) slot
    sent.foldl (fun s p =>
      sendMessage (noteXpath s k issue ⟨socketOf p.1, planeOf p.2.off⟩) t (.entry t.core id (isLadle k)) p.2.lane p.1 p.2.off
        (o.message p.2.off p.2.value) k issue pc) s

/-- Whether a tagged store behind its release has still to wait for what the agent issued before it (R77 to R79, R141): loads, lanes not yet
sent, stores and tagged stores not yet written in their banks. A load of a tag that waits for its word is no access that a release
writes, and holds back nothing. DEDUCED, log entry 41. -/
def tagsWait (s : State) (a : Agent) (core upto : Nat) : Bool :=
  let mine := (entriesOf s core a.key).filter fun e => decide (e.issue < upto)
  let reads := fun (o : TagOp) => match o with | .ldf _ | .rd => true | _ => false
  a.vars.any (fun r => r.mem && decide (r.issue < upto))
    || mine.any (fun e => isLoad e.op || e.holdsMarkers || (e.remote && e.dest == .zr))
    || a.adv.any (fun o => o.tags && decide (o.upto < upto))
    || (tagWaitsOf s a.key).any (fun w => decide (w.issue < upto) && !reads w.op)
    || (teamOf s a.key.team).any fun t => storesOut t a.key upto

/-- A tagged store begun behind its release, which runs beside the agent while the lanes park (R40, R141, R142, R234): at team scope toward the own
core, at device scope toward another. -/
def tagsBehindRelease (s : State) (a : Agent) (core : Nat) (scope : BitVec 2) (o : TagOp) (dest : Opnd) (pc issue : Nat) (ls : List TagLane) :
    State :=
  let (id, s) := fresh s
  let slot := if ls.any (·.core.isSome) then some (tableNext s core (isLadle a.key)) else none
  let paths := if scope = 1 then [] else fencePaths a scope
  updAgent s a.key fun a => { a with adv := a.adv ++ [⟨id, .tagged o dest pc issue ls, scope, false, 0, 0, issue, paths, slot⟩] }

/-- Whether a release of a scope has nothing to wait for at an agent that issues a tagged store (R78, R79, R141). -/
def releaseIdle (s : State) (a : Agent) (core : Nat) (scope : BitVec 2) (issue : Nat) : Bool :=
  !tagsWait s a core issue && (scope == 1 || (fencePaths a scope).isEmpty)

/-- A fence that is over goes on with what waited for it (R40, R238, R239, R313, R316, R321, R401). -/
def fenceGoesOn (s : State) (k : AgentKey) (core : Nat) (c : Cont) (slot : Option Nat) : State :=
  let s := updAgent s k fun a => { a with hold := none }
  match c with
  | .none => tryArrive s k
  | .stepFence => tryArrive (updAgent s k fun a => { a with stepFences := 0 }) k
  | .safePark idx => updAgent s k fun a => { a with hold := some (.safePark idx) }
  | .endAgent =>
    let s := updAgent s k fun a => { a with ended := true }
    match teamOf s k.team with | some t => checkGrid s t | none => s
  | .launch dest record tl pc issue =>
    let (s, n) := takeNumber s k.team tl
    beginLaunch s k dest record tl n pc issue
  | .access op dest size pc reqs acq relSys =>
    match agentOf s k with
    | none => s
    | some a =>
      let s := match acq with
        | some sc => updAgent s k fun a => { a with marker := true, markerAcq := some sc }
        | none => s
      startAccess s k core (a.issues - 1) pc op dest size reqs relSys slot

/-- An agent that an unwind leaves without a lane has only its release to do (R313, R318). DEDUCED, log entry 39. -/
def endIfEmpty (s : State) (k : AgentKey) : State :=
  match agentOf s k with
  | some a => if allExited a && !a.ended then holdFence s k false true 3 .endAgent else s
  | none => s

/-- A fence that is over delivers the reports of posted accesses (R134, R218), else goes on. -/
def fenceEnds (s : State) (k : AgentKey) (core : Nat) (c : Cont) (slot : Option Nat) : State :=
  match deliverOf s k (·.report) with
  | some s => endIfEmpty s k
  | none => fenceGoesOn s k core c slot

/-- Whether what a fence goes on with finds the waiting-table entry that it needs, where it took none at its issue (R40, R58). -/
def contReady (s : State) (a : Agent) (core : Nat) : Cont → Bool
  | .access op _ _ _ reqs _ _ => !needsEntry s core a.key op (reqs.map (·.va)) || tableFree s core (isLadle a.key)
  | _ => true

/-- One move of a fence (R66, R77 to R79): its markers are sent once loads have returned, no lane is parked and the stores to step memory are in
their banks, and it ends when the replies are in and their largest time has passed; none where neither is possible yet. -/
def fenceProgress (s : State) (a : Agent) (core : Nat) (f : Fence) : Option State :=
  if loadsOut s a core || (f.slot.isNone && !contReady s a core f.cont) then none
  else if !f.rel then some (fenceEnds s a.key core f.cont f.slot)
  else if accessesOut s a core || bankWritesOut s a then none
  else if f.scope = 1 then
    if !(tagWaitsOf s a.key).isEmpty || (entriesOf s core a.key).any (fun e => e.remote) then none
    else some (fenceEnds s a.key core f.cont f.slot)
  else if !f.sent then
    let ps := fencePaths a f.scope
    let s := updAgent s a.key fun a =>
      { a with hold := some (.fence { f with sent := true, replies := ps.length, paths := ps, xpaths := a.xpaths.filter ps.contains })
               paths := a.paths.filter fun p => !ps.contains p
               xpaths := a.xpaths.filter fun p => !ps.contains p }
    some (sendMarkers s core f.id (isLadle a.key) ps)
  else if fenceOver s core true f.replies f.tMax then some (fenceEnds s a.key core f.cont f.slot)
  else none

/-- One move of a release that runs beside its issuer (R78, R141, R238, R326): its markers go out once every earlier lane has been sent and every
earlier store is in its bank, and before a tagged store its earlier loads have returned. -/
def advProgress (s : State) (a : Agent) (core : Nat) (o : AdvOp) : Option State :=
  let earlier := (entriesOf s core a.key).any fun e => decide (e.issue < o.upto) && e.holdsMarkers
  let inBank := (teamOf s a.key.team).any fun t => storesOut t a.key o.upto
  if !o.sent then
    if earlier || inBank || (o.tags && tagsWait s a core o.upto) then none
    else
      let s := updAgent s a.key fun a => { a with adv := updWhere (fun x => x.id == o.id) (fun x => { x with sent := true, replies := o.paths.length }) a.adv }
      some (sendMarkers s core o.id (isLadle a.key) o.paths)
  else if fenceOver s core true o.replies o.tMax then
    let s := updAgent s a.key fun a => { a with adv := a.adv.filter fun x => x.id != o.id }
    some (match o.goal with
      | .count tl n => completeOp s a.key.team tl n false
      | .tagged op dest pc issue ls => match teamOf s a.key.team with | some t => carryTags s a.key t op dest pc issue ls o.slot | none => s
      | .send e => sendReady (updEntry s core e fun x => { x with relSys := false }) core e)
  else none

/-- The timeline-fault event of a WAITTL (R389, R393). DEDUCED, log entry 39. -/
def timelineEvent (tl low pc : Nat) : Event := { mkEvent 24 tl (BitVec.ofNat 32 low) pc with info2 := BitVec.ofNat 32 tl }

/-- One move of a WAITTL (R86, R134, R218, R324, R393): its wait and its acquire end, and a faulted operation it covers raises the event; without one
the reports of posted accesses that have come are delivered, as at a fence. -/
def waittlProgress (s : State) (a : Agent) (t : Team) (tl n pc : Nat) : Option State :=
  let x := timelineOf t tl
  let hit := match faultMark x with | some m => decide (m ≤ n) | none => false
  if (x.completed < n && !hit) || loadsOut s a t.core then none
  else
    let s := updAgent s a.key fun a => { a with hold := none }
    if hit then
      let s := updTeam s t.uid fun t => setTimeline t tl { timelineOf t tl with faulted := x.faulted.filter fun m => n < m }
      some (raise s a.key (timelineEvent tl (x.faulted.min?.getD 0) pc))
    else some (match deliverOf s a.key (·.report) with
      | some s => endIfEmpty s a.key
      | none => s)

/-- What a fence, a WAITTL or a TLADV of an agent can do next (R78, R324, R326). -/
def waitProgress (s : State) (k : AgentKey) : Option State :=
  match agentOf s k, teamOf s k.team with
  | some a, some t =>
    let adv := a.adv.findSome? fun o => advProgress s a t.core o
    match a.hold with
    | some (.fence f) => match fenceProgress s a t.core f with | some s => some s | none => adv
    | some (.waittl tl n pc) => match waittlProgress s a t tl n pc with | some s => some s | none => adv
    | _ => adv
  | _, _ => none

/-- A passed switch marker (R80, R204, R313, R353, R387): deferred faults are delivered; otherwise the agent goes on, to the release of its
end if its lanes have exited, or to its arrival at a STEP. -/
def passMarker (s : State) (k : AgentKey) : Option State :=
  match agentOf s k, teamOf s k.team with
  | some a, some t =>
    if !a.marker || a.hold.isSome || a.ended || outstanding s a t.core then none
    else match deliver (updAgent s k fun a => { a with marker := false, markerAcq := none }) k with
      | some s => some (endIfEmpty s k)
      | none =>
        let s := updAgent s k fun a => { a with marker := false, markerAcq := none }
        if allExited a then some (holdFence s k false true 3 .endAgent) else some (tryArrive s k)
  | _, _ => none

/-- What becomes of an agent whose lanes have just exited (R151, R312, R313): WAITJ waits are looked at, groups are left, the last exit is
a switch marker. -/
def afterExit (s : State) (k : AgentKey) : State :=
  let s := updAgent s k fun a => (List.range 8).foldl (fun a n => releaseWaitj a (BitVec.ofNat 3 n)) a
  match agentOf s k, teamOf s k.team with
  | some a, some t => if allExited a then checkGrid (updAgent s k fun a => { a with marker := true }) t else tryArrive s k
  | _, _ => s

end Sys2Proof.Machine
end

