-- ==== Sys2Proof/Machine/Control.lean ====
section
/-! DEFINITION. Control flow, containment regions, safe points and child launches: opcodes 0x00 to 0x0F (R191, R306 to R320). -/

namespace Sys2Proof.Machine

/-! ### Targets -/

/-- The line of an agent's fetch buffer that holds a PC (R92). -/
def bufLine (a : Agent) (pc : Nat) : Option FetchLine := a.fetchBuf.find? fun l => l.va == pc / 64 * 64

/-- The line word of a fetch line (R189). -/
def lineWord (bs : List Byte) : Nat := leNat ((bs.drop 60).take 4)

/-- Whether the slot of a PC is marked as a branch target (R189, R191). -/
def targetMarked (bs : List Byte) (pc : Nat) : Bool := (lineWord bs).testBit (pc % 64 / 12)

/-- What is known of a branch target: its line must be fetched first, it is illegal, or lanes may go there (R191). -/
inductive Judged where
  | need (line : Nat)
  | bad
  | go
  deriving DecidableEq, Repr

/-- A target judged from the fetch buffer: a line whose fetch failed is not judged, and the fault is raised there (R191). -/
def judge (a : Agent) (pc : Nat) : Judged :=
  if !legalPc pc then .bad
  else match bufLine a pc with
    | none => .need (pc / 64 * 64)
    | some l => match l.st with
      | .good bs => if targetMarked bs pc then .go else .bad
      | .retry => .need (pc / 64 * 64)
      | _ => .go

/-- The first line that some judged targets wait for. -/
def neededLine : List Judged → Option Nat
  | [] => none
  | .need l :: _ => some l
  | _ :: r => neededLine r

/-- Lanes sent to new PCs. -/
def moveLanes (s : State) (k : AgentKey) (ts : List (Nat × Nat)) : State :=
  updAgent s k fun a => { a with lpc := ts.foldl (fun m t => sset a.entry m t.1 t.2) a.lpc }

/-- The target of an FB body (R196). -/
def fbTarget (pc : Nat) (x : FB) : Nat :=
  ofI 64 (((pc / 64 * 64 : Nat) : Int) + 64 * toS 29 x.lineoff.toNat + 12 * (x.slot.toNat : Int))

/-- The link register's effects: the successor of the call, once for an s-register (R310). -/
def Iss.linkWrites (c : Iss) (link : Opnd) : List RegWrite :=
  (if isS link then c.act.take 1 else c.act).flatMap fun l => regWrites 64 link l (succPc c.pc)

/-- A branch of the active lanes to their targets, with the link of a call (R191, R309, R310). -/
def Iss.branch (c : Iss) (link : Opnd) (target : Nat → Nat) : Eff :=
  let js := c.act.map fun l => (l, judge c.a (target l))
  match neededLine (js.map (·.2)) with
  | some line => .stay (updAgent c.s0 c.a.key fun a => { a with needLine := some line })
  | none =>
    match (js.filter fun j => j.2 == .bad).map (·.1) with
    | [] => .ok (moveLanes (c.pend 4 (c.linkWrites link)) c.a.key (c.act.map fun l => (l, target l)))
    | bad => c.fault 4 0 (maskOf bad)

def execNop (x : F3) (s : State) : Result := issue (.nop x) x.h s fun c => .ok c.s

def execBra (x : FB) (s : State) : Result :=
  issue (.bra x) x.h s fun c => c.branch .zr fun _ => fbTarget c.pc x

def execBrx (x : F3) (s : State) : Result :=
  issue (.brx x) x.h s fun c => c.branch .zr fun l => val64 c.a x.a l

def execCall (x : FB) (s : State) : Result :=
  issue (.call x) x.h s fun c => c.branch x.link fun _ => fbTarget c.pc x

def execCallx (x : F3) (s : State) : Result :=
  issue (.callx x) x.h s fun c => c.branch x.d fun l => val64 c.a x.a l

/-- Lanes exit (R152, R313). -/
def exitLanes (s : State) (k : AgentKey) (ls : List Nat) : State :=
  if ls.isEmpty then s
  else afterExit (updAgent s k fun a => { a with lanes := ls.foldl (fun m l => sset .ready m l .exited) a.lanes }) k

/-- RET (R310): a zero link exits the lane, an illegal PC faults before any lane moves, the tgt bit is not checked. -/
def execRet (x : F3) (s : State) : Result :=
  issue (.ret x) x.h s fun c =>
    let ts := c.act.map fun l => (l, val64 c.a x.a l)
    match (ts.filter fun t => t.2 != 0 && !legalPc t.2).map (·.1) with
    | [] => .ok (exitLanes (moveLanes c.s c.a.key (ts.filter fun t => t.2 != 0)) c.a.key ((ts.filter fun t => t.2 == 0).map (·.1)))
    | bad => c.fault 4 0 (maskOf bad)

/-! ### Rejoin masks -/

/-- DEDUCED, log entry 30. -/
def execJoin (x : F3) (s : State) : Result :=
  issue (.join x) x.h s fun c => .ok (if c.act.isEmpty then c.s else c.pend 4 (regWrites 32 x.d 0 (maskOf c.act).toNat))

/-- Lanes parked where they stand. -/
def parkLanes (s : State) (k : AgentKey) (ls : List Nat) (pc : Nat) (st : LaneState) : State :=
  updAgent s k fun a =>
    { a with lanes := ls.foldl (fun m l => sset .ready m l st) a.lanes, lpc := ls.foldl (fun m l => sset a.entry m l pc) a.lpc }

def execWaitj (x : F3) (s : State) : Result :=
  issue (.waitj x) x.h s fun c =>
    let k := match x.a with
      | .k n => n
      | _ => 0
    .ok (updAgent (parkLanes c.s c.a.key c.ex c.pc (.waitj k)) c.a.key fun a => releaseWaitj a k)

/-! ### Exit, yield and safe points -/

def execExit (x : F3) (s : State) : Result :=
  issue (.exit x) x.h s fun c => .ok (exitLanes c.s c.a.key c.act)

/-- YIELD (R314): its lanes are passed over at the warp's next issue, and the warp ranks low in the next selection. -/
def execYield (x : F3) (s : State) : Result :=
  issue (.yield x) x.h s fun c =>
    .ok (if c.act.isEmpty then c.s else c.upd fun a => { a with yielded := maskOf c.ex, gaveWay := true })

/-- SAFE (R204, R208, R315, R380, R387, R401): it waits for earlier results, delivers a deferred fault as a marker does, sets the issue
count to zero, and parks the agent where a save or a shed asks for it. -/
def execSafe (x : F3) (s : State) : Result :=
  issue (.safe x) x.h s fun c =>
    let idx := fld x.imm 11 0
    if c.t.hdr.liveCount ≤ idx then c.illegal
    else if outstanding c.s0 c.a c.t.core then .stay (updAgent c.s0 c.a.key fun a => { a with marker := true })
    else if !c.a.pend.isEmpty then .stay (updAgent c.s0 c.a.key fun a => { a with nextIssue := cycleOf c.s0 c.t.core + 1 })
    else match deliver c.s0 c.a.key with
      | some s => .stay s
      | none =>
        let parks := parksAtSafe c.s c.g (isLadle c.a.key)
        .ok (c.upd fun a => { a with issueCount := 0, hold := if parks then some (.safePark idx) else a.hold })

/-! ### Child launches -/

/-- LAUNCH (R316): only warp 0 and a timeline of the team; depth, alignment, then the release that comes before the number. -/
def execLaunch (x : F3) (s : State) : Result :=
  issue (.launch x) x.h s fun c =>
    let tl := x.bnd.toNat
    if c.a.key.idx != 0 || !hasTimeline c.t tl then c.illegal
    else match c.act with
      | [] => .ok c.s
      | l :: _ =>
        let record := val64 c.a x.a l
        if 10 ≤ c.g.depth then c.fault 17 0 0
        else if record % 64 ≠ 0 then c.faultAt 5 0 (maskOf c.act) record
        else .ok (holdFence c.s c.a.key false true 2 (.launch x.d record tl c.pc c.n))

/-! ### Containment regions, traps and breakpoints -/

/-- CROPEN (R191, R318). DEDUCED, log entry 29. -/
def execCropen (x : FB) (s : State) : Result :=
  issue (.cropen x) x.h s fun c =>
    let target := fbTarget c.pc x
    match judge c.a target with
    | .need line => .stay (updAgent c.s0 c.a.key fun a => { a with needLine := some line })
    | .bad => c.fault 4 0 (maskOf c.ex)
    | .go => if 8 ≤ c.a.regions.length then c.fault 16 0 0 else .ok (c.upd fun a => { a with regions := target :: a.regions })

def execCrclose (x : F3) (s : State) : Result :=
  issue (.crclose x) x.h s fun c =>
    match c.a.regions with
    | [] => c.illegal
    | _ :: r => .ok (c.upd fun a => { a with regions := r })

def execTrap (x : F3) (s : State) : Result :=
  issue (.trap x) x.h s fun c => if c.act.isEmpty then .ok c.s else c.fault 23 0 (BitVec.ofNat 32 (fld x.imm 15 0))

/-- BKPT (R320): the warp halts before it takes effect when its domain is debugged, and goes past it once resumed. DESIGN CHOICE, log entry 38. -/
def execBkpt (x : F3) (s : State) : Result :=
  issue (.bkpt x) x.h s fun c =>
    let code := BitVec.ofNat 16 (fld x.imm 15 0)
    if c.act.isEmpty || !bit c.s0.debugOn c.g.domain || c.a.debugPass.contains c.pc then
      .ok (c.upd fun a => { a with debugPass := a.debugPass.filter (· != c.pc) })
    else
      let s := updAgent c.s0 c.a.key fun a => { a with hold := some (.bkpt code c.pc) }
      .stay { s with outputs := s.outputs ++ [.debugHalt c.a.key code] }

end Sys2Proof.Machine
end

