-- ==== Sys2Proof/Machine/System.lean ====
section
/-! DEFINITION. Steps, reductions, timelines, time and special registers: opcodes 0x10 to 0x18 (R157 to R160, R321 to R329). -/

namespace Sys2Proof.Machine

/-- STEP (R131, R144, R321): each executing lane parks there; the arrival follows when the implicit marker is passed. -/
def execStep (x : F3) (s : State) : Result :=
  issue (.step x) x.h s fun c =>
    let n := fld x.imm 2 0
    if !isMember c.t n c.a.key.idx then c.illegal
    else
      let fence := if bit x.h.mod 0 then 2 ^ n else 0
      let s := parkLanes c.s c.a.key c.ex c.pc (.atStep n)
      .ok (updAgent s c.a.key fun a => { a with marker := true, stepFences := a.stepFences ||| fence })

/-- A contribution to the k-th reduction of a group (R323). -/
def contribute (s : State) (g : GroupKey) (k : Nat) (op : BitVec 3) (v : Word64) (m : RedMember) : State :=
  if s.reductions.any fun r => r.group == g && r.k == k then
    { s with
      reductions := updWhere (fun r => r.group == g && r.k == k)
        (fun r => { r with mixed := r.mixed || r.op != op, value := BitVec.ofNat 64 (reduceOp 64 r.op.toNat r.value.toNat v.toNat)
                           members := r.members ++ [m] }) s.reductions }
  else { s with reductions := s.reductions ++ [⟨g, k, op, false, v, [m]⟩] }

def execRedt (x : F3) (s : State) : Result :=
  issue (.redt x) x.h s fun c =>
    let n := fld x.imm 2 0
    if !isMember c.t n c.a.key.idx then c.illegal
    else match c.act with
      | [] => .ok c.s
      | l :: _ =>
        let g := groupKey c.t n
        let k := sget 0 c.a.redtCount n
        let s := c.upd fun a => { a with redtCount := sset 0 a.redtCount n (k + 1) }
        .ok (checkReductions (contribute s g k (BitVec.ofNat 3 (fld x.h.mod 2 0)) (BitVec.ofNat 64 (val64 c.a x.a l))
          ⟨c.a.key, x.d, c.n, c.pc, true⟩) c.t.grid)

def execWaittl (x : F3) (s : State) : Result :=
  issue (.waittl x) x.h s fun c =>
    let tl := x.bnd.toNat
    if !hasTimeline c.t tl then c.illegal
    else match c.act with
      | [] => .ok c.s
      | l :: _ => .ok (c.upd fun a => { a with hold := some (.waittl tl (c.valB 64 x l) c.pc) })

def execTlrd (x : F3) (s : State) : Result :=
  issue (.tlrd x) x.h s fun c =>
    let tl := x.bnd.toNat
    if !hasTimeline c.t tl then c.illegal
    else
      let y := timelineOf c.t tl
      .ok (c.pend 2 ((c.act.take 1).flatMap fun l => regWrites 64 x.d l (if bit x.imm 0 then y.issued else y.completed)))

def execTladv (x : F3) (s : State) : Result :=
  issue (.tladv x) x.h s fun c =>
    let tl := x.bnd.toNat
    if !hasTimeline c.t tl then c.illegal
    else if c.act.isEmpty then .ok c.s
    else
      let (s, n) := takeNumber c.s c.t.uid tl
      let (id, s) := fresh s
      .ok (updAgent s c.a.key fun a => { a with adv := a.adv ++ [⟨id, .count tl n, 2, false, 0, 0, c.n, c.a.paths.filter (scopeHas 2), none⟩] })

/-- SLEEP (R327): 0 has no effect. -/
def execSleep (x : F3) (s : State) : Result :=
  issue (.sleep x) x.h s fun c =>
    match c.act with
    | [] => .ok c.s
    | l :: _ =>
      let ns := c.valB 64 x l % 2 ^ 32
      .ok (if ns = 0 then c.s else c.upd fun a => { a with hold := some (.sleep (coreTime c.s c.t.core + ns)) })

/-- DEDUCED, log entry 29. -/
def execRdtime (x : F3) (s : State) : Result :=
  issue (.rdtime x) x.h s fun c =>
    .ok (c.pend 2 ((c.act.take 1).flatMap fun l => regWrites 64 x.d l (coreTime c.s c.t.core)))

/-- The value of a special register in a lane (R157); the ladle reads %warp as 0xFFFF_FFFF. -/
def Iss.special (c : Iss) (n l : Nat) : Nat :=
  match n with
  | 0 => if isLadle c.a.key then 0 else l
  | 1 => if isLadle c.a.key then 0xFFFFFFFF else c.a.key.idx
  | 2 => c.t.teamid
  | 3 => c.g.id
  | 4 => c.t.core % 32
  | 5 => socketOf c.t.core
  | 6 => c.g.depth
  | 7 => c.pc
  | 8 => coreTime c.s c.t.core
  | 9 => c.t.bndflags.toNat
  | 10 => c.a.crcause.toNat
  | 11 => c.a.cri.toNat
  | 12 => c.a.crpc.toNat
  | 13 => c.a.accsat.toNat
  | 14 => c.a.fpstat.toNat
  | 15 => c.a.rmode.toNat
  | n => ((c.t.bnd[n - 16]?).getD 0).toNat

/-- Bits of a special register (R157). -/
def specialWidth (n : Nat) : Nat := if n = 7 ∨ n = 8 ∨ n = 9 ∨ n = 12 ∨ 16 ≤ n then 64 else 32

/-- MOVSR (R329): a per-lane special does not go to an s-register of a warp. DEDUCED, log entry 29. -/
def execMovsr (x : F3) (s : State) : Result :=
  issue (.movsr x) x.h s fun c =>
    let n := fld x.imm 7 0
    if (n == 0 || n == 7) && isS x.d && !isLadle c.a.key then c.illegal
    else
      let ls := if isS x.d then c.act.take 1 else c.act
      .ok (c.pend 2 (ls.flatMap fun l => regWrites (specialWidth n) x.d l (c.special n l)))

def execMovrs (x : F3) (s : State) : Result :=
  issue (.movrs x) x.h s fun c =>
    .ok (c.pend 2 ((c.act.take 1).map fun l => .special (fld x.imm 7 0) (BitVec.ofNat 64 (val64 c.a x.a l))))

end Sys2Proof.Machine
end

