-- ==== Sys2Proof/Machine/Bank.lean ====
section
/-! DEFINITION. Step memory as instructions reach it: holding an instruction at absent lines, ranges that lie in one region, and writes
that land in the banks (R103, R119, R123, R124, R138, R298). -/

namespace Sys2Proof.Machine

/-- The instruction is held at absent lines: its lanes park, and it issues again in full when the lines are present (R138, R348).
DEDUCED, log entry 23. -/
def Iss.atAbsent (c : Iss) (lines : List Nat) : State :=
  let old := (agentOf c.s0 c.a.key).getD c.a
  updAgent c.s c.a.key fun b =>
    { b with lpc := old.lpc, marker := old.marker, gaveWay := old.gaveWay
             lanes := c.ex.foldl (fun m l => sset .ready m l .absent) old.lanes, absent := old.absent ++ [⟨maskOf c.ex, lines⟩] }

/-- The instruction waits for absent lines instead of taking effect (R138). DEDUCED, log entry 23. -/
def Iss.absent (c : Iss) (lines : List Nat) : Eff := .stay (c.atAbsent lines)

/-- Whether a range lies wholly in one region of the team (R119). -/
def inOneRegion (t : Team) (off n : Nat) : Bool := (regionAt t.hdr off n).isSome

/-- The absent lines that hold back a read of a range: a STEP region's present plane is always present (R137). -/
def readWaits (t : Team) (off n : Nat) : List Nat :=
  match regionAt t.hdr off n with
  | some r => if r.kind = .step then [] else absentLines t off n
  | none => []

/-- Bytes written by a copy, ACCEPI or a job, with what they release (R103, R141, R298). -/
def landIn (s : State) (team off : Nat) (bs : List Byte) (bad : Bool) : State :=
  match teamOf s team with
  | none => s
  | some t =>
    let (t', done) := landBytes t off bs bad
    tagDone (updTeam s team fun _ => t') t.core done

/-- `n` bytes of step memory as loads read them. -/
def stepBytes (t : Team) (off n : Nat) : List Byte := (List.range n).map fun i => stepByte t (off + i)

/-- The context of an issue once the agent's earlier stores in the banks of some ranges have been written (R127). -/
def Iss.landed (c : Iss) (rs : List (Nat × Nat)) : Iss :=
  { c with t := landFor c.t c.a.key rs, s := updTeam c.s c.t.uid fun t => landFor t c.a.key rs }

end Sys2Proof.Machine
end

