-- ==== Sys2Proof/Machine/Float.lean ====
section
/-! DEFINITION. Floating-point arithmetic, comparison and special functions: opcodes 0x60 to 0x83 (R263 to R275). -/

namespace Sys2Proof.Machine

/-- The rounding mode of an arithmetic instruction (R264). -/
def Iss.mode (c : Iss) (h : Hdr) : Rnd := modeOf c.a (fld h.mod 2 0)

/-- The .sat clamp at MOD[3], after rounding and flags (R265). -/
def satIf (f : Fmt) (h : Hdr) (r : Nat × FFlags) : Nat × FFlags := (if bit h.mod 3 then satClamp f r.1 else r.1, r.2)

/-- A binary32 instruction of two operands. -/
def Iss.fp2 (c : Iss) (i : Instr) (x : F3) (f : Nat → Nat → Nat × FFlags) : Eff :=
  c.aluF i x.d 32 4 fun l => f (c.val 32 x.a l) (c.valB 32 x l)

def execFadd (x : F3) (s : State) : Result :=
  issue (.fadd x) x.h s fun c => c.fp2 (.fadd x) x fun a b => satIf f32 x.h (addCode f32 (c.mode x.h) a b)

def execFsub (x : F3) (s : State) : Result :=
  issue (.fsub x) x.h s fun c => c.fp2 (.fsub x) x fun a b => satIf f32 x.h (addCode f32 (c.mode x.h) a (negCode f32 b))

def execFmul (x : F3) (s : State) : Result :=
  issue (.fmul x) x.h s fun c => c.fp2 (.fmul x) x fun a b => satIf f32 x.h (mulCode f32 (c.mode x.h) a b)

def execFfma (x : F3) (s : State) : Result :=
  issue (.ffma x) x.h s fun c =>
    c.aluF (.ffma x) x.d 32 4 fun l =>
      satIf f32 x.h (fmaCode f32 (c.mode x.h) (c.val 32 x.a l) (c.valB 32 x l) (c.val 32 x.c l))

def execFmin (x : F3) (s : State) : Result :=
  issue (.fmin x) x.h s fun c => c.fp2 (.fmin x) x (minMaxCode f32 false)

def execFmax (x : F3) (s : State) : Result :=
  issue (.fmax x) x.h s fun c => c.fp2 (.fmax x) x (minMaxCode f32 true)

/-- A comparison of two codes: a NaN makes it the .unord bit, a signalling NaN sets invalid (R269). -/
def fcompare (f : Fmt) (h : Hdr) (a b : Nat) : Bool × FFlags :=
  let r := match FVal.cmp (decodeF f a) (decodeF f b) with
    | none => bit h.mod 3
    | some o => condHolds (fld h.mod 2 0) o
  (r, if isSnan f a || isSnan f b then fInvalid else 0)

def execFcmp (x : F3) (s : State) : Result :=
  issue (.fcmp x) x.h s fun c =>
    c.aluP (.fcmp x) x.d 4 fun l =>
      let r := fcompare f32 x.h (c.val 32 x.a l) (c.valB 32 x l)
      (combine (fld x.h.mod 5 4) r.1 (c.pred x.c l), r.2)

/-- The class bit of a binary32 code (R270). -/
def fclassBit (a : Nat) : Nat :=
  match decodeF f32 a with
  | .nan => if isSnan f32 a then 8 else 9
  | .inf n => if n then 0 else 7
  | .fin n m _ =>
    if m = 0 then (if n then 3 else 4)
    else if m < 2 ^ 23 then (if n then 2 else 5)
    else if n then 1 else 6

def execFclass (x : F3) (s : State) : Result :=
  issue (.fclass x) x.h s fun c => c.unW (.fclass x) x 32 32 4 fun a => 2 ^ fclassBit a

/-- Rounding to an integral value: only invalid, for a signalling NaN (R271). -/
def frndCode (mode : Rnd) (a : Nat) : Nat × FFlags :=
  match decodeF f32 a with
  | .nan => (f32.nanCode, if isSnan f32 a then fInvalid else 0)
  | .inf _ => (a, 0)
  | .fin n m e => if m = 0 then (a, 0) else ((toFloat f32 .rne false (.fin n (roundInt mode n m e).1 0)).1, 0)

def execFrnd (x : F3) (s : State) : Result :=
  issue (.frnd x) x.h s fun c => c.aluF (.frnd x) x.d 32 4 fun l => frndCode (c.mode x.h) (c.val 32 x.a l)

/-- a - trunc a with the sign of a (R271). -/
def ffracCode (a : Nat) : Nat × FFlags :=
  match decodeF f32 a with
  | .nan => (f32.nanCode, if isSnan f32 a then fInvalid else 0)
  | .inf _ => (f32.nanCode, fInvalid)
  | .fin n m e => ((toFloat f32 .rne false (.fin n (if 0 ≤ e then 0 else m % 2 ^ (-e).toNat) e)).1, 0)

def execFfrac (x : F3) (s : State) : Result :=
  issue (.ffrac x) x.h s fun c => c.aluF (.ffrac x) x.d 32 4 fun l => ffracCode (c.val 32 x.a l)

/-- a * 2^n rounded once (R267). Beyond 1000 either way the result no longer depends on n. -/
def fscaleCode (mode : Rnd) (a n : Nat) : Nat × FFlags :=
  let k := max (-1000) (min 1000 (toS 32 n))
  let fl := if isSnan f32 a then fInvalid else 0
  match decodeF f32 a with
  | .fin s m e => toFloat f32 mode false (.fin s m (e + k))
  | v => ((toFloat f32 mode false v).1, fl)

def execFscale (x : F3) (s : State) : Result :=
  issue (.fscale x) x.h s fun c => c.fp2 (.fscale x) x fun a n => satIf f32 x.h (fscaleCode (c.mode x.h) a n)

/-- A special function of A with latency SFU (R272). -/
def Iss.sfu (c : Iss) (i : Instr) (x : F3) (f : SFun) : Eff :=
  c.aluF i x.d 32 12 fun l => specialFn f (BitVec.ofNat 32 (c.val 32 x.a l))

def execFrcp (x : F3) (s : State) : Result := issue (.frcp x) x.h s fun c => c.sfu (.frcp x) x .rcp

def execFrsq (x : F3) (s : State) : Result := issue (.frsq x) x.h s fun c => c.sfu (.frsq x) x .rsq

def execFsqrt (x : F3) (s : State) : Result :=
  issue (.fsqrt x) x.h s fun c => c.sfu (.fsqrt x) x (.sqrt (c.mode x.h))

def execFexp2 (x : F3) (s : State) : Result := issue (.fexp2 x) x.h s fun c => c.sfu (.fexp2 x) x .exp2

def execFlog2 (x : F3) (s : State) : Result := issue (.flog2 x) x.h s fun c => c.sfu (.flog2 x) x .log2

def execFsin (x : F3) (s : State) : Result := issue (.fsin x) x.h s fun c => c.sfu (.fsin x) x .sin

def execFcos (x : F3) (s : State) : Result := issue (.fcos x) x.h s fun c => c.sfu (.fcos x) x .cos

def execFtanh (x : F3) (s : State) : Result := issue (.ftanh x) x.h s fun c => c.sfu (.ftanh x) x .tanh

/-- Both halves of a packed operation, flags ORed (R274). -/
def packedHalves (f : Nat → Nat × FFlags) : Nat × FFlags :=
  let lo := f 0
  let hi := f 1
  (lo.1 + hi.1 * 65536, lo.2 ||| hi.2)

/-- Half `k` of a packed word. -/
def halfOf (k x : Nat) : Nat := if k = 0 then x % 65536 else x / 65536 % 65536

def execPkadd (x : F3) (s : State) : Result :=
  issue (.pkadd x) x.h s fun c => c.fp2 (.pkadd x) x fun a b =>
    packedHalves fun k => satIf f16 x.h (addCode f16 (c.mode x.h) (halfOf k a) (halfOf k b))

def execPkmul (x : F3) (s : State) : Result :=
  issue (.pkmul x) x.h s fun c => c.fp2 (.pkmul x) x fun a b =>
    packedHalves fun k => satIf f16 x.h (mulCode f16 (c.mode x.h) (halfOf k a) (halfOf k b))

def execPkfma (x : F3) (s : State) : Result :=
  issue (.pkfma x) x.h s fun c =>
    c.aluF (.pkfma x) x.d 32 4 fun l => packedHalves fun k =>
      satIf f16 x.h (fmaCode f16 (c.mode x.h) (halfOf k (c.val 32 x.a l)) (halfOf k (c.valB 32 x l)) (halfOf k (c.val 32 x.c l)))

def execPkmax (x : F3) (s : State) : Result :=
  issue (.pkmax x) x.h s fun c => c.fp2 (.pkmax x) x fun a b =>
    packedHalves fun k => minMaxCode f16 true (halfOf k a) (halfOf k b)

def execDadd (x : F3) (s : State) : Result :=
  issue (.dadd x) x.h s fun c => c.onDp fun c =>
    c.aluF (.dadd x) x.d 64 16 fun l => addCode f64 (c.mode x.h) (c.val 64 x.a l) (c.val 64 x.b l)

def execDmul (x : F3) (s : State) : Result :=
  issue (.dmul x) x.h s fun c => c.onDp fun c =>
    c.aluF (.dmul x) x.d 64 16 fun l => mulCode f64 (c.mode x.h) (c.val 64 x.a l) (c.val 64 x.b l)

def execDfma (x : F3) (s : State) : Result :=
  issue (.dfma x) x.h s fun c => c.onDp fun c =>
    c.aluF (.dfma x) x.d 64 16 fun l => fmaCode f64 (c.mode x.h) (c.val 64 x.a l) (c.val 64 x.b l) (c.val 64 x.c l)

def execDcmp (x : F3) (s : State) : Result :=
  issue (.dcmp x) x.h s fun c => c.onDp fun c =>
    c.aluP (.dcmp x) x.d 16 fun l =>
      let r := fcompare f64 x.h (c.val 64 x.a l) (c.val 64 x.b l)
      (combine (fld x.h.mod 5 4) r.1 (c.pred x.c l), r.2)

end Sys2Proof.Machine
end

