-- ==== Sys2Proof/Machine/Convert.lean ====
section
/-! DEFINITION. Conversions, packing and bounds: opcodes 0x84 to 0x88 (R186, R187, R276 to R281). -/

namespace Sys2Proof.Machine

/-- A type of R276 and of the format codes of R172 that conversions accept. -/
inductive NType where
  | flt (f : Fmt)
  | int (bits : Nat) (sgn : Bool)
  | tern
  | bin1
  deriving DecidableEq, Repr

/-- The type of a code (R276); none for a code that no conversion accepts. -/
def ntypeOf (code : Nat) : Option NType :=
  match code with
  | 0 => some (.flt f32) | 1 => some (.flt bf16) | 2 => some (.flt f16) | 3 => some (.flt e4m3) | 4 => some (.flt e5m2)
  | 5 => some (.flt e3m2) | 6 => some (.flt e2m3) | 7 => some (.flt e2m1)
  | 17 => some (.int 16 true) | 18 => some (.int 8 true) | 19 => some (.int 8 false) | 20 => some (.int 4 true)
  | 21 => some (.int 4 false) | 22 => some (.int 2 true) | 26 => some .tern | 27 => some .bin1
  | 32 => some (.flt f64) | 40 => some (.int 32 true) | 41 => some (.int 32 false)
  | _ => none

/-- The type of a code that the version assigns (R201). -/
def ntypeIn (version code : Nat) : Option NType :=
  if version < 3 ∧ (code = 26 ∨ code = 27) then none else ntypeOf code

/-- The value of a code in the low bits of its position, with the flag of a signalling NaN; none for TERN code 3 (R176, R276). -/
def sourceValue (t : NType) (x : Nat) : Option (FVal × FFlags) :=
  match t with
  | .flt f => let c := x % 2 ^ f.width; some (decodeF f c, if isSnan f c then fInvalid else 0)
  | .int bits sgn => let c := x % 2 ^ bits; some (ofInt (if sgn then toS bits c else (c : Int)), 0)
  | .tern => match x % 4 with
    | 0 => some (ofInt 0, 0)
    | 1 => some (ofInt 1, 0)
    | 2 => some (ofInt (-1), 0)
    | _ => none
  | .bin1 => some (ofInt (if x % 2 = 1 then -1 else 1), 0)

/-- Whether a target represents every finite value of a source type, so that .sat and the mode have no effect (R187). -/
def widens (dst src : Fmt) : Bool :=
  decide (src.mb ≤ dst.mb) && decide (dst.qmin ≤ src.qmin)
    && (match decodeF src src.maxCode, decodeF dst dst.maxCode with
        | .fin _ m e, .fin _ n g => !FVal.lt (.fin false n g) (.fin false m e)
        | _, _ => false)

/-- A value converted to a type: its code as it stands in a 32- or 64-bit position, and its flags (R186, R276). -/
def targetCode (t : NType) (mode : Rnd) (sat : Bool) (v : FVal) : Nat × FFlags :=
  match t with
  | .flt f => toFloat f mode sat v
  | .int bits sgn =>
    let r := toInt (intLo bits sgn) (intHi bits sgn) mode v
    (ofI 32 r.1, r.2)
  | .tern =>
    let r := toInt (-1) 1 mode v
    (if r.1 < 0 then 2 else r.1.toNat, r.2)
  | .bin1 => match v with
    | .nan => (0, fInvalid)
    | .inf n => (n.toNat, fInexact)
    | .fin n m e => (n.toNat, if FVal.cmp (.fin false m e) (.fin false 1 0) = some .eq then 0 else fInexact)

/-- Whether a conversion draws under SR: only of a value that the target does not represent, and never the sign test of BIN1 (R169, R186). -/
def drawsFor (t : NType) (v : FVal) : Bool :=
  match t with
  | .flt f => drawsFloat f v
  | .int bits sgn => drawsInt (intLo bits sgn) (intHi bits sgn) v
  | .tern => drawsInt (-1) 1 v
  | .bin1 => false

/-- One element converted in a lane: code, flags, and the counter after it (R169, R170, R186). -/
def convertElem (team : Team) (a : Agent) (h : Hdr) (l counter : Nat) (t : NType) (sat : Bool) (v : FVal) : Nat × FFlags × Nat :=
  let (mode, n) := drawMode team a (fld h.mod 2 0) l counter (drawsFor t v)
  let r := targetCode t mode sat v
  (r.1, r.2, n)

/-- The format fault of a type code (R266), which names the executing lanes. DEDUCED, log entry 29. -/
def Iss.format (c : Iss) : Eff := c.fault 12 0 (maskOf c.ex)

/-- A conversion in each lane: `f` gives a lane's code, flags and rounding counter, or none for an element that is no value. A uniform conversion is
evaluated in the lowest active lane, from whose rounding counter it draws (R170; DEDUCED, log entry 12). -/
def Iss.convertLanes (c : Iss) (i : Instr) (d : Opnd) (w lat : Nat) (f : Nat → Option (Nat × FFlags × Nat)) : Eff :=
  let ls := c.evalLanes i d
  let bad := ls.filter fun l => (f l).isNone
  if !bad.isEmpty then c.fault 12 0 (maskOf bad)
  else
    let rs := ls.filterMap fun l => (f l).map fun r => (l, r)
    let s := c.pend lat (rs.flatMap (fun r => regWrites w d r.1 r.2.1) ++ fpWrites (rs.map (·.2.2.1)))
    .ok (updAgent s c.a.key fun a => rs.foldl (fun a r => setCounter a r.1 r.2.2.2) a)

/-- A conversion between two float types (R277): an equal-type or widening one is exact. -/
def Iss.fcvt (c : Iss) (x : F3) (dc sc : Nat) (df sf : Fmt) : Eff :=
  let sat := bit x.h.mod 3 && !widens df sf
  let lat := if dc = 32 ∨ sc = 32 then 16 else 4
  c.convertLanes (.fcvt x) x.d (if dc = 32 then 64 else 32) lat fun l =>
    (sourceValue (.flt sf) (c.val (if sc = 32 then 64 else 32) x.a l)).map fun v =>
      let r := convertElem c.t c.a x.h l (roundCounter c.a l) (.flt df) sat v.1
      (r.1, r.2.1 ||| v.2, r.2.2)

/-- FCVT (R199, R275, R277): with a binary64 operand it is of class DP and takes the FP64 lanes. -/
def execFcvt (x : F3) (s : State) : Result :=
  issue (.fcvt x) x.h s fun c =>
    let dc := fld x.imm 7 0
    let sc := fld x.imm 15 8
    match ntypeOf dc, ntypeOf sc with
    | some (.flt df), some (.flt sf) => if dc = 32 ∨ sc = 32 then c.onDp fun c => c.fcvt x dc sc df sf else c.fcvt x dc sc df sf
    | _, _ => c.format

/-- The pairings of ICVT: FP32, BF16 or FP16 with an integer type, or two integer types (R276). -/
def icvtPair (dc sc : Nat) (d s : NType) : Bool :=
  match d, s with
  | .flt _, .flt _ => false
  | .flt _, _ => decide (dc ≤ 2)
  | _, .flt _ => decide (sc ≤ 2)
  | _, _ => true

/-- ICVT (R278). -/
def execIcvt (x : F3) (s : State) : Result :=
  issue (.icvt x) x.h s fun c =>
    let dc := fld x.imm 7 0
    let sc := fld x.imm 15 8
    match ntypeIn c.t.hdr.version dc, ntypeIn c.t.hdr.version sc with
    | some d, some t =>
      if icvtPair dc sc d t then
        c.convertLanes (.icvt x) x.d 32 4 fun l =>
          (sourceValue t (c.val 32 x.a l)).map fun v =>
            let r := convertElem c.t c.a x.h l (roundCounter c.a l) d (bit x.h.mod 3) v.1
            (r.1, r.2.1 ||| v.2, r.2.2)
      else c.format
    | _, _ => c.format

/-- FPACK (R279): A's element first, then B's. -/
def execFpack (x : F3) (s : State) : Result :=
  issue (.fpack x) x.h s fun c =>
    let code := fld x.imm 7 0
    let w := packWidth code
    match (if w = 0 then none else ntypeIn c.t.hdr.version code) with
    | some t =>
      let slot := fld x.imm 11 8
      c.convertLanes (.fpack x) x.d 32 4 fun l =>
        let src := fun (o : Opnd) => let b := c.val 32 o l; (decodeF f32 b, if isSnan f32 b then fInvalid else (0 : FFlags))
        let va := src x.a
        let vb := src x.b
        let e0 := convertElem c.t c.a x.h l (roundCounter c.a l) t (bit x.h.mod 3) va.1
        let e1 := convertElem c.t c.a x.h l e0.2.2 t (bit x.h.mod 3) vb.1
        let word : Word32 := BitVec.ofNat 32 (c.val 32 x.c l)
        let word := setFld word (w * (2 * slot + 1) - 1) (w * 2 * slot) (e0.1 % 2 ^ w)
        let word := setFld word (w * (2 * slot + 2) - 1) (w * (2 * slot + 1)) (e1.1 % 2 ^ w)
        some (word.toNat, e0.2.1 ||| e1.2.1 ||| va.2 ||| vb.2, e1.2.2)
    | none => c.format

/-- FUNPACK (R280): the element's value as binary32, or its code with raw. -/
def execFunpack (x : F3) (s : State) : Result :=
  issue (.funpack x) x.h s fun c =>
    let code := fld x.imm 7 0
    let w := packWidth code
    match (if w = 0 then none else ntypeIn c.t.hdr.version code) with
    | some t =>
      c.convertLanes (.funpack x) x.d 32 4 fun l =>
        let e := c.val 32 x.a l / 2 ^ (w * fld x.imm 12 8) % 2 ^ w
        let e := if code = 5 ∨ code = 6 then e % 64 else e
        if bit x.imm 15 then some (e, 0, roundCounter c.a l)
        else (sourceValue t e).map fun v => ((toFloat f32 .rne false v.1).1, v.2, roundCounter c.a l)
    | none => c.format

/-- BOUND (R281): hit bits take effect with the result; a trap writes nothing and leaves the hit bit set. -/
def execBound (x : F3) (s : State) : Result :=
  issue (.bound x) x.h s fun c =>
    let n := x.bnd.toNat
    let rs := (c.evalLanes (.bound x) x.d).map fun l => (l, teamBound c.t n (c.val 32 x.a l))
    let bad := (rs.filter (·.2.trap)).map (·.1)
    if !bad.isEmpty then c.boundTrap n bad
    else
      let hit : List RegWrite := if rs.any (·.2.hit) then [.hit (BitVec.ofNat 16 (2 ^ n))] else []
      .ok (c.pend 4 (rs.flatMap (fun r => regWrites 32 x.d r.1 r.2.value) ++ hit))

end Sys2Proof.Machine
end

