-- ==== Sys2Proof/Machine/Tile.lean ====
section
/-! DEFINITION. Format words, matrix operands, exact products, sums into accumulator tiles, and the epilogue (R155, R171 to R187, R283 to R285,
R295 to R297). -/

namespace Sys2Proof.Machine

/-! ### Formats -/

/-- Container width of a format code (R172). -/
def codeWidth (c : Nat) : Nat :=
  if c = 0 then 32
  else if [1, 2, 17].contains c then 16
  else if [7, 12, 16, 20, 21, 24].contains c then 4
  else if [22, 25, 26].contains c then 2
  else if c = 27 then 1
  else 8

/-- The float class (R172). -/
def isFloatCode (c : Nat) : Bool := decide (c ≤ 16)

def isMx (c : Nat) : Bool := decide (8 ≤ c ∧ c ≤ 13)
def isOchre (c : Nat) : Bool := decide (14 ≤ c ∧ c ≤ 16)
def isSepia (c : Nat) : Bool := decide (23 ≤ c ∧ c ≤ 25)

/-- K of a format (R172). -/
def kOf (c : Nat) : Nat := 256 / codeWidth c

/-- Fields of a format word (R180). -/
def fwCode (w : Word32) : Nat := fld w 4 0
def fwScale (w : Word32) : Nat := fld w 7 5
def fwZp (w : Word32) : Nat := fld w 11 8
def fwSat (w : Word32) : Bool := bit w 12
def fwRound (w : Word32) : Nat := fld w 14 13

/-- What a word describes (R181). -/
inductive FmtUse where
  | regA | stepOperand | dest
  deriving DecidableEq, Repr

/-- A code that a version assigns (R200, R201). -/
def codeAssigned (version c : Nat) : Bool := decide (c < 28) && (version == 3 || !((14 ≤ c && c ≤ 16) || (23 ≤ c && c ≤ 27)))

/-- Whether a format word is good for a use (R181, R186). -/
def fmtOk (version : Nat) (u : FmtUse) (w : Word32) : Bool :=
  let c := fwCode w
  fld w 31 15 == 0 && codeAssigned version c &&
    match u with
    | .dest => fwRound w != 3 && (ntypeOf c).isSome
    | u =>
      decide (fwScale w ≤ 2) && !(fwScale w == 1 && !(isMx c || isOchre c)) && !(fwScale w == 2 && (!isOchre c || u == .regA))
        && decide (fwZp w ≤ 2) && !(fwZp w != 0 && !isSepia c)

/-- Whether A and B pair, and then whether the accumulator is INT32 (R182). -/
def pairKind (fa fb : Word32) : Option Bool :=
  let a := fwCode fa
  let b := fwCode fb
  if codeWidth a != codeWidth b then none
  else if isFloatCode a == isFloatCode b then some (!isFloatCode a)
  else if codeWidth a ≤ 8 then some false else none

/-- The element format of a float code (R172, R173). -/
def elemFmt (c : Nat) : Option Fmt :=
  match c with
  | 0 => some f32 | 1 => some bf16 | 2 => some f16
  | 3 | 8 | 14 => some e4m3
  | 4 | 9 => some e5m2
  | 5 | 10 => some e3m2
  | 6 | 11 | 15 => some e2m3
  | 7 | 12 | 16 => some e2m1
  | _ => none

/-- The value of an element code, with the block's zero point for Sepia; none for TERN code 3 (R173, R174, R176, R177). -/
def elemValue (code z x : Nat) : Option FVal :=
  match elemFmt code with
  | some f => some (decodeF f (x % 2 ^ f.width))
  | none =>
    if code = 13 then let v := toS 8 (x % 256); some (.fin (decide (v < 0)) v.natAbs (-6))
    else if isSepia code then some (ofInt ((x : Int) - z))
    else (ntypeOf code).bind fun t => (sourceValue t x).map (·.1)

/-- An E8M0 scale (R177). -/
def e8m0 (c : Nat) : FVal := if c = 255 then .nan else .fin false 1 ((c : Int) - 127)

/-- An E3M5 block scale (R178). -/
def e3m5 (c : Nat) : FVal := if c / 32 = 0 then .fin false (c % 32) (-8) else .fin false (32 + c % 32) ((c / 32 : Nat) - 9)

/-- Indices along K that share a scale or a zero point (R172). -/
def blockLen (c : Nat) : Nat := if isOchre c then 8 else 32

/-- Blocks along K in one tile (R284). -/
def blockCount (c : Nat) : Nat := if isMx c || isOchre c || isSepia c then kOf c / blockLen c else 0

/-- Whether a side array is read for an operand in step memory; MMA's B and a register A take no bands from it (R284, R285). -/
def sideRead (w : Word32) (bands : Bool) : Bool := fwScale w == 1 || fwZp w == 1 || (bands && fwScale w == 2)

/-- Whether an operand has a band scale (R178, R284). -/
def hasBand (w : Word32) : Bool := isOchre (fwCode w) && fwScale w != 0

/-- Bytes of a row's run (R284): an INLINE run holds block records. -/
def runBytes (w : Word32) : Nat := if fwScale w = 2 then 64 else 32

/-- Bytes of a side array (R284): only the band under INLINE. -/
def sideBytes (w : Word32) : Nat := if fwScale w = 2 then 2 else 4 + 32 * blockCount (fwCode w)

/-- The parts of a side array that a use reads, as offsets and lengths (R284): the band of an Ochre operand of a job, and the block bytes. -/
def sideParts (w : Word32) (bands : Bool) : List (Nat × Nat) :=
  (if bands && hasBand w then [(0, 2)] else [])
    ++ (if fwScale w == 1 || fwZp w == 1 then [(4, 32 * blockCount (fwCode w))] else [])

/-- The ranges that a use reads of an operand: its runs and the parts of its side array (R284). -/
def operandReads (w : Word32) (off side : Nat) (bands : Bool) : List (Nat × Nat) :=
  (off, 32 * runBytes w) :: (sideParts w bands).map fun p => (side + p.1, p.2)

/-- The values of one row of A, or one column of B, along K, each with its block scale and band scale (R171, R174 to R179, R183, R283);
`blk` gives the row's block bytes. -/
def rowValues (w : Word32) (run : List Byte) (blk : Nat → Nat) (band : Nat) : List (Option FVal) :=
  let code := fwCode w
  let width := codeWidth code
  let inline_ := fwScale w == 2
  let recLen := if width = 4 then 8 else 16
  let whole := leNat run
  let bandV := decodeF bf16 (band % 65536)
  (List.range (kOf code)).map fun k =>
    let b := k / blockLen code
    let record := whole / 2 ^ (8 * recLen * b)
    let x := if inline_ then record / 2 ^ (width * (k % 8)) % 2 ^ width else whole / 2 ^ (width * k) % 2 ^ width
    let z := match fwZp w with
      | 1 => blk b % 2 ^ width
      | 2 => 2 ^ (width - 1)
      | _ => 0
    let scale : FVal :=
      if inline_ then e3m5 (record / 2 ^ (8 * width) % 256)
      else if fwScale w = 1 then (if isOchre code then e3m5 (blk b) else e8m0 (blk b))
      else .fin false 1 0
    (elemValue code z x).map fun v =>
      let v := (FVal.mul v scale).1
      if hasBand w then (FVal.mul v bandV).1 else v

/-! ### Products and sums -/

/-- Groups of 8 along K (R184). -/
def groupsOf8 {α : Type} (l : List α) : List (List α) := (List.range (l.length / 8)).map fun g => (l.drop (8 * g)).take 8

/-- The exact sum of a group of products (R183, R184). -/
def groupSum (ps : List (FVal × FVal)) : FVal :=
  match ps.map fun p => (FVal.mul p.1 p.2).1 with
  | [] => .fin false 0 0
  | x :: r => r.foldl (fun a y => (FVal.add false a y).1) x

/-- One FP32 accumulation of the groups of an element (R184). -/
def accFloat (d : Nat) (sums : List FVal) : Nat :=
  sums.foldl (fun d s => (toFloat f32 .rne false (FVal.add false (decodeF f32 d) s).1).1) d

/-- An exact integer value as an integer. -/
def asInt : FVal → Int
  | .fin s m e => sInt s (m * 2 ^ e.toNat)
  | _ => 0

/-- One INT32 accumulation, and whether it saturated (R185). -/
def accInt (d : Int) (sums : List FVal) : Int × Bool :=
  sums.foldl (fun a s => let x := a.1 + asInt s; (satS 32 x, a.2 || satS 32 x != x)) (d, false)

/-- The 1,024 words of a tile, row by row (R155). -/
def tileWords (t : Team) (tile : Nat) : List Word32 := (List.range 1024).map fun i => sget 0 t.acc (tile * 1024 + i)

/-- A tile with all its words replaced; full writes clear poison (R153, R155). -/
def putTile (t : Team) (tile : Nat) (ws : List Word32) : Team :=
  let base := tile * 1024
  let out := fun (k : Nat) => decide (k < base ∨ base + 1024 ≤ k)
  { t with
    acc := (t.acc.filter fun e => decide (e.1 < base)) ++ ((ws.zipIdx.filter fun e => e.1 != 0).map fun e => (base + e.2, e.1))
      ++ (t.acc.filter fun e => decide (base + 1024 ≤ e.1))
    accPoison := t.accPoison.filter fun e => out e.1 }

/-- Whether a word of a tile is poisoned (R153). -/
def tilePoisoned (t : Team) (tile : Nat) : Bool := t.accPoison.any fun e => decide (tile * 1024 ≤ e.1 ∧ e.1 < tile * 1024 + 1024) && e.2

/-- The product of rows and columns accumulated into a tile, from zero for MMAZ: the team, and whether INT32 saturated (R183 to R185,
R288). -/
def mmaTile (t : Team) (tile : Nat) (zero isInt : Bool) (rows cols : List (List FVal)) : Team × Bool :=
  let olds := if zero then List.replicate 1024 0 else tileWords t tile
  let pairs := rows.flatMap fun r => cols.map fun c => (groupsOf8 (r.zip c)).map groupSum
  let res := (olds.zip pairs).map fun (d, sums) =>
    if isInt then let x := accInt (toS 32 d.toNat) sums; ((BitVec.ofNat 32 (ofI 32 x.1)), x.2)
    else (BitVec.ofNat 32 (accFloat d.toNat sums), false)
  (putTile t tile (res.map (·.1)), res.any (·.2))

/-- An operand in step memory: its 32 runs, block bytes from its side array, and its band (R283 to R285, R302). -/
def stepOperand (t : Team) (w : Word32) (off side : Nat) (bands : Bool) (band : Nat) : List (List (Option FVal)) :=
  let nb := blockCount (fwCode w)
  let useSide := sideRead w bands
  let band := if bands then (if useSide then stepRead t side 2 else 0) else band
  (List.range 32).map fun j =>
    rowValues w (stepBytes t (off + runBytes w * j) (runBytes w)) (fun b => stepRead t (side + 4 + nb * j + b) 1) band

/-- The rows that hold an element that is no value (R176). -/
def badRows (vs : List (List (Option FVal))) : List Nat := (vs.zipIdx.filter fun e => e.1.any (·.isNone)).map (·.2)

/-- The values of an operand without such an element. -/
def goodRows (vs : List (List (Option FVal))) : List (List FVal) := vs.map fun r => r.map fun v => v.getD (.fin false 0 0)

/-! ### The epilogue -/

/-- What ACCEPI or a job's epilogue asks for (R295, R296, R302). -/
structure Epi where
  isInt : Bool
  scale : Nat
  fmt : Word32
  act : Nat
  bias : Option (List Nat)
  bnd : Option Nat

/-- A value rounded to binary32 by RNE (R296). -/
def rne32 (v : FVal) : FVal := decodeF f32 (toFloat f32 .rne false v).1

/-- An activation (R297). -/
def activation (act : Nat) (v : FVal) : FVal :=
  let code := (toFloat f32 .rne false v).1
  match act with
  | 0 => v
  | 1 => match v with
    | .nan => .nan
    | v => if FVal.lt (.fin false 0 0) v then v else .fin false 0 0
  | 2 => decodeF f32 (specialFn .gelu (BitVec.ofNat 32 code)).1
  | _ => decodeF f32 (specialFn .silu (BitVec.ofNat 32 code)).1

/-- The rounding mode of a destination word, drawing when it is SR and the element is inexact (R169, R180). -/
def epiMode (w : Word32) (t : NType) (v : FVal) (u : Nat) : Rnd × Bool :=
  match fwRound w with
  | 1 => (.rz, false)
  | 2 => if drawsFor t v then (.sr u, true) else (.rz, false)
  | _ => (.rne, false)

/-- One element of the epilogue (R296): its code, the draws it took, whether the bound register was hit, whether it trapped. DEDUCED, log entry 52. -/
def epiElem (t : Team) (p : Epi) (ty : NType) (raw : Nat) (bias : Nat) (u : Nat) : Nat × Nat × Bool × Bool :=
  let w := codeWidth (fwCode p.fmt)
  let x := if p.isInt then rne32 (ofInt (toS 32 raw)) else decodeF f32 raw
  let x := rne32 (FVal.mul x (decodeF f32 p.scale)).1
  let x := if p.bias.isSome then rne32 (FVal.add false x (decodeF f32 bias)).1 else x
  let x := activation p.act x
  let (mode, drew) := epiMode p.fmt ty x u
  let e := (targetCode ty mode (fwSat p.fmt) x).1 % 2 ^ w
  match p.bnd with
  | none => (e, drew.toNat, false, false)
  | some n =>
    let v := match sourceValue ty e with | some v => (toFloat f32 .rne false v.1).1 | none => 0
    let b := teamBound t n v
    (if b.value = v then e else (targetCode ty .rne true (decodeF f32 b.value)).1 % 2 ^ w, drew.toNat, b.hit, b.trap)

/-- One row of the epilogue in ascending column order, with the row's draws counted (R170, R296). -/
def epiRow (t : Team) (p : Epi) (ty : NType) (drawFn : Nat → Nat) (start : Nat) (raws : List Word32) : List Nat × Nat × Bool × Bool :=
  raws.zipIdx.foldl (fun acc e =>
    let bias := match p.bias with | some b => (b[e.2]?).getD 0 | none => 0
    let r := epiElem t p ty e.1.toNat bias (drawFn acc.2.1)
    (acc.1 ++ [r.1], acc.2.1 + r.2.1, acc.2.2.1 || r.2.2.1, acc.2.2.2 || r.2.2.2)) ([], start, false, false)

/-- The result of an epilogue: the codes row by row, the counters after it, whether the bound was hit, the rows that trapped. -/
structure EpiOut where
  codes : List (List Nat)
  counters : List Nat
  hit : Bool
  trapped : List Nat

/-- The epilogue of a whole tile; `drawFn` gives a row's draw at a counter value (R170, R296, R303). -/
def epilogue (t : Team) (tile : Nat) (p : Epi) (drawFn : Nat → Nat → Nat) (counters : List Nat) : EpiOut :=
  match ntypeOf (fwCode p.fmt) with
  | none => ⟨[], counters, false, []⟩
  | some ty =>
    let ws := tileWords t tile
    let rows := (List.range 32).map fun i => epiRow t p ty (drawFn i) ((counters[i]?).getD 0) ((ws.drop (32 * i)).take 32)
    ⟨rows.map (·.1), rows.map (·.2.1), rows.any (·.2.2.1), (rows.zipIdx.filter (·.1.2.2.2)).map (·.2)⟩

/-- The bytes of an output tile: each row packed (R171, R295). -/
def tileBytes (width : Nat) (codes : List (List Nat)) : List Byte :=
  codes.flatMap fun r => leBytes (4 * width) (r.zipIdx.foldl (fun n e => n + e.1 * 2 ^ (width * e.2)) 0)

/-- The column sums of some codes (R296). -/
def columnSums (codes : List (List Nat)) : List Nat :=
  (List.range 32).map fun j => (codes.foldl (fun n r => n + (r[j]?).getD 0) 0) % 2 ^ 32

/-- The bytes of a check vector (R298). -/
def checkBytes (sums : List Nat) : List Byte := sums.flatMap fun n => leBytes 4 n

/-- Why the places of an output tile, a bias vector and a check vector are wrong: 6 for the range, 9 for the alignment (R124, R295). -/
def epiPlaces (t : Team) (width out : Nat) (bias check : Option Nat) : Option (Nat × Nat) :=
  let extra := bias.toList ++ check.toList
  let size := 128 * width
  let far := (if inOneRegion t out size then [] else [out]) ++ extra.filter fun o => !inOneRegion t o 128
  let odd := (out :: extra).filter fun o => o % 128 != 0
  let lap := check.toList.filter fun k => decide (k < out + size ∧ out < k + 128)
  match far ++ lap, odd with
  | o :: _, _ => some (6, o)
  | [], o :: _ => some (9, o)
  | [], [] => none

/-- A bias vector (R295). -/
def biasWords (t : Team) (off : Nat) : List Nat := (List.range 32).map fun j => stepRead t (off + 4 * j) 4

end Sys2Proof.Machine
end

