-- ==== Sys2Proof/Machine/Matrix.lean ====
section
/-! DEFINITION. Matrix instructions: opcodes 0x90 to 0x98 (R155, R156, R282 to R301). -/

namespace Sys2Proof.Machine

/-- What the collective rule gives (R286): a trap with its mask, no effect, or all 32 lanes. -/
inductive Collective where
  | trap (mask : BitVec 32)
  | none
  | all

/-- The collective rule (R286); where guards differ, the lanes whose guard is false are those not executing (DEDUCED, log entry 24). -/
def Iss.collective (c : Iss) : Collective :=
  let all : BitVec 32 := 0xFFFFFFFF
  if maskOf c.ex != all then .trap (all &&& ~~~maskOf c.ex)
  else if c.act.isEmpty then .none
  else if maskOf c.act != all then .trap (all &&& ~~~maskOf c.act)
  else .all

/-- The majority word of 32 lanes: the most frequent, then that of the lowest lane (R287). -/
def majority (ws : List Word32) : Word32 :=
  ws.foldl (fun best w => if ws.count best < ws.count w then w else best) ((ws[0]?).getD 0)

/-- Lanes that differ from a word. -/
def minority (ws : List Word32) (m : Word32) : BitVec 32 := maskOf ((ws.zipIdx.filter fun e => e.1 != m).map (·.2))

/-- The first lane register of a fragment. -/
def fragReg (o : Opnd) : Nat := match o with | .v n => n.toNat | _ => 0

/-- The words of the register that a vote's operand names, or of the one `k` registers on. -/
def Iss.formatWords (c : Iss) (f : Opnd) (k : Nat) : List Word32 := (List.range 32).map fun l => vGet c.a (fragReg f + k) l

/-- The format vote of a pair in a lane register and the next (R287). -/
structure Vote where
  fa : Word32
  fb : Word32
  ma : BitVec 32
  mb : BitVec 32

/-- The vote over the lanes' pairs: each word's majority and the lanes that differ from it (R287). -/
def Iss.vote (c : Iss) (f : Opnd) : Vote where
  fa := majority (c.formatWords f 0)
  fb := majority (c.formatWords f 1)
  ma := minority (c.formatWords f 0) (majority (c.formatWords f 0))
  mb := minority (c.formatWords f 1) (majority (c.formatWords f 1))

/-- Whether an agreed pair is good for MMA, and then its accumulator (R181, R182). -/
def mmaPair (version : Nat) (fa fb : Word32) : Option Bool :=
  if fmtOk version .regA fa && fmtOk version .stepOperand fb then pairKind fa fb else none

/-- The fragment of a warp: 40 bytes per row, the block run in the last 8 (R283). -/
def Iss.fragment (c : Iss) (o : Opnd) (blocks : Bool) : List (BitVec 320) :=
  (List.range 32).map fun l =>
    BitVec.ofNat 320 ((List.range (if blocks then 10 else 8)).foldl (fun n r => n + (vGet c.a (fragReg o + r) l).toNat * 2 ^ (32 * r)) 0)

/-- The rows of a fragment as values (R171, R283). -/
def fragValues (w : Word32) (frag : List (BitVec 320)) (band : Nat) : List (List (Option FVal)) :=
  frag.map fun r => rowValues w (leBytes 32 r.toNat) (fun b => r.toNat / 2 ^ (256 + 8 * b) % 256) band

/-- What is wrong with a B descriptor and a band register, in the order of R288: an event's cause and address (R285). DEDUCED, log entry 29. -/
def Iss.descFault (c : Iss) (x : F3) (v : Vote) (desc : Nat) : Option (Nat × Nat) :=
  let off := desc % 2 ^ 20
  let side := desc / 2 ^ 20 % 2 ^ 20
  let useSide := sideRead v.fb false
  let far := !inOneRegion c.t off (32 * runBytes v.fb) || (useSide && !inOneRegion c.t side (sideBytes v.fb))
  if desc / 2 ^ 40 != 0 then some (6, off)
  else if far then some (6, if inOneRegion c.t off (32 * runBytes v.fb) then side else off)
  else if off % 32 != 0 then some (9, off)
  else if useSide && side % 4 != 0 then some (9, side)
  else if (hasBand v.fa || hasBand v.fb) != isS x.c then some (1, 0)
  else none

/-- A team as it is read where some words, by offset, were read before: each with the value and the poison that it had then (R290, R303). -/
def earlyView (t : Team) (ws : List (Nat × Word32 × Bool)) : Team :=
  ws.foldl (fun t w =>
    { t with present := (cellsAt w.1 (leBytes 4 w.2.1.toNat)).foldl (fun m c => sset 0 m c.1 c.2) t.present
             stepPoison := sset false t.stepPoison (w.1 / 4) w.2.2 }) t

/-- Bank cycles that an MMA takes to read its B tile (R291). -/
def tileReadCycles (fb : Word32) : Nat := if runBytes fb = 64 then 16 else 8

/-- The B tile and its side array as an MMA reads them: a word that was read in the cycles before, while the tile was read, keeps that value
(R290, R291). DESIGN CHOICE, log entry 46. -/
def Iss.tileView (c : Iss) (fb : Word32) : Team :=
  let noted := ((agentOf c.s0 c.a.key).map (·.early)).getD []
  earlyView c.t ((noted.filter fun e => cycleOf c.s0 c.t.core ≤ e.1 + tileReadCycles fb).map (·.2))

/-- MMA and MMAZ (R284 to R290), behind the warp's earlier stores in the banks of the B tile (R127); an INT32 saturation is seen in %accsat two
cycles after the issue, the engine's time (R158, R291). DESIGN CHOICE, log entry 46. DEDUCED, log entry 29. DEDUCED, log entry 40. -/
def Iss.mma (c : Iss) (x : F3) (zero : Bool) : Eff :=
  match c.collective with
  | .trap m => c.fault 10 0 m
  | .none => .ok c.s
  | .all =>
    let v := c.vote x.d
    let ex := maskOf c.ex
    if v.ma ||| v.mb != 0 then c.fault 11 ((v.ma != 0).toNat + 2 * (v.mb != 0).toNat) (v.ma ||| v.mb)
    else match mmaPair c.t.hdr.version v.fa v.fb with
      | none => c.fault 12 0 ex
      | some isInt =>
        let tile := fld x.imm 5 0
        let blocks := sideRead v.fa false
        let cached := match c.a.latch with | some l => l.field == x.a && l.fmt == v.fa | none => false
        let regs := (List.range (if blocks then 10 else 8)).map (fragReg x.a + ·)
        let desc := val64 c.a x.b 0
        let off := desc % 2 ^ 20
        let side := desc / 2 ^ 20 % 2 ^ 20
        if blocks && decide (c.t.hdr.vregs < fragReg x.a + 10) then c.illegal
        else if c.t.hdr.accTiles ≤ tile then c.fault 13 0 0
        else match c.descFault x v desc with
          | some (1, _) => c.illegal
          | some (cause, addr) => c.faultAt cause 0 ex addr
          | none =>
            let reads := operandReads v.fb off side false
            let waits := reads.flatMap fun r => readWaits c.t r.1 r.2
            if !waits.isEmpty then c.absent waits
            else match (if cached then none else poisonRead c.a regs [] c.act) with
              | some (sub, ls) => c.fault 19 sub (maskOf ls)
              | none =>
                let bands := if isS x.c then val64 c.a x.c 0 else 0
                let frag := match c.a.latch with
                  | some l => if cached then l.frag else c.fragment x.a blocks
                  | none => c.fragment x.a blocks
                let rows := fragValues v.fa frag (bands % 2 ^ 16)
                if !(badRows rows).isEmpty then c.fault 12 0 (maskOf (badRows rows))
                else if !zero && tilePoisoned c.t tile then c.fault 19 0 ex
                else
                  let c := c.landed reads
                  let u := c.tileView v.fb
                  let late := fun (cause : Nat) => Eff.ok (deferEvent c.s c.a.key c.n 0 (mkEvent cause 0 ex c.pc))
                  let cols := stepOperand u v.fb off side false (bands / 2 ^ 16 % 2 ^ 16)
                  if reads.any fun r => stepPoisoned u r.1 r.2 then late 19
                  else if !(badRows cols).isEmpty then late 12
                  else
                    let (t, sat) := mmaTile c.t tile zero isInt (goodRows rows) (goodRows cols)
                    let c := { c with s := updTeam c.s c.t.uid fun _ => t }
                    .ok (updAgent (c.pend 2 (if sat then [.accsat] else [])) c.a.key fun a =>
                      { a with latch := if x.h.keep then some ⟨x.a, v.fa, frag⟩ else none })

def execMma (x : F3) (s : State) : Result := issue (.mma x) x.h s fun c => c.mma x false

def execMmaz (x : F3) (s : State) : Result := issue (.mmaz x) x.h s fun c => c.mma x true

/-- FMTV (R292). -/
def execFmtv (x : F3) (s : State) : Result :=
  issue (.fmtv x) x.h s fun c =>
    match c.collective with
    | .trap m => c.fault 10 0 m
    | .none => .ok c.s
    | .all =>
      let v := c.vote x.a
      let m := v.ma ||| v.mb
      let kind := if m = 0 then mmaPair c.t.hdr.version v.fa v.fb else none
      let r := m.toNat + (v.ma != 0).toNat * 2 ^ 32 + (v.mb != 0).toNat * 2 ^ 33 + kind.isSome.toNat * 2 ^ 34
        + (kind.getD false).toNat * 2 ^ 35
      .ok (addVar c.s c.a.key c.n (regWrites 64 x.d 0 r) none)

/-- ACCEPI (R295 to R298), behind the warp's earlier stores in the banks that it reads and writes (R127). -/
def execAccepi (x : F3) (s : State) : Result :=
  issue (.accepi x) x.h s fun c =>
    match c.act with
    | [] => .ok c.s
    | l :: _ =>
      let desc := val64 c.a x.a l
      let sb := val64 c.a x.b l
      let fmt : Word32 := BitVec.ofNat 32 (sb / 2 ^ 32)
      let width := codeWidth (fwCode fmt)
      let useCk := bit x.h.mod 4
      let useBias := bit x.h.mod 2
      let useBnd := bit x.h.mod 3
      let ex := maskOf c.ex
      let tile := fld x.imm 5 0
      let out := desc % 2 ^ 20
      let biasOff := desc / 2 ^ 20 % 2 ^ 20
      let ckOff := desc / 2 ^ 40 % 2 ^ 20
      if !fmtOk c.t.hdr.version .dest fmt || (useCk && decide (width < 8)) then c.fault 12 0 ex
      else if c.t.hdr.accTiles ≤ tile then c.fault 13 0 0
      else if desc / 2 ^ 60 != 0 then c.faultAt 6 0 ex out
      else match epiPlaces c.t width out (if useBias then some biasOff else none) (if useCk then some ckOff else none) with
        | some (cause, addr) => c.faultAt cause 0 ex addr
        | none =>
          let bias := if useBias then [(biasOff, 128)] else []
          let writes := (out, 128 * width) :: if useCk then [(ckOff, 128)] else []
          let waits := (bias.flatMap fun r => readWaits c.t r.1 r.2) ++ writes.flatMap fun r => absentLines c.t r.1 r.2
          let c := c.landed (bias ++ writes)
          if !waits.isEmpty then c.absent waits
          else if tilePoisoned c.t tile || (useBias && stepPoisoned c.t biasOff 128) then c.fault 19 0 ex
          else
            let p : Epi :=
              { isInt := bit x.imm 6, scale := sb % 2 ^ 32, fmt := fmt, act := fld x.h.mod 1 0
                bias := if useBias then some (biasWords c.t biasOff) else none
                bnd := if useBnd then some x.bnd.toNat else none }
            let r := epilogue c.t tile p (drawAt c.t c.a.key) ((List.range 32).map (roundCounter c.a))
            if !r.trapped.isEmpty then c.boundTrap x.bnd.toNat r.trapped
            else
              let s := if r.hit then setHit c.s c.t.uid x.bnd.toNat else c.s
              let s := updAgent s c.a.key fun a => r.counters.zipIdx.foldl (fun a e => setCounter a e.2 e.1) a
              let s := landIn s c.t.uid out (tileBytes width r.codes) false
              .ok (if useCk then landIn s c.t.uid ckOff (checkBytes (columnSums r.codes)) false else s)

/-- Bits of an element that hold its code: a 6-bit element has a byte of its own, whose upper two bits are ignored (R171). -/
def codeBits (c : Nat) : Nat :=
  match c with
  | 5 | 6 | 10 | 11 | 15 => 6
  | c => codeWidth c

/-- Codes of an output tile read back (R299). -/
def readCodes (t : Team) (code out : Nat) : List (List Nat) :=
  let width := codeWidth code
  (List.range 32).map fun i =>
    let row := stepRead t (out + 4 * width * i) (4 * width)
    (List.range 32).map fun j => row / 2 ^ (width * j) % 2 ^ codeBits code

/-- ACCCK (R299), behind the warp's earlier stores in the banks that it reads (R127). -/
def execAccck (x : F3) (s : State) : Result :=
  issue (.accck x) x.h s fun c =>
    match c.act with
    | [] => .ok c.s
    | l :: _ =>
      let desc := val64 c.a x.a l
      let fmt : Word32 := BitVec.ofNat 32 (val64 c.a x.b l / 2 ^ 32)
      let code := fwCode fmt
      let width := codeWidth code
      let ex := maskOf c.ex
      let out := desc % 2 ^ 20
      let ckOff := desc / 2 ^ 40 % 2 ^ 20
      if fld fmt 31 15 != 0 || !codeAssigned c.t.hdr.version code || decide (width < 8) then c.fault 12 0 ex
      else if desc / 2 ^ 60 != 0 then c.faultAt 6 0 ex out
      else match epiPlaces c.t width out none (some ckOff) with
        | some (cause, addr) => c.faultAt cause 0 ex addr
        | none =>
          let waits := readWaits c.t out (128 * width) ++ readWaits c.t ckOff 128
          if !waits.isEmpty then c.absent waits
          else
            let c := c.landed [(out, 128 * width), (ckOff, 128)]
            if stepPoisoned c.t out (128 * width) || stepPoisoned c.t ckOff 128 then c.fault 19 0 ex
            else
              let sums := columnSums (readCodes c.t code out)
              let bad := maskOf ((List.range 32).filter fun j => (sums[j]?).getD 0 != stepRead c.t (ckOff + 4 * j) 4)
              let ev : Option Deferred := if bad = 0 then none else some ⟨c.n, l, mkEvent 21 1 bad c.pc, false⟩
              .ok (addVar c.s c.a.key c.n (regWrites 64 x.d l bad.toNat) ev)

/-- ACCLD (R294). -/
def execAccld (x : F3) (s : State) : Result :=
  issue (.accld x) x.h s fun c =>
    let tile := fld x.imm 5 0
    let g := fld x.imm 9 8
    if c.act.isEmpty then .ok c.s
    else if c.t.hdr.accTiles ≤ tile then c.fault 13 0 0
    else
      let put := fun (t : Team) (l r : Nat) =>
        let k := tile * 1024 + l * 32 + 8 * g + r
        { t with acc := sset 0 t.acc k (vGet c.a (fragReg x.a + r) l), accPoison := sset false t.accPoison k false }
      .ok (updTeam c.s c.t.uid fun t => c.act.foldl (fun t l => (List.range 8).foldl (fun t r => put t l r) t) t)

/-- ACCST (R294). -/
def execAccst (x : F3) (s : State) : Result :=
  issue (.accst x) x.h s fun c =>
    let tile := fld x.imm 5 0
    let g := fld x.imm 9 8
    if c.act.isEmpty then .ok c.s
    else if c.t.hdr.accTiles ≤ tile then c.fault 13 0 0
    else
      let one := fun (l r : Nat) =>
        let k := tile * 1024 + l * 32 + 8 * g + r
        RegWrite.v (fragReg x.d + r) l (sget 0 c.t.acc k)
          :: (if sget false c.t.accPoison k then [RegWrite.vPoison (fragReg x.d + r) l 0] else [])
      .ok (addVar c.s c.a.key c.n (c.act.flatMap fun l => (List.range 8).flatMap fun r => one l r) none)

/-- ACCZ (R293). -/
def execAccz (x : F3) (s : State) : Result :=
  issue (.accz x) x.h s fun c =>
    let first := fld x.imm 5 0
    let count := fld x.imm 14 8
    if c.act.isEmpty then .ok c.s
    else if c.t.hdr.accTiles < first + count then c.fault 13 0 0
    else
      let out := fun (k : Nat) => decide (k < first * 1024 ∨ (first + count) * 1024 ≤ k)
      .ok (updTeam c.s c.t.uid fun t =>
        { t with acc := t.acc.filter fun e => out e.1, accPoison := t.accPoison.filter fun e => out e.1 })

/-- A signed 16-bit field of a card. -/
def cardInt (b : List Byte) (a : Nat) : Int := toS 16 (blockNum b a 2)

/-- A job card's fields (R300). -/
def parseCard (b : List Byte) : Card where
  levels := (List.range 5).map fun l =>
    { count := blockNum b (12 * l) 2, tstride := toS 8 (blockNum b (12 * l + 2) 1), sa := cardInt b (12 * l + 4)
      sb := cardInt b (12 * l + 6), so := cardInt b (12 * l + 8), sbias := cardInt b (12 * l + 10) }
  aBase := blockNum b 60 4
  bBase := blockNum b 64 4
  oBase := blockNum b 68 4
  biasBase := blockNum b 72 4
  aDelta := cardInt b 76
  bDelta := cardInt b 78
  kDelta := cardInt b 80
  tBase := blockNum b 82 1
  tl := blockNum b 83 1
  fmtA := BitVec.ofNat 32 (blockNum b 84 4)
  fmtB := BitVec.ofNat 32 (blockNum b 88 4)
  fmtOut := BitVec.ofNat 32 (blockNum b 92 4)
  scale := BitVec.ofNat 32 (blockNum b 96 4)
  epi := (blockNum b 100 2).testBit 10
  zero := (blockNum b 100 2).testBit 9
  ck := (blockNum b 100 2).testBit 8
  bnd := BitVec.ofNat 4 (blockNum b 100 2 / 16)
  bndEn := (blockNum b 100 2).testBit 3
  bias := (blockNum b 100 2).testBit 2
  act := BitVec.ofNat 2 (blockNum b 100 2)
  peak := blockNum b 102 2
  energy := blockNum b 104 4

/-- Whether a card is good (R301): a format code that the version does not assign is a job-card fault. DEDUCED, log entry 29. -/
def cardOk (t : Team) (b : List Byte) (k : Card) : Bool :=
  (List.range 5).all (fun l => blockNum b (12 * l + 3) 1 == 0) && k.levels.all (fun l => l.count != 0)
    && decide (k.aBase < 2 ^ 20 ∧ k.bBase < 2 ^ 20 ∧ k.oBase < 2 ^ 20 ∧ k.biasBase < 2 ^ 20)
    && decide (k.tl < 16) && hasTimeline t k.tl && blockNum b 100 2 / 2 ^ 11 == 0 && (b.drop 108).all (· == 0)
    && k.peak != 0 && k.energy != 0
    && fmtOk t.hdr.version .stepOperand k.fmtA && fmtOk t.hdr.version .stepOperand k.fmtB && (pairKind k.fmtA k.fmtB).isSome
    && (if k.epi then fmtOk t.hdr.version .dest k.fmtOut && (!k.ck || decide (8 ≤ codeWidth (fwCode k.fmtOut)))
        else k.act == 0 && !k.bias && !k.bndEn && !k.ck && k.bnd == 0)

/-- MJOB (R84, R300, R301, R351): a full engine keeps the warp from issuing. The card is read behind the warp's earlier stores in its banks (R127). -/
def execMjob (x : F3) (s : State) : Result :=
  issue (.mjob x) x.h s fun c =>
    match c.act with
    | [] => .ok c.s
    | l :: _ =>
      let v := if immb x then x.imm.toNat else val64 c.a x.b l
      let off := v % 2 ^ 20
      let ex := maskOf c.ex
      if 4 ≤ (coreOf c.s0 c.t.core).jobs.length then c.later
      else if v / 2 ^ 20 != 0 || !inOneRegion c.t off 128 then c.faultAt 6 0 ex off
      else if off % 128 != 0 then c.faultAt 9 0 ex off
      else if !(readWaits c.t off 128).isEmpty then c.absent (readWaits c.t off 128)
      else
        let c := c.landed [(off, 128)]
        let b := stepBytes c.t off 128
        let k := parseCard b
        if stepPoisoned c.t off 128 then c.fault 19 0 ex
        else if !cardOk c.t b k then c.fault 14 0 0
        else
          let (s, n) := takeNumber c.s c.t.uid k.tl
          let j : Job :=
            { issuer := c.a.key, n := n, pc := c.pc, card := k, step := 0, accumulated := false, early := []
              draws := List.replicate 32 0, asked := cycleOf c.s c.t.core, tested := false, admitted := false, blocked := 0, fault := none, finished := false }
          .ok (refreshBusy (updCore s c.t.core fun r => { r with jobs := r.jobs ++ [j] }) c.t.core)

end Sys2Proof.Machine
end

