-- ==== Sys2Proof/Machine/Jobs.lean ====
section
/-! DEFINITION. Jobs: admission, tile steps and completion (R302 to R305, R371). -/

namespace Sys2Proof.Machine

/-- Cores of a cluster (R369). -/
def clusterCores (c : Nat) : List Nat := (List.range 4).map (4 * c + ·)

/-- The other cluster of a stacked pair (R369). -/
def partner (c : Nat) : Nat := if c % 2 = 0 then c + 1 else c - 1

/-- The job at the head of a core's engine: it asks for admission, or runs (R301, R371). -/
def headJob (s : State) (core : Nat) : Option Job := (coreOf s core).jobs.head?

/-- The head job of a core replaced. -/
def putHead (s : State) (core : Nat) (j : Job) : State := updCore s core fun c => { c with jobs := j :: c.jobs.drop 1 }

/-- Sum of the declared peaks of a cluster's running jobs (R371). -/
def declared (s : State) (c : Nat) : Nat :=
  ((clusterCores c).filterMap fun g => match headJob s g with | some j => if j.admitted && !j.finished then some j.card.peak else none | none => none).sum

/-- Energy left to a cluster in this interval (R371); before the first boundary it is the budget's reset value (DESIGN CHOICE, log entry 3). -/
def energyLeft (s : State) (c : Nat) : Nat := sget 118750 s.energyLeft c

/-- The energy budget of an interval under the cap (R371). -/
def scaledEnergy (s : State) (c : Nat) : Nat :=
  let cap := regFld s .shedState 11 0
  let e := fld (budgetInForce s c) 23 0
  if cap = 0 ∨ 3600 ≤ cap then e else e * cap / 3600

/-- CLSTAT.declared follows the running jobs (R373). -/
def showDeclared (s : State) (c : Nat) : State := regSet s (.clstat c) 31 16 (saturate 16 (declared s c))

/-- A job's issuing grid class. -/
def jobClass (s : State) (j : Job) : Nat := match gridOfAgent s j.issuer with | some g => g.cls | none => 0

/-- A job ends with a fault or none; JOB_COMPLETE follows. -/
def finishJob (s : State) (core : Nat) (j : Job) (fault : Option Nat) : State := putHead s core { j with finished := true, fault := fault }

/-- One waiting job tested (R371); at a boundary the failed tests are counted. -/
def testJob (s : State) (boundary : Bool) (core : Nat) : State :=
  match headJob s core with
  | none => s
  | some j =>
    if j.admitted || j.finished then s
    else
      let c := clusterOf core
      let b := budgetInForce s c
      let d := declared s c
      let others := !classShed s (jobClass s j) && decide (j.card.energy ≤ energyLeft s c) && decide (d + j.card.peak ≤ fld b 47 32)
      let balance := decide (d + j.card.peak ≤ declared s (partner c) + fld (budgetInForce s (partner c)) 63 48)
      if fld b 23 0 < j.card.energy ∨ fld b 47 32 < j.card.peak then finishJob s core j (some 6)
      else if others && balance then
        showDeclared (putHead { s with energyLeft := sset 118750 s.energyLeft c (energyLeft s c - j.card.energy) } core
          { j with tested := true, admitted := true }) c
      else if !boundary then putHead s core { j with tested := true }
      else
        let n := if others then j.blocked + 1 else 0
        if 64 ≤ n then finishJob s core j (some 7) else putHead s core { j with tested := true, blocked := n }

/-- Cores of a cluster with a job that waits for admission, in order of request and then of core (R371). -/
def admissionOrder (s : State) (c : Nat) : List Nat :=
  let ws := (clusterCores c).filterMap fun g => match headJob s g with
    | some j => if j.admitted || j.finished then none else some (j.asked, g)
    | none => none
  let earlier := fun (x y : Nat × Nat) => decide (x.1 < y.1 ∨ (x.1 = y.1 ∧ x.2 ≤ y.2))
  (sortBy earlier ws).map (·.2)

/-- The waiting jobs of a cluster tested in order (R371). -/
def admitCluster (s : State) (boundary : Bool) (c : Nat) : State := (admissionOrder s c).foldl (fun s g => testJob s boundary g) s

/-- JOB_ADMISSION (R371): a request of the cluster has not been served. -/
def execJobAdmission (cluster : Nat) (s : State) : Result :=
  if (clusterCores cluster).any fun g => match headJob s g with
      | some j => !j.tested && !j.admitted && !j.finished
      | none => false then
    .next (admitCluster s false cluster)
  else .refused (.notDue "JOB_ADMISSION")

/-! ### Steps -/

/-- The index of each level at a step, level 0 fastest (R302). -/
def stepIndices : List CardLevel → Nat → List Nat
  | [], _ => []
  | l :: r, n => n % l.count :: stepIndices r (n / l.count)

/-- Steps of a job (R302). -/
def jobSteps (k : Card) : Nat := (k.levels.map (·.count)).foldl (· * ·) 1

/-- A sum of indices times strides. -/
def strideSum (k : Card) (ix : List Nat) (f : CardLevel → Int) : Int := ((k.levels.zip ix).map fun e => f e.1 * (e.2 : Int)).sum

/-- Everything that a job step computes from its card (R302). -/
structure StepPlan where
  tile : Int
  a : Nat
  b : Nat
  aSide : Nat
  bSide : Nat
  out : Nat
  bias : Nat
  check : Nat
  first : Bool
  last : Bool

/-- An offset modulo 2^20. -/
def off20 (x : Int) : Nat := ofI 20 x

def stepPlan (k : Card) (n : Nat) : StepPlan :=
  let ix := stepIndices k.levels n
  let place := fun (base : Nat) (f : CardLevel → Int) => off20 (base + 32 * strideSum k ix f)
  let a := place k.aBase (·.sa)
  let b := place k.bBase (·.sb)
  let o := place k.oBase (·.so)
  let red := (k.levels.zip ix).filter fun e => e.1.tstride == 0
  { tile := k.tBase + strideSum k ix (·.tstride), a := a, b := b, aSide := off20 (a + 32 * k.aDelta), bSide := off20 (b + 32 * k.bDelta)
    out := o, bias := place k.biasBase (·.sbias), check := off20 (o + 32 * k.kDelta)
    first := red.all (fun e => e.2 == 0), last := red.all (fun e => e.2 + 1 == e.1.count) }

/-- Ranges that an operand reads: its runs and its side array (R284). -/
def operandRanges (w : Word32) (off side : Nat) : List (Nat × Nat) :=
  (off, 32 * runBytes w) :: (if sideRead w true then [(side, sideBytes w)] else [])

/-- What a step of a job gives: lines it waits for, a fault, or its effect (R302 to R304). -/
inductive JobOut where
  | waits
  | fault (s : State) (sub addr : Nat)
  | done (s : State)

/-- Step memory as a job's step reads it: a word that the engine has read early for this step keeps the value and the poison that it had then
(R303). -/
def jobView (t : Team) (j : Job) : Team := earlyView t ((j.early.filter fun e => e.1 == j.step).map (·.2))

/-- The job past its step. -/
def jobPast (j : Job) (draws : List Nat) : Job :=
  { j with step := j.step + 1, draws := draws, accumulated := false, undo := [], sat := false, early := j.early.filter fun e => j.step < e.1
           finished := jobSteps j.card ≤ j.step + 1 }

/-- What keeps a step from any effect: a fault of its tile or its offsets, with the offset at fault (R304, R391). -/
def stepFault (t : Team) (k : Card) (p : StepPlan) : Option (Nat × Nat) :=
  let epi := p.last && k.epi
  let width := codeWidth (fwCode k.fmtOut)
  let ranges := operandRanges k.fmtA p.a p.aSide ++ operandRanges k.fmtB p.b p.bSide
  let side := fun (w : Word32) (o : Nat) => if sideRead w true then [(o, 4)] else []
  let odd := ((p.a, 32) :: side k.fmtA p.aSide ++ (p.b, 32) :: side k.fmtB p.bSide).filter fun r => r.1 % r.2 != 0
  let far := ranges.filter fun r => !inOneRegion t r.1 r.2
  let places := if epi then epiPlaces t width p.out (if k.bias then some p.bias else none) (if k.ck then some p.check else none) else none
  if p.tile < 0 ∨ (t.hdr.accTiles : Int) ≤ p.tile then some (0, 0)
  else match far, places, odd with
    | r :: _, _, _ => some (1, r.1)
    | [], some (6, o), _ => some (1, o)
    | [], _, r :: _ => some (2, r.1)
    | [], some (_, o), [] => some (2, o)
    | [], none, [] => none

/-- The issuing warp's %accsat set by a job's step, unless the warp has exited (R303). -/
def jobSaturated (s : State) (j : Job) (sat : Bool) : State :=
  if sat then updAgent s j.issuer fun a => if hasLeft a then a else { a with accsat := true } else s

/-- An accumulation taken back whose epilogue meets an uncorrectable error: the words that it wrote have their values before it, those that
another operation has replaced since stay (R304). DESIGN CHOICE, log entry 46. -/
def undoTile (t : Team) (tile : Nat) (ws : List (Word32 × Bool × Word32)) : Team :=
  ws.zipIdx.foldl (fun t e =>
    let k := tile * 1024 + e.2
    if sget 0 t.acc k = e.1.2.2 then
      { t with acc := sset 0 t.acc k e.1.1, accPoison := sset false t.accPoison k (sget false t.accPoison k || e.1.2.1) }
    else t) t

/-- The accumulation of a step, indivisible on its tile (R302 to R304). DESIGN CHOICE, log entry 46. -/
def jobAccumulate (s : State) (core : Nat) (j : Job) (t : Team) : JobOut :=
  let k := j.card
  let p := stepPlan k j.step
  let reads := operandReads k.fmtA p.a p.aSide true ++ operandReads k.fmtB p.b p.bSide true
  match stepFault t k p with
  | some (sub, addr) => .fault s sub addr
  | none =>
    let tile := p.tile.toNat
    let view := jobView t j
    if reads.any fun r => !(readWaits t r.1 r.2).isEmpty then .waits
    else if reads.any (fun r => stepPoisoned view r.1 r.2) || (!(p.first && k.zero) && tilePoisoned t tile) then .fault s 5 0
    else
      let rows := stepOperand view k.fmtA p.a p.aSide true 0
      let cols := stepOperand view k.fmtB p.b p.bSide true 0
      if !(badRows rows).isEmpty || !(badRows cols).isEmpty then .fault s 3 0
      else
        let (u, sat) := mmaTile t tile (p.first && k.zero) ((pairKind k.fmtA k.fmtB).getD false) (goodRows rows) (goodRows cols)
        let s := updTeam s t.uid fun _ => u
        if p.last && k.epi then
          let old := (tileWords t tile).zipIdx.map fun e => (e.1, sget false t.accPoison (tile * 1024 + e.2))
          let undo := (old.zip (tileWords u tile)).map fun e => (e.1.1, e.1.2, e.2)
          .done (putHead s core { j with accumulated := true, sat := sat, undo := undo })
        else .done (putHead (jobSaturated s j sat) core (jobPast j j.draws))

/-- The epilogue of a step, indivisible on its tile (R296, R302 to R304). DESIGN CHOICE, log entry 46. -/
def jobEpilogue (s : State) (core : Nat) (j : Job) (t : Team) : JobOut :=
  let k := j.card
  let p := stepPlan k j.step
  let width := codeWidth (fwCode k.fmtOut)
  let bias := if k.bias then [(p.bias, 128)] else []
  let writes := (p.out, 128 * width) :: (if k.ck then [(p.check, 128)] else [])
  if bias.any (fun r => !(readWaits t r.1 r.2).isEmpty) || writes.any (fun r => !(absentLines t r.1 r.2).isEmpty) then .waits
  else if bias.any (fun r => stepPoisoned (jobView t j) r.1 r.2) || tilePoisoned t p.tile.toNat then
    .fault (updTeam s t.uid fun t => undoTile t p.tile.toNat j.undo) 5 0
  else
    let e : Epi :=
      { isInt := (pairKind k.fmtA k.fmtB).getD false, scale := k.scale.toNat, fmt := k.fmtOut, act := k.act.toNat
        bias := if k.bias then some (biasWords (jobView t j) p.bias) else none, bnd := if k.bndEn then some k.bnd.toNat else none }
    let r := epilogue t p.tile.toNat e (fun i c => draw t.seed 34 i (65536 * j.n + c)) j.draws
    let s := jobSaturated (if r.hit then setHit s t.uid k.bnd.toNat else s) j j.sat
    if !r.trapped.isEmpty then .fault s 4 0
    else
      let s := landIn s t.uid p.out (tileBytes width r.codes) false
      let s := if k.ck then landIn s t.uid p.check (checkBytes (columnSums r.codes)) false else s
      .done (putHead s core (jobPast j r.counters))

/-- One tile step, or the epilogue that ends it (R302 to R304). -/
def jobStep (s : State) (core : Nat) (j : Job) (t : Team) : JobOut :=
  if j.accumulated then jobEpilogue s core j t else jobAccumulate s core j t

/-- JOB_STEP (R302): the admitted head job of a core has a step left, and its lines are present. -/
def execJobStep (core : Nat) (s : State) : Result :=
  match headJob s core with
  | some j =>
    if !j.admitted || j.finished then .refused (.notDue "JOB_STEP")
    else match teamOf s j.issuer.team with
      | none => .refused (.notDue "JOB_STEP")
      | some t => match jobStep s core j t with
        | .waits => .refused (.notDue "JOB_STEP")
        | .fault s sub addr => .next (finishJob s core { j with addr := addr } (some sub))
        | .done s => .next s
  | none => .refused (.notDue "JOB_STEP")

/-- Agents of a core that a full engine or queue holds may issue again (R301, R332). -/
def releaseFull (s : State) (core : Nat) : State :=
  { s with agents := updWhere (fun a => coreOfAgent s a.key == core && a.hold == some .full) (fun a => { a with hold := none }) s.agents }

/-- The record that ends a copy or a job with a fault, with the address at fault (R304, R391, R393). -/
def timelineRecord (s : State) (t : Team) (agent unit pc tl n sub : Nat) (addr : Nat := 0) : State :=
  match gridOf s t.grid with
  | none => s
  | some g => logRecord s { cause := 24, sub := sub, agent := agent, queue := g.queue, domain := g.domain, socket := socketOf t.core, unit := unit
                            gridid := g.id, teamid := t.teamid, pc := pc, info := n % 2 ^ 32, info2 := tl, addr := addr
                            opnum := n, tag := g.launch.tag.toNat, time := coreTime s t.core }

/-- The end of a job (R84, R85, R304, R305, R371): the timeline counts it, its peak is released, the next job asks for admission, and its
issuer may arrive at its STEP. -/
def endJob (s : State) (core : Nat) (j : Job) : State :=
  let s := match j.fault, teamOf s j.issuer.team with
    | some sub, some t => timelineRecord s t 3 (core % 32) j.pc j.card.tl j.n sub j.addr
    | _, _ => s
  let s := completeOp s j.issuer.team j.card.tl j.n j.fault.isSome
  let cyc := cycleOf s core
  let s := updCore s core fun c => { c with jobs := match c.jobs.drop 1 with | [] => [] | h :: r => { h with asked := cyc } :: r }
  let s := refreshBusy (showDeclared (releaseFull s core) (clusterOf core)) core
  tryArrive s j.issuer

/-- JOB_COMPLETE (R84, R85, R304, R305, R371). -/
def execJobComplete (core : Nat) (s : State) : Result :=
  match headJob s core with
  | some j => if j.finished then .next (endJob s core j) else .refused (.notDue "JOB_COMPLETE")
  | none => .refused (.notDue "JOB_COMPLETE")

end Sys2Proof.Machine
end

