-- ==== Sys2Proof/Machine/GlobalMem.lean ====
section
/-! DEFINITION. Global memory instructions and fences: opcodes 0xA0 to 0xAB, ATOM and RED (R215 to R229, R237 to R239). -/

namespace Sys2Proof.Machine

/-- The scope of an ORD field (R198). -/
def ordScope (x : FM) : BitVec 2 := BitVec.ofNat 2 (fld x.ord 3 2)

/-- Whether an ORD field acquires (R198). -/
def ordAcq (x : FM) : Bool := bit x.ord 0

/-- Whether an ORD field releases (R198). -/
def ordRel (x : FM) : Bool := bit x.ord 1

/-- The alignment fault of the active lanes whose address is not a multiple of `n`, with the first of them (R218). -/
def Iss.misaligned (c : Iss) (n : Nat) (va : Nat → Nat) : Option Eff :=
  match c.act.filter fun l => va l % n != 0 with
  | [] => none
  | l :: r => some (c.faultAt 5 0 (maskOf (l :: r)) (va l))

/-- Whether an access of these lanes finds the waiting-table entry that it needs (R40, R58). -/
def Iss.room (c : Iss) (op : MemOp) (reqs : List LaneReq) : Bool :=
  let vas := reqs.flatMap fun r => r.va :: (match r.va2 with | some v => [v] | none => [])
  !needsEntry c.s0 c.t.core c.a.key op vas || tableFree c.s0 c.t.core (isLadle c.a.key)

/-- The waiting-table entry that an access of these lanes takes at its issue, if it needs one (R40, R58). -/
def Iss.slotFor (c : Iss) (op : MemOp) (reqs : List LaneReq) : Option Nat :=
  let vas := reqs.flatMap fun r => r.va :: (match r.va2 with | some v => [v] | none => [])
  if needsEntry c.s0 c.t.core c.a.key op vas then some (tableNext c.s0 c.t.core (isLadle c.a.key)) else none

/-- An access of the issuing agent begun from a state that its issue has reached; an acquire's implicit switch marker follows it (R80, R238). -/
def Iss.begun (c : Iss) (s : State) (op : MemOp) (dest : Opnd) (size : Nat) (reqs : List LaneReq) (acq : Option (BitVec 2)) : State :=
  let s := startAccess s c.a.key c.t.core c.n c.pc op dest size reqs
  match acq with
  | some scope => updAgent s c.a.key fun a => { a with marker := true, markerAcq := some scope }
  | none => s

/-- A global access: without effect where no lane is active (R194), not issued without an entry (R40, R351), else begun. -/
def Iss.access (c : Iss) (s : State) (op : MemOp) (dest : Opnd) (size : Nat) (reqs : List LaneReq) (acq : Option (BitVec 2) := none) : Eff :=
  if reqs.isEmpty then .ok s else if c.room op reqs then .ok (c.begun s op dest size reqs acq) else c.later

/-- The scope of an access that acquires (R198). -/
def acquireOf (x : FM) : Option (BitVec 2) := if ordAcq x then some (ordScope x) else none

/-! ### Loads and stores -/

/-- The lanes' requests of a load of `n` bytes. -/
def Iss.loadReqs (c : Iss) (x : FM) (n : Nat) : List LaneReq :=
  (c.memLanes x [x.d]).map fun l => laneReq l (c.ea x n l) none n 0 0

/-- LD (R220): with .acq an implicit switch marker and the acquire follow (R80). -/
def execLd (x : FM) (s : State) : Result :=
  issue (.ld x) x.h s fun c =>
    let n := sizeOf x.h
    match c.misaligned n (c.ea x n) with
    | some e => e
    | none => c.access c.s (.load (signedSize x.h) false) x.d n (c.loadReqs x n) (acquireOf x)

/-- ST (R219, R221). -/
def execSt (x : FM) (s : State) : Result :=
  issue (.st x) x.h s fun c =>
    let n := sizeOf x.h
    let ls := c.memLanes x [x.data2]
    match c.misaligned n (c.ea x n) with
    | some e => e
    | none =>
      let (data, hit, trapped) := c.boundStore x.h x.bnd.toNat n ls (c.data n x.data2)
      if !trapped.isEmpty then c.boundTrap x.bnd.toNat trapped
      else
        c.access (if hit then setHit c.s c.t.uid x.bnd.toNat else c.s) .store .zr n
          (data.map fun d => laneReq d.1 (c.ea x n d.1) none n (BitVec.ofNat 128 d.2) 0)

/-- LDA (R162, R222). -/
def execLda (x : FM) (s : State) : Result :=
  issue (.lda x) x.h s fun c =>
    let n := sizeOf x.h
    match c.misaligned n (c.ea x n) with
    | some e => e
    | none => c.access c.s (.load (signedSize x.h) true) x.d n (c.loadReqs x n)

/-- Whether an address-table entry serves a lane of CHKA (R222); the one access of a uniform form is in no particular lane. -/
def addrHit (a : Agent) (now : Nat) (uniform : Bool) (d : Opnd) (n lane va : Nat) : Bool :=
  a.addrTable.any fun e => e.dest == d && e.size == n && decide (now < e.expiry)
    && e.lanes.any fun q => (uniform || q.1 == lane) && q.2.1 == va

/-- Whether the entry that serves a lane of CHKA is poison (R153). DEDUCED, log entry 17. -/
def addrPoisoned (a : Agent) (now : Nat) (uniform : Bool) (d : Opnd) (n lane va : Nat) : Bool :=
  addrHit { a with addrTable := a.addrTable.filter (·.poison) } now uniform d n lane va

/-- CHKA (R222): lanes without a live entry load again. An entry that an error has made poison is consumed by the lanes that it serves (R153, R389;
DEDUCED, log entry 17). -/
def execChka (x : FM) (s : State) : Result :=
  issue (.chka x) x.h s fun c =>
    let n := sizeOf x.h
    match c.misaligned n (c.ea x n) with
    | some e => e
    | none =>
      let now := coreTime c.s c.t.core
      let bad := (c.memLanes x [x.d]).filter fun l => addrPoisoned c.a now (uniformFM x [x.d]) x.d n l (c.ea x n l)
      if !bad.isEmpty then c.fault 19 0 (maskOf bad) else
      c.access c.s (.load (signedSize x.h) false) x.d n
        ((c.loadReqs x n).filter fun r => !addrHit c.a now (uniformFM x [x.d]) x.d n r.lane r.va)

/-- INVALA (R222). -/
def execInvala (x : FM) (s : State) : Result :=
  issue (.invala x) x.h s fun c =>
    .ok (if c.act.isEmpty then c.s
      else if bit x.h.mod 0 then c.upd fun a => { a with addrTable := [] }
      else c.upd fun a => { a with addrTable := a.addrTable.filter fun e => e.dest != x.d })

/-- LDIX (R26, R223): the index word's address is scaled by 4. -/
def execLdix (x : FM) (s : State) : Result :=
  issue (.ldix x) x.h s fun c =>
    let n := sizeOf x.h
    let reqs := (c.memLanes x [x.d, x.data2]).map fun l => laneReq l (c.ea x 4 l) (some (val64 c.a x.data2 l)) n 0 0
    match c.misaligned 4 (c.ea x 4) with
    | some e => e
    | none => c.access c.s (.ldix (bit x.h.mod 4) (signedSize x.h)) x.d n reqs

/-! ### Prefetch, write-back and code -/

/-- A line asked for by PREF: skipped where its page is UNCACHED, or nothing or a system range is there (R9, R224). -/
def prefLine (s : State) (core : Nat) (ladle : Bool) (ctx : Nat) (x : Xlat) (va : Nat) : State :=
  let pa := x.pa va / 128 * 128
  if sysBase ≤ pa || (unbacked s pa).isSome || x.attr == 3 then s
  else
    let lease := x.attr == 0
    let s := if lease then updCore s core fun c => { c with prefs := c.prefs ++ [(pa / 128, false)] } else s
    send s { requestPacket core (.pref core ladle) (homeSocket s pa) x.attr pa (.rd [⟨0, pa, 128, 0, 0⟩] lease) with
             via := [⟨ctx, x.vaBase, x.size, s.xlatGen⟩] }

/-- What a PREF does with the pages that its reader knows (R57, R58, R224): their lines are asked for, a page that does not translate is skipped, and
the others' translations are asked for. -/
def prefRun (s : State) (r : Reader) : State :=
  match r.goal, r.core with
  | .pref vas, some core =>
    let looks := vas.map fun va => (va, lookPage s r.eye .any va)
    let s := looks.foldl (fun s l => match l.2 with | .ok x => prefLine s core r.ladle r.ctx x l.1 | _ => s) s
    let left := looks.filterMap fun l => match l.2 with | .need ns => some (l.1, ns) | _ => none
    if left.isEmpty then dropReader s r.id
    else askReader (updReader s r.id fun x => { x with goal := .pref (left.map (·.1)) }) r (left.flatMap (·.2))
  | _, _ => s

/-- A reader begun by an agent's prefetch and run once. -/
def beginPrefetch (s : State) (core : Nat) (k : AgentKey) (ctx : Nat) (goal : ReadGoal) (run : State → Reader → State) : State :=
  let (id, s) := newReader s (some core) (isLadle k) ctx goal
  match readerOf s id with
  | some r => run s r
  | none => s

/-- PREF (R224): one request for each line that the active lanes name. -/
def execPref (x : FM) (s : State) : Result :=
  issue (.pref x) x.h s fun c =>
    let lines := ((c.memLanes x []).map fun l => c.ea x 1 l / 128 * 128).dedup
    .ok (if lines.isEmpty then c.s else beginPrefetch c.s c.t.core c.a.key c.g.vf (.pref lines) prefRun)

/-- The parts of a byte range in its 64 KiB pages: first address and length. -/
def pageParts (va n : Nat) : List (Nat × Nat) :=
  if n = 0 then []
  else (List.range ((va + n - 1) / 65536 + 1 - va / 65536)).map fun i =>
    let a := max va ((va / 65536 + i) * 65536)
    (a, min (va + n) ((va / 65536 + i + 1) * 65536) - a)

/-- Live home slices (R12). -/
def liveSlices (s : State) : List Nat := ((List.range 16).map (12 + ·)).filter fun k => isLive s k

/-- One page of a PREFB sent to every live home slice (R23, R225): a system range and unbacked memory have none. -/
def prefbPage (s : State) (core : Nat) (ladle : Bool) (ctx team tl n : Nat) (x : Xlat) (part : Nat × Nat) : State :=
  let pa := x.pa part.1
  if sysBase ≤ pa || (unbacked s pa).isSome then s
  else
    let homes := liveSlices s
    let s := updTeam s team fun t =>
      { t with prefb := updWhere (fun p => p.1 == tl && p.2.1 == n) (fun p => (p.1, p.2.1, p.2.2 + homes.length)) t.prefb }
    homes.foldl (fun s d => send s { requestPacket core (.pref core ladle) d x.attr pa (.pf pa part.2 team tl n) with
                                     via := [⟨ctx, x.vaBase, x.size, s.xlatGen⟩] }) s

/-- One thing that a PREFB waits for is done: a slice's reply, or the last of its pages (R85, R225). -/
def prefbDone (s : State) (team tl n : Nat) : State :=
  match teamOf s team with
  | none => s
  | some t => match t.prefb.find? fun x => x.1 == tl && x.2.1 == n with
    | none => s
    | some x =>
      if x.2.2 ≤ 1 then completeOp (updTeam s team fun t => { t with prefb := t.prefb.erase x }) team tl n false
      else updTeam s team fun t => { t with prefb := updWhere (· == x) (fun x => (x.1, x.2.1, x.2.2 - 1)) t.prefb }

/-- The pages of a PREFB sent up to the first whose translation is not known, with what is left and what that lacks. -/
def prefbPages (s : State) (r : Reader) (core team tl n : Nat) : List (Nat × Nat) → State × List (Nat × Nat) × List Need
  | [] => (s, [], [])
  | p :: rest => match lookPage s r.eye .any p.1 with
    | .ok x => prefbPages (prefbPage s core r.ladle r.ctx team tl n x p) r core team tl n rest
    | .need ns => (s, p :: rest, ns)
    | _ => prefbPages s r core team tl n rest

/-- What a PREFB does with the pages that its reader knows (R57, R58, R225), page after page. -/
def prefbRun (s : State) (r : Reader) : State :=
  match r.goal, r.core with
  | .prefb team tl n va len, some core =>
    let (s, left, ns) := prefbPages s r core team tl n (pageParts va len)
    match left with
    | [] => prefbDone (dropReader s r.id) team tl n
    | p :: _ => askReader (updReader s r.id fun x => { x with goal := .prefb team tl n p.1 (va + len - p.1) }) r ns
  | _, _ => s

/-- PREFB (R225): a range of which nothing is sent completes at once. -/
def execPrefb (x : FM) (s : State) : Result :=
  issue (.prefb x) x.h s fun c =>
    let tl := x.bnd.toNat
    if !hasTimeline c.t tl then c.illegal
    else match c.act with
      | [] => .ok c.s
      | l :: _ =>
        let (s, n) := takeNumber c.s c.t.uid tl
        let s := updTeam s c.t.uid fun t => { t with prefb := t.prefb ++ [(tl, n, 1)] }
        .ok (beginPrefetch s c.t.core c.a.key c.g.vf (.prefb c.t.uid tl n (c.ea x 1 l) (val64 c.a x.data2 l % 2 ^ 32)) prefbRun)

/-- CWB (R226). -/
def execCwb (x : FM) (s : State) : Result :=
  issue (.cwb x) x.h s fun c => c.access c.s .cwb .zr 1 ((c.memLanes x []).map fun l => laneReq l (c.ea x 1 l) none 1 0 0)

/-- ICINV (R227): the agent is held until the commits, and at device scope the chiplets, have answered. -/
def execIcinv (x : FM) (s : State) : Result :=
  issue (.icinv x) x.h s fun c =>
    match c.act with
    | [] => .ok c.s
    | l :: _ =>
      let reqs := (pageParts (c.ea x 1 l) (val64 c.a x.data2 l % 2 ^ 32)).map fun p => laneReq l p.1 none p.2 0 0
      if reqs.isEmpty then .ok c.s
      else
        let device := ordScope x == 2
        let socks := if device then (List.range 12).filter fun k => isLive c.s k && !socketFailed c.s k else []
        c.access (c.upd fun a => { a with hold := some (.icinv ⟨0, socks, [], device, c.s.time, []⟩) }) .icinv .zr 1 reqs

/-- FETCHB (R92, R228). -/
def execFetchb (x : FM) (s : State) : Result :=
  issue (.fetchb x) x.h s fun c => .ok (if c.act.isEmpty then c.s else c.upd fun a => { a with fetchBuf := [] })

/-- FENCE (R77, R229). -/
def execFence (x : FM) (s : State) : Result :=
  issue (.fence x) x.h s fun c =>
    .ok (if c.act.isEmpty then c.s else holdFence c.s c.a.key (ordAcq x) (ordRel x) (ordScope x) .none)

/-! ### Atomics at the home -/

/-- The register that follows another by `k` (R237). -/
def nextOpnd (k : Nat) : Opnd → Opnd
  | .v n => .v (n + BitVec.ofNat 7 k)
  | .s n => .s (n + BitVec.ofNat 6 k)
  | o => o

/-- Operand and compare value of an atomic in a lane (R237). -/
def Iss.atomArgs (c : Iss) (x : FM) (l : Nat) : Nat × Nat :=
  let cas := fld x.h.mod 4 0 == 10
  if bit x.h.mod 5 then
    (val64 c.a x.data2 l, if cas then val64 c.a (nextOpnd (if isV x.data2 then 2 else 1) x.data2) l else 0)
  else (val32 c.a c.ex x.data2 l, if cas then val32 c.a c.ex (nextOpnd 1 x.data2) l else 0)

/-- Bytes of an atomic (R237). -/
def atomSize (x : FM) : Nat := if bit x.h.mod 5 then 8 else 4

/-- The lanes' requests of an atomic. -/
def Iss.atomReqs (c : Iss) (x : FM) (data : List Opnd) : List LaneReq :=
  (c.memLanes x data).map fun l =>
    let v := c.atomArgs x l
    laneReq l (c.ea x (atomSize x) l) none (atomSize x) (BitVec.ofNat 128 v.1) (BitVec.ofNat 64 v.2)

/-- An atomic with its ordering (R40, R238, R239): a release comes first as a fence, with the atomic's waiting-table entry taken at its issue, an
acquire last as an implicit switch marker. -/
def Iss.atomic (c : Iss) (x : FM) (op : MemOp) (dest : Opnd) (reqs : List LaneReq) : Eff :=
  let n := atomSize x
  match c.misaligned n (c.ea x n) with
  | some e => e
  | none =>
    if ordRel x && !reqs.isEmpty then
      if c.room op reqs then
        .ok (holdFence c.s c.a.key false true (ordScope x) (.access op dest n c.pc reqs (acquireOf x) (ordScope x != 3)) (c.slotFor op reqs))
      else c.later
    else c.access c.s op dest n reqs (acquireOf x)

/-- ATOM (R238). -/
def execAtom (x : FM) (s : State) : Result :=
  issue (.atom x) x.h s fun c =>
    c.atomic x (.atom (BitVec.ofNat 5 (fld x.h.mod 4 0)) (bit x.h.mod 5)) x.d (c.atomReqs x (atomData x))

/-- RED (R239). -/
def execRed (x : FM) (s : State) : Result :=
  issue (.red x) x.h s fun c =>
    c.atomic x (.red (BitVec.ofNat 5 (fld x.h.mod 4 0)) (bit x.h.mod 5)) .zr (c.atomReqs x [x.data2])

end Sys2Proof.Machine
end

