-- ==== Sys2Proof/Machine/StepMem.lean ====
section
/-! DEFINITION. Step-memory instructions: opcodes 0xB0 to 0xB9, ATOMS, REDS and ATOMX (R216, R219, R230 to R237, R240, R241). -/

namespace Sys2Proof.Machine

/-! ### Step addresses -/

/-- What a step address names: nothing valid, the issuing core, or another core (R230). -/
inductive StepAt where
  | bad
  | own (off : Nat)
  | other (core off : Nat)
  deriving DecidableEq, Repr

/-- A step address read (R230); before version 3 a core field is a range fault. -/
def stepAt (version core ea : Nat) : StepAt :=
  let off := ea % 2 ^ 20
  let n := ea / 2 ^ 20 % 2 ^ 9
  if ea / 2 ^ 29 != 0 || decide (384 < n) || (version != 3 && n != 0) then .bad
  else if n = 0 || n - 1 = core then .own off
  else .other (n - 1) off

/-- The step address of an instruction in a lane. -/
def Iss.at_ (c : Iss) (ea : Nat) : StepAt := stepAt c.t.hdr.version c.t.core ea

/-- Whether the issuing agent is a member of a region's group (R133, R232). -/
def Iss.member (c : Iss) (r : Region) : Bool := !isLadle c.a.key && isMember c.t r.group c.a.key.idx

/-- The precise check that an access of `n` bytes fails in a lane (R124, R230): at another core the width and the alignment only. -/
def Iss.stepCause (c : Iss) (remote : Bool) (n : Nat) (acc : StepAccess) (ea : Nat) : Option Nat :=
  match c.at_ ea with
  | .bad => some 6
  | .own off => stepCheck c.t (isLadle c.a.key) c.member off n acc
  | .other _ off => if !remote then some 6 else if acc = .stx && decide (n < 4) then some 8 else if off % n != 0 then some 9 else none

/-- The check that an access fails first, the lanes that fail it and the address of the first of them (R124). -/
def Iss.stepBad (c : Iss) (remote : Bool) (n : Nat) (acc : StepAccess) (ea : Nat → Nat) : Option (Nat × List Nat × Nat) :=
  firstFault (c.act.filterMap fun l => (c.stepCause remote n acc (ea l)).map fun cause => (l, cause, ea l))

/-- The precise fault of an access, if some active lane fails (R124). -/
def Iss.stepFault (c : Iss) (remote : Bool) (n : Nat) (acc : StepAccess) (ea : Nat → Nat) : Option Eff :=
  (c.stepBad remote n acc ea).map fun (cause, ls, addr) => c.faultAt cause 0 (maskOf ls) addr

/-- The step offset of an address on the issuing core. -/
def Iss.ownOff (c : Iss) (ea : Nat) : Option Nat :=
  match c.at_ ea with
  | .own off => some off
  | _ => none

/-- The lanes that access the issuing core, with their offsets. -/
def Iss.ownLanes (c : Iss) (ls : List Nat) (ea : Nat → Nat) : List (Nat × Nat) :=
  ls.filterMap fun l => (c.ownOff (ea l)).map fun off => (l, off)

/-- The lanes that access another core, with core and offset. -/
def Iss.otherLanes (c : Iss) (ls : List Nat) (ea : Nat → Nat) : List (Nat × Nat × Nat) :=
  ls.filterMap fun l => match c.at_ (ea l) with
    | .other core off => some (l, core, off)
    | _ => none

/-- The absent lines that hold an access of the own core back (R138). -/
def Iss.missing (c : Iss) (own : List (Nat × Nat)) (n : Nat) : List Nat := (own.flatMap fun p => absentLines c.t p.2 n).dedup

/-- Lanes that one access of an instruction stands for: all active lanes of a uniform one, else its own (R216). -/
def Iss.lanesFor (c : Iss) (x : FM) (data : List Opnd) (l : Nat) : BitVec 32 :=
  if uniformFM x data then maskOf c.act else BitVec.ofNat 32 (2 ^ l)

/-! ### Loads and stores -/

/-- LDS (R231): the agent's earlier stores to the same banks come first (R127). -/
def execLds (x : FM) (s : State) : Result :=
  issue (.lds x) x.h s fun c =>
    let n := sizeOf x.h
    let ea := c.ea x n
    match c.stepFault false n .load ea with
    | some e => e
    | none =>
      let own := c.ownLanes (c.memLanes x [x.d]) ea
      match (own.flatMap fun p => readWaits c.t p.2 n).dedup with
      | [] =>
        let c := c.landed (own.map fun p => (p.2, n))
        let writes := own.flatMap fun p =>
          let r := loadResult n (signedSize x.h) (stepRead c.t p.2 n)
          regWrites r.1 x.d p.1 r.2 ++ if stepPoisoned c.t p.2 n then poisonMarks r.1 x.d p.1 0 else []
        .ok (if own.isEmpty then c.s else addLoad c.s c.a.key c.n writes)
      | lines => c.absent lines

/-- A lane's store of `n` bytes at an offset of its own core: the next plane of a STEP region under the lane's rank, the ladle-memory window, or
bytes that are on their way to their bank (R79, R97, R127, R232, R435). DEDUCED, log entry 40. -/
def storeStep (t : Team) (k : AgentKey) (issue off n lane x : Nat) : Team :=
  match regionAt t.hdr off n with
  | some r =>
    if r.kind = .step then putNextWords t r off (rankOf t r.group k.idx lane) (wordsOf n x) else postStore t ⟨k, issue, off, leBytes n x⟩
  | none => putStepBytes t off (leBytes n x)

/-- Stores of some lanes in lane order (R217). -/
def Iss.storeOwn (c : Iss) (s : State) (n : Nat) (own : List (Nat × Nat × Nat)) : State :=
  updTeam s c.t.uid fun t => own.foldl (fun t p => storeStep t c.a.key c.n p.2.1 n p.1 p.2.2) t

/-- The data of a lane among those of a store. -/
def dataOf (data : List (Nat × Nat)) (l : Nat) : Nat := ((data.find? fun d => d.1 == l).map (·.2)).getD 0

/-- STS (R219, R232). -/
def execSts (x : FM) (s : State) : Result :=
  issue (.sts x) x.h s fun c =>
    let n := sizeOf x.h
    let ea := c.ea x n
    match c.stepFault false n .store ea with
    | some e => e
    | none =>
      let ls := c.memLanes x [x.data2]
      let (data, hit, trapped) := c.boundStore x.h x.bnd.toNat n ls (c.data n x.data2)
      if !trapped.isEmpty then c.boundTrap x.bnd.toNat trapped
      else
        let own := c.ownLanes ls ea
        match c.missing own n with
        | [] =>
          let s := if hit then setHit c.s c.t.uid x.bnd.toNat else c.s
          .ok (c.storeOwn s n (own.map fun p => (p.1, p.2, dataOf data p.1)))
        | lines => c.absent lines

/-! ### Messages to other cores -/

/-- An exchange store of a lane to its own core: the next plane, or held in the bank like any other where its line is absent (R127, R135). -/
def exchangeHere (t : Team) (k : AgentKey) (off n lane x : Nat) : Team :=
  match regionAt t.hdr off n with
  | some r =>
    let rank := rankOf t r.group k.idx lane
    if (absentLines t off n).isEmpty then putNextWords t r off rank (wordsOf n x)
    else { t with heldStx := t.heldStx ++ [⟨socketOf t.core, off, rank, wordsOf n x⟩] }
  | none => t

/-- An exchange store of a lane to another core: a message, or the error report of a core without a team of the grid (R133, R134). -/
def Iss.exchangeThere (c : Iss) (s : State) (n ea lane core off x : Nat) : State :=
  if !teamAt s c.g.id core then reportRange s c.a.key c.n c.pc lane ea
  else
    let group := (c.t.hdr.regions.find? fun r => r.kind == .step && decide (r.base ≤ off ∧ off + n ≤ r.base + r.size)).map (·.group)
    let s := noteXpath s c.a.key c.n ⟨socketOf core, planeOf off⟩
    let g := group.getD 0
    sendMessage s c.t (.agent c.t.core c.a.key c.n c.pc (BitVec.ofNat 32 (2 ^ lane))) lane core off
      (.stx off (rankOf c.t g c.a.key.idx lane) g (wordsOf n x)) c.a.key c.n c.pc

/-- What STX does in its lanes (R133 to R135, R233), given each lane's data. -/
def Iss.stxEffect (c : Iss) (x : FM) (value : Nat → Nat) (s : State) : State :=
  let n := sizeOf x.h
  let ea := c.ea x n
  let ls := c.memLanes x [x.data2]
  let s := updTeam s c.t.uid fun t => (c.ownLanes ls ea).foldl (fun t p => exchangeHere t c.a.key p.2 n p.1 (value p.1)) t
  (c.otherLanes ls ea).foldl (fun s p => c.exchangeThere s n (ea p.1) p.1 p.2.1 p.2.2 (value p.1)) s

/-- STX (R133 to R135, R233). -/
def execStx (x : FM) (s : State) : Result :=
  issue (.stx x) x.h s fun c =>
    let n := sizeOf x.h
    match c.stepFault true n .stx (c.ea x n) with
    | some e => e
    | none =>
      let (data, hit, trapped) := c.boundStore x.h x.bnd.toNat n (c.memLanes x [x.data2]) (c.data n x.data2)
      if !trapped.isEmpty then c.boundTrap x.bnd.toNat trapped
      else .ok (c.stxEffect x (dataOf data) (if hit then setHit c.s c.t.uid x.bnd.toNat else c.s))

/-! ### Tagged operations -/

/-- The lanes of a tagged instruction with what each names and stores (R216, R230, R234). -/
def Iss.tagLanes (c : Iss) (x : FM) (data : List Opnd) (value : Nat → Nat) : List TagLane :=
  (c.memLanes x data).filterMap fun l =>
    let ea := c.ea x 4 l
    let lane := fun (off : Nat) (core : Option Nat) => (⟨l, ea, off, core, c.lanesFor x data l, BitVec.ofNat 32 (value l)⟩ : TagLane)
    match c.at_ ea with
    | .own off => some (lane off none)
    | .other core off => some (lane off (some core))
    | .bad => none

/-- The lanes that park at a tagged instruction: those that may wait for a tag, and all of a remote operation (R141, R235). -/
def Iss.tagParked (c : Iss) (o : TagOp) (ls : List TagLane) : List Nat :=
  let waits := match o with | .ldf _ | .ste => true | _ => false
  let parked := ls.filter fun l => match l.core with | none => waits | some core => teamAt c.s c.g.id core
  c.act.filter fun l => parked.any fun p => bit p.lanes l

/-- What a tagged instruction does in its lanes (R141, R142, R230, R234, R235): its lanes park, and they act at their banks, behind a release
for STE: at team scope toward the own core, at device scope toward another (R142), beside which the warp's other paths go on. LDF.E acquires by
parking its lanes until the word has come. -/
def Iss.tagEffect (c : Iss) (x : FM) (o : TagOp) (dest : Opnd) (data : List Opnd) (value : Nat → Nat) (s : State) : State :=
  let ls := c.tagLanes x data value
  let parked := c.tagParked o ls
  let s := if parked.isEmpty then s else parkLanes s c.a.key parked c.pc .tagWait
  let scope : BitVec 2 := if ls.any (·.core.isSome) then 2 else 1
  if o == .ste && !ls.isEmpty && !releaseIdle c.s c.a c.t.core scope c.n then tagsBehindRelease s c.a c.t.core scope o dest c.pc c.n ls
  else carryTags s c.a.key c.t o dest c.pc c.n ls

/-- A tagged instruction: held at absent lines (R138), not issued without a waiting-table entry for its messages (R40), else carried out. -/
def Iss.tagged (c : Iss) (x : FM) (o : TagOp) (dest : Opnd) (data : List Opnd) (value : Nat → Nat) (s : State) : Eff :=
  let ls := c.memLanes x data
  match c.missing (c.ownLanes ls (c.ea x 4)) 4 with
  | l :: r => c.absent (l :: r)
  | [] =>
    if !(c.otherLanes ls (c.ea x 4)).isEmpty && !tableFree s c.t.core (isLadle c.a.key) then c.later
    else .ok (c.tagEffect x o dest data value s)

/-- A tagged instruction without data (R234). -/
def Iss.tagOnly (c : Iss) (x : FM) (o : TagOp) (dest : Opnd) (data : List Opnd) : Eff :=
  match c.stepFault true 4 .tag (c.ea x 4) with
  | some e => e
  | none => c.tagged x o dest data (fun _ => 0) c.s

/-- STE and STF, with the bound check on their word (R219, R234). -/
def Iss.tagStore (c : Iss) (x : FM) (o : TagOp) : Eff :=
  match c.stepFault true 4 .tag (c.ea x 4) with
  | some e => e
  | none =>
    let (data, hit, trapped) := c.boundStore x.h x.bnd.toNat 4 (c.memLanes x [x.data2]) (c.data 4 x.data2)
    if !trapped.isEmpty then c.boundTrap x.bnd.toNat trapped
    else c.tagged x o .zr [x.data2] (dataOf data) (if hit then setHit c.s c.t.uid x.bnd.toNat else c.s)

def execLdf (x : FM) (s : State) : Result := issue (.ldf x) x.h s fun c => c.tagOnly x (.ldf (bit x.h.mod 4)) x.d [x.d]

def execSte (x : FM) (s : State) : Result := issue (.ste x) x.h s fun c => c.tagStore x .ste

def execStf (x : FM) (s : State) : Result := issue (.stf x) x.h s fun c => c.tagStore x .stf

def execTagset (x : FM) (s : State) : Result := issue (.tagset x) x.h s fun c => c.tagOnly x .set .zr []

def execTagclr (x : FM) (s : State) : Result := issue (.tagclr x) x.h s fun c => c.tagOnly x .clr .zr []

def execTagrd (x : FM) (s : State) : Result := issue (.tagrd x) x.h s fun c => c.tagOnly x .rd x.d [x.d]

/-- PRSRD (R236): it never parks; the offset must lie in a region. -/
def execPrsrd (x : FM) (s : State) : Result :=
  issue (.prsrd x) x.h s fun c =>
    let ea := c.ea x 1
    match c.stepFault false 1 .presence ea with
    | some e => e
    | none =>
      let own := c.ownLanes (c.memLanes x [x.d]) ea
      .ok (if own.isEmpty then c.s
        else addVar c.s c.a.key c.n (own.flatMap fun p => regWrites 32 x.d p.1 (presenceWord c.t p.2).toNat) none)

/-! ### Bank atomics -/

/-- The effects of a bank atomic's old value on its destination (R25, R143). -/
def atomWrites (t : Team) (dest : Opnd) (n off lane old : Nat) : List RegWrite :=
  regWrites (8 * n) dest lane old ++ if stepPoisoned t off n then poisonMarks (8 * n) dest lane 0 else []

/-- What ATOMS, REDS and ATOMX do in their lanes (R127, R143, R240, R241): own lanes act at the bank in lane order, behind the agent's stores there,
the others by messages. -/
def Iss.bankEffect (c : Iss) (x : FM) (dest : Opnd) (data : List Opnd) : State :=
  let n := atomSize x
  let op := fld x.h.mod 4 0
  let ea := c.ea x n
  let own := c.ownLanes (c.memLanes x data) ea
  let c := c.landed (own.map fun p => (p.2, n))
  let far := c.otherLanes (c.memLanes x data) ea
  let (t, writes) := own.foldl (fun (acc : Team × List RegWrite) p =>
    let v := c.atomArgs x p.1
    let r := bankAtomic acc.1 p.2 op (n == 8) v.1 v.2
    (r.1, acc.2 ++ atomWrites acc.1 dest n p.2 p.1 r.2)) (c.t, [])
  let s := updTeam c.s c.t.uid fun _ => t
  let s := if writes.isEmpty then s else addLoad s c.a.key c.n writes
  let lost := far.filter fun p => !teamAt s c.g.id p.2.1
  let sent := far.filter fun p => teamAt s c.g.id p.2.1
  let s := lost.foldl (fun s p => reportRange s c.a.key c.n c.pc p.1 (ea p.1)) s
  if sent.isEmpty then s
  else
    let (id, s) := bankEntry s c.t.core c.a.key c.n c.pc (.bank true (n == 8)) dest n (sent.map fun p => (p.1, p.2.2, 0))
    sent.foldl (fun s p =>
      let v := c.atomArgs x p.1
      sendMessage s c.t (.entry c.t.core id (isLadle c.a.key)) p.1 p.2.1 p.2.2
        (.atomx p.2.2 (BitVec.ofNat 5 op) (n == 8) (BitVec.ofNat 64 v.1) (BitVec.ofNat 64 v.2)) c.a.key c.n c.pc) s

/-- An atomic on step memory: its checks, held at absent lines (R138), not issued without a waiting-table entry for its messages (R40). -/
def Iss.bankAtomics (c : Iss) (x : FM) (remote : Bool) (dest : Opnd) (data : List Opnd) : Eff :=
  let n := atomSize x
  match c.stepFault remote n .atomic (c.ea x n) with
  | some e => e
  | none =>
    let ls := c.memLanes x data
    match c.missing (c.ownLanes ls (c.ea x n)) n with
    | l :: r => c.absent (l :: r)
    | [] =>
      if !(c.otherLanes ls (c.ea x n)).isEmpty && !tableFree c.s c.t.core (isLadle c.a.key) then c.later
      else .ok (c.bankEffect x dest data)

def execAtoms (x : FM) (s : State) : Result := issue (.atoms x) x.h s fun c => c.bankAtomics x false x.d (atomData x)

def execReds (x : FM) (s : State) : Result := issue (.reds x) x.h s fun c => c.bankAtomics x false .zr [x.data2]

def execAtomx (x : FM) (s : State) : Result := issue (.atomx x) x.h s fun c => c.bankAtomics x true x.d (atomData x)

end Sys2Proof.Machine
end

