-- ==== Sys2Proof/Machine/Copy.lean ====
section
/-! DEFINITION. The ladle's copy instructions: shape records, checks at acceptance, copy counts and the engine's queue, opcodes 0xD0 to
0xD6 (R101 to R117, R330 to R337). -/

namespace Sys2Proof.Machine

/-! ### Shapes -/

/-- The rows of a shape at one end: start of each run of innermost elements, in order (R104, R105). -/
def shapeRows (base : Int) (p : Shape) (s1 s2 : Int) : List Int :=
  (List.range p.count2).flatMap fun i2 => (List.range p.count1).map fun i1 => base + s2 * i2 + s1 * i1

/-- Elements of a shape. -/
def shapeCount (p : Shape) : Nat := p.count0 * p.count1 * p.count2

/-- A run of elements of one dimension. -/
def runShape (esize count : Nat) : Shape := ⟨1, esize, count, 1, 1, 0, 0, 0, 0, 0⟩

/-- A shape record's fields, none for a shape fault (R104); a check offset is a field of .ck only. -/
def parseShape (t : Team) (off : Nat) (ck : Bool) : Option Shape :=
  let w0 := stepRead t off 4
  let w1 := stepRead t (off + 4) 4
  let stride := fun (i : Nat) => toS 32 (stepRead t (off + i) 4)
  let dims := w0 / 2 ^ 30
  let code := w0 / 2 ^ 27 % 8
  let es := 2 ^ code
  let n1 := if 2 ≤ dims then w1 % 2 ^ 16 else 1
  let n2 := if dims = 3 then w1 / 2 ^ 16 else 1
  let one := fun (i : Nat) => if 2 ≤ dims then stride i else 0
  let two := fun (i : Nat) => if dims = 3 then stride i else 0
  let p : Shape := ⟨dims, es, w0 % 2 ^ 24, n1, n2, one 8, two 12, one 16, two 20, stepRead t (off + 24) 4⟩
  let fits := [p.src1, p.src2, p.dst1, p.dst2].all fun x => x % (es : Int) == 0
  if dims = 0 ∨ 4 < code ∨ w0 / 2 ^ 24 % 8 ≠ 0 ∨ p.count0 = 0 ∨ n1 = 0 ∨ n2 = 0 ∨ !fits ∨ stepRead t (off + 28) 4 ≠ 0 ∨ (!ck ∧ p.ckOff ≠ 0) then none
  else some p

/-- The shape of a copy from its length or its shape record, none for a shape fault (R104, R331, R333). -/
def copyShape (t : Team) (shp ck : Bool) (v esize : Nat) (bytes : Bool) : Option Shape :=
  if shp then
    if v % 32 = 0 ∧ windowBase ≤ v ∧ v + 32 ≤ windowBase + t.hdr.ladleMem * 256 then parseShape t v ck else none
  else
    let n := if bytes then v / esize else v
    if v = 0 ∨ 2 ^ 32 ≤ v ∨ (bytes ∧ v % esize ≠ 0) then none else some (runShape esize n)

/-! ### Ranges -/

/-- The bytes from the lowest to the highest that a set of runs touches. -/
def hull (rows : List Int) (len : Nat) : Option (Int × Int) :=
  match rows.min?, rows.max? with
  | some a, some b => some (a, b + len)
  | _, _ => none

/-- Whether some runs lie wholly in one region of a team (R103). -/
def inRegion (t : Team) (rows : List Int) (len : Nat) : Bool :=
  match hull rows len with
  | some (a, b) => decide (0 ≤ a) && inOneRegion t a.toNat (b - a).toNat
  | none => false

/-- Whether a place is in a STEP region. -/
def inStepRegion (t : Team) (off : Nat) : Bool := match regionAt t.hdr off 1 with | some r => r.kind == .step | none => false

/-- Whether runs that are written break the whole words of a STEP region, judged for each row or element (R124; DEDUCED, log entry 40). -/
def breaksWords (t : Team) (rows : List Int) (len : Nat) : Bool :=
  rows.any fun a => inStepRegion t a.toNat && (a % 4 != 0 || len % 4 != 0)

/-- The 128-byte lines that some runs touch. -/
def rowLines (rows : List Int) (len : Nat) : List Nat := (rows.flatMap fun a => stepLines a.toNat len).dedup

/-- The step groups of the STEP regions that hold a place. -/
def groupAt (t : Team) (off : Nat) : List Nat :=
  match regionAt t.hdr off 1 with
  | some r => if r.kind = .step then [r.group] else []
  | none => []

/-! ### The queue of an engine -/

/-- The engine that ANY selects (R101). -/
def anyEngine (s : State) (c : Nat) : Nat :=
  (List.range 6).foldl (fun m e => if queued s c e < queued s c m then e else m) 0

/-- A slot's owner and entry size as the entries queued on the engine will leave it (R109). -/
def slotAhead (s : State) (c e n : Nat) : Option (Nat × Nat) :=
  (engineOf s c e).queue.foldl (fun o x =>
    if x.fault.isSome then o
    else match x.form with
      | .cbload k _ size => if k = n then some (x.issuer.team, size) else o
      | .cbdrop k => if k = n ∧ o.any (fun y => y.1 = x.issuer.team) then none else o
      | _ => o) ((slotOf s c e n).map fun b => (b.team, b.size))

/-! ### Acceptance -/

/-- What a copy instruction asks for, with the fault found at acceptance and the lines whose counts it raises (R112, R332). -/
structure CopyPlan where
  form : CopyForm
  dstStep : Bool
  srcStep : Bool
  idxStep : Bool
  dst : Nat
  src : Nat
  idx : Nat
  shape : Shape
  fault : Option Nat
  lines : List Nat
  addr : Nat := 0

/-- A plan with a fault found at acceptance, and the address at fault: nothing is written and no count is raised. -/
def CopyPlan.bad (p : CopyPlan) (sub : Nat) (addr : Nat := 0) : CopyPlan := { p with fault := some sub, lines := [], addr := addr }

/-- The destination runs of a copy by rows or one after the other, and their length (R104, R106). -/
def CopyPlan.dstRuns (p : CopyPlan) (entry : Nat) : List Int × Nat :=
  match p.form with
  | .gather | .scatter => ([p.dst], p.shape.count0 * p.shape.esize)
  | .codebook _ => ([p.dst], p.shape.count0 * entry)
  | _ => (shapeRows p.dst p.shape p.shape.dst1 p.shape.dst2, p.shape.count0 * p.shape.esize)

/-- The source runs of a copy; an indexed source is known by its base only. -/
def CopyPlan.srcRuns (p : CopyPlan) : List Int × Nat :=
  match p.form with
  | .gather => ([p.src], p.shape.esize)
  | _ => (shapeRows p.src p.shape p.shape.src1 p.shape.src2, p.shape.count0 * p.shape.esize)

/-- Checks at acceptance of a copy that has a shape (R103, R107, R109, R114, R124, R331, R333). `entry` is the codebook's entry size, none
where the slot will not be the team's. Of several faults the first tested is reported (R115; DEDUCED, log entry 29). -/
def CopyPlan.check (p : CopyPlan) (t : Team) (entry : Option Nat) : CopyPlan :=
  let q := p.shape
  let reduce := match p.form with | .reduce _ => true | _ => false
  let es := match p.form with | .scatter => q.esize | _ => 0
  let (dRows, dLen) := p.dstRuns (entry.getD 0)
  let (sRows, sLen) := p.srcRuns
  let high := fun (on : Bool) (v : Nat) => on && v / 2 ^ 20 != 0
  let oneDim := match p.form with | .gather | .scatter | .codebook _ => q.dims != 1 | _ => false
  let cbBytes := match p.form with | .codebook _ => q.esize != 1 | _ => false
  let ckBad := p.form == .check && (q.dims != 2 || q.count0 != 32 || q.count1 != 32 || decide (4 < q.esize) || !p.srcStep || p.dstStep || q.ckOff % 128 != 0)
  if oneDim || cbBytes || (reduce && p.dst % q.esize != 0) then p.bad 0
  else if ckBad then p.bad 7
  else if (reduce && p.dstStep) || high p.dstStep p.dst then p.bad 1 p.dst
  else if high p.srcStep p.src || (p.srcStep && !inRegion t sRows sLen) then p.bad 1 p.src
  else if high p.idxStep p.idx || (p.idxStep && !inRegion t [p.idx] (4 * q.count0)) then p.bad 1 p.idx
  else if p.form == .check && !inOneRegion t q.ckOff 128 then p.bad 1 q.ckOff
  else if (match p.form with | .codebook _ => entry.isNone | _ => false) then p.bad 3
  else if !p.dstStep then p
  else match p.form with
    | .scatter =>
      match regionAt t.hdr p.dst 1 with
      | none => p.bad 1 p.dst
      | some r => if breaksWords t [p.dst] es then p.bad 0 else { p with lines := stepLines r.base r.size }
    | _ =>
      if !inRegion t dRows dLen then p.bad 1 p.dst
      else if breaksWords t dRows dLen then p.bad 0
      else { p with lines := rowLines dRows dLen }

/-- A copy accepted by an engine: an entry, the next number, raised counts, and the groups whose swap it waits for (R84, R102, R112, R140,
R332, R424). -/
def acceptCopy (s : State) (c : Iss) (e tl slack : Nat) (p : CopyPlan) : State :=
  let sock := socketOf c.t.core
  let (s, n) := takeNumber s c.t.uid tl
  let (seq, s) := fresh s
  let groups := (p.lines.flatMap fun l => groupAt c.t (l * 128)).dedup
  let op : CopyOp :=
    { seq := seq, n := n, tl := tl, issuer := c.a.key, issue := c.n, grid := c.g.id, ctx := c.g.vf, pc := c.pc, form := p.form
      dstStep := p.dstStep, srcStep := p.srcStep, idxStep := p.idxStep, dst := p.dst, src := p.src, idx := p.idx, shape := p.shape
      slack := slack, boundary0 := c.t.boundaries, late := false, pos := 0, outstanding := 0, tMax := 0, lines := p.lines
      sums := List.replicate 32 0, wrote := [], poisoned := false, mismatched := false, fault := p.fault, addr := p.addr, paced := regFld s .pacestat 3 0
      held := groups.filter fun g => allArrived s (groupKey c.t g), know := .none }
  let s := updTeam s c.t.uid fun t => { t with copyCount := p.lines.foldl (fun m l => supd 0 m l (· + 1)) t.copyCount }
  let s := updEngine s sock e fun g => { g with queue := g.queue ++ [op] }
  refreshBusy (showEngine s sock e) c.t.core

/-- The result of a copy instruction under .nb: whether it was accepted (R332). -/
def Iss.nbMark (c : Iss) (nb : Bool) (d : Opnd) (s : State) (b : Bool) : State :=
  match d with
  | .p n => if nb then addVar s c.a.key c.n [.p n.toNat 0 b] none else s
  | _ => s

/-- Whether an engine has an entry free and every line of a plan a count free (R102, R332). -/
def Iss.copyRoom (c : Iss) (e : Nat) (p : CopyPlan) : Bool :=
  !(decide (64 ≤ queued c.s (socketOf c.t.core) e) || p.lines.any (fun l => decide (15 ≤ countOf c.t l)))

/-- The end of a copy instruction's issue (R102, R332): accepted, refused under .nb, or parked until an entry or a count is free. -/
def Iss.accept (c : Iss) (e tl slack : Nat) (nb : Bool) (d : Opnd) (p : CopyPlan) : Eff :=
  if c.copyRoom e p then .ok (c.nbMark nb d (acceptCopy c.s c e tl slack p) true)
  else if nb then .ok (c.nbMark nb d c.s false)
  else .stay (updAgent c.s0 c.a.key fun a => { a with hold := some .full })

/-- The engine that a copy instruction names (R101, R330). -/
def Iss.engine (c : Iss) (x : F3) : Nat := if fld x.imm 10 8 = 7 then anyEngine c.s (socketOf c.t.core) else fld x.imm 10 8

/-- A plan with nothing known of its shape. -/
def emptyPlan (form : CopyForm) (x : F3) (dst src idx : Nat) : CopyPlan :=
  { form := form, dstStep := bit x.imm 12, srcStep := bit x.imm 13, idxStep := bit x.imm 14, dst := dst, src := src, idx := idx
    shape := runShape 1 0, fault := none, lines := [] }

/-- What a copy instruction of a form asks for, read in its lowest active lane (R330 to R333); `list` tells whether C holds an index list,
`esize` the size without a shape record, `bytes` whether the length counts bytes. -/
def Iss.plan (c : Iss) (x : F3) (form : CopyForm) (list : Bool) (esize : Nat) (bytes : Bool) (l : Nat) : CopyPlan :=
  let creg := if list then nextOpnd 1 x.c else x.c
  let p := emptyPlan form x (val64 c.a x.a l) (val64 c.a x.b l) (if list then val64 c.a x.c l else 0)
  let shp := bit x.imm 11
  let ck := form == .check
  if ck && !shp then p.bad 7
  else match copyShape c.t shp ck (val64 c.a creg l) esize bytes with
    | none => p.bad 0
    | some q =>
      let wrong := match form with | .reduce _ => q.esize != esize | _ => false
      if wrong then p.bad 0
      else
        let entry := match form with
          | .codebook k => match slotAhead c.s (socketOf c.t.core) (c.engine x) k with
            | some (u, size) => if u = c.t.uid then some size else none
            | none => none
          | _ => none
        CopyPlan.check { p with shape := q } c.t entry

/-- A copy instruction with the plan of its lowest active lane (R330, R332). -/
def Iss.copyAs (c : Iss) (x : F3) (plan : Nat → CopyPlan) : Eff :=
  if !hasTimeline c.t x.bnd.toNat then c.illegal
  else match c.act with
    | [] => .ok c.s
    | l :: _ => c.accept (c.engine x) x.bnd.toNat (fld x.imm 7 0) (bit x.aux 0) x.d (plan l)

/-- The form of COPY, COPY.CB and COPY.CK (R106, R331). -/
def copyFormOf (x : F3) : CopyForm := if bit x.h.mod 0 then .codebook (fld x.imm 19 18) else if bit x.h.mod 1 then .check else .copy

/-- COPY, COPY.CB and COPY.CK (R106, R331, R332). -/
def execCopy (x : F3) (s : State) : Result :=
  issue (.copy x) x.h s fun c => c.copyAs x (c.plan x (copyFormOf x) false 1 false)

def execCopyg (x : F3) (s : State) : Result :=
  issue (.copyg x) x.h s fun c => c.copyAs x (c.plan x .gather true (2 ^ fld x.imm 17 15) false)

def execCopys (x : F3) (s : State) : Result :=
  issue (.copys x) x.h s fun c => c.copyAs x (c.plan x .scatter true (2 ^ fld x.imm 17 15) false)

def execCopyr (x : F3) (s : State) : Result :=
  issue (.copyr x) x.h s fun c =>
    c.copyAs x (c.plan x (.reduce (BitVec.ofNat 5 (fld x.h.mod 4 0))) false (if bit x.h.mod 5 then 8 else 4) true)

/-- What CBLOAD asks for, read in its lowest active lane (R108, R109, R331, R335). -/
def Iss.bookPlan (c : Iss) (x : F3) (l : Nat) : CopyPlan :=
  let v := val64 c.a x.c l
  let src := val64 c.a x.b l
  let count := v % 2 ^ 9
  let size := v / 2 ^ 16 % 2 ^ 6
  let slot := fld x.imm 19 18
  let p := { emptyPlan (.cbload slot count size) x 0 src 0 with dstStep := false, idxStep := false }
  let foreign := match slotAhead c.s (socketOf c.t.core) (fld x.imm 10 8) slot with | some (u, _) => u != c.t.uid | none => false
  let clean := v == count + size * 2 ^ 16
  if !clean || count = 0 || decide (256 < count) || size = 0 || decide (32 < size) then p.bad 0
  else if bit x.imm 13 && !decide (windowBase ≤ src ∧ src + count * size ≤ windowBase + c.t.hdr.ladleMem * 256) then p.bad 1 src
  else if foreign then p.bad 4
  else p

/-- CBLOAD (R108, R109, R331, R335). -/
def execCbload (x : F3) (s : State) : Result :=
  issue (.cbload x) x.h s fun c =>
    if !hasTimeline c.t x.bnd.toNat then c.illegal
    else match c.act with
      | [] => .ok c.s
      | l :: _ => c.accept (fld x.imm 10 8) x.bnd.toNat 0 false .zr (c.bookPlan x l)

/-- CBDROP (R108, R109, R335). -/
def execCbdrop (x : F3) (s : State) : Result :=
  issue (.cbdrop x) x.h s fun c =>
    if !hasTimeline c.t x.bnd.toNat then c.illegal
    else if c.act.isEmpty then .ok c.s
    else c.accept (fld x.imm 10 8) x.bnd.toNat 0 false .zr
      { emptyPlan (.cbdrop (fld x.imm 19 18)) x 0 0 0 with dstStep := false, srcStep := false, idxStep := false }

/-- The word of CQRY (R117): CESTAT with the slots that the team owns, and bit 39 zero. -/
def cqryWord (s : State) (c e team : Nat) : Word64 :=
  (List.range 4).foldl (fun w n => setBit w (24 + n) ((slotOf s c e n).any fun b => b.team == team)) (setBit (regGet s (.cestat c e)) 39 false)

/-- CQRY (R336). -/
def execCqry (x : F3) (s : State) : Result :=
  issue (.cqry x) x.h s fun c =>
    match c.act with
    | [] => .ok c.s
    | l :: _ => .ok (addVar c.s c.a.key c.n (regWrites 64 x.d l (cqryWord c.s (socketOf c.t.core) (c.engine x) c.t.uid).toNat) none)

end Sys2Proof.Machine
end

