-- ==== Sys2Proof/Machine/CopyEngine.lean ====
section
/-! DEFINITION. The copy engines at work: slack, chunks, codebooks, check words, faults and completion
(R67, R85, R88, R101 to R117, R140, R335, R424). -/

namespace Sys2Proof.Machine

/-- An entry of an engine's queue updated. -/
def updOp (s : State) (c e seq : Nat) (f : CopyOp → CopyOp) : State :=
  updEngine s c e fun g => { g with queue := updWhere (fun x => x.seq == seq) f g.queue }

/-- Step boundaries of a copy's team since its acceptance (R111). -/
def boundariesSince (s : State) (op : CopyOp) : Nat :=
  match teamOf s op.issuer.team with
  | some t => t.boundaries - op.boundary0
  | none => 0

/-- A copy's effective slack (R111). -/
def effectiveSlack (s : State) (op : CopyOp) : Int := max ((op.slack : Int) - (boundariesSince s op : Int)) (-32768)

/-- Whether an entry is a CBLOAD or CBDROP, and of which slot. -/
def controlSlot (op : CopyOp) : Option Nat :=
  match op.form with
  | .cbload k _ _ | .cbdrop k => some k
  | _ => none

/-- The slot that a COPY.CB names. -/
def bookSlot (op : CopyOp) : Option Nat :=
  match op.form with
  | .codebook k => some k
  | _ => none

/-- What an engine sees memory with when it serves a copy: it translates through the shards (R67). -/
def CopyOp.eye (op : CopyOp) (c : Nat) : Eye := ⟨c, none, op.ctx, op.know⟩

/-- Whether a copy's destination is known to be a scale-up window (R424; DEDUCED, log entry 40). -/
def windowCopy (s : State) (c : Nat) (op : CopyOp) : Bool :=
  !op.dstStep && (controlSlot op).isNone && match lookPage s (op.eye c) .copyWrite op.dst with
    | .ok x => isWindow (x.pa op.dst)
    | _ => false

/-- A late copy to a scale-up window counted for the lag word, once its destination is known (R424). DEDUCED, log entry 40. -/
def countLate (s : State) (c e : Nat) (op : CopyOp) : State :=
  if op.late && !op.counted && windowCopy s c op then
    { updOp s c e op.seq fun x => { x with counted := true } with lateCopies := s.lateCopies + 1 }
  else s

/-- A copy that has become late, counted once (R111, R116, R424). -/
def noteLate (s : State) (c e : Nat) (op : CopyOp) : State :=
  if op.late || (controlSlot op).isSome || decide (0 ≤ effectiveSlack s op) then s
  else
    let r := Reg.cestat c e
    countLate (regSet (updOp s c e op.seq fun x => { x with late := true }) r 63 48 (saturate 16 (regFld s r 63 48 + 1))) c e
      { op with late := true }

/-- The copies of a team looked at after a step boundary (R111). -/
def ageCopies (s : State) (team : Nat) : State :=
  s.engines.foldl (fun s g => (g.2.queue.filter fun op => op.issuer.team == team).foldl (fun s op => noteLate s (g.1 / 8) (g.1 % 8) op) s) s

/-! ### Places -/

/-- A byte's place at one end of a copy; a lost place has no path to its translation or its host. -/
inductive Loc where
  | step (off : Nat)
  | mem (pa : Nat) (attr : BitVec 2)
  | lost
  deriving DecidableEq, Repr

/-- What an engine can say of one byte of global memory with what it has read: a place that nothing backs or that refuses the access faults
its element (R9, R70, R115, R239, R412, R423). -/
def lookPlace (s : State) (c : Nat) (op : CopyOp) (acc : Access) (atomic : Bool) (va : Nat) : Look Loc :=
  match lookPage s (op.eye c) acc va with
  | .ok x => match systemStop s (x.pa va) atomic with
    | some (18, _) => .fault 2 va
    | some _ => .ok .lost
    | none => .ok (.mem (x.pa va) (attrAt x (x.pa va)))
  | .need ns => .need ns
  | .fault _ _ => .fault 2 va
  | .lost => .ok .lost

/-- The same of the places of `n` bytes at one end of a copy. -/
def lookPlaces (s : State) (c : Nat) (op : CopyOp) (acc : Access) (atomic step : Bool) (a n : Nat) : Look (List Loc) :=
  if step then .ok ((List.range n).map fun i => .step (a + i))
  else lookAll (fun i => lookPlace s c op acc atomic ((a + i) % 2 ^ 64)) (List.range n)

/-- One byte of a global source, with whether it is poison: its sector as the engine has read it (R87, R115). -/
def lookByte (s : State) (c : Nat) (op : CopyOp) (va : Nat) : Look (Byte × Bool) :=
  match lookPage s (op.eye c) .copyRead va with
  | .ok x => match systemStop s (x.pa va) false with
    | some (18, _) => .fault 2 va
    | some _ => .ok (0, true)
    | none => match lookSector s (op.eye c) x va with
      | .ok (v, bad) => if 100 ≤ bad then .fault 2 va else .ok (BitVec.ofNat 8 (v.toNat / 2 ^ (8 * (va % 16))), bad != 0)
      | .need ns => .need ns
      | .fault _ _ => .fault 2 va
      | .lost => .ok (0, true)
  | .need ns => .need ns
  | .fault _ _ => .fault 2 va
  | .lost => .ok (0, true)

/-- The bytes at the source end of a copy, or of an index list: the core's banks as they stand, or global sectors read once (R87).
DESIGN CHOICE, log entry 18. -/
def lookSource (s : State) (c : Nat) (op : CopyOp) (step : Bool) (a n : Nat) : Look (List (Byte × Bool)) :=
  if step then
    match teamOf s op.issuer.team with
    | some t => .ok ((List.range n).map fun i => (stepByte t (a + i), stepPoisoned t (a + i) 1))
    | none => .ok (List.replicate n (0, true))
  else lookAll (fun i => lookByte s c op ((a + i) % 2 ^ 64)) (List.range n)

/-! ### Elements -/

/-- Bytes that element `k` gives at the destination; a codebook's entry size is that of its slot. -/
def dstSize (s : State) (c e : Nat) (op : CopyOp) : Nat :=
  match op.form with
  | .codebook k => match slotOf s c e k with | some b => b.size | none => 1
  | _ => op.shape.esize

/-- Bytes that a copy writes in all. -/
def copyTotal (s : State) (c e : Nat) (op : CopyOp) : Nat :=
  match op.form with
  | .cbload _ _ _ | .cbdrop _ => 1
  | _ => shapeCount op.shape * dstSize s c e op

/-- Where element `k` lies by the shape (R104). -/
def shapePlace (base : Nat) (p : Shape) (s1 s2 : Int) (k : Nat) : Nat :=
  ofI 64 ((base : Int) + s2 * (k / (p.count0 * p.count1) : Nat) + s1 * (k / p.count0 % p.count1 : Nat) + (k % p.count0 * p.esize : Nat))

/-- An index of an index list (R106): none where it is poison. DEDUCED, log entry 39. -/
def lookIndex (s : State) (c : Nat) (op : CopyOp) (k : Nat) : Look (Option Nat) :=
  (lookSource s c op op.idxStep (op.idx + 4 * k) 4).andThen fun r => .ok (if r.any (·.2) then none else some (leNat (r.map (·.1))))

/-- The address of an indexed element, which must stay in the region or the page of its base (R106). -/
def lookIndexed (s : State) (c : Nat) (op : CopyOp) (acc : Access) (step : Bool) (base i : Nat) : Look Nat :=
  let a := base + i * op.shape.esize
  if step then
    match (teamOf s op.issuer.team).bind fun t => regionAt t.hdr base 1 with
    | some r => if a + op.shape.esize ≤ r.base + r.size then .ok a else .fault 1 a
    | none => .fault 1 a
  else match lookPage s (op.eye c) acc base with
    | .ok x => if a + op.shape.esize ≤ x.vaBase + x.size then .ok a else .fault 2 a
    | .need ns => .need ns
    | .fault _ _ => .fault 2 a
    | .lost => .ok a

/-- Source and destination addresses of an element; no source, or no destination, where its index is poison (R104 to R106). -/
def lookAddrs (s : State) (c e : Nat) (op : CopyOp) (k : Nat) : Look (Option Nat × Option Nat) :=
  let p := op.shape
  match op.form with
  | .gather => (lookIndex s c op k).andThen fun i => match i with
    | some i => (lookIndexed s c op .copyRead op.srcStep op.src i).andThen fun a => .ok (some a, some (op.dst + k * p.esize))
    | none => .ok (none, some (op.dst + k * p.esize))
  | .scatter => (lookIndex s c op k).andThen fun i => match i with
    | some i => (lookIndexed s c op .copyWrite op.dstStep op.dst i).andThen fun a => .ok (some (op.src + k * p.esize), some a)
    | none => .ok (some (op.src + k * p.esize), none)
  | .codebook _ => .ok (some ((op.src + k) % 2 ^ 64), some ((op.dst + k * dstSize s c e op) % 2 ^ 64))
  | _ => .ok (some (shapePlace op.src p p.src1 p.src2 k), some (shapePlace op.dst p p.dst1 p.dst2 k))

/-- An element ready to be written: its bytes with their poison, and their places; none where a poisoned index names no destination. -/
structure Element where
  bytes : List (Byte × Bool)
  places : List Loc

/-- The bytes that an element writes, from those of its source: the entry that a COPY.CB's byte names (R106, R108). -/
def elemBytes (s : State) (c e : Nat) (op : CopyOp) (bs : List (Byte × Bool)) : Look (List (Byte × Bool)) :=
  match bookSlot op with
  | none => .ok bs
  | some k => match bs, slotOf s c e k with
    | (i, false) :: _, some b =>
      if b.count ≤ i.toNat then .fault 3 0 else .ok (((b.bytes.drop (i.toNat * b.size)).take b.size).map fun x => (x, false))
    | (_, true) :: _, some b => .ok (List.replicate b.size (0, true))
    | _, _ => .fault 3 0

/-- One element placed and read (R103 to R108). -/
def element (s : State) (c e : Nat) (op : CopyOp) (k : Nat) : Look Element :=
  let reduce := match op.form with | .reduce _ => true | _ => false
  let n := dstSize s c e op
  (lookAddrs s c e op k).andThen fun (src, dst) =>
    (match dst with | some a => lookPlaces s c op .copyWrite reduce op.dstStep a n | none => .ok []).andThen fun places =>
      match src with
      | none => .ok ⟨List.replicate n (0, true), places⟩
      | some a => (lookSource s c op op.srcStep a (if (bookSlot op).isSome then 1 else n)).andThen fun bs =>
        (elemBytes s c e op bs).andThen fun bs => .ok ⟨bs, places⟩

/-! ### Chunks -/

/-- The destination line of a place: a step line, or a global line above all step lines. -/
def lineOfLoc : Loc → Option Nat
  | .step off => some (off / 128)
  | .mem pa _ => some (2 ^ 20 + pa / 128)
  | .lost => none

/-- A chunk as it is gathered: bytes with poison and place, how far it has come, and why it ended, with the address at fault. -/
structure Chunk where
  out : List (Byte × Bool × Loc)
  pos : Nat
  fault : Option (Nat × Nat)

/-- A copy's next bytes taken element by element while they stay in one destination line and within 128 bytes (R110), or what it lacks for
them. DESIGN CHOICE, log entry 18. -/
def gatherChunk (s : State) (c e : Nat) (op : CopyOp) (total : Nat) : Nat → Chunk → Look Chunk
  | 0, k => .ok k
  | fuel + 1, k =>
    if total ≤ k.pos ∨ 128 ≤ k.out.length then .ok k
    else
      let n := dstSize s c e op
      match element s c e op (k.pos / n) with
      | .fault m a => .ok { k with fault := some (m, a) }
      | .need ns => .need ns
      | .lost => .ok k
      | .ok el =>
        let j := k.pos % n
        let line := match k.out with
          | (_, _, l) :: _ => lineOfLoc l
          | [] => (el.places[j]?).bind lineOfLoc
        let rest := (el.bytes.zip (if el.places.isEmpty then List.replicate n .lost else el.places)).drop j
        let take := (rest.takeWhile fun b => lineOfLoc b.2 == line).take (128 - k.out.length)
        if take.isEmpty then .ok k
        else
          let k := { k with out := k.out ++ take.map fun b => (b.1.1, b.1.2, b.2), pos := k.pos + take.length }
          if take.length < rest.length then .ok k else gatherChunk s c e op total fuel k

/-- The next chunk of a copy, or what it lacks. DESIGN CHOICE, log entry 18. -/
def nextChunk (s : State) (c e : Nat) (op : CopyOp) : Look Chunk := gatherChunk s c e op (copyTotal s c e op) 129 ⟨[], op.pos, none⟩

/-- The 16-byte sector of a place. -/
def sectorOfLoc : Loc → Option Nat
  | .step off => some (off / 16)
  | .mem pa _ => some (2 ^ 23 + pa / 16)
  | .lost => none

/-- Where a chunk may end before all that could go into it: where the sector of its destination changes (R88, R110). A write to the queue
aperture leaves whole (R358). DESIGN CHOICE, log entry 18. -/
def Chunk.cuts (k : Chunk) : List Nat :=
  let mapped := k.out.any fun b => match b.2.2 with | .mem pa _ => isAperture pa | _ => false
  if mapped then []
  else (((k.out.zip (k.out.drop 1)).zipIdx.filter fun e => sectorOfLoc e.1.1.2.2 != sectorOfLoc e.1.2.2.2)).map fun e => e.2 + 1

/-- A copy's next chunk, as much as it takes of what could go into it (R88, R110). DESIGN CHOICE, log entry 2. -/
def cutChunk (s : State) (op : CopyOp) (k : Chunk) : Chunk × State :=
  if k.cuts.isEmpty then (k, s)
  else
    let (i, s) := pick s (k.cuts.length + 1)
    match k.cuts[i]? with
    | some n => (⟨k.out.take n, op.pos + n, none⟩, s)
    | none => (k, s)

/-- What the elements of a copy's next 128 bytes lack (R87). DESIGN CHOICE, log entry 18. -/
def chunkNeeds (s : State) (c e : Nat) (op : CopyOp) : List Need :=
  let n := max 1 (dstSize s c e op)
  let first := op.pos / n
  match lookAll (element s c e op) ((List.range (min (128 / n + 1) (shapeCount op.shape - first))).map (first + ·)) with
  | .need ns => ns
  | _ => []

/-- Bytes of a step destination in pieces of one 32-bit word, as they come: a word that comes in several pieces is no whole word written, so that
a tag is set by one piece alone (R103). DEDUCED, log entry 40. -/
def stepPieces (bs : List (Byte × Bool × Nat)) : List (Nat × List Byte × Bool) :=
  (bs.foldl (fun (acc : List (Nat × List Byte × Bool)) b =>
    match acc with
    | (off, ds, bad) :: r =>
      if off + ds.length = b.2.2 ∧ off / 4 = b.2.2 / 4 then (off, ds ++ [b.1], bad || b.2.1) :: r else (b.2.2, [b.1], b.2.1) :: acc
    | [] => [(b.2.2, [b.1], b.2.1)]) []).reverse

/-- The check word of a packet's data: the sum of its 32-bit words, a short last one zero-extended (R113). -/
def checkWord : Nat → List Byte → BitVec 32
  | 0, _ => 0
  | fuel + 1, bs => if bs.isEmpty then 0 else BitVec.ofNat 32 (leNat (bs.take 4)) + checkWord fuel (bs.drop 4)

/-- The translations that a copy's write to an address has used (R69). -/
def CopyOp.viaAt (op : CopyOp) (pa : Nat) : List Via :=
  op.know.pages.filterMap fun p => match p.2.1, p.2.2 with
    | .copyWrite, .ok x gen => if x.paBase ≤ pa ∧ pa < x.paBase + x.size then some ⟨op.ctx, x.vaBase, x.size, gen⟩ else none
    | _, _ => none

/-- A copy's packet sent to the home of an address, counted as outstanding, its path noted for the ladle's fences (R78, R85, R229): a fence does not
wait for what the engine has still to send. DEDUCED, log entry 41. -/
def sendCopyPacket (s : State) (c e : Nat) (op : CopyOp) (pa : Nat) (attr : BitVec 2) (m : Msg) : State :=
  (destOf s pa).elim s fun dst =>
    let s := updOp s c e op.seq fun x => { x with outstanding := x.outstanding + 1 }
    send (notePath s op.issuer op.issue ⟨dst, planeOf pa⟩)
      { src := c, dst := dst, relayed := false, planeB := planeOf pa, who := .engine c e op.seq, attr := attr, pa := pa, sseq := 0, msg := m
        via := op.viaAt pa }

/-- A copy's write packet (R113). -/
def sendCopyWrite (s : State) (c e : Nat) (op : CopyOp) (cells : List Host.Cell) (attr : BitVec 2) (bad : Bool) : State :=
  match cells with
  | [] => s
  | (pa, _) :: _ => sendCopyPacket s c e op pa attr (.wr cells (cells.length == 128) (some (checkWord 64 (cells.map (·.2)))) bad)

/-- A COPYR element sent to its home; a poisoned one is not (R107). -/
def sendReduce (s : State) (c e : Nat) (op : CopyOp) (code : BitVec 5) (el : List (Byte × Bool × Loc)) : State :=
  match el with
  | (_, _, .mem pa attr) :: _ =>
    if el.any fun b => b.2.1 then s
    else sendCopyPacket s c e op pa attr
      (.at code (op.shape.esize == 8) [⟨0, pa, op.shape.esize, BitVec.ofNat 128 (leNat (el.map (·.1))), 0⟩] false)
  | _ => s

/-- Elements of a COPYR chunk, one after the other. -/
def byElement (n : Nat) : Nat → List (Byte × Bool × Loc) → List (List (Byte × Bool × Loc))
  | 0, _ => []
  | fuel + 1, bs => if bs.isEmpty then [] else bs.take n :: byElement n fuel (bs.drop n)

/-- The sectors that some bytes leave poisoned, written in order: after its last poisoned byte, clean bytes have not covered the sector
(R105, R106, R115). -/
def poisonedSectors (cells : List (Nat × Byte × Bool × BitVec 2)) : List Nat :=
  ((cells.filter fun x => x.2.2.1).map fun x => x.1 / 16).dedup.filter fun k =>
    let later := (cells.reverse.takeWhile fun x => !(x.1 / 16 == k && x.2.2.1)).filter fun x => x.1 / 16 == k
    decide ((later.map (·.1)).dedup.length < 16)

/-- The bytes of a chunk written (R88, R103, R105 to R107, R113, R115). DESIGN CHOICE, log entry 18. -/
def writeChunk (s : State) (c e : Nat) (op : CopyOp) (out : List (Byte × Bool × Loc)) : State :=
  match op.form with
  | .reduce code => (byElement op.shape.esize 129 out).foldl (fun s el => sendReduce s c e op code el) s
  | _ =>
    if op.dstStep then
      let bs := out.filterMap fun b => match b.2.2 with | .step off => some (b.1, b.2.1, off) | _ => none
      let lines := (bs.map fun b => b.2.2 / 128).dedup
      let s := updOp s c e op.seq fun x => { x with wrote := x.wrote ++ lines.filter fun l => !x.wrote.contains l }
      (stepPieces bs).foldl (fun s p => landIn s op.issuer.team p.1 p.2.1 p.2.2) s
    else
      let cells := out.filterMap fun b => match b.2.2 with | .mem pa attr => some (pa, b.1, b.2.1, attr) | _ => none
      match cells with
      | [] => s
      | (_, _, _, attr) :: _ =>
        let badSectors := poisonedSectors cells
        let pick := fun (bad : Bool) => (cells.filter fun x => badSectors.contains (x.1 / 16) == bad).foldl
          (fun m x => sinsert m x.1 x.2.1) ([] : List Host.Cell)
        sendCopyWrite (sendCopyWrite s c e op (pick false) attr false) c e op (pick true) attr true

/-! ### Presence -/

/-- Exchange stores held at a bank are applied once their lines are present (R135). -/
def landHeld (t : Team) : Team :=
  t.heldStx.foldl (fun t h =>
    if (absentLines t h.off (4 * h.words.length)).isEmpty then
      match regionAt t.hdr h.off (4 * h.words.length) with
      | some r => putNextWords { t with heldStx := t.heldStx.erase h } r h.off h.rank h.words
      | none => { t with heldStx := t.heldStx.erase h }
    else t) t

/-- The counts of some lines lowered, and what waited for them served (R112, R135, R332). -/
def releaseLines (s : State) (team : Nat) (lines : List Nat) : State :=
  match teamOf s team with
  | none => s
  | some t =>
    if lines.isEmpty then s
    else serveLines (releaseFull (updTeam s team fun t => landHeld (lines.foldl dropCount t)) t.core) team lines

/-- The lines that the elements of a COPYS from one on name, none where some index has not been read for good: the banks may change before an index
in step memory is read (R106, R112). DEDUCED, log entry 40. -/
def scatterAhead (s : State) (c : Nat) (op : CopyOp) (k : Nat) : Option (List Nat) :=
  if op.idxStep then none
  else match lookAll (lookIndex s c op) ((List.range (op.shape.count0 - k)).map (k + ·)) with
    | .ok is => some (is.flatMap fun i => match i with | some i => stepLines (op.dst + i * op.shape.esize) op.shape.esize | none => []).dedup
    | _ => none

/-- The lines of the rest of the element that a COPYS has stopped in. -/
def restOfElement (s : State) (c : Nat) (op : CopyOp) (n pos : Nat) : List Nat :=
  if pos % n = 0 then []
  else match lookIndex s c op (pos / n) with
    | .ok (some i) => stepLines (op.dst + i * n + pos % n) (n - pos % n)
    | .ok none => []
    | _ => op.lines

/-- The lines that a copy may still write from a byte position on. DEDUCED, log entry 40. -/
def linesAhead (s : State) (c : Nat) (op : CopyOp) (n pos : Nat) : List Nat :=
  match op.form with
  | .scatter => (scatterAhead s c op ((pos + n - 1) / n)).getD op.lines ++ restOfElement s c op n pos
  | .gather | .codebook _ => stepLines (op.dst + pos) (op.shape.count0 * n - pos)
  | _ =>
    let row := op.shape.count0 * op.shape.esize
    let rows := (shapeRows op.dst op.shape op.shape.dst1 op.shape.dst2).drop (pos / row)
    match rows with
    | [] => []
    | a :: r => stepLines (a.toNat + pos % row) (row - pos % row) ++ rowLines r row

/-- Lines written whose last byte has landed (R112). DEDUCED, log entry 40. -/
def doneLines (s : State) (c : Nat) (op : CopyOp) (n pos total : Nat) : List Nat :=
  let ahead := if total ≤ pos then [] else linesAhead s c op n pos
  op.lines.filter fun l => op.wrote.contains l && !ahead.contains l

/-! ### Service -/

/-- Entries queued before one on its engine. -/
def queuedBefore (s : State) (c e : Nat) (op : CopyOp) : List CopyOp := (engineOf s c e).queue.takeWhile fun x => x.seq != op.seq

/-- Whether a CBLOAD or CBDROP may be served: every COPY.CB of its slot queued before it has completed (R109). -/
def controlReady (s : State) (c e : Nat) (op : CopyOp) : Bool :=
  op.fault.isNone && !op.know.parked && op.pos == 0
    && match controlSlot op with
      | some k => !(queuedBefore s c e op).any fun x => bookSlot x == some k || controlSlot x == some k
      | none => false

/-- The CBLOAD or CBDROP that the engine serves next, ahead of all copies (R110, R335). -/
def nextControl (s : State) (c e : Nat) : Option CopyOp := (engineOf s c e).queue.find? fun op => controlReady s c e op

/-- Whether a copy's next packet finds credit in its outbound queue, that of its next destination, or of the first sector that it has still to ask for
(R38, R110): nothing waits there and the replay window has room for it. DESIGN CHOICE, log entry 18. -/
def hasCredit (s : State) (c e : Nat) (op : CopyOp) : Bool :=
  let free := fun (pa : Nat) (p : Msg) => match (destOf s pa).bind fun d => if d = c then none else firstHop s c d (planeOf pa) with
    | some h =>
      let l := linkOf s h
      l.queued.isEmpty && windowOpen l
        { src := c, dst := h.dst, relayed := false, planeB := planeOf pa, who := .engine c e op.seq, attr := 0, pa := pa, sseq := 0, msg := p }
    | none => true
  match nextChunk s c e op with
  | .ok k => match k.out with
    | (_, _, .mem pa _) :: _ => free pa (.wr ((List.range 128).map fun i => (pa / 128 * 128 + i, 0)) true none false)
    | _ => true
  | .need ns => match (op.know.fresh ns).filterMap fun n => match n with | .sector k _ _ => some (k * 16) | _ => none with
    | pa :: _ => free pa (.rd [⟨0, pa, 16, 0, 0⟩] false)
    | [] => true
  | _ => true

/-- Whether a copy can proceed (R67, R109, R110, R140, R424). -/
def copyReady (s : State) (c e : Nat) (op : CopyOp) : Bool :=
  op.fault.isNone && !op.know.parked && op.held.isEmpty && (controlSlot op).isNone && decide (op.pos < copyTotal s c e op)
    && (match bookSlot op with
      | some k => !(queuedBefore s c e op).any fun x => controlSlot x == some k
      | none => true)
    && !(op.pos == 0 && decide (boundariesSince s op < op.paced) && windowCopy s c op) && hasCredit s c e op

/-- The copy that the engine serves next: least effective slack, then age (R110). -/
def nextCopy (s : State) (c e : Nat) : Option CopyOp :=
  ((engineOf s c e).queue.filter fun op => copyReady s c e op).foldl (fun o op =>
    match o with
    | none => some op
    | some b => if effectiveSlack s op < effectiveSlack s b then some op else o) none

/-- Column sums of a checked tile after some of its bytes (R114). -/
def addSums (op : CopyOp) (pos : Nat) (out : List (Byte × Bool × Loc)) : List (BitVec 32) :=
  let es := op.shape.esize
  out.zipIdx.foldl (fun m b =>
    let p := pos + b.2
    let col := p / es % 32
    m.set col ((m[col]?).getD 0 + BitVec.ofNat 32 (b.1.1.toNat * 2 ^ (8 * (p % es))))) op.sums

/-- Whether a tile's sums agree with its check vector (R114). -/
def sumsAgree (t : Team) (ckOff : Nat) (sums : List (BitVec 32)) : Bool :=
  sums.zipIdx.all fun x => BitVec.ofNat 32 (stepRead t (ckOff + 4 * x.2) 4) == x.1

/-- An engine asks for what a copy lacks, and waits for it (R67, R87). -/
def askCopy (s : State) (c e : Nat) (op : CopyOp) (ns : List Need) : State :=
  updOp (sendNeeds s c op.ctx (.engine c e op.seq) op.know ns) c e op.seq fun x => { x with know := x.know.ask ns }

/-- Whether a COPY.CB still finds its slot tagged by its team (R109). -/
def ownsBook (s : State) (c e : Nat) (op : CopyOp) : Bool :=
  match bookSlot op with
  | some k => (slotOf s c e k).any fun b => b.team == op.issuer.team
  | none => true

/-- A chunk of a copy written (R105, R112 to R115): all its sectors, whatever the comparison of R114 will find. DESIGN CHOICE, log entry 18. -/
def landChunk (s : State) (c e : Nat) (op : CopyOp) (k : Chunk) : State :=
  let total := copyTotal s c e op
  let n := dstSize s c e op
  let s := writeChunk s c e op k.out
  let sums := if op.form = .check then addSums op op.pos k.out else op.sums
  let agree := match teamOf s op.issuer.team with | some t => sumsAgree t op.shape.ckOff sums | none => true
  let s := updOp s c e op.seq fun x =>
    { x with pos := k.pos, sums := sums, poisoned := x.poisoned || k.out.any fun b => b.2.1 || b.2.2 == .lost
             mismatched := x.mismatched || (op.form == .check && decide (total ≤ k.pos) && !agree)
             fault := k.fault.map (·.1), addr := (k.fault.map (·.2)).getD x.addr }
  match (engineOf s c e).queue.find? fun x => x.seq == op.seq with
  | none => s
  | some x =>
    let done := doneLines s c x n k.pos total
    releaseLines (updOp s c e op.seq fun x => { x with lines := x.lines.filter fun l => !done.contains l }) op.issuer.team done

/-- A copy served: it asks for what its next chunk lacks, or that chunk is written (R110). DESIGN CHOICE, log entry 18. -/
def serveChunk (s : State) (c e : Nat) (op : CopyOp) : State :=
  if !ownsBook s c e op then updOp s c e op.seq fun x => { x with fault := some 3 }
  else match nextChunk s c e op with
    | .need ns => askCopy s c e op (chunkNeeds s c e op ++ ns)
    | .ok k => let (k, s) := cutChunk s op k; landChunk s c e op k
    | _ => s

/-- COPY_CHUNK (R110): no CBLOAD or CBDROP can be served, and some copy can proceed and waits for no answer. -/
def execCopyChunk (c e : Nat) (s : State) : Result :=
  if (nextControl s c e).isSome then .refused (.notDue "COPY_CHUNK")
  else match nextCopy s c e with
    | some op => if op.know.asking then .refused (.notDue "COPY_CHUNK") else .next (serveChunk s c e op)
    | none => .refused (.notDue "COPY_CHUNK")

/-- A slot of an engine given its codebook, or emptied, and shown in CESTAT (R108, R116). -/
def putBook (s : State) (c e k : Nat) (b : Option Codebook) : State :=
  showEngine (updEngine s c e fun g => { g with slots := sset none g.slots k b }) c e

/-- A CBLOAD served (R108, R109, R335): the slot holds the codebook, or after a fault none; what the engine has not read is asked for first. -/
def loadBook (s : State) (c e : Nat) (op : CopyOp) (k count size : Nat) : State :=
  let done := fun (b : Option Codebook) (f : Option Nat) (a : Nat) =>
    updOp (putBook s c e k b) c e op.seq fun x => { x with pos := 1, fault := f, addr := a }
  match lookSource s c op op.srcStep op.src (count * size) with
  | .need ns => askCopy s c e op ns
  | .fault n a => done none (some n) a
  | .lost => done none (some 6) 0
  | .ok bs => if bs.any (·.2) then done none (some 6) 0 else done (some ⟨op.issuer.team, count, size, bs.map (·.1)⟩) none 0

/-- CBLOAD_SERVE (R108, R109, R335). -/
def execCbloadServe (c e : Nat) (s : State) : Result :=
  match nextControl s c e with
  | some op => match op.form with
    | .cbload k count size => if op.know.asking then .refused (.notDue "CBLOAD_SERVE") else .next (loadBook s c e op k count size)
    | _ => .refused (.notDue "CBLOAD_SERVE")
  | none => .refused (.notDue "CBLOAD_SERVE")

/-- A CBDROP served (R108, R333): a slot that the team does not own stays. -/
def dropBook (s : State) (c e : Nat) (op : CopyOp) (k : Nat) : State :=
  let own := (slotOf s c e k).any fun b => b.team == op.issuer.team
  let s := if own then showEngine (updEngine s c e fun g => { g with slots := serase g.slots k }) c e else s
  updOp s c e op.seq fun x => { x with pos := 1 }

/-- CBDROP_SERVE (R108, R333). -/
def execCbdropServe (c e : Nat) (s : State) : Result :=
  match nextControl s c e with
  | some op => match op.form with
    | .cbdrop k => .next (dropBook s c e op k)
    | _ => .refused (.notDue "CBDROP_SERVE")
  | none => .refused (.notDue "CBDROP_SERVE")

/-- The fault that a copy ends with (R115): the one that ended it, else the one it went on with; a check mismatch goes before poison
(DEDUCED, log entry 29). -/
def CopyOp.verdict (op : CopyOp) : Option Nat :=
  match op.fault with
  | some n => some n
  | none => if op.mismatched then some 5 else if op.poisoned then some 6 else none

/-- Whether the step lines that a copy has written are present, its own counts on lines that it may not have finished apart (R85, R112). -/
def linesLanded (s : State) (op : CopyOp) : Bool :=
  match teamOf s op.issuer.team with
  | some t => op.wrote.all fun l => decide (countOf t l ≤ (op.lines.contains l).toNat)
  | none => true

/-- Whether a copy's work is over (R85, R115): nothing is outstanding, its completion times have passed, and it has ended with a fault, or written all
with its lines present. -/
def copyOver (s : State) (c e : Nat) (op : CopyOp) : Bool :=
  op.outstanding == 0 && (op.tMax == 0 || decide (op.tMax < timeAt s c))
    && (op.fault.isSome || (decide (copyTotal s c e op ≤ op.pos) && linesLanded s op))

/-- The end of a copy (R84, R85, R102, R112, R114, R115, R391): the record of a fault, the timeline, the remaining counts, the entry. -/
def endCopy (s : State) (c e : Nat) (op : CopyOp) : State :=
  let team := op.issuer.team
  let r := Reg.cestat c e
  let s := match op.verdict, teamOf s team with
    | some sub, some t =>
      let s := timelineRecord s t 2 e op.pc op.tl op.n sub op.addr
      let s := regSet s r 47 40 (saturate 8 (regFld s r 47 40 + 1))
      if sub = 5 then deferEvent s op.issuer op.issue 0 (mkEvent 21 0 0 op.pc) else s
    | _, _ => s
  let s := completeOp s team op.tl op.n op.verdict.isSome
  let s := updEngine s c e fun g => { g with queue := g.queue.filter fun x => x.seq != op.seq }
  let s := releaseLines s team op.lines
  let s := (List.range 32).foldl (fun s i => releaseFull s (32 * c + i)) (showEngine s c e)
  match teamOf s team with | some t => refreshBusy s t.core | none => s

/-- COPY_COMPLETE (R84, R85, R102, R112, R114, R115, R391). -/
def execCopyComplete (c e n : Nat) (s : State) : Result :=
  match (engineOf s c e).queue.find? fun op => op.seq == n with
  | some op => if copyOver s c e op then .next (endCopy s c e op) else .refused (.notDue "COPY_COMPLETE")
  | none => .refused (.notDue "COPY_COMPLETE")

/-- A write to CESTAT_c_e (R116): a 1 to clear zeroes late and faults. -/
def writeCestat (s : State) (c e : Nat) (v : Word64) : State :=
  let r := Reg.cestat c e
  if regExists r && bit v 39 then regSet (regSet s r 63 48 0) r 47 40 0 else s

/-- CESTAT_CLEAR (R116): a write with clear set. -/
def execCestatClear (c e : Nat) (v : Word64) (s : State) : Result := .next (writeCestat s c e (setBit v 39 true))

end Sys2Proof.Machine
end

