-- ==== Sys2Proof/Machine/Events.lean ====
section
/-! DEFINITION. Steps of agents and step groups that follow no instruction: markers, fences, wakes, expiries, the completion of a step and of
a reduction, the whisk tree (R50, R92, R126, R132, R138, R163, R227, R320, R322, R323, R327, R353). -/

namespace Sys2Proof.Machine

/-- A step that happens when some state results, and is not due otherwise. -/
def whenDue (mnemonic : String) (o : Option State) : Result :=
  match o with
  | some s => .next s
  | none => .refused (.notDue mnemonic)

/-- SWITCH_MARKER_PASS (R353, R387): in the cycle after the issue or later. -/
def execSwitchMarkerPass (a : AgentKey) (s : State) : Result :=
  whenDue "SWITCH_MARKER_PASS" (match agentOf s a with
    | some b => if b.lastIssue ≤ cycleOf s (coreOfAgent s a) then passMarker s a else none
    | none => none)

/-- FENCE_COMPLETE (R78, R324, R326): what a fence, a WAITTL or a TLADV of the agent can do next. -/
def execFenceComplete (a : AgentKey) (s : State) : Result := whenDue "FENCE_COMPLETE" (waitProgress s a)

/-- SLEEP_EXPIRY (R327). -/
def execSleepExpiry (a : AgentKey) (s : State) : Result :=
  whenDue "SLEEP_EXPIRY" (match agentOf s a with
    | some b => match b.hold with
      | some (.sleep till) => if till ≤ coreTime s (coreOfAgent s a) then some (updAgent s a fun b => { b with hold := none }) else none
      | _ => none
    | none => none)

/-- LEASE_EXPIRY (R74): an L1 line whose lease has run out is dropped. -/
def execLeaseExpiry (core line : Nat) (s : State) : Result :=
  let past := fun (l : L1Line) => l.line == line && decide (l.expiry ≤ coreTime s core)
  if (coreOf s core).l1.any past then .next (updCore s core fun c => { c with l1 := c.l1.filter fun l => !past l })
  else .refused (.notDue "LEASE_EXPIRY")

/-- ADDRESS_TABLE_EXPIRY (R163). -/
def execAddressTableExpiry (a : AgentKey) (s : State) : Result :=
  let now := coreTime s (coreOfAgent s a)
  let past := fun (e : AddrEntry) => decide (e.expiry ≤ now)
  match agentOf s a with
  | some b =>
    if b.addrTable.any past then .next (updAgent s a fun b => { b with addrTable := b.addrTable.filter fun e => !past e })
    else .refused (.notDue "ADDRESS_TABLE_EXPIRY")
  | none => .refused (.notDue "ADDRESS_TABLE_EXPIRY")

/-- ABSENT_LINE_WAKE (R138): lanes whose lines are all present are ready again, at the instruction that was held. DEDUCED, log entry 23. -/
def execAbsentLineWake (a : AgentKey) (s : State) : Result :=
  match agentOf s a, teamOf s a.team with
  | some b, some t =>
    match b.absent.find? fun w => w.lines.all (lineReady t) with
    | some w => .next (updAgent s a fun b =>
        { b with
          absent := b.absent.erase w
          lanes := (laneIds a).foldl (fun m l => if bit w.lanes l && sget .ready m l == .absent then sset .ready m l .ready else m) b.lanes })
    | none => .refused (.notDue "ABSENT_LINE_WAKE")
  | _, _ => .refused (.notDue "ABSENT_LINE_WAKE")

/-! ### Completing a step -/

/-- Counts that copies held for a group's swap have raised on a line (R140). -/
def heldCounts (s : State) (t : Team) (g line : Nat) : Nat :=
  (s.engines.map fun e => (e.2.queue.filter fun op => op.issuer.team == t.uid && op.held.contains g && op.lines.contains line).length).sum

/-- Whether the lines of a group's STEP regions in a team are present, copies that wait for the swap apart, and their refills done (R126,
R132, R140). -/
def regionsReady (s : State) (t : Team) (g : Nat) : Bool :=
  (groupRegions t.hdr g).all fun r =>
    !t.refilling.contains r.idx && (stepLines r.base r.size).all fun l => decide (countOf t l ≤ heldCounts s t g l)

/-- Exchange stores still held in a group's regions are applied, since no earlier copy keeps their lines absent (R135). -/
def landGroup (t : Team) (g : Nat) : Team :=
  t.heldStx.foldl (fun t h =>
    match regionAt t.hdr h.off (4 * h.words.length) with
    | some r =>
      if r.kind == .step && r.group == g then putNextWords { t with heldStx := t.heldStx.erase h } r h.off h.rank h.words else t
    | none => t) t

/-- The collision that a group's STEP finds: the team on the lowest-numbered core that holds one, and its lowest word (R132). -/
def groupTrap (s : State) (g : GroupKey) : Option StepTrap :=
  let ts := (groupTeams s g).filter fun t => (teamTrap t g.group).isSome
  match (ts.map (·.core)).min? with
  | none => none
  | some m => (ts.find? fun t => t.core == m).bind fun t => teamTrap t g.group

/-- The PC of the STEP of an agent's lowest lane that stands at one (R322). -/
def stepPc (a : Agent) : Nat :=
  match (laneIds a.key).find? fun l => match laneState a l with | .atStep _ => true | _ => false with
  | some l => lpcOf a l
  | none => a.entry

/-- The collision event of a member (R132, R389, R391). -/
def trapEvent (x : StepTrap) (g pc : Nat) : Event :=
  { mkEvent 22 (if x.capacity then 1 else 0) (if x.capacity then 0 else BitVec.ofNat 32 (x.hi * 65536 + x.lo)) pc with
    info2 := BitVec.ofNat 32 (x.off + g * 2 ^ 20) }

/-- A member released behind its STEP, each lane to its own successor (R132, R322). -/
def releaseMember (g : Nat) (a : Agent) : Agent :=
  let ls := (laneIds a.key).filter fun l => laneState a l == .atStep g
  { a with
    lpc := ls.foldl (fun m l => sset a.entry m l (succPc (lpcOf a l))) a.lpc
    lanes := ls.foldl (fun m l => sset .ready m l .ready) a.lanes
    stepArrived := false, stepSent := none, stepFences := 0 }

/-- Whether the step of a group completes now (R126, R128, R132, R395); a group of a shed class makes no step boundary. -/
def stepDue (s : State) (g : GroupKey) : Bool :=
  let shed := match gridOf s g.grid with | some x => classShed s x.cls | none => false
  !shed && allArrived s g && whiskDone s g 0 true && (groupTeams s g).all fun t => regionsReady s t g.group

/-- The teams of a group all changed. -/
def eachTeam (s : State) (g : GroupKey) (f : Team → Team) : State :=
  let uids := (groupTeams s g).map (·.uid)
  { s with teams := updWhere (fun t => uids.contains t.uid) f s.teams }

/-- A completing step with its held exchange stores landed and its messages of the tree gone (R50, R135). -/
def landStep (s : State) (g : GroupKey) : State :=
  { eachTeam s g (fun t => landGroup t g.group) with whisk := s.whisk.filter fun w => !(w.group == g && w.isStep) }

/-- A step that finds a collision (R132): no swap, and every live member of the group gets the event. -/
def trapStep (s : State) (g : GroupKey) (x : StepTrap) : State :=
  let members := (groupMembers s g).map (·.key)
  members.foldl (fun s k => match agentOf s k with
    | some a => if a.ended then s else raise s k (trapEvent x g.group (stepPc a))
    | none => s) (eachTeam s g fun t => (groupRegions t.hdr g.group).foldl trapRegion t)

/-- A step's swap (R128, R132, R140, R322): next planes become current, boundaries count, lanes are released, held copies go on and age. -/
def swapStep (s : State) (g : GroupKey) : State :=
  let uids := (groupTeams s g).map (·.uid)
  let members := (groupMembers s g).map (·.key)
  let aged := uids.filter fun u => members.any fun k => k.team == u
  let s := eachTeam s g fun t =>
    { (groupRegions t.hdr g.group).foldl swapRegion t with boundaries := t.boundaries + if aged.contains t.uid then 1 else 0 }
  let s := { s with agents := updWhere (fun a => members.contains a.key) (releaseMember g.group) s.agents }
  let s := { s with engines := s.engines.map fun e =>
    (e.1, { e.2 with queue := updWhere (fun op => uids.contains op.issuer.team) (fun op => { op with held := op.held.filter (· != g.group) }) e.2.queue }) }
  uids.foldl ageCopies s

/-- STEP_COMPLETE (R128, R132, R140, R144, R322, R395). -/
def execStepComplete (g : GroupKey) (s : State) : Result :=
  if !stepDue s g then .refused (.notDue "STEP_COMPLETE")
  else
    let s := landStep s g
    .next (match groupTrap s g with
      | some x => trapStep s g x
      | none => swapStep s g)

/-- NEXT_PLANE_REFILL_DONE (R126). DESIGN CHOICE, log entry 21. -/
def execNextPlaneRefillDone (team region : Nat) (s : State) : Result :=
  match teamOf s team with
  | some t =>
    if t.refilling.contains region then .next (updTeam s team fun t => { t with refilling := t.refilling.filter (· != region) })
    else .refused (.notDue "NEXT_PLANE_REFILL_DONE")
  | none => .refused (.notDue "NEXT_PLANE_REFILL_DONE")

/-- The result of a reduction given to its live members (R323): the combined value, or the mismatch event. -/
def giveResult (s : State) (g : GroupKey) (k : Nat) (r : Reduction) : State :=
  let s := { s with reductions := s.reductions.erase r, whisk := s.whisk.filter fun w => !(w.group == g && w.k == k && !w.isStep) }
  r.members.foldl (fun s m =>
    if !m.live then s
    else if r.mixed then deferEvent s m.agent m.issue 0 (mkEvent 25 0 0 m.pc)
    else addVar s m.agent m.issue (regWrites 64 m.dest 0 r.value.toNat) none) s

/-- REDT_RESULT (R323). -/
def execRedtResult (g : GroupKey) (k : Nat) (s : State) : Result :=
  match s.reductions.find? fun r => r.group == g && r.k == k with
  | some r => if redtComplete s r && whiskDone s g k false then .next (giveResult s g k r) else .refused (.notDue "REDT_RESULT")
  | none => .refused (.notDue "REDT_RESULT")

/-- WHISK_MESSAGE (R49, R50): a message crosses its next link. DEDUCED, log entry 19. -/
def execWhiskMessage (n : Nat) (s : State) : Result :=
  match s.whisk[n]? with
  | some w =>
    let path := whiskLinks s w.group
    if s.time < w.due ∨ path.length ≤ w.links then .refused (.notDue "WHISK_MESSAGE")
    else .next { s with whisk := s.whisk.set n { w with links := w.links + 1, due := s.time + (path[w.links + 1]?).getD 0 } }
  | none => .refused (.notDue "WHISK_MESSAGE")

/-! ### Instruction lines dropped, and the debugger -/

/-- ICINV_CHIPLET_ACK (R73, R92, R227): once every page has been translated, a chiplet drops the lines from its cores, and then its
acknowledgement arrives; each way to another chiplet takes 20 ns. DESIGN CHOICE, log entry 21. -/
def execIcinvChipletAck (a : AgentKey) (sock : Nat) (s : State) : Result :=
  match agentOf s a with
  | some b => match b.hold with
    | some (.icinv q) =>
      let core := coreOfAgent s a
      let walking := (entriesOf s core a).any fun e => e.op == .icinv
      let way := if sock = socketOf core then 0 else 20
      if walking || !q.chiplets.contains sock then .refused (.notDue "ICINV_CHIPLET_ACK")
      else match q.dropped.find? fun d => d.1 == sock with
        | none =>
          if s.time < q.since + way then .refused (.notDue "ICINV_CHIPLET_ACK")
          else
            let s1 := (List.range 32).foldl (fun s i => dropLines s q.ranges (32 * sock + i)) s
            .next (updAgent s1 a fun b => { b with hold := some (.icinv { q with dropped := q.dropped ++ [(sock, s.time)] }) })
        | some d =>
          if s.time < d.2 + way then .refused (.notDue "ICINV_CHIPLET_ACK")
          else .next (icinvCheck (updAgent s a fun b => { b with hold := some (.icinv { q with chiplets := q.chiplets.filter (· != sock) }) }) a core)
    | _ => .refused (.notDue "ICINV_CHIPLET_ACK")
  | none => .refused (.notDue "ICINV_CHIPLET_ACK")

/-- DEBUG_RESUME (R320): a halted agent goes past the BKPT that halted it. DESIGN CHOICE, log entry 38. -/
def execDebugResume (a : AgentKey) (s : State) : Result :=
  match agentOf s a with
  | some b => match b.hold with
    | some (.bkpt _ pc) => .next (updAgent s a fun b => { b with hold := none, debugPass := b.debugPass ++ [pc] })
    | _ => .refused (.notDue "DEBUG_RESUME")
  | none => .refused (.notDue "DEBUG_RESUME")

end Sys2Proof.Machine
end

