-- ==== Sys2Proof/Machine/Fetch.lean ====
section
/-! DEFINITION. Instruction fetch: lines, their checks, the L0 and the fetch buffers (R92, R93, R188 to R191). -/

namespace Sys2Proof.Machine

/-- Set bits among some bytes. -/
def bitsSet (bs : List Byte) : Nat := (bs.map fun b => popCount b.toNat 8).sum

/-- Whether a line passes parity: bit i of par covers bytes 8i to 8i + 7 but byte 63 (R189, R190). -/
def parityOk (bs : List Byte) : Bool :=
  (List.range 8).all fun i =>
    let covered := (bs.drop (8 * i)).take (if i = 7 then 7 else 8)
    (bitsSet covered + ((lineWord bs).testBit (24 + i)).toNat) % 2 == 0

/-- What the checks of a fetched line leave: its bytes, or an illegal line for a nonzero reserved field (R190). -/
def lineChecked (bs : List Byte) : LineState := if lineWord bs / 2 ^ 9 % 2 ^ 15 = 0 then .good bs else .illegalLine

/-- Lines of 64 bytes in the L0 (R3). DESIGN CHOICE, log entry 11. -/
def l0Capacity : Nat := 1024

/-- A line put into an agent's fetch buffer. -/
def putFetch (s : State) (k : AgentKey) (l : FetchLine) : State :=
  updAgent s k fun a =>
    { a with fetchBuf := (a.fetchBuf.filter fun x => x.va != l.va) ++ [l]
             needLine := if a.needLine = some l.va ∧ l.st ≠ .retry then none else a.needLine }

/-- A line kept in a core's L0 (R92). DESIGN CHOICE, log entry 11. -/
def l0Insert (s : State) (core : Nat) (l : L0Line) : State :=
  let rest := (coreOf s core).l0.filter fun x => !(x.ctx == l.ctx && x.va == l.va)
  let (s, rest) := dropOne s l0Capacity rest
  updCore s core fun c => { c with l0 := l :: rest }

/-- Whether a line must still be filled into an agent's fetch buffer. -/
def lineMissing (a : Agent) (line : Nat) : Bool :=
  match a.fetchBuf.find? fun l => l.va == line with
  | none => true
  | some l => l.st == .retry

/-- The line that an agent waits for: a branch target's, or that of its issue address (R92, R191). -/
def wantedLine (a : Agent) : Option Nat :=
  match a.needLine, issueAddress a with
  | some l, _ => if lineMissing a l then some l else none
  | none, some pc => if lineMissing a (pc / 64 * 64) then some (pc / 64 * 64) else none
  | none, none => none

/-- A line's sectors as a fill has brought them (R93, R190): its bytes, or none where the fill is torn, poisoned or fails parity; an access that the
external switch refuses is a translation fault (R70, R418). -/
def fillJudged (vs : List (BitVec 128 × Nat)) : Option (List Byte) ⊕ Nat :=
  match vs.find? fun v => 100 ≤ v.2 with
  | some v => .inr (v.2 - 100)
  | none =>
    let bs := vs.flatMap fun v => leBytes 16 v.1.toNat
    .inl (if vs.all (fun v => v.2 == 0) && parityOk bs then some bs else none)

/-- What a fetch does with what its reader knows (R63, R70, R92, R93, R190): the line comes from the L0, or from its home as one access;
what is lacking is asked for, and a bad first fill leaves the line to be fetched once more. -/
def lineRun (s : State) (r : Reader) : State :=
  match r.goal, r.core with
  | .line k va again, some core =>
    let ends := fun (s : State) (pa : Nat) (st : LineState) => putFetch (dropReader s r.id) k ⟨va, pa, st⟩
    match lookPage s r.eye .fetch va with
    | .need ns => askReader s r ns
    | .fault n _ => ends s 0 (.xlatFault n)
    | .lost => ends s 0 .lost
    | .ok x =>
      let pa := x.pa va
      match if again then none else (coreOf s core).l0.find? fun l => l.ctx == r.ctx && l.va == va with
      | some l => ends s l.pa (lineChecked l.bytes)
      | none => match systemStop s pa false, lookSectors s r.eye .fetch (sectorStarts va 64) with
        | some (18, n), _ => ends s pa (.xlatFault n)
        | _, .need ns => askReader s r ns
        | _, .fault n _ => ends s pa (.xlatFault n)
        | _, .lost => ends s pa .lost
        | _, .ok vs => match fillJudged vs with
          | .inr n => ends s pa (.xlatFault n)
          | .inl (some bs) => ends (l0Insert s core ⟨r.ctx, va, pa, bs⟩) pa (lineChecked bs)
          | .inl none => ends s pa (if again then .parity else .retry)
  | _, _ => s

/-- Whether an agent's fetch of a line is under way. -/
def fetching (s : State) (k : AgentKey) (line : Nat) : Bool :=
  s.readers.any fun r => match r.goal with | .line a va _ => a == k && va == line | _ => false

/-- LINE_FILL (R63, R70, R92, R93, R190): an agent's fetch of the line that it waits for begins. -/
def execLineFill (k : AgentKey) (line : Nat) (s : State) : Result :=
  match agentOf s k, teamOf s k.team with
  | some a, some t =>
    if a.ended || wantedLine a != some line || fetching s k line then .refused (.notDue "LINE_FILL")
    else
      let again := a.fetchBuf.any fun l => l.va == line && l.st == .retry
      let (id, s) := newReader s (some t.core) (isLadle k) (ctxOf s k) (.line k line again)
      match readerOf s id with
      | some r => .next (lineRun s r)
      | none => .next s
  | _, _ => .refused (.notDue "LINE_FILL")

/-- A number of free bytes (DESIGN CHOICE, log entry 2). -/
def freeBytes (s : State) (n : Nat) : List Byte × State :=
  (List.range n).foldl (fun (acc : List Byte × State) _ => let (k, s) := pick acc.2 256; (acc.1 ++ [BitVec.ofNat 8 k], s)) ([], s)

/-- What a save does with what its reader knows of a live-mask entry (R208, R402): the masks, free values where the table cannot be read.
DEDUCED, log entry 34. -/
def liveRun (s : State) (r : Reader) : State :=
  match r.goal with
  | .live k idx va =>
    let keep := fun (s : State) (bs : List Byte) => updAgent (dropReader s r.id) k fun a =>
      { a with live := some (idx, BitVec.ofNat 128 (leNat (bs.take 16)), BitVec.ofNat 64 (leNat (bs.drop 16))) }
    match lookBytes s r.eye .read va 24 with
    | .ok bs => if bs.all fun b => b.2 == 0 then keep s (bs.map (·.1)) else let (bs, s) := freeBytes s 24; keep s bs
    | .need ns => askReader s r ns
    | _ => let (bs, s) := freeBytes s 24; keep s bs
  | _ => s

/-- What the fetched line gives at a PC: the 96-bit word of its slot, or the event that is raised there (R70, R190). -/
inductive FetchEnd where
  | wait
  | word (w : InstrWord)
  | fault (e : Event)

/-- The word at an agent's PC (R70, R188, R190, R191): an entry's slot must be marked as a target. DEDUCED, log entry 8. -/
def fetchAt (a : Agent) (pc : Nat) : FetchEnd :=
  let lanes := maskOf (executing a pc)
  match bufLine a pc with
  | none => .wait
  | some l => match l.st with
    | .retry => .wait
    | .parity => .fault (mkEvent 3 0 lanes pc)
    | .illegalLine => .fault (mkEvent 2 0 lanes pc)
    | .xlatFault sub => .fault { mkEvent 18 sub lanes pc with addr := pc }
    | .lost => .fault (mkEvent 19 1 lanes pc)
    | .good bs =>
      if !legalPc pc || (a.issues == 0 && pc == a.entry && !targetMarked bs pc) then .fault (mkEvent 4 0 lanes pc)
      else .word (BitVec.ofNat 96 (leNat ((bs.drop (pc % 64)).take 12)))

end Sys2Proof.Machine
end

