-- ==== Sys2Proof/Machine/Queues.lean ====
section
/-! DEFINITION. Hardware queues, the dispatcher, placement of teams and retirement (R339 to R344, R356 to R368). -/

namespace Sys2Proof.Machine

/-! ### Queues and their timelines -/

/-- Records that a queue holds. -/
def queueOf (s : State) (q : Nat) : List Queued := sget [] s.queues q

/-- A queue's records replaced; QSTAT.depth follows (R359). -/
def setQueue (s : State) (q : Nat) (l : List Queued) : State :=
  regSet { s with queues := sset [] s.queues q l } (.qstat q) 3 0 l.length

/-- A write counted in QSTAT.drop_bad (R359). -/
def dropBad (s : State) (q : Nat) : State := regSet s (.qstat q) 47 32 (saturate 16 (regFld s (.qstat q) 47 32 + 1))

/-- A write counted in QSTAT.drop_full (R359). -/
def dropFull (s : State) (q : Nat) : State := regSet s (.qstat q) 63 48 (saturate 16 (regFld s (.qstat q) 63 48 + 1))

/-- The next number on a queue timeline (R360). -/
def queueNumber (s : State) (q : Nat) : Nat × State :=
  let n := (regGet s (.qtli q)).toNat + 1
  (n, regPut s (.qtli q) (BitVec.ofNat 64 n))

/-- Numbers of a queue timeline whose launches have not completed: records held, grids not retired, saved ones included (R360). -/
def openNumbers (s : State) (q : Nat) : List Nat :=
  let held := (s.queues.flatMap (·.2)).filterMap fun r => if r.tlq = q then some r.num else none
  let live := (s.grids ++ s.saves.flatMap (·.grids)).filterMap fun g => match g.parent with
    | .queue t n => if t = q then some n else none
    | .child _ _ _ => none
  held ++ live

/-- QTL.done follows the launches that have completed; passing QNOTIFY raises vector 2 in the queue's function (R360, R419). DEDUCED, log entry 25. -/
def advanceQueue (s : State) (q : Nat) : State :=
  let issued := (regGet s (.qtli q)).toNat
  let done := match (openNumbers s q).min? with | some m => min (m - 1) issued | none => issued
  let old := (regGet s (.qtl q)).toNat
  if done ≤ old then s
  else
    let limit := (regGet s (.qnotify q)).toNat
    let s := regPut s (.qtl q) (BitVec.ofNat 64 done)
    if old ≤ limit ∧ limit < done then raiseVector s (regFld s (.qcfg q) 61 56) 2 else s

/-! ### Eligibility -/

/-- Whether a domain has a core assigned (R365). -/
def domainHasCore (s : State) (d : Nat) : Bool :=
  (List.range 384).any fun g => regBit s (.coreDom g) 63 && regFld s (.coreDom g) 5 0 == d

/-- Whether a wait of a record at the head of a queue is over; one that names another domain is not tested (R365). -/
def waitMet (s : State) (q : Nat) (w : BitVec 16) (v : Nat) : Bool :=
  !bit w 15 || queueDomain s (fieldQueue w) != queueDomain s q || decide (v ≤ (regGet s (.qtl (fieldQueue w))).toNat)

/-- The conditions of R365 other than a cohort's set of cores. -/
def headReady (s : State) (q : Nat) : Bool :=
  match queueOf s q with
  | [] => false
  | r :: _ =>
    regBit s (.qcfg q) 63 && !classShed s (regFld s (.qcfg q) 49 48) && domainHasCore s (queueDomain s q)
      && waitMet s q r.rec_.w0 r.rec_.w0val && waitMet s q r.rec_.w1 r.rec_.w1val && !regBit s (.qctx q) 63

/-- The waits at the heads of eligible queues counted from the change that made them eligible (R343), from which on their images are to be read
(R365). DEDUCED, log entry 25. DEDUCED, log entry 51. -/
def restartHeads (before after : State) : State :=
  { after with queues := after.queues.map fun e =>
      (e.1, match e.2 with
        | r :: rest =>
          let was := match queueOf before e.1 with | b :: _ => b.num == r.num && b.tlq == r.tlq && headReady before e.1 | [] => false
          if was then e.2 else { r with headSince := timeAt after 31, blocking := false, judged := none, fresh := false } :: rest
        | [] => []) }

/-! ### Intake -/

/-- A record enqueued (R360). -/
def enqueue (s : State) (q : Nat) (bs : List Byte) : State :=
  let r := parseRecord bs
  let tlq := if bit r.cmp 15 && queueDomain s (fieldQueue r.cmp) == queueDomain s q then fieldQueue r.cmp else q
  let (n, s1) := queueNumber s tlq
  restartHeads s (setQueue s1 q (queueOf s1 q ++ [{ rec_ := r, tlq := tlq, num := n, headSince := timeAt s 31, blocking := false, judged := none }]))

/-- Whether a write to a window may enqueue, by its source (R358, R415, R419). -/
def mayEnqueue (s : State) (q : Nat) : WindowSource → Bool
  | .host f => regFld s (.qcfg q) 61 56 == f
  | .hart _ => true
  | .copyEngine => true
  | .coreOrLadle => false

/-- Whether a write comes from a host that is lost (R415). -/
def fromLostHost (s : State) : WindowSource → Bool
  | .host _ => hostLost s
  | _ => false

/-- A write that reaches the queue aperture (R358, R359, R415, R419). DEDUCED, log entry 25. -/
def windowWrite (s : State) (w : WindowWrite) : State :=
  let touched := (List.range ((w.offset + w.bytes.length - 1) / 64 + 1 - w.offset / 64)).map (w.offset / 64 + ·)
  let q := w.offset / 64
  if fromLostHost s w.source || w.bytes.isEmpty then s
  else if w.offset % 64 != 0 || w.bytes.length != 64 || !mayEnqueue s q w.source || !regBit s (.qcfg q) 63 then
    (touched.filter fun q => q < 2048).foldl dropBad s
  else if 2048 ≤ q then s
  else if 8 ≤ (queueOf s q).length then dropFull s q
  else enqueue s q w.bytes

/-- QUEUE_WINDOW_WRITE (R356, R358 to R360). -/
def execQueueWindowWrite (w : WindowWrite) (s : State) : Result := .next (windowWrite s w)

/-- A write to QCFG_n (R357): domain and vf stay while the queue is enabled. -/
def writeQcfg (s : State) (q : Nat) (v : Word64) : State :=
  if 2048 ≤ q then s
  else
    let r := Reg.qcfg q
    let new := regWritten r (regGet s r) v
    let new := if regBit s r 63 then setFld new 61 50 (regFld s r 61 50) else new
    restartHeads s (regPut s r new)

/-- QCFG_WRITE (R357). -/
def execQcfgWrite (q : Nat) (v : Word64) (s : State) : Result := .next (writeQcfg s q v)

/-- A write to QSTAT_n (R359): clear zeroes the drop counters. -/
def writeQstat (s : State) (q : Nat) (v : Word64) : State := if 2048 ≤ q || !bit v 31 then s else regSet s (.qstat q) 63 32 0

/-- QSTAT_CLEAR (R359): a write with clear set. -/
def execQstatClear (q : Nat) (v : Word64) (s : State) : Result := .next (writeQstat s q (setBit v 31 true))

/-! ### Dispatch -/

/-- Whether the service chiplet takes and places work: it has not failed and no emergency save runs (R399, R407). -/
def dispatching (s : State) : Bool := !regBit s .emstat 62 && !socketFailed s 31

/-- Cores of a domain that accept a team (R341). -/
def acceptingCores (s : State) (h : Header) (domain : Nat) : List Nat := (List.range 384).filter fun g => coreAccepts s g h domain

/-- Teams of a record's grid. -/
def recordTeams (r : Record) : Nat := r.gx * r.gy * r.gz

/-- What becomes of a record at the head of a queue: it is taken and refused or accepted, it is a cohort that waits for its cores, or its image
has still to be read. -/
inductive TakeEnd where
  | refused (check : Nat)
  | accepted (h : Header)
  | waits
  | unread

/-- Whether a wait that counts from an instant has lasted 1 ms (R343). -/
def waitedLong (s : State) (since : Nat) : Bool := decide (since + 1000000 ≤ timeAt s 31)

/-- Whether a grid is a cohort that has waited 1 ms at the launch units (R343). -/
def cohortPast (s : State) (g : Grid) : Bool := g.hdr.cohort && (g.blocking || (g.parentGrid.isSome && waitedLong s g.since))

/-- Whether a record is a cohort that has waited 1 ms at the head of its eligible queue (R343). -/
def headPast (s : State) (q : Nat) (r : Queued) : Bool :=
  (match r.judged with | some (.read h _ _) => h.cohort | _ => false) && (r.blocking || waitedLong s r.headSince) && headReady s q

/-- The highest priority of the cohorts that have waited 1 ms, one grid or one queue's head left out (R343). -/
def blockedBelow (s : State) (self : Nat ⊕ Nat) : Option Nat :=
  let grids := (s.grids.filter fun g => cohortPast s g && self != .inl g.id && !g.terminated && decide (g.nextTeam < gridTeams g)).map (·.priority)
  let heads := s.queues.filterMap fun e => match e.2 with
    | r :: _ => if self != .inr e.1 && headPast s e.1 r then some (regFld s (.qcfg e.1) 47 44) else none
    | [] => none
  (grids ++ heads).max?

/-- Whether a cohort that has waited 1 ms holds a launch of a priority back (R343); one that has waited 1 ms itself is not held back at its own
priority. DEDUCED, log entry 25. -/
def heldBack (s : State) (self : Nat ⊕ Nat) (prio : Nat) (past : Bool) : Bool :=
  match blockedBelow s self with
  | some p => decide (prio < p) || (prio == p && !past)
  | none => false

/-- The head of a queue judged with what was last read of its image (R343, R362, R365): a cohort waits until its set of cores exists, and,
like every launch, while another cohort that has waited 1 ms holds its priority back (DEDUCED, log entry 25). -/
def judgeLast (s : State) (q : Nat) (r : Queued) : TakeEnd :=
  let img := if recordFine r.rec_ && r.rec_.image % 256 == 0 then r.judged else some .bad
  match img with
  | none => .unread
  | some img => match checkRecord s (queueDomain s q) false r.rec_ img with
    | .bad n => .refused n
    | .ok h =>
      let held := heldBack s (.inr q) (regFld s (.qcfg q) 47 44) (headPast s q r)
      if h.cohort && (held || decide ((acceptingCores s h (queueDomain s q)).length < recordTeams r.rec_)) then .waits else .accepted h

/-- The head of a queue judged for its take (R362, R366): with an image that has been read for it. DEDUCED, log entry 51. DEDUCED, log entry 25. -/
def judgeHead (s : State) (q : Nat) (r : Queued) : TakeEnd :=
  if recordFine r.rec_ && r.rec_.image % 256 == 0 && !r.fresh then .unread else judgeLast s q r

/-- What the dispatcher does with what it has read of the image of the record at the head of a queue (R362, R365). -/
def judgeRun (s : State) (r : Reader) : State :=
  match r.goal with
  | .judge q num => match queueOf s q with
    | h :: rest =>
      if h.num != num || !headReady s q || r.ctx != regFld s (.qcfg q) 61 56 then dropReader s r.id
      else match imageLook s r.eye h.rec_ with
        | .need ns => askReader s r ns
        | .ok img => dropReader { s with queues := sset [] s.queues q ({ h with judged := some img, fresh := true } :: rest) } r.id
        | _ => dropReader s r.id
    | [] => dropReader s r.id
  | _ => s

/-- The dispatcher begins to read the image of the record at the head of a queue (R362, R365). -/
def beginJudge (s : State) (q : Nat) (r : Queued) : State :=
  let (id, s) := newReader s none false (regFld s (.qcfg q) 61 56) (.judge q r.num)
  match readerOf s id with
  | some x => judgeRun s x
  | none => s

/-- Whether the dispatcher is reading the image of a queue's head. -/
def judging (s : State) (q : Nat) : Bool := s.readers.any fun r => match r.goal with | .judge k _ => k == q | _ => false

/-- Queues in the order in which the dispatcher prefers them: priority, then round-robin from the one after the last taken (R366). -/
def dispatchOrder (s : State) (qs : List Nat) : List Nat :=
  let prio : Nat → Nat := fun q => regFld s (.qcfg q) 47 44
  let turn : Nat → Nat := fun q => match slookup s.lastTaken (prio q) with
    | some l => (q + 2048 - (l + 1)) % 2048
    | none => q
  let before := fun (a b : Nat) => decide (prio b < prio a ∨ (prio a = prio b ∧ turn a ≤ turn b))
  sortBy before qs

/-- Whether the image of a queue's head is being read again while its cohort waits for its cores, or waits for a page request (R63): such a
head holds no other queue back (R365, R366). DEDUCED, log entry 51. -/
def readsAside (s : State) (q : Nat) (r : Queued) : Bool :=
  judging s q && ((match judgeLast s q r with | .waits => true | _ => false)
    || s.readers.any fun x => match x.goal with | .judge k _ => k == q && x.know.parked | _ => false)

/-- The first eligible queue of an order, with its record and what becomes of it (R365, R366); no queue behind one whose image has still to
be read. -/
def firstEligible (s : State) : List Nat → Option (Nat × Queued × TakeEnd)
  | [] => none
  | q :: rest =>
    match queueOf s q with
    | [] => firstEligible s rest
    | r :: _ =>
      if !headReady s q then firstEligible s rest
      else match judgeHead s q r with
        | .waits => firstEligible s rest
        | .unread => if readsAside s q r then firstEligible s rest else some (q, r, .unread)
        | e => some (q, r, e)

/-- Some of a list's members, one after the other, each a free choice. DESIGN CHOICE, log entry 2. -/
def pickSome {α : Type} (s : State) : Nat → List α → State × List α
  | 0, _ => (s, [])
  | n + 1, l =>
    let (k, s1) := pick s l.length
    match l[k]? with
    | none => (s1, [])
    | some x => let (s2, r) := pickSome s1 n (l.eraseIdx k); (s2, x :: r)

/-- The teams of a cohort placed, team i on the i-th core (R343). -/
def placeCohort (s : State) (g : Grid) (cores : List Nat) : State :=
  updGrid (cores.zipIdx.foldl (fun s e => placeTeam s g e.2 e.1) s) g.id fun g => { g with nextTeam := cores.length, blocking := false }

/-- A cohort from a queue placed as its record is taken, at one instant (R343, R365). -/
def placeTaken (s : State) (id : Nat) : State :=
  match gridOf s id with
  | none => s
  | some g =>
    if g.hdr.cohort then let (s, cores) := pickSome s (gridTeams g) (acceptingCores s g.hdr g.domain); placeCohort s g cores
    else s

/-- A record taken from the head of its queue (R360, R362, R366, R367): distributed as a grid, or refused with a record; its queue's turn and
the next take's time are noted. -/
def takeHead (s : State) (q : Nat) (r : Queued) (e : TakeEnd) : State :=
  let cfg := fun hi lo => regFld s (.qcfg q) hi lo
  let s2 := setQueue { s with lastTake := timeAt s 31 + 20, lastTaken := sinsert s.lastTaken (cfg 47 44) q } q ((queueOf s q).drop 1)
  let s3 := match e with
    | .accepted h =>
      let (s3, id) := addGrid s2 r.rec_ h q (cfg 47 44) (cfg 49 48) (cfg 55 50) (cfg 61 56) (regBit s (.qcfg q) 62) 1 (.queue r.tlq r.num) none
      placeTaken s3 id
    | .refused n => launchFault s2 q (cfg 55 50) n r.rec_.tag
    | _ => s2
  restartHeads s (advanceQueue s3 r.tlq)

/-- DISPATCH_TAKE (R360, R362, R365 to R367): one record every 20 ns; the image of a record that is to be judged is read first. -/
def execDispatchTake (s : State) : Result :=
  if !dispatching s || decide (timeAt s 31 < s.lastTake) then .refused (.notDue "DISPATCH_TAKE")
  else match firstEligible s (dispatchOrder s (s.queues.map (·.1))) with
    | none => .refused (.notDue "DISPATCH_TAKE")
    | some (q, r, .unread) => if judging s q then .refused (.notDue "DISPATCH_TAKE") else .next (beginJudge s q r)
    | some (q, r, e) => .next (takeHead s q r e)

/-! ### Placement -/

/-- Whether a grid may place teams at all (R344, R368, R380, R396, R401, R407); a child's timeline waits are honoured at the launch units (R316). -/
def mayPlace (s : State) (g : Grid) : Bool :=
  dispatching s && !g.terminated && !classShed s g.cls && !savePending s g && decide (g.nextTeam < gridTeams g)
    && (g.parentGrid.isNone || (waitMet s g.queue g.launch.w0 g.launch.w0val && waitMet s g.queue g.launch.w1 g.launch.w1val))

/-- Whether a cohort that has waited 1 ms holds a grid's teams back (R343). -/
def heldByCohort (s : State) (g : Grid) : Bool := heldBack s (.inl g.id) g.priority (cohortPast s g)

/-- Whether a grid's next team, or a cohort's teams, can be placed now. DEDUCED, log entry 25. -/
def canPlace (s : State) (g : Grid) : Bool :=
  mayPlace s g && !heldByCohort s g
    && decide ((if g.hdr.cohort then gridTeams g else 1) ≤ (acceptingCores s g.hdr g.domain).length)

/-- Whether another grid's teams are placed first: higher priority, or distributed earlier within one priority (R368). DEDUCED, log entry 25. -/
def placedFirst (s : State) (g : Grid) : Bool :=
  s.grids.any fun x => x.id != g.id && decide (g.priority < x.priority ∨ (x.priority = g.priority ∧ x.order < g.order)) && canPlace s x

/-- Whether a team of a grid that is no cohort can be placed on a core now (R341, R343, R368). -/
def teamFits (s : State) (g : Grid) (team core : Nat) : Bool :=
  mayPlace s g && !g.hdr.cohort && !heldByCohort s g && !placedFirst s g && team == g.nextTeam && coreAccepts s core g.hdr g.domain

/-- TEAM_PLACE (R95, R163, R341, R342, R363, R364, R368). -/
def execTeamPlace (grid team core : Nat) (s : State) : Result :=
  match gridOf s grid with
  | some g =>
    if teamFits s g team core then .next (updGrid (placeTeam s g team core) grid fun g => { g with nextTeam := team + 1 })
    else .refused (.notDue "TEAM_PLACE")
  | none => .refused (.notDue "TEAM_PLACE")

/-- Whether a list of cores can take all teams of a cohort now (R343, R368). -/
def cohortFits (s : State) (g : Grid) (cores : List Nat) : Bool :=
  mayPlace s g && g.hdr.cohort && !heldByCohort s g && !placedFirst s g && g.nextTeam == 0 && cores.length == gridTeams g && cores.Nodup
    && cores.all (fun c => coreAccepts s c g.hdr g.domain)

/-- COHORT_PLACE (R343): all teams on distinct cores, or none. -/
def execCohortPlace (grid : Nat) (cores : List Nat) (s : State) : Result :=
  match gridOf s grid with
  | some g => if cohortFits s g cores then .next (placeCohort s g cores) else .refused (.notDue "COHORT_PLACE")
  | none => .refused (.notDue "COHORT_PLACE")

/-- COHORT_WAIT_EXPIRY (R343): a cohort has waited 1 ms at the head of an eligible queue, or as a child at the launch units. DEDUCED, log entry 25. -/
def execCohortWaitExpiry (q : Nat) (s : State) : Result :=
  let child := s.grids.find? fun g =>
    g.queue == q && g.parentGrid.isSome && g.hdr.cohort && !g.terminated && g.nextTeam == 0 && !g.blocking && waitedLong s g.since
  match child with
  | some g => .next (updGrid s g.id fun g => { g with blocking := true })
  | none =>
    match queueOf s q with
    | r :: rest =>
      if r.blocking || !headReady s q || !waitedLong s r.headSince then .refused (.notDue "COHORT_WAIT_EXPIRY")
      else match judgeLast s q r with
        | .waits => .next { s with queues := sset [] s.queues q ({ r with blocking := true } :: rest) }
        | _ => .refused (.notDue "COHORT_WAIT_EXPIRY")
    | [] => .refused (.notDue "COHORT_WAIT_EXPIRY")

/-! ### Retirement -/

/-- Copies that a team issued and that have not completed (R344). -/
def copiesOfTeam (s : State) (team : Nat) : Bool := s.engines.any fun e => e.2.queue.any fun op => op.issuer.team == team

/-- Jobs that a team issued and that have not completed (R305, R344). -/
def jobsOfTeam (s : State) (t : Team) : Bool := (coreOf s t.core).jobs.any fun j => j.issuer.team == t.uid

/-- Whether a child launch of a team is being read (R316, R394). -/
def launching (s : State) (t : Team) : Bool := s.readers.any fun r => match r.goal with | .launch k .. => k.team == t.uid | _ => false

/-- Whether a team can retire (R344, R396). -/
def teamOver (s : State) (t : Team) : Bool :=
  (s.agents.filter fun a => a.key.team == t.uid).all (·.ended) && !jobsOfTeam s t && !copiesOfTeam s t.uid && !launching s t

/-- A team and its agents leave their core, with the codebook slots it tagged (R109, R344). -/
def removeTeam (s : State) (t : Team) : State :=
  let s := clearSlots { s with teams := s.teams.filter fun x => x.uid != t.uid
                               agents := s.agents.filter fun a => a.key.team != t.uid } [t.uid]
  refreshBusy s t.core

/-- TEAM_RETIRE (R95, R109, R305, R344). -/
def execTeamRetire (team : Nat) (s : State) : Result :=
  match teamOf s team with
  | some t =>
    if !teamOver s t then .refused (.notDue "TEAM_RETIRE")
    else .next (updGrid (removeTeam s t) t.grid fun g => { g with retired := g.retired + 1 })
  | none => .refused (.notDue "TEAM_RETIRE")

/-- Whether a grid can retire: its teams, the unplaced ones of a terminated grid apart, and its children have retired (R344, R396).
DEDUCED, log entry 25. -/
def gridOver (s : State) (g : Grid) : Bool :=
  (if g.terminated then !s.teams.any fun t => t.grid == g.id else g.retired == gridTeams g)
    && !(s.grids ++ s.saves.flatMap (·.grids)).any fun x => x.parentGrid == some g.id

/-- The operation of a child launch on its parent's timeline ends (R316, R344, R393, R396): with a record where the grid was terminated,
whose subcode the manual does not state (DESIGN CHOICE, log entry 2). -/
def childOver (s : State) (g : Grid) (team tl n : Nat) : State :=
  match teamOf s team with
  | none => s
  | some t =>
    let s := if g.terminated then let (k, s) := pick s 256; timelineRecord s t 4 (t.core % 32) 0 tl n k else s
    completeOp s team tl n g.terminated

/-- A grid leaves the package, and its launch is completed (R316, R344, R360). -/
def retireGrid (s : State) (g : Grid) : State :=
  let s1 := { s with grids := s.grids.filter fun x => x.id != g.id
                     whisk := s.whisk.filter fun w => w.group.grid != g.id
                     reductions := s.reductions.filter fun r => r.group.grid != g.id }
  match g.parent with
  | .queue q _ => restartHeads s (advanceQueue s1 q)
  | .child team tl n => childOver s1 g team tl n

/-- GRID_RETIRE (R85, R86, R316, R344, R360, R419). -/
def execGridRetire (grid : Nat) (s : State) : Result :=
  match gridOf s grid with
  | some g => if gridOver s g then .next (retireGrid s g) else .refused (.notDue "GRID_RETIRE")
  | none => .refused (.notDue "GRID_RETIRE")

end Sys2Proof.Machine
end

