-- ==== Sys2Proof/Machine/Home.lean ====
section
/-! DEFINITION. Requests at their targets: the order of a home slice, snoops of host lines, reads, writes, atomics, LDIX, prefetches,
commits and markers, and what the I/O chiplets and the service chiplet do with system ranges (R8, R14 to R28, R78, R90, R93, R227, R238,
R239, R356, R358, R412 to R418). -/

namespace Sys2Proof.Machine

/-! ### Order at a slice -/

/-- Whether a packet asks a home slice for something (R15): a request for a line, a prefetch, a commit, a marker, an encapsulated access. -/
def sliceRequest : Msg → Bool
  | .rd _ _ | .wr _ _ _ _ | .at _ _ _ _ | .lx _ _ _ _ _ _ _ _ | .lxe _ _ _ | .cwb _ | .pf _ _ _ _ _ | .commit _ | .fm => true
  | .tx b => match b with
    | .hostRead .. | .hostWrite .. | .hart .. => true
    | _ => false
  | _ => false

/-- Whether the first packet of a wire will be accepted by its link and its stream (R38, R39). -/
def acceptable (s : State) (h : Hop) (x : Sent) : Bool :=
  h.src == h.dst || (x.lseq == (linkOf s h).expected && (streamOf s (streamHop x.pkt)).expected == x.pkt.sseq
    && packetCrc x.lseq x.lack x.pkt == x.crc)

/-- Whether a packet that has arrived by a hop is still to be accepted by the slice at its end. -/
def inputDue (s : State) (h : Hop) : Bool :=
  match arrived s h with
  | some x => sliceRequest x.pkt.msg && isMemory x.pkt.dst && x.pkt.dst == h.dst && acceptable s h x
  | none => false

/-- Whether a slice has accepted everything that has reached its input. -/
def settled (s : State) (d : Nat) : Bool := s.links.all fun l => l.hop.dst != d || !inputDue s l.hop

/-- The line that an arrival asks for next; a marker asks for none. -/
def Arrival.line (a : Arrival) : Option Nat :=
  match a.pkt.msg with
  | .fm => none
  | .pf .. => a.lines.head?
  | .commit _ => a.lines.head?.map (· / 2)
  | _ => some (a.pkt.pa / 128)

/-- A port's place in the order that a priority pointer gives (R15). DESIGN CHOICE, log entry 16. -/
def portRank (ptr port : Nat) : Nat := (port % 32 + 32 - ptr % 32) % 32

/-- The ports of a slice's arrivals of one cycle that ask for a line that another port asks for in the same cycle (R15). -/
def contestedPorts (s : State) (d t : Nat) : List Nat :=
  let now := s.inbox.filter fun a => a.hop.dst == d && a.at_ == t
  (now.filter fun a => a.line.isSome && now.any fun b => b.line == a.line && b.hop.src != a.hop.src).map fun a => a.hop.src

/-- The pointer of a slice as a cycle began: before the move of a contested cycle (R15). -/
def pointerAt (s : State) (d t : Nat) : Nat := if sget 0 s.arb (32 + d) = t + 1 then sget 0 s.arb (64 + d) else sget 0 s.arb d

/-- The pointer moved to the port after the one that goes first in a contested cycle, among the ports whose request another port contests (R15).
DESIGN CHOICE, log entry 16. -/
def movePointer (s : State) (d t : Nat) : State :=
  let ptr := pointerAt s d t
  match ((contestedPorts s d t).map (portRank ptr)).min? with
  | none => s
  | some k => { s with arb := sset 0 (sset 0 (sset 0 s.arb (64 + d) ptr) d ((ptr + k + 1) % 32)) (32 + d) (t + 1) }

/-- The lines of a range that a slice homes, in local order (R23). -/
def homedLines (s : State) (sock base len : Nat) : List Nat :=
  let lines := ((List.range ((base + len - 1) / 128 + 1 - base / 128)).map (base / 128 + ·)).filter fun l =>
    decide (l * 128 < dramTop s) && homeSocket s (l * 128) == sock
  let before := fun (a b : Nat) => decide (localLine s (a * 128) ≤ localLine s (b * 128))
  sortBy before lines

/-- The lines of a prefetch at a slice: none where its page is UNCACHED (R23). The half-lines of a commit (R227). -/
def linesAsked (s : State) (d : Nat) (p : Packet) : List Nat :=
  match p.msg with
  | .pf base len _ _ _ => if p.attr = 3 || socketFailed s d || len == 0 then [] else homedLines s d base len
  | .commit ls => ls.map (· / 64)
  | _ => []

/-- A request accepted at a slice's input (R15): a cycle of the slice's clock is one ns here (DESIGN CHOICE, log entry 16). -/
def acceptArrival (h : Hop) (t : Nat) (p : Packet) (s : State) : State :=
  movePointer { s with inbox := s.inbox ++ [⟨h, t, pointerAt s h.dst t, p, linesAsked s h.dst p⟩] } h.dst t

/-- Whether an arrival goes before another at their slice, given their places in the order of acceptance (R15). DESIGN CHOICE, log entry 16. -/
def goesBefore (b a : Arrival × Nat) : Bool :=
  decide (b.1.at_ < a.1.at_) || (b.1.at_ == a.1.at_ &&
    (if b.1.hop.src = a.1.hop.src then decide (b.2 < a.2) else decide (portRank b.1.ptr b.1.hop.src < portRank a.1.ptr a.1.hop.src)))

/-- Whether the snoop filter holds a line (R90, R91). -/
def heldByHost (s : State) (pa : Nat) : Bool := s.hostHeld.contains (pa / 128)

/-- Whether an arrival can be applied now: all that has reached the slice has been accepted, no request for its line goes before it, and for
a marker no earlier request of its stream is left (R15, R16, R78); a prefetch or commit whose line is being snooped waits (R90).
DESIGN CHOICE, log entry 16. -/
def canServe (s : State) (a : Arrival × Nat) : Bool :=
  settled s a.1.hop.dst
    && !(s.inbox.zipIdx.any fun b => b.2 != a.2 && b.1.hop.dst == a.1.hop.dst &&
      (if a.1.pkt.msg == .fm then decide (b.2 < a.2) && streamHop b.1.pkt == streamHop a.1.pkt
       else b.1.line.isSome && b.1.line == a.1.line && goesBefore b a))
    && (match a.1.pkt.msg, a.1.line with
      | .pf .., some l | .commit _, some l => !(heldByHost s (l * 128) && s.snoops.any fun w => w.1 == l)
      | .fm, _ => !s.snoops.any fun w => streamHop w.2.2.2 == streamHop a.1.pkt
      | _, _ => true)

/-! ### Requests at a slice -/

/-- A reply sent by a request's target. -/
def answer (s : State) (p : Packet) (m : Msg) : State := send s (replyFrom p.dst p m)

/-- A value that a request's lane receives from the home, with its poison (R28, R81). -/
def laneValue (s : State) (lane pa size : Nat) : LaneVal :=
  ⟨lane, BitVec.ofNat 128 (leNat (homeBytes s pa size)), (rangePoisoned s pa size).toNat⟩

/-- A line held for a read of a range; nothing at a failed chiplet (R14, R20, R28). -/
def prepare (s : State) (attr : BitVec 2) (pa n : Nat) : State :=
  if socketFailed s (homeSocket s pa) then s else homePrepare s attr pa n

/-- The cells of the sectors that some accesses touch. -/
def sectorCells (s : State) (reqs : List LaneAcc) : List Host.Cell :=
  let sectors := (reqs.flatMap fun r => (List.range ((r.pa + r.size - 1) / 16 + 1 - r.pa / 16)).map (r.pa / 16 + ·)).dedup
  sectors.flatMap fun k => cellsAt (16 * k) (homeBytes s (16 * k) 16)

/-- Whether a read fills an instruction line (R92, R93). -/
def isFill (s : State) (p : Packet) : Bool :=
  match p.who with
  | .reader _ id _ => match readerOf s id with
    | some r => match r.goal with | .line .. => true | _ => false
    | none => false
  | _ => false

/-- A read applied (R15, R17, R20, R27, R28, R81); a fill of a half-line whose rewrite is not complete comes back as poison (R93). -/
def applyRead (s : State) (p : Packet) (reqs : List LaneAcc) (lease : Bool) : State :=
  let s := reqs.foldl (fun s r => prepare s p.attr r.pa r.size) s
  let (e, s) := if lease then grantLease s p.pa else (0, s)
  let value := fun (r : LaneAcc) =>
    let v := laneValue s r.lane r.pa r.size
    if isFill s p && torn s r.pa then { v with poison := 1 } else v
  answer s p (.rdr (reqs.map value) (p.pa / 128) (if e = 0 then [] else sectorCells s reqs) e)

/-- A write at a home counted: its completion time, which markers of its source are answered with (R16). -/
def noteWrite (s : State) (p : Packet) : Nat × State :=
  let t := completionTime s p.pa
  (t, noteCompletion s p.dst p.src p.planeB t)

/-- A write applied, or refused by its check word (R14, R16, R20, R28, R88, R93, R113). -/
def applyWrite_ (s : State) (p : Packet) (cells : List Host.Cell) (check : Option (BitVec 32)) (poisoned : Bool) : State :=
  let wrong : Bool := match check with | some w => checkWord 64 (cells.map (·.2)) != w | none => false
  if wrong then answer s p (.wrc (timeAt s p.dst + skew s) true)
  else
    let s := homeWrite s p.attr cells p.src p.who poisoned
    let (t, s) := noteWrite s p
    answer s p (.wrc t false)

/-- One lane's atomic (R24, R25): the value that it returns, and the state. A poisoned word is not written. -/
def homeAtomic (s : State) (p : Packet) (op : Nat) (w64 : Bool) (r : LaneAcc) : State × LaneVal :=
  let n := if w64 then 8 else 4
  let s := prepare s p.attr r.pa n
  let v := laneValue s r.lane r.pa n
  if v.poison != 0 then (s, v)
  else match atomicNew op (8 * n) (v.v.toNat % 2 ^ (8 * n)) (r.v.toNat % 2 ^ (8 * n)) (r.c.toNat % 2 ^ (8 * n)) with
    | some x => (homeWrite s p.attr (cellsAt r.pa (leBytes n x)) p.src p.who false, v)
    | none => (s, v)

/-- Atomics and reductions applied in lane order (R15, R16, R24, R25, R82, R217): one that modifies nothing has no completion time. -/
def applyAtomics (s : State) (p : Packet) (op : BitVec 5) (w64 : Bool) (reqs : List LaneAcc) (returns : Bool) : State :=
  let (s, vals) := reqs.foldl (fun (acc : State × List LaneVal) r =>
    let (s, v) := homeAtomic acc.1 p op.toNat w64 r
    (s, acc.2 ++ [v])) (s, [])
  let (t, s) := if op != 13 && vals.any (·.poison == 0) then noteWrite s p else (0, s)
  answer s p (.atr vals t returns)

/-- What an LDIX does with its index word (R26): a bounds fault (cause 18, subcode 17, as poison 117), or the element's load forwarded; an
element that a system range refuses ends in that range's way (R412, R415). -/
def forwardElement (s : State) (p : Packet) (lane esize : Nat) (signed : Bool) (elemBase pageBase pageSize : Nat) (attr : BitVec 2)
    (index : Nat) : State :=
  let ea : Int := (elemBase : Int) + (if signed then toS 32 index else (index : Int)) * (esize : Int)
  let fail := fun (k : Nat) => answer s p (.rdr [⟨lane, 0, k⟩] 0 [] 0)
  if ea < 0 ∨ ea.toNat % esize ≠ 0 ∨ ea.toNat < pageBase ∨ pageBase + pageSize < ea.toNat + esize then fail 117
  else
    let a := ea.toNat
    match systemStop s a false, destOf s a with
    | some (19, sub), _ => fail (sub + 1)
    | some (_, sub), _ => fail (100 + sub)
    | none, some d => send s { p with src := p.dst, dst := d, relayed := false, planeB := planeOf a, attr := attr, pa := a, sseq := 0, msg := .lxe lane a esize }
    | none, none => fail 116

/-- A hart with zeroed registers, in machine mode (R420, R422). DESIGN CHOICE, log entry 3. -/
def hartInit : Hart where
  pc := 0
  mode := .m
  x := []
  f := []
  v := []
  csr := []
  rd := .x 0
  signed := false
  paths := []
  markers := 0
  till := 0
  next := none

/-- Bytes of a hart's access. -/
def HartOp.bytes : HartOp → Nat
  | .load n | .store n _ => n
  | .fetch => 64
  | .amo _ w64 _ _ | .lr w64 | .sc w64 _ => if w64 then 8 else 4

/-- Whether an operation of a hart writes memory. -/
def HartOp.writes : HartOp → Bool
  | .store _ _ | .sc _ _ | .amo .. => true
  | _ => false

/-- Whether an operation of a hart brings bytes of memory back. -/
def HartOp.reads : HartOp → Bool
  | .store _ _ | .sc _ _ => false
  | _ => true

/-- A hart's access, within one line, applied at its home (R17, R24, R90, R421): plain loads are leased to the shared cache, everything else is
L2ONLY (DESIGN CHOICE, log entry 47). -/
def applyHart (s : State) (p : Packet) (id h pa : Nat) (op : HartOp) : State :=
  let store := fun (s : State) (n x : Nat) => noteWrite (homeWrite s 1 (cellsAt pa (leBytes n x)) p.src (.hart h) false) p
  let value := fun (s : State) (n : Nat) => BitVec.ofNat 512 (leNat (homeBytes s pa n))
  let done := fun (s : State) (v : BitVec 512) (bad : Bool) (t : Nat) (cells : List Host.Cell) (e : Nat) =>
    answer s p (.tx (.hartDone id h pa (if bad then 0 else v) (if bad then .poison else .fine) t cells e))
  match op with
  | .load n =>
    let base := pa / 128 * 128
    let s := prepare s 1 base 128
    let (e, s) := grantLease s pa
    let clean := (List.range 8).filter fun i => !sectorPoisoned s (base + 16 * i)
    let cells := if e = 0 then [] else clean.flatMap fun i => cellsAt (base + 16 * i) (homeBytes s (base + 16 * i) 16)
    done s (value s n) (rangePoisoned s pa n) 0 cells e
  | .fetch =>
    let s := prepare s 1 pa 64
    done s 0 (rangePoisoned s pa 64) 0 (cellsAt pa (homeBytes s pa 64)) 0
  | .store n v => let (t, s) := store s n (v.toNat % 2 ^ (8 * n)); done s 0 false t [] 0
  | .lr w64 =>
    let n := if w64 then 8 else 4
    let s := prepare s 1 pa n
    done { s with reservations := (s.reservations.filter fun r => r.hart != h) ++ [⟨h, pa / 16⟩] } (value s n) (rangePoisoned s pa n) 0 [] 0
  | .sc w64 v =>
    let n := if w64 then 8 else 4
    let held := s.reservations.contains ⟨h, pa / 16⟩
    let s := { s with reservations := s.reservations.filter fun r => r.hart != h }
    if held then let (t, s) := store s n (v.toNat % 2 ^ (8 * n)); done s 0 false t [] 0 else done s 1 false 0 [] 0
  | .amo op w64 _ v =>
    let n := if w64 then 8 else 4
    let s := prepare s 1 pa n
    let old := value s n
    if rangePoisoned s pa n then done s 0 true 0 [] 0
    else match atomicNew op.toNat (8 * n) old.toNat (v.toNat % 2 ^ (8 * n)) 0 with
      | some x => let (t, s) := store s n x; done s old false t [] 0
      | none => done s old false 0 [] 0

/-- A host's access applied at its home as L2ONLY (R20, R414), or a hart's. The snoop filter keeps a line that the host writes back, until a snoop of
it is answered or the host is lost (R91; DESIGN CHOICE, log entry 47). -/
def applyTxHome (s : State) (p : Packet) (b : TxBody) : State :=
  match b with
  | .hostRead id pa len own =>
    let s := prepare s 1 pa len
    let s := if own && !heldByHost s pa && !socketFailed s p.dst then { s with hostHeld := s.hostHeld ++ [pa / 128] } else s
    answer s p (.tx (.hostData id pa (homeBytes s pa len) (rangePoisoned s pa len)))
  | .hostWrite id cells =>
    let (t, s) := noteWrite (homeWrite s 1 cells 28 .other false) p
    answer s p (.tx (.hostDone id t))
  | .hart id h pa op => applyHart s p id h pa op
  | _ => s

/-- A request applied at its home slice (R8, R15). -/
def applyHome (s : State) (p : Packet) : State :=
  match p.msg with
  | .rd reqs lease => applyRead s p reqs lease
  | .wr cells _ check poisoned => applyWrite_ s p cells check poisoned
  | .at op w64 reqs returns => applyAtomics s p op w64 reqs returns
  | .lx lane idx esize signed eb pb ps attr =>
    let s := prepare s p.attr idx 4
    let v := laneValue s lane idx 4
    if v.poison != 0 then answer s p (.rdr [{ v with v := 0 }] 0 [] 0)
    else forwardElement s p lane esize signed eb pb ps attr (v.v.toNat % 2 ^ 32)
  | .lxe lane ea esize =>
    let s := prepare s p.attr ea esize
    answer s p (.rdr [laneValue s lane ea esize] (p.pa / 128) [] 0)
  | .cwb pa => if p.attr = 3 ∨ socketFailed s p.dst = true then s else writeBackLine s pa
  | .tx b => applyTxHome s p b
  | _ => s

/-! ### Snoops -/

/-- A request that waits for the host's answer to a snoop of its line, which is begun if none is (R90, R414). -/
def awaitSnoop (s : State) (h : Hop) (p : Packet) : State :=
  let line := p.pa / 128
  let s := if s.snoops.any fun w => w.1 == line then s else { s with outputs := s.outputs ++ [.snoop line] }
  { s with snoops := s.snoops ++ [(line, timeAt s p.dst, h, p)] }

/-- Requests of a line that waited for a snoop, in their order. -/
def waitingOn (s : State) (line : Nat) : List (Hop × Packet) := (s.snoops.filter fun w => w.1 == line).map fun w => w.2.2

/-! ### System ranges -/

/-- The I/O port that an address leaves by: scale-up port 0 to 15, 16 for host memory, 17 for the pool (R412, R423, DESIGN CHOICE, log entry 14). -/
def portOf (pa : Nat) : Nat := if isWindow pa then pa / 2 ^ 36 % 16 else if isPool pa then 17 else 16

/-- The state of a scale-up port's link; links not listed are up (R423). DESIGN CHOICE, log entry 3. -/
def linkState (s : State) (port : Nat) : LinkState := match s.links18.find? fun l => l.1 == port with | some l => l.2.1 | none => .up

/-- A request to a system range that cannot be served: poison with a subcode, as a value or as the report of a posted access
(R218, R389, R415, R423). -/
def systemFail (s : State) (p : Packet) (sub : Nat) : State :=
  match p.msg with
  | .wr _ _ _ _ | .at _ _ _ false => answer s p (.postErr 19 sub)
  | _ => match answerFor s p.dst sub p with
    | some m => answer s p m
    | none => s

/-- A request that reaches an I/O chiplet: it waits for its answer, or fails at once with a lost host or a link that is down
(R412, R415, R423). -/
def toSystem (s : State) (p : Packet) : State :=
  if isHostMem p.pa && (hostLost s || socketFailed s p.dst) then systemFail s p 2
  else if socketFailed s p.dst then systemFail s p 1
  else if isWindow p.pa && linkState s (portOf p.pa) == .down then systemFail s p 1
  else { s with sysReqs := s.sysReqs ++ [⟨p, portOf p.pa, (outerAddress s p.pa).1, (outerAddress s p.pa).2⟩] }

/-- Whether a write comes from the copy of 64 bytes that may enqueue a record (R358). -/
def recordCopy (s : State) (who : Requester) : Bool :=
  match who with
  | .engine c e seq => match (engineOf s c e).queue.find? fun op => op.seq == seq with
    | some op => op.form == .copy && copyTotal s c e op == 64 && op.src % 64 == 0
    | none => false
  | _ => false

/-- The device address of the aperture. -/
def apertureBase : Nat := 0xFFFFFFFFE0000

/-- Whether some cells are the 64 bytes of one window (R358). -/
def wholeWindow (cells : List Host.Cell) : Bool :=
  match cells with
  | [] => false
  | (pa, _) :: _ => cells.length == 64 && pa % 64 == 0 && cells.zipIdx.all fun e => e.1.1 == pa + e.2

/-- A write of a core, a ladle or a copy engine to the queue aperture (R356, R358): a record's copy enqueues, anything else counts in drop_bad of each
window that it touches. -/
def apertureWrite (s : State) (p : Packet) (cells : List Host.Cell) : State :=
  match cells with
  | [] => s
  | (pa, _) :: _ =>
    if recordCopy s p.who && wholeWindow cells then windowWrite s ⟨.copyEngine, pa - apertureBase, cells.map (·.2)⟩
    else ((cells.map fun c => (c.1 - apertureBase) / 64).dedup).foldl
      (fun s q => windowWrite s ⟨.coreOrLadle, 64 * q, (cells.filter fun c => (c.1 - apertureBase) / 64 == q).map (·.2)⟩) s

/-- A request that reaches the service chiplet for the queue aperture: windows read as zero, writes are answered with the time of their enqueue, which
is noted for markers (R78, R356, R358). -/
def toAperture (s : State) (p : Packet) : State :=
  let t := timeAt s 31 + skew s
  match p.msg with
  | .rd reqs _ => answer s p (.rdr (reqs.map fun r => ⟨r.lane, 0, 0⟩) 0 [] 0)
  | .wr cells _ _ _ => answer (noteCompletion (apertureWrite s p cells) 31 p.src p.planeB t) p (.wrc t false)
  | .at _ _ reqs true => answer s p (.atr (reqs.map fun r => ⟨r.lane, 0, 119⟩) t true)
  | .at _ _ _ false => answer s p (.postErr 18 19)
  | .lxe lane _ _ => answer s p (.rdr [⟨lane, 0, 0⟩] 0 [] 0)
  | .lx lane _ esize signed eb pb ps attr => forwardElement s p lane esize signed eb pb ps attr 0
  | .tx (.hart id h pa op) =>
    let done := fun (s : State) (bad : HartBad) (t : Nat) => answer s p (.tx (.hartDone id h pa 0 bad t [] 0))
    match op with
    | .load _ | .fetch | .lr _ => done s .fine 0
    | .store n v =>
      done (noteCompletion (windowWrite s ⟨.hart h, pa - apertureBase, leBytes n v.toNat⟩) 31 p.src p.planeB t) .fine t
    | _ => done s .fault 0
  | _ => s

/-- A request applied at a target other than a home slice; one of a kind that the target does not serve is answered with poison (R36). -/
def applyRequest (s : State) (p : Packet) : State :=
  if !validRequest p then rejectHere s p
  else if p.dst = 28 ∨ p.dst = 29 then toSystem s p
  else if p.dst = 31 then toAperture s p
  else rejectHere s p

/-! ### Markers -/

/-- Whether a marker must wait at a target other than a home slice for traffic ahead of it (R78, R135, R136, R418). -/
def markerBlocked (s : State) (p : Packet) : Bool :=
  if isCompute p.dst then
    s.teams.any fun t => socketOf t.core == p.dst && t.heldStx.any fun x => x.src == p.src && planeOf x.off == p.planeB
  else s.sysReqs.any fun r => r.pkt.src == p.src && r.pkt.dst == p.dst && r.pkt.planeB == p.planeB &&
    match r.pkt.msg with | .wr _ _ _ _ | .at _ _ _ _ => true | _ => false

/-- A marker answered (R16, R78, R90, R136, R358). -/
def answerMarker (s : State) (p : Packet) : State :=
  let t := if isMemory p.dst || isCompute p.dst || p.dst == 31 then sget 0 s.maxDone (maxKey p.dst p.src p.planeB) else timeAt s p.dst + skew s
  answer s p (.fmr t)

/-! ### Serving a slice -/

/-- A line of a prefetch or a commit that the host holds: its snoop is begun (R90). -/
def beginSnoop (s : State) (a : Arrival) (line : Nat) : State := awaitSnoop s a.hop { a.pkt with pa := line * 128 }

/-- One line or half-line of an arrival served, with its reply after the last (R23, R227). -/
def serveNext (s : State) (a : Arrival) (f : State → Nat → State) (reply : Msg) : State :=
  match a.lines with
  | [] => answer { s with inbox := s.inbox.erase a } a.pkt reply
  | l :: r =>
    let s := f s l
    if r.isEmpty then answer { s with inbox := s.inbox.erase a } a.pkt reply
    else { s with inbox := updWhere (· == a) (fun a => { a with lines := r }) s.inbox }

/-- Whether a request is the host's own, which its snoop filter does not hold back (R414). -/
def fromHost : Msg → Bool
  | .tx (.hostRead ..) | .tx (.hostWrite ..) => true
  | _ => false

/-- An arrival served at its slice (R8, R15, R23, R36, R90, R93, R227). -/
def serveArrival (s : State) (a : Arrival) : State :=
  let p := a.pkt
  let rest := { s with inbox := s.inbox.erase a }
  let held := match a.line with | some l => heldByHost s (l * 128) && !socketFailed s p.dst && !fromHost p.msg | none => false
  match p.msg, a.line with
  | .pf _ _ team tl n, l =>
    if held then beginSnoop s a (l.getD 0) else serveNext s a (fun s l => homePrepare s p.attr (l * 128) 128) (.pfr team tl n)
  | .commit _, l =>
    if held then beginSnoop s a (l.getD 0)
    else serveNext s a (fun s half => { s with rewrites := s.rewrites.filter fun e => e.1 != half }) .commitAck
  | .fm, _ => answerMarker rest p
  | _, _ => if !validRequest p then rejectHere rest p else if held then awaitSnoop rest a.hop p else applyHome rest p

/-- One of a hop's arrivals of a kind that can be applied now, which one being a free choice (R72, R76). DESIGN CHOICE, log entry 2. -/
def serveInbox (mnemonic : String) (s : State) (h : Hop) (kind : Msg → Bool) : Result :=
  match s.inbox.zipIdx.filter fun a => a.1.hop == h && kind a.1.pkt.msg && canServe s a with
  | [] => .refused (.notDue mnemonic)
  | l =>
    let (k, s) := pick s l.length
    match l[k]? with
    | some a => .next (serveArrival s a.1)
    | none => .refused (.notDue mnemonic)

/-- Whether the packet that a hop has brought is of a kind. -/
def brings (s : State) (h : Hop) (kind : Msg → Bool) : Option Nat :=
  match arrived s h with
  | some x => if kind x.pkt.msg then some (x.at_ + hopLatency h) else none
  | none => none

/-- Whether nothing that reached the input of a hop's slice before an instant has still to be accepted (R15). -/
def firstAtInput (s : State) (h : Hop) (t : Nat) : Bool :=
  !isMemory h.dst || s.links.all fun l => l.hop == h || l.hop.dst != h.dst || !inputDue s l.hop
    || match arrived s l.hop with | some x => decide (t ≤ x.at_ + hopLatency l.hop) | none => true

/-- A step of one kind of request at a hop: the packet that has arrived is accepted, by a slice into its order, by any other target at once;
or a slice applies one that it has accepted (R15, R37). A slice accepts what has reached it in the order of its cycles. -/
def onRequest (mnemonic : String) (s : State) (h : Hop) (kind : Msg → Bool) (f : Packet → State → State) : Result :=
  match brings s h kind with
  | some t => if !firstAtInput s h t then .refused (.notDue mnemonic) else onPacket mnemonic s h kind fun p s => if isMemory p.dst then acceptArrival h t p s else f p s
  | none => serveInbox mnemonic s h kind

/-! ### Request packets -/

/-- RD (R8, R14, R15, R17, R18, R20, R21, R27, R28, R39, R81, R90, R412). -/
def execRd (h : Hop) (s : State) : Result := onRequest "RD" s h isRd fun p s => applyRequest s p

/-- WR (R14 to R16, R18, R20, R21, R28, R39, R81, R88, R93, R113), with the write-backs of CWB (R226). -/
def execWr (h : Hop) (s : State) : Result := onRequest "WR" s h isWr fun p s => applyRequest s p

/-- AT (R8, R15, R16, R20, R24, R25, R39, R82). -/
def execAtPkt (h : Hop) (s : State) : Result := onRequest "AT" s h isAtPkt fun p s => applyRequest s p

/-- LX (R15, R26): an index read or a forwarded element read. -/
def execLx (h : Hop) (s : State) : Result := onRequest "LX" s h isLx fun p s => applyRequest s p

/-- A prefetch or a commit that reaches no slice is answered at once. -/
def answerEmpty (p : Packet) (s : State) : State :=
  match p.msg with
  | .pf _ _ team tl n => answer s p (.pfr team tl n)
  | .commit _ => answer s p .commitAck
  | _ => s

/-- PF (R15, R21, R23): the lines that the slice homes are filled one by one, each in its line's order, and one reply is sent. -/
def execPf (h : Hop) (s : State) : Result := onRequest "PF" s h isPf answerEmpty

/-- ICINV_COMMIT (R15, R93, R227): the rewrite masks of the half-lines are cleared one by one, each in its line's order. -/
def execIcinvCommit (h : Hop) (s : State) : Result := onRequest "ICINV_COMMIT" s h isIcinvCommit answerEmpty

/-- FM (R15, R16, R78, R90, R136, R358, R418): a marker that waited at a target is answered, or the next packet is dealt with. -/
def execFm (h : Hop) (s : State) : Result :=
  match s.markers.find? fun p => streamHop p == h && !markerBlocked s p with
  | some p => .next (answerMarker { s with markers := s.markers.erase p } p)
  | none => onRequest "FM" s h isFm fun p s => if markerBlocked s p then { s with markers := s.markers ++ [p] } else answerMarker s p

end Sys2Proof.Machine
end

