-- ==== Sys2Proof/Machine/Replies.lean ====
section
/-! DEFINITION. Replies at their requesters, messages between cores at their banks, and fabric control packets (R36, R40 to R46, R60, R66,
R74 to R76, R78, R85, R113, R132 to R136, R141 to R143, R225, R227). -/

namespace Sys2Proof.Machine

/-! ### Loads, stores and atomics -/

/-- A core's reply packet written to its waiting-table entry, its line kept in the L1 when the home leased it (R40, R74, R75). -/
def dataReply (s : State) (core id : Nat) (vals : List LaneVal) (line : Nat) (cells : List Host.Cell) (expiry : Nat) : State :=
  match entryOf s core id with
  | none => s
  | some e =>
    let keep := expiry != 0 && !e.noInstall.contains line && vals.all fun v => v.poison == 0
    let s := if keep then l1Install s core line expiry cells else s
    entryReply s core id vals (if expiry = 0 then none else some expiry) true

/-- The reply to a PREF (R74, R75, R224). -/
def prefReply (s : State) (core : Nat) (vals : List LaneVal) (line : Nat) (cells : List Host.Cell) (expiry : Nat) : State :=
  match (coreOf s core).prefs.find? fun p => p.1 == line with
  | none => s
  | some p =>
    let s := updCore s core fun c => { c with prefs := c.prefs.erase p }
    if expiry != 0 && !p.2 && vals.all (fun v => v.poison == 0) then l1Install s core line expiry cells else s

/-- A reader goes on with what it has learnt. -/
def runReader (s : State) (id : Nat) : State :=
  match readerOf s id with
  | none => s
  | some r => match r.goal with
    | .line .. => lineRun s r
    | .pref .. => prefRun s r
    | .prefb .. => prefbRun s r
    | .launch .. => launchRun s r
    | .judge .. => judgeRun s r
    | .live .. => liveRun s r

/-- A shard's answer at a reader, which goes on with it (R58, R60, R63). -/
def xlatToReader (s : State) (id vpn : Nat) (ans : XlatAnswer) (gen : Nat) : State :=
  match readerOf s id with
  | some r => runReader (readerXlat s r vpn ans gen) id
  | none => s

/-- What a walk's reference or update has come back with (R55, R62). -/
def walkGot (s : State) (sock id : Nat) (v : Word64) (bad : Bool) : State :=
  updShard s sock fun h => { h with walks := updWhere (fun w => w.id == id) (fun w => { w with got := some (v, bad) }) h.walks }

/-! ### Page requests answered -/

/-- A retry of a page request (R65, R67): its group, its reader or its copy asks again. -/
def retryReq (s : State) (p : PageReq) : State :=
  let parked := fun (x : Nat × Access × PageAnswer) => x.2.2 == .parked p.id
  match p.req.who with
  | .entry core eid ladle =>
    match entryOf s core eid with
    | none => s
    | some e =>
      if !e.groups.any fun g => g.vpn == p.req.vpn && g.st == .parked p.id then s
      else
        let s := updEntry s core eid fun e => { e with groups := updWhere (fun g => g.vpn == p.req.vpn) (fun g => { g with st := .requested }) e.groups }
        showReplay (requestXlat s core eid ladle p.ctx p.req.vpn p.req.va p.req.acc) core e.owner
  | .reader _ id _ => runReader (updReader s id fun r => { r with know := r.know.forget parked }) id
  | .engine c e seq => updOp s c e seq fun op => { op with know := op.know.forget parked }
  | _ => s

/-- A refusal of a page request (R65, R67, R70): subcode 8, or what it is to the reader or the copy that waits. -/
def refuseReq (s : State) (p : PageReq) : State :=
  match p.req.who with
  | .entry core eid _ =>
    match entryOf s core eid with
    | none => s
    | some e => if e.groups.any fun g => g.vpn == p.req.vpn && g.st == .parked p.id then answerXlat s core eid p.req.vpn (.fault 8) s.xlatGen else s
  | .reader _ id _ => runReader (updReader s id fun r => { r with know := r.know.refuse p.id }) id
  | .engine c e seq => updOp s c e seq fun op => { op with know := op.know.refuse p.id }
  | _ => s

/-- A page request that software has answered and whose requester has been told its identifier: the requester acts on the answer, and a refused
request is forgotten (R65, R444). DEDUCED, log entry 31. -/
def settleReq (s : State) (p : PageReq) : State :=
  match p.answer, p.told with
  | some true, true => retryReq s p
  | some false, true => refuseReq { s with pageReqs := s.pageReqs.erase p } p
  | _, _ => s

/-- A page request with what has been learnt of it, acted on once both are known. -/
def noteReq (s : State) (p : PageReq) (f : PageReq → PageReq) : State :=
  settleReq { s with pageReqs := updWhere (· == p) f s.pageReqs } (f p)

/-- A requester told the identifier of its page request (R63). -/
def toldReq (s : State) (who : Requester) (vpn : Nat) (ans : XlatAnswer) : State :=
  match ans with
  | .request id => match s.pageReqs.find? fun p => p.id == id && p.req.who == who && p.req.vpn == vpn && !p.told with
    | some p => noteReq s p fun p => { p with told := true }
    | none => s
  | _ => s

/-- A late copy whose destination an answer has made known is counted (R424). -/
def lateKnown (s : State) (c e seq : Nat) : State :=
  match (engineOf s c e).queue.find? fun op => op.seq == seq with
  | some op => countLate s c e op
  | none => s

/-- A shard's answer at its requester (R58, R60, R63). -/
def xlatReply (s : State) (who : Requester) (vpn : Nat) (ans : XlatAnswer) (gen : Nat) : State :=
  match who with
  | .entry core id _ => answerXlat s core id vpn ans gen
  | .reader _ id _ => xlatToReader s id vpn ans gen
  | .engine c e seq => lateKnown (updOp s c e seq fun op => { op with know := Known.answered s op.ctx op.know vpn ans gen }) c e seq
  | _ => s

/-- What RDR does with its packet. -/
def applyRdr (p : Packet) (s : State) : State :=
  let gen := (p.via.head?.map (·.gen)).getD s.xlatGen
  match p.msg, p.who with
  | .rdr vals line cells expiry, .entry core id _ => dataReply s core id vals line cells expiry
  | .rdr vals line cells expiry, .pref core _ => prefReply s core vals line cells expiry
  | .rdr vals line _ _, .reader _ id _ => runReader (updReader s id fun r => { r with know := r.know.learn line vals }) id
  | .rdr vals line _ _, .engine c e seq => updOp s c e seq fun op => { op with know := op.know.learn line vals }
  | .rdr (v :: _) _ _ _, .walker sock id => walkGot s sock id (BitVec.ofNat 64 v.v.toNat) (v.poison != 0)
  | .xrep vpn ans, who => toldReq (xlatReply s who vpn ans gen) who vpn ans
  | _, _ => s

/-- RDR (R40, R57, R58, R60, R63, R74, R75, R317). -/
def execRdr (h : Hop) (s : State) : Result := onPacket "RDR" s h isRdr applyRdr

/-- An engine's copy after one of its replies (R41, R85): the completion time, which its path keeps too, and what the reply says of the copy's end. -/
def engineReply (s : State) (c e seq : Nat) (path : Path) (t : Nat) (f : CopyOp → CopyOp) : State :=
  let s := updEngine s c e fun g => { g with pathTimes := if t = 0 then g.pathTimes else supd 0 g.pathTimes (pathKey path) (max t) }
  updOp s c e seq fun op => f { op with outstanding := op.outstanding - 1, tMax := max op.tMax t }

/-- A packet of a copy refused by its check word: the copy goes on and ends with a mismatch (R113, R115). -/
def CopyOp.mismatch (op : CopyOp) (wrong : Bool) : CopyOp := { op with mismatched := op.mismatched || wrong }

/-- Poison that a copy meets: it goes on and ends with subcode 6 (R115). A COPYR whose destination word is poison, and a write to a lost
host or a failed die, end so too (R107, R415; DEDUCED, log entry 39). -/
def CopyOp.spoil (op : CopyOp) (bad : Bool) : CopyOp := { op with poisoned := op.poisoned || bad }

/-- A write of a copy that the external switch or its target refuses: it ends the copy as a translation fault does (R115, R418;
DEDUCED, log entry 39). DEDUCED, log entry 39. -/
def CopyOp.refused (op : CopyOp) : CopyOp := { op with fault := if op.fault.isSome then op.fault else some 2 }

/-- The report of a posted access that failed (R218, R389), for each lane of its packet. -/
def postedReport (s : State) (k : AgentKey) (issue pc : Nat) (lanes : BitVec 32) (cause sub va : Nat) : State :=
  ((List.range 32).filter fun l => bit lanes l).foldl (fun s l => deferReport s k issue l (laneEvent cause sub pc va l)) s

/-- What WRC does with its packet. -/
def applyWrc (p : Packet) (s : State) : State :=
  match p.msg, p.who with
  | .wrc t wrong, .engine c e seq => engineReply s c e seq ⟨p.src, p.planeB⟩ t (·.mismatch wrong)
  | .wrc t _, .agent _ k _ _ _ => notePathTime s k ⟨p.src, p.planeB⟩ t
  | .postErr cause sub, .agent _ k issue pc lanes => postedReport s k issue pc lanes cause sub p.va
  | .postErr cause _, .engine c e seq => engineReply s c e seq ⟨p.src, p.planeB⟩ 0 fun op => if cause = 18 then op.refused else op.spoil true
  | .commitAck, .agent core k _ _ _ =>
    let s := updAgent s k fun a => match a.hold with
      | some (.icinv q) => { a with hold := some (.icinv { q with commits := q.commits - 1 }) }
      | _ => a
    icinvCheck s k core
  | _, _ => s

/-- WRC (R41, R113), a failed write's report (R218, R418), and the acknowledgement of an ICINV's commit (R227). -/
def execWrc (h : Hop) (s : State) : Result := onPacket "WRC" s h isWrc applyWrc

/-- What ATR does with its packet. -/
def applyAtr (p : Packet) (s : State) : State :=
  match p.msg, p.who with
  | .atr vals _ _, .walker sock id => walkGot s sock id 0 (vals.any fun v => v.poison != 0)
  | .atr vals t _, .entry core id _ =>
    let s := match entryOf s core id with | some e => notePathTime s e.owner ⟨p.src, p.planeB⟩ t | none => s
    entryReply s core id vals none true
  | .atr vals t _, .agent _ k issue pc _ =>
    let s := notePathTime s k ⟨p.src, p.planeB⟩ t
    vals.foldl (fun s v =>
      if v.poison = 0 then s
      else if v.poison < 100 then deferReport s k issue v.lane (laneEvent 19 (v.poison - 1) pc p.va v.lane)
      else deferReport s k issue v.lane (laneEvent 18 (v.poison - 100) pc p.va v.lane)) s
  | .atr vals t _, .engine c e seq =>
    engineReply s c e seq ⟨p.src, p.planeB⟩ t fun op =>
      if vals.any fun v => decide (100 ≤ v.poison) then op.refused else op.spoil (vals.any fun v => v.poison != 0)
  | _, _ => s

/-- ATR (R25, R40, R41). -/
def execAtr (h : Hop) (s : State) : Result := onPacket "ATR" s h isAtr applyAtr

/-- What PF_REPLY does with its packet. -/
def applyPfReply (p : Packet) (s : State) : State :=
  match p.msg with
  | .pfr team tl n => prefbDone s team tl n
  | _ => s

/-- PF_REPLY (R23, R85, R225): the operation completes with its last reply. -/
def execPfReply (h : Hop) (s : State) : Result := onPacket "PF_REPLY" s h isPfReply applyPfReply

/-! ### Markers -/

/-- A fence with one reply more (R78). -/
def Fence.reply (f : Fence) (id t : Nat) : Fence :=
  if f.id = id ∧ f.sent then { f with replies := f.replies - 1, tMax := max f.tMax t } else f

/-- Whether a fence, the markers of an arrival or a release beside an agent has a number. -/
def hasFence (a : Agent) (id : Nat) : Bool := (fencesHeld a).any (·.id == id) || a.adv.any (·.id == id)

/-- An agent's fences, arrival markers and TLADV operations after a reply from a path, which supersedes the times that stores have returned there
(R41, R78). -/
def markerReply (id t : Nat) (path : Path) (a : Agent) : Agent :=
  { a with
    pathTimes := if hasFence a id then serase a.pathTimes (pathKey path) else a.pathTimes
    hold := match a.hold with | some (.fence f) => some (.fence (f.reply id t)) | x => x
    stepSent := a.stepSent.map fun f => f.reply id t
    adv := updWhere (fun o => o.id == id && o.sent) (fun o => { o with replies := o.replies - 1, tMax := max o.tMax t }) a.adv }

/-- A warp whose arrival markers have all been answered arrives (R132, R136); a deferred event that has come meanwhile is delivered first
(R134, R387). DEDUCED, log entry 39. -/
def arriveIfCounted (s : State) (k : AgentKey) : State :=
  match agentOf s k, teamOf s k.team with
  | some a, some t => match a.stepSent, stepGroupOf a with
    | some f, some n =>
      if f.replies ≠ 0 then s
      else if !a.deferred.isEmpty then updAgent s k fun a => { a with stepSent := none, marker := true }
      else checkGroup (updAgent s k fun a => { a with stepSent := none, stepArrived := true }) (groupKey t n)
    | _, _ => s
  | _, _ => s

/-- A ladle's fence has been answered from a path: the reply supersedes the times of its chiplet's copies there (R41). -/
def engineTimesOver (s : State) (sock : Nat) (path : Path) : State :=
  { s with engines := s.engines.map fun e => (e.1, if e.1 / 8 = sock then { e.2 with pathTimes := serase e.2.pathTimes (pathKey path) } else e.2) }

/-- What FMR does with its packet: one reply more for a fence, a write of the package's own records (R64), or a hart's release (R421). -/
def applyFmr (p : Packet) (s : State) : State :=
  match p.msg, p.who with
  | .fmr t, .device id =>
    { s with devWrites := updWhere (fun w => w.id == id) (fun w => { w with left := w.left - 1, time := max w.time t }) s.devWrites }
  | .fmr t, .hart h =>
    { s with hartRegs := supd hartInit s.hartRegs h fun x => { x with markers := x.markers - 1, till := if x.markers = 0 then x.till else max x.till t } }
  | .fmr t, .fence core id ladle =>
    let us := (s.teams.filter fun t => t.core == core).map (·.uid)
    let path : Path := ⟨p.src, p.planeB⟩
    let s := if ladle then engineTimesOver s (socketOf core) path else s
    let s := { s with agents := updWhere (fun a => us.contains a.key.team) (markerReply id t path) s.agents }
    let waiting := s.agents.filter fun a => us.contains a.key.team && match a.stepSent with | some f => f.id == id | none => false
    waiting.foldl (fun s a => arriveIfCounted s a.key) s
  | _, _ => s

/-- FMR (R78, R132, R136). -/
def execFmr (h : Hop) (s : State) : Result := onPacket "FMR" s h isFmr applyFmr

/-! ### Messages between cores -/

/-- A team of a grid on a core; which of several is a free choice (DESIGN CHOICE, log entry 2). -/
def targetTeam (s : State) (grid core : Nat) : State × Option Team :=
  match s.teams.filter fun t => t.grid == grid && t.core == core with
  | [] => (s, none)
  | [t] => (s, some t)
  | ts => let (k, s) := pick s ts.length; (s, ts[k]?)

/-- Words of a message by their offset and size in bytes. -/
def BankOp.range : BankOp → Nat × Nat
  | .stx off _ _ words => (off, 4 * words.length)
  | .ldf off _ | .ste off _ | .stf off _ | .tagset off | .tagclr off | .tagrd off => (off, 4)
  | .atomx off _ w64 _ _ => (off, if w64 then 8 else 4)

/-- The rule of R133, R142 or R143 that a message breaks at its target, as a cause. -/
def messageCause (t : Team) (op : BankOp) (warp : Nat) : Option Nat :=
  match regionAt t.hdr op.range.1 op.range.2 with
  | none => some 6
  | some r => match op with
    | .stx _ _ _ _ => if r.kind == .step && bit t.hdr.cohortGroups r.group && isMember t r.group warp then none else some 7
    | .atomx _ _ _ _ _ => if r.kind == .step then some 7 else none
    | _ => if r.kind == .tagged then none else some 7

/-- The reply of a bank with a lane's word. -/
def bankReply (s : State) (p : Packet) (lane : Nat) (x : BitVec 128) (bad : Bool) : State := answer s p (.xmr [⟨lane, x, bad.toNat⟩])

/-- A tagged message queued at its word (R141, R142). -/
def remoteWait (p : Packet) (lane issue off : Nat) (from_ : AgentKey) (op : TagOp) (x : Word32) : TagWait :=
  { agent := from_, lane := lane, lanes := 0, issue := issue, word := off, op := op, data := x, dest := .zr
    remote := match p.who with | .entry c id _ => some (c, id) | _ => none }

/-- A message applied at a bank (R127, R133 to R135, R141 to R143). -/
def applyMessage (s : State) (p : Packet) (t : Team) (lane issue : Nat) (from_ : AgentKey) (op : BankOp) : State :=
  match op with
  | .stx off rank _ words =>
    updTeam s t.uid fun t =>
      if (absentLines t off (4 * words.length)).isEmpty then
        match regionAt t.hdr off (4 * words.length) with
        | some r => putNextWords t r off rank words
        | none => t
      else { t with heldStx := t.heldStx ++ [⟨p.src, off, rank, words⟩] }
  | .ldf off keep => bankTag s t.uid (remoteWait p lane issue off from_ (.ldf keep) 0)
  | .ste off x => bankTag s t.uid (remoteWait p lane issue off from_ .ste x)
  | .stf off x => bankTag s t.uid (remoteWait p lane issue off from_ .stf x)
  | .tagset off => bankTag s t.uid (remoteWait p lane issue off from_ .set 0)
  | .tagclr off => bankTag s t.uid (remoteWait p lane issue off from_ .clr 0)
  | .tagrd off => bankTag s t.uid (remoteWait p lane issue off from_ .rd 0)
  | .atomx off code w64 v c =>
    let bad := stepPoisoned t off (if w64 then 8 else 4)
    let (t', old) := bankAtomic t off code.toNat w64 v.toNat c.toNat
    bankReply (updTeam s t.uid fun _ => t') p lane (BitVec.ofNat 128 old) bad

/-- The lanes that an entry's lane stands for go on behind their tagged operation (R235). -/
def wakeRemote (s : State) (core id lane : Nat) : State :=
  match entryOf s core id with
  | none => s
  | some e => match e.reqs.find? fun r => r.lane == lane with
    | some r => wakeTagLanes s e.owner (BitVec.ofNat 32 r.c.toNat)
    | none => s

/-- What XM does with its packet. -/
def applyXm (p : Packet) (s : State) : State :=
  match p.msg with
  | .xm core grid lane op from_ issue pc =>
    if socketFailed s p.dst then answerHere s p.dst 1 p
    else if !validRequest p then rejectHere s p else
    let fail := fun (s : State) (cause : Nat) => answer s p (.xmErr lane cause from_ issue pc ((core + 1) * 2 ^ 20 + op.range.1))
    let s := noteCompletion s p.dst p.src p.planeB (timeAt s p.dst + skew s)
    let (s, t) := targetTeam s grid core
    match t with
    | none => fail s 6
    | some t => match messageCause t op from_.idx with
      | some cause => fail s cause
      | none => applyMessage s p t lane issue from_ op
  | .xmr vals => match p.who with
    | .entry core id _ => entryReply (vals.foldl (fun s v => wakeRemote s core id v.lane) s) core id vals none true
    | _ => s
  | .xmErr lane cause from_ issue pc addr =>
    let s := deferReport s from_ issue lane { mkEvent cause 0 (BitVec.ofNat 32 (2 ^ lane)) pc with addr := addr, deferred := true }
    match p.who with
    | .entry core id _ => entryReply (wakeRemote s core id lane) core id [] none true
    | _ => s
  | _ => s

/-- XM (R39, R127, R130, R133 to R135, R141 to R143, R235, R241): a message at its bank, its reply or its error report at the issuer. -/
def execXm (h : Hop) (s : State) : Result := onPacket "XM" s h isXm applyXm

/-! ### Fabric control -/

/-- What RM does with its packet. -/
def applyRm (p : Packet) (s : State) : State :=
  match p.msg with
  | .rm epoch =>
    let r : Packet := { p with src := p.dst, dst := p.src, relayed := false, sseq := 0, msg := .rma epoch }
    match controlHop s r.src r.dst with
    | some h => emit s h { r with relayed := h.dst != r.dst }
    | none => { s with rmaHeld := s.rmaHeld ++ [r] }
  | _ => s

/-- RM (R46): the route acknowledgement goes the way of a loss notice, or waits for a way. -/
def execRm (h : Hop) (s : State) : Result := onPacket "RM" s h isRm applyRm

/-- What RMA does with its packet. -/
def applyRma (p : Packet) (s : State) : State :=
  match p.msg with
  | .rma epoch =>
    match s.changes.find? fun c => c.epoch == epoch && c.hop.src == p.dst && c.hop.dst == p.src with
    | some c => c.held.foldl send (setBusy { s with changes := s.changes.erase c } c.hop.src c.hop.dst)
    | none => s
  | _ => s

/-- RMA (R46): the change ends, and its held packets leave on the new path. -/
def execRma (h : Hop) (s : State) : Result := onPacket "RMA" s h isRma applyRma

/-- What LC does with its packet. -/
def applyLc (p : Packet) (s : State) : State :=
  match p.msg with
  | .ack lack => acknowledge s ⟨p.dst, p.src, p.planeB⟩ lack
  | _ => s

/-- LC (R36, R38): an acknowledgement without other traffic, of what its sender has accepted on the colour that it names; the pattern of a link's
self-test changes nothing. -/
def execLc (h : Hop) (s : State) : Result := onPacket "LC" s h isLc applyLc

/-- What LOSS_NOTICE does with its packet. -/
def applyLossNotice (p : Packet) (s : State) : State :=
  match p.msg with
  | .loss b => applyLoss s p.dst p.src b
  | _ => s

/-- LOSS_NOTICE (R42, R45). -/
def execLossNotice (h : Hop) (s : State) : Result := onPacket "LOSS_NOTICE" s h isLossNotice applyLossNotice

/-- What RESERVED_PACKET does with its packet at the end of a hop. -/
def applyReservedPacket (h : Hop) (_p : Packet) (s : State) : State :=
  { s with protErr := supd 0 s.protErr h.dst (· + 1) }

/-- RESERVED_PACKET (R36): discarded, acknowledged and counted. -/
def execReservedPacket (h : Hop) (s : State) : Result := onPacket "RESERVED_PACKET" s h isReservedPacket (applyReservedPacket h)

end Sys2Proof.Machine
end

