-- ==== Sys2Proof/Machine/Failures.lean ====
section
/-! DEFINITION. Loss of the host and failure of dies (R28, R48, R91, R398, R399, R415). -/

namespace Sys2Proof.Machine

/-! ### Host lost -/

/-- Every sector of a line marked poisoned at its home (R91). -/
def poisonLine (s : State) (line : Nat) : State :=
  let pa := line * 128
  if socketFailed s (homeSocket s pa) then s
  else
    let s := homePrepare s 1 pa 128
    putLine s pa { lineAt s pa with poison := 0xFF, dirty := 0xFF }

/-- A request released from a snoop of a lost host: reads and atomics with results get poison, the rest is applied (R91, R389). -/
def releaseLost (s : State) (w : Hop × Packet) : State :=
  match w.2.msg with
  | .tx (.hart _ _ _ (.store _ _)) => applyHome s w.2
  | .rd _ _ | .at _ _ _ true | .lx _ _ _ _ _ _ _ _ | .lxe _ _ _ | .tx _ => systemFail s w.2 2
  | _ => applyHome s w.2

/-- Requests to system ranges that wait at an I/O chiplet and that some test names fail (R415, R399, R423). -/
def failSystem (s : State) (hit : SysReq → Bool) (sub : Nat) : State :=
  let gone := s.sysReqs.filter hit
  gone.foldl (fun s r => systemFail s r.pkt sub) { s with sysReqs := s.sysReqs.filter fun r => !hit r }

/-- The host is declared lost (R91, R415). -/
def declareLost (s : State) : State :=
  if hostLost s then s
  else
    let s := regSetBit s .hostcfg 31 true
    let lines := s.hostHeld
    let waits := s.snoops
    let s := lines.foldl poisonLine { s with hostHeld := [], snoops := [] }
    let s := waits.foldl (fun s w => releaseLost s w.2.2) s
    failSystem s (fun r => isHostMem r.pkt.pa) 2

/-! ### Dies -/

/-- Domains with work or harts (R399). -/
def busyDomains (s : State) : List Nat :=
  let work := s.grids.map (·.domain)
  let harts := (List.range 64).filterMap fun h => if regBit s (.sbxDom h) 63 then some (regFld s (.sbxDom h) 5 0) else none
  (List.range 64).filter fun d => (work ++ harts).contains d

/-- The record of a failed die in every domain that it touches (R391, R399). -/
def dieRecords (s : State) (sock : Nat) : State :=
  (busyDomains s).foldl (fun s d => logRecord s { cause := 27, sub := sock, agent := 5, domain := d, socket := sock, time := timeAt s 31 }) s

/-- A grid that a compute chiplet's failure ends, with its record (R391, R396, R398). DEDUCED, log entry 39. -/
def failGrid (s : State) (sock : Nat) (g : Grid) : State :=
  if g.terminated then s
  else
    let team := (s.teams.find? fun t => t.grid == g.id && socketOf t.core == sock).map (·.teamid)
    let s := logRecord s { cause := 27, sub := sock, agent := 5, terminated := true, queue := g.queue, domain := g.domain, socket := sock
                           gridid := g.id, teamid := team.getD 0, tag := g.launch.tag.toNat, time := timeAt s 31 }
    terminateGrid s g.id 27

/-- The answer to requests that wait in the shard of a failed die (R398, R399). -/
def failShard (s : State) (sock : Nat) : State :=
  let sh := shardOf s sock
  let qs := sh.walks.map (·.req) ++ sh.waiting ++ sh.toPost.map (·.1)
  let ans := if isMemory sock then XlatAnswer.fault 9 else .lost
  let s := { s with shards := serase s.shards sock }
  qs.foldl (fun s q => match q.who with
    | .entry core id _ => answerXlat s core id q.vpn ans s.xlatGen
    | .reader _ id _ => xlatToReader s id q.vpn ans s.xlatGen
    | .engine c e seq => updOp s c e seq fun op => { op with know := op.know.learnPage q.vpn (pageAnswer ans s.xlatGen) }
    | _ => s) s

/-- A compute chiplet fails (R398): grids with a team there end; its cores, copies and jobs are gone. -/
def failChiplet (s : State) (sock : Nat) : State :=
  let s := { s with failed := s.failed ||| BitVec.ofNat 32 (2 ^ sock) }
  let there := (s.teams.filter fun t => socketOf t.core == sock).map (·.grid)
  let s := (s.grids.filter fun g => there.contains g.id).foldl (fun s g => failGrid s sock g) s
  let s := { s with
    cores := s.cores.filter fun e => socketOf e.1 != sock
    engines := s.engines.filter fun e => e.1 / 8 != sock
    readers := s.readers.filter fun r => r.sock != sock
    teams := updWhere (fun t => socketOf t.core == sock) (fun t => { t with heldStx := [], tagWaits := [] }) s.teams }
  failShard s sock

/-- The compute chiplets that fail with one: where it runs its group's branch node, the links of the others end at a failed node, and a
failed whisk link is a failure of the chiplet at its lower end (R49, R50). DEDUCED, log entry 19. -/
def failWith (s : State) (sock : Nat) : List Nat :=
  if sget 0 s.branches (sock / 3) ≠ sock + 1 then [sock]
  else sock :: ((List.range 3).map (sock / 3 * 3 + ·)).filter fun i => i != sock && isLive s i && s.powered.getLsbD i && !socketFailed s i

/-- A compute chiplet fails (R49, R50, R398). -/
def failCompute (s : State) (sock : Nat) : State := (failWith s sock).foldl failChiplet s

/-- A memory chiplet fails (R28, R399): its slice is lost with its pins, and what waits for a snoop there is answered; what its slice has accepted
is answered in its turn, with poison. -/
def failMemory (s : State) (sock : Nat) : State :=
  let here := fun (line : Nat) => homeSocket s (line * 128) == sock
  let waits := s.snoops.filter fun w => w.2.2.2.dst == sock
  let s := { s with
    failed := s.failed ||| BitVec.ofNat 32 (2 ^ sock)
    lines := s.lines.filter fun e => !here e.1
    slice := s.slice.filter fun c => !here (c.1 / 128)
    hostHeld := s.hostHeld.filter fun l => !here l
    snoops := s.snoops.filter fun w => w.2.2.2.dst != sock }
  let s := regSet s (.pinstat sock) 17 0 0
  dieRecords (failShard (waits.foldl (fun s w => applyHome s w.2.2.2) s) sock) sock

/-- The sandbox chiplet fails (R399): its harts stop, its cached lines and reservations are dropped. -/
def failSandbox (s : State) : State :=
  dieRecords { s with failed := s.failed ||| BitVec.ofNat 32 (2 ^ 30), harts := 0, sbxLines := [], hartRegs := []
                      hartLines := [], hartOps := [], reservations := [] } 30

/-- The service chiplet fails (R399): the host is told. What else follows comes with the time exchanges that every chiplet misses. -/
def failService (s : State) : State :=
  { s with failed := s.failed ||| BitVec.ofNat 32 (2 ^ 31), outputs := s.outputs ++ [.deviceError] }

/-- A chiplet that has missed three successive time exchanges (R399): the work resident there ends without records, and its clusters hold the
1.90 GHz step halved. -/
def loseMaster (s : State) (sock : Nat) : State :=
  let there := ((s.teams.filter fun t => socketOf t.core == sock).map (·.grid)).dedup
  let s := there.foldl (fun s g => terminateGrid s g 27) s
  if isCompute sock then (List.range 8).foldl (fun s i => regSet s (.clstat (8 * sock + i)) 7 5 1) s else s

/-- A die fails at run time (R48, R398, R399). -/
def failDie (s : State) (sock : Nat) : State :=
  if socketFailed s sock then s
  else if isCompute sock then failCompute s sock
  else if isMemory sock then failMemory s sock
  else if sock = 28 then
    let s := { s with failed := s.failed ||| BitVec.ofNat 32 (2 ^ 28), hostReqs := [], hostDone := [] }
    dieRecords (failSystem (declareLost s) (fun r => r.pkt.dst == 28) 1) 28
  else if sock = 29 then
    dieRecords (failSystem { s with failed := s.failed ||| BitVec.ofNat 32 (2 ^ 29) } (fun r => r.pkt.dst == 29) 1) 29
  else if sock = 30 then failSandbox s
  else failService s

/-- Whether a die of the running package can fail. -/
def running (s : State) (sock : Nat) : Bool := decide (sock < 32) && isLive s sock && s.powered.getLsbD sock && !socketFailed s sock

/-- DIE_FAILURE (R28, R399): a die other than a compute chiplet fails at run time. DESIGN CHOICE, log entry 43. -/
def execDieFailure (sock : Nat) (s : State) : Result :=
  if isCompute sock || !running s sock then .refused (.notDue "DIE_FAILURE") else .next (failDie s sock)

/-- COMPUTE_CHIPLET_FAILURE (R398). -/
def execComputeChipletFailure (sock : Nat) (s : State) : Result :=
  if !isCompute sock || !running s sock then .refused (.notDue "COMPUTE_CHIPLET_FAILURE") else .next (failDie s sock)

/-- DIE_ERROR_REPORT (R399): a die's own monitor reports an uncorrectable internal error. -/
def execDieErrorReport (sock : Nat) (s : State) : Result :=
  if running s sock then .next (failDie s sock) else .refused (.notDue "DIE_ERROR_REPORT")

end Sys2Proof.Machine
end

