-- ==== Sys2Proof/Machine/Links.lean ====
section
/-! DEFINITION. Link retry, dark colours, routes and package time (R38, R42 to R48). -/

namespace Sys2Proof.Machine

/-! ### Retry and loss -/

/-- Whether the oldest unacknowledged packet of a hop has waited 200 ns (R38). -/
def retryDue (s : State) (l : Link) : Bool :=
  match l.unacked with
  | x :: _ => decide (x.at_ + 200 ≤ s.time)
  | [] => false

/-- LINK_RETRY_TIMEOUT (R38, R42): everything unacknowledged is sent again, in order; each packet counts as one resend of R43.
DESIGN CHOICE, log entry 20. -/
def execLinkRetryTimeout (h : Hop) (s : State) : Result :=
  let l := linkOf s h
  if !retryDue s l || decide (8 ≤ l.resends) then .refused (.notDue "LINK_RETRY_TIMEOUT")
  else
    let lack := (linkOf s (reverseHop h)).expected
    let again := l.unacked.map fun x => wrap x.lseq lack s.time x.pkt
    let l := again.foldl putWire { l with unacked := again, resends := l.resends + 1 }
    let r := Reg.route h.src h.dst
    .next (regSet (setLink s l) r 7 0 (saturate 8 (regFld s r 7 0 + again.length)))

/-- A loss notice from the receiver of a dark colour to its sender, where a way exists (R42). -/
def sendNotice (s : State) (h : Hop) : State :=
  match controlHop s h.dst h.src with
  | none => s
  | some c => emit s c { src := h.dst, dst := h.src, relayed := c.dst != h.src, planeB := h.planeB, who := .other, attr := 0, pa := 0, sseq := 0
                         msg := .loss h.planeB }

/-- COLOUR_DARK (R42, R45): the receiver's monitor finds no light, or the eighth resend has not been acknowledged. DESIGN CHOICE, log entry 20. -/
def execColourDark (h : Hop) (optical : Bool) (s : State) : Result :=
  if h.src == h.dst || !decide (h.src < 32 ∧ h.dst < 32) then .refused (.notDue "COLOUR_DARK")
  else
    let l := linkOf s h
    if optical then
      if l.dark then .refused (.notDue "COLOUR_DARK") else .next (sendNotice (setLink s { l with wire := [], dark := true }) h)
    else if retryDue s l && decide (8 ≤ l.resends) then .next (applyLoss s h.src h.dst h.planeB)
    else .refused (.notDue "COLOUR_DARK")

/-! ### Routes -/

/-- Whether R46 refuses a configuration. -/
def routeRefused (s : State) (c : RouteCfg) (i j : Nat) : Bool :=
  let dark := fun (b : Bool) => routeDark s i j b
  let lost := fun (b : Bool) => c.lost.testBit b.toNat
  let both := fun (p : Bool → Bool) => p false || p true
  (c.mode != 0 && c.lost == 0)
    || (c.mode == 0 && both dark)
    || (c.mode == 1 && both fun b => !lost b && dark b)
    || (c.mode == 2 && (c.relay == i || c.relay == j || !isLive s c.relay
        || both fun b => lost b && (routeDark s i c.relay b || routeDark s c.relay j b)))

/-- One half of an accepted change (R46): drained through its old path, or changed at once where it has none. A change toward a socket whose die has
failed sends no RM and is over at once: nothing there can answer one. DEDUCED, log entry 27. -/
def startChange (s : State) (old : Option Hop) (half : Hop) : State :=
  match old with
  | none => s
  | some h =>
    if socketFailed s half.dst then s
    else
      let (epoch, s) := fresh s
      let rm : Packet := { src := half.src, dst := half.dst, relayed := h.dst != half.dst, planeB := half.planeB, who := .other, attr := 0
                           pa := 0, sseq := 0, msg := .rm epoch }
      let (s, rm) := number s rm
      { emit s h rm with changes := s.changes ++ [⟨half, [], epoch, some h⟩] }

/-- The test of a pair's dark colours begun (R44); while one runs, another retest of the pair is ignored (DESIGN CHOICE, log entry 20). -/
def startRetest (s : State) (i j : Nat) (v : Word64) : State :=
  if bit v 13 && !s.retests.any fun r => r.src == i && r.dst == j then
    { s with retests := s.retests ++ [⟨i, j, s.time, routeDark s i j false, routeDark s i j true⟩] }
  else s

/-- A software write to ROUTE_i_j (R43, R44, R46); mode 3 leaves the mode. -/
def writeRoute (s : State) (i j : Nat) (v : Word64) : State :=
  let r := Reg.route i j
  if !regExists r || regBit s r 16 then s
  else
    let old := routeCfg s i j
    let w := regWritten r (regGet s r) v
    let w := if fld v 31 30 = 3 then setFld w 31 30 old.mode else w
    let new : RouteCfg := ⟨fld w 31 30, fld w 29 28, fld w 27 23⟩
    if new == old then startRetest (regPut s r w) i j v
    else if routeRefused s new i j then regSetBit s r 12 true
    else
      let before := fun (b : Bool) => pathUnder s old i j b
      let s := startRetest (regPut s r w) i j v
      let half := fun (s : State) (b : Bool) => if before b == pathUnder s new i j b then s else startChange s (before b) ⟨i, j, b⟩
      flushRma (setBusy (half (half s false) true) i j)

/-- ROUTE_WRITE (R43, R46). -/
def execRouteWrite (i j : Nat) (v : Word64) (s : State) : Result := .next (writeRoute s i j v)

/-- ROUTE_RETEST (R43, R44): a write with retest set. -/
def execRouteRetest (i j : Nat) (v : Word64) (s : State) : Result := .next (writeRoute s i j (setBit v 13 true))

/-- A colour that has passed its test carries traffic again, its link numbers as the receiver expects them. -/
def relight (s : State) (h : Hop) : State :=
  let s := regSetBit s (.route h.src h.dst) (if h.planeB then 14 else 15) false
  updLink s h fun l => { l with wire := [], unacked := [], nextSeq := l.expected, resends := 0, dark := false }

/-- ROUTE_RETEST_DONE (R44): after 10 µs the colours that were tested and whose pattern came back correct are lit again; the mode stays. -/
def execRouteRetestDone (i j : Nat) (okA okB : Bool) (s : State) : Result :=
  match s.retests.find? fun r => r.src == i && r.dst == j with
  | some r =>
    if s.time < r.since + 10000 then .refused (.notDue "ROUTE_RETEST_DONE")
    else
      let s := { s with retests := s.retests.erase r }
      let s := if okA && r.planeA && routeDark s i j false then relight s ⟨i, j, false⟩ else s
      let s := if okB && r.planeB && routeDark s i j true then relight s ⟨i, j, true⟩ else s
      .next (flushRma s)
  | none => .refused (.notDue "ROUTE_RETEST_DONE")

/-! ### Package time -/

/-- One-way delay of a time exchange between a chiplet and the service chiplet, calibrated at boot (R47). DESIGN CHOICE, log entry 50. -/
def exchangeDelay : Nat := 34

/-- Twice the offset that a time exchange finds, by its four times: sent by the master, received and returned by the chiplet, received by the master
(R47). -/
def exchangeOffset (t1 t2 t3 t4 : Int) : Int := (t2 - t1) - (t4 - t3)

/-- The four times of the exchange with a chiplet that ends now, as the counters of the master and of the chiplet show them (R47).
DESIGN CHOICE, log entry 50. -/
def exchangeTimes (s : State) (sock : Nat) : Int × Int × Int × Int :=
  let d : Int := exchangeDelay
  let back : Int := (timeAt s sock : Int) - d
  ((timeAt s 31 : Int) - 2 * d, back, back, timeAt s 31)

/-- The step of that exchange. -/
def exchangeOf (s : State) (sock : Nat) : Instr :=
  let (t1, t2, t3, t4) := exchangeTimes s sock
  .timeExchange sock t1 t2 t3 t4

/-- Whether an exchange with a chiplet is due (R47): 10 µs after its last one; before boot has found the live dies, with every powered chiplet. -/
def exchangeDue (s : State) (sock : Nat) : Bool :=
  decide (sock < 31) && s.powered.getLsbD sock && !socketFailed s sock && (s.boot != .done || isLive s sock)
    && decide ((sget clockInit s.clocks sock).nextExchange ≤ s.time)

/-- An exchange that a chiplet misses, since the master has failed (R399): the third in succession ends its work. -/
def missExchange (s : State) (sock : Nat) (c : Clock) : State :=
  let c := { c with missed := c.missed + 1, nextExchange := s.time + 10000 }
  let s := { s with clocks := sset clockInit s.clocks sock c }
  if c.missed = 3 then loseMaster s sock else s

/-- TIME_EXCHANGE (R47, R48, R399): every 10 µs the measured offset is removed by slewing, half an odd sum rounded down (DESIGN CHOICE, log entry 50);
before release good exchanges are counted, after it an offset beyond half the bound fails the chiplet. Its four times are those that the
counters show: no other exchange is due. -/
def execTimeExchange (sock : Nat) (t1 t2 t3 t4 : Int) (s : State) : Result :=
  let c := sget clockInit s.clocks sock
  if !exchangeDue s sock || exchangeTimes s sock != (t1, t2, t3, t4) then .refused (.notDue "TIME_EXCHANGE")
  else if socketFailed s 31 then .next (missExchange s sock c)
  else
    let num := exchangeOffset t1 t2 t3 t4
    let good := decide (num.natAbs ≤ skew s)
    let c := { c with remove := num / 2, good := if good then c.good + 1 else 0, nextExchange := s.time + 10000, missed := 0 }
    let s := { s with clocks := sset clockInit s.clocks sock c }
    .next (if s.released.getLsbD sock && !good then failDie s sock else s)

/-- One nanosecond of the package reference clock (R47): a chiplet that slews adds 0 or 2 on at most one tick in 1,000. -/
def slewClock (now : Nat) (c : Clock) : Clock :=
  if c.remove = 0 ∨ now < c.lastSlew + 1000 then c
  else
    let d : Int := if 0 < c.remove then 1 else -1
    { c with offset := c.offset - d, remove := c.remove - d, lastSlew := now }

end Sys2Proof.Machine
end

