-- ==== Sys2Proof/Machine/Shards.lean ====
section
/-! DEFINITION. The shards at work: requests, walks, page requests and their answers, invalidation (R52 to R69). -/

namespace Sys2Proof.Machine

/-! ### Requests and walks -/

/-- A shard's answer to a request (R60). -/
def answerShard (s : State) (sock : Nat) (q : XReq) (ans : XlatAnswer) : State :=
  let via := match ans with | .ok x => [⟨q.ctx, x.vaBase, x.size, s.xlatGen⟩] | _ => []
  send s { src := sock, dst := q.from_, relayed := false, planeB := q.planeB, who := q.who, attr := 0, pa := q.vpn, sseq := 0
           msg := .xrep q.vpn ans, via := via }

/-- The end of a walk (R57, R59, R63, R70): the result is kept and answered, or an invalid entry becomes a page request or a fault. -/
def endWalk (s : State) (sock : Nat) (q : XReq) (prq : Bool) (e : WalkEnd) : State :=
  match e with
  | .ok x => answerShard (shardInsert (forgetClosed s q) sock q.ctx q.va x) sock q (.ok x)
  | .fault n => answerShard (forgetClosed s q) sock q (.fault n)
  | .lost => answerShard (forgetClosed s q) sock q .lost
  | .invalid stage ipa =>
    if prq && !q.acc.quiet then
      let (id, s) := newPageReq s sock q stage ipa
      answerShard s sock q (.request id)
    else answerShard (forgetClosed s q) sock q (.fault (if stage = 1 then 2 else 3))

/-- A walk replaced in its shard. -/
def setWalk (s : State) (sock : Nat) (w : Walk) : State :=
  updShard s sock fun h => { h with walks := updWhere (fun x => x.id == w.id) (fun _ => w) h.walks }

def dropWalk (s : State) (sock id : Nat) : State := updShard s sock fun h => { h with walks := h.walks.filter fun x => x.id != id }

/-- A walk's request to the home of an entry: a device access, held in the slice (R52, R55, R90). -/
def sendWalk (s : State) (sock id pa : Nat) (m : Msg) : State :=
  send s { src := sock, dst := homeSocket s pa, relayed := false, planeB := planeOf pa, who := .walker sock id, attr := 1, pa := pa, sseq := 0, msg := m }

/-- A walk ends and gives up its place. -/
def finishWalk (s : State) (sock : Nat) (w : Walk) (e : WalkEnd) : State := endWalk (dropWalk s sock w.id) sock w.req w.prq e

/-- What a walk does next: an update of accessed or dirty that comes first, as an atomic OR (R55), its end, or its next reference, which
fails outside device DRAM (R9, R52, R62). -/
def driveWalk (s : State) (sock : Nat) (w : Walk) : State :=
  match w.ors, w.result, walkAddress w with
  | (pa, v) :: _, _, _ => sendWalk (setWalk s sock w) sock w.id pa (.at 7 true [⟨0, pa, 8, v.setWidth 128, 0⟩] true)
  | [], some (.ok x), _ => finishWalk s sock w (.ok x)
  | [], some (.fault n), _ => finishWalk s sock w (.fault n)
  | [], none, some pa =>
    if dramTop s ≤ pa then finishWalk s sock w (.fault 6) else sendWalk (setWalk s sock w) sock w.id pa (.rd [⟨0, pa, 8, 0, 0⟩] false)
  | [], none, none => s

/-- A walk in its next state, or its end. -/
def walkOn (s : State) (sock : Nat) (w : Walk) (n : WalkNext) : State :=
  match n with
  | .more w => driveWalk s sock w
  | .done e => finishWalk s sock w e

/-- A request served by its shard: a hit, a walk begun, or a place behind the 16 walks that run (R59, R61, R62). -/
def serveRequest (s : State) (sock : Nat) (q : XReq) : State :=
  match shardFind s sock q.ctx q.va q.acc with
  | some x => answerShard s sock q (.ok x)
  | none =>
    if 16 ≤ (shardOf s sock).walks.length then updShard s sock fun h => { h with waiting := h.waiting ++ [q] }
    else
      let (id, s) := fresh s
      match walkBegin s sock q id with
      | .done e => endWalk s sock q false e
      | .more w => driveWalk (updShard s sock fun h => { h with walks := h.walks ++ [w] }) sock w

/-- Misses that waited are served while walks are free (R59). -/
def serveWaiting (sock : Nat) : Nat → State → State
  | 0, s => s
  | fuel + 1, s =>
    match (shardOf s sock).waiting with
    | [] => s
    | q :: r =>
      if 16 ≤ (shardOf s sock).walks.length then s
      else serveWaiting sock fuel (serveRequest (updShard s sock fun h => { h with waiting := r }) sock q)

/-- What TRANSLATION_REQUEST does with its packet. -/
def applyTranslationRequest (p : Packet) (s : State) : State :=
  match p.msg with
  | .xreq ctx vpn va acc =>
    let q : XReq := ⟨p.src, p.planeB, p.who, ctx, vpn, va, acc⟩
    if socketFailed s p.dst then answerShard s p.dst q (if isMemory p.dst then .fault 9 else .lost) else serveRequest s p.dst q
  | _ => s

/-- TRANSLATION_REQUEST (R9, R56, R57, R59 to R61, R398, R399). -/
def execTranslationRequest (h : Hop) (s : State) : Result := onPacket "TRANSLATION_REQUEST" s h isTranslationRequest applyTranslationRequest

/-- What a walk does with what its request under way has brought: an update is done, or an entry has been read (R55, R62). One that an
invalidation has overtaken begins again (R69; DEDUCED, log entry 41). -/
def walkReply (s : State) (sock : Nat) (w : Walk) (v : Word64) (bad : Bool) : State :=
  let next := { w with got := none }
  if w.dropped then walkOn s sock w (walkBegin s sock w.req w.id)
  else match w.ors, walkAddress w with
    | _ :: r, _ => walkOn s sock w (if bad then .done (.fault 9) else .more { next with ors := r })
    | [], some pa => let (s, n) := walkStep s sock next pa v bad; walkOn s sock w n
    | [], none => s

/-- WALK_REFERENCE_REPLY (R9, R52 to R55, R61 to R63, R69, R90): a walk goes on with the reply to its reference or update; when it has
ended, misses that waited are served. -/
def execWalkReferenceReply (sock walk : Nat) (s : State) : Result :=
  match (shardOf s sock).walks.find? fun w => w.id == walk with
  | none => .refused (.notDue "WALK_REFERENCE_REPLY")
  | some w => match w.got with
    | none => .refused (.notDue "WALK_REFERENCE_REPLY")
    | some (v, bad) =>
      let s := walkReply s sock w v bad
      .next (serveWaiting sock ((shardOf s sock).waiting.length + 1) s)

/-! ### Page requests -/

/-- The access code of a page-request record (R64); CWB and ICINV have none in the manual's list, so theirs is free (DESIGN CHOICE, log entry 2). -/
def accessCode (s : State) : Access → State × Nat
  | .read => (s, 0)
  | .write => (s, 1)
  | .fetch => (s, 2)
  | .atomic => (s, 3)
  | .copyRead => (s, 4)
  | .copyWrite => (s, 5)
  | _ => let (k, s) := pick s 8; (s, k)

/-- Requesting socket and unit of a record (R64): the shard's socket for a copy. -/
def requestUnit (sock : Nat) (q : XReq) : Nat × Nat :=
  match q.who with
  | .entry core _ _ | .agent core _ _ _ _ | .pref core _ | .reader core _ _ => (socketOf core, core % 32)
  | .engine _ e _ => (sock, e)
  | _ => (q.from_, 0)

/-- The 32 bytes of a record (R64). -/
def requestRecord (sock : Nat) (q : XReq) (id stage ipa code time : Nat) : List Byte :=
  let (socket, unit) := requestUnit sock q
  leBytes 8 q.va ++ leBytes 8 (ipa / 65536 % 2 ^ 36 * 65536)
    ++ leBytes 8 (id * 2 ^ 48 + q.ctx % 64 * 2 ^ 42 + stage * 2 ^ 40 + code * 2 ^ 37 + socket * 2 ^ 32 + unit * 2 ^ 27) ++ leBytes 8 time

/-- Where a context's next record goes: none when the ring is full or outside device DRAM (R64). DEDUCED, log entry 31. -/
def nextRecord (s : State) (ctx : Nat) : Option Nat :=
  let b := regGet s (.prqbase ctx)
  let n := ringEntries b
  let writing := (writesFor s (.prq ctx)).length
  let tail := regFld s (.prqptr ctx) 31 0 + writing
  let pa := fld b 51 12 * 4096 + 32 * (tail % n)
  if n ≤ (tail + 2 ^ 32 - regFld s (.prqptr ctx) 63 32) % 2 ^ 32 ∨ dramTop s < pa + 32 then none else some pa

/-- PAGE_REQUEST_POST (R64): the first request of a shard whose queue has space is written; one that finds its queue full sets overflow and is held,
again where software has cleared overflow since (DEDUCED, log entry 31). -/
def execPageRequestPost (sock : Nat) (s : State) : Result :=
  let sh := shardOf s sock
  match sh.toPost.find? fun e => (nextRecord s e.1.ctx).isSome with
  | some (q, id, stage, ipa) =>
    match nextRecord s q.ctx with
    | some pa =>
      let (s, code) := accessCode s q.acc
      let s := deviceWrite s sock pa (requestRecord sock q id stage ipa code (timeAt s sock)) (.prq q.ctx)
      .next (updShard s sock fun h => { h with toPost := h.toPost.erase (q, id, stage, ipa) })
    | none => .refused (.notDue "PAGE_REQUEST_POST")
  | none =>
    match sh.toPost.find? fun e => !regBit s (.prqbase e.1.ctx) 63 with
    | some e => .next (regSetBit s (.prqbase e.1.ctx) 63 true)
    | none => .refused (.notDue "PAGE_REQUEST_POST")

/-- PRQ_RECORD_COMPLETE (R64, R419): the record's write has completed at system scope, so tail advances and vector 0 is raised. -/
def execPrqRecordComplete (ctx : Nat) (s : State) : Result :=
  match (writesFor s (.prq ctx)).head? with
  | some w =>
    if !w.over s then .refused (.notDue "PRQ_RECORD_COMPLETE")
    else
      let r := Reg.prqptr ctx
      .next (raiseVector (regSet { s with devWrites := s.devWrites.erase w } r 31 0 ((regFld s r 31 0 + 1) % 2 ^ 32)) ctx 0)
  | none => .refused (.notDue "PRQ_RECORD_COMPLETE")

/-- The page request of a context by its identifier that software has still to answer (R65). -/
def pageReqOf (s : State) (ctx id : Nat) : Option PageReq := s.pageReqs.find? fun p => p.ctx == ctx && p.id == id && p.answer.isNone

/-- A page request answered by software, so that it is not posted any more (R65): it is acted on once its requester has been told its
identifier. DEDUCED, log entry 31. -/
def answerReq (s : State) (p : PageReq) (retry : Bool) : State :=
  noteReq { s with shards := s.shards.map fun e => (e.1, { e.2 with toPost := e.2.toPost.filter fun x => !(x.1.ctx == p.ctx && x.2.1 == p.id) }) } p
    fun p => { p with answer := some retry }

/-- A write to PRRESP_n (R65): other statuses and unknown identifiers are ignored. -/
def writePrresp (s : State) (ctx : Nat) (v : Word64) : State :=
  match pageReqOf s ctx (fld v 15 0) with
  | none => s
  | some p => match fld v 63 62 with
    | 0 => answerReq s p true
    | 1 => answerReq s p false
    | _ => s

/-- PRRESP_RETRY (R65 to R67): a write with status 0. -/
def execPrrespRetry (ctx : Nat) (v : Word64) (s : State) : Result := .next (writePrresp s ctx (setFld v 63 62 0))

/-- PRRESP_REFUSE (R65, R67): a write with status 1. -/
def execPrrespRefuse (ctx : Nat) (v : Word64) (s : State) : Result := .next (writePrresp s ctx (setFld v 63 62 1))

/-! ### Invalidation -/

/-- The command that XLATINV and XLATADDR hold (R68). -/
def invalOf (s : State) : Inval where
  scope := regFld s .xlatinv 62 61
  stage2 := regBit s .xlatinv 60
  ctx := regFld s .xlatinv 59 54
  base := regFld s .xlataddr 63 16 * 65536
  len := (if regFld s .xlataddr 15 0 = 0 then 65536 else regFld s .xlataddr 15 0) * 65536

/-- Translations that a command covers leave what an agent knows (R69). -/
def Inval.forgets (i : Inval) (ctx : Nat) (k : Known) : Known :=
  k.forget fun p => match p.2.2 with | .ok x _ => i.covers ctx x | _ => false

/-- The contents of TLBs, copy engines and shards that a command covers are dropped, and walks that run will begin again (R68, R69).
DEDUCED, log entry 41. -/
def dropCovered (s : State) (i : Inval) : State :=
  { s with
    cores := s.cores.map fun e => (e.1, { e.2 with tlb := e.2.tlb.filter fun t => !i.covers t.ctx t.x })
    readers := s.readers.map fun r => { r with know := i.forgets r.ctx r.know }
    engines := s.engines.map fun e => (e.1, { e.2 with queue := e.2.queue.map fun op => { op with know := i.forgets op.ctx op.know } })
    shards := s.shards.map fun e =>
      (e.1, { e.2 with
        entries := e.2.entries.filter fun t => !i.covers t.ctx t.x
        stage2 := e.2.stage2.filter fun t => !i.covers2 t.1 t.2.2.1
        walks := e.2.walks.map fun w => { w with dropped := true } }) }

/-- A write to XLATINV (R68): ignored while busy; scope 3 is ignored. -/
def writeXlatinv (s : State) (v : Word64) : State :=
  if regBit s .xlatinv 63 || fld v 62 61 == 3 then s
  else
    let s := regSetBit (regPut s .xlatinv (regWritten .xlatinv (regGet s .xlatinv) v)) .xlatinv 63 true
    { dropCovered s (invalOf s) with xlatGen := s.xlatGen + 1, inval := invalOf s }

/-- XLATINV_RANGE (R68): a write with scope 0. -/
def execXlatinvRange (v : Word64) (s : State) : Result := .next (writeXlatinv s (setFld v 62 61 0))

/-- XLATINV_CONTEXT (R68): a write with scope 1. -/
def execXlatinvContext (v : Word64) (s : State) : Result := .next (writeXlatinv s (setFld v 62 61 1))

/-- XLATINV_ALL (R68): a write with scope 2. -/
def execXlatinvAll (v : Word64) (s : State) : Result := .next (writeXlatinv s (setFld v 62 61 2))

/-- Whether a command covers a translation that an access in flight has used, given before the command (R69). -/
def Inval.overtakes (i : Inval) (gen : Nat) (v : Via) : Bool :=
  decide (v.gen < gen) && i.names v.ctx && (i.scope != 0 || i.stage2 || rangesMeet v.vaBase v.size i.base i.len)

/-- The packets of a hop that its receiver has not accepted. -/
def hopPackets (l : Link) : List Packet :=
  (if l.hop.src = l.hop.dst then l.wire.map (·.pkt)
   else (l.unacked.filter fun x => decide ((x.lseq - l.expected).toNat < 128)).map (·.pkt)) ++ l.queued

/-- Every packet that has not been applied at its destination: on its way, accepted by a slice, or waiting for a window, a snoop, the host
or a route. -/
def packetsOut (s : State) : List Packet :=
  s.links.flatMap hopPackets ++ s.inbox.map (·.pkt) ++ s.snoops.map (fun w => w.2.2.2) ++ s.changes.flatMap (·.held) ++ s.sysReqs.map (·.pkt)

/-- Whether an access that a command covers has not been applied at its home (R69). -/
def coveredInFlight (s : State) (i : Inval) : Bool :=
  (packetsOut s).any (fun p => p.via.any (i.overtakes s.xlatGen))
    || s.cores.any fun e => e.2.waiting.any fun w => w.reqs.any fun r =>
      !r.sent && (viaOf (ctxOf s w.owner) [r]).any (i.overtakes s.xlatGen)

/-- XLATINV_COMPLETE (R69). -/
def execXlatinvComplete (s : State) : Result :=
  if !regBit s .xlatinv 63 || (s.shards.any fun e => e.2.walks.any (·.dropped)) || coveredInFlight s s.inval then
    .refused (.notDue "XLATINV_COMPLETE")
  else .next (regSetBit s .xlatinv 63 false)

end Sys2Proof.Machine
end

