-- ==== Sys2Proof/Machine/Upkeep.lean ====
section
/-! DEFINITION. Pins, patrol scrub and error counters of the home slices (R21, R22, R27, R29, R30). -/

namespace Sys2Proof.Machine

/-- Lines of a slice that some test names lose their pins, and PINSTAT.pinned follows (R22). DEDUCED, log entry 42. -/
def unpin (s : State) (n : Nat) (hit : Nat → Bool) : State :=
  let gone := s.lines.filter fun e => e.2.pin && homeSocket s (e.1 * 128) == n && hit e.1
  let s := gone.foldl (fun s e => putLine s (e.1 * 128) { lineAt s (e.1 * 128) with pin := false }) s
  regSet s (.pinstat n) 17 0 (regFld s (.pinstat n) 17 0 - gone.length)

/-- A write to PINCTL_n (R22): ignored while busy; commands 0 and 3 only store the range. DEDUCED, log entry 42. -/
def writePinctl (s : State) (n : Nat) (v : Word64) : State :=
  let r := Reg.pinctl n
  if !regExists r || regBit s r 61 then s
  else
    let s := regPut s r (regWritten r (regGet s r) v)
    let first := fld v 51 16 * 65536
    let len := (if fld v 15 0 = 0 then 65536 else fld v 15 0) * 65536
    match fld v 63 62 with
    | 1 => regSetBit (unpin s n fun line => decide (first ≤ line * 128 ∧ line * 128 < first + len)) r 61 true
    | 2 => regSetBit (unpin s n fun _ => true) r 61 true
    | _ => s

/-- PINCTL_UNPIN_RANGE (R22): a write with command 1. -/
def execPinctlUnpinRange (n : Nat) (v : Word64) (s : State) : Result := .next (writePinctl s n (setFld v 63 62 1))

/-- PINCTL_UNPIN_ALL (R22): a write with command 2. -/
def execPinctlUnpinAll (n : Nat) (v : Word64) (s : State) : Result := .next (writePinctl s n (setFld v 63 62 2))

/-- PINCTL_COMPLETE (R22). DEDUCED, log entry 42. -/
def execPinctlComplete (n : Nat) (s : State) : Result :=
  if regExists (.pinctl n) && regBit s (.pinctl n) 61 then .next (regSetBit s (.pinctl n) 61 false) else .refused (.notDue "PINCTL_COMPLETE")

/-- Half-lines of a memory chiplet's DRAM. -/
def chipletHalves : Nat := chipletBytes / 64

/-- The address of a half-line by its place in a chiplet's DRAM (R10, R29). -/
def halfAddress (s : State) (n k : Nat) : Nat := granuleAddress s (indexOfSocket s n) (k / 4) + 64 * (k % 4)

/-- SCRUB_READ (R27, R29, R30): the next half-line in ascending order; demand requests go first. DESIGN CHOICE, log entry 21. -/
def execScrubRead (n : Nat) (s : State) : Result :=
  let demand := (s.links.any fun l => l.hop.dst == n && (arrived s l.hop).isSome) || s.inbox.zipIdx.any fun a => a.1.hop.dst == n && canServe s a
  if !isMemory n || !running s n || !regBit s .scrubcfg 31 || demand then .refused (.notDue "SCRUB_READ")
  else
    let k := sget 0 s.scrubPos n
    .next (dramCheck { s with scrubPos := sset 0 s.scrubPos n ((k + 1) % chipletHalves) } (halfAddress s n k))

/-- A write to MEMERR_n (R30). DEDUCED, log entry 42. -/
def writeMemerr (s : State) (n : Nat) (v : Word64) : State :=
  let r := Reg.memerr n
  if !regExists r then s
  else
    let s := regPut s r (regWritten r (regGet s r) v)
    if bit v 38 then regSet s r 63 40 0 else s

/-- MEMERR_CLEAR (R30): a write with clear set. -/
def execMemerrClear (n : Nat) (v : Word64) (s : State) : Result := .next (writeMemerr s n (setBit v 38 true))

end Sys2Proof.Machine
end

