-- ==== Sys2Proof/Machine/HostLink.lean ====
section
/-! DEFINITION. The host port, snoops, system-range answers, scale-up links and pacing (R90, R91, R412 to R418, R423, R424). -/

namespace Sys2Proof.Machine

/-! ### Host requests -/

/-- Whether an identity-table entry admits a request (R416). -/
def hidAdmits (s : State) (host pa len : Nat) (write : Bool) (k : Nat) : Bool :=
  let e := regGet s (.hidtab k)
  let first := fld e 23 12 * 2 ^ 30
  bit e 63 && fld e 47 36 == host && bit e (if write then 62 else 61) && decide (first ≤ pa ∧ pa + len ≤ first + fld e 11 0 * 2 ^ 30)

/-- Whether some entry admits a request (R416). -/
def admitted (s : State) (host pa len : Nat) (write : Bool) : Bool := (List.range 64).any (hidAdmits s host pa len write)

/-- A refused request counted and recorded in HIDSTAT (R417). -/
def refuseHost (s : State) (host pa : Nat) : State :=
  let r := Reg.hidstat
  let s := regSet s r 63 32 (saturate 32 (regFld s r 63 32 + 1))
  regSet (regSet (regSetBit s r 30 true) r 23 12 host) r 11 0 (pa / 2 ^ 30)

/-- Lines of 128 bytes that a range touches. -/
def linesOfRange (pa n : Nat) : List Nat := if n = 0 then [] else (List.range ((pa + n - 1) / 128 + 1 - pa / 128)).map (pa / 128 + ·)

/-- Something that the package sends out. -/
def emitOut (s : State) (o : Output) : State := { s with outputs := s.outputs ++ [o] }

/-- Whether the host port is up on a live I/O chiplet A. -/
def hostPort (s : State) : Bool := s.hostUp && running s 28

/-- A part of a range that lies in a line: its address and length. -/
def partOfLine (pa n line : Nat) : Nat × Nat :=
  let first := max pa (line * 128)
  (first, min (pa + n) (line * 128 + 128) - first)

/-- A host's or a hart's access sent to its target (R36, R414, R421). -/
def sendTx (s : State) (src dst pa : Nat) (b : TxBody) : State :=
  send s { src := src, dst := dst, relayed := false, planeB := planeOf pa, who := .other, attr := 1, pa := pa, sseq := 0, msg := .tx b }

/-- A host's access that its homes have to apply, one packet for each line (R414). -/
def beginHost (s : State) (host pa n : Nat) (write : Bool) (body : Nat → Nat → Nat × Nat → TxBody) : State :=
  let (id, s) := fresh s
  let lines := linesOfRange pa n
  let s := { s with hostReqs := s.hostReqs ++ [⟨id, host, pa, n, write, lines.length, [], false, 0⟩] }
  lines.foldl (fun s l => let part := partOfLine pa n l; sendTx s 28 (homeSocket s part.1) part.1 (body id l part)) s

/-- A host's read of device memory (R9, R414, R416, R417): refused by the identity table, beyond DRAM, or sent to its homes. -/
def readHost (s : State) (q : HostRead) : State :=
  if !admitted s q.host q.pa q.len false then emitOut (refuseHost s q.host q.pa) (.hostData q.host q.pa [] true)
  else if dramTop s < q.pa + q.len then emitOut s (.hostData q.host q.pa [] true)
  else beginHost s q.host q.pa q.len false fun id _ part => .hostRead id part.1 part.2 q.own

/-- HOST_MEM_READ (R9, R414, R416, R417). DESIGN CHOICE, log entry 43. -/
def execHostMemRead (q : HostRead) (s : State) : Result :=
  if !hostPort s || q.len == 0 then .refused (.notDue "HOST_MEM_READ") else .next (readHost s q)

/-- A host's write to device memory (R9, R414, R416, R417): refused by the identity table, beyond DRAM, or sent to its homes. -/
def writeHost (s : State) (q : HostWrite) : State :=
  let n := q.bytes.length
  if !admitted s q.host q.pa n true then emitOut (refuseHost s q.host q.pa) (.hostDone q.host q.pa)
  else if dramTop s < q.pa + n then emitOut s (.hostData q.host q.pa [] true)
  else beginHost s q.host q.pa n true fun id l _ => .hostWrite id ((cellsAt q.pa q.bytes).filter fun c => c.1 / 128 == l)

/-- HOST_MEM_WRITE (R9, R414, R416, R417). DESIGN CHOICE, log entry 43. -/
def execHostMemWrite (q : HostWrite) (s : State) : Result :=
  if !hostPort s || q.bytes.length == 0 then .refused (.notDue "HOST_MEM_WRITE") else .next (writeHost s q)

/-- A home's answer to one line of a host's access; the last one answers the access, a write with its completion still to come (R414). -/
def hostAnswer (s : State) (id : Nat) (cells : List Host.Cell) (poison : Bool) (t : Nat) : State :=
  match s.hostReqs.find? fun r => r.id == id with
  | none => s
  | some r =>
    let r : HostReq := { r with left := r.left - 1, cells := r.cells ++ cells, poison := r.poison || poison, time := max r.time t }
    if r.left ≠ 0 then { s with hostReqs := updWhere (fun x => x.id == id) (fun _ => r) s.hostReqs }
    else
      let s := { s with hostReqs := s.hostReqs.filter fun x => x.id != id }
      if r.write then { s with hostDone := s.hostDone ++ [⟨r.host, r.pa, r.time⟩] }
      else
        let byte := fun (a : Nat) => ((r.cells.find? fun c => c.1 == a).map (·.2)).getD 0
        emitOut s (.hostData r.host r.pa ((List.range r.len).map fun i => byte (r.pa + i)) r.poison)

/-- HOST_WRITE_COMPLETION (R414): package time at the home has passed the write's completion time. -/
def execHostWriteCompletion (n : Nat) (s : State) : Result :=
  match s.hostDone[n]? with
  | some d =>
    if timeAt s (homeSocket s d.pa) ≤ d.time then .refused (.notDue "HOST_WRITE_COMPLETION")
    else .next (emitOut { s with hostDone := s.hostDone.eraseIdx n } (.hostDone d.host d.pa))
  | none => .refused (.notDue "HOST_WRITE_COMPLETION")

/-! ### Snoops and loss of the host -/

/-- SNOOP_RESPONSE (R90, R414): the host gives the line back, and what waited for it is applied in order. -/
def execSnoopResponse (line : Nat) (cells : List (Nat × Byte)) (s : State) : Result :=
  if !s.snoops.any fun w => w.1 == line then .refused (.notDue "SNOOP_RESPONSE")
  else
    let waits := waitingOn s line
    let mine := cells.filter fun c => c.1 / 128 == line
    let s := { s with hostHeld := s.hostHeld.filter (· != line), snoops := s.snoops.filter fun w => w.1 != line }
    let s := homeWrite s 1 mine 28 .other false
    .next (waits.foldl (fun s w => applyHome s w.2) s)

/-- Whether the host holds a line of a range that the package is to read (R90, R414). -/
def hostHolds (s : State) (pa n : Nat) : Bool := (linesOfRange pa n).any fun l => heldByHost s (l * 128)

/-- The lines of a range that the host holds are snooped for a read by a die of the package; with every snoop on its way, the step is not due
(R90, R414). -/
def snoopRange (name : String) (s : State) (sock pa n : Nat) : Result :=
  let ls := (linesOfRange pa n).filter fun l => heldByHost s (l * 128) && !s.snoops.any fun w => w.1 == l
  let read := fun (s : State) (l : Nat) =>
    let p : Packet := ⟨sock, homeSocket s (l * 128), false, planeOf (l * 128), .other, 1, l * 128, 0, .rd [] false, 0, [], 0⟩
    awaitSnoop s ⟨p.src, p.dst, p.planeB⟩ p
  if ls.isEmpty then .refused (.notDue name) else .next (ls.foldl read s)

/-- SNOOP_TIMEOUT (R91, R415): 10 ms without an answer. -/
def execSnoopTimeout (line : Nat) (s : State) : Result :=
  if s.snoops.any fun w => w.1 == line && decide (w.2.1 + 10000000 ≤ timeAt s w.2.2.2.dst) then .next (declareLost s)
  else .refused (.notDue "SNOOP_TIMEOUT")

/-- HOST_LINK_L0_CHANGE (R415). -/
def execHostLinkL0Change (up : Bool) (s : State) : Result :=
  if up == s.hostUp then .refused (.notDue "HOST_LINK_L0_CHANGE")
  else .next { s with hostUp := up, hostDownSince := timeAt s 28 }

/-- HOST_LINK_TIMEOUT (R91, R415): out of L0 for lost_ms, of which 0 acts as 1. -/
def execHostLinkTimeout (s : State) : Result :=
  if s.hostUp || hostLost s || decide (timeAt s 28 < s.hostDownSince + 1000000 * max 1 (regFld s .hostcfg 15 0)) then
    .refused (.notDue "HOST_LINK_TIMEOUT")
  else .next (declareLost s)

/-- MGMT_DECLARE_HOST_LOST (R91, R415, R427). -/
def execMgmtDeclareHostLost (s : State) : Result := .next (declareLost s)

/-- A write to HOSTCFG (R415): rearm clears lost when the link is in L0. -/
def writeHostcfg (s : State) (v : Word64) : State :=
  let s := regPut s .hostcfg (regWritten .hostcfg (regGet s .hostcfg) v)
  if bit v 30 && s.hostUp && !socketFailed s 28 then regSetBit s .hostcfg 31 false else s

/-- HOSTCFG_REARM (R415): a write with rearm set. -/
def execHostcfgRearm (v : Word64) (s : State) : Result := .next (writeHostcfg s (setBit v 30 true))

/-- A write to HIDSTAT (R417). -/
def writeHidstat (s : State) (v : Word64) : State :=
  if bit v 31 then regSetBit (regSet s .hidstat 63 32 0) .hidstat 30 false else s

/-- HIDSTAT_CLEAR (R417): a write with clear set. -/
def execHidstatClear (v : Word64) (s : State) : Result := .next (writeHidstat s (setBit v 31 true))

/-! ### Answers from outside -/

/-- The values that an answer's bytes give to the lanes of a request, in order; a lane without bytes gets poison. -/
def replyValues : List (Nat × Nat) → List Byte → List LaneVal
  | [], _ => []
  | (lane, n) :: r, bs =>
    (if bs.length < n then ⟨lane, 0, 1⟩ else ⟨lane, BitVec.ofNat 128 (leNat (bs.take n)), 0⟩) :: replyValues r (bs.drop n)

/-- Lanes and sizes of a request. -/
def requestLanes : Msg → List (Nat × Nat)
  | .rd reqs _ | .at _ _ reqs _ => reqs.map fun r => (r.lane, r.size)
  | .lxe lane _ esize => [(lane, esize)]
  | .lx lane _ _ _ _ _ _ _ => [(lane, 4)]
  | _ => []

/-- An answer from outside to a hart's access (R412, R421): a refused one is an access to no memory, and one without its bytes brings poison. -/
def systemHart (s : State) (p : Packet) (r : SystemReply) (id h pa : Nat) (op : HartOp) : State :=
  let n := if op.reads then op.bytes else 0
  let bad : HartBad := if r.refused then .fault else if r.poison || decide (r.data.length < n) then .poison else .fine
  let bs := if bad = .fine then r.data.take n else []
  let fetched := match op with | .fetch => true | _ => false
  answer s p (.tx (.hartDone id h pa (BitVec.ofNat 512 (leNat bs)) bad (if op.writes && !r.refused then timeAt s p.dst + skew s else 0)
    (if fetched then cellsAt pa bs else []) 0))

/-- An answer to a request that waits at an I/O chiplet (R218, R238, R239, R412, R418): a refusal is subcode 16, for a posted access 18. -/
def systemAnswer (s : State) (p : Packet) (r : SystemReply) : State :=
  let t := timeAt s p.dst + skew s
  let lanes := requestLanes p.msg
  let vals := if r.refused then lanes.map fun l => ⟨l.1, 0, 116⟩ else if r.poison then lanes.map fun l => ⟨l.1, 0, 1⟩ else replyValues lanes r.data
  match p.msg with
  | .rd _ _ | .lxe _ _ _ => answer s p (.rdr vals (p.pa / 128) [] 0)
  | .wr _ _ _ _ => if r.refused then answer s p (.postErr 18 18) else answer s p (.wrc t false)
  | .at _ _ _ true => answer s p (.atr vals t true)
  | .at _ _ _ false => if r.refused then answer s p (.postErr 18 18) else answer s p (.atr [] t false)
  | .lx lane _ esize signed eb pb ps attr =>
    match vals with
    | v :: _ => if v.poison = 0 then forwardElement s p lane esize signed eb pb ps attr (v.v.toNat % 2 ^ 32) else answer s p (.rdr [v] 0 [] 0)
    | [] => s
  | .tx (.hart id h pa op) => systemHart s p r id h pa op
  | _ => s

/-- SYSTEM_RANGE_REPLY (R78, R412, R418, R423): requests wait while their scale-up link recovers. DESIGN CHOICE, log entry 15. -/
def execSystemRangeReply (n : Nat) (r : SystemReply) (s : State) : Result :=
  match s.sysReqs[n]? with
  | some q =>
    if q.port < 16 ∧ linkState s q.port ≠ .up then .refused (.notDue "SYSTEM_RANGE_REPLY")
    else .next (systemAnswer { s with sysReqs := s.sysReqs.eraseIdx n } q.pkt r)
  | none => .refused (.notDue "SYSTEM_RANGE_REPLY")

/-! ### Scale-up -/

/-- A port's link in a new state; requests through a link that is down fail (R423). -/
def setLinkState (s : State) (port : Nat) (st : LinkState) : State :=
  let rest := s.links18.filter fun l => l.1 != port
  let s := { s with links18 := if st = .up then rest else (port, st, s.time) :: rest }
  if st = .down then failSystem s (fun r => r.port == port) 1 else s

/-- SCALEUP_LINK_STATE (R423). -/
def execScaleupLinkState (port : Nat) (st : LinkState) (s : State) : Result :=
  if 16 ≤ port ∨ linkState s port = st then .refused (.notDue "SCALEUP_LINK_STATE") else .next (setLinkState s port st)

/-- SCALEUP_RECOVERY_TIMEOUT (R423): a link that has been recovering for 50 ms goes down. -/
def execScaleupRecoveryTimeout (port : Nat) (s : State) : Result :=
  if s.links18.any fun l => l.1 == port && l.2.1 == .recovering && decide (l.2.2 + 50000000 ≤ s.time) then .next (setLinkState s port .down)
  else .refused (.notDue "SCALEUP_RECOVERY_TIMEOUT")

/-- PACE_PERIOD_END (R424): every 50 µs the lag is sent and the pace decided; without an enabled pacing neither happens. DEDUCED, log entry 22. -/
def execPacePeriodEnd (s : State) : Result :=
  if timeAt s 31 < s.lastPace + 50000 then .refused (.notDue "PACE_PERIOD_END")
  else
    let next := { s with lastPace := timeAt s 31, lateCopies := 0, lags := [] }
    if !regBit s .pacecfg 31 then .next next
    else
      let l := (s.lags.max?).getD 0
      let hi := regFld s .pacecfg 15 8
      let lo := regFld s .pacecfg 7 0
      let p := regFld s .pacestat 3 0
      let p := if l > hi ∧ s.lastL > hi then min 15 (p + 1) else if l < lo ∧ s.lastL < lo then p - 1 else p
      .next (emitOut (regSet { next with lastL := l } .pacestat 3 0 p) (.lag s.lateCopies))

/-- LAG_WORD_RECEIVE (R424): ignored while pacing is off. DEDUCED, log entry 22. -/
def execLagWordReceive (lag : Nat) (s : State) : Result := .next (if regBit s .pacecfg 31 then { s with lags := s.lags ++ [lag] } else s)

/-- A write to PACECFG (R424): switching pacing on clears last_L, off holds the pace at 0. -/
def writePacecfg (s : State) (v : Word64) : State :=
  let was := regBit s .pacecfg 31
  let s := regPut s .pacecfg (regWritten .pacecfg (regGet s .pacecfg) v)
  if !regBit s .pacecfg 31 then regSet { s with lags := [] } .pacestat 3 0 0
  else if !was then { s with lastL := 0 } else s

/-- PACECFG_WRITE (R424). -/
def execPacecfgWrite (v : Word64) (s : State) : Result := .next (writePacecfg s v)

end Sys2Proof.Machine
end

