-- ==== Sys2Proof/Machine/Power.lean ====
section
/-! DEFINITION. Power: shelf telemetry, the droop curve, shedding, charge balance, permits and droop detection (R369 to R385, R446). -/

namespace Sys2Proof.Machine

/-! ### Telemetry and the curve -/

/-- SHELF_SAMPLE (R376): a sample whose frame fails its check is discarded. -/
def execShelfSample (f v : BitVec 16) (good : Bool) (s : State) : Result :=
  if !good then .next s
  else
    let r := Reg.shelfstat
    let s := regSet (regSet (regSet s r 47 32 f.toNat) r 31 16 v.toNat) r 15 0 ((regFld s r 15 0 + 1) % 65536)
    .next { regSetBit s r 48 false with lastSample := timeAt s 31 }

/-- TELEMETRY_STALE (R375, R376): no sample for stale_us, of which values below 300 act as 300. -/
def execTelemetryStale (s : State) : Result :=
  if regBit s .shelfstat 48 || decide (timeAt s 31 < s.lastSample + 1000 * max 300 (regFld s .pwrcfg 47 32)) then
    .refused (.notDue "TELEMETRY_STALE")
  else .next { regSetBit s .shelfstat 48 true with staleSince := timeAt s 31 }

/-- A curve point's run state. -/
def curveRun (s : State) (k : Nat) : Option CurveRun := sget none s.curve k

def setCurveRun (s : State) (k : Nat) (r : Option CurveRun) : State := { s with curve := sset none s.curve k r }

/-- A write to DROOP_CURVE_k (R377, R378): clearing valid deactivates the point at once. -/
def writeCurve (s : State) (k : Nat) (v : Word64) : State :=
  let r := Reg.droopCurve k
  if !regExists r then s
  else
    let s := regPut s r (regWritten r (regGet s r) v)
    if regBit s r 63 then s else regSetBit (setCurveRun s k none) .shedState (48 + k) false

/-- DROOP_CURVE_WRITE (R377, R378). -/
def execDroopCurveWrite (k : Nat) (v : Word64) (s : State) : Result := .next (writeCurve s k v)

/-- Whether a point triggers (R378). -/
def curveTrigger (s : State) (k : Nat) : Bool :=
  let w := regGet s (.droopCurve k)
  let below := fun (hi lo have_ : Nat) => fld w hi lo != 0 && decide (have_ < fld w hi lo)
  if regBit s .shelfstat 48 then bit w 62
  else below 47 32 (regFld s .shelfstat 47 32) || below 31 16 (regFld s .shelfstat 31 16)

/-- A point's run state after an evaluation at a boundary (R378). -/
def curveEvaluate (s : State) (now k : Nat) : Option CurveRun :=
  let cause := if regBit s .shelfstat 48 then s.staleSince else s.lastSample
  if !regBit s (.droopCurve k) 63 then none
  else match curveTrigger s k, curveRun s k with
    | true, none => some ⟨cause, none⟩
    | true, some r => some { r with clearSince := none }
    | false, none => none
    | false, some r =>
      let since := r.clearSince.getD cause
      if since + 1000 * regFld s .pwrcfg 63 48 ≤ now then none else some { r with clearSince := some since }

/-- The points evaluated, and SHED_STATE after them (R378, R381). -/
def evaluateCurve (s : State) (now : Nat) : State :=
  let runs := (List.range 8).map fun k => (k, curveEvaluate s now k)
  let s := runs.foldl (fun s e => setCurveRun s e.1 e.2) s
  let active := runs.filterMap fun e => if e.2.isSome then some e.1 else none
  let shed := active.foldl (fun m k => m ||| regFld s (.droopCurve k) 61 59) 0
  let caps := (active.map fun k => regFld s (.droopCurve k) 11 0).filter (· != 0)
  let bits := active.foldl (fun m k => m + 2 ^ k) 0
  regSet (regSet (regSet s .shedState 55 48 bits) .shedState 47 45 shed) .shedState 11 0 (caps.min?.getD 0)

/-! ### Shedding -/

/-- The class of an agent's grid. -/
def classOfAgent (s : State) (a : Agent) : Nat := match gridOfAgent s a.key with | some g => g.cls | none => 0

/-- Whether an agent is parked under R380: at a SAFE, or before its arrival at a STEP. -/
def parkedForShed (s : State) (a : Agent) : Bool :=
  classShed s (classOfAgent s a) && ((match a.hold with | some (.safePark _) => true | _ => false) || ((stepGroupOf a).isSome && !a.stepArrived))

/-- Whether an agent can issue: nothing holds it and a lane is ready (R345, R351). -/
def canIssue (a : Agent) : Bool := !a.ended && !a.marker && (a.hold.isNone || a.hold == some .lacking) && !(candidates a).isEmpty

/-- SHED_STATE.complete follows the agents of the shed classes (R380, R381). -/
def refreshComplete (s : State) : State :=
  let busy := regFld s .shedState 47 45 != 0 && s.agents.any fun a => canIssue a && classShed s (classOfAgent s a)
  if regBit s .shedState 43 == !busy then s else regSetBit s .shedState 43 (!busy)

/-- Agents whose parking has lost its reason go on: those at a SAFE are ready, those before a STEP arrive (R380, R382, R400). -/
def releaseParked (s : State) (hit : State → Agent → Bool) : State :=
  let keys := (s.agents.filter fun a => hit s a).map (·.key)
  keys.foldl (fun s k =>
    let asked := match agentOf s k, gridOfAgent s k with
      | some _, some g => parksAtSafe s g (isLadle k)
      | _, _ => true
    let s := updAgent s k fun a => match a.hold with
      | some (.safePark _) => if asked then a else { a with hold := none, live := none }
      | some (.fence f) => match f.cont with
        | .safePark _ => if asked then a else { a with hold := some (.fence { f with cont := .none }), live := none }
        | _ => a
      | _ => a
    tryArrive s k) s

/-- Classes that enter shed_mask begin their count, and those that leave it are restored (R380, R382). -/
def shedAndRestore (before s : State) (now : Nat) : State :=
  let was := fun (c : Nat) => classShed before c
  let s := [1, 2, 3].foldl (fun (s : State) c =>
    if classShed s c && !was c then { s with shedSince := serase (sinsert s.shedSince c now) (8 + c) }
    else if !classShed s c && was c then { s with shedSince := serase (serase s.shedSince c) (8 + c) }
    else s) s
  if [1, 2, 3].any fun c => was c && !classShed s c then
    releaseParked s fun s a => was (classOfAgent s a) && !classShed s (classOfAgent s a)
  else s

/-- Whether 500 µs have passed since a class was shed, and its deadline has not been noted (R380). -/
def deadlineDue (s : State) (c : Nat) : Bool :=
  classShed s c && !shedDeadline s c && match slookup s.shedSince c with
    | some t => decide (t + 500000 ≤ timeAt s 31)
    | none => false

/-- SHED_SAFE_DEADLINE (R380): 500 µs after a class was shed its warps park at SAFE too. -/
def execShedSafeDeadline (s : State) : Result :=
  match [1, 2, 3].find? (deadlineDue s) with
  | some c => .next { s with shedSince := sinsert s.shedSince (8 + c) 1 }
  | none => .refused (.notDue "SHED_SAFE_DEADLINE")

/-! ### Balance, permits and clocks -/

/-- Whether a cluster's droop detector holds its clock halved (R374). -/
def droopHalved (s : State) (c : Nat) : Bool := (sget clusterInit s.clusters c).halvedUntil.isSome

/-- CLSTAT.halved follows the throttle and the detector (R373, R385). -/
def showHalved (s : State) (c : Nat) : State := regSetBit s (.clstat c) 5 (regBit s (.clstat c) 4 || droopHalved s c)

/-- The balance of one cluster (R372, R373): its load, its ballast and whether it is throttled. -/
def setBalance (s : State) (c load ballast : Nat) (throttled : Bool) : State :=
  let r := Reg.clstat c
  showHalved (regSetBit (regSet (regSet s r 63 48 (saturate 16 load)) r 47 32 (saturate 16 ballast)) r 4 throttled) c

/-- Ballast and throttle of a stacked pair from the loads of its clusters (R372). -/
def balancePair (s : State) (loads : Nat → Nat) (p : Nat) : State :=
  let l := 2 * p
  let h := 2 * p + 1
  let (low, high) := if loads l ≤ loads h then (l, h) else (h, l)
  let aLow := loads low
  let aHigh := loads high
  let b := min (fld (budgetInForce s low) 63 48) (aHigh - aLow - aHigh / 20)
  let throttle := decide (aLow + b < aHigh - aHigh / 10)
  setBalance (setBalance s low aLow b false) high aHigh 0 throttle

/-- Whether a cluster claims boost (R383). -/
def claims (s : State) (c : Nat) : Bool :=
  s.agents.any fun a => !isLadle a.key && !a.ended && !parkedForShed s a && match teamOf s a.key.team with
    | some t => clusterOf t.core == c && (match gridOf s t.grid with | some g => g.boost | none => false)
    | none => false

/-- Refill, claims and grants of a stacked pair (R383, R384). -/
def grantPair (s : State) (p : Nat) : State :=
  let l := 2 * p
  let h := 2 * p + 1
  let r := Reg.permits p
  let step := fun (c : Nat) => regFld s (.clstat c) 7 6
  let permits := regFld s r 23 16
  let refill := regFld s r 13 12
  let rr := regBit s r 11
  let clear := step l == 0 && step h == 0
  let (refill, permits) := if !clear then (refill, permits) else if refill + 1 = 4 then (0, min 64 (permits + 1)) else (refill + 1, permits)
  let allowed := fun (c : Nat) => claims s c && regFld s .shedState 11 0 == 0 && !regBit s (.clstat c) 4
  let req := [l, h].filter allowed
  let grant := if req.length ≤ permits then req else if req.length = 2 ∧ permits = 1 then [if rr then h else l] else []
  let rr := if req.length = 2 ∧ permits = 1 then !rr else rr
  let s1 := regSetBit (regSet (regSet s r 23 16 (permits - grant.length)) r 13 12 refill) r 11 rr
  [l, h].foldl (fun s1 c =>
    let s1 := regSetBit s1 (.clstat c) 3 (claims s c)
    regSet s1 (.clstat c) 7 6 (if grant.contains c then 2 else if step c = 2 then 1 else 0)) s1

/-- Folds a step over the numbers below a bound. -/
def forRange (n : Nat) (f : State → Nat → State) (s : State) : State := (List.range n).foldl f s

/-- A boundary's decisions, in the manual's order, from the load currents measured over the interval just ended (R144, R369 to R373, R378 to
R385, R446). DEDUCED, log entry 22. -/
def atBoundary (s0 : State) (loads : List Nat) : State :=
  let now := s0.lastBoundary + 5000
  let s := { s0 with lastBoundary := now }
  let s := shedAndRestore s0 (evaluateCurve s now) now
  let s := forRange 96 (fun s c => budgetTake s c) s
  let load := fun (c : Nat) => (loads[c]?).getD 0
  let s := forRange 48 (fun s p => balancePair s load p) s
  let s := forRange 48 grantPair s
  let s := forRange 96 (fun s c => { s with energyLeft := sset 118750 s.energyLeft c (scaledEnergy s c) }) s
  let s := forRange 96 (fun s c => admitCluster s true c) s
  restartHeads s0 (refreshComplete s)

/-- CONTROL_INTERVAL_BOUNDARY (R144, R369 to R373, R378 to R385, R446): every 5 µs. DEDUCED, log entry 22. -/
def execControlIntervalBoundary (loads : List Nat) (s : State) : Result :=
  if timeAt s 31 < s.lastBoundary + 5000 ∨ socketFailed s 31 = true then .refused (.notDue "CONTROL_INTERVAL_BOUNDARY")
  else .next (atBoundary s loads)

/-- Nanoseconds of the droop hold (R375): 0 acts as 1, 129 and above as 128. -/
def droopHold (s : State) : Nat := 500 * min 128 (max 1 (regFld s .pwrcfg 7 0))

/-- DROOP_DETECT (R374, R385): the cluster's clock is halved, and its hold begins or begins again. DEDUCED, log entry 22. -/
def execDroopDetect (cluster : Nat) (s : State) : Result :=
  if 96 ≤ cluster then .refused (.notDue "DROOP_DETECT")
  else
    let until_ := timeAt s (cluster / 8) + droopHold s
    .next (showHalved { s with clusters := supd clusterInit s.clusters cluster fun c => { c with halvedUntil := some until_ } } cluster)

/-- DROOP_HOLD_EXPIRY (R374). -/
def execDroopHoldExpiry (cluster : Nat) (s : State) : Result :=
  match (sget clusterInit s.clusters cluster).halvedUntil with
  | some t =>
    if timeAt s (cluster / 8) < t then .refused (.notDue "DROOP_HOLD_EXPIRY")
    else .next (showHalved { s with clusters := supd clusterInit s.clusters cluster fun c => { c with halvedUntil := none } } cluster)
  | none => .refused (.notDue "DROOP_HOLD_EXPIRY")

end Sys2Proof.Machine
end

