-- ==== Sys2Proof/Machine/Sha3.lean ====
section
/-! DEFINITION. SHA3-256 (FIPS 202), which boot, scans and the emergency area use (R403, R409, R410, R425). The rotations and the round
words come from the rules that generate them, so that no table has to be trusted. -/

namespace Sys2Proof.Machine

/-- One tick of the generator of round words, x^8 + x^6 + x^5 + x^4 + 1, as a number below 256. -/
def sha3Tick (r : Nat) : Nat := if r < 128 then 2 * r else (2 * r) ^^^ 0x171

/-- The word that a round adds: bit 2^j - 1 is the generator's output after j ticks. -/
def sha3RoundWord (r : Nat) : Word64 :=
  BitVec.ofNat 64 ((List.range 7).map fun j => (Nat.repeat sha3Tick j r) % 2 * 2 ^ (2 ^ j - 1)).sum

/-- The word in column `x` and plane `y` of a state of 25 words; both are taken modulo 5. -/
def sha3At (st : List Word64) (x y : Nat) : Word64 := (st[x % 5 + 5 * (y % 5)]?).getD 0

/-- A state by its 25 words. -/
def sha3Build (f : Nat → Nat → Word64) : List Word64 := (List.range 5).flatMap fun y => (List.range 5).map fun x => f x y

/-- Exclusive or of a column. -/
def sha3Column (st : List Word64) (x : Nat) : Word64 := ((List.range 5).map (sha3At st x)).foldr (· ^^^ ·) 0

/-- The tour of the 24 words other than the corner: each word's place, the place it moves to and the bits by which it turns there. -/
def sha3Tour : Nat → Nat → Nat → Nat → List (Nat × Nat × Nat × Nat × Nat)
  | 0, _, _, _ => []
  | k + 1, t, x, y =>
    let y' := (2 * x + 3 * y) % 5
    (x, y, y, y', (t + 1) * (t + 2) / 2 % 64) :: sha3Tour k (t + 1) y y'

/-- The words turned and moved along the tour. -/
def sha3Turned (st : List Word64) : List Word64 :=
  (sha3Tour 24 0 1 0).foldl (fun out m => out.set (m.2.2.1 + 5 * m.2.2.2.1) ((sha3At st m.1 m.2.1).rotateLeft m.2.2.2.2)) st

/-- One round, with the generator that gives its word. -/
def sha3Round (st : List Word64) (r : Nat) : List Word64 :=
  let mixed := sha3Build fun x y => sha3At st x y ^^^ sha3Column st (x + 4) ^^^ (sha3Column st (x + 1)).rotateLeft 1
  let moved := sha3Turned mixed
  sha3Build fun x y =>
    let w := sha3At moved x y ^^^ (sha3At moved (x + 2) y &&& ~~~sha3At moved (x + 1) y)
    if x + y = 0 then w ^^^ sha3RoundWord r else w

/-- The permutation: 24 rounds, each seven ticks of the generator after the last. PRESUMED, log entry 32. -/
def sha3Permute (st : List Word64) : List Word64 :=
  ((List.range 24).foldl (fun p _ => (sha3Round p.1 p.2, Nat.repeat sha3Tick 7 p.2)) (st, 1)).1

/-- A message filled up to whole blocks of 136 bytes: the suffix 01 and a 1 bit, zeros, and a 1 bit at the end. PRESUMED, log entry 32. -/
def sha3Pad (bs : List Byte) : List Byte :=
  let room := 136 - bs.length % 136
  bs ++ leBytes room (6 + 2 ^ (8 * room - 1))

/-- SHA3-256 of some bytes: each block is added to the first 17 words and permuted in. PRESUMED, log entry 32. -/
def sha3 (bs : List Byte) : List Byte :=
  let m := sha3Pad bs
  let last := (List.range (m.length / 136)).foldl (fun st k =>
    sha3Permute (sha3Build fun x y =>
      let j := x + 5 * y
      sha3At st x y ^^^ if j < 17 then BitVec.ofNat 64 (leNat ((m.drop (136 * k + 8 * j)).take 8)) else 0)) (List.replicate 25 0)
  (last.take 4).flatMap fun w => leBytes 8 w.toNat

end Sys2Proof.Machine
end

