-- ==== Sys2Proof/Machine/Preempt.lean ====
section
/-! DEFINITION. Safe points, pre-emption, restores, the watchdog, and the emergency thermal save (R400 to R409). -/

namespace Sys2Proof.Machine

/-! ### Save areas -/

/-- Bytes that the save of one team needs (R403). DESIGN CHOICE, log entry 9. -/
def saveBytes (h : Header) : Nat :=
  8192 + 20480 * warpCount h + footprint h * 9 / 8 + 4096 * h.accTiles + 1024 * h.collQuota + 1024 + 256 * h.ladleMem
    + 256 * popCount h.timelines.toNat 16

/-- Grids taken from a queue, children included (R400). -/
def gridsOfQueue (s : State) (q : Nat) : List Grid := s.grids.filter fun g => g.queue == q

/-- Teams of some grids: the resident ones, and those that a restore has not placed yet. -/
def teamsOfGrids (s : State) (gs : List Nat) : List Team :=
  (s.teams ++ (s.saves.filter fun a => !a.emergency).flatMap (·.teams)).filter fun t => gs.contains t.grid

/-- Bytes that the save of a queue's grids needs (R403). DESIGN CHOICE, log entry 9. -/
def queueBytes (s : State) (q : Nat) : Nat := ((teamsOfGrids s ((gridsOfQueue s q).map (·.id))).map fun t => saveBytes t.hdr).sum

/-- The area of QCTX_n in bytes. -/
def ctxBase (s : State) (q : Nat) : Nat := regFld s (.qctx q) 51 12 * 4096

def ctxSize (s : State) (q : Nat) : Nat := regFld s (.qctx q) 11 0 * 2 ^ 20

/-! ### Save points -/

/-- Whether a warp or ladle context stands at a save point with its release run (R66, R78, R401): parked at a SAFE that has taken effect, or,
for a warp, with every lane at a STEP that has not completed. -/
def atSavePoint (s : State) (core : Nat) (a : Agent) : Bool :=
  a.ended || (!a.marker && !outstanding s a core && a.absent.isEmpty && a.deferred.isEmpty && a.adv.isEmpty && match a.hold with
    | some (.safePark _) => true
    | none => !isLadle a.key && (stepGroupOf a).isSome && a.stepSent.isNone
    | _ => false)

/-- Whether the release of R78 at system scope has covered everything that an agent has sent. -/
def releasedAll (a : Agent) : Bool := a.ended || (a.paths.isEmpty && a.xpaths.isEmpty)

/-- Agents of a team. -/
def agentsOfTeam (s : State) (t : Team) : List Agent := s.agents.filter fun a => a.key.team == t.uid

/-- The entry of the live-mask table that an agent parked at a SAFE has still to be saved by (R208, R402). -/
def liveLacking (a : Agent) : Option Nat :=
  match a.hold with
  | some (.safePark idx) => if a.live.any fun m => m.1 == idx then none else some idx
  | _ => none

/-- Whether a team can be saved (R99, R305, R401). -/
def drained (s : State) (t : Team) : Bool :=
  (agentsOfTeam s t).all (fun a => atSavePoint s t.core a && releasedAll a && (liveLacking a).isNone) && !jobsOfTeam s t && !copiesOfTeam s t.uid
    && t.prefb.isEmpty && t.tagWaits.isEmpty && t.heldStx.isEmpty

/-- Agents of a grid that must still run their release, or take a deferred event, before the grid can be saved (R387, R401). -/
def releasable (s : State) (t : Team) (a : Agent) : Bool :=
  let stands := a.hold.isNone && !isLadle a.key && (stepGroupOf a).isSome && a.stepSent.isNone
  let parked := match a.hold with | some (.safePark _) => true | _ => false
  !a.ended && !a.marker && !outstanding s a t.core && (stands || parked) && (!releasedAll a || !a.deferred.isEmpty)

/-- Whether the live masks of an agent's SAFE are to be read (R402). -/
def liveDue (s : State) (a : Agent) : Bool :=
  (liveLacking a).isSome && !s.readers.any fun r => match r.goal with | .live k _ _ => k == a.key | _ => false

/-- The live masks of an agent's SAFE begun to be read (R208, R402). -/
def readLive (s : State) (a : Agent) : State :=
  match gridOfAgent s a.key, teamOf s a.key.team, liveLacking a with
  | some g, some t, some idx =>
    let (id, s) := newReader s (some t.core) (isLadle a.key) g.vf (.live a.key idx ((g.launch.image + t.hdr.liveOff + 24 * idx) % 2 ^ 64))
    match readerOf s id with
    | some r => liveRun s r
    | none => s
  | _, _, _ => s

/-- The release of an agent at its save point begun (R78, R401); a deferred event of a warp at a STEP is delivered first. -/
def beginRelease (s : State) (a : Agent) : State :=
  match a.hold with
  | some (.safePark idx) => holdFence s a.key false true 3 (.safePark idx)
  | _ => if a.deferred.any (!·.report) then updAgent s a.key fun a => { a with marker := true } else holdFence s a.key false true 3 .none

/-- Whether the teams of a grid are saved together: a cohort, or a grid with cohort children (R401). -/
def savedTogether (s : State) (g : Grid) : Bool := g.hdr.cohort || s.grids.any fun x => x.parentGrid == some g.id && x.hdr.cohort

/-- Teams of a grid that can be marked as drained now (R401). -/
def newlyDrained (s : State) (g : Grid) : List Nat :=
  let ts := s.teams.filter fun t => t.grid == g.id
  let ok := ts.filter fun t => drained s t
  let ok := if savedTogether s g && decide (ok.length < ts.length) then [] else ok
  (ok.filter fun t => !t.saved).map (·.uid)

/-- Whether every grid of a queue is drained and none is still ending (R400, R401). DEDUCED, log entry 34. -/
def queueDrained (s : State) (q : Nat) : Bool :=
  (gridsOfQueue s q).all fun g => !g.terminated && (s.teams.filter fun t => t.grid == g.id).all (·.saved)

/-! ### What a save keeps -/

/-- Registers outside a SAFE's mask are dropped and read zero after the restore (R164, R402). DEDUCED, log entry 34. -/
def keepLive (vm : BitVec 128) (sm : BitVec 64) (a : Agent) : Agent :=
  { a with
    v := a.v.filter fun e => bit vm (e.1 / 32)
    vPoison := a.vPoison.filter fun e => bit vm (e.1 / 32)
    s := a.s.filter fun e => bit sm e.1
    sPoison := a.sPoison.filter fun e => bit sm e.1 }

/-- What the device saves of an agent (R163, R164, R401, R402): results in flight have landed, the address table and the fetch buffer are not
saved, an arrival is withdrawn, and an agent from a SAFE goes on behind it. DEDUCED, log entry 34. -/
def savedAgent (a : Agent) : Agent :=
  { a with
    addrTable := [], fetchBuf := [], needLine := none, hold := none, stepArrived := false, stepSent := none, pend := [], yielded := 0
    gaveWay := false, waitCount := 0, debugPass := [], live := none }

/-- One agent of a drained team saved. -/
def saveAgent (s : State) (k : AgentKey) : State × List Agent :=
  let s := landDue s k ((match agentOf s k with | some a => (a.pend.map (·.due)).max?.getD 0 | none => 0))
  match agentOf s k with
  | none => (s, [])
  | some a => match a.hold, a.live with
    | some (.safePark _), some (_, vm, sm) => (s, [savedAgent (keepLive vm sm a)])
    | _, _ => (s, [savedAgent a])

/-- One team's agents saved. -/
def saveTeam (s : State) (t : Team) : State × List Agent :=
  (agentsOfTeam s t).foldl (fun (acc : State × List Agent) a =>
    let (s, l) := saveAgent acc.1 a.key
    (s, acc.2 ++ l)) (s, [])

/-- Grids, teams and agents of a queue leave the package for a save area (R402). DESIGN CHOICE, log entry 9. -/
def takeOut (s : State) (q base : Nat) (emergency : Bool) : State :=
  let gs := gridsOfQueue s q
  let ids := gs.map (·.id)
  let ts := s.teams.filter fun t => ids.contains t.grid
  let (s, ags) : State × List Agent := ts.foldl (fun (acc : State × List Agent) t => let (s, l) := saveTeam acc.1 t; (s, acc.2 ++ l)) (s, [])
  let now := fun (t : Team) => ((teamOf s t.uid).getD t)
  let mine := fun (a : SaveArea) => !a.emergency && a.teams.any fun t => ids.contains t.grid
  let old := s.saves.filter mine
  let area : SaveArea :=
    { queue := q, base := base, emergency := emergency, grids := gs
      teams := (ts.map fun t => { now t with saved := false }) ++ old.flatMap (·.teams), agents := ags ++ old.flatMap (·.agents) }
  let uids := ts.map (·.uid)
  let s := clearSlots { s with
    grids := s.grids.filter fun g => !ids.contains g.id
    teams := s.teams.filter fun t => !uids.contains t.uid
    agents := s.agents.filter fun a => !uids.contains a.key.team
    readers := s.readers.filter fun r => !(r.goal.owner.any fun k => uids.contains k.team)
    whisk := s.whisk.filter fun w => !ids.contains w.group.grid
    reductions := s.reductions.filter fun r => !ids.contains r.group.grid
    saves := s.saves.filter (fun a => !mine a) ++ [area] } uids
  ((ts.map (·.core)).dedup).foldl refreshBusy s

/-- The bytes of a save area of some length: the SHA3-256 digest of the rest, which begins with its length; what follows is the device's own
(R403; DESIGN CHOICE, log entry 9). -/
def areaBytes (s : State) (n : Nat) : List Byte × State :=
  let (rest, s) := freeBytes s (n - 40)
  (sha3 (leBytes 8 (n - 32) ++ rest) ++ leBytes 8 (n - 32) ++ rest, s)

/-- Whether a save area as it stands in device memory has the digest that its save stored, and no poison (R28, R403). DESIGN CHOICE, log entry 9. -/
def areaSound (s : State) (base : Nat) : Bool :=
  let n := leNat (homeBytes s (base + 32) 8)
  decide (n < 2 ^ 32 ∧ base + 32 + n ≤ dramTop s) && !rangePoisoned s base (32 + n)
    && sha3 (homeBytes s (base + 32) n) == homeBytes s base 32

/-- A save into QCTX_n ends once its area has been written (R400, R403): the area holds the grids. -/
def finishSave (s : State) (q : Nat) : State :=
  let s1 := regSetBit { s with saving := none, devWrites := s.devWrites.filter fun w => w.goal != .save q } .preempt 61 false
  if (gridsOfQueue s q).isEmpty then s1
  else restartHeads s (regSetBit (takeOut s1 q (ctxBase s q) false) (.qctx q) 63 true)

/-- The area of a save whose grids are drained is written, where there is a team to save; the save ends when that has completed (R400, R403). -/
def writeSave (s : State) (q : Nat) : State :=
  let n := queueBytes s q
  if n = 0 then finishSave s q
  else
    let (bs, s) := areaBytes s n
    deviceWrite s 31 (ctxBase s q) bs (.save q)

/-- Whether a save into QCTX_n can go on: its area can be written, or has been. -/
def saveGoesOn (s : State) (q : Nat) : Bool :=
  queueDrained s q && match (writesFor s (.save q)).head? with | some w => w.over s | none => true

/-- A save into QCTX_n goes on (R400, R403). -/
def goOnSave (s : State) (q : Nat) : State :=
  if !saveGoesOn s q then s else if (writesFor s (.save q)).isEmpty then writeSave s q else finishSave s q

/-! ### The emergency area -/

/-- The thermal-loss record of a grid's or a queue's work (R391, R392, R407, R408). -/
def thermalRecord (s : State) (domain queue gridid : Nat) (terminated : Bool) (tag : Word64) : State :=
  logRecord s { cause := 29, sub := 0, agent := 6, terminated := terminated, queue := queue, domain := domain, socket := 31, gridid := gridid
                tag := tag.toNat, time := timeAt s 31 }

/-- Base of the emergency area. -/
def emBase (s : State) : Nat := regFld s .emsave 51 12 * 4096

/-- Whether the package can write to host memory (R399, R415). -/
def hostReached (s : State) : Bool := !hostLost s && !socketFailed s 28

/-- A write to the emergency area, at its address in host memory (R407, R409, R412); none arrives at a lost host (R415). -/
def emWrite (s : State) (off : Nat) (bs : List Byte) : State :=
  if hostReached s then emitOut s (.systemWrite (outerAddress s (emBase s + off)).2 bs) else s

/-- Bytes of the emergency area. -/
def emSize (s : State) : Nat := regFld s .emsave 63 52 * 2 ^ 30

/-- The next 4 KiB boundary at or above an offset. -/
def pageUp (n : Nat) : Nat := (n + 4095) / 4096 * 4096

/-- The header of R409: bitmap, valid, time, digest and zeros. -/
def emHeader (s : State) (e : EmSave) (digest : List Byte) : List Byte :=
  let open_ := e.pending ++ e.lost
  let bitmap := (List.range 256).map fun i => ((List.range 8).foldl (fun (b : Byte) j => if open_.contains (8 * i + j) then setBit b j true else b) 0)
  bitmap ++ leBytes 8 e.valid.toNat ++ leBytes 8 (timeAt s 31) ++ digest ++ List.replicate 208 0

/-- The directory of an emergency area: 2,048 entries of 16 bytes (R409). -/
def emDirectory (e : EmSave) : List Byte :=
  (List.range 2048).flatMap fun q => match e.dir.find? fun d => d.1 == q with
    | some d => leBytes 8 d.2.1 ++ leBytes 8 d.2.2
    | none => List.replicate 16 0

/-- A queue of an emergency save is written, or lost where the area holds no more or the host is lost (R407, R409, R415). DEDUCED, log entry 33. -/
def finishEmergency (s : State) (q : Nat) : State :=
  match s.em with
  | none => s
  | some e =>
    let n := queueBytes s q
    if emSize s < e.nextOff + n || !hostReached s then
      let s := (gridsOfQueue s q).foldl (fun s g => terminateGrid (thermalRecord s g.domain q g.id true g.launch.tag) g.id 29) s
      { s with em := some { e with pending := e.pending.filter (· != q), lost := e.lost ++ [q] } }
    else
      let e' := { e with pending := e.pending.filter (· != q), dir := e.dir ++ [(q, e.nextOff, n)], nextOff := pageUp (e.nextOff + n) }
      let (area, s) := areaBytes s n
      let s := takeOut (if n = 0 then s else emWrite s e.nextOff area) q e.nextOff true
      let s := regSet { s with em := some e' } .emstat 10 0 q
      let s := emWrite s (512 + 16 * q) (leBytes 8 e.nextOff ++ leBytes 8 n)
      let bits := (List.range 8).foldl (fun (b : Byte) j => if (e'.pending ++ e'.lost).contains (q / 8 * 8 + j) then setBit b j true else b) 0
      emWrite s (q / 8) [bits]

/-- Every queue whose save is pending and whose grids are drained is written (R401, R407). -/
def settleSaves (s : State) : State :=
  let s := match s.saving with | some q => goOnSave s q | none => s
  match s.em with
  | some e => e.pending.foldl (fun s q => if queueDrained s q then finishEmergency s q else s) s
  | none => s

/-- Teams marked as drained; an arrival of their warps is withdrawn (R401). -/
def markDrained (s : State) (marks : List Nat) : State :=
  let mine := s.teams.filter fun t => marks.contains t.uid
  let s := mine.foldl (fun s t => (agentsOfTeam s t).foldl (fun s a => withdrawArrival s a t) s) s
  { s with
    teams := updWhere (fun t => marks.contains t.uid) (fun t => { t with saved := true }) s.teams
    agents := updWhere (fun a => marks.contains a.key.team) (fun a => { a with stepArrived := false }) s.agents }

/-- Whether some pending save can end now. -/
def saveReady (s : State) : Bool :=
  (match s.saving with | some q => saveGoesOn s q | none => false)
    || (match s.em with | some e => e.pending.any (queueDrained s) | none => false)

/-! ### The PREEMPT register -/

/-- PREEMPT.err (R400). -/
def preemptErr (s : State) : State := regSetBit s .preempt 60 true

/-- A save of a queue begun (R400, R403): the area must hold the bound, in device DRAM, and no emergency save may run. DEDUCED, log entry 34. -/
def startSave (s : State) (q : Nat) : State :=
  if ctxSize s q < queueBytes s q || dramTop s < ctxBase s q + ctxSize s q || regBit s .emstat 62 then preemptErr s
  else if regBit s (.qctx q) 63 then s
  else settleSaves (regSetBit { s with saving := some q } .preempt 61 true)

/-- The save area of a queue, in QCTX_n or in the emergency area. -/
def areaOf (s : State) (q : Nat) (em : Bool) : Option SaveArea := s.saves.find? fun a => a.queue == q && a.emergency == em

/-- A resume ends when no saved team is left (R400, R409): saved clears, or the directory entry becomes zero. DEDUCED, log entry 34. -/
def settleResume (s : State) (q : Nat) (em : Bool) : State :=
  match areaOf s q em with
  | none => s
  | some a =>
    if !a.teams.isEmpty then s
    else
      let s1 := regSetBit { s with saves := s.saves.filter fun x => !(x.queue == q && x.emergency == em) } .preempt 61 false
      let s1 := if em then
          emWrite { s1 with em := s1.em.map fun e => { e with dir := e.dir.filter fun d => d.1 != q } } (512 + 16 * q) (List.replicate 16 0)
        else regSetBit s1 (.qctx q) 63 false
      restartHeads s s1

/-- Whether the header, bitmap and directory of the emergency area admit a resume of a queue (R409); after a hard trip those of queues that were saved
completely do, though valid stayed clear (R408). DEDUCED, log entry 33. -/
def emergencyValid (s : State) (q : Nat) : Bool :=
  hostReached s && match s.em with
  | some e => (e.valid || e.cut) && !(e.pending ++ e.lost).contains q && e.dir.any fun d => d.1 == q
  | none => false

/-- A resume begun (R400, R409): the grids are distributed again, and their saved teams wait to be placed. What host memory still holds is
not state of the package: whether the directory's digest matches is a free choice (DESIGN CHOICE, log entry 15); a hard trip has left none (R408). -/
def startResume (s : State) (q : Nat) (em : Bool) : State :=
  let (k, s1) := if em && (match s.em with | some e => e.valid | none => false) then pick s 2 else (0, s)
  if em && (!emergencyValid s q || k != 0) then preemptErr s1
  else match areaOf s q em with
    | none => if em then preemptErr s1 else s
    | some a =>
      let mark := updWhere (fun (x : SaveArea) => x.queue == q && x.emergency == em) (fun x => { x with grids := [] }) s1.saves
      settleResume (regSetBit { s1 with grids := s1.grids ++ a.grids, saves := mark } .preempt 61 true) q em

/-- A save cancelled (R400): drained teams and parked agents run on. DEDUCED, log entry 26. -/
def cancelSave (s : State) : State :=
  match s.saving with
  | none => s
  | some q =>
    let ids := (gridsOfQueue s q).map (·.id)
    let hit := fun (s : State) (a : Agent) => match gridOfAgent s a.key with | some g => g.queue == q | none => false
    let reads := fun (r : Reader) => match r.goal with
      | .live k _ _ => (match gridOfAgent s k with | some g => g.queue == q | none => false)
      | _ => false
    let s := { s with
      saving := none, devWrites := s.devWrites.filter fun w => w.goal != .save q, readers := s.readers.filter fun r => !reads r
      teams := updWhere (fun t => ids.contains t.grid) (fun t => { t with saved := false }) s.teams }
    releaseParked (regSetBit s .preempt 61 false) hit

/-- A write to PREEMPT (R400): ignored while busy, but for the cancel of a save in progress (DEDUCED, log entry 26). -/
def writePreempt (s : State) (v : Word64) : State :=
  let cmd := fld v 63 62
  if regBit s .preempt 61 then (if cmd = 3 then cancelSave s else s)
  else
    let s := regPut s .preempt (regWritten .preempt (regGet s .preempt) v)
    let q := fld v 10 0
    if cmd = 1 then startSave s q else if cmd = 2 then startResume s q (bit v 11) else s

/-- PREEMPT_SAVE (R400, R403): a write with cmd 1. -/
def execPreemptSave (v : Word64) (s : State) : Result := .next (writePreempt s (setFld v 63 62 1))

/-- PREEMPT_RESUME (R400, R409): a write with cmd 2. -/
def execPreemptResume (v : Word64) (s : State) : Result := .next (writePreempt s (setFld v 63 62 2))

/-- PREEMPT_CANCEL (R400): a write with cmd 3. -/
def execPreemptCancel (v : Word64) (s : State) : Result := .next (writePreempt s (setFld v 63 62 3))

/-! ### Saving and restoring -/

/-- TEAM_SAVE (R78, R99, R305, R401 to R403, R407): agents at save points run their release, and the live masks of their SAFE are read;
teams that are drained are saved, the teams of a cohort together; the last one of a queue ends its save. -/
def execTeamSave (grid : Nat) (s : State) : Result :=
  let todo := match gridOf s grid with
    | some g => if savePending s g && !g.terminated then
        ((s.teams.filter fun (t : Team) => t.grid == grid).flatMap fun t => (agentsOfTeam s t).filter (releasable s t)) else []
    | none => []
  let marks := match gridOf s grid with
    | some g => if savePending s g && !g.terminated then newlyDrained s g else []
    | none => []
  let reads := match gridOf s grid with
    | some g => if savePending s g && !g.terminated then
        ((s.teams.filter fun (t : Team) => t.grid == grid).flatMap fun t => (agentsOfTeam s t).filter (liveDue s)) else []
    | none => []
  if todo.isEmpty && marks.isEmpty && reads.isEmpty && !saveReady s then .refused (.notDue "TEAM_SAVE")
  else
    .next (settleSaves (markDrained (reads.foldl readLive (todo.foldl beginRelease s)) marks))

/-- A saved team placed on a core (R163, R315, R346, R402, R404): the same team, at the same step offsets, its warps at a STEP arriving
again. DEDUCED, log entry 34. -/
def restoreTeam (s : State) (a : SaveArea) (t : Team) (core : Nat) : State :=
  let s := { s with teams := s.teams ++ [{ t with core := core }] }
  let cyc := cycleOf s core
  let mine := a.agents.filter fun x => x.key.team == t.uid
  let s := mine.foldl (fun s x => addAgent s core { x with nextIssue := cyc, lastIssue := cyc, issueCount := 0, idle := [] }) s
  mine.foldl (fun s x => tryArrive s x.key) (refreshBusy s core)

/-- Saved teams placed in order, each on its core, as far as the cores accept them; none where one does not. -/
def restoreTeams (a : SaveArea) (g : Grid) : List (Team × Nat) → State → Option State
  | [], s => some s
  | (t, core) :: r, s => if coreAccepts s core g.hdr g.domain then restoreTeams a g r (restoreTeam s a t core) else none

/-- The teams of a grid taken from the area that a resume reads. -/
def dropSaved (s : State) (q : Nat) (em : Bool) (uids : List Nat) : State :=
  let drop := fun (x : SaveArea) =>
    { x with teams := x.teams.filter (fun t => !uids.contains t.uid), agents := x.agents.filter (fun a => !uids.contains a.key.team) }
  settleResume { s with saves := updWhere (fun x => x.queue == q && x.emergency == em) drop s.saves } q em

/-- The digest verified (R403): over what the area holds now, or, for host memory, a free choice (DESIGN CHOICE, log entry 15), which a lost host
does not give (R415). -/
def digestMatches (s : State) (a : SaveArea) (q : Nat) : Bool × State :=
  if a.emergency then let (k, s) := pick s 2; (k == 0 && hostReached s, s) else (areaSound s (ctxBase s q), s)

/-- A grid whose save fails its digest ends (R396, R403): cause 19, subcode 0, with nothing placed. -/
def badSave (s : State) (g : Grid) (q : Nat) : State :=
  let s := logRecord s { cause := 19, sub := 0, agent := 6, terminated := true, queue := q, domain := g.domain, socket := 31, gridid := g.id
                         tag := g.launch.tag.toNat, time := timeAt s 31 }
  terminateGrid s g.id 19

/-- TEAM_RESTORE (R341, R343, R380, R402 to R404, R409). -/
def execTeamRestore (grid : Nat) (cores : List Nat) (s : State) : Result :=
  let q := regFld s .preempt 10 0
  let em := regBit s .preempt 11
  match gridOf s grid, areaOf s q em with
  | some g, some a =>
    let ts := a.teams.filter fun t => t.grid == grid
    let uids := ts.map (·.uid)
    if !regBit s .preempt 61 || s.saving.isSome || !dispatching s || ts.isEmpty then .refused (.notDue "TEAM_RESTORE")
    else if g.terminated then .next (dropSaved s q em uids)
    else if !em && hostHolds s (ctxBase s q) (32 + leNat (homeBytes s (ctxBase s q + 32) 8) % 2 ^ 32) then
      snoopRange "TEAM_RESTORE" s 31 (ctxBase s q) (32 + leNat (homeBytes s (ctxBase s q + 32) 8) % 2 ^ 32)
    else
      let (fine, s1) := digestMatches s a q
      if !fine then .next (dropSaved (badSave s1 g q) q em uids)
      else
        let wrong : Bool := if g.hdr.cohort then cores.length != ts.length || !cores.Nodup else cores.isEmpty || decide (ts.length < cores.length)
        if wrong || classShed s1 g.cls || heldByCohort s1 g then .refused (.notDue "TEAM_RESTORE")
        else match restoreTeams a g (ts.zip cores) s1 with
          | some s2 => .next (dropSaved s2 q em (uids.take cores.length))
          | none => .refused (.notDue "TEAM_RESTORE")
  | _, _ => .refused (.notDue "TEAM_RESTORE")

/-! ### Watchdog -/

/-- Whether an agent is parked at a SAFE, which holds all of its lanes (R315, R401). -/
def parkedAtSafe (a : Agent) : Bool :=
  match a.hold with
  | some (.safePark _) => true
  | some (.fence f) => match f.cont with | .safePark _ => true | _ => false
  | _ => false

/-- Lanes that are parked (R345), as a mask. -/
def parkedLanes (a : Agent) : BitVec 32 :=
  maskOf ((laneIds a.key).filter fun l => laneState a l != .exited && (laneState a l != .ready || parkedAtSafe a))

/-- WATCHDOG_EXPIRY (R389, R396, R405): the count, which stands still while it pauses, has reached the limit. -/
def execWatchdogExpiry (k : AgentKey) (s : State) : Result :=
  match agentOf s k with
  | some a =>
    if a.ended || !regBit s .wdcfg 63 || decide (a.stuck < 1000 * max 1 (regFld s .wdcfg 31 0)) then .refused (.notDue "WATCHDOG_EXPIRY")
    else .next (raise s k (mkEvent 26 (if isLadle k then 1 else 0) (parkedLanes a) ((issueAddress a).getD (lpcOf a 0))))
  | none => .refused (.notDue "WATCHDOG_EXPIRY")

/-! ### Thermal -/

/-- Domains with resident work. -/
def residentDomains (s : State) : List Nat := (s.grids.map (·.domain)).dedup

/-- An emergency save begun (R407, R409): the header and a directory of zeros go out, and every queue with a grid is to be saved; a save in
progress becomes part of it. DEDUCED, log entry 33. -/
def beginEmergency (s : State) : State :=
  let qs := ((s.grids.filter fun g => !g.terminated).map (·.queue)).dedup
  let e : EmSave := ⟨qs, [], 36864, [], false, false⟩
  let s := { s with em := some e, saves := s.saves.filter fun a => !a.emergency }
  let s := match s.saving with
    | some q => regSetBit { s with saving := none, devWrites := s.devWrites.filter fun w => w.goal != .save q } .preempt 61 false
    | none => s
  let s := regSetBit (regSetBit s .emstat 62 true) .emstat 61 false
  settleSaves (emWrite (emWrite s 0 (emHeader s e (List.replicate 32 0))) 512 (emDirectory e))

/-- THERMAL_REPORT (R406 to R409): the hard trip, the emergency save, or the record of a save that cannot be made. DEDUCED, log entry 33. -/
def execThermalReport (sock deg : Nat) (s : State) : Result :=
  if !running s sock then .refused (.notDue "THERMAL_REPORT")
  else if regFld s .thermHard 7 0 ≤ deg then
    let cut := fun (e : EmSave) => { e with cut := e.cut || regBit s .emstat 62 }
    .next (regSetBit { s with hardTrip := true, em := s.em.map cut } .emstat 63 true)
  else if !regBit s .thermSave 31 || decide (deg < regFld s .thermSave 7 0) || regBit s .emstat 62 || regBit s .emstat 61 then .next s
  else if emSize s = 0 || !isHostMem (emBase s) || !hostReached s then
    .next ((residentDomains s).foldl (fun s d => thermalRecord s d 0 0 false 0) s)
  else .next (beginEmergency s)

/-- The compute chiplets powered down: their cores, copy engines and shards hold nothing (R407). DEDUCED, log entry 33. -/
def powerDownCompute (s : State) : State :=
  { s with
    powered := s.powered &&& ~~~0xFFF#32, released := s.released &&& ~~~0xFFF#32
    cores := [], engines := [], readers := s.readers.filter fun r => 12 ≤ r.sock, shards := s.shards.filter fun e => 12 ≤ e.1 }

/-- EMERGENCY_SAVE_COMPLETE (R407, R409, R415): every bit is clear; the directory's digest and valid are written, and compute powers down.
DEDUCED, log entry 33. -/
def execEmergencySaveComplete (s : State) : Result :=
  match s.em with
  | some e =>
    if !regBit s .emstat 62 || !e.pending.isEmpty || !e.lost.isEmpty || !hostReached s then .refused (.notDue "EMERGENCY_SAVE_COMPLETE")
    else
      let s := emWrite s 272 (sha3 (emDirectory e))
      let s := emWrite { s with em := some { e with valid := true } } 256 (leBytes 8 1)
      .next (powerDownCompute (regSetBit (regSetBit s .emstat 62 false) .emstat 61 true))
  | none => .refused (.notDue "EMERGENCY_SAVE_COMPLETE")

end Sys2Proof.Machine
end

