-- ==== Sys2Proof/Machine/Scan.lean ====
section
/-! DEFINITION. Domains of cores and harts, fault logs, in-field scans, and writes to the register space (R5, R392, R397, R408, R410, R411). -/

namespace Sys2Proof.Machine

/-! ### Domains -/

/-- A write to a register of CORE_DOM's layout (R397): a change of domain is refused while busy. DEDUCED, log entry 36. -/
def writeDomain (s : State) (r : Reg) (v : Word64) : State :=
  if !regExists r then s
  else
    let old := regGet s r
    let new := regWritten r old v
    if bit old 61 && fld new 5 0 != fld old 5 0 then regSetBit (regSet (regPut s r new) r 5 0 (fld old 5 0)) r 60 true
    else regPut s r new

/-- A write to CORE_DOM_g (R147, R397): what a team had is its own and ends with it, so a core that is not busy holds nothing to zero.
DEDUCED, log entry 36. -/
def writeCoreDom (s : State) (g : Nat) (v : Word64) : State := restartHeads s (writeDomain s (.coreDom g) v)

/-- CORE_DOM_WRITE (R397). -/
def execCoreDomWrite (g : Nat) (v : Word64) (s : State) : Result := .next (writeCoreDom s g v)

/-- A hart stopped and zeroed, with its instruction cache, its reservation and what it has out; only the replies to its markers are still to come
(R397, R422). -/
def dropHart (s : State) (h : Nat) : State :=
  { s with
    harts := setBit s.harts h false, hartLines := serase s.hartLines h
    hartRegs := supd hartInit s.hartRegs h fun t => { hartInit with markers := t.markers }
    hartOps := s.hartOps.filter fun o => o.hart != h, reservations := s.reservations.filter fun r => r.hart != h }

/-- A write to SBX_DOM_h (R397, R420): a hart runs while it is assigned; one that is given to a domain is zeroed and begins in HS mode, which the
firmware enters for it, and one that is taken away is zeroed. DESIGN CHOICE, log entry 37. -/
def writeSbxDom (s : State) (h : Nat) (v : Word64) : State :=
  let r := Reg.sbxDom h
  if !regExists r then s
  else
    let old := regGet s r
    let s := writeDomain s r v
    let new := regGet s r
    if !bit new 63 then dropHart s h
    else if bit old 63 && fld old 5 0 == fld new 5 0 && bit s.harts h then s
    else
      let s := dropHart s h
      { s with harts := setBit s.harts h true, hartRegs := supd hartInit s.hartRegs h fun t => { t with mode := .hs } }

/-! ### Fault logs -/

/-- A write to FLTBASE_d (R392, R408): the first after package reset configures the log, and the thermal losses of the domain's queues are
recorded. DEDUCED, log entry 33. -/
def writeFltbase (s : State) (d : Nat) (v : Word64) : State :=
  let r := Reg.fltbase d
  if !regExists r then s
  else
    let first := !bit s.logConfigured d
    let s := { regPut s r (regWritten r (regGet s r) v) with logConfigured := setBit s.logConfigured d true }
    match s.em with
    | some e =>
      let lost := e.lost.filter fun q => queueDomain s q == d
      if first && !regBit s .emstat 62 then lost.foldl (fun s q => thermalRecord s d q 0 false 0) s else s
    | none => s

/-- FLTBASE_WRITE (R392, R408). -/
def execFltbaseWrite (d : Nat) (v : Word64) (s : State) : Result := .next (writeFltbase s d v)

/-! ### Scans -/

/-- The 32 cores of a socket. -/
def coresOf (sock : Nat) : List Nat := (List.range 32).map (32 * sock + ·)

/-- Drain set or cleared on every core of a socket (R397, R411). -/
def setDrain (s : State) (sock : Nat) (b : Bool) : State := (coresOf sock).foldl (fun s g => regSetBit s (.coreDom g) 62 b) s

/-- Whether no core of a socket is busy. -/
def socketIdle (s : State) (sock : Nat) : Bool := (coresOf sock).all fun g => !regBit s (.coreDom g) 61

/-- Whether a socket is drained (R411). -/
def socketDrained (s : State) (sock : Nat) : Bool := socketIdle s sock && (coresOf sock).all fun g => regBit s (.coreDom g) 62

/-- The command that SCANCTL runs while busy, held in its own code of the register table: cmd reads as 0 (R410). DEDUCED, log entry 36. -/
def scanCommand (s : State) : Nat := (sget (0 : Word64) s.regs (regKey 47 0 0)).toNat

def setScanCommand (s : State) (c : Nat) : State := { s with regs := sset (0 : Word64) s.regs (regKey 47 0 0) (BitVec.ofNat 64 c) }

/-- A write to SCANCTL (R410, R411): ignored while busy; drain, run on a drained socket, and release, which a failed socket refuses.
DEDUCED, log entry 36. -/
def writeScanctl (s : State) (v : Word64) : State :=
  let r := Reg.scanctl
  if regBit s r 61 then s
  else
    let s := regPut s r (regWritten r (regGet s r) v)
    let sock := fld v 58 54
    let begin := fun (s : State) (c : Nat) => setScanCommand (regSetBit s r 61 true) c
    if !isCompute sock then s
    else match fld v 63 62 with
      | 1 => begin (setDrain s sock true) 1
      | 2 => if socketDrained s sock then begin (regSet s r 60 59 0) 2 else s
      | 3 => if s.scanFail.getLsbD sock then s else setDrain s sock false
      | _ => s

/-- SCAN_DRAIN (R410, R411, R427): a write with cmd 1. -/
def execScanDrain (v : Word64) (s : State) : Result := .next (writeScanctl s (setFld v 63 62 1))

/-- SCAN_RUN (R410, R411, R425): a write with cmd 2. -/
def execScanRun (v : Word64) (s : State) : Result := .next (writeScanctl s (setFld v 63 62 2))

/-- SCAN_RELEASE (R411): a write with cmd 3. -/
def execScanRelease (v : Word64) (s : State) : Result := .next (writeScanctl s (setFld v 63 62 3))

/-- The socket that SCANCTL names. -/
def scanSocket (s : State) : Nat := regFld s .scanctl 58 54

/-- SCAN_DRAIN_COMPLETE (R411). -/
def execScanDrainComplete (s : State) : Result :=
  if !regBit s .scanctl 61 || scanCommand s != 1 || !socketIdle s (scanSocket s) then .refused (.notDue "SCAN_DRAIN_COMPLETE")
  else .next (setScanCommand (regSetBit s .scanctl 61 false) 0)

/-- A measurement register extended with a digest (R425). -/
def extendMeas (s : State) (j : Nat) (digest : List Byte) : State :=
  { s with meas := s.meas.set j (sha3 ((s.meas[j]?).getD [] ++ digest)) }

/-- The scanned logic of a socket zeroed: cores and clusters (R411). -/
def zeroSocket (s : State) (sock : Nat) : State :=
  { s with
    cores := s.cores.filter fun e => socketOf e.1 != sock
    clusters := s.clusters.filter fun e => e.1 / 8 != sock }

/-- SCAN_RUN_COMPLETE (R90, R410, R411, R414, R425): a package whose signature fails is not applied. DESIGN CHOICE, log entry 6.
DEDUCED, log entry 36. -/
def execScanRunComplete (s : State) : Result :=
  if !regBit s .scanctl 61 || scanCommand s != 2 then .refused (.notDue "SCAN_RUN_COMPLETE")
  else
    let sock := scanSocket s
    let base := regFld s .scanctl 51 12 * 4096
    let n := regFld s .scanctl 11 0 * 4096
    if hostHolds s base n then snoopRange "SCAN_RUN_COMPLETE" s 31 base n
    else
    let bytes := homeBytes s base n
    let body := bytes.take (n - 2420)
    let sound := 2420 ≤ n && base + n ≤ dramTop s && !rangePoisoned s base n
    let done := fun (s : State) (result : Nat) => setScanCommand (regSetBit (regSet s .scanctl 60 59 result) .scanctl 61 false) 0
    if !sound || !Config.signatureValid 1 (sha3 body) (bytes.drop (n - 2420)) then .next (done s 3)
    else
      let s := zeroSocket (extendMeas s 5 (sha3 body)) sock
      if Config.scanPasses sock body then .next (done s 1)
      else .next (done { s with scanFail := s.scanFail ||| BitVec.ofNat 32 (2 ^ sock) } 2)

/-! ### The register space -/

/-- A software write to any register of the register space (R5): registers with a rule of their own for a write follow it; the others
take their writable bits. A write to an address where no register is does nothing. -/
def writeRegister (s : State) (r : Reg) (v : Word64) : State :=
  match r with
  | .pinctl n => writePinctl s n v
  | .memerr n => writeMemerr s n v
  | .route i j => writeRoute s i j v
  | .prresp n => writePrresp s n v
  | .xlatinv => writeXlatinv s v
  | .cestat c e => writeCestat s c e v
  | .qcfg n => writeQcfg s n v
  | .qstat n => writeQstat s n v
  | .droopCurve k => writeCurve s k v
  | .fltbase d => writeFltbase s d v
  | .coreDom g => writeCoreDom s g v
  | .sbxDom h => writeSbxDom s h v
  | .preempt => writePreempt s v
  | .scanctl => writeScanctl s v
  | .hostcfg => writeHostcfg s v
  | .hidstat => writeHidstat s v
  | .pacecfg => writePacecfg s v
  | r => if regExists r then regPut s r (regWritten r (regGet s r) v) else s

/-- REGISTER_WRITE (R5 and each register's map). -/
def execRegisterWrite (r : Reg) (v : Word64) (s : State) : Result := .next (writeRegister s r v)

end Sys2Proof.Machine
end

