-- ==== Sys2Proof/Machine/Harts.lean ====
section
/-! DEFINITION. The sandbox harts: registers, exceptions and memory operations, encapsulated traffic, and the management commands (R36, R90, R420 to
R422, R426, R427). -/

namespace Sys2Proof.Machine

/-! ### Registers and traps of a hart -/

/-- Whether a hart runs: it is assigned, has not been stopped, and its chiplet lives (R399, R420, R422). DESIGN CHOICE, log entry 37. -/
def hartRuns (s : State) (h : Nat) : Bool := decide (h < 64) && bit s.harts h && running s 30

/-- A hart's registers. -/
def hartOf (s : State) (h : Nat) : Hart := sget hartInit s.hartRegs h

/-- A hart changed. -/
def updHart (s : State) (h : Nat) (f : Hart → Hart) : State := { s with hartRegs := supd hartInit s.hartRegs h f }

/-- The domain of a hart (R420). -/
def hartDomain (s : State) (h : Nat) : Nat := regFld s (.sbxDom h) 5 0

/-- A control and status register of a hart. -/
def Hart.get (t : Hart) (n : Nat) : Word64 := sget 0 t.csr n

def Hart.set (t : Hart) (n : Nat) (v : Word64) : Hart := { t with csr := sset 0 t.csr n v }

/-- A hart past an instruction of four bytes. -/
def Hart.past (t : Hart) : Hart := { t with pc := t.pc + 4 }

/-- A value loaded into a register of a hart: x0 stays zero, an f register is filled up with ones, a vector of up to 64 bytes takes two registers and
leaves the bytes behind it. PRESUMED, log entry 53. -/
def Hart.load (t : Hart) (r : HartReg) (signed : Bool) (n : Nat) (v : BitVec 512) : Hart :=
  let low := v.toNat % 2 ^ (8 * n)
  match r with
  | .x k => if k = 0 then t else { t with x := sset 0 t.x k (BitVec.ofNat 64 (if signed then sext (8 * n) 64 low else low)) }
  | .f k => { t with f := sset 0 t.f k (BitVec.ofNat 64 (2 ^ 64 - 2 ^ (8 * min n 8) + low % 2 ^ 64)) }
  | .v k =>
    let old := fun (i : Nat) => (sget 0 t.v i).toNat
    let part := fun (i m x : Nat) => BitVec.ofNat 256 (old i / 2 ^ (8 * m) * 2 ^ (8 * m) + x % 2 ^ (8 * m))
    let vs := sset 0 t.v k (part k (min n 32) low)
    { t with v := if n ≤ 32 then vs else sset 0 vs (k + 1) (part (k + 1) (n - 32) (low / 2 ^ 256)) }

/-- Whether a hart is in a guest (R420). -/
def Hart.virtual (t : Hart) : Bool := t.mode == .vs || t.mode == .vu

/-- Whether a hart is in a supervisor mode. -/
def Hart.supervisor (t : Hart) : Bool := t.mode == .hs || t.mode == .vs

/-- The three registers that a trap writes: the pc, the cause and the value. -/
def Hart.record (t : Hart) (first : Nat) (pc tval : Word64) (code : Nat) : Hart :=
  ((t.set first pc).set (first + 1) (BitVec.ofNat 64 code)).set (first + 2) tval

/-- A status register as a trap leaves it: the interrupt enable saved and cleared. -/
def trapStatus (v : Word64) (enable saved : Nat) : Word64 := setBit (setBit v saved (bit v enable)) enable false

/-- An exception of a hart (R420, R422), in the mode that medeleg and hedeleg give it: RISC-V's trap entry. PRESUMED, log entry 53. -/
def Hart.trap (t : Hart) (code : Nat) (pc tval : Word64) : Hart :=
  let delegated := t.mode != .m && bit (t.get 0x302) code
  if delegated && t.virtual && bit (t.get 0x602) code then
    let u := (t.record 0x241 pc tval code).set 0x200 (setBit (trapStatus (t.get 0x200) 1 5) 8 t.supervisor)
    { u with mode := .vs, pc := t.get 0x205 &&& ~~~3#64 }
  else if delegated then
    let u := (t.record 0x141 pc tval code).set 0x300 (setBit (trapStatus (t.get 0x300) 1 5) 8 (t.supervisor || t.virtual))
    let hstatus := setBit (setBit (t.get 0x600) 7 t.virtual) 6 t.virtual
    let u := u.set 0x600 (if t.virtual then setBit hstatus 8 t.supervisor else hstatus)
    { u with mode := .hs, pc := t.get 0x105 &&& ~~~3#64 }
  else
    let from_ := if t.mode == .m then 3 else if t.supervisor then 1 else 0
    let status := setFld (trapStatus (t.get 0x300) 3 7) 12 11 from_
    let u := (t.record 0x341 pc tval code).set 0x300 (setBit (setBit status 39 t.virtual) 38 t.virtual)
    { u with mode := .m, pc := t.get 0x305 &&& ~~~3#64 }

/-- An exception of a hart taken at an instruction; its value is a virtual address, which is free here. DESIGN CHOICE, log entry 2.
DESIGN CHOICE, log entry 37. -/
def trapHart (s : State) (h code : Nat) (pc : Word64) : State :=
  let (tval, s) := freeBytes s 8
  updHart s h fun t => t.trap code pc (BitVec.ofNat 64 (leNat tval))

/-- The exception code of an access that reaches no memory, or that PMP refuses. PRESUMED, log entry 53. -/
def HartOp.faultCode : HartOp → Nat
  | .fetch => 1
  | .load _ | .lr _ => 5
  | _ => 7

/-- The exception code of a hardware error (R422). PRESUMED, log entry 53. -/
def hartErrorCode : Nat := 19

/-! ### Accesses of harts -/

/-- A hart's operations on memory that have not been answered. -/
def hartOpsOf (s : State) (h : Nat) : List HartPend := s.hartOps.filter fun o => o.hart == h

/-- Whether operations that bring a hart something are out (R77, R90). -/
def hartWaits (s : State) (h : Nat) : Bool := (hartOpsOf s h).any fun o => match o.op with | .store _ _ => false | _ => true

/-- Whether a hart's release is under way (R78, R421): replies are out, or package time on its chiplet has not passed what they brought. -/
def hartReleasing (s : State) (h : Nat) : Bool :=
  let t := hartOf s h
  t.markers != 0 || (t.till != 0 && decide (timeAt s 30 ≤ t.till))

/-- Whether a hart may go on: a release under way holds it, and an AMO with aq holds back what follows it until it is answered (R421). -/
def hartFree (s : State) (h : Nat) : Bool :=
  hartRuns s h && !hartReleasing s h && (hartOf s h).next.isNone
    && !(hartOpsOf s h).any fun o => match o.op with | .amo _ _ aq _ => aq | _ => false

/-- Markers sent on the paths of what a hart has written since its last release (R78, R421). -/
def releaseHart (s : State) (h : Nat) : State :=
  let ps := (hartOf s h).paths
  let mark := fun (s : State) (p : Path) => send s ⟨30, p.dst, false, p.planeB, .hart h, 0, 0, 0, .fm, 0, [], 0⟩
  ps.foldl mark (updHart s h fun t => { t with paths := [], markers := ps.length, till := 0 })

/-- The parts of an access that lie in one line each. -/
def hartParts (pa n : Nat) : List (Nat × Nat) := (linesOfRange pa n).map (partOfLine pa n)

/-- The part of an operation at an address. -/
def HartOp.part (op : HartOp) (pa : Nat) (p : Nat × Nat) : HartOp :=
  match op with
  | .load _ => .load p.2
  | .store _ v => .store p.2 (v >>> (8 * (p.1 - pa)))
  | op => op

/-- Whether PMP lets a hart touch a range (R420): outside machine mode, only the GiBs that the management path has granted its domain; the windows of
the queue aperture have owners of their own (R356). DESIGN CHOICE, log entry 37. -/
def hartMayTouch (s : State) (h pa n : Nat) : Bool :=
  (hartOf s h).mode == .m || (isAperture pa && isAperture (pa + n - 1))
    || (hartParts pa n).all fun p => s.memGrants.contains (p.1 / 2 ^ 30, hartDomain s h)

/-- Why an access of a hart reaches no memory, as an exception code (R412, R415, R422, R423). DESIGN CHOICE, log entry 37. -/
def hartStop (s : State) (pa n : Nat) (op : HartOp) : Option Nat :=
  let atomic := match op with | .amo .. => true | _ => false
  ((hartParts pa n).filterMap fun p => (systemStop s p.1 atomic).map fun e => if e.1 = 19 then hartErrorCode else op.faultCode).head?

/-- The bytes of an access that the shared cache holds under a lease that runs, with the line's poison (R17, R90, R421, R422). -/
def sbxHit (s : State) (pa n : Nat) : Option (List Byte × Bool) :=
  match s.sbxLines.find? fun l => l.line == pa / 128 && decide (timeAt s 30 < l.expiry) with
  | some l =>
    if ((List.range ((pa + n - 1) / 16 + 1 - pa / 16)).all fun i => bit l.sectors ((pa / 16 + i) % 8)) then
      some ((List.range n).map (fun i => sget 0 l.data (pa + i)), l.poison) else none
  | none => none

/-- Lines of the shared cache: 64 MiB (R420). -/
def sbxCapacity : Nat := 524288

/-- A leased line that a hart has loaded kept in the shared cache (R17, R90). DESIGN CHOICE, log entry 37. -/
def sbxInstall (s : State) (h line expiry : Nat) (cells : List Host.Cell) : State :=
  let sectors := cells.foldl (fun (m : BitVec 8) c => setBit m (c.1 / 16 % 8) true) 0
  let users := match s.sbxLines.find? fun l => l.line == line with | some l => l.harts | none => 0
  let (s, rest) := dropOne s sbxCapacity (s.sbxLines.filter fun l => l.line != line)
  { s with sbxLines := ⟨line, expiry, sectors, cells.foldl (fun m e => sset 0 m e.1 e.2) [], setBit users h true, false⟩ :: rest }

/-- An operation of a hart that is over (R24, R421, R422): an exception, or its register and, for a fetch, its instruction cache. A fetch
that a FENCE.I has overtaken is not kept. -/
def endHart (s : State) (o : HartPend) : State :=
  match o.bad with
  | .fault => trapHart s o.hart o.op.faultCode o.pc
  | .poison => trapHart s o.hart hartErrorCode o.pc
  | .fine =>
    let byte := fun (i : Nat) => ((o.got.find? fun c => c.1 == o.pa + i).map (·.2)).getD 0
    let bytes := (List.range o.op.bytes).map byte
    match o.op with
    | .store _ _ => s
    | .fetch => if o.stale then s else { s with hartLines := supd [] s.hartLines o.hart fun ls => ls ++ [(o.pa / 64, bytes)] }
    | _ => updHart s o.hart fun t => t.load o.rd o.signed o.op.bytes (BitVec.ofNat 512 (leNat bytes))

/-- A part of an operation of a hart that has come in; the last one ends the operation. -/
def hartPart (s : State) (id : Nat) (cells : List Host.Cell) (bad : HartBad) : State :=
  match s.hartOps.find? fun o => o.id == id with
  | none => s
  | some o =>
    let o := { o with left := o.left - 1, got := o.got ++ cells, bad := if o.bad = .fine then bad else o.bad }
    if o.left = 0 then endHart { s with hartOps := s.hartOps.filter fun x => x.id != id } o
    else { s with hartOps := updWhere (fun x => x.id == id) (fun _ => o) s.hartOps }

/-- A part of an operation: a load may hit the shared cache, behind which no earlier access of the hart to the line is out; everything else goes to
what serves its address, and a write's path is noted (R78, R90, R412, R421). DESIGN CHOICE, log entry 37. -/
def sendHartPart (s : State) (o : HartPend) (p : Nat × Nat) : State :=
  let waits := (hartOpsOf s o.hart).any fun x => x.id != o.id && (hartParts x.pa x.op.bytes).any fun q => q.1 / 128 == p.1 / 128
  let hit := match o.op with | .load _ => if waits then none else sbxHit s p.1 p.2 | _ => none
  match hit, destOf s p.1 with
  | some (bs, bad), _ => hartPart s o.id (cellsAt p.1 bs) (if bad then .poison else .fine)
  | none, some dst =>
    let s := if o.op.writes then updHart s o.hart fun t => { t with paths := addPath t.paths ⟨dst, planeOf p.1⟩ } else s
    sendTx s 30 dst p.1 (.hart o.id o.hart p.1 (o.op.part o.pa p))
  | none, none => hartPart s o.id [] .fault

/-- An access of a hart that its PMP admits (R90, R421): a fetch may hit the hart's own instruction cache, a store writes through, and the
shared cache gives up its lines. -/
def startHart (s : State) (h pa : Nat) (op : HartOp) (rd : HartReg) (signed : Bool) (pc : Word64) : State :=
  let own := match op with | .fetch => (sget [] s.hartLines h).any fun l => l.1 == pa / 64 | _ => false
  if own then s
  else
    let (id, s) := fresh s
    let parts := hartParts pa op.bytes
    let o : HartPend := ⟨id, h, pa, op, rd, signed, parts.length, [], .fine, false, pc⟩
    let touched := fun (l : SbxLine) => op.writes && parts.any fun p => p.1 / 128 == l.line
    let s := { s with hartOps := s.hartOps ++ [o], sbxLines := s.sbxLines.filter fun l => !touched l }
    parts.foldl (fun s p => sendHartPart s o p) s

/-- An access of a hart, or the exception that it takes instead (R412, R415, R420, R422, R423). DESIGN CHOICE, log entry 37. -/
def hartAccess (s : State) (h pa : Nat) (op : HartOp) (rd : HartReg) (signed : Bool) (pc : Word64) : State :=
  if !hartMayTouch s h pa op.bytes then trapHart s h op.faultCode pc
  else match hartStop s pa op.bytes op with
    | some code => trapHart s h code pc
    | none => startHart s h pa op rd signed pc

/-- Whether a hart may make an access now: of 1 to 64 bytes, and a line of 64 bytes for a fetch. -/
def hartMay (s : State) (h pa : Nat) (op : HartOp) : Bool :=
  hartFree s h && decide (0 < op.bytes ∧ op.bytes ≤ 64) && (match op with | .fetch => pa % 64 == 0 | _ => true)

/-- A plain load, store or fetch of a hart, by its instruction at its pc. -/
def hartPlain (s : State) (h pa : Nat) (op : HartOp) : State :=
  let t := hartOf s h
  if hartMay s h pa op then hartAccess s h pa op t.rd t.signed t.pc else s

/-- An AMO, LR or SC of a hart at its pc: misaligned it takes the exception of its kind, else it is behind the instruction when it has been sent
(R24, R421). PRESUMED, log entry 53. -/
def hartAtomic (s : State) (h pa : Nat) (op : HartOp) (go : State → State) : State :=
  let t := hartOf s h
  if pa % op.bytes != 0 then trapHart s h (op.faultCode - 1) t.pc
  else if !hartMayTouch s h pa op.bytes then trapHart s h op.faultCode t.pc
  else go (updHart s h Hart.past)

/-- Another instruction of a hart, which leaves its registers as it will; what its accesses are about stays (R420). DESIGN CHOICE, log entry 37. -/
def hartRun (s : State) (h : Nat) (st : Hart) : State :=
  if !hartFree s h then s
  else updHart s h fun t => { st with x := serase st.x 0, paths := t.paths, markers := t.markers, till := t.till, next := t.next }

/-- HART_FENCE (R77, R78, R90, R421): with W before or R after it waits for what the hart's accesses bring, and with W before markers go out
on the paths of its writes, behind which the hart is held until the release is over. DESIGN CHOICE, log entry 37. -/
def execHartFence (hart : Nat) (predW succR : Bool) (s : State) : Result :=
  if !hartFree s hart || ((predW || succR) && hartWaits s hart) then .refused (.notDue "HART_FENCE")
  else
    let s := updHart s hart Hart.past
    .next (if predW then releaseHart s hart else s)

/-- A leased line that an answer brings is kept, unless a later write of the chiplet has overtaken it (R17, R90). -/
def hartLine (s : State) (h pa expiry : Nat) (cells : List Host.Cell) : State :=
  let overtaken := s.hartOps.any fun x => x.op.writes && (hartParts x.pa x.op.bytes).any fun q => q.1 / 128 == pa / 128
  if expiry = 0 || overtaken || !hartRuns s h then s else sbxInstall s h (pa / 128) expiry cells

/-- An answer at a hart (R17, R24, R90, R412, R421, R422): a part of its operation, and for a load the line that comes with it.
DESIGN CHOICE, log entry 37. -/
def hartAnswer (s : State) (id h pa : Nat) (v : BitVec 512) (bad : HartBad) (cells : List Host.Cell) (expiry : Nat) : State :=
  match s.hartOps.find? fun o => o.id == id with
  | none => s
  | some o =>
    let part := partOfLine o.pa o.op.bytes (pa / 128)
    match o.op with
    | .load _ => hartPart (hartLine s h pa expiry cells) id (cellsAt part.1 (leBytes part.2 v.toNat)) bad
    | .fetch => hartPart s id cells bad
    | op => hartPart s id (cellsAt pa (leBytes op.bytes v.toNat)) bad

/-- What TX does with its packet: a home's answer to the host or to a hart, or a hart's access to a system range; other encapsulated traffic
is another manual's (R36, R413, R420). -/
def applyTx (p : Packet) (s : State) : State :=
  match p.msg with
  | .tx (.hostData id pa bytes poison) => hostAnswer s id (cellsAt pa bytes) poison 0
  | .tx (.hostDone id t) => hostAnswer s id [] false t
  | .tx (.hartDone id h pa v bad _ cells expiry) => hartAnswer s id h pa v bad cells expiry
  | .tx (.hart ..) => applyRequest s p
  | _ => s

/-- TX (R15, R20, R36, R90, R414, R421). DESIGN CHOICE, log entry 43. -/
def execTx (h : Hop) (s : State) : Result :=
  match brings s h isTx with
  | some t => if !firstAtInput s h t then .refused (.notDue "TX") else onPacket "TX" s h isTx fun p s => if isMemory p.dst && sliceRequest p.msg then acceptArrival h t p s else applyTx p s
  | none => serveInbox "TX" s h isTx

/-- An AMO of a hart sent once its release is over (R421). -/
def sendAmo (s : State) (h pa : Nat) (op : HartOp) : State :=
  let t := hartOf s h
  hartAccess (updHart s h fun t => { t with next := none }) h pa op t.rd true (t.pc - 4)

/-- HART_AMO (R24, R25, R239, R421): ATOM at the home; rl first runs the release, behind which it waits, and aq holds back what follows. Host memory
and the aperture take no atomics (R239, R412). DESIGN CHOICE, log entry 37. -/
def execHartAmo (hart : Nat) (q : HartAmo) (s : State) : Result :=
  let op := HartOp.amo q.op q.w64 q.aq q.v
  if !hartMay s hart q.pa op || (q.rl && hartWaits s hart) then .refused (.notDue "HART_AMO")
  else .next (hartAtomic s hart q.pa op fun s =>
    if q.rl && !(hartOf s hart).paths.isEmpty then releaseHart (updHart s hart fun t => { t with next := some (q.pa, op) }) hart
    else sendAmo s hart q.pa op)

/-- The AMOs whose release is over leave (R421). -/
def settleHarts (s : State) : State :=
  s.hartRegs.foldl (fun s e => match e.2.next with
    | some (pa, op) => if hartReleasing s e.1 || !hartRuns s e.1 then s else sendAmo s e.1 pa op
    | none => s) s

/-- HART_LR (R421): a load at the home that reserves its 16-byte sector. DESIGN CHOICE, log entry 37. -/
def execHartLr (hart pa : Nat) (w64 : Bool) (s : State) : Result :=
  if !hartMay s hart pa (.lr w64) then .refused (.notDue "HART_LR")
  else .next (hartAtomic s hart pa (.lr w64) fun s => hartAccess s hart pa (.lr w64) (hartOf s hart).rd true ((hartOf s hart).pc - 4))

/-- HART_SC (R421): applied at the home only if no write to the sector has been applied since the LR; 0 is success. No reservation is ever held on an
address outside device memory. DESIGN CHOICE, log entry 37. -/
def execHartSc (hart pa : Nat) (w64 : Bool) (v : Word64) (s : State) : Result :=
  if !hartMay s hart pa (.sc w64 v) then .refused (.notDue "HART_SC")
  else .next (hartAtomic s hart pa (.sc w64 v) fun s =>
    let t := hartOf s hart
    if dramTop s ≤ pa && (systemStop s pa false).isNone then updHart s hart fun t => t.load t.rd true 8 1
    else hartAccess s hart pa (.sc w64 v) t.rd true (t.pc - 4))

/-- HART_FENCE_I (R421): the hart's own instruction cache is dropped, with what is on its way to it. DESIGN CHOICE, log entry 37. -/
def execHartFenceI (hart : Nat) (s : State) : Result :=
  if !hartFree s hart then .refused (.notDue "HART_FENCE_I")
  else
    let mine := fun (o : HartPend) => o.hart == hart
    .next (updHart { s with hartLines := serase s.hartLines hart, hartOps := updWhere mine (fun o => { o with stale := true }) s.hartOps } hart Hart.past)

/-! ### Management commands -/

/-- MGMT_ASSIGN (R397, R419, R420, R427). -/
def execMgmtAssign (kind : AssignKind) (n domain : Nat) (s : State) : Result :=
  if 64 ≤ domain then .next s
  else
    let owned := fun (w : Word64) => setBit (setFld w 5 0 domain) 63 true
    match kind with
    | .core => .next (writeCoreDom s n (owned (regGet s (.coreDom n) &&& ~~~0x1000000000000000#64)))
    | .hart => .next (writeSbxDom s n (owned (regGet s (.sbxDom n) &&& ~~~0x1000000000000000#64)))
    | .queue => .next (writeQcfg s n (setFld (regGet s (.qcfg n)) 55 50 domain))
    | .function => .next (if n < 64 then { s with funcDomain := sset 0 s.funcDomain n domain } else s)
    | .memoryGib => .next { s with memGrants := (s.memGrants.filter fun g => g.1 != n) ++ [(n, domain)] }

/-- MGMT_DEBUG_ENABLE (R320, R427). DESIGN CHOICE, log entry 38. -/
def execMgmtDebugEnable (domain : Nat) (s : State) : Result :=
  .next (if domain < 64 then { s with debugOn := setBit s.debugOn domain true } else s)

/-- MGMT_DEBUG_DISABLE (R320, R427): agents halted there issue their BKPT again, which now has no effect. DESIGN CHOICE, log entry 38. -/
def execMgmtDebugDisable (domain : Nat) (s : State) : Result :=
  if 64 ≤ domain then .next s
  else
    let halted := fun (a : Agent) => (match a.hold with | some (.bkpt _ _) => true | _ => false)
      && (match gridOfAgent s a.key with | some g => g.domain == domain | none => false)
    .next { s with debugOn := setBit s.debugOn domain false, agents := updWhere halted (fun a => { a with hold := none }) s.agents }

/-- Harts of a domain. -/
def domainHarts (s : State) (d : Nat) : List Nat :=
  (List.range 64).filter fun h => regBit s (.sbxDom h) 63 && regFld s (.sbxDom h) 5 0 == d

/-- DOMAIN_RESET (R422): the domain's harts stop and are zeroed with their cache lines; compute cores are not touched. DESIGN CHOICE, log entry 37. -/
def execDomainReset (domain : Nat) (s : State) : Result :=
  let hs := domainHarts s domain
  let theirs := fun (l : SbxLine) => hs.any (bit l.harts) || s.memGrants.contains (l.line * 128 / 2 ^ 30, domain)
  .next { hs.foldl dropHart s with sbxLines := s.sbxLines.filter fun l => !theirs l }

/-- FIRMWARE_UPDATE (R427): staged until the next package reset. -/
def execFirmwareUpdate (image : Nat) (bytes : List Byte) (s : State) : Result :=
  .next (if image < 4 then { s with staged := (s.staged.filter fun e => e.1 != image) ++ [(image, bytes)] } else s)

/-- The report of R426: nonce, MEAS_0 to MEAS_7, PKGCFG, firmware versions, certificate chain. DESIGN CHOICE, log entry 6.
DESIGN CHOICE, log entry 38. -/
def reportBytes (s : State) (nonce : List Byte) : List Byte :=
  nonce ++ s.meas.flatten ++ leBytes 8 (regGet s .pkgcfg).toNat ++ s.firmware.flatMap Config.firmwareVersion ++ Config.certificateChain

/-- ATTESTATION_REQUEST (R426): a report over a 32-byte nonce, signed by the identity key that boot derived. DESIGN CHOICE, log entry 38. -/
def execAttestationRequest (nonce : List Byte) (s : State) : Result :=
  if nonce.length != 32 || s.boot != .done then .refused (.notDue "ATTESTATION_REQUEST")
  else .next (emitOut s (.report (reportBytes s nonce) (Config.attestationSignature (reportBytes s nonce))))

end Sys2Proof.Machine
end

