-- ==== Sys2Proof/Machine/Boot.lean ====
section
/-! DEFINITION. Package reset, staggered power-up, measured boot and release (R12, R13, R48, R386, R408, R409, R425). -/

namespace Sys2Proof.Machine

/-- What host memory keeps of an emergency save across a reset: queues not written yet are lost (R408). DEDUCED, log entry 33. -/
def emAfterReset (e : EmSave) : EmSave := { e with pending := [], lost := e.lost ++ e.pending }

/-- The firmware images that a reset takes into use (R427). DEDUCED, log entry 35. -/
def firmwareAfterReset (s : State) : List (List Byte) :=
  (List.range 4).map fun i => match s.staged.find? fun e => e.1 == i with
    | some e => e.2
    | none => (s.firmware[i]?).getD []

/-- PACKAGE_RESET (R93, R386, R407 to R409, R425, R427): the machine of reset; DRAM with its rewrite masks, the areas in host memory, the
firmware and, while standby power is present, EMSTAT.hard are kept. DEDUCED, log entry 35. -/
def execPackageReset (s : State) : Result :=
  let r := { State.reset with
    agenda := s.agenda
    freeCount := s.freeCount
    mem := s.mem
    dramPoison := s.dramPoison
    badSymbols := s.badSymbols
    rewrites := s.rewrites
    em := s.em.map emAfterReset
    saves := s.saves.filter (·.emergency)
    firmware := firmwareAfterReset s
    hostUp := s.hostUp
    links18 := s.links18.map fun l => (l.1, l.2.1, 0)
    outputs := s.outputs
    nextId := s.nextId }
  .next (regSetBit r .emstat 63 (s.standby && regBit s .emstat 63))

/-- STANDBY_POWER_LOSS (R409): EMSTAT.hard is not kept any longer; with package power cut it is gone at once. -/
def execStandbyPowerLoss (s : State) : Result :=
  .next { (if s.hardTrip then regSetBit s .emstat 63 false else s) with standby := false }

/-- SOCKET_POWER_UP (R386): sockets 0 to 30 in ascending order, socket s at 50 µs × (s + 1); a chiplet that an emergency save has powered
down stays down until the next package reset (R407). DEDUCED, log entry 33. DEDUCED, log entry 35. -/
def execSocketPowerUp (sock : Nat) (s : State) : Result :=
  if 31 ≤ sock ∨ s.powered.getLsbD sock = true ∨ s.time < 50000 * (sock + 1) ∨ regBit s .emstat 61 = true
      ∨ (List.range sock).any (fun i => !s.powered.getLsbD i) = true then .refused (.notDue "SOCKET_POWER_UP")
  else .next { s with powered := s.powered ||| BitVec.ofNat 32 (2 ^ sock) }

/-- The images verified and measured in their order (R425): the state, and whether all of them pass. DESIGN CHOICE, log entry 6.
DEDUCED, log entry 35. -/
def measureImages (s : State) : List (Nat × BootImage) → State × Bool
  | [] => (s, true)
  | (j, b) :: r =>
    let d := sha3 b.bytes
    if Config.signatureValid 0 d b.signature then measureImages (extendMeas s j d) r else (s, false)

/-- PKGCFG as boot writes it for the live dies (R12, R13). -/
def packageConfig (live : BitVec 32) : Word64 :=
  let m := popCount (live.toNat / 2 ^ 12) 16
  let d := popCount live.toNat 28
  BitVec.ofNat 64 (live.toNat + m * 2 ^ 32 + d * 2 ^ 37 + 144 * m * 2 ^ 42)

/-- Where the branch nodes of the whisk tree run: each on the lowest-numbered live chiplet of its group, none for a group without one (R49).
DEDUCED, log entry 19. -/
def branchHosts (live : BitVec 32) : Sparse Nat :=
  (List.range 4).foldl (fun m b => match ((List.range 3).map (3 * b + ·)).find? fun i => live.getLsbD i with
    | some i => sset 0 m b (i + 1)
    | none => m) []

/-- Boot ends without releasing a chiplet (R13, R425). DEDUCED, log entry 35. -/
def bootStops (s : State) : State := emitOut { s with boot := .stopped } .bootFailed

/-- Whether the package times of any two chiplets differ by at most a bound: of the live ones, or before boot has found those, of all that have
power (R48). -/
def withinSkew (s : State) (bound : Nat) : Bool :=
  let counted := fun (i : Nat) => s.powered.getLsbD i && !socketFailed s i && (s.boot != .done || isLive s i)
  let times := ((List.range 32).filter counted).map (timeAt s)
  match times.max?, times.min? with
  | some a, some b => decide (a ≤ b + bound)
  | _, _ => true

/-- MEASURED_BOOT (R12, R13, R48, R49, R425, R427): the bound that it publishes holds already, and the exchanges that release a chiplet are
counted under it. DEDUCED, log entry 35. -/
def execMeasuredBoot (b : BootImages) (s : State) : Result :=
  let images := [b.service, b.compute, b.memory, b.sandbox]
  let updated := (s.firmware.zip images).all fun e => e.1.isEmpty || e.1 == e.2.bytes
  if s.boot != .before || s.powered != 0xFFFFFFFF || b.boundNs == 0 || 3 < b.boundNs || !updated || !withinSkew s b.boundNs.toNat then .refused (.notDue "MEASURED_BOOT")
  else
    let (s, sound) := measureImages { s with firmware := images.map (·.bytes) } [(0, b.service), (1, b.compute), (2, b.memory), (3, b.sandbox)]
    let live := b.selfTest ||| 0x80000000#32
    if !sound || popCount live.toNat 12 == 0 || popCount (live.toNat / 2 ^ 12) 16 == 0 then .next (bootStops s)
    else
      let s := regSet (regPut s .pkgcfg (packageConfig live)) .timeskew 7 0 b.boundNs.toNat
      let record := leBytes 8 (regGet s .pkgcfg).toNat ++ leBytes 4 (regGet s .timeskew).toNat
      .next { extendMeas s 4 (sha3 record) with boot := .done, released := 0x80000000, branches := branchHosts live,
                                                 clocks := s.clocks.map fun e => (e.1, { e.2 with good := 0 }) }

/-- CHIPLET_RELEASE (R48): three successive exchanges have left the offset within half the bound. -/
def execChipletRelease (sock : Nat) (s : State) : Result :=
  if 31 ≤ sock ∨ s.boot ≠ .done ∨ running s sock = false ∨ s.released.getLsbD sock = true ∨ (sget clockInit s.clocks sock).good < 3 then
    .refused (.notDue "CHIPLET_RELEASE")
  else .next { s with released := s.released ||| BitVec.ofNat 32 (2 ^ sock) }

end Sys2Proof.Machine
end

