-- ==== Sys2Proof/Machine/Dispatch.lean ====
section
/-! DEFINITION. What each instruction of Daref and each step of the package does: one arm per constructor of `Instr`. -/

namespace Sys2Proof.Machine

/-- The meaning of an instruction or step in a state; a Daref instruction is issued by the agent that has the turn. -/
def exec (i : Instr) (s : State) : Host.Outcome State Fault Refusal :=
  match i with
  | .nop x => Sys2Proof.Machine.execNop x s
  | .bra x => Sys2Proof.Machine.execBra x s
  | .brx x => Sys2Proof.Machine.execBrx x s
  | .call x => Sys2Proof.Machine.execCall x s
  | .callx x => Sys2Proof.Machine.execCallx x s
  | .ret x => Sys2Proof.Machine.execRet x s
  | .join x => Sys2Proof.Machine.execJoin x s
  | .waitj x => Sys2Proof.Machine.execWaitj x s
  | .exit x => Sys2Proof.Machine.execExit x s
  | .yield x => Sys2Proof.Machine.execYield x s
  | .safe x => Sys2Proof.Machine.execSafe x s
  | .launch x => Sys2Proof.Machine.execLaunch x s
  | .cropen x => Sys2Proof.Machine.execCropen x s
  | .crclose x => Sys2Proof.Machine.execCrclose x s
  | .trap x => Sys2Proof.Machine.execTrap x s
  | .bkpt x => Sys2Proof.Machine.execBkpt x s
  | .step x => Sys2Proof.Machine.execStep x s
  | .redt x => Sys2Proof.Machine.execRedt x s
  | .waittl x => Sys2Proof.Machine.execWaittl x s
  | .tlrd x => Sys2Proof.Machine.execTlrd x s
  | .tladv x => Sys2Proof.Machine.execTladv x s
  | .sleep x => Sys2Proof.Machine.execSleep x s
  | .rdtime x => Sys2Proof.Machine.execRdtime x s
  | .movsr x => Sys2Proof.Machine.execMovsr x s
  | .movrs x => Sys2Proof.Machine.execMovrs x s
  | .iadd x => Sys2Proof.Machine.execIadd x s
  | .isub x => Sys2Proof.Machine.execIsub x s
  | .iaddc x => Sys2Proof.Machine.execIaddc x s
  | .imul x => Sys2Proof.Machine.execImul x s
  | .imulh x => Sys2Proof.Machine.execImulh x s
  | .imad x => Sys2Proof.Machine.execImad x s
  | .imadw x => Sys2Proof.Machine.execImadw x s
  | .idiv x => Sys2Proof.Machine.execIdiv x s
  | .irem x => Sys2Proof.Machine.execIrem x s
  | .ineg x => Sys2Proof.Machine.execIneg x s
  | .iabs x => Sys2Proof.Machine.execIabs x s
  | .imin x => Sys2Proof.Machine.execImin x s
  | .imax x => Sys2Proof.Machine.execImax x s
  | .lea x => Sys2Proof.Machine.execLea x s
  | .icmp x => Sys2Proof.Machine.execIcmp x s
  | .psel x => Sys2Proof.Machine.execPsel x s
  | .mov x => Sys2Proof.Machine.execMov x s
  | .movi x => Sys2Proof.Machine.execMovi x s
  | .movil x => Sys2Proof.Machine.execMovil x s
  | .plut x => Sys2Proof.Machine.execPlut x s
  | .p2v x => Sys2Proof.Machine.execP2v x s
  | .v2p x => Sys2Proof.Machine.execV2p x s
  | .dot4 x => Sys2Proof.Machine.execDot4 x s
  | .and x => Sys2Proof.Machine.execAnd x s
  | .or x => Sys2Proof.Machine.execOr x s
  | .xor x => Sys2Proof.Machine.execXor x s
  | .andn x => Sys2Proof.Machine.execAndn x s
  | .not x => Sys2Proof.Machine.execNot x s
  | .lut3 x => Sys2Proof.Machine.execLut3 x s
  | .shl x => Sys2Proof.Machine.execShl x s
  | .shr x => Sys2Proof.Machine.execShr x s
  | .sar x => Sys2Proof.Machine.execSar x s
  | .rot x => Sys2Proof.Machine.execRot x s
  | .fshf x => Sys2Proof.Machine.execFshf x s
  | .bfe x => Sys2Proof.Machine.execBfe x s
  | .bfi x => Sys2Proof.Machine.execBfi x s
  | .popc x => Sys2Proof.Machine.execPopc x s
  | .clz x => Sys2Proof.Machine.execClz x s
  | .ctz x => Sys2Proof.Machine.execCtz x s
  | .brev x => Sys2Proof.Machine.execBrev x s
  | .bperm x => Sys2Proof.Machine.execBperm x s
  | .vote x => Sys2Proof.Machine.execVote x s
  | .ballot x => Sys2Proof.Machine.execBallot x s
  | .xlane x => Sys2Proof.Machine.execXlane x s
  | .matchL x => Sys2Proof.Machine.execMatchL x s
  | .redux x => Sys2Proof.Machine.execRedux x s
  | .scanx x => Sys2Proof.Machine.execScanx x s
  | .readl x => Sys2Proof.Machine.execReadl x s
  | .bcast x => Sys2Proof.Machine.execBcast x s
  | .fadd x => Sys2Proof.Machine.execFadd x s
  | .fsub x => Sys2Proof.Machine.execFsub x s
  | .fmul x => Sys2Proof.Machine.execFmul x s
  | .ffma x => Sys2Proof.Machine.execFfma x s
  | .fmin x => Sys2Proof.Machine.execFmin x s
  | .fmax x => Sys2Proof.Machine.execFmax x s
  | .fcmp x => Sys2Proof.Machine.execFcmp x s
  | .fclass x => Sys2Proof.Machine.execFclass x s
  | .frnd x => Sys2Proof.Machine.execFrnd x s
  | .ffrac x => Sys2Proof.Machine.execFfrac x s
  | .fscale x => Sys2Proof.Machine.execFscale x s
  | .frcp x => Sys2Proof.Machine.execFrcp x s
  | .frsq x => Sys2Proof.Machine.execFrsq x s
  | .fsqrt x => Sys2Proof.Machine.execFsqrt x s
  | .fexp2 x => Sys2Proof.Machine.execFexp2 x s
  | .flog2 x => Sys2Proof.Machine.execFlog2 x s
  | .fsin x => Sys2Proof.Machine.execFsin x s
  | .fcos x => Sys2Proof.Machine.execFcos x s
  | .ftanh x => Sys2Proof.Machine.execFtanh x s
  | .pkadd x => Sys2Proof.Machine.execPkadd x s
  | .pkmul x => Sys2Proof.Machine.execPkmul x s
  | .pkfma x => Sys2Proof.Machine.execPkfma x s
  | .pkmax x => Sys2Proof.Machine.execPkmax x s
  | .dadd x => Sys2Proof.Machine.execDadd x s
  | .dmul x => Sys2Proof.Machine.execDmul x s
  | .dfma x => Sys2Proof.Machine.execDfma x s
  | .dcmp x => Sys2Proof.Machine.execDcmp x s
  | .fcvt x => Sys2Proof.Machine.execFcvt x s
  | .icvt x => Sys2Proof.Machine.execIcvt x s
  | .fpack x => Sys2Proof.Machine.execFpack x s
  | .funpack x => Sys2Proof.Machine.execFunpack x s
  | .bound x => Sys2Proof.Machine.execBound x s
  | .mma x => Sys2Proof.Machine.execMma x s
  | .mmaz x => Sys2Proof.Machine.execMmaz x s
  | .fmtv x => Sys2Proof.Machine.execFmtv x s
  | .accepi x => Sys2Proof.Machine.execAccepi x s
  | .accck x => Sys2Proof.Machine.execAccck x s
  | .mjob x => Sys2Proof.Machine.execMjob x s
  | .accld x => Sys2Proof.Machine.execAccld x s
  | .accst x => Sys2Proof.Machine.execAccst x s
  | .accz x => Sys2Proof.Machine.execAccz x s
  | .ld x => Sys2Proof.Machine.execLd x s
  | .st x => Sys2Proof.Machine.execSt x s
  | .lda x => Sys2Proof.Machine.execLda x s
  | .chka x => Sys2Proof.Machine.execChka x s
  | .invala x => Sys2Proof.Machine.execInvala x s
  | .ldix x => Sys2Proof.Machine.execLdix x s
  | .pref x => Sys2Proof.Machine.execPref x s
  | .prefb x => Sys2Proof.Machine.execPrefb x s
  | .cwb x => Sys2Proof.Machine.execCwb x s
  | .icinv x => Sys2Proof.Machine.execIcinv x s
  | .fetchb x => Sys2Proof.Machine.execFetchb x s
  | .fence x => Sys2Proof.Machine.execFence x s
  | .lds x => Sys2Proof.Machine.execLds x s
  | .sts x => Sys2Proof.Machine.execSts x s
  | .stx x => Sys2Proof.Machine.execStx x s
  | .ldf x => Sys2Proof.Machine.execLdf x s
  | .ste x => Sys2Proof.Machine.execSte x s
  | .stf x => Sys2Proof.Machine.execStf x s
  | .tagset x => Sys2Proof.Machine.execTagset x s
  | .tagclr x => Sys2Proof.Machine.execTagclr x s
  | .tagrd x => Sys2Proof.Machine.execTagrd x s
  | .prsrd x => Sys2Proof.Machine.execPrsrd x s
  | .atom x => Sys2Proof.Machine.execAtom x s
  | .red x => Sys2Proof.Machine.execRed x s
  | .atoms x => Sys2Proof.Machine.execAtoms x s
  | .reds x => Sys2Proof.Machine.execReds x s
  | .atomx x => Sys2Proof.Machine.execAtomx x s
  | .copy x => Sys2Proof.Machine.execCopy x s
  | .copyg x => Sys2Proof.Machine.execCopyg x s
  | .copys x => Sys2Proof.Machine.execCopys x s
  | .copyr x => Sys2Proof.Machine.execCopyr x s
  | .cbload x => Sys2Proof.Machine.execCbload x s
  | .cbdrop x => Sys2Proof.Machine.execCbdrop x s
  | .cqry x => Sys2Proof.Machine.execCqry x s
  | .switchMarkerPass a => Sys2Proof.Machine.execSwitchMarkerPass a s
  | .fenceComplete a => Sys2Proof.Machine.execFenceComplete a s
  | .sleepExpiry a => Sys2Proof.Machine.execSleepExpiry a s
  | .leaseExpiry core line => Sys2Proof.Machine.execLeaseExpiry core line s
  | .addressTableExpiry a => Sys2Proof.Machine.execAddressTableExpiry a s
  | .absentLineWake a => Sys2Proof.Machine.execAbsentLineWake a s
  | .stepComplete g => Sys2Proof.Machine.execStepComplete g s
  | .nextPlaneRefillDone team region => Sys2Proof.Machine.execNextPlaneRefillDone team region s
  | .redtResult g k => Sys2Proof.Machine.execRedtResult g k s
  | .whiskMessage n => Sys2Proof.Machine.execWhiskMessage n s
  | .rd h => Sys2Proof.Machine.execRd h s
  | .rdr h => Sys2Proof.Machine.execRdr h s
  | .wr h => Sys2Proof.Machine.execWr h s
  | .wrc h => Sys2Proof.Machine.execWrc h s
  | .atPkt h => Sys2Proof.Machine.execAtPkt h s
  | .atr h => Sys2Proof.Machine.execAtr h s
  | .lx h => Sys2Proof.Machine.execLx h s
  | .fm h => Sys2Proof.Machine.execFm h s
  | .fmr h => Sys2Proof.Machine.execFmr h s
  | .xm h => Sys2Proof.Machine.execXm h s
  | .pf h => Sys2Proof.Machine.execPf h s
  | .pfReply h => Sys2Proof.Machine.execPfReply h s
  | .rm h => Sys2Proof.Machine.execRm h s
  | .rma h => Sys2Proof.Machine.execRma h s
  | .lc h => Sys2Proof.Machine.execLc h s
  | .lossNotice h => Sys2Proof.Machine.execLossNotice h s
  | .tx h => Sys2Proof.Machine.execTx h s
  | .reservedPacket h => Sys2Proof.Machine.execReservedPacket h s
  | .linkRetryTimeout h => Sys2Proof.Machine.execLinkRetryTimeout h s
  | .colourDark h optical => Sys2Proof.Machine.execColourDark h optical s
  | .routeWrite m n v => Sys2Proof.Machine.execRouteWrite m n v s
  | .routeRetest m n v => Sys2Proof.Machine.execRouteRetest m n v s
  | .routeRetestDone m n okA okB => Sys2Proof.Machine.execRouteRetestDone m n okA okB s
  | .timeExchange sock t1 t2 t3 t4 => Sys2Proof.Machine.execTimeExchange sock t1 t2 t3 t4 s
  | .translationRequest h => Sys2Proof.Machine.execTranslationRequest h s
  | .walkReferenceReply sock walk => Sys2Proof.Machine.execWalkReferenceReply sock walk s
  | .pageRequestPost sock => Sys2Proof.Machine.execPageRequestPost sock s
  | .prqRecordComplete ctx => Sys2Proof.Machine.execPrqRecordComplete ctx s
  | .prrespRetry ctx v => Sys2Proof.Machine.execPrrespRetry ctx v s
  | .prrespRefuse ctx v => Sys2Proof.Machine.execPrrespRefuse ctx v s
  | .xlatinvRange v => Sys2Proof.Machine.execXlatinvRange v s
  | .xlatinvContext v => Sys2Proof.Machine.execXlatinvContext v s
  | .xlatinvAll v => Sys2Proof.Machine.execXlatinvAll v s
  | .xlatinvComplete => Sys2Proof.Machine.execXlatinvComplete s
  | .pinctlUnpinRange n v => Sys2Proof.Machine.execPinctlUnpinRange n v s
  | .pinctlUnpinAll n v => Sys2Proof.Machine.execPinctlUnpinAll n v s
  | .pinctlComplete n => Sys2Proof.Machine.execPinctlComplete n s
  | .scrubRead n => Sys2Proof.Machine.execScrubRead n s
  | .memerrClear n v => Sys2Proof.Machine.execMemerrClear n v s
  | .icinvCommit h => Sys2Proof.Machine.execIcinvCommit h s
  | .lineFill a line => Sys2Proof.Machine.execLineFill a line s
  | .copyChunk c e => Sys2Proof.Machine.execCopyChunk c e s
  | .copyComplete c e n => Sys2Proof.Machine.execCopyComplete c e n s
  | .cbloadServe c e => Sys2Proof.Machine.execCbloadServe c e s
  | .cbdropServe c e => Sys2Proof.Machine.execCbdropServe c e s
  | .jobAdmission cluster => Sys2Proof.Machine.execJobAdmission cluster s
  | .jobStep core => Sys2Proof.Machine.execJobStep core s
  | .jobComplete core => Sys2Proof.Machine.execJobComplete core s
  | .queueWindowWrite w => Sys2Proof.Machine.execQueueWindowWrite w s
  | .qcfgWrite q v => Sys2Proof.Machine.execQcfgWrite q v s
  | .qstatClear q v => Sys2Proof.Machine.execQstatClear q v s
  | .dispatchTake => Sys2Proof.Machine.execDispatchTake s
  | .teamPlace grid team core => Sys2Proof.Machine.execTeamPlace grid team core s
  | .cohortPlace grid cores => Sys2Proof.Machine.execCohortPlace grid cores s
  | .cohortWaitExpiry q => Sys2Proof.Machine.execCohortWaitExpiry q s
  | .teamRetire team => Sys2Proof.Machine.execTeamRetire team s
  | .gridRetire grid => Sys2Proof.Machine.execGridRetire grid s
  | .controlIntervalBoundary loads => Sys2Proof.Machine.execControlIntervalBoundary loads s
  | .shedSafeDeadline => Sys2Proof.Machine.execShedSafeDeadline s
  | .shelfSample f v good => Sys2Proof.Machine.execShelfSample f v good s
  | .telemetryStale => Sys2Proof.Machine.execTelemetryStale s
  | .droopCurveWrite k v => Sys2Proof.Machine.execDroopCurveWrite k v s
  | .droopDetect cluster => Sys2Proof.Machine.execDroopDetect cluster s
  | .droopHoldExpiry cluster => Sys2Proof.Machine.execDroopHoldExpiry cluster s
  | .preemptSave v => Sys2Proof.Machine.execPreemptSave v s
  | .preemptResume v => Sys2Proof.Machine.execPreemptResume v s
  | .preemptCancel v => Sys2Proof.Machine.execPreemptCancel v s
  | .teamSave grid => Sys2Proof.Machine.execTeamSave grid s
  | .teamRestore grid cores => Sys2Proof.Machine.execTeamRestore grid cores s
  | .watchdogExpiry a => Sys2Proof.Machine.execWatchdogExpiry a s
  | .thermalReport sock deg => Sys2Proof.Machine.execThermalReport sock deg s
  | .emergencySaveComplete => Sys2Proof.Machine.execEmergencySaveComplete s
  | .scanDrain v => Sys2Proof.Machine.execScanDrain v s
  | .scanDrainComplete => Sys2Proof.Machine.execScanDrainComplete s
  | .scanRun v => Sys2Proof.Machine.execScanRun v s
  | .scanRunComplete => Sys2Proof.Machine.execScanRunComplete s
  | .scanRelease v => Sys2Proof.Machine.execScanRelease v s
  | .coreDomWrite g v => Sys2Proof.Machine.execCoreDomWrite g v s
  | .fltbaseWrite d v => Sys2Proof.Machine.execFltbaseWrite d v s
  | .cestatClear c e v => Sys2Proof.Machine.execCestatClear c e v s
  | .hidstatClear v => Sys2Proof.Machine.execHidstatClear v s
  | .hostcfgRearm v => Sys2Proof.Machine.execHostcfgRearm v s
  | .pacecfgWrite v => Sys2Proof.Machine.execPacecfgWrite v s
  | .pacePeriodEnd => Sys2Proof.Machine.execPacePeriodEnd s
  | .lagWordReceive lag => Sys2Proof.Machine.execLagWordReceive lag s
  | .registerWrite r v => Sys2Proof.Machine.execRegisterWrite r v s
  | .hostMemRead q => Sys2Proof.Machine.execHostMemRead q s
  | .hostMemWrite q => Sys2Proof.Machine.execHostMemWrite q s
  | .hostWriteCompletion n => Sys2Proof.Machine.execHostWriteCompletion n s
  | .snoopResponse line cells => Sys2Proof.Machine.execSnoopResponse line cells s
  | .hostLinkTimeout => Sys2Proof.Machine.execHostLinkTimeout s
  | .snoopTimeout line => Sys2Proof.Machine.execSnoopTimeout line s
  | .dieFailure sock => Sys2Proof.Machine.execDieFailure sock s
  | .computeChipletFailure sock => Sys2Proof.Machine.execComputeChipletFailure sock s
  | .dieErrorReport sock => Sys2Proof.Machine.execDieErrorReport sock s
  | .scaleupLinkState port st => Sys2Proof.Machine.execScaleupLinkState port st s
  | .scaleupRecoveryTimeout port => Sys2Proof.Machine.execScaleupRecoveryTimeout port s
  | .hartFence hart predW succR => Sys2Proof.Machine.execHartFence hart predW succR s
  | .hartAmo hart q => Sys2Proof.Machine.execHartAmo hart q s
  | .hartLr hart pa w64 => Sys2Proof.Machine.execHartLr hart pa w64 s
  | .hartSc hart pa w64 v => Sys2Proof.Machine.execHartSc hart pa w64 v s
  | .hartFenceI hart => Sys2Proof.Machine.execHartFenceI hart s
  | .mgmtAssign kind n domain => Sys2Proof.Machine.execMgmtAssign kind n domain s
  | .mgmtDebugEnable domain => Sys2Proof.Machine.execMgmtDebugEnable domain s
  | .mgmtDebugDisable domain => Sys2Proof.Machine.execMgmtDebugDisable domain s
  | .mgmtDeclareHostLost => Sys2Proof.Machine.execMgmtDeclareHostLost s
  | .domainReset domain => Sys2Proof.Machine.execDomainReset domain s
  | .firmwareUpdate image bytes => Sys2Proof.Machine.execFirmwareUpdate image bytes s
  | .attestationRequest nonce => Sys2Proof.Machine.execAttestationRequest nonce s
  | .debugResume a => Sys2Proof.Machine.execDebugResume a s
  | .packageReset => Sys2Proof.Machine.execPackageReset s
  | .socketPowerUp sock => Sys2Proof.Machine.execSocketPowerUp sock s
  | .measuredBoot b => Sys2Proof.Machine.execMeasuredBoot b s
  | .chipletRelease sock => Sys2Proof.Machine.execChipletRelease sock s
  | .hostLinkL0Change up => Sys2Proof.Machine.execHostLinkL0Change up s
  | .systemRangeReply n r => Sys2Proof.Machine.execSystemRangeReply n r s
  | .icinvChipletAck a sock => Sys2Proof.Machine.execIcinvChipletAck a sock s
  | .standbyPowerLoss => Sys2Proof.Machine.execStandbyPowerLoss s

end Sys2Proof.Machine
end

