-- ==== Sys2Proof/Machine/Auto.lean ====
section
/-! DEFINITION. The moves of the machine: which agent issues, what time brings, and the steps of the package that are due
(R47, R98, R202, R203, R345, R351 to R353, R405). -/

namespace Sys2Proof.Machine

/-! ### Who may issue -/

/-- Whether what a fetch gives at a PC can be used now. -/
def fetched (a : Agent) (pc : Nat) : Bool := match fetchAt a pc with | .wait => false | _ => true

/-- What an agent's issue gives at a PC (R188, R190, R199, R200, R315): the fetched word's instruction with the agent's turn, or the event that
is raised there. DEDUCED, log entry 28. -/
def issueAt (s : State) (a : Agent) (pc : Nat) : Result :=
  match fetchAt a pc with
  | .wait => .next s
  | .fault e => .next (raise s a.key e)
  | .word w => match decode w with
    | some i => exec i { s with turn := some a.key }
    | none => .next (raise s a.key (mkEvent (if 256 ≤ a.issueCount then 15 else 1) 0 (maskOf (executing a pc)) pc))

/-- Whether the instruction at an agent's PC lacks what it needs: a waiting-table entry, FP64 lanes or a slot in the job queue (R351). -/
def lacking (s : State) (a : Agent) (pc : Nat) : Bool :=
  match issueAt s a pc with
  | .next s => (agentOf s a.key).any fun b => b.hold == some .lacking
  | _ => false

/-- Whether an agent is ready in the current cycle of its cluster (R351). -/
def ready (s : State) (a : Agent) (t : Team) : Bool :=
  canIssue a && decide (a.nextIssue ≤ cycleOf s t.core) && a.needLine.isNone && match issueAddress a with
    | some pc => fetched a pc && !lacking s a pc
    | none => false

/-- The place that an agent issues from: a quadrant of its core, or the core's ladle (R98, R351). -/
def issuePlace (t : Team) (a : Agent) : Nat := t.core % 4 * 5 + if isLadle a.key then 4 else a.slot / 16

/-- Rank of a warp (R352). -/
def warpRank (a : Agent) : Nat := if 240 ≤ a.waitCount then 1 else if a.gaveWay then 3 else 2

/-- Whether a warp is picked before another (R352). -/
def picksFirst (x y : Agent) : Bool :=
  decide (warpRank x < warpRank y) || (warpRank x == warpRank y &&
    if warpRank x = 1 then decide (y.waitCount < x.waitCount ∨ (x.waitCount = y.waitCount ∧ x.slot < y.slot))
    else decide (x.lastIssue < y.lastIssue ∨ (x.lastIssue = y.lastIssue ∧ x.slot < y.slot)))

/-- The turn of a ladle context: round-robin from the one after the last (R95). -/
def ladleRank (turns : List (Nat × Nat)) (core slot : Nat) : Nat :=
  match turns.find? fun e => e.1 == core % 4 with
  | some e => (slot + 8 - (e.2 + 1)) % 8
  | none => slot

/-- The order in which the ladle picks a context: one that has yielded gives up its turn to another that is ready (R95, R314). -/
def ladleOrder (turns : List (Nat × Nat)) (core : Nat) (a : Agent) : Nat := ladleRank turns core a.slot + if a.gaveWay then 8 else 0

/-- Whether an agent is about to issue a CHKA. -/
def atChka (a : Agent) : Bool :=
  match issueAddress a with
  | some pc => match fetchAt a pc with
    | .word w => match decode w with
      | some (.chka _) => true
      | _ => false
    | _ => false
  | none => false

/-- The place by which a cluster notes that a CHKA of a core has issued in the cycle, behind which the core's other instructions wait (R163). -/
def chkaPlace (t : Team) : Nat := 20 + t.core % 4

/-- Whether an agent is the one that its quadrant or ladle picks in this cycle (R95, R163, R351, R352). -/
def isPicked (s : State) (a : Agent) (t : Team) : Bool :=
  let c := sget clusterInit s.clusters (clusterOf t.core)
  let rivals := s.agents.filter fun b => b.key != a.key && match teamOf s b.key.team with
    | some u => u.core == t.core && issuePlace u b == issuePlace t a && ready s b u
    | none => false
  let loses := fun (b : Agent) =>
    if isLadle a.key then decide (ladleOrder c.ladleTurn t.core b < ladleOrder c.ladleTurn t.core a) else picksFirst b a
  ready s a t && !c.issued.contains (issuePlace t a) && (atChka a || !c.issued.contains (chkaPlace t)) && !rivals.any loses

/-- Contexts of a core whose turn comes before a context's, and that have given it up to it (R314). -/
def turnsGiven (s : State) (t : Team) (a : Agent) : List AgentKey :=
  let turns := (sget clusterInit s.clusters (clusterOf t.core)).ladleTurn
  if !isLadle a.key then []
  else (s.agents.filter fun b => b.key != a.key && isLadle b.key && b.gaveWay && coreOfAgent s b.key == t.core
    && decide (ladleRank turns t.core b.slot < ladleRank turns t.core a.slot)).map (·.key)

/-- An issue is noted in its cluster: the place has issued in this cycle (R351), a CHKA too (R163), and the ladle's turn has passed (R95, R314). -/
def noteIssue (s : State) (t : Team) (a : Agent) : State :=
  let given := turnsGiven s t a
  { s with
    agents := updWhere (fun b => given.contains b.key) (fun b => { b with gaveWay := false }) s.agents
    clusters := supd clusterInit s.clusters (clusterOf t.core) fun c =>
      { c with issued := issuePlace t a :: (if atChka a then [chkaPlace t] else []) ++ c.issued
               ladleTurn := if isLadle a.key then (t.core % 4, a.slot) :: c.ladleTurn.filter (fun e => e.1 != t.core % 4) else c.ladleTurn } }

/-- Whether a chiplet has missed three successive time exchanges, so that it issues no more (R399). -/
def masterLost (s : State) (sock : Nat) : Bool := decide (3 ≤ (sget clockInit s.clocks sock).missed)

/-- Whether an agent issues now: it is picked, and a CHKA comes after what its core's other places issue in the cycle (R163). -/
def issuesNow (s : State) (a : Agent) (t : Team) : Bool :=
  isPicked s a t && !masterLost s (socketOf t.core) && !(atChka a && s.agents.any fun b => b.key != a.key && !atChka b && match teamOf s b.key.team with
    | some u => u.core == t.core && isPicked s b u
    | none => false)

/-- Whether an agent has issued since a state. -/
def hasIssued (a : Agent) (s : State) : Bool := match agentOf s a.key with | some b => b.issues != a.issues | none => true

/-- An agent issues (R345, R351, R352); one that is not picked does not. -/
def runIssue (s : State) (k : AgentKey) : Result :=
  match agentOf s k, teamOf s k.team with
  | some a, some t =>
    if !issuesNow s a t then .next s
    else match issueAddress a with
      | none => .next s
      | some pc => match issueAt s a pc with
        | .next s' => .next (if hasIssued a s' then noteIssue s' t a else s')
        | r => r
  | _, _ => .next s

/-! ### Results, cycles and time -/

/-- The register and lane that an effect is of, as a class and two numbers; poison marks go with their register (R153, R204). -/
def RegWrite.place : RegWrite → Nat × Nat × Nat
  | .v r l _ | .vPoison r l _ => (0, r, l)
  | .s r _ | .sPoison r _ => (1, r, 0)
  | .p r l _ => (2, r, l)
  | .k r _ => (3, r, 0)
  | .special n _ => (4, n, 0)
  | .fpstat _ | .accsat | .hit _ => (5, 0, 0)

/-- A variable-latency result is written as a whole, with the event that it brings (R204). -/
def landWhole (s : State) (k : AgentKey) (n : Nat) (v : VarResult) : State :=
  let s := applyWrites (updAgent s k fun a => { a with vars := a.vars.eraseIdx n }) k v.writes
  match v.event with
  | some d => updAgent s k fun a => { a with deferred := a.deferred ++ [d] }
  | none => s

/-- A variable-latency result of an agent goes on (R204, R262): one that has still to be read is read now; otherwise it is written, as a whole
or one register of a lane before the others. Which is a free choice. DESIGN CHOICE, log entry 2. -/
def runLand (s : State) (k : AgentKey) (n : Nat) : State :=
  match (agentOf s k).bind fun a => a.vars[n]? with
  | none => s
  | some v =>
    let put := fun (s : State) (v : VarResult) => updAgent s k fun a => { a with vars := a.vars.set n v }
    match v.src with
    | some f => put s (sampleSource s v f)
    | none =>
      let places := (v.writes.map (·.place)).dedup
      if places.length < 2 then landWhole s k n v
      else
        let (i, s) := pick s (places.length + 1)
        match places[i]? with
        | some p => put (applyWrites s k (v.writes.filter fun w => w.place == p)) { v with writes := v.writes.filter fun w => w.place != p }
        | none => landWhole s k n v

/-- Agents of a cluster. -/
def clusterAgents (s : State) (c : Nat) : List (Agent × Team) :=
  s.agents.filterMap fun a => match teamOf s a.key.team with
    | some t => if clusterOf t.core == c then some (a, t) else none
    | none => none

/-- Whether a cycle of a cluster can end: its time is over, and every place that has a ready agent has issued (R351, R352).
DESIGN CHOICE, log entry 7. DESIGN CHOICE, log entry 21. -/
def cycleOver (s : State) (c : Nat) : Bool :=
  decide (100 ≤ (sget clusterInit s.clusters c).phase) && !(clusterAgents s c).any fun e => isPicked s e.1 e.2

/-- Markers of some agents that have nothing outstanding are passed by the end of the cycle after their issue (R353, R354). -/
def passMarkers (s : State) (ks : List AgentKey) (cycle : Nat) : State :=
  ks.foldl (fun s k => match agentOf s k with
    | some a => if a.lastIssue ≤ cycle then (passMarker s k).getD s else s
    | none => s) s

/-- A cycle of a cluster ends (R202, R203, R351, R353): warps that were ready and were not issued have waited, results take effect, and
markers that are due are passed. DESIGN CHOICE, log entry 21. -/
def runCycle (s : State) (c : Nat) : State :=
  let k := sget clusterInit s.clusters c
  if !cycleOver s c then s
  else
    let ags := clusterAgents s c
    let waited := (ags.filter fun e => ready s e.1 e.2).map fun e => e.1.key
    let keys := ags.map fun e => e.1.key
    let s := { s with
      clusters := sset clusterInit s.clusters c { k with phase := k.phase - 100, cycle := k.cycle + 1, issued := [] }
      agents := updWhere (fun a => waited.contains a.key) (fun a => { a with waitCount := a.waitCount + 1 }) s.agents }
    passMarkers (landAll s keys (k.cycle + 1)) keys k.cycle

/-- Hundredths of a cycle that a cluster's clock makes in a nanosecond: 1.90, 2.10 or 2.30 GHz, halved or not (R374, R384, R385).
DESIGN CHOICE, log entry 7. -/
def clockRate (s : State) (c : Nat) : Nat :=
  let r := match regFld s (.clstat c) 7 6 with | 0 => 190 | 1 => 210 | _ => 230
  if regBit s (.clstat c) 5 then r / 2 else r

/-- Whether a request is to a remote package whose link is recovering (R423). -/
def recovering (s : State) (r : SysReq) : Bool := decide (r.port < 16) && linkState s r.port == .recovering

/-- Requests of a requester that wait for recovering links. -/
def recoveringOf (s : State) (who : Requester) : Nat := (s.sysReqs.filter fun r => recovering s r && r.pkt.who == who).length

/-- What a reader has asked for and not been told. -/
def Reader.asked (r : Reader) : Nat :=
  (r.know.pages.filter fun p => p.2.2 == .asked).length + (r.know.sectors.filter fun p => p.2 == .asked).length

/-- Whether a fence in progress waits only for markers that wait behind requests to recovering links (R78, R405, R418). -/
def fenceRecovers (s : State) (k : AgentKey) (core : Nat) (f : Fence) : Bool :=
  let ms := s.markers.filter fun p => p.who == .fence core f.id (isLadle k)
  let ahead := fun (p : Packet) => s.sysReqs.filter fun r => r.pkt.src == p.src && r.pkt.dst == p.dst && r.pkt.planeB == p.planeB
  f.replies != 0 && ms.length == f.replies && ms.all fun p => !(ahead p).isEmpty && (ahead p).all (recovering s)

/-- Copies of a WAITTL's timeline that have requests out, with their chiplet and engine (R86, R324). -/
def copiesWaited (s : State) (team tl n : Nat) : List (Nat × Nat × CopyOp) :=
  s.engines.flatMap fun e => (e.2.queue.filter fun op => op.issuer.team == team && op.tl == tl && op.n ≤ n && op.outstanding != 0).map fun op =>
    (e.1 / 8, e.1 % 8, op)

/-- The requests that an agent waits on, and how many of them wait for recovering links: those of its accesses, its readers and the copies that a
WAITTL waits for (R405). -/
def waitedRequests (s : State) (a : Agent) (t : Team) : List (Nat × Nat) :=
  let es := (entriesOf s t.core a.key).map fun e => (e.expected, recoveringOf s (.entry t.core e.id (isLadle a.key)))
  let rs := (s.readers.filter fun r => r.goal.owner == some a.key).map fun r => (r.asked, recoveringOf s (.reader t.core r.id r.ladle))
  let cs := match a.hold with
    | some (.waittl tl n _) => (copiesWaited s t.uid tl n).map fun c => (c.2.2.outstanding, recoveringOf s (.engine c.1 c.2.1 c.2.2.seq))
    | _ => []
  es ++ rs ++ cs

/-- Whether every request that an agent waits on is to a remote package whose link is recovering (R405, R423). -/
def waitsOnRecovery (s : State) (a : Agent) (t : Team) : Bool :=
  let ws := waitedRequests s a t
  let marked := match a.hold with | some (.fence f) => f.sent && fenceRecovers s a.key t.core f | _ => false
  let waits := match a.hold with
    | some (.fence f) => if f.sent && f.replies != 0 then marked else !ws.isEmpty
    | some (.waittl ..) | some (.launchWait _) | none => !ws.isEmpty
    | some _ => false
  waits && (tagWaitsOf s a.key).isEmpty && (entriesOf s t.core a.key).all (·.groups.isEmpty) && ws.all fun w => w.1 == w.2
    && (marked || ws.any fun w => w.1 != 0)

/-- Whether an agent's watchdog count advances: it is parked or not ready, and nothing pauses the count (R405). -/
def watchRuns (s : State) (a : Agent) (t : Team) : Bool :=
  let halted := match a.hold with | some (.bkpt _ _) => true | _ => false
  let shed := match gridOf s t.grid with | some g => classShed s g.cls | none => false
  !a.ended && !ready s a t && !halted && !shed && !t.saved && !waitsOnRecovery s a t

/-- The package's steps whose instants the manual fixes: deadlines and stale telemetry (R376, R380), the end of a droop hold and of a pace
period (R374, R424), power-up (R386), resends and lost colours (R38, R42), timeouts of links, snoops and watchdogs (R405, R415, R423).
DESIGN CHOICE, log entry 21. -/
def timedSteps (s : State) : List Instr :=
  [.shedSafeDeadline, .telemetryStale, .pacePeriodEnd, .hostLinkTimeout]
    ++ (s.clusters.filterMap fun e => if e.2.halvedUntil.isSome then some (.droopHoldExpiry e.1) else none)
    ++ ((List.range 31).filter fun i => !s.powered.getLsbD i).map .socketPowerUp
    ++ (s.links.flatMap fun l => .linkRetryTimeout l.hop :: if routeDark s l.hop.src l.hop.dst l.hop.planeB then [] else [.colourDark l.hop false])
    ++ (if hostLost s then [] else s.snoops.map fun w => .snoopTimeout w.1) ++ (s.links18.map fun l => .scaleupRecoveryTimeout l.1)
    ++ s.agents.map fun a => .watchdogExpiry a.key

/-- The steps that the service chiplet takes: dispatch, power, the shelf, saves, scans, boot and management (R2, R399). -/
def ofService : Instr → Bool
  | .dispatchTake | .teamPlace .. | .cohortPlace .. | .cohortWaitExpiry _ | .queueWindowWrite _ | .teamSave _ | .teamRestore .. => true
  | .preemptSave _ | .preemptResume _ | .preemptCancel _ | .controlIntervalBoundary _ | .shedSafeDeadline | .shelfSample .. => true
  | .telemetryStale | .thermalReport .. | .emergencySaveComplete | .droopDetect _ | .droopHoldExpiry _ | .pacePeriodEnd | .lagWordReceive _ => true
  | .scanDrain _ | .scanDrainComplete | .scanRun _ | .scanRunComplete | .scanRelease _ => true
  | .mgmtAssign .. | .mgmtDebugEnable _ | .mgmtDebugDisable _ | .mgmtDeclareHostLost | .domainReset _ | .firmwareUpdate .. => true
  | .attestationRequest _ | .socketPowerUp _ | .measuredBoot _ | .chipletRelease _ => true
  | _ => false

/-- A step of the package: once the service chiplet has failed, none of its own is due (R399). DESIGN CHOICE, log entry 43. -/
def packageStep (s : State) (i : Instr) : Result := if socketFailed s 31 && ofService i then .refused (.notDue "SERVICE_CHIPLET") else exec i s

/-- Whether something has to happen before time passes (R47, R354, R369): a cycle, a control interval, a time exchange or another step at a
fixed instant is due, or the conditions of a group's STEP hold. DESIGN CHOICE, log entry 21. -/
def timeHeld (s : State) : Bool :=
  (s.clusters.any fun e => decide (100 ≤ e.2.phase)) || (List.range 31).any (exchangeDue s)
    || (decide (s.lastBoundary + 5000 ≤ timeAt s 31) && !socketFailed s 31)
    || (s.teams.any fun t => (List.range 8).any fun n => stepDue s (groupKey t n))
    || (timedSteps s).any fun i => match packageStep s i with | .next _ => true | _ => false

/-- Whether a SLEEP has run more than 1,000 ns over its amount (R327). -/
def overslept (s : State) : Bool :=
  s.agents.any fun a => match a.hold with | some (.sleep till) => decide (till + 1000 < coreTime s (coreOfAgent s a.key)) | _ => false

/-- The state a nanosecond of package time later (R47, R202, R362, R405). -/
def nextNanosecond (s : State) : State :=
  let watched := (s.agents.filter fun a => match teamOf s a.key.team with | some t => watchRuns s a t | none => false).map (·.key)
  let running := (List.range 96).filter fun c => s.powered.getLsbD (c / 8)
  { s with
    time := s.time + 1
    queues := s.queues.map fun e => (e.1, e.2.map fun r => { r with fresh := false })
    clocks := s.clocks.map fun e => (e.1, slewClock s.time e.2)
    clusters := running.foldl (fun m c => supd clusterInit m c fun k => { k with phase := k.phase + clockRate s c }) s.clusters
    agents := updWhere (fun a => watched.contains a.key) (fun a => { a with stuck := a.stuck + 1 }) s.agents }

/-- One nanosecond of package time, which passes once nothing has to happen before it, and no SLEEP would run over (R327).
DESIGN CHOICE, log entry 21. -/
def runTick (s : State) : State := if timeHeld s || overslept (nextNanosecond s) then s else nextNanosecond s

/-! ### What befalls the package -/

/-- A nanosecond in which a chiplet's counter advances by 0 or 2 for a variation of its clock's wiring, at most one tick in 1,000, and never
beyond the bound (R47, R48). DESIGN CHOICE, log entry 50 and DESIGN CHOICE, log entry 5. -/
def slipClock (s : State) (sock : Nat) (ahead : Bool) : State :=
  let c := sget clockInit s.clocks sock
  let t := nextNanosecond s
  let t := { t with clocks := sset clockInit t.clocks sock { c with offset := c.offset + (if ahead then 1 else -1), lastSlew := s.time } }
  if timeHeld s || overslept t || 31 ≤ sock || c.remove != 0 || decide (s.time < c.lastSlew + 1000) || !withinSkew t (skew t) then s else t

/-- A packet on a wire damaged so that its check field does not fit (R35, R38). DESIGN CHOICE, log entry 5. -/
def damageWire (s : State) (h : Hop) (mask : BitVec 32) : State :=
  if h.src = h.dst then s
  else updLink s h fun l => { l with wire := match l.wire with | x :: r => { x with crc := x.crc ^^^ mask } :: r | [] => [] }

/-- One wrong bit more in a sector that a slice holds: SEC-DED corrects one (R27). DESIGN CHOICE, log entry 5. -/
def damageSlice (s : State) (sector : Nat) : State :=
  let l := lineAt s (sector * 16)
  let i := sector % 8
  if !bit l.valid i then s
  else if bit l.weak i then putLine s (sector * 16) { l with broken := setBit l.broken i true }
  else putLine s (sector * 16) { l with weak := setBit l.weak i true }

/-- Whether a word of step memory can be read: its line has landed (R138, R428, R429). -/
def wordLanded (t : Team) (off : Nat) : Bool := (regionAt t.hdr off 4).isSome && (readWaits t off 4).isEmpty

/-- An operand word that a job's engine reads before the step that uses it, with its poison (R303). DESIGN CHOICE, log entry 5. -/
def readEarly (s : State) (core job off ahead : Nat) : State :=
  match (coreOf s core).jobs[job]? with
  | none => s
  | some j => match teamOf s j.issuer.team with
    | none => s
    | some t =>
      let w := off / 4 * 4
      if !wordLanded t w then s
      else updCore s core fun c => { c with jobs := c.jobs.set job { j with early := j.early ++ [(j.step + ahead, w, presentWord t w, stepPoisoned t w 4)] } }

/-- A word of a B tile that the engine reads for a warp's MMA, behind the warp's own stores, with its poison; words read more than 16 bank cycles
ago are of no MMA that issues now (R127, R290, R291). DESIGN CHOICE, log entry 46. -/
def mmaEarly (s : State) (k : AgentKey) (off : Nat) : State :=
  match agentOf s k, teamOf s k.team with
  | some a, some t =>
    let w := off / 4 * 4
    let u := landFor t k [(w, 4)]
    let now := cycleOf s t.core
    if !canIssue a || !wordLanded u w then s
    else updAgent s k fun a => { a with early := a.early.filter (fun e => now ≤ e.1 + 16) ++ [(now, w, presentWord u w, stepPoisoned u w 4)] }
  | _, _ => s

/-- Whether an instruction is a command of the management path (R427). -/
def isCommand : Instr → Bool
  | .mgmtAssign .. | .mgmtDebugEnable _ | .mgmtDebugDisable _ | .mgmtDeclareHostLost | .domainReset _ => true
  | .scanDrain _ | .scanRun _ | .scanRelease _ | .firmwareUpdate .. | .attestationRequest _ => true
  | _ => false

/-- A command behind those that have come before it (R427). -/
def queueCommand (s : State) (cmd : Instr) : State := if isCommand cmd then { s with mgmt := s.mgmt ++ [cmd] } else s

/-- What befalls the package from outside its own steps; nothing where it does not fit. DESIGN CHOICE, log entry 5. -/
def runDisturbance (s : State) (d : Disturbance) : State :=
  match d with
  | .wire h mask => damageWire s h mask
  | .slip sock ahead => slipClock s sock ahead
  | .symbol half => if half * 64 < dramTop s then { s with badSymbols := supd 0 s.badSymbols half fun n => min 2 (n + 1) } else s
  | .sliceBit sector => damageSlice s sector
  | .vreg a reg lane => if reg < 128 ∧ lane < 32 then updAgent s a fun x => { x with vPoison := sset 0 x.vPoison (laneKey reg lane) 1 } else s
  | .sreg a reg => if reg < 64 then updAgent s a fun x => { x with sPoison := sset 0 x.sPoison reg 1 } else s
  | .accWord team word => updTeam s team fun t => if word < 1024 * t.hdr.accTiles then { t with accPoison := sset false t.accPoison word true } else t
  | .addrEntry a num => updAgent s a fun x => { x with addrTable := updWhere (fun e => e.num == num) (fun e => { e with poison := true }) x.addrTable }
  | .sbxLine line => { s with sbxLines := updWhere (fun l => l.line == line) (fun l => { l with poison := true }) s.sbxLines }
  | .early core job off ahead => readEarly s core job off ahead
  | .hart h pa op => match op with
    | .load _ | .store _ _ | .fetch => hartPlain s h pa op
    | _ => s
  | .mmaEarly a off => mmaEarly s a off
  | .hartRun h st => hartRun s h st
  | .mailbox function cmd => if function = 0 then queueCommand s cmd else s
  | .outOfBand cmd => queueCommand s cmd

/-! ### Moves -/

/-- What an event that is not due comes to: nothing happens. DESIGN CHOICE, log entry 44. -/
def unlessDue (s : State) : Result → Result
  | .refused (.notDue _) => .next s
  | r => r

/-- Whether a move changes anything while package power is cut (R408, R409). -/
def survives : Move → Bool
  | .event .packageReset => true
  | .event .standbyPowerLoss => true
  | _ => false

/-- What follows every move: lanes that no earlier access holds back any more leave (R66, R76), SHED_STATE.complete is kept (R380), the logs'
tails follow their records (R392), the package's own writes leave (R64), and harts' AMOs whose release is over (R421). -/
def afterMove : Result → Result
  | .next s => .next (settleHarts (flushDevWrites (settleLogs (refreshComplete (flushLanes s)))))
  | r => r

/-- A store of a team reaches its banks, where no earlier one of its agent is on the way to one of them (R79, R127, R435). -/
def runBank (s : State) (team n : Nat) : State :=
  match teamOf s team with
  | some t => if storeFirst t n then updTeam s team fun t => landStore t n else s
  | none => s

/-- An event: a step of the package, or nothing where it is not due. A command of the management path takes its turn behind those that have come
before it (R427). DESIGN CHOICE, log entry 43. DESIGN CHOICE, log entry 44. -/
def runEvent (s : State) (i : Instr) : Result :=
  if (opcodeOf i).isSome then .next s
  else match isCommand i, s.mgmt with
    | true, c :: rest => if c = i && !socketFailed s 31 then unlessDue { s with mgmt := rest } (packageStep { s with mgmt := rest } i) else .next (queueCommand s i)
    | _, _ => unlessDue s (packageStep s i)

/-- One move; without package power nothing happens until a package reset (R408). A Daref instruction happens only as an agent's issue, not as a step
of the package. DESIGN CHOICE, log entry 43. -/
def runMove (s : State) (m : Move) : Result :=
  if s.hardTrip && !survives m then .next s
  else afterMove (match m with
    | .issue k => runIssue s k
    | .land k n => .next (runLand s k n)
    | .bank team n => .next (runBank s team n)
    | .cycle c => .next (runCycle s c)
    | .tick => .next (runTick s)
    | .befall d => .next (runDisturbance s d)
    | .event i => runEvent s i)

/-! ### What is due by itself -/

/-- The step of the package that a packet at the end of its hop is. -/
def packetStep (h : Hop) : Msg → Instr
  | .rd _ _ => .rd h
  | .xreq .. => .translationRequest h
  | .rdr .. | .xrep .. => .rdr h
  | .wr .. | .cwb _ => .wr h
  | .wrc .. | .postErr .. | .commitAck => .wrc h
  | .at .. => .atPkt h
  | .atr .. => .atr h
  | .lx .. | .lxe .. => .lx h
  | .fm => .fm h
  | .fmr _ => .fmr h
  | .xm .. | .xmr _ | .xmErr .. => .xm h
  | .pf .. => .pf h
  | .pfr .. => .pfReply h
  | .commit _ => .icinvCommit h
  | .rm _ => .rm h
  | .rma _ => .rma h
  | .ack _ | .selfTest => .lc h
  | .loss _ => .lossNotice h
  | .tx _ => .tx h
  | .reserved => .reservedPacket h

/-- The package's steps that may be due for an agent. -/
def agentSteps (s : State) (a : Agent) : List Instr :=
  let k := a.key
  let fills : List Instr := (wantedLine a).toList.map (Instr.lineFill k)
  let acks : List Instr := match a.hold with | some (.icinv q) => q.chiplets.map (Instr.icinvChipletAck k) | _ => []
  let steps : List Instr := match teamOf s k.team with
    | some t => (List.range 8).map fun n => .stepComplete (groupKey t n)
    | none => []
  [.switchMarkerPass k, .fenceComplete k, .sleepExpiry k, .addressTableExpiry k, .absentLineWake k, .watchdogExpiry k] ++ fills ++ acks ++ steps

/-- What may be due for an agent. -/
def agentMoves (s : State) (a : Agent) : List Move :=
  .issue a.key :: (List.range a.vars.length).map (.land a.key) ++ (agentSteps s a).map .event

/-- What may be due for the teams, grids and queues. -/
def workMoves (s : State) : List Instr :=
  (s.teams.flatMap fun t => .teamRetire t.uid :: t.refilling.map fun r => .nextPlaneRefillDone t.uid r)
    ++ (s.grids.flatMap fun g =>
      let cores := acceptingCores s g.hdr g.domain
      let saved := (s.saves.flatMap (·.teams)).filter fun t => t.grid == g.id
      [.gridRetire g.id, .teamSave g.id, .cohortWaitExpiry g.queue, .cohortPlace g.id (cores.take (gridTeams g))]
        ++ (cores.take 1).map (fun c => .teamPlace g.id g.nextTeam c)
        ++ if saved.isEmpty then [] else [.teamRestore g.id (cores.take (if g.hdr.cohort then saved.length else 1))])
    ++ s.queues.map (fun e => .cohortWaitExpiry e.1) ++ [.dispatchTake]
    ++ (s.reductions.map fun r => .redtResult r.group r.k) ++ (List.range s.whisk.length).map .whiskMessage

/-- What may be due at the cores, the engines and the shards. -/
def unitMoves (s : State) : List Instr :=
  (s.cores.flatMap fun c => (c.2.l1.map fun l => .leaseExpiry c.1 l.line) ++ if c.2.jobs.isEmpty then [] else [.jobAdmission (clusterOf c.1), .jobStep c.1, .jobComplete c.1])
    ++ (s.engines.flatMap fun e =>
      let c := e.1 / 8
      let n := e.1 % 8
      [.copyChunk c n, .cbloadServe c n, .cbdropServe c n] ++ e.2.queue.map fun op => .copyComplete c n op.seq)
    ++ (s.shards.flatMap fun e => .pageRequestPost e.1 :: e.2.walks.map fun w => .walkReferenceReply e.1 w.id)
    ++ (s.devWrites.filterMap fun w => match w.goal with | .prq ctx => some (.prqRecordComplete ctx) | _ => none) ++ [.xlatinvComplete]
    ++ (List.range 16).map fun i => .pinctlComplete (12 + i)

/-- What may be due on the fabric and at the host. -/
def linkMoves (s : State) : List Instr :=
  (s.links.flatMap fun l => .linkRetryTimeout l.hop :: .colourDark l.hop false :: (l.wire.take 1).map fun x => packetStep l.hop x.pkt.msg)
    ++ (s.inbox.map fun a => packetStep a.hop a.pkt.msg)
    ++ (s.markers.map fun p => .fm ⟨p.src, p.dst, p.planeB⟩)
    ++ (List.range s.hostDone.length).map .hostWriteCompletion ++ s.snoops.map (fun w => .snoopTimeout w.1) ++ [.hostLinkTimeout]
    ++ s.links18.map fun l => .scaleupRecoveryTimeout l.1

/-- What may be due at the service chiplet. -/
def serviceMoves (s : State) : List Instr :=
  [.shedSafeDeadline, .telemetryStale, .pacePeriodEnd, .emergencySaveComplete, .scanDrainComplete, .scanRunComplete]
    ++ (s.clusters.filterMap fun e => if e.2.halvedUntil.isSome then some (.droopHoldExpiry e.1) else none)
    ++ ((List.range 31).filter fun i => !s.powered.getLsbD i).map .socketPowerUp ++ ((List.range 31).filter (exchangeDue s)).map (exchangeOf s)
    ++ if s.boot = .done then ((List.range 31).filter fun i => !s.released.getLsbD i).map .chipletRelease else []

/-- The moves that may be due by themselves, without anything from outside. DESIGN CHOICE, log entry 43. -/
def ownMoves (s : State) : List Move :=
  (s.clusters.map fun e => .cycle e.1) ++ s.agents.flatMap (agentMoves s)
    ++ (s.teams.flatMap fun t => (List.range t.stores.length).map (.bank t.uid))
    ++ (s.mgmt.take 1 ++ workMoves s ++ unitMoves s ++ linkMoves s ++ serviceMoves s).map .event

/-- Whether a move would change something now. DESIGN CHOICE, log entry 43. -/
def moveDue (s : State) (m : Move) : Bool :=
  match m with
  | .issue k => match agentOf s k, teamOf s k.team with | some a, some t => issuesNow s a t | _, _ => false
  | .land k n => match agentOf s k with | some a => decide (n < a.vars.length) | none => false
  | .bank team n => match teamOf s team with | some t => storeFirst t n | none => false
  | .cycle c => cycleOver s c
  | .tick | .befall _ => true
  | .event i => (s.mgmt.head? == some i && !socketFailed s 31) || match packageStep s i with | .next _ => true | _ => false

/-- The move of a state whose agenda is empty: one of those that are due, which one being a free choice; time passes when none is. At a
boundary the measured loads are free values (DESIGN CHOICE, log entry 2). -/
def ownMove (s : State) : Move × State :=
  match (ownMoves s).filter (moveDue s) with
  | [] =>
    if timeAt s 31 < s.lastBoundary + 5000 || socketFailed s 31 then (.tick, s)
    else
      let (loads, s) := (List.range 96).foldl (fun (acc : List Nat × State) _ => let (k, s) := pick acc.2 65536; (acc.1 ++ [k], s)) ([], s)
      (.event (.controlIntervalBoundary loads), s)
  | due => let (k, s) := pick s due.length; ((due[k]?).getD .tick, s)

/-- The next move: the head of the agenda, or one of the machine's own. DESIGN CHOICE, log entry 2. -/
def nextMove (s : State) : Move × State :=
  match s.agenda with
  | m :: rest => (m, { s with agenda := rest })
  | [] => ownMove s

/-! ### An instruction placed to run -/

/-- The header of a kernel that allows every register, timeline, tile and region that an instruction may name. DESIGN CHOICE, log entry 10. -/
def probeHeader (ladle : Bool) : Header where
  version := 3
  vregs := 128
  sregs := 64
  cohort := false
  hasLadle := ladle
  entry := 256
  ladleEntry := if ladle then 256 else 0
  tx := 32
  ty := 1
  tz := 1
  ladleMem := 64
  accTiles := 64
  collQuota := 16
  timelines := 0xFFFF
  groups := 1
  cohortGroups := 0
  groupMasks := List.replicate 7 0
  liveOff := 0
  liveCount := 1
  bounds := defaultBounds
  boundAct := 0
  imageSize := 512
  regions := [⟨0, 4096, 0, .plain, .sum, .i32, false, 0⟩]

/-- A launch record of one team. DESIGN CHOICE, log entry 10. -/
def probeRecord : Record := ⟨0, 0, 1, 1, 1, 32, 1, 1, 0, 0, 0, 0, 0, 0, 0⟩

/-- The grid of the placed instruction. DESIGN CHOICE, log entry 10. -/
def probeGrid (id : Nat) (ladle : Bool) : Grid :=
  { id := id, queue := 0, priority := 0, cls := 0, domain := 0, vf := 0, boost := false, depth := 1, parent := .queue 0 0, parentGrid := none
    launch := probeRecord, hdr := probeHeader ladle, nextTeam := 1, retired := 0, order := 0, since := 0, blocking := false
    terminated := false, faulted := none }

/-- The 64 bytes of a line whose slots all hold one word, each marked as a branch target. DESIGN CHOICE, log entry 10. -/
def probeLine (w : Nat) : List Byte := (List.replicate 5 (leBytes 12 w)).flatten ++ [0x1F, 0, 0, 0]

/-- A team of one agent with an instruction in its fetch buffer at its entry, which issues next (DESIGN CHOICE, log entry 10). -/
def placeWord (s : State) (nbits w : Nat) : State :=
  let w := w % 2 ^ nbits % 2 ^ 96
  let opc := w / 2 ^ 78 % 256
  let ladle := decide (0xD0 ≤ opc ∧ opc ≤ 0xD6)
  let uid := s.nextId
  let id := firstFree (s.grids.map (·.id)) 0xFFFFFFFF (s.grids.length + 1) 0
  let key : AgentKey := ⟨uid, if ladle then 32 else 0⟩
  let a := newAgent key 0 256 (probeGrid id ladle) (cycleOf s 0)
  let a := { a with fetchBuf := [⟨256, 256, .good (probeLine w)⟩], waitCount := 2 ^ 62 }
  { s with
    nextId := s.nextId + 1
    agenda := .issue key :: s.agenda
    grids := probeGrid id ladle :: s.grids
    teams := newTeam uid (probeGrid id ladle) 0 0 :: s.teams
    agents := a :: s.agents
    clusters := supd clusterInit s.clusters 0 fun c => { c with issued := [] } }

end Sys2Proof.Machine
end

