-- ==== Sys2Proof/Machine/Step.lean ====
section
/-! DEFINITION. One step of the machine, and an instruction placed where the next step runs it. -/

namespace Sys2Proof.Machine

/-- One step: the next move, taken (DESIGN CHOICE, log entry 2). -/
def step (s : State) : Host.Outcome State Fault Refusal := let (m, s) := nextMove s; runMove s m

/-- `s` with an instruction of `nbits` bits `w` (zeros above) fetched and about to issue, so that the next step runs it.
DESIGN CHOICE, log entry 10. -/
def State.withFetchWord (s : State) (nbits w : Nat) : State := placeWord s nbits w

end Sys2Proof.Machine
end

