-- ==== Sys2Proof/Safety.lean ====
section
/-! DEFINITION. What counts as a safe run, and the words that the statements use: the invariant of memory, the results of an issue, and what
an issue leaves as it is. -/

namespace Sys2Proof.Machine

/-! ### Runs -/

/-- The memories of a state are in canonical form: DRAM, and what the home slices hold of it. -/
def State.memoriesWf (s : State) : Bool := Memory.wf s.mem && Memory.wf s.slice

/-- The clean sectors that the slices hold agree with DRAM (R14). -/
def State.cleanAgrees (s : State) : Prop :=
  ∀ a, bit (lineAt s a).valid (sectorIx a) = true → bit (lineAt s a).dirty (sectorIx a) = false → readByte s.slice a = readByte s.mem a

/-- An outcome that is no stop. -/
def completes (r : Result) : Prop := ∃ s, r = .next s

/-- A run of some steps that never stops, and the states it passes through all meet a property. -/
def runsSafely (p : State → Prop) : Nat → State → Prop
  | 0, s => p s
  | n + 1, s => p s ∧ ∃ s', step s = .next s' ∧ runsSafely p n s'

/-! ### Results of an issue -/

/-- The state after an issue whose only effect is a result of `w` bits, read by issues `lat` cycles later (R202, R203). -/
def Iss.wrote (c : Iss) (i : Instr) (d : Opnd) (w lat : Nat) (f : Nat → Nat) : State :=
  c.pend lat ((c.evalLanes i d).flatMap fun l => regWrites w d l (f l))

/-- The same for an operation that sets flags too (R264). -/
def Iss.wroteF (c : Iss) (i : Instr) (d : Opnd) (w lat : Nat) (f : Nat → Nat × FFlags) : State :=
  c.pend lat ((c.evalLanes i d).flatMap (fun l => regWrites w d l (f l).1) ++ fpWrites ((c.evalLanes i d).map fun l => (f l).2))

/-- The same for a predicate result (R243). -/
def Iss.wroteP (c : Iss) (i : Instr) (d : Opnd) (lat : Nat) (f : Nat → Bool × FFlags) : State :=
  c.pend lat (c.predWrites i d d (fun l => (f l).1) ++ fpWrites ((c.evalLanes i d).map fun l => (f l).2))

/-- A precise event raised in place of the instruction: nothing of it has taken effect (R200). -/
def Iss.raised (c : Iss) (cause sub : Nat) (lanes : BitVec 32) : Result := .next (raise c.s0 c.a.key (mkEvent cause sub lanes c.pc))

/-- An instruction completes in its own way whenever an agent's turn comes to it. -/
def completesAs (i : Instr) (h : Hdr) (f : Iss → State) : Prop := ∀ s c, turnOf i h s = .goes c → exec i s = .next (f c)

/-- The same where a condition on the issue holds. -/
def completesWhen (i : Instr) (h : Hdr) (p : Iss → Prop) (f : Iss → State) : Prop :=
  ∀ s c, turnOf i h s = .goes c → p c → exec i s = .next (f c)

/-- An instruction that acts once per issue, where a condition holds: with its lowest active lane, and not at all without one (R194, R217,
R307). -/
def completesOnce (i : Instr) (h : Hdr) (p : Iss → Prop) (f : Iss → Nat → State) : Prop :=
  ∀ s c, turnOf i h s = .goes c → p c →
    (c.act = [] → exec i s = .next c.s) ∧ ∀ l r, c.act = l :: r → exec i s = .next (f c l)

/-- Where a condition holds, the instruction raises a precise event in place of itself, in some lanes (R200). -/
def raisesWhen (i : Instr) (h : Hdr) (p : Iss → Prop) (cause sub : Nat) (lanes : Iss → BitVec 32) : Prop :=
  ∀ s c, turnOf i h s = .goes c → p c → exec i s = c.raised cause sub (lanes c)

/-- An issue put off for want of an entry, of lanes or of a slot: nothing but a note of the wait (R40, R275, R301, R351). -/
def Iss.lacking (c : Iss) : State := updAgent c.s0 c.a.key fun a => { a with hold := some .lacking }

/-- The state after a result given as register effects. -/
def Iss.wroteLanes (c : Iss) (ls : List Nat) (w lat : Nat) (d : Opnd) (f : Nat → Nat) : State :=
  c.pend lat (ls.flatMap fun l => regWrites w d l (f l))

/-- The state after a conversion (R169, R186): a code, flags and a rounding counter for each lane. -/
def Iss.converted (c : Iss) (d : Opnd) (w lat : Nat) (rs : List (Nat × Nat × FFlags × Nat)) : State :=
  updAgent (c.pend lat (rs.flatMap (fun r => regWrites w d r.1 r.2.1) ++ fpWrites (rs.map (·.2.2.1)))) c.a.key fun a =>
    rs.foldl (fun a r => setCounter a r.1 r.2.2.2) a

/-! ### Memory instructions at their issue -/

/-- Whether every active lane's address is a multiple of `n` (R218). -/
def Iss.aligned (c : Iss) (n : Nat) (va : Nat → Nat) : Prop := ∀ l ∈ c.act, va l % n = 0

/-- Where a condition holds, an instruction begins a global access of some lanes from some state: no effect without a lane (R194), put off
without a waiting-table entry (R40, R351), else begun. -/
def beginsAccess (i : Instr) (h : Hdr) (p : Iss → Prop) (st : Iss → State) (op : MemOp) (dest : Opnd) (n : Nat) (reqs : Iss → List LaneReq)
    (acq : Option (BitVec 2)) : Prop :=
  ∀ s c, turnOf i h s = .goes c → p c →
    (reqs c = [] → exec i s = .next (st c))
    ∧ (reqs c ≠ [] → c.room op (reqs c) = true → exec i s = .next (c.begun (st c) op dest n (reqs c) acq))
    ∧ (reqs c ≠ [] → c.room op (reqs c) = false → exec i s = .next c.lacking)

/-- A store whose data breaks a trapping bound raises the bound trap, stores nothing and leaves the hit bit set (R219). -/
def boundTraps (i : Instr) (h : Hdr) (bnd : Nat) (p : Iss → Prop) (lanes : Iss → List Nat) : Prop :=
  ∀ s c, turnOf i h s = .goes c → p c → lanes c ≠ [] →
    exec i s = .next (raise (setHit c.s0 c.t.uid bnd) c.a.key (mkEvent 20 bnd (maskOf (lanes c)) c.pc))

/-- The hit bit of a store's bound check set, where the check found a hit (R219). -/
def Iss.hitIf (c : Iss) (hit : Bool) (bnd : Nat) : State := if hit then setHit c.s c.t.uid bnd else c.s

/-- Whether every active lane's step access passes its checks (R124, R230). -/
def Iss.stepGood (c : Iss) (remote : Bool) (n : Nat) (acc : StepAccess) (ea : Nat → Nat) : Prop :=
  ∀ l ∈ c.act, c.stepCause remote n acc (ea l) = none

/-- The precise event of a step access that fails a check in some lane (R124, R200, R230). -/
def stepTraps (i : Instr) (h : Hdr) (remote : Bool) (n : Nat) (acc : StepAccess) (ea : Iss → Nat → Nat) : Prop :=
  ∀ s c cause ls addr, turnOf i h s = .goes c → c.stepBad remote n acc (ea c) = some (cause, ls, addr) →
    exec i s = .next (raise c.s0 c.a.key { mkEvent cause 0 (maskOf ls) c.pc with addr := addr })

/-- Where a condition holds, an instruction acts on step memory: held at the absent lines that it needs (R138), else completed. -/
def actsOnBanks (i : Instr) (h : Hdr) (p : Iss → Prop) (lines : Iss → List Nat) (f : Iss → State) : Prop :=
  ∀ s c, turnOf i h s = .goes c → p c →
    (lines c = [] → exec i s = .next (f c)) ∧ (lines c ≠ [] → exec i s = .next (c.atAbsent (lines c)))

/-- A copy instruction (R84, R102, R332): illegal on a timeline that the team does not have; without an active lane no effect; accepted where
an entry and its lines' counts allow it; else refused under .nb, and parked without. -/
def acceptsCopy (i : Instr) (h : Hdr) (tl slack : Nat) (nb : Bool) (d : Opnd) (e : Iss → Nat) (plan : Iss → Nat → CopyPlan) : Prop :=
  ∀ s c, turnOf i h s = .goes c →
    (hasTimeline c.t tl = false → exec i s = c.raised 1 0 (maskOf c.ex))
    ∧ (hasTimeline c.t tl = true → c.act = [] → exec i s = .next c.s)
    ∧ (∀ l r, hasTimeline c.t tl = true → c.act = l :: r →
      (c.copyRoom (e c) (plan c l) = true → exec i s = .next (c.nbMark nb d (acceptCopy c.s c (e c) tl slack (plan c l)) true))
      ∧ (c.copyRoom (e c) (plan c l) = false → nb = true → exec i s = .next (c.nbMark true d c.s false))
      ∧ (c.copyRoom (e c) (plan c l) = false → nb = false →
        exec i s = .next (updAgent c.s0 c.a.key fun a => { a with hold := some .full })))

/-! ### What an issue leaves as it is -/

/-- What the bookkeeping of an issue and its pending result change in an agent; every register is as before. -/
def onlyIssued (a b : Agent) : Prop :=
  b = { a with
    lpc := b.lpc, idle := b.idle, yielded := b.yielded, issueCount := b.issueCount, issues := b.issues, nextIssue := b.nextIssue
    lastIssue := b.lastIssue, waitCount := b.waitCount, gaveWay := b.gaveWay, stuck := b.stuck, marker := b.marker, pend := b.pend }

/-- Everything but one agent is as before, and of that agent every register: memory, package registers, teams, other agents. -/
def registersLater (s t : State) (k : AgentKey) : Prop :=
  t = { s with agents := t.agents, turn := none } ∧ (∀ k', k' ≠ k → agentOf t k' = agentOf s k')
    ∧ ∀ a, agentOf s k = some a → ∃ b, agentOf t k = some b ∧ onlyIssued a b

/-- Whether a register effect stays within a register position of at most 128 bits. -/
def RegWrite.within (o : Opnd) : RegWrite → Bool
  | .v n _ _ | .vPoison n _ _ => match o with | .v m => decide (m.toNat ≤ n ∧ n < m.toNat + 4) | _ => false
  | .s n _ | .sPoison n _ => match o with | .s m => decide (m.toNat ≤ n ∧ n < m.toNat + 2) | _ => false
  | .p n _ _ => o == .p (BitVec.ofNat 3 n)
  | .k n _ => o == .k (BitVec.ofNat 3 n)
  | _ => false

/-- Whether a register effect is a set of %fpstat flags. -/
def RegWrite.isFlags : RegWrite → Bool
  | .fpstat _ => true
  | _ => false

/-- The results that an issue adds to those in flight: at most one, due later, and within some register positions and the flags. -/
def addsResult (ds : List Opnd) (a b : Agent) : Prop :=
  b.pend = a.pend ∨ ∃ p, b.pend = a.pend ++ [p] ∧ p.writes.all fun w => w.isFlags || ds.any fun d => w.within d

/-! ### Families of one shape -/

/-- F3 instructions whose only effect is a fixed-latency result, without a trap of their own. -/
def registerForms : List (F3 → Instr) :=
  [.iadd, .isub, .imul, .imulh, .imad, .imadw, .idiv, .irem, .ineg, .iabs, .imin, .imax, .lea, .icmp, .psel, .mov, .movi, .plut, .p2v,
   .dot4, .and, .or, .xor, .andn, .not, .lut3, .shl, .shr, .sar, .rot, .fshf, .bfe, .bfi, .popc, .clz, .ctz, .brev, .bperm]

/-- The same with floating-point results and flags. -/
def floatForms : List (F3 → Instr) :=
  [.fadd, .fsub, .fmul, .ffma, .fmin, .fmax, .fcmp, .fclass, .frnd, .ffrac, .fscale, .frcp, .frsq, .fsqrt, .fexp2, .flog2, .fsin, .fcos,
   .ftanh, .pkadd, .pkmul, .pkfma, .pkmax]

/-- The same on the FP64 lanes of a quadrant (R275). -/
def doubleForms : List (F3 → Instr) := [.dadd, .dmul, .dfma, .dcmp]

end Sys2Proof.Machine
end

