-- ==== Sys2Proof/Certificates/Slice0/Obligations.lean ====
section
/-! DEFINITION. The statements for the provers. -/

open Sys2Proof Sys2Proof.Machine

/-- Words written out from the encoding tables decode to the instructions they stand for (R193, R195, R199). -/
def Obligations.DecodedWords : Prop :=
  decode 0x18C800050182000000000000#96
      = some (.iadd ⟨⟨false, false, 3, false, false, 3, 0⟩, .v 5, .v 1, .s 2, .v 0, 0, 0, 0⟩)
  ∧ decode 0x1818C00303D3D30000000000#96
      = some (.ffma ⟨⟨false, false, 3, false, false, 0, 0⟩, .v 3, .v 3, .fone, .fone, 0, 0, 0⟩)
  ∧ decode 0x2955C8090A00000000000000#96
      = some (.scanx ⟨⟨false, false, 5, false, false, 5, 0x08⟩, .v 9, .v 10, .v 0, .v 0, 0, 0, 0⟩)
  ∧ decode 0x00300A0482FF060000000040#96
      = some (.atom ⟨⟨false, false, 0, false, false, 0, 0x0A⟩, .v 4, .s 2, .zr, .v 6, 0, 0, 0x40⟩)
  ∧ decode 0x003440008B8A8C0000011002#96
      = some (.copyg ⟨⟨false, false, 0, false, false, 0, 0⟩, .v 0, .s 11, .s 10, .s 12, 0, 0, 0x00011002⟩)
  ∧ decode 0#96 = some (.nop ⟨⟨false, false, 0, false, false, 0, 0⟩, .v 0, .v 0, .v 0, .v 0, 0, 0, 0⟩)

/-- Decode of encode is the instruction, for every well-formed Daref instruction and every value of its fields (R149, R193, R195, R199).
-/
def Obligations.DecodeEncode : Prop :=
  ∀ i : Instr, wf i = true → (opcodeOf i).isSome = true → ∃ w, encode i = some w ∧ decode w = some i

/-- Encode of decode is the word: no bit of a decoded word is dropped (R193, R195, R199). -/
def Obligations.EncodeDecode : Prop :=
  ∀ (w : InstrWord) (i : Instr), decode w = some i → encode i = some w

/-- Reserved opcodes (R199) raise illegal instruction (R200). That an overrun of R315 is raised instead where both hold is the model's
choice (log entry 28). -/
def Obligations.ReservedWords : Prop :=
  (∀ w : InstrWord, decode w = none ↔ ¬ (
      let o := (opcField w).toNat
      o ≤ 0x18 ∨ (0x20 ≤ o ∧ o ≤ 0x36) ∨ (0x40 ≤ o ∧ o ≤ 0x59) ∨ (0x60 ≤ o ∧ o ≤ 0x6A) ∨ (0x70 ≤ o ∧ o ≤ 0x7B) ∨ (0x80 ≤ o ∧ o ≤ 0x88)
        ∨ (0x90 ≤ o ∧ o ≤ 0x98) ∨ (0xA0 ≤ o ∧ o ≤ 0xAB) ∨ (0xB0 ≤ o ∧ o ≤ 0xB9) ∨ (0xC0 ≤ o ∧ o ≤ 0xC4) ∨ (0xD0 ≤ o ∧ o ≤ 0xD6)))
  ∧ (∀ (s : State) (a : Agent) (pc : Nat) (w : InstrWord), fetchAt a pc = .word w → decode w = none →
      issueAt s a pc = .next (raise s a.key (mkEvent (if 256 ≤ a.issueCount then 15 else 1) 0 (maskOf (executing a pc)) pc)))

/-- Fetch of a slot (R188) and the events of a line that fails its checks (R190, R191). -/
def Obligations.FetchedSlot : Prop :=
  ∀ (a : Agent) (pc : Nat) (l : FetchLine), bufLine a pc = some l →
    (∀ bs, l.st = .good bs → legalPc pc = true → ¬ (a.issues = 0 ∧ pc = a.entry ∧ targetMarked bs pc = false) →
      ∃ w, fetchAt a pc = .word w ∧ w.toNat = leNat ((bs.drop (pc % 64)).take 12)
        ∧ (bs.length = 64 → ∀ k < 12, ∃ b, bs[pc % 64 + k]? = some b ∧ w.extractLsb' (8 * k) 8 = b))
    ∧ (∀ bs, l.st = .good bs → (legalPc pc = false ∨ (a.issues = 0 ∧ pc = a.entry ∧ targetMarked bs pc = false)) →
      fetchAt a pc = .fault (mkEvent 4 0 (maskOf (executing a pc)) pc))
    ∧ (l.st = .parity → fetchAt a pc = .fault (mkEvent 3 0 (maskOf (executing a pc)) pc))
    ∧ (l.st = .illegalLine → fetchAt a pc = .fault (mkEvent 2 0 (maskOf (executing a pc)) pc))

/-- A step of an issuing agent is exec of the decoded instruction, with the note of the issue that the scheduler keeps (R351, R352). -/
def Obligations.StepRunsDecoded : Prop :=
  ∀ (s : State) (k : AgentKey) (rest : List Move) (a : Agent) (t : Team) (pc : Nat) (w : InstrWord) (i : Instr),
    s.agenda = .issue k :: rest → s.hardTrip = false → agentOf s k = some a → teamOf s k.team = some t →
    issuesNow { s with agenda := rest } a t = true → issueAddress a = some pc → fetchAt a pc = .word w → decode w = some i →
    step s = afterMove (match exec i { s with agenda := rest, turn := some a.key } with
      | .next s' => .next (if hasIssued a s' then noteIssue s' t a else s')
      | r => r)

/-- The order of the checks at an issue. That the overrun comes before legality is the model's choice (log entry 28). -/
def Obligations.IssueOrder : Prop :=
  (∀ (i : Instr) (h : Hdr) (s : State), s.turn = none → turnOf i h s = .idle)
  ∧ ∀ (i : Instr) (h : Hdr) (s : State) (k : AgentKey) (a : Agent) (t : Team) (g : Grid) (pc : Nat),
    s.turn = some k → agentOf s k = some a → teamOf s k.team = some t → gridOf s t.grid = some g → issueAddress a = some pc →
    let s0 := { s with turn := none }
    let ex := executing a pc
    let act := ex.filter (guardOf a h)
    let legal := issueLegal i t.hdr.version t.hdr.vregs t.hdr.sregs (isLadle k)
    (256 ≤ a.issueCount → turnOf i h s = .event s0 k (mkEvent 15 0 (maskOf ex) pc))
    ∧ (a.issueCount < 256 → legal = false → turnOf i h s = .event s0 k (mkEvent 1 0 (maskOf ex) pc))
    ∧ (a.issueCount < 256 → legal = true → ∀ e, poisonEvent a i act pc = some e → turnOf i h s = .event s0 k e)
    ∧ (a.issueCount < 256 → legal = true → poisonEvent a i act pc = none →
        let b := book a h pc ex (cycleOf s t.core)
        turnOf i h s = .goes { s := updAgent s0 k fun _ => b, s0 := s0, a := b, t := t, g := g, pc := pc, ex := ex, act := act, n := a.issues })

/-- The fate of an issue of one of ten forms that ends in an event (R200, R315, R389). -/
def Obligations.IssueEvents : Prop :=
  ∀ (x : F3) (y : FM) (z : FB) (f : FL) (s : State),
    let ends := fun (i : Instr) (h : Hdr) =>
      (∀ t k e, turnOf i h s = .event t k e → exec i s = .next (raise t k e)) ∧ (turnOf i h s = .idle → exec i s = .refused .noIssuer)
    ends (.iadd x) x.h ∧ ends (.ffma x) x.h ∧ ends (.mma x) x.h ∧ ends (.copy x) x.h ∧ ends (.launch x) x.h ∧ ends (.ld y) y.h
      ∧ ends (.sts y) y.h ∧ ends (.atom y) y.h ∧ ends (.bra z) z.h ∧ ends (.movil f) f.h

/-- The bookkeeping of an issue: PCs (R188, R194), GAP (R205), issue count (R315), idle counts (R346), the switch marker (R353). -/
def Obligations.IssueBookkeeping : Prop :=
  ∀ (a : Agent) (h : Hdr) (pc : Nat) (ex : List Nat) (cycle l : Nat),
    let b := book a h pc ex cycle
    (lpcOf b l = if l ∈ ex then succPc pc else lpcOf a l)
    ∧ b.issueCount = a.issueCount + 1 ∧ b.issues = a.issues + 1 ∧ b.nextIssue = cycle + 1 + h.gap.toNat ∧ b.waitCount = 0
    ∧ b.marker = (a.marker || h.sw)
    ∧ (isLadle a.key = false → sget 0 b.idle l = if l ∈ candidates a then (if l ∈ ex then 0 else sget 0 a.idle l + 1) else sget 0 a.idle l)
    ∧ b.v = a.v ∧ b.s = a.s ∧ b.p = a.p ∧ b.k = a.k ∧ b.lanes = a.lanes ∧ b.regions = a.regions ∧ b.fpstat = a.fpstat ∧ b.accsat = a.accsat
    ∧ b.crcause = a.crcause ∧ b.cri = a.cri ∧ b.crpc = a.crpc ∧ b.rounding = a.rounding ∧ b.pend = a.pend

/-- When fixed-latency results take effect (R202, R203): of those that are due, the last one written to a register is what it reads; p0 stays true
(R148). -/
def Obligations.ResultTiming : Prop :=
  (∀ (c : Iss) (lat : Nat) (ws : List RegWrite) (a : Agent), agentOf c.s c.a.key = some a → ws ≠ [] →
      agentOf (c.pend lat ws) c.a.key = some { a with pend := a.pend ++ [⟨cycleOf c.s c.t.core + lat, ws⟩] })
  ∧ ∀ (s : State) (k : AgentKey) (c : Nat) (a : Agent), agentOf s k = some a →
      ∃ b, agentOf (landDue s k c) k = some b ∧ b.pend = a.pend.filter (fun p => c < p.due)
        ∧ (let ws := (a.pend.filter fun p => p.due ≤ c).flatMap (·.writes)
           (∀ n l, vGet b n l = ((ws.reverse.findSome? fun w => match w with
               | .v m j x => if laneKey m j = laneKey n l then some x else none
               | _ => none).getD (vGet a n l)))
           ∧ (∀ n, sGet b n = ((ws.reverse.findSome? fun w => match w with
               | .s m x => if m = n then some x else none
               | _ => none).getD (sGet a n)))
           ∧ (∀ n l, n ≠ 0 → pGet b n l = ((ws.reverse.findSome? fun w => match w with
               | .p m j x => if m ≠ 0 ∧ laneKey m j = laneKey n l then some x else none
               | _ => none).getD (pGet a n l)))
           ∧ (∀ l, pGet b 0 l = true)
           ∧ (∀ n, kGet b n = ((ws.reverse.findSome? fun w => match w with
               | .k m x => if m = n then some x else none
               | _ => none).getD (kGet a n))))

/-- The end of a cluster cycle (R202, R203, R351): every agent's registers hold what its results that are due leave there (O10), then switch
markers are looked at (R353). -/
def Obligations.ClusterCycle : Prop :=
  ∀ (s : State) (c : Nat),
    (cycleOver s c = false → runCycle s c = s)
    ∧ (cycleOver s c = true → ∃ (u : State) (ks : List AgentKey),
        runCycle s c = passMarkers u ks (sget clusterInit s.clusters c).cycle
        ∧ (sget clusterInit u.clusters c).cycle = (sget clusterInit s.clusters c).cycle + 1 ∧ (sget clusterInit u.clusters c).issued = []
        ∧ ∀ a t, agentOf s a.key = some a → teamOf s a.key.team = some t → clusterOf t.core = c →
            a.key ∈ ks ∧ ∃ b b', agentOf u a.key = some b
              ∧ (b.pend = a.pend.filter fun p => decide ((sget clusterInit s.clusters c).cycle + 1 < p.due))
              ∧ agentOf (landDue s a.key ((sget clusterInit s.clusters c).cycle + 1)) a.key = some b'
              ∧ (∀ n l, vGet b n l = vGet b' n l ∧ pGet b n l = pGet b' n l) ∧ (∀ n, sGet b n = sGet b' n ∧ kGet b n = kGet b' n))

/-- The register file: read after write at 32, 64 and 128 bits, the frame, rejoin masks, zr and p0 (R148, R149, R151). -/
def Obligations.RegisterFile : Prop :=
  ∀ (a : Agent) (l x : Nat), l < 32 →
    let wrote := fun (w : Nat) (d : Opnd) => (regWrites w d l x).foldl writeReg a
    (∀ n : BitVec 7, vGet (wrote 32 (.v n)) n.toNat l = BitVec.ofNat 32 x
      ∧ (∀ m j, j < 32 → ¬ (m = n.toNat ∧ j = l) → vGet (wrote 32 (.v n)) m j = vGet a m j))
    ∧ (∀ n : BitVec 7, val64 (wrote 64 (.v n)) (.v n) l = x % 2 ^ 64
      ∧ (∀ m j, j < 32 → ¬ ((m = n.toNat ∨ m = n.toNat + 1) ∧ j = l) → vGet (wrote 64 (.v n)) m j = vGet a m j))
    ∧ (∀ n : BitVec 7, val128 (wrote 128 (.v n)) (.v n) l = x % 2 ^ 128
      ∧ (∀ m j, j < 32 → ¬ ((n.toNat ≤ m ∧ m < n.toNat + 4) ∧ j = l) → vGet (wrote 128 (.v n)) m j = vGet a m j))
    ∧ (∀ (n : BitVec 7) (w : Nat), (wrote w (.v n)).s = a.s ∧ (wrote w (.v n)).p = a.p ∧ (wrote w (.v n)).k = a.k)
    ∧ (∀ n : BitVec 6, sGet (wrote 32 (.s n)) n.toNat = BitVec.ofNat 64 (x % 2 ^ 32) ∧ sGet (wrote 64 (.s n)) n.toNat = BitVec.ofNat 64 x
      ∧ (∀ m, m ≠ n.toNat → sGet (wrote 32 (.s n)) m = sGet a m ∧ sGet (wrote 64 (.s n)) m = sGet a m))
    ∧ (∀ n : BitVec 6, val128 (wrote 128 (.s n)) (.s n) l = x % 2 ^ 128
      ∧ (∀ m, m ≠ n.toNat → m ≠ n.toNat + 1 → sGet (wrote 128 (.s n)) m = sGet a m))
    ∧ (∀ (n : BitVec 3) (w : Nat), kGet (wrote w (.k n)) n.toNat = BitVec.ofNat 32 x
      ∧ (∀ m, m ≠ n.toNat → kGet (wrote w (.k n)) m = kGet a m)
      ∧ (wrote w (.k n)).v = a.v ∧ (wrote w (.k n)).s = a.s ∧ (wrote w (.k n)).p = a.p)
    ∧ (∀ (n : BitVec 6) (w : Nat), (wrote w (.s n)).v = a.v ∧ (wrote w (.s n)).p = a.p ∧ (wrote w (.s n)).k = a.k)
    ∧ (∀ w, wrote w .zr = a)
    ∧ (∀ (b : Bool), writeReg a (.p 0 l b) = a ∧ pGet a 0 l = true)
    ∧ (∀ (n : Nat) (b : Bool), n ≠ 0 → pGet (writeReg a (.p n l b)) n l = b
      ∧ (∀ m j, j < 32 → ¬ (m = n ∧ j = l) → pGet (writeReg a (.p n l b)) m j = pGet a m j))

/-- The frame of the register forms; integer forms set no flags besides (R242), every result waits for its latency (R203); a binary64
operation takes its quadrant's FP64 lanes besides, and does not issue while they are busy (R275). -/
def Obligations.RegisterFormsFrame : Prop :=
  (∀ f ∈ registerForms ++ floatForms, ∀ (x : F3) (s : State) (c : Iss), turnOf (f x) x.h s = .goes c →
    ∃ t a b, exec (f x) s = .next t ∧ registersLater s t c.a.key ∧ agentOf s c.a.key = some a ∧ agentOf t c.a.key = some b
      ∧ addsResult [x.d] a b)
  ∧ ∀ f ∈ doubleForms, ∀ (x : F3) (s : State) (c : Iss), turnOf (f x) x.h s = .goes c →
    (c.dpFree = true → ∃ t a b, exec (f x) s = .next t ∧ registersLater { s with cores := c.dpTaken.s.cores } t c.a.key
      ∧ agentOf s c.a.key = some a ∧ agentOf t c.a.key = some b ∧ addsResult [x.d] a b)
    ∧ (c.dpFree = false → exec (f x) s = .next c.lacking)

/-- Integer arithmetic (R244 to R247, R251) in the lanes of R243. -/
def Obligations.IntegerComplete : Prop :=
  ∀ x : F3,
    (completesAs (.iadd x) x.h fun c => c.wrote (.iadd x) x.d (widthOf x.h) 4 fun l => addInt (widthOf x.h) (bit x.h.mod 2) (c.val (widthOf x.h) x.a l) (c.valB (widthOf x.h) x l))
    ∧ (completesAs (.isub x) x.h fun c => c.wrote (.isub x) x.d (widthOf x.h) 4 fun l => subInt (widthOf x.h) (bit x.h.mod 2) (c.val (widthOf x.h) x.a l) (c.valB (widthOf x.h) x l))
    ∧ (completesAs (.imul x) x.h fun c => c.wrote (.imul x) x.d (widthOf x.h) 4 fun l => mulInt (widthOf x.h) (c.val (widthOf x.h) x.a l) (c.valB (widthOf x.h) x l))
    ∧ (completesAs (.imulh x) x.h fun c => c.wrote (.imulh x) x.d (widthOf x.h) 4 fun l => mulhInt (widthOf x.h) (bit x.h.mod 0) (c.val (widthOf x.h) x.a l) (c.valB (widthOf x.h) x l))
    ∧ (completesAs (.imad x) x.h fun c => c.wrote (.imad x) x.d (widthOf x.h) 4 fun l => madInt (widthOf x.h) (bit x.h.mod 2) (c.val (widthOf x.h) x.a l) (c.valB (widthOf x.h) x l) (c.val (widthOf x.h) x.c l))
    ∧ (completesAs (.imadw x) x.h fun c => c.wrote (.imadw x) x.d (2 * widthOf x.h) 4 fun l =>
        madwInt (widthOf x.h) (bit x.h.mod 0) (c.val (widthOf x.h) x.a l) (c.valB (widthOf x.h) x l) (c.val (2 * widthOf x.h) x.c l))
    ∧ (completesAs (.idiv x) x.h fun c => c.wrote (.idiv x) x.d (widthOf x.h) 12 fun l => divInt (widthOf x.h) (bit x.h.mod 0) (c.val (widthOf x.h) x.a l) (c.valB (widthOf x.h) x l))
    ∧ (completesAs (.irem x) x.h fun c => c.wrote (.irem x) x.d (widthOf x.h) 12 fun l => remInt (widthOf x.h) (bit x.h.mod 0) (c.val (widthOf x.h) x.a l) (c.valB (widthOf x.h) x l))
    ∧ (completesAs (.ineg x) x.h fun c => c.wrote (.ineg x) x.d (widthOf x.h) 4 fun l => negInt (widthOf x.h) (bit x.h.mod 2) (c.val (widthOf x.h) x.a l))
    ∧ (completesAs (.iabs x) x.h fun c => c.wrote (.iabs x) x.d (widthOf x.h) 4 fun l => absInt (widthOf x.h) (bit x.h.mod 2) (c.val (widthOf x.h) x.a l))
    ∧ (completesAs (.imin x) x.h fun c => c.wrote (.imin x) x.d (widthOf x.h) 4 fun l => minInt (widthOf x.h) (bit x.h.mod 0) (c.val (widthOf x.h) x.a l) (c.valB (widthOf x.h) x l))
    ∧ (completesAs (.imax x) x.h fun c => c.wrote (.imax x) x.d (widthOf x.h) 4 fun l => maxInt (widthOf x.h) (bit x.h.mod 0) (c.val (widthOf x.h) x.a l) (c.valB (widthOf x.h) x l))
    ∧ (completesAs (.lea x) x.h fun c => let w := if bit x.h.mod 3 then 64 else 32
      c.wrote (.lea x) x.d w 4 fun l => leaInt w (fld x.h.mod 2 0) (c.val w x.a l) (c.valB w x l))
    ∧ (completesAs (.dot4 x) x.h fun c => c.wrote (.dot4 x) x.d 32 4 fun l => dot4 (bit x.h.mod 0) (bit x.h.mod 2) (c.val 32 x.a l) (c.valB 32 x l) (c.val 32 x.c l))
    ∧ (completesAs (.iaddc x) x.h fun c => let sum := fun l => c.val (widthOf x.h) x.a l + c.valB (widthOf x.h) x l + (c.pred x.c l).toNat
      c.pend 4 (((c.evalLanes (.iaddc x) x.d).flatMap fun l => regWrites (widthOf x.h) x.d l (sum l % 2 ^ widthOf x.h))
        ++ c.predWrites (.iaddc x) x.d x.c fun l => decide (2 ^ widthOf x.h ≤ sum l)))

/-- Comparison, selection, moves, predicates (R248 to R250), logic and bit fields (R252 to R256). -/
def Obligations.LogicMoveComplete : Prop :=
  ∀ (x : F3) (y : FL),
    (completesAs (.icmp x) x.h fun c => let w := if bit x.aux 0 then 64 else 32
      c.wroteP (.icmp x) x.d 4 fun l => (combine (fld x.h.mod 5 4) (condHolds (fld x.h.mod 2 0)
        (compare (readInt w (bit x.h.mod 3) (c.val w x.a l)) (readInt w (bit x.h.mod 3) (c.valB w x l)))) (c.pred x.c l), 0))
    ∧ (completesAs (.psel x) x.h fun c => c.wrote (.psel x) x.d (widthOf x.h) 4 fun l => if c.pred x.c l then c.val (widthOf x.h) x.a l else c.valB (widthOf x.h) x l)
    ∧ (completesAs (.mov x) x.h fun c => c.wrote (.mov x) x.d (widthOf x.h) 4 fun l => c.val (widthOf x.h) x.a l)
    ∧ (completesAs (.movi x) x.h fun c => c.wrote (.movi x) x.d 32 4 fun _ => x.imm.toNat)
    ∧ (completesAs (.movil y) y.h fun c => c.wrote (.movil y) y.d 64 4 fun _ => y.imm.toNat)
    ∧ (completesAs (.plut x) x.h fun c => c.wroteP (.plut x) x.d 4 fun l =>
        ((fld x.imm 7 0).testBit ((c.pred x.a l).toNat + 2 * (c.pred x.b l).toNat + 4 * (c.pred x.c l).toNat), 0))
    ∧ (completesAs (.p2v x) x.h fun c => c.wrote (.p2v x) x.d 32 4 fun l => (List.range 8).foldl (fun r n => r + (pGet c.a n l).toNat * 2 ^ n) 0)
    ∧ (completesAs (.v2p x) x.h fun c => c.pend 4 (c.act.flatMap fun l =>
        ((List.range 8).filter fun n => n != 0 && bit x.imm n).map fun n => .p n l ((c.val 32 x.a l).testBit n)))
    ∧ (completesAs (.and x) x.h fun c => c.wrote (.and x) x.d (widthOf x.h) 4 fun l => Nat.land (c.val (widthOf x.h) x.a l) (c.valB (widthOf x.h) x l))
    ∧ (completesAs (.or x) x.h fun c => c.wrote (.or x) x.d (widthOf x.h) 4 fun l => Nat.lor (c.val (widthOf x.h) x.a l) (c.valB (widthOf x.h) x l))
    ∧ (completesAs (.xor x) x.h fun c => c.wrote (.xor x) x.d (widthOf x.h) 4 fun l => Nat.xor (c.val (widthOf x.h) x.a l) (c.valB (widthOf x.h) x l))
    ∧ (completesAs (.andn x) x.h fun c => c.wrote (.andn x) x.d (widthOf x.h) 4 fun l => c.val (widthOf x.h) x.a l &&& (2 ^ widthOf x.h - 1 - c.valB (widthOf x.h) x l))
    ∧ (completesAs (.not x) x.h fun c => c.wrote (.not x) x.d (widthOf x.h) 4 fun l => 2 ^ widthOf x.h - 1 - c.val (widthOf x.h) x.a l)
    ∧ (completesAs (.lut3 x) x.h fun c => c.wrote (.lut3 x) x.d (widthOf x.h) 4 fun l => lut3 (widthOf x.h) (fld x.imm 7 0) (c.val (widthOf x.h) x.a l) (c.val (widthOf x.h) x.b l) (c.val (widthOf x.h) x.c l))
    ∧ (completesAs (.shl x) x.h fun c => c.wrote (.shl x) x.d (widthOf x.h) 4 fun l => shlInt (widthOf x.h) (shiftAmount (widthOf x.h) (bit x.h.mod 0) (c.valB 32 x l)) (c.val (widthOf x.h) x.a l))
    ∧ (completesAs (.shr x) x.h fun c => c.wrote (.shr x) x.d (widthOf x.h) 4 fun l => shrInt (widthOf x.h) (shiftAmount (widthOf x.h) (bit x.h.mod 0) (c.valB 32 x l)) (c.val (widthOf x.h) x.a l))
    ∧ (completesAs (.sar x) x.h fun c => c.wrote (.sar x) x.d (widthOf x.h) 4 fun l => sarInt (widthOf x.h) (shiftAmount (widthOf x.h) (bit x.h.mod 0) (c.valB 32 x l)) (c.val (widthOf x.h) x.a l))
    ∧ (completesAs (.rot x) x.h fun c => c.wrote (.rot x) x.d (widthOf x.h) 4 fun l => rotInt (widthOf x.h) (shiftAmount (widthOf x.h) (bit x.h.mod 0) (c.valB 32 x l)) (c.val (widthOf x.h) x.a l))
    ∧ (completesAs (.fshf x) x.h fun c => c.wrote (.fshf x) x.d 32 4 fun l => funnel (bit x.h.mod 0)
        (if bit x.h.mod 2 then c.val 32 x.c l % 32 else min (c.val 32 x.c l) 32) (c.val 32 x.a l) (c.valB 32 x l))
    ∧ (completesAs (.bfe x) x.h fun c => c.wrote (.bfe x) x.d (widthOf x.h) 4 fun l => bfe (widthOf x.h) (bit x.h.mod 0) (c.val (widthOf x.h) x.a l) (c.valB 32 x l))
    ∧ (completesAs (.bfi x) x.h fun c => c.wrote (.bfi x) x.d (widthOf x.h) 4 fun l => bfi (widthOf x.h) (c.val (widthOf x.h) x.a l) (c.valB 32 x l) (c.val (widthOf x.h) x.c l))
    ∧ (completesAs (.popc x) x.h fun c => c.wrote (.popc x) x.d 32 4 fun l => popCount (c.val (widthOf x.h) x.a l) (widthOf x.h))
    ∧ (completesAs (.clz x) x.h fun c => c.wrote (.clz x) x.d 32 4 fun l => clz (widthOf x.h) (c.val (widthOf x.h) x.a l))
    ∧ (completesAs (.ctz x) x.h fun c => c.wrote (.ctz x) x.d 32 4 fun l => ctz (widthOf x.h) (c.val (widthOf x.h) x.a l))
    ∧ (completesAs (.brev x) x.h fun c => c.wrote (.brev x) x.d (widthOf x.h) 4 fun l => brev (widthOf x.h) (c.val (widthOf x.h) x.a l))
    ∧ (completesAs (.bperm x) x.h fun c => c.wrote (.bperm x) x.d 32 4 fun l => bperm (c.val 32 x.a l) (c.valB 32 x l) (c.val 32 x.c l))

/-- The lane operations (R257 to R262); what READL of another warp reads when it samples its source. -/
def Obligations.LaneComplete : Prop :=
  ∀ (x : F3),
    (completesAs (.vote x) x.h fun c => let vs := c.act.map (c.pred x.a)
      let r := if fld x.h.mod 1 0 = 0 then vs.all id else if fld x.h.mod 1 0 = 1 then vs.any id else vs.all id || !vs.any id
      match x.d with | .p n => c.pend 6 (c.act.map fun l => .p n.toNat l r) | _ => c.s)
    ∧ (completesWhen (.ballot x) x.h (fun c => c.act ≠ []) fun c => let v := (maskOf (c.act.filter (c.pred x.a))).toNat
      c.wroteLanes (if isS x.d then c.act.take 1 else c.act) 32 6 x.d fun _ => v)
    ∧ (completesWhen (.xlane x) x.h (fun c => c.lanePoison c.a x.a (fun l => xlaneSource (fld x.h.mod 1 0) l (c.valB 32 x l)) = none) fun c => c.wroteLanes c.act 32 6 x.d fun l =>
        match xlaneSource (fld x.h.mod 1 0) l (c.valB 32 x l) with | some m => c.val 32 x.a m | none => 0)
    ∧ (completesAs (.matchL x) x.h fun c => let v := fun l => c.val (widthOf x.h) x.a l
      c.wroteLanes c.act 32 6 x.d fun l => (if bit x.h.mod 0 then (if c.act.all fun m => v m == v l then maskOf c.act else 0)
        else maskOf (c.act.filter fun m => v m == v l)).toNat)
    ∧ (completesWhen (.redux x) x.h (fun c => c.act ≠ []) fun c => let v := (c.act.map fun l => c.val 32 x.a l).foldl (reduceOp 32 (fld x.h.mod 2 0)) (reduceUnit 32 (fld x.h.mod 2 0))
      c.wroteLanes (if isS x.d then c.act.take 1 else c.act) 32 6 x.d fun _ => v)
    ∧ (completesAs (.scanx x) x.h fun c => c.wroteLanes c.act 32 6 x.d fun l => ((c.act.filter fun m => if bit x.h.mod 3 then m < l else m ≤ l).map fun m => c.val 32 x.a m).foldl
        (reduceOp 32 (fld x.h.mod 2 0)) (reduceUnit 32 (fld x.h.mod 2 0)))
    ∧ (completesWhen (.bcast x) x.h (fun c => c.lanePoison c.a x.a (fun l => some (c.valB 32 x l % 32)) = none) fun c => c.wroteLanes c.act 32 6 x.d fun l => c.val 32 x.a (c.valB 32 x l % 32))
    ∧ (∀ s c n l r, turnOf (.readl x) x.h s = .goes c → x.a = .v n → c.act = l :: r →
        let w := c.readlWarp x l
        let src := c.valB 32 x l % 32
        (w = c.a.key.idx → sget 0 c.a.vPoison (laneKey n.toNat src) = 0 →
          exec (.readl x) s = .next (c.pend 6 (regWrites 32 x.d l (vGet c.a n.toNat src).toNat)))
        ∧ (w = c.a.key.idx → sget 0 c.a.vPoison (laneKey n.toNat src) ≠ 0 → exec (.readl x) s = c.raised 19 0 (maskOf c.act))
        ∧ (w ≠ c.a.key.idx → tableFree c.s0 c.t.core false = true → warpGone c.s c.t w = true → exec (.readl x) s = .next
          (addResult c.s c.a.key { issue := c.n, writes := regWrites 32 x.d l 0, event := none, table := some (tableNext c.s0 c.t.core false) }))
        ∧ (w ≠ c.a.key.idx → tableFree c.s0 c.t.core false = true → warpGone c.s c.t w = false → exec (.readl x) s = .next
          (addResult c.s c.a.key { issue := c.n, writes := [], event := none, table := some (tableNext c.s0 c.t.core false)
                                   src := some ⟨⟨c.a.key.team, w⟩, n.toNat, src, x.d, maskOf c.act, c.pc⟩ }))
        ∧ (w ≠ c.a.key.idx → tableFree c.s0 c.t.core false = false → exec (.readl x) s = .next c.lacking))
    ∧ (completesWhen (.readl x) x.h (fun c => c.act = []) fun c => c.s)
    ∧ (∀ (s : State) (v : VarResult) (f : LaneSource) t b, v.src = some f → teamOf s f.agent.team = some t → agentOf s f.agent = some b →
        ∀ l, (List.range 32).find? (fun l => bit f.act l) = some l →
        (warpGone s t f.agent.idx = true → sampleSource s v f = { v with src := none, writes := regWrites 32 f.dest l 0 })
        ∧ (warpGone s t f.agent.idx = false → sget 0 b.vPoison (laneKey f.reg f.lane) = 0 →
          sampleSource s v f = { v with src := none, writes := regWrites 32 f.dest l (vGet b f.reg f.lane).toNat })
        ∧ (warpGone s t f.agent.idx = false → sget 0 b.vPoison (laneKey f.reg f.lane) ≠ 0 →
          sampleSource s v f = { v with src := none, event := some ⟨v.issue, l, mkEvent 19 0 f.act f.pc, false⟩ }))

/-- Floating-point arithmetic (R263 to R271, R274). -/
def Obligations.FloatComplete : Prop :=
  ∀ x : F3,
    (completesAs (.fadd x) x.h fun c => c.wroteF (.fadd x) x.d 32 4 fun l => satIf f32 x.h (addCode f32 (c.mode x.h) (c.val 32 x.a l) (c.valB 32 x l)))
    ∧ (completesAs (.fsub x) x.h fun c => c.wroteF (.fsub x) x.d 32 4 fun l => satIf f32 x.h (addCode f32 (c.mode x.h) (c.val 32 x.a l) (negCode f32 (c.valB 32 x l))))
    ∧ (completesAs (.fmul x) x.h fun c => c.wroteF (.fmul x) x.d 32 4 fun l => satIf f32 x.h (mulCode f32 (c.mode x.h) (c.val 32 x.a l) (c.valB 32 x l)))
    ∧ (completesAs (.ffma x) x.h fun c => c.wroteF (.ffma x) x.d 32 4 fun l => satIf f32 x.h (fmaCode f32 (c.mode x.h) (c.val 32 x.a l) (c.valB 32 x l) (c.val 32 x.c l)))
    ∧ (completesAs (.fmin x) x.h fun c => c.wroteF (.fmin x) x.d 32 4 fun l => minMaxCode f32 false (c.val 32 x.a l) (c.valB 32 x l))
    ∧ (completesAs (.fmax x) x.h fun c => c.wroteF (.fmax x) x.d 32 4 fun l => minMaxCode f32 true (c.val 32 x.a l) (c.valB 32 x l))
    ∧ (completesAs (.fcmp x) x.h fun c => c.wroteP (.fcmp x) x.d 4 fun l => let r := fcompare f32 x.h (c.val 32 x.a l) (c.valB 32 x l)
        (combine (fld x.h.mod 5 4) r.1 (c.pred x.c l), r.2))
    ∧ (completesAs (.fclass x) x.h fun c => c.wrote (.fclass x) x.d 32 4 fun l => 2 ^ fclassBit (c.val 32 x.a l))
    ∧ (completesAs (.frnd x) x.h fun c => c.wroteF (.frnd x) x.d 32 4 fun l => frndCode (c.mode x.h) (c.val 32 x.a l))
    ∧ (completesAs (.ffrac x) x.h fun c => c.wroteF (.ffrac x) x.d 32 4 fun l => ffracCode (c.val 32 x.a l))
    ∧ (completesAs (.fscale x) x.h fun c => c.wroteF (.fscale x) x.d 32 4 fun l => satIf f32 x.h (fscaleCode (c.mode x.h) (c.val 32 x.a l) (c.valB 32 x l)))
    ∧ (completesAs (.pkadd x) x.h fun c => c.wroteF (.pkadd x) x.d 32 4 fun l => packedHalves fun k => satIf f16 x.h (addCode f16 (c.mode x.h) (halfOf k (c.val 32 x.a l)) (halfOf k (c.valB 32 x l))))
    ∧ (completesAs (.pkmul x) x.h fun c => c.wroteF (.pkmul x) x.d 32 4 fun l => packedHalves fun k => satIf f16 x.h (mulCode f16 (c.mode x.h) (halfOf k (c.val 32 x.a l)) (halfOf k (c.valB 32 x l))))
    ∧ (completesAs (.pkfma x) x.h fun c => c.wroteF (.pkfma x) x.d 32 4 fun l => packedHalves fun k => satIf f16 x.h (fmaCode f16 (c.mode x.h) (halfOf k (c.val 32 x.a l)) (halfOf k (c.valB 32 x l)) (halfOf k (c.val 32 x.c l))))
    ∧ (completesAs (.pkmax x) x.h fun c => c.wroteF (.pkmax x) x.d 32 4 fun l => packedHalves fun k => minMaxCode f16 true (halfOf k (c.val 32 x.a l)) (halfOf k (c.valB 32 x l)))

/-- Special functions (R272, R273) and binary64 on its quadrant's FP64 lanes (R275). -/
def Obligations.SpecialDoubleComplete : Prop :=
  ∀ x : F3,
    (completesAs (.frcp x) x.h fun c => c.wroteF (.frcp x) x.d 32 12 fun l => specialFn .rcp (BitVec.ofNat 32 (c.val 32 x.a l)))
    ∧ (completesAs (.frsq x) x.h fun c => c.wroteF (.frsq x) x.d 32 12 fun l => specialFn .rsq (BitVec.ofNat 32 (c.val 32 x.a l)))
    ∧ (completesAs (.fsqrt x) x.h fun c => c.wroteF (.fsqrt x) x.d 32 12 fun l => specialFn (.sqrt (c.mode x.h)) (BitVec.ofNat 32 (c.val 32 x.a l)))
    ∧ (completesAs (.fexp2 x) x.h fun c => c.wroteF (.fexp2 x) x.d 32 12 fun l => specialFn .exp2 (BitVec.ofNat 32 (c.val 32 x.a l)))
    ∧ (completesAs (.flog2 x) x.h fun c => c.wroteF (.flog2 x) x.d 32 12 fun l => specialFn .log2 (BitVec.ofNat 32 (c.val 32 x.a l)))
    ∧ (completesAs (.fsin x) x.h fun c => c.wroteF (.fsin x) x.d 32 12 fun l => specialFn .sin (BitVec.ofNat 32 (c.val 32 x.a l)))
    ∧ (completesAs (.fcos x) x.h fun c => c.wroteF (.fcos x) x.d 32 12 fun l => specialFn .cos (BitVec.ofNat 32 (c.val 32 x.a l)))
    ∧ (completesAs (.ftanh x) x.h fun c => c.wroteF (.ftanh x) x.d 32 12 fun l => specialFn .tanh (BitVec.ofNat 32 (c.val 32 x.a l)))
    ∧ (completesWhen (.dadd x) x.h (·.dpFree = true) fun c => c.dpTaken.wroteF (.dadd x) x.d 64 16 fun l => addCode f64 (c.mode x.h) (c.val 64 x.a l) (c.val 64 x.b l))
    ∧ (completesWhen (.dmul x) x.h (·.dpFree = true) fun c => c.dpTaken.wroteF (.dmul x) x.d 64 16 fun l => mulCode f64 (c.mode x.h) (c.val 64 x.a l) (c.val 64 x.b l))
    ∧ (completesWhen (.dfma x) x.h (·.dpFree = true) fun c => c.dpTaken.wroteF (.dfma x) x.d 64 16 fun l => fmaCode f64 (c.mode x.h) (c.val 64 x.a l) (c.val 64 x.b l) (c.val 64 x.c l))
    ∧ (completesWhen (.dcmp x) x.h (·.dpFree = true) fun c => c.dpTaken.wroteP (.dcmp x) x.d 16 fun l => let r := fcompare f64 x.h (c.val 64 x.a l) (c.val 64 x.b l)
        (combine (fld x.h.mod 5 4) r.1 (c.pred x.c l), r.2))
    ∧ (∀ f ∈ doubleForms, completesWhen (f x) x.h (·.dpFree = false) Iss.lacking)

/-- Conversions (R276 to R280), those of binary64 on the FP64 lanes (R275), their format faults (R176, R266), and BOUND with its trap (R281). That the
lane of a uniform conversion is the lowest active one is the model's choice (log entry 12). -/
def Obligations.ConvertComplete : Prop :=
  ∀ (x : F3),
    (∀ s c df sf, turnOf (.fcvt x) x.h s = .goes c → ntypeOf (fld x.imm 7 0) = some (.flt df) → ntypeOf (fld x.imm 15 8) = some (.flt sf) →
      let dp := fld x.imm 7 0 = 32 ∨ fld x.imm 15 8 = 32
      (dp → c.dpFree = false → exec (.fcvt x) s = .next c.lacking)
      ∧ ∀ c', (dp ∧ c.dpFree = true ∧ c' = c.dpTaken) ∨ (¬ dp ∧ c' = c) →
        exec (.fcvt x) s = .next (c'.converted x.d (if fld x.imm 7 0 = 32 then 64 else 32) (if dp then 16 else 4)
          ((c.evalLanes (.fcvt x) x.d).map fun l =>
            let a := c.val (if fld x.imm 15 8 = 32 then 64 else 32) x.a l % 2 ^ sf.width
            let r := convertElem c.t c.a x.h l (roundCounter c.a l) (.flt df) (bit x.h.mod 3 && !widens df sf) (decodeF sf a)
            (l, r.1, r.2.1 ||| (if isSnan sf a then fInvalid else 0), r.2.2))))
    ∧ (∀ s c d t, turnOf (.icvt x) x.h s = .goes c → ntypeIn c.t.hdr.version (fld x.imm 7 0) = some d →
        ntypeIn c.t.hdr.version (fld x.imm 15 8) = some t → icvtPair (fld x.imm 7 0) (fld x.imm 15 8) d t = true →
        ∀ vs : Nat → FVal × FFlags, (∀ l ∈ c.evalLanes (.icvt x) x.d, sourceValue t (c.val 32 x.a l) = some (vs l)) →
        exec (.icvt x) s = .next (c.converted x.d 32 4 ((c.evalLanes (.icvt x) x.d).map fun l =>
          let r := convertElem c.t c.a x.h l (roundCounter c.a l) d (bit x.h.mod 3) (vs l).1
          (l, r.1, r.2.1 ||| (vs l).2, r.2.2))))
    ∧ (∀ s c t, turnOf (.fpack x) x.h s = .goes c → packWidth (fld x.imm 7 0) ≠ 0 → ntypeIn c.t.hdr.version (fld x.imm 7 0) = some t →
        let w := packWidth (fld x.imm 7 0)
        let slot := fld x.imm 11 8
        exec (.fpack x) s = .next (c.converted x.d 32 4 ((c.evalLanes (.fpack x) x.d).map fun l =>
          let flag := fun (o : Opnd) => if isSnan f32 (c.val 32 o l) then fInvalid else (0 : FFlags)
          let e0 := convertElem c.t c.a x.h l (roundCounter c.a l) t (bit x.h.mod 3) (decodeF f32 (c.val 32 x.a l))
          let e1 := convertElem c.t c.a x.h l e0.2.2 t (bit x.h.mod 3) (decodeF f32 (c.val 32 x.b l))
          let word : Word32 := setFld (BitVec.ofNat 32 (c.val 32 x.c l)) (w * (2 * slot + 1) - 1) (w * 2 * slot) (e0.1 % 2 ^ w)
          (l, (setFld word (w * (2 * slot + 2) - 1) (w * (2 * slot + 1)) (e1.1 % 2 ^ w)).toNat,
            e0.2.1 ||| e1.2.1 ||| flag x.a ||| flag x.b, e1.2.2))))
    ∧ (∀ s c t, turnOf (.funpack x) x.h s = .goes c → packWidth (fld x.imm 7 0) ≠ 0 → ntypeIn c.t.hdr.version (fld x.imm 7 0) = some t →
        let w := packWidth (fld x.imm 7 0)
        let elem := fun l =>
          let e := c.val 32 x.a l / 2 ^ (w * fld x.imm 12 8) % 2 ^ w
          if fld x.imm 7 0 = 5 ∨ fld x.imm 7 0 = 6 then e % 64 else e
        (bit x.imm 15 = true → exec (.funpack x) s = .next (c.converted x.d 32 4 ((c.evalLanes (.funpack x) x.d).map fun l =>
          (l, elem l, 0, roundCounter c.a l))))
        ∧ (bit x.imm 15 = false → ∀ vs : Nat → FVal × FFlags, (∀ l ∈ c.evalLanes (.funpack x) x.d, sourceValue t (elem l) = some (vs l)) →
          exec (.funpack x) s = .next (c.converted x.d 32 4 ((c.evalLanes (.funpack x) x.d).map fun l =>
            (l, (toFloat f32 .rne false (vs l).1).1, (vs l).2, roundCounter c.a l)))))
    ∧ raisesWhen (.fcvt x) x.h (fun _ => ¬ ∃ df sf, ntypeOf (fld x.imm 7 0) = some (.flt df) ∧ ntypeOf (fld x.imm 15 8) = some (.flt sf)) 12 0
        (fun c => maskOf c.ex)
    ∧ raisesWhen (.icvt x) x.h (fun c => ¬ ∃ d t, ntypeIn c.t.hdr.version (fld x.imm 7 0) = some d ∧ ntypeIn c.t.hdr.version (fld x.imm 15 8) = some t
        ∧ icvtPair (fld x.imm 7 0) (fld x.imm 15 8) d t = true) 12 0 (fun c => maskOf c.ex)
    ∧ (∀ s c d t, turnOf (.icvt x) x.h s = .goes c → ntypeIn c.t.hdr.version (fld x.imm 7 0) = some d →
        ntypeIn c.t.hdr.version (fld x.imm 15 8) = some t → icvtPair (fld x.imm 7 0) (fld x.imm 15 8) d t = true →
        let bad := (c.evalLanes (.icvt x) x.d).filter fun l => (sourceValue t (c.val 32 x.a l)).isNone
        bad ≠ [] → exec (.icvt x) s = c.raised 12 0 (maskOf bad))
    ∧ (∀ f : F3 → Instr, f = .fpack ∨ f = .funpack →
        raisesWhen (f x) x.h (fun c => packWidth (fld x.imm 7 0) = 0 ∨ ntypeIn c.t.hdr.version (fld x.imm 7 0) = none) 12 0 (fun c => maskOf c.ex))
    ∧ (∀ s c t, turnOf (.funpack x) x.h s = .goes c → packWidth (fld x.imm 7 0) ≠ 0 → ntypeIn c.t.hdr.version (fld x.imm 7 0) = some t →
        bit x.imm 15 = false →
        let w := packWidth (fld x.imm 7 0)
        let elem := fun l =>
          let e := c.val 32 x.a l / 2 ^ (w * fld x.imm 12 8) % 2 ^ w
          if fld x.imm 7 0 = 5 ∨ fld x.imm 7 0 = 6 then e % 64 else e
        let bad := (c.evalLanes (.funpack x) x.d).filter fun l => (sourceValue t (elem l)).isNone
        bad ≠ [] → exec (.funpack x) s = c.raised 12 0 (maskOf bad))
    ∧ boundTraps (.bound x) x.h x.bnd.toNat (fun _ => True)
        (fun c => (c.evalLanes (.bound x) x.d).filter fun l => (teamBound c.t x.bnd.toNat (c.val 32 x.a l)).trap)
    ∧ completesWhen (.bound x) x.h
        (fun c => ∀ l ∈ c.evalLanes (.bound x) x.d, (teamBound c.t x.bnd.toNat (c.val 32 x.a l)).trap = false)
        (fun c => c.pend 4 (((c.evalLanes (.bound x) x.d).flatMap fun l => regWrites 32 x.d l (teamBound c.t x.bnd.toNat (c.val 32 x.a l)).value)
          ++ if (c.evalLanes (.bound x) x.d).any fun l => (teamBound c.t x.bnd.toNat (c.val 32 x.a l)).hit
             then [.hit (BitVec.ofNat 16 (2 ^ x.bnd.toNat))] else []))

/-- Branches (R191, R309), calls and returns (R310), NOP (R308). -/
def Obligations.BranchComplete : Prop :=
  ∀ (x : F3) (y : FB),
    (completesAs (.nop x) x.h fun c => c.s)
    ∧ (completesWhen (.bra y) y.h (fun c => ∀ l ∈ c.act, judge c.a ((fun (c : Iss) (_ : Nat) => fbTarget c.pc y) c l) = .go)
        (fun c => moveLanes (c.pend 4 (c.linkWrites .zr)) c.a.key (c.act.map fun l => (l, (fun (c : Iss) (_ : Nat) => fbTarget c.pc y) c l))))
    ∧ (raisesWhen (.bra y) y.h
        (fun c => (∀ l ∈ c.act, judge c.a ((fun (c : Iss) (_ : Nat) => fbTarget c.pc y) c l) = .go ∨ judge c.a ((fun (c : Iss) (_ : Nat) => fbTarget c.pc y) c l) = .bad) ∧ ∃ l ∈ c.act, judge c.a ((fun (c : Iss) (_ : Nat) => fbTarget c.pc y) c l) = .bad)
        4 0 (fun c => maskOf (c.act.filter fun l => judge c.a ((fun (c : Iss) (_ : Nat) => fbTarget c.pc y) c l) == .bad)))
    ∧ (completesWhen (.call y) y.h (fun c => ∀ l ∈ c.act, judge c.a ((fun (c : Iss) (_ : Nat) => fbTarget c.pc y) c l) = .go)
        (fun c => moveLanes (c.pend 4 (c.linkWrites y.link)) c.a.key (c.act.map fun l => (l, (fun (c : Iss) (_ : Nat) => fbTarget c.pc y) c l))))
    ∧ (raisesWhen (.call y) y.h
        (fun c => (∀ l ∈ c.act, judge c.a ((fun (c : Iss) (_ : Nat) => fbTarget c.pc y) c l) = .go ∨ judge c.a ((fun (c : Iss) (_ : Nat) => fbTarget c.pc y) c l) = .bad) ∧ ∃ l ∈ c.act, judge c.a ((fun (c : Iss) (_ : Nat) => fbTarget c.pc y) c l) = .bad)
        4 0 (fun c => maskOf (c.act.filter fun l => judge c.a ((fun (c : Iss) (_ : Nat) => fbTarget c.pc y) c l) == .bad)))
    ∧ (completesWhen (.brx x) x.h (fun c => ∀ l ∈ c.act, judge c.a ((fun (c : Iss) (l : Nat) => val64 c.a x.a l) c l) = .go)
        (fun c => moveLanes (c.pend 4 (c.linkWrites .zr)) c.a.key (c.act.map fun l => (l, (fun (c : Iss) (l : Nat) => val64 c.a x.a l) c l))))
    ∧ (raisesWhen (.brx x) x.h
        (fun c => (∀ l ∈ c.act, judge c.a ((fun (c : Iss) (l : Nat) => val64 c.a x.a l) c l) = .go ∨ judge c.a ((fun (c : Iss) (l : Nat) => val64 c.a x.a l) c l) = .bad) ∧ ∃ l ∈ c.act, judge c.a ((fun (c : Iss) (l : Nat) => val64 c.a x.a l) c l) = .bad)
        4 0 (fun c => maskOf (c.act.filter fun l => judge c.a ((fun (c : Iss) (l : Nat) => val64 c.a x.a l) c l) == .bad)))
    ∧ (completesWhen (.callx x) x.h (fun c => ∀ l ∈ c.act, judge c.a ((fun (c : Iss) (l : Nat) => val64 c.a x.a l) c l) = .go)
        (fun c => moveLanes (c.pend 4 (c.linkWrites x.d)) c.a.key (c.act.map fun l => (l, (fun (c : Iss) (l : Nat) => val64 c.a x.a l) c l))))
    ∧ (raisesWhen (.callx x) x.h
        (fun c => (∀ l ∈ c.act, judge c.a ((fun (c : Iss) (l : Nat) => val64 c.a x.a l) c l) = .go ∨ judge c.a ((fun (c : Iss) (l : Nat) => val64 c.a x.a l) c l) = .bad) ∧ ∃ l ∈ c.act, judge c.a ((fun (c : Iss) (l : Nat) => val64 c.a x.a l) c l) = .bad)
        4 0 (fun c => maskOf (c.act.filter fun l => judge c.a ((fun (c : Iss) (l : Nat) => val64 c.a x.a l) c l) == .bad)))
    ∧ (completesWhen (.ret x) x.h (fun c => ∀ l ∈ c.act, val64 c.a x.a l = 0 ∨ legalPc (val64 c.a x.a l) = true)
        (fun c => exitLanes (moveLanes c.s c.a.key ((c.act.map fun l => (l, val64 c.a x.a l)).filter fun t => t.2 != 0)) c.a.key
          (c.act.filter fun l => val64 c.a x.a l == 0)))
    ∧ (raisesWhen (.ret x) x.h (fun c => ∃ l ∈ c.act, val64 c.a x.a l ≠ 0 ∧ legalPc (val64 c.a x.a l) = false) 4 0
        (fun c => maskOf (c.act.filter fun l => val64 c.a x.a l != 0 && !legalPc (val64 c.a x.a l))))

/-- WAITJ (R151, R312), EXIT (R313), YIELD (R314), SAFE (R208, R315). -/
def Obligations.LaneControlComplete : Prop :=
  ∀ x : F3,
    (∀ k, x.a = .k k → completesAs (.waitj x) x.h fun c => updAgent (parkLanes c.s c.a.key c.ex c.pc (.waitj k)) c.a.key fun a => releaseWaitj a k)
    ∧ (completesAs (.exit x) x.h fun c => exitLanes c.s c.a.key c.act)
    ∧ (completesWhen (.yield x) x.h (fun c => c.act ≠ []) fun c => updAgent c.s c.a.key fun a => { a with yielded := maskOf c.ex, gaveWay := true })
    ∧ (completesWhen (.yield x) x.h (fun c => c.act = []) fun c => c.s)
    ∧ (completesWhen (.safe x) x.h
        (fun c => fld x.imm 11 0 < c.t.hdr.liveCount ∧ outstanding c.s0 c.a c.t.core = false ∧ c.a.pend = [] ∧ deliver c.s0 c.a.key = none)
        (fun c => updAgent c.s c.a.key fun a =>
          { a with issueCount := 0, hold := if parksAtSafe c.s c.g (isLadle c.a.key) then some (.safePark (fld x.imm 11 0)) else a.hold }))
    ∧ (raisesWhen (.safe x) x.h (fun c => c.t.hdr.liveCount ≤ fld x.imm 11 0) 1 0 fun c => maskOf c.ex)

/-- JOIN (R311); without an active lane nothing is written (log entry 30). -/
def Obligations.JoinMask : Prop :=
  ∀ (x : F3) (n : BitVec 3) (s : State) (c : Iss), x.d = .k n → turnOf (.join x) x.h s = .goes c →
    exec (.join x) s = .next (if c.act = [] then c.s else c.pend 4 [.k n.toNat (maskOf c.act)])
    ∧ (∀ l < 32, bit (maskOf c.act) l = decide (l ∈ c.act))
    ∧ (∀ l ∈ c.ex, lpcOf c.a l = succPc c.pc)

/-- TRAP (R319): the event, the unwind of R318 and R396 inside a region, the termination outside one; none without an active lane (R307). -/
def Obligations.TrapTaken : Prop :=
  ∀ (x : F3) (s : State) (c : Iss), turnOf (.trap x) x.h s = .goes c →
    (c.act = [] → exec (.trap x) s = .next c.s)
    ∧ (c.act ≠ [] →
      let t := raise c.s0 c.a.key (mkEvent 23 0 (BitVec.ofNat 32 (fld x.imm 15 0)) c.pc)
      exec (.trap x) s = .next t
      ∧ (∀ h r, c.a.regions = h :: r → ∃ b, agentOf t c.a.key = some b ∧ b.regions = r ∧ b.crcause.toNat % 2 ^ 16 = 23
          ∧ b.cri = BitVec.ofNat 32 (fld x.imm 15 0) ∧ b.crpc = BitVec.ofNat 64 c.pc ∧ b.issueCount = 0
          ∧ ∀ l ∈ laneIds c.a.key, laneState c.a l ≠ .exited → laneState b l = .ready ∧ lpcOf b l = h)
      ∧ (c.a.regions = [] → ∃ g u, gridOf t c.g.id = some g ∧ g.terminated = true ∧ teamOf t c.t.uid = some u ∧ u.terminated = true
          ∧ ∀ b ∈ t.agents, b.key.team = c.t.uid → b.ended = true))

/-- LAUNCH with its misaligned record (R316), regions (R318), BKPT (R320). That a debugger's resumption passes the BKPT at which the agent
halted, and no other, is the model's choice (log entry 38), and so is that CROPEN with a bad target raises illegal target however many
regions are open (log entry 29). -/
def Obligations.RegionControlComplete : Prop :=
  ∀ (x : F3) (y : FB),
    (completesOnce (.launch x) x.h
        (fun c => c.a.key.idx = 0 ∧ hasTimeline c.t x.bnd.toNat = true ∧ c.g.depth < 10 ∧ ∀ l ∈ c.act.take 1, val64 c.a x.a l % 64 = 0)
        fun c l => holdFence c.s c.a.key false true 2 (.launch x.d (val64 c.a x.a l) x.bnd.toNat c.pc c.n))
    ∧ (raisesWhen (.launch x) x.h (fun c => c.a.key.idx = 0 ∧ hasTimeline c.t x.bnd.toNat = true ∧ c.act ≠ [] ∧ 10 ≤ c.g.depth) 17 0 fun _ => 0)
    ∧ (∀ s c l r, turnOf (.launch x) x.h s = .goes c → c.a.key.idx = 0 → hasTimeline c.t x.bnd.toNat = true → c.act = l :: r → c.g.depth < 10 →
        val64 c.a x.a l % 64 ≠ 0 →
        exec (.launch x) s = .next (raise c.s0 c.a.key { mkEvent 5 0 (maskOf c.act) c.pc with addr := val64 c.a x.a l }))
    ∧ (raisesWhen (.launch x) x.h (fun c => c.a.key.idx ≠ 0 ∨ hasTimeline c.t x.bnd.toNat = false) 1 0 fun c => maskOf c.ex)
    ∧ (completesWhen (.cropen y) y.h (fun c => judge c.a (fbTarget c.pc y) = .go ∧ c.a.regions.length < 8) fun c => updAgent c.s c.a.key fun a => { a with regions := fbTarget c.pc y :: a.regions })
    ∧ (raisesWhen (.cropen y) y.h (fun c => judge c.a (fbTarget c.pc y) = .go ∧ 8 ≤ c.a.regions.length) 16 0 fun _ => 0)
    ∧ (raisesWhen (.cropen y) y.h (fun c => judge c.a (fbTarget c.pc y) = .bad) 4 0 fun c => maskOf c.ex)
    ∧ (∀ h r, completesWhen (.crclose x) x.h (fun c => c.a.regions = h :: r) fun c => updAgent c.s c.a.key fun a => { a with regions := r })
    ∧ (raisesWhen (.crclose x) x.h (fun c => c.a.regions = []) 1 0 fun c => maskOf c.ex)
    ∧ (completesWhen (.bkpt x) x.h (fun c => c.act = [] ∨ bit c.s0.debugOn c.g.domain = false ∨ c.pc ∈ c.a.debugPass) fun c =>
        updAgent c.s c.a.key fun a => { a with debugPass := a.debugPass.filter (· != c.pc) })
    ∧ (∀ s c, turnOf (.bkpt x) x.h s = .goes c → c.act ≠ [] → bit c.s0.debugOn c.g.domain = true → c.pc ∉ c.a.debugPass →
        ∃ t, exec (.bkpt x) s = .next t ∧ t.outputs = c.s0.outputs ++ [.debugHalt c.a.key (BitVec.ofNat 16 (fld x.imm 15 0))]
          ∧ ∀ a, agentOf c.s0 c.a.key = some a → agentOf t c.a.key = some { a with hold := some (.bkpt (BitVec.ofNat 16 (fld x.imm 15 0)) c.pc) })

/-- Steps, reductions, timelines, time and special registers at their issue (R321 to R329); a STEP's lanes park there, a WAITTL's and a
SLEEP's warp waits. -/
def Obligations.TimelineComplete : Prop :=
  ∀ x : F3,
    (completesWhen (.step x) x.h (fun c => isMember c.t (fld x.imm 2 0) c.a.key.idx = true) fun c =>
      updAgent (parkLanes c.s c.a.key c.ex c.pc (.atStep (fld x.imm 2 0))) c.a.key fun a =>
        { a with marker := true, stepFences := a.stepFences ||| (if bit x.h.mod 0 then 2 ^ fld x.imm 2 0 else 0) })
    ∧ (raisesWhen (.step x) x.h (fun c => isMember c.t (fld x.imm 2 0) c.a.key.idx = false) 1 0 fun c => maskOf c.ex)
    ∧ (completesOnce (.redt x) x.h (fun c => isMember c.t (fld x.imm 2 0) c.a.key.idx = true) fun c l =>
        let n := fld x.imm 2 0
        let k := sget 0 c.a.redtCount n
        checkReductions (contribute (updAgent c.s c.a.key fun a => { a with redtCount := sset 0 a.redtCount n (k + 1) })
          (groupKey c.t n) k (BitVec.ofNat 3 (fld x.h.mod 2 0)) (BitVec.ofNat 64 (val64 c.a x.a l)) ⟨c.a.key, x.d, c.n, c.pc, true⟩) c.t.grid)
    ∧ (raisesWhen (.redt x) x.h (fun c => isMember c.t (fld x.imm 2 0) c.a.key.idx = false) 1 0 fun c => maskOf c.ex)
    ∧ (completesOnce (.waittl x) x.h (fun c => hasTimeline c.t x.bnd.toNat = true) fun c l =>
        updAgent c.s c.a.key fun a => { a with hold := some (.waittl x.bnd.toNat (c.valB 64 x l) c.pc) })
    ∧ (raisesWhen (.waittl x) x.h (fun c => hasTimeline c.t x.bnd.toNat = false) 1 0 fun c => maskOf c.ex)
    ∧ (raisesWhen (.tlrd x) x.h (fun c => hasTimeline c.t x.bnd.toNat = false) 1 0 fun c => maskOf c.ex)
    ∧ (completesOnce (.tladv x) x.h (fun c => hasTimeline c.t x.bnd.toNat = true) fun c _ =>
        let r := takeNumber c.s c.t.uid x.bnd.toNat
        let i := fresh r.1
        updAgent i.2 c.a.key fun a =>
          { a with adv := a.adv ++ [⟨i.1, .count x.bnd.toNat r.2, 2, false, 0, 0, c.n, c.a.paths.filter (scopeHas 2), none⟩] })
    ∧ (raisesWhen (.tladv x) x.h (fun c => hasTimeline c.t x.bnd.toNat = false) 1 0 fun c => maskOf c.ex)
    ∧ (completesOnce (.sleep x) x.h (fun _ => True) fun c l =>
        let ns := c.valB 64 x l % 2 ^ 32
        if ns = 0 then c.s else updAgent c.s c.a.key fun a => { a with hold := some (.sleep (coreTime c.s c.t.core + ns)) })
    ∧ (completesAs (.rdtime x) x.h fun c => c.wroteLanes (c.act.take 1) 64 2 x.d fun _ => coreTime c.s c.t.core)
    ∧ (completesWhen (.movsr x) x.h (fun c => ¬ ((fld x.imm 7 0 = 0 ∨ fld x.imm 7 0 = 7) ∧ isS x.d = true ∧ isLadle c.a.key = false)) fun c =>
        c.wroteLanes (if isS x.d then c.act.take 1 else c.act) (specialWidth (fld x.imm 7 0)) 2 x.d (c.special (fld x.imm 7 0)))
    ∧ (raisesWhen (.movsr x) x.h (fun c => (fld x.imm 7 0 = 0 ∨ fld x.imm 7 0 = 7) ∧ isS x.d = true ∧ isLadle c.a.key = false) 1 0 fun c => maskOf c.ex)
    ∧ (completesAs (.movrs x) x.h fun c => c.pend 2 ((c.act.take 1).map fun l => .special (fld x.imm 7 0) (BitVec.ofNat 64 (val64 c.a x.a l))))

/-- TLRD (R325). -/
def Obligations.TimelineRead : Prop :=
  ∀ (x : F3) (s : State) (c : Iss), turnOf (.tlrd x) x.h s = .goes c → hasTimeline c.t x.bnd.toNat = true →
    exec (.tlrd x) s = .next (c.wroteLanes (c.act.take 1) 64 2 x.d fun _ =>
      if bit x.imm 0 then (timelineOf c.t x.bnd.toNat).issued else (timelineOf c.t x.bnd.toNat).completed)

/-- Matrix operations, the vote, fragments, the epilogue, checks and job cards (R282 to R301). That an MMA reads its other operands and
writes its tile at its issue, sees a word of its B tile as it was read in the cycles before, and sets %accsat two cycles later is the
model's choice (log entry 46). -/
def Obligations.MatrixComplete : Prop :=
  ∀ (x : F3),
    (∀ (zero isInt : Bool) (s : State) (c : Iss),
      let v := c.vote x.d
      let tile := fld x.imm 5 0
      let blocks := sideRead v.fa false
      let cached := match c.a.latch with | some l => l.field == x.a && l.fmt == v.fa | none => false
      let desc := val64 c.a x.b 0
      let off := desc % 2 ^ 20
      let side := desc / 2 ^ 20 % 2 ^ 20
      let reads := operandReads v.fb off side false
      let bands := if isS x.c then val64 c.a x.c 0 else 0
      let frag := match c.a.latch with | some l => if cached then l.frag else c.fragment x.a blocks | none => c.fragment x.a blocks
      let rows := fragValues v.fa frag (bands % 2 ^ 16)
      let c1 := c.landed reads
      let u := c1.tileView v.fb
      let cols := stepOperand u v.fb off side false (bands / 2 ^ 16 % 2 ^ 16)
      turnOf (if zero then .mmaz x else .mma x) x.h s = .goes c → maskOf c.ex = 0xFFFFFFFF → maskOf c.act = 0xFFFFFFFF →
      v.ma = 0 → v.mb = 0 → mmaPair c.t.hdr.version v.fa v.fb = some isInt → (blocks = true → fragReg x.a + 10 ≤ c.t.hdr.vregs) →
      tile < c.t.hdr.accTiles → c.descFault x v desc = none → (∀ r ∈ reads, readWaits c.t r.1 r.2 = [] ∧ stepPoisoned u r.1 r.2 = false) →
      (cached = false → poisonRead c.a ((List.range (if blocks then 10 else 8)).map (fragReg x.a + ·)) [] c.act = none) →
      badRows rows = [] → badRows cols = [] → (zero = false → tilePoisoned c.t tile = false) →
      let r := mmaTile c1.t tile zero isInt (goodRows rows) (goodRows cols)
      exec (if zero then .mmaz x else .mma x) s
        = .next (updAgent (Iss.pend { c1 with s := updTeam c1.s c1.t.uid fun _ => r.1 } 2 (if r.2 then [.accsat] else [])) c.a.key fun a =>
          { a with latch := if x.h.keep then some ⟨x.a, v.fa, frag⟩ else none }))
    ∧ (∀ i ∈ [Instr.mma x, .mmaz x, .fmtv x], completesWhen i x.h (fun c => c.collective = .none) (·.s))
    ∧ (∀ i ∈ [Instr.accld x, .accst x, .accz x, .accepi x, .accck x, .mjob x], completesWhen i x.h (fun c => c.act = []) (·.s))
    ∧ (∀ s c, turnOf (.fmtv x) x.h s = .goes c → maskOf c.ex = 0xFFFFFFFF → maskOf c.act = 0xFFFFFFFF →
      let v := c.vote x.a
      let m := v.ma ||| v.mb
      let kind := if m = 0 then mmaPair c.t.hdr.version v.fa v.fb else none
      exec (.fmtv x) s = .next (addVar c.s c.a.key c.n (regWrites 64 x.d 0 (m.toNat + (v.ma != 0).toNat * 2 ^ 32 + (v.mb != 0).toNat * 2 ^ 33
        + kind.isSome.toNat * 2 ^ 34 + (kind.getD false).toNat * 2 ^ 35)) none))
    ∧ completesWhen (.accld x) x.h (fun c => c.act ≠ [] ∧ fld x.imm 5 0 < c.t.hdr.accTiles) (fun c =>
        updTeam c.s c.t.uid fun t => c.act.foldl (fun t l => (List.range 8).foldl (fun t r =>
          { t with acc := sset 0 t.acc (fld x.imm 5 0 * 1024 + l * 32 + 8 * fld x.imm 9 8 + r) (vGet c.a (fragReg x.a + r) l)
                   accPoison := sset false t.accPoison (fld x.imm 5 0 * 1024 + l * 32 + 8 * fld x.imm 9 8 + r) false }) t) t)
    ∧ completesWhen (.accst x) x.h (fun c => c.act ≠ [] ∧ fld x.imm 5 0 < c.t.hdr.accTiles) (fun c =>
        addVar c.s c.a.key c.n (c.act.flatMap fun l => (List.range 8).flatMap fun r =>
          RegWrite.v (fragReg x.d + r) l (sget 0 c.t.acc (fld x.imm 5 0 * 1024 + l * 32 + 8 * fld x.imm 9 8 + r))
            :: (if sget false c.t.accPoison (fld x.imm 5 0 * 1024 + l * 32 + 8 * fld x.imm 9 8 + r)
                then [RegWrite.vPoison (fragReg x.d + r) l 0] else [])) none)
    ∧ (∀ s c, turnOf (.accz x) x.h s = .goes c → c.act ≠ [] → fld x.imm 5 0 + fld x.imm 14 8 ≤ c.t.hdr.accTiles →
      ∃ t, exec (.accz x) s = .next t ∧ ∀ u, teamOf c.s c.t.uid = some u → ∃ w, teamOf t c.t.uid = some w
        ∧ ∀ k, sget 0 w.acc k = if fld x.imm 5 0 * 1024 ≤ k ∧ k < (fld x.imm 5 0 + fld x.imm 14 8) * 1024 then 0 else sget 0 u.acc k)
    ∧ (∀ s c l r, turnOf (.accepi x) x.h s = .goes c → c.act = l :: r →
      let desc := val64 c.a x.a l
      let sb := val64 c.a x.b l
      let fmt : Word32 := BitVec.ofNat 32 (sb / 2 ^ 32)
      let width := codeWidth (fwCode fmt)
      let useCk := bit x.h.mod 4
      let useBias := bit x.h.mod 2
      let useBnd := bit x.h.mod 3
      let tile := fld x.imm 5 0
      let out := desc % 2 ^ 20
      let biasOff := desc / 2 ^ 20 % 2 ^ 20
      let ckOff := desc / 2 ^ 40 % 2 ^ 20
      fmtOk c.t.hdr.version .dest fmt = true → (useCk = true → 8 ≤ width) → tile < c.t.hdr.accTiles → desc / 2 ^ 60 = 0 →
      epiPlaces c.t width out (if useBias then some biasOff else none) (if useCk then some ckOff else none) = none →
      let bias := if useBias then [(biasOff, 128)] else []
      let c1 := c.landed (bias ++ (out, 128 * width) :: if useCk then [(ckOff, 128)] else [])
      (useBias = true → readWaits c.t biasOff 128 = [] ∧ stepPoisoned c1.t biasOff 128 = false) → absentLines c.t out (128 * width) = [] →
      (useCk = true → absentLines c.t ckOff 128 = []) → tilePoisoned c1.t tile = false →
      let p : Epi := ⟨bit x.imm 6, sb % 2 ^ 32, fmt, fld x.h.mod 1 0, if useBias then some (biasWords c1.t biasOff) else none,
        if useBnd then some x.bnd.toNat else none⟩
      let e := epilogue c1.t tile p (drawAt c1.t c.a.key) ((List.range 32).map (roundCounter c.a))
      e.trapped = [] →
      let s1 := if e.hit then setHit c1.s c.t.uid x.bnd.toNat else c1.s
      let s2 := updAgent s1 c.a.key fun a => e.counters.zipIdx.foldl (fun a e => setCounter a e.2 e.1) a
      let s3 := landIn s2 c.t.uid out (tileBytes width e.codes) false
      exec (.accepi x) s = .next (if useCk then landIn s3 c.t.uid ckOff (checkBytes (columnSums e.codes)) false else s3))
    ∧ (∀ s c l r, turnOf (.accck x) x.h s = .goes c → c.act = l :: r →
      let desc := val64 c.a x.a l
      let fmt : Word32 := BitVec.ofNat 32 (val64 c.a x.b l / 2 ^ 32)
      let code := fwCode fmt
      let width := codeWidth code
      let out := desc % 2 ^ 20
      let ckOff := desc / 2 ^ 40 % 2 ^ 20
      fld fmt 31 15 = 0 → codeAssigned c.t.hdr.version code = true → 8 ≤ width → desc / 2 ^ 60 = 0 → epiPlaces c.t width out none (some ckOff) = none →
      readWaits c.t out (128 * width) = [] → readWaits c.t ckOff 128 = [] →
      let c1 := c.landed [(out, 128 * width), (ckOff, 128)]
      stepPoisoned c1.t out (128 * width) = false → stepPoisoned c1.t ckOff 128 = false →
      let sums := columnSums (readCodes c1.t code out)
      let bad := maskOf ((List.range 32).filter fun j => (sums[j]?).getD 0 != stepRead c1.t (ckOff + 4 * j) 4)
      exec (.accck x) s = .next (addVar c1.s c.a.key c.n (regWrites 64 x.d l bad.toNat)
        (if bad = 0 then none else some ⟨c.n, l, mkEvent 21 1 bad c.pc, false⟩)))
    ∧ (∀ s c l r, turnOf (.mjob x) x.h s = .goes c → c.act = l :: r → (coreOf c.s0 c.t.core).jobs.length < 4 →
      let v := if immb x then x.imm.toNat else val64 c.a x.b l
      let c1 := c.landed [(v % 2 ^ 20, 128)]
      let b := stepBytes c1.t (v % 2 ^ 20) 128
      v / 2 ^ 20 = 0 → inOneRegion c.t (v % 2 ^ 20) 128 = true → v % 2 ^ 20 % 128 = 0 → readWaits c.t (v % 2 ^ 20) 128 = [] →
      stepPoisoned c1.t (v % 2 ^ 20) 128 = false → cardOk c1.t b (parseCard b) = true →
      let n := takeNumber c1.s c.t.uid (parseCard b).tl
      let job : Job := { issuer := c.a.key, n := n.2, pc := c.pc, card := parseCard b, step := 0, accumulated := false, early := [], draws := List.replicate 32 0,
                         asked := cycleOf c.s c.t.core, tested := false, admitted := false, blocked := 0, fault := none, finished := false }
      exec (.mjob x) s = .next (refreshBusy (updCore n.1 c.t.core fun k => { k with jobs := k.jobs ++ [job] }) c.t.core))
    ∧ completesWhen (.mjob x) x.h (fun c => c.act ≠ [] ∧ 4 ≤ (coreOf c.s0 c.t.core).jobs.length) Iss.lacking

/-- Global accesses at their issue (R220 to R223, R238, R239): without an active lane no effect, without a waiting-table entry put off, else
begun, a releasing atomic behind its release with the entry that it needs (R40); AlignmentTraps says where they trap. -/
def Obligations.GlobalComplete : Prop :=
  ∀ x : FM,
    let n := Machine.sizeOf x.h
    let st := fun (c : Iss) => c.boundStore x.h x.bnd.toNat n (c.memLanes x [x.data2]) (c.data n x.data2)
    (beginsAccess (.ld x) x.h (fun c => c.aligned n (c.ea x n)) (·.s) (.load (signedSize x.h) false) x.d n (·.loadReqs x n) (acquireOf x))
    ∧ (beginsAccess (.st x) x.h (fun c => c.aligned n (c.ea x n) ∧ (st c).2.2 = []) (fun c => c.hitIf (st c).2.1 x.bnd.toNat) .store .zr n
        (fun c => (st c).1.map fun d => laneReq d.1 (c.ea x n d.1) none n (BitVec.ofNat 128 d.2) 0) none)
    ∧ (boundTraps (.st x) x.h x.bnd.toNat (fun c => c.aligned n (c.ea x n)) fun c => (st c).2.2)
    ∧ (beginsAccess (.lda x) x.h (fun c => c.aligned n (c.ea x n)) (·.s) (.load (signedSize x.h) true) x.d n (·.loadReqs x n) none)
    ∧ (beginsAccess (.chka x) x.h (fun c => c.aligned n (c.ea x n) ∧ ∀ l ∈ c.memLanes x [x.d],
          addrPoisoned c.a (coreTime c.s c.t.core) (uniformFM x [x.d]) x.d n l (c.ea x n l) = false)
        (·.s) (.load (signedSize x.h) false) x.d n
        (fun c => (c.loadReqs x n).filter fun r => !addrHit c.a (coreTime c.s c.t.core) (uniformFM x [x.d]) x.d n r.lane r.va) none)
    ∧ (completesWhen (.invala x) x.h (fun c => c.act ≠ []) (fun c => updAgent c.s c.a.key fun a =>
        { a with addrTable := if bit x.h.mod 0 then [] else a.addrTable.filter fun e => e.dest != x.d }))
    ∧ (completesWhen (.invala x) x.h (fun c => c.act = []) (·.s))
    ∧ (beginsAccess (.ldix x) x.h (fun c => c.aligned 4 (c.ea x 4)) (·.s) (.ldix (bit x.h.mod 4) (signedSize x.h)) x.d n
        (fun c => (c.memLanes x [x.d, x.data2]).map fun l => laneReq l (c.ea x 4 l) (some (val64 c.a x.data2 l)) n 0 0) none)
    ∧ (∀ (returns : Bool),
        let i := if returns then Instr.atom x else .red x
        let code := BitVec.ofNat 5 (fld x.h.mod 4 0)
        let w64 := bit x.h.mod 5
        let m := atomSize x
        let op := if returns then MemOp.atom code w64 else MemOp.red code w64
        let dest := if returns then x.d else .zr
        let reqs := fun (c : Iss) => c.atomReqs x (if returns then atomData x else [x.data2])
        beginsAccess i x.h (fun c => c.aligned m (c.ea x m) ∧ (ordRel x = false ∨ reqs c = [])) (·.s) op dest m reqs (acquireOf x)
        ∧ (completesWhen i x.h (fun c => c.aligned m (c.ea x m) ∧ ordRel x = true ∧ reqs c ≠ [] ∧ c.room op (reqs c) = true) fun c =>
          holdFence c.s c.a.key false true (ordScope x) (.access op dest m c.pc (reqs c) (acquireOf x) (ordScope x != 3)) (c.slotFor op (reqs c)))
        ∧ completesWhen i x.h (fun c => c.aligned m (c.ea x m) ∧ ordRel x = true ∧ reqs c ≠ [] ∧ c.room op (reqs c) = false) Iss.lacking)

/-- Prefetch, write-back, code and fences at their issue (R224 to R229). -/
def Obligations.CacheControlComplete : Prop :=
  ∀ x : FM,
    let ranges := fun (c : Iss) => (c.act.take 1).flatMap fun l => pageParts (c.ea x 1 l) (val64 c.a x.data2 l % 2 ^ 32)
    (completesWhen (.pref x) x.h (fun c => c.act ≠ []) fun c =>
        beginPrefetch c.s c.t.core c.a.key c.g.vf (.pref ((c.memLanes x []).map fun l => c.ea x 1 l / 128 * 128).dedup) prefRun)
    ∧ (completesOnce (.prefb x) x.h (fun c => hasTimeline c.t x.bnd.toNat = true) fun c l =>
        let tl := x.bnd.toNat
        let n := takeNumber c.s c.t.uid tl
        beginPrefetch (updTeam n.1 c.t.uid fun t => { t with prefb := t.prefb ++ [(tl, n.2, 1)] }) c.t.core c.a.key c.g.vf
          (.prefb c.t.uid tl n.2 (c.ea x 1 l) (val64 c.a x.data2 l % 2 ^ 32)) prefbRun)
    ∧ (raisesWhen (.prefb x) x.h (fun c => hasTimeline c.t x.bnd.toNat = false) 1 0 fun c => maskOf c.ex)
    ∧ (beginsAccess (.cwb x) x.h (fun _ => True) (·.s) .cwb .zr 1 (fun c => (c.memLanes x []).map fun l => laneReq l (c.ea x 1 l) none 1 0 0) none)
    ∧ (beginsAccess (.icinv x) x.h (fun c => ranges c ≠ [])
        (fun c => updAgent c.s c.a.key fun a => { a with hold := some (.icinv ⟨0,
          if ordScope x == 2 then (List.range 12).filter fun k => isLive c.s k && !socketFailed c.s k else [], [], ordScope x == 2, c.s.time, []⟩) })
        .icinv .zr 1 (fun c => (c.act.take 1).flatMap fun l => (pageParts (c.ea x 1 l) (val64 c.a x.data2 l % 2 ^ 32)).map fun p => laneReq l p.1 none p.2 0 0) none)
    ∧ (completesWhen (.icinv x) x.h (fun c => ranges c = []) (·.s))
    ∧ (completesWhen (.fetchb x) x.h (fun c => c.act ≠ []) fun c => updAgent c.s c.a.key fun a => { a with fetchBuf := [] })
    ∧ (completesWhen (.fence x) x.h (fun c => c.act ≠ []) fun c => holdFence c.s c.a.key (ordAcq x) (ordRel x) (ordScope x) .none)
    ∧ (∀ i ∈ [Instr.pref x, .fetchb x, .fence x], completesWhen i x.h (fun c => c.act = []) (·.s))

/-- Step-memory instructions at their issue (R216, R219, R230 to R237, R240, R241): the effect, behind the warp's earlier stores in the
banks that a load reads (R127), the wait at absent lines (R138), the events. That a store travels to its bank after its issue is the model's
choice (log entry 40). -/
def Obligations.StepMemComplete : Prop :=
  ∀ x : FM,
    let n := Machine.sizeOf x.h
    let m := atomSize x
    let st := fun (k : Nat) (c : Iss) => c.boundStore x.h x.bnd.toNat k (c.memLanes x [x.data2]) (c.data k x.data2)
    let entry := fun (c : Iss) (k : Nat) (data : List Opnd) =>
      c.otherLanes (c.memLanes x data) (c.ea x k) = [] ∨ tableFree c.s c.t.core (isLadle c.a.key) = true
    let lines := fun (k : Nat) (data : List Opnd) (c : Iss) => c.missing (c.ownLanes (c.memLanes x data) (c.ea x k)) k
    (actsOnBanks (.lds x) x.h (fun c => c.stepGood false n .load (c.ea x n))
        (fun c => ((c.ownLanes (c.memLanes x [x.d]) (c.ea x n)).flatMap fun p => readWaits c.t p.2 n).dedup)
        fun c =>
          let own := c.ownLanes (c.memLanes x [x.d]) (c.ea x n)
          let c1 := c.landed (own.map fun p => (p.2, n))
          if own = [] then c1.s else addLoad c1.s c.a.key c.n (own.flatMap fun p =>
            let r := loadResult n (signedSize x.h) (stepRead c1.t p.2 n)
            regWrites r.1 x.d p.1 r.2 ++ if stepPoisoned c1.t p.2 n then poisonMarks r.1 x.d p.1 0 else []))
    ∧ (actsOnBanks (.sts x) x.h (fun c => c.stepGood false n .store (c.ea x n) ∧ (st n c).2.2 = []) (lines n [x.data2]) fun c =>
        updTeam (c.hitIf (st n c).2.1 x.bnd.toNat) c.t.uid fun t =>
          (c.ownLanes (c.memLanes x [x.data2]) (c.ea x n)).foldl (fun t p => storeStep t c.a.key c.n p.2 n p.1 (dataOf (st n c).1 p.1)) t)
    ∧ (completesWhen (.stx x) x.h (fun c => c.stepGood true n .stx (c.ea x n) ∧ (st n c).2.2 = []) fun c =>
        c.stxEffect x (dataOf (st n c).1) (c.hitIf (st n c).2.1 x.bnd.toNat))
    ∧ (∀ (i : Instr) (op : TagOp) (dest : Opnd) (data : List Opnd),
        (i, op, dest, data) ∈ [(Instr.ldf x, TagOp.ldf (bit x.h.mod 4), x.d, [x.d]), (.tagset x, .set, .zr, []), (.tagclr x, .clr, .zr, []),
          (.tagrd x, .rd, x.d, [x.d])] →
        (∀ s c, turnOf i x.h s = .goes c → c.stepGood true 4 .tag (c.ea x 4) → lines 4 data c = [] → ¬ entry c 4 data → exec i s = .next c.lacking)
        ∧ actsOnBanks i x.h (fun c => c.stepGood true 4 .tag (c.ea x 4) ∧ (lines 4 data c = [] → entry c 4 data)) (lines 4 data)
          fun c => c.tagEffect x op dest data (fun _ => 0) c.s)
    ∧ (∀ (i : Instr) (op : TagOp), (i, op) ∈ [(Instr.ste x, TagOp.ste), (.stf x, .stf)] →
        (∀ s c, turnOf i x.h s = .goes c → c.stepGood true 4 .tag (c.ea x 4) → (st 4 c).2.2 = [] → lines 4 [x.data2] c = [] →
          ¬ entry c 4 [x.data2] → exec i s = .next c.lacking)
        ∧ actsOnBanks i x.h (fun c => c.stepGood true 4 .tag (c.ea x 4) ∧ (st 4 c).2.2 = [] ∧ (lines 4 [x.data2] c = [] → entry c 4 [x.data2]))
          (lines 4 [x.data2]) fun c => c.tagEffect x op .zr [x.data2] (dataOf (st 4 c).1) (c.hitIf (st 4 c).2.1 x.bnd.toNat))
    ∧ (completesWhen (.prsrd x) x.h (fun c => c.stepGood false 1 .presence (c.ea x 1)) fun c =>
        let own := c.ownLanes (c.memLanes x [x.d]) (c.ea x 1)
        if own = [] then c.s else addVar c.s c.a.key c.n (own.flatMap fun p => regWrites 32 x.d p.1 (presenceWord c.t p.2).toNat) none)
    ∧ (∀ (i : Instr) (remote : Bool) (dest : Opnd) (data : List Opnd),
        (i, remote, dest, data) ∈ [(Instr.atoms x, false, x.d, atomData x), (.reds x, false, .zr, [x.data2]), (.atomx x, true, x.d, atomData x)] →
        (∀ s c, turnOf i x.h s = .goes c → c.stepGood remote m .atomic (c.ea x m) → lines m data c = [] → ¬ entry c m data →
          exec i s = .next c.lacking)
        ∧ actsOnBanks i x.h (fun c => c.stepGood remote m .atomic (c.ea x m) ∧ (lines m data c = [] → entry c m data)) (lines m data)
          fun c => c.bankEffect x dest data)
    ∧ (stepTraps (.lds x) x.h false n .load (·.ea x n)) ∧ (stepTraps (.sts x) x.h false n .store (·.ea x n))
    ∧ (stepTraps (.stx x) x.h true n .stx (·.ea x n)) ∧ (stepTraps (.prsrd x) x.h false 1 .presence (·.ea x 1))
    ∧ (∀ i ∈ [Instr.ldf x, .tagset x, .tagclr x, .tagrd x, .ste x, .stf x], stepTraps i x.h true 4 .tag (·.ea x 4))
    ∧ (∀ i ∈ [Instr.atoms x, .reds x], stepTraps i x.h false m .atomic (·.ea x m)) ∧ (stepTraps (.atomx x) x.h true m .atomic (·.ea x m))
    ∧ (boundTraps (.sts x) x.h x.bnd.toNat (fun c => c.stepGood false n .store (c.ea x n)) fun c => (st n c).2.2)
    ∧ (boundTraps (.stx x) x.h x.bnd.toNat (fun c => c.stepGood true n .stx (c.ea x n)) fun c => (st n c).2.2)
    ∧ (∀ i ∈ [Instr.ste x, .stf x], boundTraps i x.h x.bnd.toNat (fun c => c.stepGood true 4 .tag (c.ea x 4)) fun c => (st 4 c).2.2)

/-- Copy instructions at their issue (R101 to R117, R330 to R336). -/
def Obligations.CopyComplete : Prop :=
  ∀ x : F3,
    let tl := x.bnd.toNat
    let slack := fld x.imm 7 0
    let nb := bit x.aux 0
    (acceptsCopy (.copy x) x.h tl slack nb x.d (·.engine x) fun c => c.plan x (copyFormOf x) false 1 false)
    ∧ (acceptsCopy (.copyg x) x.h tl slack nb x.d (·.engine x) fun c => c.plan x .gather true (2 ^ fld x.imm 17 15) false)
    ∧ (acceptsCopy (.copys x) x.h tl slack nb x.d (·.engine x) fun c => c.plan x .scatter true (2 ^ fld x.imm 17 15) false)
    ∧ (acceptsCopy (.copyr x) x.h tl slack nb x.d (·.engine x) fun c =>
        c.plan x (.reduce (BitVec.ofNat 5 (fld x.h.mod 4 0))) false (if bit x.h.mod 5 then 8 else 4) true)
    ∧ (acceptsCopy (.cbload x) x.h tl 0 false .zr (fun _ => fld x.imm 10 8) fun c => c.bookPlan x)
    ∧ (acceptsCopy (.cbdrop x) x.h tl 0 false .zr (fun _ => fld x.imm 10 8) fun _ _ =>
        { emptyPlan (.cbdrop (fld x.imm 19 18)) x 0 0 0 with dstStep := false, srcStep := false, idxStep := false })
    ∧ (completesOnce (.cqry x) x.h (fun _ => True) fun c l =>
        addVar c.s c.a.key c.n (regWrites 64 x.d l (cqryWord c.s (socketOf c.t.core) (c.engine x) c.t.uid).toNat) none)

/-- Events of one agent: markers (R80, R204, R313, R353), fences, WAITTL and TLADV (R77 to R79, R86, R134, R324, R326), expiries (R74, R163, R327,
R405), wakes (R138), instruction lines (R92, R227), the debugger (R320). That a resumed agent goes past the BKPT at which it halted is the model's
choice (log entry 38). -/
def Obligations.AgentEvents : Prop :=
  ∀ (k : AgentKey),
    (∀ s a t, agentOf s k = some a → teamOf s k.team = some t → a.lastIssue ≤ cycleOf s (coreOfAgent s k) → a.marker = true → a.hold = none →
        a.ended = false → outstanding s a t.core = false →
        let s1 := updAgent s k fun a => { a with marker := false, markerAcq := none }
        (∀ d, deliver s1 k = some d → exec (.switchMarkerPass k) s = .next (endIfEmpty d k))
        ∧ (deliver s1 k = none → allExited a = false → exec (.switchMarkerPass k) s = .next (tryArrive s1 k))
        ∧ (deliver s1 k = none → allExited a = true → exec (.switchMarkerPass k) s = .next (holdFence s1 k false true 3 .endAgent)))
    ∧ (∀ s a t f, agentOf s k = some a → teamOf s k.team = some t → a.hold = some (.fence f) → loadsOut s a t.core = false →
        contReady s a t.core f.cont = true →
        let ps := fencePaths a f.scope
        (f.rel = false → exec (.fenceComplete k) s = .next (fenceEnds s k t.core f.cont f.slot))
        ∧ (f.rel = true → f.scope = 1 → accessesOut s a t.core = false → bankWritesOut s a = false → tagWaitsOf s k = [] →
            (∀ e ∈ entriesOf s t.core k, e.remote = false) → exec (.fenceComplete k) s = .next (fenceEnds s k t.core f.cont f.slot))
        ∧ (f.rel = true → f.scope ≠ 1 → accessesOut s a t.core = false → bankWritesOut s a = false → f.sent = false → exec (.fenceComplete k) s
            = .next (sendMarkers (updAgent s k fun a =>
              { a with hold := some (.fence { f with sent := true, replies := ps.length, paths := ps, xpaths := a.xpaths.filter ps.contains }), paths := a.paths.filter fun p => !ps.contains p
                       xpaths := a.xpaths.filter fun p => !ps.contains p }) t.core f.id (isLadle k) ps))
        ∧ (f.rel = true → f.scope ≠ 1 → accessesOut s a t.core = false → bankWritesOut s a = false → f.sent = true → f.replies = 0 →
            (f.tMax = 0 ∨ f.tMax < coreTime s t.core) → exec (.fenceComplete k) s = .next (fenceEnds s k t.core f.cont f.slot)))
    ∧ (∀ s a t (tl n pc : Nat), agentOf s k = some a → teamOf s k.team = some t → a.hold = some (.waittl tl n pc) → loadsOut s a t.core = false →
        faultMark (timelineOf t tl) = none → n ≤ (timelineOf t tl).completed →
        let s1 := updAgent s k fun a => { a with hold := none }
        exec (.fenceComplete k) s = .next (match deliverOf s1 k (·.report) with | some d => endIfEmpty d k | none => s1))
    ∧ (∀ s a t (tl n pc m : Nat), agentOf s k = some a → teamOf s k.team = some t → a.hold = some (.waittl tl n pc) → loadsOut s a t.core = false →
        faultMark (timelineOf t tl) = some m → m ≤ n → exec (.fenceComplete k) s = .next (raise
          (updTeam (updAgent s k fun a => { a with hold := none }) t.uid fun u =>
            setTimeline u tl { timelineOf u tl with faulted := (timelineOf t tl).faulted.filter fun m => n < m })
          k (timelineEvent tl ((timelineOf t tl).faulted.min?.getD 0) pc)))
    ∧ (∀ s a t o r (tl n : Nat), agentOf s k = some a → teamOf s k.team = some t → a.hold = none → a.adv = o :: r → o.goal = .count tl n →
        (o.sent = false → (∀ e ∈ entriesOf s t.core k, e.issue < o.upto → e.holdsMarkers = false) → storesOut t k o.upto = false →
          exec (.fenceComplete k) s = .next (sendMarkers (updAgent s k fun a =>
            { a with adv := updWhere (fun x => x.id == o.id) (fun x => { x with sent := true, replies := o.paths.length }) a.adv })
            t.core o.id (isLadle k) o.paths))
        ∧ (o.sent = true → o.replies = 0 → (o.tMax = 0 ∨ o.tMax < coreTime s t.core) → exec (.fenceComplete k) s
            = .next (completeOp (updAgent s k fun a => { a with adv := a.adv.filter fun x => x.id != o.id }) k.team tl n false)))
    ∧ (∀ s a n, agentOf s k = some a → a.hold = some (.sleep n) → n ≤ coreTime s (coreOfAgent s k) →
        exec (.sleepExpiry k) s = .next (updAgent s k fun b => { b with hold := none }))
    ∧ (∀ s (core line : Nat), (∃ l ∈ (coreOf s core).l1, l.line = line ∧ l.expiry ≤ coreTime s core) → exec (.leaseExpiry core line) s
        = .next (updCore s core fun c => { c with l1 := c.l1.filter fun l => !(l.line == line && decide (l.expiry ≤ coreTime s core)) }))
    ∧ (∀ s a, agentOf s k = some a → (∃ e ∈ a.addrTable, e.expiry ≤ coreTime s (coreOfAgent s k)) → exec (.addressTableExpiry k) s
        = .next (updAgent s k fun b => { b with addrTable := b.addrTable.filter fun e => !decide (e.expiry ≤ coreTime s (coreOfAgent s k)) }))
    ∧ (∀ s a t w, agentOf s k = some a → teamOf s k.team = some t → (a.absent.find? fun w => w.lines.all (lineReady t)) = some w →
        exec (.absentLineWake k) s = .next (updAgent s k fun b =>
          { b with
            absent := b.absent.erase w
            lanes := (laneIds k).foldl (fun m l => if bit w.lanes l && sget .ready m l == .absent then sset .ready m l .ready else m) b.lanes }))
    ∧ (∀ s (line : Nat) a t, agentOf s k = some a → teamOf s k.team = some t → a.ended = false → wantedLine a = some line →
        fetching s k line = false →
        let again := a.fetchBuf.any fun l => l.va == line && l.st == .retry
        let q := newReader s (some t.core) (isLadle k) (ctxOf s k) (.line k line again)
        (∀ r, readerOf q.2 q.1 = some r → exec (.lineFill k line) s = .next (lineRun q.2 r))
        ∧ (∀ x l, (∀ r ∈ s.readers, r.id ≠ q.1) → again = false → canonical line = true → tlbFind s t.core (ctxOf s k) line .fetch = some x →
            ((coreOf s t.core).l0.find? fun l => l.ctx == ctxOf s k && l.va == line) = some l →
            exec (.lineFill k line) s = .next (putFetch (dropReader q.2 q.1) k ⟨line, l.pa, lineChecked l.bytes⟩)))
    ∧ (∀ s a, agentOf s k = some a → a.ended = false → regBit s .wdcfg 63 = true → 1000 * max 1 (regFld s .wdcfg 31 0) ≤ a.stuck →
        exec (.watchdogExpiry k) s
          = .next (raise s k (mkEvent 26 (if isLadle k then 1 else 0) (parkedLanes a) ((issueAddress a).getD (lpcOf a 0)))))
    ∧ (∀ s a n pc, agentOf s k = some a → a.hold = some (.bkpt n pc) →
        exec (.debugResume k) s = .next (updAgent s k fun b => { b with hold := none, debugPass := b.debugPass ++ [pc] }))
    ∧ (∀ s a q (sock : Nat), agentOf s k = some a → a.hold = some (.icinv q) → (∀ e ∈ entriesOf s (coreOfAgent s k) k, e.op ≠ .icinv) →
        sock ∈ q.chiplets →
        let way := if sock = socketOf (coreOfAgent s k) then 0 else 20
        ((∀ d ∈ q.dropped, d.1 ≠ sock) → q.since + way ≤ s.time → exec (.icinvChipletAck k sock) s = .next (updAgent
          ((List.range 32).foldl (fun s i => dropLines s q.ranges (32 * sock + i)) s) k fun b =>
            { b with hold := some (.icinv { q with dropped := q.dropped ++ [(sock, s.time)] }) }))
        ∧ (∀ d, (q.dropped.find? fun d => d.1 == sock) = some d → d.2 + way ≤ s.time → exec (.icinvChipletAck k sock) s
            = .next (icinvCheck (updAgent s k fun b => { b with hold := some (.icinv { q with chiplets := q.chiplets.filter (· != sock) }) }) k
              (coreOfAgent s k))))

/-- Steps and reductions (R50, R126, R132, R322, R323). -/
def Obligations.StepEvents : Prop :=
  ∀ (g : GroupKey),
    (∀ s, stepDue s g = true → groupTrap (landStep s g) g = none → exec (.stepComplete g) s = .next (swapStep (landStep s g) g))
    ∧ (∀ s x, stepDue s g = true → groupTrap (landStep s g) g = some x → exec (.stepComplete g) s = .next (trapStep (landStep s g) g x))
    ∧ (∀ s t (team region : Nat), teamOf s team = some t → t.refilling.contains region = true → exec (.nextPlaneRefillDone team region) s
        = .next (updTeam s team fun t => { t with refilling := t.refilling.filter (· != region) }))
    ∧ (∀ s (k : Nat) r, (s.reductions.find? fun r => r.group == g && r.k == k) = some r → redtComplete s r = true → whiskDone s g k false = true →
        exec (.redtResult g k) s = .next (giveResult s g k r)
        ∧ (∀ m a, r.members = [m] → m.live = true → r.mixed = false → agentOf s m.agent = some a → a.ended = false →
          ∃ b, agentOf (giveResult s g k r) m.agent = some b
            ∧ b.vars = a.vars ++ [{ issue := m.issue, writes := regWrites 64 m.dest 0 r.value.toNat, event := none }]))
    ∧ (∀ s (n : Nat) w, s.whisk[n]? = some w → w.due ≤ s.time → w.links < (whiskLinks s w.group).length → exec (.whiskMessage n) s
        = .next { s with whisk := s.whisk.set n { w with links := w.links + 1, due := s.time + ((whiskLinks s w.group)[w.links + 1]?).getD 0 } })

/-- Request packets (R8, R15, R23, R36, R78, R93): accepted by a slice into its order of arrival, cycle by cycle, by any other target at
once; and one of those that a slice has accepted, and that can be applied now, is applied. That a cycle of the slice is a nanosecond is the
model's choice (log entry 16). -/
def Obligations.RequestPackets : Prop :=
  ∀ (h : Hop) (s : State),
    (∀ (i : Hop → Instr) (kind : Msg → Bool) (f : Packet → State → State),
      (i, kind, f) ∈ [(Instr.rd, isRd, fun p s => applyRequest s p), (.wr, isWr, fun p s => applyRequest s p), (.atPkt, isAtPkt, fun p s => applyRequest s p),
        (.lx, isLx, fun p s => applyRequest s p), (.pf, isPf, answerEmpty), (.icinvCommit, isIcinvCommit, answerEmpty)] →
      let due := s.inbox.zipIdx.filter fun a => a.1.hop == h && kind a.1.pkt.msg && canServe s a
      (∀ t p s1, brings s h kind = some t → firstAtInput s h t = true → take s h kind = .got p s1 →
        exec (i h) s = .next (if isMemory p.dst then acceptArrival h t p s1 else f p s1))
      ∧ (∀ t s1, brings s h kind = some t → firstAtInput s h t = true → take s h kind = .passed s1 → exec (i h) s = .next s1)
      ∧ (brings s h kind = none → due ≠ [] → ∃ a ∈ due, exec (i h) s = .next (serveArrival (pick s due.length).2 a.1)))
    ∧ (∀ p, (s.markers.find? fun p => streamHop p == h && !markerBlocked s p) = some p →
        exec (.fm h) s = .next (answerMarker { s with markers := s.markers.erase p } p))
    ∧ ((s.markers.find? fun p => streamHop p == h && !markerBlocked s p) = none →
        let due := s.inbox.zipIdx.filter fun a => a.1.hop == h && isFm a.1.pkt.msg && canServe s a
        (∀ t p s1, brings s h isFm = some t → firstAtInput s h t = true → take s h isFm = .got p s1 → exec (.fm h) s = .next (if isMemory p.dst then acceptArrival h t p s1
          else if markerBlocked s1 p then { s1 with markers := s1.markers ++ [p] } else answerMarker s1 p))
        ∧ (∀ t s1, brings s h isFm = some t → firstAtInput s h t = true → take s h isFm = .passed s1 → exec (.fm h) s = .next s1)
        ∧ (brings s h isFm = none → due ≠ [] → ∃ a ∈ due, exec (.fm h) s = .next (serveArrival (pick s due.length).2 a.1)))

/-- Replies, messages and fabric control (R36 to R46, R60, R78): a packet that is accepted is applied; one that is passed over, passed on or
dropped by the link's checks (R38, R39, R44) leaves what `take` gives. -/
def Obligations.ReplyPackets : Prop :=
  ∀ (h : Hop) (s : State),
    (∀ (i : Hop → Instr) (kind : Msg → Bool) (f : Packet → State → State),
      (i, kind, f) ∈ [(Instr.rdr, isRdr, applyRdr), (.wrc, isWrc, applyWrc), (.atr, isAtr, applyAtr), (.fmr, isFmr, applyFmr), (.xm, isXm, applyXm),
        (.pfReply, isPfReply, applyPfReply), (.rm, isRm, applyRm), (.rma, isRma, applyRma), (.lc, isLc, applyLc),
        (.lossNotice, isLossNotice, applyLossNotice), (.translationRequest, isTranslationRequest, applyTranslationRequest),
        (.reservedPacket, isReservedPacket, fun _ s => { s with protErr := supd 0 s.protErr h.dst (· + 1) })] →
      (∀ p s1, take s h kind = .got p s1 → exec (i h) s = .next (f p s1))
      ∧ (∀ s1, take s h kind = .passed s1 → exec (i h) s = .next s1))
    ∧ (∀ t p s1, brings s h isTx = some t → firstAtInput s h t = true → take s h isTx = .got p s1 →
        exec (.tx h) s = .next (if isMemory p.dst ∧ sliceRequest p.msg = true then acceptArrival h t p s1 else applyTx p s1))
    ∧ (∀ t s1, brings s h isTx = some t → firstAtInput s h t = true → take s h isTx = .passed s1 → exec (.tx h) s = .next s1)
    ∧ (brings s h isTx = none →
        let due := s.inbox.zipIdx.filter fun a => a.1.hop == h && isTx a.1.pkt.msg && canServe s a
        due ≠ [] → ∃ a ∈ due, exec (.tx h) s = .next (serveArrival (pick s due.length).2 a.1))

/-- Links, routes and package time (R38, R42 to R48). That ROUTE's resends counts every packet sent again, and that the exchange takes a
calibrated delay, are the model's choices (log entries 20 and 50). -/
def Obligations.LinkEvents : Prop :=
  ∀ (h : Hop) (m n : Nat) (v : Word64),
    (∀ s, retryDue s (linkOf s h) = true → (linkOf s h).resends < 8 → ∃ t, exec (.linkRetryTimeout h) s = .next t
        ∧ (linkOf t h).resends = (linkOf s h).resends + 1
        ∧ (linkOf t h).unacked.map (·.pkt) = (linkOf s h).unacked.map (·.pkt)
        ∧ (∀ x ∈ (linkOf t h).unacked, x.at_ = s.time)
        ∧ (regExists (.route h.src h.dst) = true → regFld t (.route h.src h.dst) 7 0
            = min 255 (regFld s (.route h.src h.dst) 7 0 + (linkOf s h).unacked.length)))
    ∧ (∀ s, h.src ≠ h.dst → h.src < 32 → h.dst < 32 → (linkOf s h).dark = false →
        exec (.colourDark h true) s = .next (sendNotice (setLink s { linkOf s h with wire := [], dark := true }) h))
    ∧ (∀ s, h.src ≠ h.dst → h.src < 32 → h.dst < 32 → retryDue s (linkOf s h) = true → 8 ≤ (linkOf s h).resends →
        exec (.colourDark h false) s = .next (applyLoss s h.src h.dst h.planeB))
    ∧ (∀ s, exec (.routeWrite m n v) s = .next (writeRoute s m n v))
    ∧ (∀ s, exec (.routeRetest m n v) s = .next (writeRoute s m n (setBit v 13 true)))
    ∧ (∀ s (t : Nat) (wasA wasB okA okB : Bool), (s.retests.find? fun r => r.src == m && r.dst == n) = some ⟨m, n, t, wasA, wasB⟩ → t + 10000 ≤ s.time →
        exec (.routeRetestDone m n okA okB) s = .next (flushRma (
          let s1 := { s with retests := s.retests.erase ⟨m, n, t, wasA, wasB⟩ }
          let s2 := if okA = true ∧ wasA = true ∧ routeDark s1 m n false = true then relight s1 ⟨m, n, false⟩ else s1
          if okB = true ∧ wasB = true ∧ routeDark s2 m n true = true then relight s2 ⟨m, n, true⟩ else s2)))
    ∧ (∀ s (t1 t2 t3 t4 : Int), exchangeDue s n = true → exchangeTimes s n = (t1, t2, t3, t4) →
        let num := (t2 - t1) - (t4 - t3)
        let good := decide (num.natAbs ≤ skew s)
        let s1 := { s with clocks := sset clockInit s.clocks n { sget clockInit s.clocks n with
          remove := num / 2, good := if good then (sget clockInit s.clocks n).good + 1 else 0, nextExchange := s.time + 10000, missed := 0 } }
        socketFailed s 31 = false → exec (.timeExchange n t1 t2 t3 t4) s = .next (if s1.released.getLsbD n && !good then failDie s1 n else s1))
    ∧ (∀ s (t1 t2 t3 t4 : Int), exchangeDue s n = true → exchangeTimes s n = (t1, t2, t3, t4) → socketFailed s 31 = true →
        exec (.timeExchange n t1 t2 t3 t4) s = .next (missExchange s n (sget clockInit s.clocks n)))
    ∧ (∀ s, s.powered.getLsbD n = true → n < 31 → socketFailed s n = false → isLive s n = true → (sget clockInit s.clocks n).nextExchange ≤ s.time →
        exchangeDue s n = true)

/-- Translation events (R52 to R55, R61 to R69). That a walk which an invalidation overtakes begins again and busy waits for it is the
model's choice (log entry 41), and so is that a request still held sets overflow again once software has cleared it, and that an answer is
acted on once the requester has been told its identifier (log entry 31). -/
def Obligations.TranslationEvents : Prop :=
  ∀ (sock n : Nat) (v : Word64),
    (∀ s w x bad, ((shardOf s sock).walks.find? fun w => w.id == n) = some w → w.got = some (x, bad) →
        let s1 := walkReply s sock w x bad
        exec (.walkReferenceReply sock n) s = .next (serveWaiting sock ((shardOf s1 sock).waiting.length + 1) s1)
        ∧ (w.dropped = true → s1 = walkOn s sock w (walkBegin s sock w.req w.id))
        ∧ (∀ o r, w.dropped = false → w.ors = o :: r →
            s1 = walkOn s sock w (if bad then .done (.fault 9) else .more { w with got := none, ors := r }))
        ∧ (∀ pa, w.dropped = false → w.ors = [] → walkAddress w = some pa →
            s1 = walkOn (walkStep s sock { w with got := none } pa x bad).1 sock w (walkStep s sock { w with got := none } pa x bad).2))
    ∧ (∀ s q id stage ipa pa, ((shardOf s sock).toPost.find? fun e => (nextRecord s e.1.ctx).isSome) = some (q, id, stage, ipa) →
        nextRecord s q.ctx = some pa →
        let c := accessCode s q.acc
        exec (.pageRequestPost sock) s = .next (updShard
          (deviceWrite c.1 sock pa (requestRecord sock q id stage ipa c.2 (timeAt c.1 sock)) (.prq q.ctx)) sock fun h =>
          { h with toPost := h.toPost.erase (q, id, stage, ipa) }))
    ∧ (∀ s e, (∀ e ∈ (shardOf s sock).toPost, nextRecord s e.1.ctx = none) →
        ((shardOf s sock).toPost.find? fun e => !regBit s (.prqbase e.1.ctx) 63) = some e →
        exec (.pageRequestPost sock) s = .next (regSetBit s (.prqbase e.1.ctx) 63 true))
    ∧ (∀ s w, (writesFor s (.prq n)).head? = some w → w.over s = true → exec (.prqRecordComplete n) s
        = .next (raiseVector (regSet { s with devWrites := s.devWrites.erase w } (.prqptr n) 31 0 ((regFld s (.prqptr n) 31 0 + 1) % 2 ^ 32)) n 0))
    ∧ (∀ s p, pageReqOf s n (fld v 15 0) = some p →
        exec (.prrespRetry n v) s = .next (answerReq s p true) ∧ exec (.prrespRefuse n v) s = .next (answerReq s p false)
        ∧ (p.told = true → (∀ e ∈ s.shards, ∀ x ∈ e.2.toPost, ¬ (x.1.ctx = p.ctx ∧ x.2.1 = p.id)) →
          let s1 := fun (b : Bool) => { s with pageReqs := updWhere (· == p) (fun p => { p with answer := some b }) s.pageReqs }
          answerReq s p true = retryReq (s1 true) { p with answer := some true }))
    ∧ (∀ s, pageReqOf s n (fld v 15 0) = none → exec (.prrespRetry n v) s = .next s ∧ exec (.prrespRefuse n v) s = .next s)
    ∧ (∀ s, regBit s .xlatinv 63 = false →
        let after := fun (w : Word64) => let s1 := regSetBit (regPut s .xlatinv (regWritten .xlatinv (regGet s .xlatinv) w)) .xlatinv 63 true
          { dropCovered s1 (invalOf s1) with xlatGen := s1.xlatGen + 1, inval := invalOf s1 }
        exec (.xlatinvRange v) s = .next (after (setFld v 62 61 0)) ∧ exec (.xlatinvContext v) s = .next (after (setFld v 62 61 1))
          ∧ exec (.xlatinvAll v) s = .next (after (setFld v 62 61 2)))
    ∧ (∀ s, regBit s .xlatinv 63 = true → exec (.xlatinvRange v) s = .next s ∧ exec (.xlatinvContext v) s = .next s ∧ exec (.xlatinvAll v) s = .next s)
    ∧ (∀ s, regBit s .xlatinv 63 = true → (∀ e ∈ s.shards, ∀ w ∈ e.2.walks, w.dropped = false) → coveredInFlight s s.inval = false →
        exec .xlatinvComplete s = .next (regSetBit s .xlatinv 63 false))

/-- Pins, scrub and error counters (R22, R29, R30). That the pins are dropped at the write and busy ends by a step of its own is the model's choice
(log entry 42). -/
def Obligations.HomeEvents : Prop :=
  ∀ (n : Nat) (v : Word64),
    (∀ s, regExists (.pinctl n) = true → regBit s (.pinctl n) 61 = false →
        let put := fun (w : Word64) => regPut s (.pinctl n) (regWritten (.pinctl n) (regGet s (.pinctl n)) w)
        let w1 := setFld v 63 62 1
        let first := fld w1 51 16 * 65536
        let len := (if fld w1 15 0 = 0 then 65536 else fld w1 15 0) * 65536
        exec (.pinctlUnpinRange n v) s
          = .next (regSetBit (unpin (put w1) n fun line => decide (first ≤ line * 128 ∧ line * 128 < first + len)) (.pinctl n) 61 true)
        ∧ exec (.pinctlUnpinAll n v) s = .next (regSetBit (unpin (put (setFld v 63 62 2)) n fun _ => true) (.pinctl n) 61 true))
    ∧ (∀ s, regExists (.pinctl n) = true → regBit s (.pinctl n) 61 = true → exec (.pinctlUnpinRange n v) s = .next s
        ∧ exec (.pinctlUnpinAll n v) s = .next s ∧ exec (.pinctlComplete n) s = .next (regSetBit s (.pinctl n) 61 false))
    ∧ (∀ s, isMemory n = true → running s n = true → regBit s .scrubcfg 31 = true →
        (∀ l ∈ s.links, l.hop.dst = n → arrived s l.hop = none) → (∀ a ∈ s.inbox.zipIdx, a.1.hop.dst = n → canServe s a = false) →
        let k := sget 0 s.scrubPos n
        exec (.scrubRead n) s = .next (dramCheck { s with scrubPos := sset 0 s.scrubPos n ((k + 1) % chipletHalves) } (halfAddress s n k)))
    ∧ (∀ s, regExists (.memerr n) = true → exec (.memerrClear n v) s
        = .next (regSet (regPut s (.memerr n) (regWritten (.memerr n) (regGet s (.memerr n)) (setBit v 38 true))) (.memerr n) 63 40 0))

/-- Copy and matrix engines (R84, R110 to R115, R302 to R305, R371). That a step's epilogue comes in a move of its own, looks for errors
again and takes its accumulation back where it meets one, is the model's choice (log entry 46). -/
def Obligations.EngineEvents : Prop :=
  ∀ (c e : Nat),
    (∀ s op, nextControl s c e = none → nextCopy s c e = some op → op.know.asking = false → exec (.copyChunk c e) s = .next (serveChunk s c e op))
    ∧ (∀ s op k count size, nextControl s c e = some op → op.form = .cbload k count size → op.know.asking = false →
        exec (.cbloadServe c e) s = .next (loadBook s c e op k count size))
    ∧ (∀ s op k, nextControl s c e = some op → op.form = .cbdrop k → exec (.cbdropServe c e) s = .next (dropBook s c e op k))
    ∧ (∀ s (n : Nat) op, ((engineOf s c e).queue.find? fun op => op.seq == n) = some op → op.outstanding = 0 →
        (op.tMax = 0 ∨ op.tMax < timeAt s c) → (op.fault ≠ none ∨ (copyTotal s c e op ≤ op.pos ∧ linesLanded s op = true)) →
        exec (.copyComplete c e n) s = .next (endCopy s c e op))
    ∧ (∀ s, (∃ g ∈ clusterCores c, ∃ j, headJob s g = some j ∧ j.tested = false ∧ j.admitted = false ∧ j.finished = false) →
        exec (.jobAdmission c) s = .next (admitCluster s false c))
    ∧ (∀ s j t, headJob s c = some j → j.admitted = true → j.finished = false → teamOf s j.issuer.team = some t →
        let k := j.card
        let p := stepPlan k j.step
        let reads := operandReads k.fmtA p.a p.aSide true ++ operandReads k.fmtB p.b p.bSide true
        let rows := stepOperand (jobView t j) k.fmtA p.a p.aSide true 0
        let cols := stepOperand (jobView t j) k.fmtB p.b p.bSide true 0
        let bias := if k.bias then [(p.bias, 128)] else []
        let writes := (p.out, 128 * codeWidth (fwCode k.fmtOut)) :: (if k.ck then [(p.check, 128)] else [])
        let x : Epi :=
          { isInt := (pairKind k.fmtA k.fmtB).getD false, scale := k.scale.toNat, fmt := k.fmtOut, act := k.act.toNat
            bias := if k.bias then some (biasWords (jobView t j) p.bias) else none, bnd := if k.bndEn then some k.bnd.toNat else none }
        let m := mmaTile t p.tile.toNat (p.first && k.zero) ((pairKind k.fmtA k.fmtB).getD false) (goodRows rows) (goodRows cols)
        let r := epilogue t p.tile.toNat x (fun i c => draw t.seed 34 i (65536 * j.n + c)) j.draws
        let ended : State → Nat × Nat → Result := fun s f => .next (finishJob s c { j with addr := f.2 } (some f.1))
        (j.accumulated = false →
          (∀ f, stepFault t k p = some f → exec (.jobStep c) s = ended s f)
          ∧ (stepFault t k p = none → (∀ r ∈ reads, readWaits t r.1 r.2 = []) →
            (((∃ r ∈ reads, stepPoisoned (jobView t j) r.1 r.2 = true) ∨ ((p.first && k.zero) = false ∧ tilePoisoned t p.tile.toNat = true))
              → exec (.jobStep c) s = ended s (5, 0))
            ∧ ((∀ r ∈ reads, stepPoisoned (jobView t j) r.1 r.2 = false) → ((p.first && k.zero) = true ∨ tilePoisoned t p.tile.toNat = false) →
              ((badRows rows ≠ [] ∨ badRows cols ≠ []) → exec (.jobStep c) s = ended s (3, 0))
              ∧ (badRows rows = [] → badRows cols = [] →
                let s1 := updTeam s t.uid fun _ => m.1
                ((p.last && k.epi) = false → exec (.jobStep c) s = .next (putHead (jobSaturated s1 j m.2) c (jobPast j j.draws)))
                ∧ ((p.last && k.epi) = true → ∃ ws, exec (.jobStep c) s = .next (putHead s1 c { j with accumulated := true, sat := m.2, undo := ws })
                    ∧ ∀ n, sget 0 (undoTile m.1 p.tile.toNat ws).acc n = sget 0 t.acc n)))))
        ∧ (j.accumulated = true → (∀ r ∈ bias, readWaits t r.1 r.2 = []) → (∀ r ∈ writes, absentLines t r.1 r.2 = []) →
          (((∃ r ∈ bias, stepPoisoned (jobView t j) r.1 r.2 = true) ∨ tilePoisoned t p.tile.toNat = true) →
            exec (.jobStep c) s = ended (updTeam s t.uid fun t => undoTile t p.tile.toNat j.undo) (5, 0))
          ∧ ((∀ r ∈ bias, stepPoisoned (jobView t j) r.1 r.2 = false) → tilePoisoned t p.tile.toNat = false →
            let s1 := jobSaturated (if r.hit then setHit s t.uid k.bnd.toNat else s) j j.sat
            let s2 := landIn s1 t.uid p.out (tileBytes (codeWidth (fwCode k.fmtOut)) r.codes) false
            (r.trapped ≠ [] → exec (.jobStep c) s = ended s1 (4, 0))
            ∧ (r.trapped = [] → exec (.jobStep c) s
              = .next (putHead (if k.ck then landIn s2 t.uid p.check (checkBytes (columnSums r.codes)) false else s2) c (jobPast j r.counters))))))
    ∧ (∀ s j, headJob s c = some j → j.finished = true → exec (.jobComplete c) s = .next (endJob s c j))

/-- Queues, dispatch, placement and retirement (R341 to R344, R356 to R368). That an image is read again for its take is the model's choice
(log entry 51). -/
def Obligations.QueueEvents : Prop :=
  ∀ (q : Nat) (v : Word64),
    (∀ s (w : WindowWrite), exec (.queueWindowWrite w) s = .next (windowWrite s w))
    ∧ (∀ s, q < 2048 → let new := regWritten (.qcfg q) (regGet s (.qcfg q)) v
        exec (.qcfgWrite q v) s = .next (restartHeads s (regPut s (.qcfg q)
          (if regBit s (.qcfg q) 63 then setFld new 61 50 (regFld s (.qcfg q) 61 50) else new))))
    ∧ (∀ s, q < 2048 → exec (.qstatClear q v) s = .next (regSet s (.qstat q) 63 32 0))
    ∧ (∀ s n r e, dispatching s = true → s.lastTake ≤ timeAt s 31 →
        firstEligible s (dispatchOrder s (s.queues.map (·.1))) = some (n, r, e) →
        (e ≠ .unread → exec .dispatchTake s = .next (takeHead s n r e))
        ∧ (e = .unread → judging s n = false → exec .dispatchTake s = .next (beginJudge s n r)))
    ∧ (∀ s g (team core : Nat), gridOf s q = some g → teamFits s g team core = true →
        exec (.teamPlace q team core) s = .next (updGrid (placeTeam s g team core) q fun g => { g with nextTeam := team + 1 }))
    ∧ (∀ s g (cores : List Nat), gridOf s q = some g → cohortFits s g cores = true → exec (.cohortPlace q cores) s = .next (placeCohort s g cores))
    ∧ (∀ s,
        let child := s.grids.find? fun g => g.queue == q && g.parentGrid.isSome && g.hdr.cohort && !g.terminated && g.nextTeam == 0 && !g.blocking
          && waitedLong s g.since
        (∀ g, child = some g → exec (.cohortWaitExpiry q) s = .next (updGrid s g.id fun g => { g with blocking := true }))
        ∧ (∀ r rest, child = none → queueOf s q = r :: rest → r.blocking = false → headReady s q = true → waitedLong s r.headSince = true →
          judgeLast s q r = .waits → exec (.cohortWaitExpiry q) s = .next { s with queues := sset [] s.queues q ({ r with blocking := true } :: rest) }))
    ∧ (∀ s t, teamOf s q = some t → teamOver s t = true →
        exec (.teamRetire q) s = .next (updGrid (removeTeam s t) t.grid fun g => { g with retired := g.retired + 1 }))
    ∧ (∀ s g, gridOf s q = some g → gridOver s g = true → exec (.gridRetire q) s = .next (retireGrid s g))

/-- Power, thermal reports and pacing (R369 to R385, R406 to R408, R415, R424). That a hard trip acts at once, and that a lost host is a
save that cannot be made, are the model's choices (log entry 33); so are a boundary 5 µs after the last or later and a lag of 0 in a period
without a lag word (log entry 22). -/
def Obligations.PowerEvents : Prop :=
  ∀ (n : Nat) (v : Word64),
    (∀ s (loads : List Nat), s.lastBoundary + 5000 ≤ timeAt s 31 → socketFailed s 31 = false →
        exec (.controlIntervalBoundary loads) s = .next (atBoundary s loads))
    ∧ (∀ s c, [1, 2, 3].find? (deadlineDue s) = some c → exec .shedSafeDeadline s = .next { s with shedSince := sinsert s.shedSince (8 + c) 1 })
    ∧ (∀ s (f w : BitVec 16), let s1 := regSet (regSet s .shelfstat 47 32 f.toNat) .shelfstat 31 16 w.toNat
        exec (.shelfSample f w false) s = .next s ∧ exec (.shelfSample f w true) s = .next
          { regSetBit (regSet s1 .shelfstat 15 0 ((regFld s .shelfstat 15 0 + 1) % 65536)) .shelfstat 48 false with lastSample := timeAt s 31 })
    ∧ (∀ s, regBit s .shelfstat 48 = false → s.lastSample + 1000 * max 300 (regFld s .pwrcfg 47 32) ≤ timeAt s 31 →
        exec .telemetryStale s = .next { regSetBit s .shelfstat 48 true with staleSince := timeAt s 31 })
    ∧ (∀ s, exec (.droopCurveWrite n v) s = .next (writeCurve s n v))
    ∧ (∀ s, n < 96 → exec (.droopDetect n) s = .next (showHalved { s with
        clusters := supd clusterInit s.clusters n fun c => { c with halvedUntil := some (timeAt s (n / 8) + droopHold s) } } n))
    ∧ (∀ s t, (sget clusterInit s.clusters n).halvedUntil = some t → t ≤ timeAt s (n / 8) → exec (.droopHoldExpiry n) s
        = .next (showHalved { s with clusters := supd clusterInit s.clusters n fun c => { c with halvedUntil := none } } n))
    ∧ (∀ s (deg : Nat), running s n = true →
        (regFld s .thermHard 7 0 ≤ deg → exec (.thermalReport n deg) s
          = .next (regSetBit { s with hardTrip := true, em := s.em.map fun e => { e with cut := e.cut || regBit s .emstat 62 } } .emstat 63 true))
        ∧ (deg < regFld s .thermHard 7 0 → regBit s .thermSave 31 = true → regFld s .thermSave 7 0 ≤ deg → regBit s .emstat 62 = false →
          regBit s .emstat 61 = false → emSize s ≠ 0 → isHostMem (emBase s) = true → hostReached s = true →
          exec (.thermalReport n deg) s = .next (beginEmergency s))
        ∧ (deg < regFld s .thermHard 7 0 → regBit s .thermSave 31 = true → regFld s .thermSave 7 0 ≤ deg → regBit s .emstat 62 = false →
          regBit s .emstat 61 = false → (emSize s = 0 ∨ isHostMem (emBase s) = false ∨ hostReached s = false) →
          exec (.thermalReport n deg) s = .next ((residentDomains s).foldl (fun s d => thermalRecord s d 0 0 false 0) s))
        ∧ (deg < regFld s .thermHard 7 0 → deg < regFld s .thermSave 7 0 → exec (.thermalReport n deg) s = .next s))
    ∧ (∀ s, exec (.pacecfgWrite v) s = .next (writePacecfg s v))
    ∧ (∀ s, s.lastPace + 50000 ≤ timeAt s 31 → regBit s .pacecfg 31 = false →
        exec .pacePeriodEnd s = .next { s with lastPace := timeAt s 31, lateCopies := 0, lags := [] })
    ∧ (∀ s, s.lastPace + 50000 ≤ timeAt s 31 → regBit s .pacecfg 31 = true → ∃ t, exec .pacePeriodEnd s = .next t
        ∧ t.lastPace = timeAt s 31 ∧ t.lastL = (s.lags.max?).getD 0 ∧ t.outputs = s.outputs ++ [.lag s.lateCopies])
    ∧ (∀ s, exec (.lagWordReceive n) s = .next (if regBit s .pacecfg 31 then { s with lags := s.lags ++ [n] } else s))

/-- Pre-emption and the emergency save (R400 to R409). That while busy only a cancel has an effect is the model's choice (log entry 26), and so is the
layout of what a save's digest covers (log entry 9) and what the emergency save writes when (log entry 33). -/
def Obligations.SaveEvents : Prop :=
  ∀ (n : Nat) (v : Word64),
    (∀ s, regBit s .preempt 61 = true → exec (.preemptSave v) s = .next s ∧ exec (.preemptResume v) s = .next s ∧ exec (.preemptCancel v) s = .next (cancelSave s))
    ∧ (∀ s, regBit s .preempt 61 = false → let put := fun (c : Nat) => regPut s .preempt (regWritten .preempt (regGet s .preempt) (setFld v 63 62 c))
        exec (.preemptSave v) s = .next (startSave (put 1) (fld v 10 0))
        ∧ exec (.preemptResume v) s = .next (startResume (put 2) (fld v 10 0) (bit v 11))
        ∧ exec (.preemptCancel v) s = .next (put 3))
    ∧ (∀ s g, gridOf s n = some g → savePending s g = true → g.terminated = false →
        let todo := (s.teams.filter fun (t : Team) => t.grid == n).flatMap fun t => (agentsOfTeam s t).filter (releasable s t)
        let reads := (s.teams.filter fun (t : Team) => t.grid == n).flatMap fun t => (agentsOfTeam s t).filter (liveDue s)
        (todo ≠ [] ∨ newlyDrained s g ≠ [] ∨ reads ≠ [] ∨ saveReady s = true) →
        exec (.teamSave n) s = .next (settleSaves (markDrained (reads.foldl readLive (todo.foldl beginRelease s)) (newlyDrained s g))))
    ∧ (∀ s g a (cores : List Nat) s1 s2,
        let q := regFld s .preempt 10 0
        let em := regBit s .preempt 11
        let ts := a.teams.filter fun t => t.grid == n
        gridOf s n = some g → areaOf s q em = some a → regBit s .preempt 61 = true → s.saving = none → dispatching s = true → ts ≠ [] →
        g.terminated = false → (em = true ∨ s.hostHeld = []) → digestMatches s a q = (true, s1) → g.hdr.cohort = false → cores ≠ [] → cores.length ≤ ts.length →
        classShed s1 g.cls = false → heldByCohort s1 g = false → restoreTeams a g (ts.zip cores) s1 = some s2 →
        exec (.teamRestore n cores) s = .next (dropSaved s2 q em ((ts.map (·.uid)).take cores.length)))
    ∧ (∀ s g a (cores : List Nat) s1,
        let q := regFld s .preempt 10 0
        let em := regBit s .preempt 11
        let ts := a.teams.filter fun t => t.grid == n
        gridOf s n = some g → areaOf s q em = some a → regBit s .preempt 61 = true → s.saving = none → dispatching s = true → ts ≠ [] →
        g.terminated = false → (em = true ∨ s.hostHeld = []) → digestMatches s a q = (false, s1) →
        exec (.teamRestore n cores) s = .next (dropSaved (badSave s1 g q) q em (ts.map (·.uid))))
    ∧ (∀ s (base : Nat), areaSound s base = true ↔ leNat (homeBytes s (base + 32) 8) < 2 ^ 32
        ∧ base + 32 + leNat (homeBytes s (base + 32) 8) ≤ dramTop s ∧ rangePoisoned s base (32 + leNat (homeBytes s (base + 32) 8)) = false
        ∧ homeBytes s base 32 = sha3 (homeBytes s (base + 32) (leNat (homeBytes s (base + 32) 8))))
    ∧ (∀ s e, s.em = some e → regBit s .emstat 62 = true → e.pending = [] → e.lost = [] → hostReached s = true →
        let s1 := emWrite s 272 (sha3 (emDirectory e))
        let s2 := emWrite { s1 with em := some { e with valid := true } } 256 (leBytes 8 1)
        exec .emergencySaveComplete s = .next (powerDownCompute (regSetBit (regSetBit s2 .emstat 62 false) .emstat 61 true)))
    ∧ (∀ s, exec .standbyPowerLoss s = .next { (if s.hardTrip then regSetBit s .emstat 63 false else s) with standby := false })

/-- In-field scans (R410, R411); the verdict and the signature are free (log entry 6). That a release clears the drain of any socket that
has not failed its scan is the model's choice (log entry 36). -/
def Obligations.ScanEvents : Prop :=
  ∀ (v : Word64) (sock : Nat),
    (∀ s, regBit s .scanctl 61 = true → exec (.scanDrain v) s = .next s ∧ exec (.scanRun v) s = .next s ∧ exec (.scanRelease v) s = .next s)
    ∧ (∀ s, regBit s .scanctl 61 = false → isCompute sock = true → fld v 58 54 = sock → exec (.scanDrain v) s = .next (setScanCommand (regSetBit
          (setDrain (regPut s .scanctl (regWritten .scanctl (regGet s .scanctl) (setFld v 63 62 1))) sock true) .scanctl 61 true) 1))
    ∧ (∀ s, regBit s .scanctl 61 = false → isCompute sock = true → fld v 58 54 = sock → let s1 := regPut s .scanctl (regWritten .scanctl (regGet s .scanctl) (setFld v 63 62 2))
        exec (.scanRun v) s = .next (if socketDrained s1 sock then setScanCommand (regSetBit (regSet s1 .scanctl 60 59 0) .scanctl 61 true) 2 else s1))
    ∧ (∀ s, regBit s .scanctl 61 = false → isCompute sock = true → fld v 58 54 = sock → let s1 := regPut s .scanctl (regWritten .scanctl (regGet s .scanctl) (setFld v 63 62 3))
        exec (.scanRelease v) s = .next (if s1.scanFail.getLsbD sock then s1 else setDrain s1 sock false))
    ∧ (∀ s, regBit s .scanctl 61 = true → scanCommand s = 1 → socketIdle s (scanSocket s) = true →
        exec .scanDrainComplete s = .next (setScanCommand (regSetBit s .scanctl 61 false) 0))
    ∧ (∀ s, regBit s .scanctl 61 = true → scanCommand s = 2 →
        let base := regFld s .scanctl 51 12 * 4096
        let n := regFld s .scanctl 11 0 * 4096
        hostHolds s base n = false →
        let bytes := homeBytes s base n
        let body := bytes.take (n - 2420)
        let done := fun (s : State) (result : Nat) => setScanCommand (regSetBit (regSet s .scanctl 60 59 result) .scanctl 61 false) 0
        let good := (decide (2420 ≤ n) && decide (base + n ≤ dramTop s) && !rangePoisoned s base n) = true
          ∧ Config.signatureValid 1 (sha3 body) (bytes.drop (n - 2420)) = true
        let s1 := zeroSocket (extendMeas s 5 (sha3 body)) (scanSocket s)
        (good → Config.scanPasses (scanSocket s) body = true → exec .scanRunComplete s = .next (done s1 1))
        ∧ (good → Config.scanPasses (scanSocket s) body = false → exec .scanRunComplete s
            = .next (done { s1 with scanFail := s1.scanFail ||| BitVec.ofNat 32 (2 ^ scanSocket s) } 2))
        ∧ (¬ good → exec .scanRunComplete s = .next (done s 3)))

/-- The register space (R5). That a write to a busy core's CORE_DOM which is refused its change of domain writes the other fields is the
model's choice (log entry 36). -/
def Obligations.RegisterWrites : Prop :=
  ∀ (n m : Nat) (v : Word64) (r : Reg),
    (∀ s, exec (.registerWrite r v) s = .next (writeRegister s r v))
    ∧ (∀ s, exec (.registerWrite .wdcfg v) s = .next (regPut s .wdcfg (regWritten .wdcfg (regGet s .wdcfg) v)))
    ∧ (∀ s, regExists (.coreDom n) = true →
        let old := regGet s (.coreDom n)
        let new := regWritten (.coreDom n) old v
        exec (.coreDomWrite n v) s = .next (restartHeads s (if bit old 61 && fld new 5 0 != fld old 5 0
          then regSetBit (regSet (regPut s (.coreDom n) new) (.coreDom n) 5 0 (fld old 5 0)) (.coreDom n) 60 true else regPut s (.coreDom n) new)))
    ∧ (∀ s, regExists (.fltbase n) = true → s.em = none → exec (.fltbaseWrite n v) s
        = .next { regPut s (.fltbase n) (regWritten (.fltbase n) (regGet s (.fltbase n)) v) with logConfigured := setBit s.logConfigured n true })
    ∧ (∀ s, regExists (.cestat n m) = true → 
        exec (.cestatClear n m v) s = .next (regSet (regSet s (.cestat n m) 63 48 0) (.cestat n m) 47 40 0))
    ∧ (∀ s, exec (.hidstatClear v) s = .next (regSetBit (regSet s .hidstat 63 32 0) .hidstat 30 false))
    ∧ (∀ s, s.hostUp = true → socketFailed s 28 = false → exec (.hostcfgRearm v) s
        = .next (regSetBit (regPut s .hostcfg (regWritten .hostcfg (regGet s .hostcfg) (setBit v 30 true))) .hostcfg 31 false))

/-- The host port (R90, R91, R412 to R418). -/
def Obligations.HostEvents : Prop :=
  ∀ (n : Nat),
    (∀ s (q : HostRead), hostPort s = true → q.len ≠ 0 → exec (.hostMemRead q) s = .next (readHost s q))
    ∧ (∀ s (q : HostWrite), hostPort s = true → q.bytes.length ≠ 0 → exec (.hostMemWrite q) s = .next (writeHost s q))
    ∧ (∀ s d, s.hostDone[n]? = some d → d.time < timeAt s (homeSocket s d.pa) → exec (.hostWriteCompletion n) s
        = .next (emitOut { s with hostDone := s.hostDone.eraseIdx n } (.hostDone d.host d.pa)))
    ∧ (∀ s (cells : List (Nat × Byte)), (∃ w ∈ s.snoops, w.1 = n) →
        let s1 := { s with hostHeld := s.hostHeld.filter (· != n), snoops := s.snoops.filter fun w => w.1 != n }
        exec (.snoopResponse n cells) s = .next ((waitingOn s n).foldl (fun s w => applyHome s w.2)
          (homeWrite s1 1 (cells.filter fun c => c.1 / 128 == n) 28 .other false)))
    ∧ (∀ s, s.hostUp = false → hostLost s = false → s.hostDownSince + 1000000 * max 1 (regFld s .hostcfg 15 0) ≤ timeAt s 28 →
        exec .hostLinkTimeout s = .next (declareLost s))
    ∧ (∀ s, (∃ w ∈ s.snoops, w.1 = n ∧ w.2.1 + 10000000 ≤ timeAt s w.2.2.2.dst) → exec (.snoopTimeout n) s = .next (declareLost s))
    ∧ (∀ s (up : Bool), up ≠ s.hostUp → exec (.hostLinkL0Change up) s = .next { s with hostUp := up, hostDownSince := timeAt s 28 })
    ∧ (∀ s q (r : SystemReply), s.sysReqs[n]? = some q → (16 ≤ q.port ∨ linkState s q.port = .up) → exec (.systemRangeReply n r) s
        = .next (systemAnswer { s with sysReqs := s.sysReqs.eraseIdx n } q.pkt r))

/-- Failures (R398, R399, R423). -/
def Obligations.FailureEvents : Prop :=
  ∀ (n : Nat),
    (∀ s, isCompute n = false → running s n = true → exec (.dieFailure n) s = .next (failDie s n))
    ∧ (∀ s, isCompute n = true → running s n = true → exec (.computeChipletFailure n) s = .next (failCompute s n))
    ∧ (∀ s, running s n = true → exec (.dieErrorReport n) s = .next (failDie s n))
    ∧ (∀ s st, n < 16 → linkState s n ≠ st → exec (.scaleupLinkState n st) s = .next (setLinkState s n st))
    ∧ (∀ s, (∃ l ∈ s.links18, l.1 = n ∧ l.2.1 = .recovering ∧ l.2.2 + 50000000 ≤ s.time) →
        exec (.scaleupRecoveryTimeout n) s = .next (setLinkState s n .down))

/-- Harts and management (R420 to R422, R426, R427). The exception codes are RISC-V's (log entry 53); what a fence and rl wait for, that PMP
admits the granted GiBs alone, SC outside device memory, and what a domain reset drops of the shared cache are the model's choices (log
entry 37); so is the report's layout (log entry 38). -/
def Obligations.SandboxEvents : Prop :=
  ∀ (h n : Nat),
    (∀ s (predW succR : Bool), hartFree s h = true → ((predW || succR) = true → hartWaits s h = false) →
        let s1 := updHart s h Hart.past
        exec (.hartFence h predW succR) s = .next (if predW then releaseHart s1 h else s1))
    ∧ (∀ s (q : HartAmo), let op := HartOp.amo q.op q.w64 q.aq q.v
        let pc := (hartOf s h).pc
        let s1 := updHart s h Hart.past
        hartMay s h q.pa op = true → (q.rl = true → hartWaits s h = false) →
        (q.pa % (if q.w64 then 8 else 4) ≠ 0 → exec (.hartAmo h q) s = .next (trapHart s h 6 pc))
        ∧ (q.pa % (if q.w64 then 8 else 4) = 0 → hartMayTouch s h q.pa op.bytes = false → exec (.hartAmo h q) s = .next (trapHart s h 7 pc))
        ∧ (q.pa % (if q.w64 then 8 else 4) = 0 → hartMayTouch s h q.pa op.bytes = true →
          ((q.rl = false ∨ (hartOf s h).paths = []) → exec (.hartAmo h q) s = .next (sendAmo s1 h q.pa op))
          ∧ (q.rl = true → (hartOf s h).paths ≠ [] →
            exec (.hartAmo h q) s = .next (releaseHart (updHart s1 h fun t => { t with next := some (q.pa, op) }) h))))
    ∧ (∀ s (pa : Nat) (w64 : Bool) (v : Word64), hartFree s h = true → pa % (if w64 then 8 else 4) = 0 →
        let t := hartOf s h
        let s1 := updHart s h Hart.past
        hartMayTouch s h pa (if w64 then 8 else 4) = true →
        exec (.hartLr h pa w64) s = .next (hartAccess s1 h pa (.lr w64) t.rd true t.pc)
        ∧ (pa < dramTop s → exec (.hartSc h pa w64 v) s = .next (hartAccess s1 h pa (.sc w64 v) t.rd true t.pc))
        ∧ (dramTop s ≤ pa → systemStop s pa false = none → exec (.hartSc h pa w64 v) s = .next (updHart s1 h fun t => t.load t.rd true 8 1)))
    ∧ (∀ s (pa : Nat) (op : HartOp) (rd : HartReg) (signed : Bool) (pc : Word64),
        (hartMayTouch s h pa op.bytes = false → hartAccess s h pa op rd signed pc = trapHart s h op.faultCode pc)
        ∧ (∀ code, hartMayTouch s h pa op.bytes = true → hartStop s pa op.bytes op = some code → hartAccess s h pa op rd signed pc = trapHart s h code pc)
        ∧ (hartMayTouch s h pa op.bytes = true → hartStop s pa op.bytes op = none → hartAccess s h pa op rd signed pc = startHart s h pa op rd signed pc))
    ∧ (∀ s (o : HartPend) (p : Nat × Nat) (d : Nat), (∀ k, o.op ≠ .load k) → destOf s p.1 = some d →
        sendHartPart s o p = sendTx (if o.op.writes then updHart s o.hart fun t => { t with paths := addPath t.paths ⟨d, planeOf p.1⟩ } else s)
          30 d p.1 (.hart o.id o.hart p.1 (o.op.part o.pa p)))
    ∧ (∀ s (o : HartPend), o.bad = .poison → endHart s o = trapHart s o.hart 19 o.pc)
    ∧ (∀ s, hartFree s h = true → exec (.hartFenceI h) s = .next (updHart { s with
        hartLines := serase s.hartLines h, hartOps := updWhere (fun o => o.hart == h) (fun o => { o with stale := true }) s.hartOps } h Hart.past))
    ∧ (∀ s (cmd : Instr), isCommand cmd = true → runDisturbance s (.mailbox 0 cmd) = { s with mgmt := s.mgmt ++ [cmd] }
        ∧ (n ≠ 0 → runDisturbance s (.mailbox n cmd) = s))
    ∧ (∀ s, h < 64 → n < 64 → exec (.mgmtAssign .function n h) s = .next { s with funcDomain := sset 0 s.funcDomain n h })
    ∧ (∀ s, h < 64 → exec (.mgmtAssign .core n h) s
        = .next (writeCoreDom s n (setBit (setFld (regGet s (.coreDom n) &&& ~~~0x1000000000000000#64) 5 0 h) 63 true)))
    ∧ (∀ s, h < 64 → exec (.mgmtAssign .queue n h) s = .next (writeQcfg s n (setFld (regGet s (.qcfg n)) 55 50 h)))
    ∧ (∀ s, h < 64 → exec (.mgmtAssign .hart n h) s
        = .next (writeSbxDom s n (setBit (setFld (regGet s (.sbxDom n) &&& ~~~0x1000000000000000#64) 5 0 h) 63 true)))
    ∧ (∀ s, h < 64 → exec (.mgmtAssign .memoryGib n h) s = .next { s with memGrants := (s.memGrants.filter fun g => g.1 != n) ++ [(n, h)] })
    ∧ (∀ s, h < 64 → exec (.mgmtDebugEnable h) s = .next { s with debugOn := setBit s.debugOn h true })
    ∧ (∀ s, h < 64 → ∃ t, exec (.mgmtDebugDisable h) s = .next t ∧ t.debugOn = setBit s.debugOn h false)
    ∧ (∀ s, exec .mgmtDeclareHostLost s = .next (declareLost s))
    ∧ (∀ s, ∃ t, exec (.domainReset h) s = .next t ∧ (∀ k ∈ domainHarts s h, ∀ r ∈ t.reservations, r.hart ≠ k)
        ∧ (∀ k ∈ domainHarts s h, hartOf t k = { hartInit with markers := (hartOf s k).markers } ∧ ∀ l ∈ t.sbxLines, bit l.harts k = false)
        ∧ (∀ k < 64, bit t.harts k = (bit s.harts k && !(domainHarts s h).contains k)) ∧ t.agents = s.agents ∧ t.cores = s.cores)
    ∧ (∀ s (bytes : List Byte), n < 4 → exec (.firmwareUpdate n bytes) s
        = .next { s with staged := (s.staged.filter fun e => e.1 != n) ++ [(n, bytes)] })
    ∧ (∀ s (nonce : List Byte), nonce.length = 32 → s.boot = .done → exec (.attestationRequest nonce) s
        = .next (emitOut s (.report (reportBytes s nonce) (Config.attestationSignature (reportBytes s nonce)))))

/-- Reset, power-up, boot and release (R12, R13, R48, R386, R425). That DRAM keeps its contents over a package reset, the order of power-up,
that images are verified before they are measured, and that releases are counted under the bound boot publishes are the model's choices (log
entry 35); so is the hash of a measurement (log entry 32). -/
def Obligations.BootEvents : Prop :=
  ∀ (n : Nat),
    (∀ s, ∃ t, exec .packageReset s = .next t ∧ t.mem = s.mem ∧ t.dramPoison = s.dramPoison ∧ t.agents = [] ∧ t.teams = [] ∧ t.grids = []
        ∧ t.boot = State.reset.boot ∧ t.powered = State.reset.powered ∧ t.released = State.reset.released ∧ t.time = 0
        ∧ regBit t .emstat 63 = (s.standby && regBit s .emstat 63))
    ∧ (∀ s, n < 31 → s.powered.getLsbD n = false → 50000 * (n + 1) ≤ s.time → regBit s .emstat 61 = false →
        (∀ i < n, s.powered.getLsbD i = true) → exec (.socketPowerUp n) s = .next { s with powered := s.powered ||| BitVec.ofNat 32 (2 ^ n) })
    ∧ (∀ s (b : BootImages) s1, s.boot = .before → s.powered = 0xFFFFFFFF → b.boundNs ≠ 0 → b.boundNs ≤ 3 → withinSkew s b.boundNs.toNat = true →
        let images := [b.service, b.compute, b.memory, b.sandbox]
        (∀ e ∈ s.firmware.zip images, e.1 = [] ∨ e.1 = e.2.bytes) →
        let live := b.selfTest ||| 0x80000000#32
        (measureImages { s with firmware := images.map (·.bytes) } [(0, b.service), (1, b.compute), (2, b.memory), (3, b.sandbox)] = (s1, false) →
          exec (.measuredBoot b) s = .next (bootStops s1))
        ∧ (measureImages { s with firmware := images.map (·.bytes) } [(0, b.service), (1, b.compute), (2, b.memory), (3, b.sandbox)] = (s1, true) →
          popCount live.toNat 12 ≠ 0 → popCount (live.toNat / 2 ^ 12) 16 ≠ 0 →
          let s2 := regSet (regPut s1 .pkgcfg (packageConfig live)) .timeskew 7 0 b.boundNs.toNat
          exec (.measuredBoot b) s = .next { extendMeas s2 4 (sha3 (leBytes 8 (regGet s2 .pkgcfg).toNat ++ leBytes 4 (regGet s2 .timeskew).toNat))
            with boot := .done, released := 0x80000000, branches := branchHosts live, clocks := s2.clocks.map fun e => (e.1, { e.2 with good := 0 }) }))
    ∧ (∀ s, n < 31 → s.boot = .done → running s n = true → s.released.getLsbD n = false → 3 ≤ (sget clockInit s.clocks n).good →
        exec (.chipletRelease n) s = .next { s with released := s.released ||| BitVec.ofNat 32 (2 ^ n) })

/-- Reset (R48, R360, R386, R425); that reset memory lists nothing is the model's choice (log entry 1), and so is every other value here that the spec
does not state, as links and streams that list nothing (log entry 3). -/
def Obligations.ResetState : Prop :=
  State.reset.memoriesWf = true ∧ State.reset.powered = 0x80000000 ∧ State.reset.released = 0 ∧ State.reset.boot = .before
    ∧ State.reset.time = 0 ∧ State.reset.grids = [] ∧ State.reset.teams = [] ∧ State.reset.agents = [] ∧ State.reset.queues = []
    ∧ State.reset.links = [] ∧ State.reset.lines = [] ∧ State.reset.dramPoison = []
    ∧ (∀ q, regGet State.reset (.qtl q) = 0 ∧ regGet State.reset (.qtli q) = 0)
    ∧ (∀ n, regFld State.reset (.permits n) 23 16 = 64 ∧ regFld State.reset (.permits n) 13 12 = 0 ∧ regBit State.reset (.permits n) 11 = false)
    ∧ ∀ k c, regBit State.reset (.droopCurve k) 63 = false ∧ regBit State.reset (.clstat c) 5 = false

/-- The canonical form of memory (log entry 1) is an invariant of every step. -/
def Obligations.StepKeepsMemory : Prop :=
  ∀ s t : State, s.memoriesWf = true → step s = .next t → t.memoriesWf = true

/-- The home slice and DRAM (R14, R20); `cleanAgrees` is the invariant of the slices that this rests on. -/
def Obligations.HomeStore : Prop :=
  ∀ (s : State) (attr : BitVec 2) (cells : List Host.Cell) (src : Nat) (who : Requester) (poisoned : Bool) (line : Nat),
    s.cleanAgrees → cells ≠ [] → (cells.map (·.1)).Nodup → (∀ c ∈ cells, c.1 / 128 = line) → socketFailed s (homeSocket s (line * 128)) = false →
    let t := homeWrite s attr cells src who poisoned
    t.cleanAgrees ∧ ∀ a, homeByte t a = match cells.find? (fun c => c.1 == a) with | some c => c.2 | none => homeByte s a

/-- Atomics at the home and at the banks (R24, R143). -/
def Obligations.AtomicValues : Prop :=
  ∀ (b : Nat) (o v c : BitVec b), b = 32 ∨ b = 64 →
    let new := fun op => atomicNew op b o.toNat v.toNat c.toNat
    let f := if b = 64 then f64 else f32
    new 0 = some (o + v).toNat ∧ new 1 = some (o - v).toNat
    ∧ new 2 = some (if v.slt o then v else o).toNat ∧ new 3 = some (if o.slt v then v else o).toNat
    ∧ new 4 = some (if v.ult o then v else o).toNat ∧ new 5 = some (if o.ult v then v else o).toNat
    ∧ new 6 = some (o &&& v).toNat ∧ new 7 = some (o ||| v).toNat ∧ new 8 = some (o ^^^ v).toNat ∧ new 9 = some v.toNat
    ∧ new 10 = some (if o = c then v else o).toNat ∧ new 11 = some (if v.ule o then 0 else o + 1).toNat
    ∧ new 12 = some (if o = 0 ∨ v.ult o then v else o - 1).toNat ∧ new 13 = none
    ∧ new 14 = some (addCode f .rne o.toNat v.toNat).1 ∧ new 15 = some (minMaxCode f false o.toNat v.toNat).1
    ∧ new 16 = some (minMaxCode f true o.toNat v.toNat).1

/-- Alignment of global accesses (R218) and precise faults (R200). -/
def Obligations.AlignmentTraps : Prop :=
  ∀ x : FM,
    (∀ s c l r, turnOf (.ld x) x.h s = .goes c → (c.act.filter fun l => c.ea x (Machine.sizeOf x.h) l % (Machine.sizeOf x.h) != 0) = l :: r →
        exec (.ld x) s = .next (raise c.s0 c.a.key { mkEvent 5 0 (maskOf (l :: r)) c.pc with addr := c.ea x (Machine.sizeOf x.h) l }))
    ∧ (∀ s c l r, turnOf (.st x) x.h s = .goes c → (c.act.filter fun l => c.ea x (Machine.sizeOf x.h) l % (Machine.sizeOf x.h) != 0) = l :: r →
        exec (.st x) s = .next (raise c.s0 c.a.key { mkEvent 5 0 (maskOf (l :: r)) c.pc with addr := c.ea x (Machine.sizeOf x.h) l }))
    ∧ (∀ s c l r, turnOf (.lda x) x.h s = .goes c → (c.act.filter fun l => c.ea x (Machine.sizeOf x.h) l % (Machine.sizeOf x.h) != 0) = l :: r →
        exec (.lda x) s = .next (raise c.s0 c.a.key { mkEvent 5 0 (maskOf (l :: r)) c.pc with addr := c.ea x (Machine.sizeOf x.h) l }))
    ∧ (∀ s c l r, turnOf (.chka x) x.h s = .goes c → (c.act.filter fun l => c.ea x (Machine.sizeOf x.h) l % (Machine.sizeOf x.h) != 0) = l :: r →
        exec (.chka x) s = .next (raise c.s0 c.a.key { mkEvent 5 0 (maskOf (l :: r)) c.pc with addr := c.ea x (Machine.sizeOf x.h) l }))
    ∧ (∀ s c l r, turnOf (.ldix x) x.h s = .goes c → (c.act.filter fun l => c.ea x 4 l % 4 != 0) = l :: r →
        exec (.ldix x) s = .next (raise c.s0 c.a.key { mkEvent 5 0 (maskOf (l :: r)) c.pc with addr := c.ea x 4 l }))
    ∧ (∀ s c l r, turnOf (.atom x) x.h s = .goes c → (c.act.filter fun l => c.ea x (atomSize x) l % (atomSize x) != 0) = l :: r →
        exec (.atom x) s = .next (raise c.s0 c.a.key { mkEvent 5 0 (maskOf (l :: r)) c.pc with addr := c.ea x (atomSize x) l }))
    ∧ (∀ s c l r, turnOf (.red x) x.h s = .goes c → (c.act.filter fun l => c.ea x (atomSize x) l % (atomSize x) != 0) = l :: r →
        exec (.red x) s = .next (raise c.s0 c.a.key { mkEvent 5 0 (maskOf (l :: r)) c.pc with addr := c.ea x (atomSize x) l }))

/-- The stores of STS (R219, R232), to the next plane of a STEP region (R127), and their frame; a store elsewhere reads as written behind
the agent's earlier stores once it has reached its bank, before which no byte of the banks changes: that it travels there is the model's
choice (log entry 40). -/
def Obligations.StepStoreFrame : Prop :=
  ∀ (x : FM) (s : State) (c : Iss), turnOf (.sts x) x.h s = .goes c →
    let n := Machine.sizeOf x.h
    let b := c.boundStore x.h x.bnd.toNat n (c.memLanes x [x.data2]) (c.data n x.data2)
    let own := c.ownLanes (c.memLanes x [x.data2]) (c.ea x n)
    (∀ l ∈ c.act, c.stepCause false n .store (c.ea x n l) = none) → b.2.2 = [] → c.missing own n = [] →
    ∃ t u, exec (.sts x) s = .next t ∧ teamOf t c.t.uid = some u
      ∧ (∀ a, (∀ p ∈ own, a < p.2 ∨ p.2 + n ≤ a) → stepByte u a = stepByte c.t a)
      ∧ (∀ a < windowBase, stepByte u a = stepByte c.t a)
      ∧ (∀ o, (∀ p ∈ own, o < p.2 ∨ p.2 + n ≤ o) → nextWord u o = nextWord c.t o)
      ∧ ((own.Pairwise fun p q => p.2 + n ≤ q.2 ∨ q.2 + n ≤ p.2) → ∀ p ∈ own,
        (regionAt c.t.hdr p.2 n = none → stepRead u p.2 n = dataOf b.1 p.1 % 2 ^ (8 * n))
        ∧ (∀ r, regionAt c.t.hdr p.2 n = some r → r.kind ≠ .step →
          stepRead (landFor u c.a.key (own.map fun p => (p.2, n))) p.2 n = dataOf b.1 p.1 % 2 ^ (8 * n))
        ∧ (∀ r i, regionAt c.t.hdr p.2 n = some r → r.kind = .step → i < n / 4 → (nextWord c.t (p.2 + 4 * i)).written = false →
          (nextWord u (p.2 + 4 * i)).value = BitVec.ofNat 32 (dataOf b.1 p.1 / 2 ^ (32 * i)) ∧ (nextWord u (p.2 + 4 * i)).written = true
            ∧ (nextWord u (p.2 + 4 * i)).rank = rankOf c.t r.group c.a.key.idx p.1))
      ∧ u.bndflags = (if b.2.1 then c.t.bndflags ||| BitVec.ofNat 64 (2 ^ x.bnd.toNat) else c.t.bndflags)
      ∧ u = { c.t with stores := u.stores, present := u.present, stepPoison := u.stepPoison, next := u.next, nextPoison := u.nextPoison, coll := u.coll,
                       ladleMem := u.ladleMem, bndflags := u.bndflags }
      ∧ (∀ k, k ≠ c.t.uid → teamOf t k = teamOf c.s k)
      ∧ t.mem = c.s.mem ∧ t.slice = c.s.slice ∧ t.agents = c.s.agents ∧ t.regs = c.s.regs

/-- Integer arithmetic, wrapped and saturated (R244, R245), and shifts (R253). -/
def Obligations.IntegerWrap : Prop :=
  ∀ (w : Nat) (a b c : BitVec w), 0 < w →
    let sat := fun (x : Int) => max (-2 ^ (w - 1)) (min (2 ^ (w - 1) - 1) x)
    addInt w false a.toNat b.toNat = (a + b).toNat ∧ subInt w false a.toNat b.toNat = (a - b).toNat ∧ mulInt w a.toNat b.toNat = (a * b).toNat
    ∧ negInt w false a.toNat = (-a).toNat ∧ absInt w false a.toNat = (if a.msb then -a else a).toNat
    ∧ madInt w false a.toNat b.toNat c.toNat = (a * b + c).toNat
    ∧ toS w (addInt w true a.toNat b.toNat) = sat (a.toInt + b.toInt) ∧ toS w (subInt w true a.toNat b.toNat) = sat (a.toInt - b.toInt)
    ∧ toS w (negInt w true a.toNat) = sat (-a.toInt) ∧ toS w (absInt w true a.toNat) = sat a.toInt.natAbs
    ∧ toS w (madInt w true a.toNat b.toNat c.toNat) = sat (a.toInt * b.toInt + c.toInt)
    ∧ mulhInt w true a.toNat b.toNat = a.toNat * b.toNat / 2 ^ w
    ∧ mulhInt w false a.toNat b.toNat = ((a.signExtend (2 * w) * b.signExtend (2 * w)).extractLsb' w w).toNat
    ∧ (∀ n, shlInt w n a.toNat = (a <<< n).toNat ∧ shrInt w n a.toNat = (a >>> n).toNat ∧ sarInt w n a.toNat = (a.sshiftRight n).toNat
        ∧ rotInt w n a.toNat = (a.rotateLeft n).toNat)

/-- Division (R247). -/
def Obligations.DivisionRule : Prop :=
  ∀ (x : F3) (s : State) (c : Iss),
    let w := widthOf x.h
    let u := bit x.h.mod 0
    let a := fun l => readInt w u (c.val w x.a l)
    let b := fun l => readInt w u (c.valB w x l)
    let truncates := fun (l : Nat) (q r : Int) => a l = q * b l + r ∧ r.natAbs < (b l).natAbs ∧ (r = 0 ∨ (r < 0 ↔ a l < 0))
    let overflows := fun (l : Nat) => u = false ∧ a l = -2 ^ (w - 1) ∧ b l = -1
    (turnOf (.idiv x) x.h s = .goes c → ∃ q : Nat → Nat, exec (.idiv x) s = .next (c.wrote (.idiv x) x.d w 12 q)
      ∧ ∀ l < 32, (b l = 0 → q l = 2 ^ w - 1) ∧ (overflows l → q l = 2 ^ (w - 1))
        ∧ (b l ≠ 0 → ¬ overflows l → ∃ r, truncates l (readInt w u (q l)) r))
    ∧ (turnOf (.irem x) x.h s = .goes c → ∃ r : Nat → Nat, exec (.irem x) s = .next (c.wrote (.irem x) x.d w 12 r)
      ∧ ∀ l < 32, (b l = 0 → r l = c.val w x.a l) ∧ (overflows l → r l = 0)
        ∧ (b l ≠ 0 → ¬ overflows l → ∃ q, truncates l q (readInt w u (r l))))

/-- The funnel shift (R254). -/
def Obligations.FunnelShift : Prop :=
  ∀ (x : F3) (s : State) (c : Iss), turnOf (.fshf x) x.h s = .goes c →
    let u := fun l => c.val 32 x.c l
    let n := fun l => if bit x.h.mod 2 then u l % 32 else min (u l) 32
    let hi := fun l => BitVec.ofNat 32 (if immb x then x.imm.toNat else c.val 32 x.b l)
    let lo := fun l => BitVec.ofNat 32 (c.val 32 x.a l)
    let d : Nat → BitVec 32 := fun l =>
      if bit x.h.mod 0 then ((hi l ++ lo l) >>> n l).extractLsb' 0 32 else ((hi l ++ lo l) <<< n l).extractLsb' 32 32
    ∃ f : Nat → Nat, exec (.fshf x) s = .next (c.wrote (.fshf x) x.d 32 4 f) ∧ ∀ l < 32, f l = (d l).toNat

/-- Float codes and conversion (R165 to R168, R186). -/
def Obligations.FloatCodes : Prop :=
  ∀ (f : Fmt) (mode : Rnd) (code : Nat), f ∈ [f64, f32, f16, bf16, e5m2, e4m3, e3m2, e2m3, e2m1] → code < 2 ^ f.width →
    decodeF f code ≠ .nan → toFloat f mode false (decodeF f code) = (code, 0)

/-- Taking an event (R318, R389, R394, R396). -/
def Obligations.EventTaken : Prop :=
  ∀ (s : State) (k : AgentKey) (e : Event) (a : Agent) (t : Team) (g : Grid),
    agentOf s k = some a → teamOf s k.team = some t → gridOf s t.grid = some g →
    (∀ h r, a.regions = h :: r → unwinds e.cause = true → ∃ b, agentOf (raise s k e) k = some b ∧ b.regions = r
        ∧ (∀ l ∈ laneIds k, laneState a l ≠ .exited → laneState b l = .ready ∧ lpcOf b l = h)
        ∧ (∀ l ∈ laneIds k, laneState a l = .exited → laneState b l = .exited ∧ lpcOf b l = lpcOf a l)
        ∧ b.crcause.toNat % 2 ^ 16 = e.cause ∧ b.cri = e.cri ∧ b.crpc = BitVec.ofNat 64 e.pc ∧ b.issueCount = 0
        ∧ b.vars = [] ∧ b.deferred = [] ∧ b.hold = none ∧ b.marker = false ∧ b.addrTable = []
        ∧ b.v = a.v ∧ b.s = a.s ∧ b.p = a.p ∧ b.k = a.k ∧ b.fpstat = a.fpstat)
    ∧ ((a.regions = [] ∨ unwinds e.cause = false) → ∃ x, gridOf (raise s k e) g.id = some x ∧ x.terminated = true)

/-- The swap of a step (R126, R128): the words of the region, and everything else of the team as it was. -/
def Obligations.SwapPlanes : Prop :=
  ∀ (t : Team) (r : Region), r.base % 4 = 0 → r.size % 4 = 0 → r.base + r.size ≤ windowBase → (∀ e ∈ t.next, e.1 % 4 = 0) →
    let u := swapRegion t r
    (∀ o, o % 4 = 0 → r.base ≤ o → o < r.base + r.size →
      let w := nextWord t o
      presentWord u o = (if w.collided then resolveSum r.etype ((t.coll.filter fun c => c.word == o).map (·.value))
        else if w.written || w.copied then w.value else if r.zero then 0 else presentWord t o)
      ∧ nextWord u o = nextInit)
    ∧ (∀ a, (a < r.base ∨ r.base + r.size ≤ a) → stepByte u a = stepByte t a)
    ∧ (∀ o, (o < r.base ∨ r.base + r.size ≤ o) → nextWord u o = nextWord t o)
    ∧ u.refilling.contains r.idx = true ∧ u.coll = t.coll.filter (fun c => decide (c.word < r.base ∨ r.base + r.size ≤ c.word))
    ∧ (∀ i, i ≠ r.idx → u.refilling.contains i = t.refilling.contains i)
    ∧ (∀ w, (4 * w < r.base ∨ r.base + r.size ≤ 4 * w) →
      sget false u.stepPoison w = sget false t.stepPoison w ∧ sget false u.nextPoison w = sget false t.nextPoison w)
    ∧ u = { t with present := u.present, stepPoison := u.stepPoison, next := u.next, nextPoison := u.nextPoison, coll := u.coll, refilling := u.refilling }
    ∧ (r.etype = .i32 ∨ r.etype = .u32 → ∀ vs : List Word32, (resolveSum r.etype vs).toNat = (vs.map (·.toNat)).sum % 2 ^ 32)
end

