-- ==== Sys2Proof/Laws/Sparse.lean ====
section
/-! SUPPORT. Laws of sparse tables, of memory (log entry 1) and of bit fields: read after write, and that the canonical form is kept. -/

namespace Sys2Proof.Machine

-- one declaration at a time: a thread for each would be too many
set_option Elab.async false

variable {V : Type}

@[simp] theorem slookup_nil (k : Nat) : slookup ([] : Sparse V) k = none := rfl

theorem slookup_cons (a : Nat) (x : V) (m : Sparse V) (k : Nat) : slookup ((a, x) :: m) k = if a = k then some x else slookup m k := rfl

@[simp] theorem slookup_sinsert_same (m : Sparse V) (k : Nat) (v : V) : slookup (sinsert m k v) k = some v := by
  induction m with
  | nil => simp [sinsert, slookup]
  | cons e m ih =>
    obtain ⟨a, x⟩ := e
    by_cases h1 : k < a
    · simp [sinsert, h1, slookup]
    · by_cases h2 : a = k
      · simp [sinsert, h2, slookup]
      · simp [sinsert, h1, h2, slookup, ih]

theorem slookup_sinsert_ne (m : Sparse V) (v : V) {k j : Nat} (h : j ≠ k) : slookup (sinsert m k v) j = slookup m j := by
  induction m with
  | nil => simp [sinsert, slookup, Ne.symm h]
  | cons e m ih =>
    obtain ⟨a, x⟩ := e
    by_cases h1 : k < a
    · simp [sinsert, h1, slookup, Ne.symm h]
    · by_cases h2 : a = k
      · subst h2; simp [sinsert, slookup, Ne.symm h]
      · simp [sinsert, h1, h2, slookup, ih]

@[simp] theorem slookup_serase_same (m : Sparse V) (k : Nat) : slookup (serase m k) k = none := by
  induction m with
  | nil => rfl
  | cons e m ih =>
    obtain ⟨a, x⟩ := e
    by_cases h : a = k <;> simp_all [serase, slookup]

theorem slookup_serase_ne (m : Sparse V) {k j : Nat} (h : j ≠ k) : slookup (serase m k) j = slookup m j := by
  induction m with
  | nil => rfl
  | cons e m ih =>
    obtain ⟨a, x⟩ := e
    by_cases h1 : a = k
    · subst h1; simp_all [serase, slookup, Ne.symm h]
    · by_cases h2 : a = j <;> simp_all [serase, slookup]

section Default
variable [DecidableEq V]

/-- A read after a write to the same key gives the value written. -/
@[simp] theorem sget_sset_same (d : V) (m : Sparse V) (k : Nat) (v : V) : sget d (sset d m k v) k = v := by
  by_cases h : v = d <;> simp [sget, sset, h]

/-- A write leaves every other key alone. -/
theorem sget_sset_ne (d : V) (m : Sparse V) (v : V) {k j : Nat} (h : j ≠ k) : sget d (sset d m k v) j = sget d m j := by
  by_cases hv : v = d <;> simp [sget, sset, hv, slookup_serase_ne m h, slookup_sinsert_ne m v h]

theorem sget_sset (d : V) (m : Sparse V) (k : Nat) (v : V) (j : Nat) : sget d (sset d m k v) j = if j = k then v else sget d m j := by
  by_cases h : j = k
  · subst h; simp
  · simp [h, sget_sset_ne d m v h]

theorem sget_supd (d : V) (m : Sparse V) (k : Nat) (f : V → V) (j : Nat) :
    sget d (supd d m k f) j = if j = k then f (sget d m k) else sget d m j := sget_sset d m k _ j

end Default

/-! The canonical form -/

theorem srising_iff (m : Sparse V) : srising m = true ↔ m.Pairwise fun a b => a.1 < b.1 := by
  induction m with
  | nil => simp [srising]
  | cons e m ih =>
    cases m with
    | nil => simp [srising]
    | cons f m =>
      simp only [srising, Bool.and_eq_true, decide_eq_true_eq, ih]
      constructor
      · rintro ⟨h, hp⟩
        refine List.Pairwise.cons ?_ hp
        intro b hb
        rcases List.mem_cons.mp hb with rfl | hb
        · exact h
        · exact h.trans (List.rel_of_pairwise_cons hp hb)
      · intro hp
        exact ⟨List.rel_of_pairwise_cons hp (by simp), (List.pairwise_cons.mp hp).2⟩

theorem mem_sinsert {m : Sparse V} {k : Nat} {v : V} {e : Nat × V} (h : e ∈ sinsert m k v) : e = (k, v) ∨ e ∈ m := by
  induction m with
  | nil => simpa [sinsert] using h
  | cons f m ih =>
    obtain ⟨a, x⟩ := f
    by_cases h1 : k < a
    · simpa [sinsert, h1] using h
    · by_cases h2 : a = k
      · subst h2
        simp only [sinsert, lt_irrefl, if_true, if_false, List.mem_cons] at h
        rcases h with h | h
        · exact .inl h
        · exact .inr (List.mem_cons_of_mem _ h)
      · simp only [sinsert, h1, h2, if_false, List.mem_cons] at h
        rcases h with h | h
        · exact .inr (by simp [h])
        · rcases ih h with h | h
          · exact .inl h
          · exact .inr (List.mem_cons_of_mem _ h)

theorem srising_sinsert {m : Sparse V} (k : Nat) (v : V) (h : srising m = true) : srising (sinsert m k v) = true := by
  rw [srising_iff] at h ⊢
  induction m with
  | nil => simp [sinsert]
  | cons f m ih =>
    obtain ⟨a, x⟩ := f
    obtain ⟨ha, hm⟩ := List.pairwise_cons.mp h
    by_cases h1 : k < a
    · simp only [sinsert, h1, if_true]
      refine List.Pairwise.cons ?_ h
      intro b hb
      rcases List.mem_cons.mp hb with rfl | hb
      · exact h1
      · exact h1.trans (ha b hb)
    · by_cases h2 : a = k
      · subst h2
        simp only [sinsert, lt_irrefl, if_true, if_false]
        exact List.Pairwise.cons ha hm
      · simp only [sinsert, h1, h2, if_false]
        refine List.Pairwise.cons ?_ (ih hm)
        intro b hb
        rcases mem_sinsert hb with rfl | hb
        · show a < k
          omega
        · exact ha b hb

theorem srising_serase {m : Sparse V} (k : Nat) (h : srising m = true) : srising (serase m k) = true := by
  rw [srising_iff] at h ⊢
  exact h.sublist List.filter_sublist

section Default
variable [DecidableEq V]

/-- Every write keeps the canonical form. -/
theorem swf_sset {d : V} {m : Sparse V} (k : Nat) (v : V) (h : swf d m = true) : swf d (sset d m k v) = true := by
  simp only [swf, Bool.and_eq_true, List.all_eq_true, decide_eq_true_eq] at h ⊢
  by_cases hv : v = d
  · simp only [sset, hv, if_true]
    exact ⟨srising_serase k h.1, fun e he => h.2 e (List.mem_of_mem_filter he)⟩
  · simp only [sset, hv, if_false]
    refine ⟨srising_sinsert k v h.1, fun e he => ?_⟩
    rcases mem_sinsert he with rfl | he
    · exact hv
    · exact h.2 e he

theorem swf_serase {d : V} {m : Sparse V} (k : Nat) (h : swf d m = true) : swf d (serase m k) = true := by
  have := swf_sset k d h
  simpa [sset] using this

theorem swf_supd {d : V} {m : Sparse V} (k : Nat) (f : V → V) (h : swf d m = true) : swf d (supd d m k f) = true := swf_sset k _ h

end Default

/-! Memory -/

@[simp] theorem wf_nil : Memory.wf [] = true := rfl

theorem wf_writeByte {m : Memory} (a : Nat) (b : Byte) (h : Memory.wf m = true) : Memory.wf (writeByte m a b) = true := swf_sset a b h

theorem wf_writeCells {m : Memory} (cs : List Host.Cell) (h : Memory.wf m = true) : Memory.wf (writeCells m cs) = true := by
  induction cs generalizing m with
  | nil => exact h
  | cons c cs ih => exact ih (wf_writeByte c.1 c.2 h)

@[simp] theorem readByte_writeByte_same (m : Memory) (a : Nat) (b : Byte) : readByte (writeByte m a b) a = b := sget_sset_same 0 m a b

theorem readByte_writeByte_ne (m : Memory) (b : Byte) {a x : Nat} (h : x ≠ a) : readByte (writeByte m a b) x = readByte m x := sget_sset_ne 0 m b h

/-- Cells written leave every address alone that none of them names. -/
theorem readByte_writeCells_out {cs : List Host.Cell} (m : Memory) {x : Nat} (h : ∀ c ∈ cs, c.1 ≠ x) : readByte (writeCells m cs) x = readByte m x := by
  induction cs generalizing m with
  | nil => rfl
  | cons c cs ih =>
    have := ih (writeByte m c.1 c.2) fun d hd => h d (List.mem_cons_of_mem _ hd)
    exact this.trans (readByte_writeByte_ne m c.2 (Ne.symm (h c (by simp))))

/-- A cell written reads back where no later cell has its address. -/
theorem readByte_writeCells_in {cs : List Host.Cell} (m : Memory) {c : Host.Cell} (hc : c ∈ cs) (hn : (cs.map (·.1)).Nodup) :
    readByte (writeCells m cs) c.1 = c.2 := by
  induction cs generalizing m with
  | nil => cases hc
  | cons e cs ih =>
    simp only [List.map_cons, List.nodup_cons] at hn
    rcases List.mem_cons.mp hc with rfl | hc
    · have : readByte (writeCells (writeByte m c.1 c.2) cs) c.1 = _ := readByte_writeCells_out _ fun d hd he =>
        hn.1 (List.mem_map.mpr ⟨d, hd, he⟩)
      exact this.trans (readByte_writeByte_same m c.1 c.2)
    · exact ih (writeByte m e.1 e.2) hc hn.2

/-! Byte order (R4) -/

@[simp] theorem leBytes_length (n x : Nat) : (leBytes n x).length = n := by
  induction n generalizing x with
  | zero => rfl
  | succ n ih => simp [leBytes, ih]

theorem leNat_leBytes (n x : Nat) : leNat (leBytes n x) = x % 256 ^ n := by
  induction n generalizing x with
  | zero => simp [leBytes, leNat, Nat.mod_one]
  | succ n ih =>
    have h : x % 256 ^ (n + 1) = x % 256 + 256 * (x / 256 % 256 ^ n) := by rw [Nat.pow_succ, Nat.mul_comm, Nat.mod_mul]
    simp only [leBytes, leNat, ih, BitVec.toNat_ofNat, h]

theorem leNat_lt (bs : List Byte) : leNat bs < 256 ^ bs.length := by
  induction bs with
  | nil => simp [leNat]
  | cons b bs ih =>
    have := b.isLt
    simp only [leNat, List.length_cons, Nat.pow_succ]
    omega

end Sys2Proof.Machine
end

