-- ==== Sys2Proof/Laws/Home.lean ====
section
/-! SUPPORT. Every operation of the home slices and of DRAM keeps the canonical form of memory (log entry 1). -/

namespace Sys2Proof.Machine

-- one declaration at a time: a thread for each would be too many
set_option Elab.async false

theorem memoriesWf_iff (s : State) : s.memoriesWf = true ↔ Memory.wf s.mem = true ∧ Memory.wf s.slice = true := by simp [State.memoriesWf]

/-- A change that leaves both memories alone keeps their form. -/
theorem memoriesWf_of_eq {s t : State} (hm : t.mem = s.mem) (hs : t.slice = s.slice) (h : s.memoriesWf = true) : t.memoriesWf = true := by
  rw [memoriesWf_iff] at h ⊢
  rwa [hm, hs]

theorem ite_keeps {c : Prop} [Decidable c] {s t : State} (hs : s.memoriesWf = true) (ht : t.memoriesWf = true) :
    (if c then s else t).memoriesWf = true := by split <;> assumption

/-- A step repeated over a list keeps what each of its turns keeps. -/
theorem foldl_keeps {α β : Type} {P : β → Prop} {f : β → α → β} (hf : ∀ b a, P b → P (f b a)) (l : List α) {b : β} (h : P b) : P (l.foldl f b) := by
  induction l generalizing b with
  | nil => exact h
  | cons a l ih => exact ih (hf b a h)

@[simp] theorem putLine_mem (s : State) (pa : Nat) (l : SliceLine) : (putLine s pa l).mem = s.mem := rfl
@[simp] theorem putLine_slice (s : State) (pa : Nat) (l : SliceLine) : (putLine s pa l).slice = s.slice := rfl

theorem countDramError_frame (s : State) (pa : Nat) (ue : Bool) :
    (countDramError s pa ue).mem = s.mem ∧ (countDramError s pa ue).slice = s.slice := by
  cases ue <;> exact ⟨rfl, rfl⟩

/-- A check of DRAM changes no byte (R27). -/
theorem dramCheck_frame (s : State) (pa : Nat) : (dramCheck s pa).mem = s.mem ∧ (dramCheck s pa).slice = s.slice := by
  unfold dramCheck
  split
  · exact ⟨rfl, rfl⟩
  · split <;> exact countDramError_frame _ pa false
  · exact countDramError_frame _ pa true

/-- A check of a held sector changes no byte (R27). -/
theorem sliceCheck_frame (s : State) (pa : Nat) : (sliceCheck s pa).mem = s.mem ∧ (sliceCheck s pa).slice = s.slice := by
  unfold sliceCheck
  simp only
  split
  · exact ⟨rfl, rfl⟩
  · split
    · exact countDramError_frame _ pa true
    · split
      · exact countDramError_frame _ pa false
      · exact ⟨rfl, rfl⟩

theorem sliceCheck_keeps {s : State} (pa : Nat) (h : s.memoriesWf = true) : (sliceCheck s pa).memoriesWf = true :=
  memoriesWf_of_eq (sliceCheck_frame s pa).1 (sliceCheck_frame s pa).2 h

theorem dramCheck_keeps {s : State} (pa : Nat) (h : s.memoriesWf = true) : (dramCheck s pa).memoriesWf = true :=
  memoriesWf_of_eq (dramCheck_frame s pa).1 (dramCheck_frame s pa).2 h

theorem fillSector_keeps {s : State} (pa : Nat) (h : s.memoriesWf = true) : (fillSector s pa).memoriesWf = true := by
  unfold fillSector
  simp only
  split
  · exact sliceCheck_keeps pa h
  · have hd := (memoriesWf_iff _).mp (dramCheck_keeps pa h)
    exact (memoriesWf_iff _).mpr ⟨hd.1, wf_writeCells _ hd.2⟩

theorem writeBackSector_keeps {s : State} (pa : Nat) (h : s.memoriesWf = true) : (writeBackSector s pa).memoriesWf = true := by
  have hs := (memoriesWf_iff _).mp (dramCheck_keeps pa (sliceCheck_keeps pa h))
  unfold writeBackSector
  simp only
  split
  · exact (memoriesWf_iff _).mpr ⟨wf_writeCells _ hs.1, hs.2⟩
  · exact h

theorem writeBackLine_keeps {s : State} (pa : Nat) (h : s.memoriesWf = true) : (writeBackLine s pa).memoriesWf = true :=
  foldl_keeps (P := fun s : State => s.memoriesWf = true) (fun _ _ hb => writeBackSector_keeps _ hb) _ h

theorem clearLine_wf {m : Memory} (b : Nat) (ls : List Nat) (h : Memory.wf m = true) :
    Memory.wf (ls.foldl (fun m i => writeByte m (b + i) 0) m) = true :=
  foldl_keeps (P := fun m : Memory => Memory.wf m = true) (fun _ i hm => wf_writeByte (b + i) 0 hm) ls h

/-- A line dropped after its sectors are written back. -/
theorem dropped_keeps {w : State} {m : Memory} (ls : Sparse SliceLine) (h : w.memoriesWf = true) (hm : Memory.wf m = true) :
    { w with lines := ls, slice := m }.memoriesWf = true := (memoriesWf_iff _).mpr ⟨((memoriesWf_iff _).mp h).1, hm⟩

theorem horizon_keeps {w : State} (m : Sparse Nat) (h : w.memoriesWf = true) : { w with horizon := m }.memoriesWf = true := memoriesWf_of_eq rfl rfl h

theorem regSet_keeps {w : State} (r : Reg) (hi lo x : Nat) (h : w.memoriesWf = true) : (regSet w r hi lo x).memoriesWf = true :=
  memoriesWf_of_eq rfl rfl h

theorem evictLine_keeps {s : State} (pa : Nat) (h : s.memoriesWf = true) : (evictLine s pa).memoriesWf = true := by
  have hw := writeBackLine_keeps pa h
  unfold evictLine
  refine ite_keeps ?_ h
  generalize writeBackLine s pa = w at hw ⊢
  have hx := ite_keeps (c := (lineAt w pa).pin = true)
    (regSet_keeps (.pinstat (homeSocket w pa)) 17 0
      (regFld (if timeAt w (homeSocket w pa) < (lineAt w pa).lease then
        { w with horizon := supd 0 w.horizon (homeSocket w pa) (max (lineAt w pa).lease) } else w) (.pinstat (homeSocket w pa)) 17 0 - 1)
      (ite_keeps (c := timeAt w (homeSocket w pa) < (lineAt w pa).lease)
        (horizon_keeps (supd 0 w.horizon (homeSocket w pa) (max (lineAt w pa).lease)) hw) hw))
    (ite_keeps (c := timeAt w (homeSocket w pa) < (lineAt w pa).lease)
      (horizon_keeps (supd 0 w.horizon (homeSocket w pa) (max (lineAt w pa).lease)) hw) hw)
  exact dropped_keeps _ hx (clearLine_wf (pa / 128 * 128) (List.range 128) ((memoriesWf_iff _).mp hx).2)

theorem makeRoom_keeps {s : State} (pa : Nat) (h : s.memoriesWf = true) : (makeRoom s pa).memoriesWf = true := by
  unfold makeRoom
  simp only
  split
  · exact h
  · split
    · exact evictLine_keeps _ (memoriesWf_of_eq (s := s) rfl rfl h)
    · exact memoriesWf_of_eq (s := s) rfl rfl h

/-- The use of a line changes no byte (R14). -/
theorem useLine_keeps {s : State} (pa : Nat) (h : s.memoriesWf = true) : (useLine s pa).memoriesWf = true := by
  have hl : ∀ (t : State) (a : Nat) (l : SliceLine), t.memoriesWf = true → (putLine t a l).memoriesWf = true := fun _ _ _ ht =>
    memoriesWf_of_eq rfl rfl ht
  unfold useLine
  simp only
  split
  · exact h
  · refine hl _ _ _ ?_
    split
    · exact foldl_keeps (P := fun s : State => s.memoriesWf = true) (fun _ _ hb => hl _ _ _ hb) _ h
    · exact h

theorem touchLine_keeps {s : State} (pa : Nat) (attr : BitVec 2) (h : s.memoriesWf = true) : (touchLine s pa attr).memoriesWf = true := by
  have hf : (if linePresent s pa = true then s else
      fillSector (putLine (makeRoom s pa) pa { lineInit with lease := sget 0 (makeRoom s pa).horizon (homeSocket (makeRoom s pa) pa) }) pa).memoriesWf
        = true := ite_keeps h (fillSector_keeps pa (memoriesWf_of_eq (s := makeRoom s pa) rfl rfl (makeRoom_keeps pa h)))
  have hu := useLine_keeps pa hf
  exact ite_keeps (ite_keeps (memoriesWf_of_eq rfl rfl hu) (memoriesWf_of_eq rfl rfl hu)) hu

theorem writeSectorCells_keeps {s : State} (pa : Nat) (cells : List Host.Cell) (poisoned : Bool) (h : s.memoriesWf = true) :
    (writeSectorCells s pa cells poisoned).memoriesWf = true := by
  unfold writeSectorCells
  simp only
  split
  · exact h
  · have hf : (if decide (16 ≤ (cells.filter fun c => c.1 / 16 = pa / 16).length) = true then s else fillSector s pa).memoriesWf = true := by
      split
      · exact h
      · exact fillSector_keeps pa h
    have hw := (memoriesWf_iff _).mp hf
    exact (memoriesWf_iff _).mpr ⟨hw.1, wf_writeCells _ hw.2⟩

theorem noteRewrite_frame (s : State) (half : Nat) (addrs : List Nat) (src : Nat) (who : Requester) :
    (noteRewrite s half addrs src who).mem = s.mem ∧ (noteRewrite s half addrs src who).slice = s.slice := by
  unfold noteRewrite
  simp only
  split
  · exact ⟨rfl, rfl⟩
  · split
    · exact ⟨rfl, rfl⟩
    · split <;> exact ⟨rfl, rfl⟩

theorem noteRewrite_keeps {s : State} (half : Nat) (addrs : List Nat) (src : Nat) (who : Requester) (h : s.memoriesWf = true) :
    (noteRewrite s half addrs src who).memoriesWf = true :=
  memoriesWf_of_eq (noteRewrite_frame s half addrs src who).1 (noteRewrite_frame s half addrs src who).2 h

/-- A write at the home keeps the form, under every attribute (R14, R20). -/
theorem homeWrite_keeps {s : State} (attr : BitVec 2) (cells : List Host.Cell) (src : Nat) (who : Requester) (poisoned : Bool)
    (h : s.memoriesWf = true) : (homeWrite s attr cells src who poisoned).memoriesWf = true := by
  have hwr : ∀ (base : Nat) {t : State}, t.memoriesWf = true →
      ((List.range 8).foldl (fun s i => writeSectorCells s (base + 16 * i) cells poisoned) t).memoriesWf = true := fun _ _ ht =>
    foldl_keeps (P := fun s : State => s.memoriesWf = true) (fun _ _ hb => writeSectorCells_keeps _ _ _ hb) _ ht
  cases cells with
  | nil => exact h
  | cons c cs =>
    have hr : ∀ r, { s with reservations := r }.memoriesWf = true := fun _ => memoriesWf_of_eq rfl rfl h
    refine ite_keeps h ?_
    have hn := noteRewrite_keeps (c.1 / 128 * 128 / 64 + 1) ((c :: cs).map (·.1)) src who
      (noteRewrite_keeps (c.1 / 128 * 128 / 64) ((c :: cs).map (·.1)) src who
        (hr (s.reservations.filter fun r => !(c :: cs).any fun c => c.1 / 16 == r.sector)))
    refine ite_keeps (horizon_keeps _ (evictLine_keeps _ (hwr _ (memoriesWf_of_eq rfl rfl (evictLine_keeps c.1 hn))))) ?_
    exact hwr _ (touchLine_keeps c.1 attr hn)

/-- A read at the home keeps the form (R14, R20). -/
theorem homePrepare_keeps {s : State} (attr : BitVec 2) (pa n : Nat) (h : s.memoriesWf = true) : (homePrepare s attr pa n).memoriesWf = true := by
  unfold homePrepare
  split
  · exact dramCheck_keeps pa (evictLine_keeps pa h)
  · exact foldl_keeps (P := fun s : State => s.memoriesWf = true) (fun _ _ hb => fillSector_keeps _ hb) _ (touchLine_keeps pa attr h)

/-- A write of the package's own records changes no memory until its packets have been applied at their homes (R64). -/
@[simp] theorem deviceWrite_memoriesWf (s : State) (sock pa : Nat) (bs : List Byte) (g : DevGoal) :
    (deviceWrite s sock pa bs g).memoriesWf = s.memoriesWf := rfl

theorem reset_memoriesWf : State.reset.memoriesWf = true := rfl

end Sys2Proof.Machine
end

