-- ==== Sys2Proof/Laws/State.lean ====
section
/-! SUPPORT. What each update of the state leaves alone, field by field, and what it writes. -/

namespace Sys2Proof.Machine

-- one declaration at a time: a thread for each would be too many
set_option Elab.async false

section
variable (s : State) (k : AgentKey) (f : Agent → Agent)

@[simp] theorem updAgent_agenda : (updAgent s k f).agenda = s.agenda := rfl
@[simp] theorem updAgent_turn : (updAgent s k f).turn = s.turn := rfl
@[simp] theorem updAgent_freeCount : (updAgent s k f).freeCount = s.freeCount := rfl
@[simp] theorem updAgent_time : (updAgent s k f).time = s.time := rfl
@[simp] theorem updAgent_clocks : (updAgent s k f).clocks = s.clocks := rfl
@[simp] theorem updAgent_clusters : (updAgent s k f).clusters = s.clusters := rfl
@[simp] theorem updAgent_powered : (updAgent s k f).powered = s.powered := rfl
@[simp] theorem updAgent_released : (updAgent s k f).released = s.released := rfl
@[simp] theorem updAgent_failed : (updAgent s k f).failed = s.failed := rfl
@[simp] theorem updAgent_regs : (updAgent s k f).regs = s.regs := rfl
@[simp] theorem updAgent_meas : (updAgent s k f).meas = s.meas := rfl
@[simp] theorem updAgent_mem : (updAgent s k f).mem = s.mem := rfl
@[simp] theorem updAgent_slice : (updAgent s k f).slice = s.slice := rfl
@[simp] theorem updAgent_lines : (updAgent s k f).lines = s.lines := rfl
@[simp] theorem updAgent_dramPoison : (updAgent s k f).dramPoison = s.dramPoison := rfl
@[simp] theorem updAgent_badSymbols : (updAgent s k f).badSymbols = s.badSymbols := rfl
@[simp] theorem updAgent_rewrites : (updAgent s k f).rewrites = s.rewrites := rfl
@[simp] theorem updAgent_horizon : (updAgent s k f).horizon = s.horizon := rfl
@[simp] theorem updAgent_maxDone : (updAgent s k f).maxDone = s.maxDone := rfl
@[simp] theorem updAgent_arb : (updAgent s k f).arb = s.arb := rfl
@[simp] theorem updAgent_scrubPos : (updAgent s k f).scrubPos = s.scrubPos := rfl
@[simp] theorem updAgent_links : (updAgent s k f).links = s.links := rfl
@[simp] theorem updAgent_inbox : (updAgent s k f).inbox = s.inbox := rfl
@[simp] theorem updAgent_streams : (updAgent s k f).streams = s.streams := rfl
@[simp] theorem updAgent_changes : (updAgent s k f).changes = s.changes := rfl
@[simp] theorem updAgent_rmaHeld : (updAgent s k f).rmaHeld = s.rmaHeld := rfl
@[simp] theorem updAgent_markers : (updAgent s k f).markers = s.markers := rfl
@[simp] theorem updAgent_protErr : (updAgent s k f).protErr = s.protErr := rfl
@[simp] theorem updAgent_retests : (updAgent s k f).retests = s.retests := rfl
@[simp] theorem updAgent_whisk : (updAgent s k f).whisk = s.whisk := rfl
@[simp] theorem updAgent_branches : (updAgent s k f).branches = s.branches := rfl
@[simp] theorem updAgent_reductions : (updAgent s k f).reductions = s.reductions := rfl
@[simp] theorem updAgent_shards : (updAgent s k f).shards = s.shards := rfl
@[simp] theorem updAgent_pageReqs : (updAgent s k f).pageReqs = s.pageReqs := rfl
@[simp] theorem updAgent_devWrites : (updAgent s k f).devWrites = s.devWrites := rfl
@[simp] theorem updAgent_xlatGen : (updAgent s k f).xlatGen = s.xlatGen := rfl
@[simp] theorem updAgent_inval : (updAgent s k f).inval = s.inval := rfl
@[simp] theorem updAgent_cores : (updAgent s k f).cores = s.cores := rfl
@[simp] theorem updAgent_readers : (updAgent s k f).readers = s.readers := rfl
@[simp] theorem updAgent_teams : (updAgent s k f).teams = s.teams := rfl
@[simp] theorem updAgent_engines : (updAgent s k f).engines = s.engines := rfl
@[simp] theorem updAgent_grids : (updAgent s k f).grids = s.grids := rfl
@[simp] theorem updAgent_queues : (updAgent s k f).queues = s.queues := rfl
@[simp] theorem updAgent_lastTaken : (updAgent s k f).lastTaken = s.lastTaken := rfl
@[simp] theorem updAgent_lastTake : (updAgent s k f).lastTake = s.lastTake := rfl
@[simp] theorem updAgent_curve : (updAgent s k f).curve = s.curve := rfl
@[simp] theorem updAgent_lastSample : (updAgent s k f).lastSample = s.lastSample := rfl
@[simp] theorem updAgent_staleSince : (updAgent s k f).staleSince = s.staleSince := rfl
@[simp] theorem updAgent_energyLeft : (updAgent s k f).energyLeft = s.energyLeft := rfl
@[simp] theorem updAgent_shedSince : (updAgent s k f).shedSince = s.shedSince := rfl
@[simp] theorem updAgent_lastBoundary : (updAgent s k f).lastBoundary = s.lastBoundary := rfl
@[simp] theorem updAgent_logConfigured : (updAgent s k f).logConfigured = s.logConfigured := rfl
@[simp] theorem updAgent_saves : (updAgent s k f).saves = s.saves := rfl
@[simp] theorem updAgent_saving : (updAgent s k f).saving = s.saving := rfl
@[simp] theorem updAgent_em : (updAgent s k f).em = s.em := rfl
@[simp] theorem updAgent_scanFail : (updAgent s k f).scanFail = s.scanFail := rfl
@[simp] theorem updAgent_hostHeld : (updAgent s k f).hostHeld = s.hostHeld := rfl
@[simp] theorem updAgent_snoops : (updAgent s k f).snoops = s.snoops := rfl
@[simp] theorem updAgent_hostUp : (updAgent s k f).hostUp = s.hostUp := rfl
@[simp] theorem updAgent_hostDownSince : (updAgent s k f).hostDownSince = s.hostDownSince := rfl
@[simp] theorem updAgent_hostDone : (updAgent s k f).hostDone = s.hostDone := rfl
@[simp] theorem updAgent_hostReqs : (updAgent s k f).hostReqs = s.hostReqs := rfl
@[simp] theorem updAgent_sysReqs : (updAgent s k f).sysReqs = s.sysReqs := rfl
@[simp] theorem updAgent_reservations : (updAgent s k f).reservations = s.reservations := rfl
@[simp] theorem updAgent_sbxLines : (updAgent s k f).sbxLines = s.sbxLines := rfl
@[simp] theorem updAgent_hartRegs : (updAgent s k f).hartRegs = s.hartRegs := rfl
@[simp] theorem updAgent_hartLines : (updAgent s k f).hartLines = s.hartLines := rfl
@[simp] theorem updAgent_hartOps : (updAgent s k f).hartOps = s.hartOps := rfl
@[simp] theorem updAgent_harts : (updAgent s k f).harts = s.harts := rfl
@[simp] theorem updAgent_mgmt : (updAgent s k f).mgmt = s.mgmt := rfl
@[simp] theorem updAgent_links18 : (updAgent s k f).links18 = s.links18 := rfl
@[simp] theorem updAgent_lags : (updAgent s k f).lags = s.lags := rfl
@[simp] theorem updAgent_lastL : (updAgent s k f).lastL = s.lastL := rfl
@[simp] theorem updAgent_lateCopies : (updAgent s k f).lateCopies = s.lateCopies := rfl
@[simp] theorem updAgent_lastPace : (updAgent s k f).lastPace = s.lastPace := rfl
@[simp] theorem updAgent_funcDomain : (updAgent s k f).funcDomain = s.funcDomain := rfl
@[simp] theorem updAgent_debugOn : (updAgent s k f).debugOn = s.debugOn := rfl
@[simp] theorem updAgent_memGrants : (updAgent s k f).memGrants = s.memGrants := rfl
@[simp] theorem updAgent_staged : (updAgent s k f).staged = s.staged := rfl
@[simp] theorem updAgent_firmware : (updAgent s k f).firmware = s.firmware := rfl
@[simp] theorem updAgent_boot : (updAgent s k f).boot = s.boot := rfl
@[simp] theorem updAgent_outputs : (updAgent s k f).outputs = s.outputs := rfl
@[simp] theorem updAgent_nextId : (updAgent s k f).nextId = s.nextId := rfl
@[simp] theorem updAgent_hardTrip : (updAgent s k f).hardTrip = s.hardTrip := rfl
@[simp] theorem updAgent_standby : (updAgent s k f).standby = s.standby := rfl

end

section
variable (s : State) (u : Nat) (g : Team → Team)

@[simp] theorem updTeam_agenda : (updTeam s u g).agenda = s.agenda := rfl
@[simp] theorem updTeam_turn : (updTeam s u g).turn = s.turn := rfl
@[simp] theorem updTeam_freeCount : (updTeam s u g).freeCount = s.freeCount := rfl
@[simp] theorem updTeam_time : (updTeam s u g).time = s.time := rfl
@[simp] theorem updTeam_clocks : (updTeam s u g).clocks = s.clocks := rfl
@[simp] theorem updTeam_clusters : (updTeam s u g).clusters = s.clusters := rfl
@[simp] theorem updTeam_powered : (updTeam s u g).powered = s.powered := rfl
@[simp] theorem updTeam_released : (updTeam s u g).released = s.released := rfl
@[simp] theorem updTeam_failed : (updTeam s u g).failed = s.failed := rfl
@[simp] theorem updTeam_regs : (updTeam s u g).regs = s.regs := rfl
@[simp] theorem updTeam_meas : (updTeam s u g).meas = s.meas := rfl
@[simp] theorem updTeam_mem : (updTeam s u g).mem = s.mem := rfl
@[simp] theorem updTeam_slice : (updTeam s u g).slice = s.slice := rfl
@[simp] theorem updTeam_lines : (updTeam s u g).lines = s.lines := rfl
@[simp] theorem updTeam_dramPoison : (updTeam s u g).dramPoison = s.dramPoison := rfl
@[simp] theorem updTeam_badSymbols : (updTeam s u g).badSymbols = s.badSymbols := rfl
@[simp] theorem updTeam_rewrites : (updTeam s u g).rewrites = s.rewrites := rfl
@[simp] theorem updTeam_horizon : (updTeam s u g).horizon = s.horizon := rfl
@[simp] theorem updTeam_maxDone : (updTeam s u g).maxDone = s.maxDone := rfl
@[simp] theorem updTeam_arb : (updTeam s u g).arb = s.arb := rfl
@[simp] theorem updTeam_scrubPos : (updTeam s u g).scrubPos = s.scrubPos := rfl
@[simp] theorem updTeam_links : (updTeam s u g).links = s.links := rfl
@[simp] theorem updTeam_inbox : (updTeam s u g).inbox = s.inbox := rfl
@[simp] theorem updTeam_streams : (updTeam s u g).streams = s.streams := rfl
@[simp] theorem updTeam_changes : (updTeam s u g).changes = s.changes := rfl
@[simp] theorem updTeam_rmaHeld : (updTeam s u g).rmaHeld = s.rmaHeld := rfl
@[simp] theorem updTeam_markers : (updTeam s u g).markers = s.markers := rfl
@[simp] theorem updTeam_protErr : (updTeam s u g).protErr = s.protErr := rfl
@[simp] theorem updTeam_retests : (updTeam s u g).retests = s.retests := rfl
@[simp] theorem updTeam_whisk : (updTeam s u g).whisk = s.whisk := rfl
@[simp] theorem updTeam_branches : (updTeam s u g).branches = s.branches := rfl
@[simp] theorem updTeam_reductions : (updTeam s u g).reductions = s.reductions := rfl
@[simp] theorem updTeam_shards : (updTeam s u g).shards = s.shards := rfl
@[simp] theorem updTeam_pageReqs : (updTeam s u g).pageReqs = s.pageReqs := rfl
@[simp] theorem updTeam_devWrites : (updTeam s u g).devWrites = s.devWrites := rfl
@[simp] theorem updTeam_xlatGen : (updTeam s u g).xlatGen = s.xlatGen := rfl
@[simp] theorem updTeam_inval : (updTeam s u g).inval = s.inval := rfl
@[simp] theorem updTeam_cores : (updTeam s u g).cores = s.cores := rfl
@[simp] theorem updTeam_readers : (updTeam s u g).readers = s.readers := rfl
@[simp] theorem updTeam_agents : (updTeam s u g).agents = s.agents := rfl
@[simp] theorem updTeam_engines : (updTeam s u g).engines = s.engines := rfl
@[simp] theorem updTeam_grids : (updTeam s u g).grids = s.grids := rfl
@[simp] theorem updTeam_queues : (updTeam s u g).queues = s.queues := rfl
@[simp] theorem updTeam_lastTaken : (updTeam s u g).lastTaken = s.lastTaken := rfl
@[simp] theorem updTeam_lastTake : (updTeam s u g).lastTake = s.lastTake := rfl
@[simp] theorem updTeam_curve : (updTeam s u g).curve = s.curve := rfl
@[simp] theorem updTeam_lastSample : (updTeam s u g).lastSample = s.lastSample := rfl
@[simp] theorem updTeam_staleSince : (updTeam s u g).staleSince = s.staleSince := rfl
@[simp] theorem updTeam_energyLeft : (updTeam s u g).energyLeft = s.energyLeft := rfl
@[simp] theorem updTeam_shedSince : (updTeam s u g).shedSince = s.shedSince := rfl
@[simp] theorem updTeam_lastBoundary : (updTeam s u g).lastBoundary = s.lastBoundary := rfl
@[simp] theorem updTeam_logConfigured : (updTeam s u g).logConfigured = s.logConfigured := rfl
@[simp] theorem updTeam_saves : (updTeam s u g).saves = s.saves := rfl
@[simp] theorem updTeam_saving : (updTeam s u g).saving = s.saving := rfl
@[simp] theorem updTeam_em : (updTeam s u g).em = s.em := rfl
@[simp] theorem updTeam_scanFail : (updTeam s u g).scanFail = s.scanFail := rfl
@[simp] theorem updTeam_hostHeld : (updTeam s u g).hostHeld = s.hostHeld := rfl
@[simp] theorem updTeam_snoops : (updTeam s u g).snoops = s.snoops := rfl
@[simp] theorem updTeam_hostUp : (updTeam s u g).hostUp = s.hostUp := rfl
@[simp] theorem updTeam_hostDownSince : (updTeam s u g).hostDownSince = s.hostDownSince := rfl
@[simp] theorem updTeam_hostDone : (updTeam s u g).hostDone = s.hostDone := rfl
@[simp] theorem updTeam_hostReqs : (updTeam s u g).hostReqs = s.hostReqs := rfl
@[simp] theorem updTeam_sysReqs : (updTeam s u g).sysReqs = s.sysReqs := rfl
@[simp] theorem updTeam_reservations : (updTeam s u g).reservations = s.reservations := rfl
@[simp] theorem updTeam_sbxLines : (updTeam s u g).sbxLines = s.sbxLines := rfl
@[simp] theorem updTeam_hartRegs : (updTeam s u g).hartRegs = s.hartRegs := rfl
@[simp] theorem updTeam_hartLines : (updTeam s u g).hartLines = s.hartLines := rfl
@[simp] theorem updTeam_hartOps : (updTeam s u g).hartOps = s.hartOps := rfl
@[simp] theorem updTeam_harts : (updTeam s u g).harts = s.harts := rfl
@[simp] theorem updTeam_mgmt : (updTeam s u g).mgmt = s.mgmt := rfl
@[simp] theorem updTeam_links18 : (updTeam s u g).links18 = s.links18 := rfl
@[simp] theorem updTeam_lags : (updTeam s u g).lags = s.lags := rfl
@[simp] theorem updTeam_lastL : (updTeam s u g).lastL = s.lastL := rfl
@[simp] theorem updTeam_lateCopies : (updTeam s u g).lateCopies = s.lateCopies := rfl
@[simp] theorem updTeam_lastPace : (updTeam s u g).lastPace = s.lastPace := rfl
@[simp] theorem updTeam_funcDomain : (updTeam s u g).funcDomain = s.funcDomain := rfl
@[simp] theorem updTeam_debugOn : (updTeam s u g).debugOn = s.debugOn := rfl
@[simp] theorem updTeam_memGrants : (updTeam s u g).memGrants = s.memGrants := rfl
@[simp] theorem updTeam_staged : (updTeam s u g).staged = s.staged := rfl
@[simp] theorem updTeam_firmware : (updTeam s u g).firmware = s.firmware := rfl
@[simp] theorem updTeam_boot : (updTeam s u g).boot = s.boot := rfl
@[simp] theorem updTeam_outputs : (updTeam s u g).outputs = s.outputs := rfl
@[simp] theorem updTeam_nextId : (updTeam s u g).nextId = s.nextId := rfl
@[simp] theorem updTeam_hardTrip : (updTeam s u g).hardTrip = s.hardTrip := rfl
@[simp] theorem updTeam_standby : (updTeam s u g).standby = s.standby := rfl

end

section
variable (s : State) (n : Nat) (g : Grid → Grid)

@[simp] theorem updGrid_agenda : (updGrid s n g).agenda = s.agenda := rfl
@[simp] theorem updGrid_turn : (updGrid s n g).turn = s.turn := rfl
@[simp] theorem updGrid_freeCount : (updGrid s n g).freeCount = s.freeCount := rfl
@[simp] theorem updGrid_time : (updGrid s n g).time = s.time := rfl
@[simp] theorem updGrid_clocks : (updGrid s n g).clocks = s.clocks := rfl
@[simp] theorem updGrid_clusters : (updGrid s n g).clusters = s.clusters := rfl
@[simp] theorem updGrid_powered : (updGrid s n g).powered = s.powered := rfl
@[simp] theorem updGrid_released : (updGrid s n g).released = s.released := rfl
@[simp] theorem updGrid_failed : (updGrid s n g).failed = s.failed := rfl
@[simp] theorem updGrid_regs : (updGrid s n g).regs = s.regs := rfl
@[simp] theorem updGrid_meas : (updGrid s n g).meas = s.meas := rfl
@[simp] theorem updGrid_mem : (updGrid s n g).mem = s.mem := rfl
@[simp] theorem updGrid_slice : (updGrid s n g).slice = s.slice := rfl
@[simp] theorem updGrid_lines : (updGrid s n g).lines = s.lines := rfl
@[simp] theorem updGrid_dramPoison : (updGrid s n g).dramPoison = s.dramPoison := rfl
@[simp] theorem updGrid_badSymbols : (updGrid s n g).badSymbols = s.badSymbols := rfl
@[simp] theorem updGrid_rewrites : (updGrid s n g).rewrites = s.rewrites := rfl
@[simp] theorem updGrid_horizon : (updGrid s n g).horizon = s.horizon := rfl
@[simp] theorem updGrid_maxDone : (updGrid s n g).maxDone = s.maxDone := rfl
@[simp] theorem updGrid_arb : (updGrid s n g).arb = s.arb := rfl
@[simp] theorem updGrid_scrubPos : (updGrid s n g).scrubPos = s.scrubPos := rfl
@[simp] theorem updGrid_links : (updGrid s n g).links = s.links := rfl
@[simp] theorem updGrid_inbox : (updGrid s n g).inbox = s.inbox := rfl
@[simp] theorem updGrid_streams : (updGrid s n g).streams = s.streams := rfl
@[simp] theorem updGrid_changes : (updGrid s n g).changes = s.changes := rfl
@[simp] theorem updGrid_rmaHeld : (updGrid s n g).rmaHeld = s.rmaHeld := rfl
@[simp] theorem updGrid_markers : (updGrid s n g).markers = s.markers := rfl
@[simp] theorem updGrid_protErr : (updGrid s n g).protErr = s.protErr := rfl
@[simp] theorem updGrid_retests : (updGrid s n g).retests = s.retests := rfl
@[simp] theorem updGrid_whisk : (updGrid s n g).whisk = s.whisk := rfl
@[simp] theorem updGrid_branches : (updGrid s n g).branches = s.branches := rfl
@[simp] theorem updGrid_reductions : (updGrid s n g).reductions = s.reductions := rfl
@[simp] theorem updGrid_shards : (updGrid s n g).shards = s.shards := rfl
@[simp] theorem updGrid_pageReqs : (updGrid s n g).pageReqs = s.pageReqs := rfl
@[simp] theorem updGrid_devWrites : (updGrid s n g).devWrites = s.devWrites := rfl
@[simp] theorem updGrid_xlatGen : (updGrid s n g).xlatGen = s.xlatGen := rfl
@[simp] theorem updGrid_inval : (updGrid s n g).inval = s.inval := rfl
@[simp] theorem updGrid_cores : (updGrid s n g).cores = s.cores := rfl
@[simp] theorem updGrid_readers : (updGrid s n g).readers = s.readers := rfl
@[simp] theorem updGrid_teams : (updGrid s n g).teams = s.teams := rfl
@[simp] theorem updGrid_agents : (updGrid s n g).agents = s.agents := rfl
@[simp] theorem updGrid_engines : (updGrid s n g).engines = s.engines := rfl
@[simp] theorem updGrid_queues : (updGrid s n g).queues = s.queues := rfl
@[simp] theorem updGrid_lastTaken : (updGrid s n g).lastTaken = s.lastTaken := rfl
@[simp] theorem updGrid_lastTake : (updGrid s n g).lastTake = s.lastTake := rfl
@[simp] theorem updGrid_curve : (updGrid s n g).curve = s.curve := rfl
@[simp] theorem updGrid_lastSample : (updGrid s n g).lastSample = s.lastSample := rfl
@[simp] theorem updGrid_staleSince : (updGrid s n g).staleSince = s.staleSince := rfl
@[simp] theorem updGrid_energyLeft : (updGrid s n g).energyLeft = s.energyLeft := rfl
@[simp] theorem updGrid_shedSince : (updGrid s n g).shedSince = s.shedSince := rfl
@[simp] theorem updGrid_lastBoundary : (updGrid s n g).lastBoundary = s.lastBoundary := rfl
@[simp] theorem updGrid_logConfigured : (updGrid s n g).logConfigured = s.logConfigured := rfl
@[simp] theorem updGrid_saves : (updGrid s n g).saves = s.saves := rfl
@[simp] theorem updGrid_saving : (updGrid s n g).saving = s.saving := rfl
@[simp] theorem updGrid_em : (updGrid s n g).em = s.em := rfl
@[simp] theorem updGrid_scanFail : (updGrid s n g).scanFail = s.scanFail := rfl
@[simp] theorem updGrid_hostHeld : (updGrid s n g).hostHeld = s.hostHeld := rfl
@[simp] theorem updGrid_snoops : (updGrid s n g).snoops = s.snoops := rfl
@[simp] theorem updGrid_hostUp : (updGrid s n g).hostUp = s.hostUp := rfl
@[simp] theorem updGrid_hostDownSince : (updGrid s n g).hostDownSince = s.hostDownSince := rfl
@[simp] theorem updGrid_hostDone : (updGrid s n g).hostDone = s.hostDone := rfl
@[simp] theorem updGrid_hostReqs : (updGrid s n g).hostReqs = s.hostReqs := rfl
@[simp] theorem updGrid_sysReqs : (updGrid s n g).sysReqs = s.sysReqs := rfl
@[simp] theorem updGrid_reservations : (updGrid s n g).reservations = s.reservations := rfl
@[simp] theorem updGrid_sbxLines : (updGrid s n g).sbxLines = s.sbxLines := rfl
@[simp] theorem updGrid_hartRegs : (updGrid s n g).hartRegs = s.hartRegs := rfl
@[simp] theorem updGrid_hartLines : (updGrid s n g).hartLines = s.hartLines := rfl
@[simp] theorem updGrid_hartOps : (updGrid s n g).hartOps = s.hartOps := rfl
@[simp] theorem updGrid_harts : (updGrid s n g).harts = s.harts := rfl
@[simp] theorem updGrid_mgmt : (updGrid s n g).mgmt = s.mgmt := rfl
@[simp] theorem updGrid_links18 : (updGrid s n g).links18 = s.links18 := rfl
@[simp] theorem updGrid_lags : (updGrid s n g).lags = s.lags := rfl
@[simp] theorem updGrid_lastL : (updGrid s n g).lastL = s.lastL := rfl
@[simp] theorem updGrid_lateCopies : (updGrid s n g).lateCopies = s.lateCopies := rfl
@[simp] theorem updGrid_lastPace : (updGrid s n g).lastPace = s.lastPace := rfl
@[simp] theorem updGrid_funcDomain : (updGrid s n g).funcDomain = s.funcDomain := rfl
@[simp] theorem updGrid_debugOn : (updGrid s n g).debugOn = s.debugOn := rfl
@[simp] theorem updGrid_memGrants : (updGrid s n g).memGrants = s.memGrants := rfl
@[simp] theorem updGrid_staged : (updGrid s n g).staged = s.staged := rfl
@[simp] theorem updGrid_firmware : (updGrid s n g).firmware = s.firmware := rfl
@[simp] theorem updGrid_boot : (updGrid s n g).boot = s.boot := rfl
@[simp] theorem updGrid_outputs : (updGrid s n g).outputs = s.outputs := rfl
@[simp] theorem updGrid_nextId : (updGrid s n g).nextId = s.nextId := rfl
@[simp] theorem updGrid_hardTrip : (updGrid s n g).hardTrip = s.hardTrip := rfl
@[simp] theorem updGrid_standby : (updGrid s n g).standby = s.standby := rfl

end

section
variable (s : State) (n : Nat) (g : Core → Core)

@[simp] theorem updCore_agenda : (updCore s n g).agenda = s.agenda := rfl
@[simp] theorem updCore_turn : (updCore s n g).turn = s.turn := rfl
@[simp] theorem updCore_freeCount : (updCore s n g).freeCount = s.freeCount := rfl
@[simp] theorem updCore_time : (updCore s n g).time = s.time := rfl
@[simp] theorem updCore_clocks : (updCore s n g).clocks = s.clocks := rfl
@[simp] theorem updCore_clusters : (updCore s n g).clusters = s.clusters := rfl
@[simp] theorem updCore_powered : (updCore s n g).powered = s.powered := rfl
@[simp] theorem updCore_released : (updCore s n g).released = s.released := rfl
@[simp] theorem updCore_failed : (updCore s n g).failed = s.failed := rfl
@[simp] theorem updCore_regs : (updCore s n g).regs = s.regs := rfl
@[simp] theorem updCore_meas : (updCore s n g).meas = s.meas := rfl
@[simp] theorem updCore_mem : (updCore s n g).mem = s.mem := rfl
@[simp] theorem updCore_slice : (updCore s n g).slice = s.slice := rfl
@[simp] theorem updCore_lines : (updCore s n g).lines = s.lines := rfl
@[simp] theorem updCore_dramPoison : (updCore s n g).dramPoison = s.dramPoison := rfl
@[simp] theorem updCore_badSymbols : (updCore s n g).badSymbols = s.badSymbols := rfl
@[simp] theorem updCore_rewrites : (updCore s n g).rewrites = s.rewrites := rfl
@[simp] theorem updCore_horizon : (updCore s n g).horizon = s.horizon := rfl
@[simp] theorem updCore_maxDone : (updCore s n g).maxDone = s.maxDone := rfl
@[simp] theorem updCore_arb : (updCore s n g).arb = s.arb := rfl
@[simp] theorem updCore_scrubPos : (updCore s n g).scrubPos = s.scrubPos := rfl
@[simp] theorem updCore_links : (updCore s n g).links = s.links := rfl
@[simp] theorem updCore_inbox : (updCore s n g).inbox = s.inbox := rfl
@[simp] theorem updCore_streams : (updCore s n g).streams = s.streams := rfl
@[simp] theorem updCore_changes : (updCore s n g).changes = s.changes := rfl
@[simp] theorem updCore_rmaHeld : (updCore s n g).rmaHeld = s.rmaHeld := rfl
@[simp] theorem updCore_markers : (updCore s n g).markers = s.markers := rfl
@[simp] theorem updCore_protErr : (updCore s n g).protErr = s.protErr := rfl
@[simp] theorem updCore_retests : (updCore s n g).retests = s.retests := rfl
@[simp] theorem updCore_whisk : (updCore s n g).whisk = s.whisk := rfl
@[simp] theorem updCore_branches : (updCore s n g).branches = s.branches := rfl
@[simp] theorem updCore_reductions : (updCore s n g).reductions = s.reductions := rfl
@[simp] theorem updCore_shards : (updCore s n g).shards = s.shards := rfl
@[simp] theorem updCore_pageReqs : (updCore s n g).pageReqs = s.pageReqs := rfl
@[simp] theorem updCore_devWrites : (updCore s n g).devWrites = s.devWrites := rfl
@[simp] theorem updCore_xlatGen : (updCore s n g).xlatGen = s.xlatGen := rfl
@[simp] theorem updCore_inval : (updCore s n g).inval = s.inval := rfl
@[simp] theorem updCore_readers : (updCore s n g).readers = s.readers := rfl
@[simp] theorem updCore_teams : (updCore s n g).teams = s.teams := rfl
@[simp] theorem updCore_agents : (updCore s n g).agents = s.agents := rfl
@[simp] theorem updCore_engines : (updCore s n g).engines = s.engines := rfl
@[simp] theorem updCore_grids : (updCore s n g).grids = s.grids := rfl
@[simp] theorem updCore_queues : (updCore s n g).queues = s.queues := rfl
@[simp] theorem updCore_lastTaken : (updCore s n g).lastTaken = s.lastTaken := rfl
@[simp] theorem updCore_lastTake : (updCore s n g).lastTake = s.lastTake := rfl
@[simp] theorem updCore_curve : (updCore s n g).curve = s.curve := rfl
@[simp] theorem updCore_lastSample : (updCore s n g).lastSample = s.lastSample := rfl
@[simp] theorem updCore_staleSince : (updCore s n g).staleSince = s.staleSince := rfl
@[simp] theorem updCore_energyLeft : (updCore s n g).energyLeft = s.energyLeft := rfl
@[simp] theorem updCore_shedSince : (updCore s n g).shedSince = s.shedSince := rfl
@[simp] theorem updCore_lastBoundary : (updCore s n g).lastBoundary = s.lastBoundary := rfl
@[simp] theorem updCore_logConfigured : (updCore s n g).logConfigured = s.logConfigured := rfl
@[simp] theorem updCore_saves : (updCore s n g).saves = s.saves := rfl
@[simp] theorem updCore_saving : (updCore s n g).saving = s.saving := rfl
@[simp] theorem updCore_em : (updCore s n g).em = s.em := rfl
@[simp] theorem updCore_scanFail : (updCore s n g).scanFail = s.scanFail := rfl
@[simp] theorem updCore_hostHeld : (updCore s n g).hostHeld = s.hostHeld := rfl
@[simp] theorem updCore_snoops : (updCore s n g).snoops = s.snoops := rfl
@[simp] theorem updCore_hostUp : (updCore s n g).hostUp = s.hostUp := rfl
@[simp] theorem updCore_hostDownSince : (updCore s n g).hostDownSince = s.hostDownSince := rfl
@[simp] theorem updCore_hostDone : (updCore s n g).hostDone = s.hostDone := rfl
@[simp] theorem updCore_hostReqs : (updCore s n g).hostReqs = s.hostReqs := rfl
@[simp] theorem updCore_sysReqs : (updCore s n g).sysReqs = s.sysReqs := rfl
@[simp] theorem updCore_reservations : (updCore s n g).reservations = s.reservations := rfl
@[simp] theorem updCore_sbxLines : (updCore s n g).sbxLines = s.sbxLines := rfl
@[simp] theorem updCore_hartRegs : (updCore s n g).hartRegs = s.hartRegs := rfl
@[simp] theorem updCore_hartLines : (updCore s n g).hartLines = s.hartLines := rfl
@[simp] theorem updCore_hartOps : (updCore s n g).hartOps = s.hartOps := rfl
@[simp] theorem updCore_harts : (updCore s n g).harts = s.harts := rfl
@[simp] theorem updCore_mgmt : (updCore s n g).mgmt = s.mgmt := rfl
@[simp] theorem updCore_links18 : (updCore s n g).links18 = s.links18 := rfl
@[simp] theorem updCore_lags : (updCore s n g).lags = s.lags := rfl
@[simp] theorem updCore_lastL : (updCore s n g).lastL = s.lastL := rfl
@[simp] theorem updCore_lateCopies : (updCore s n g).lateCopies = s.lateCopies := rfl
@[simp] theorem updCore_lastPace : (updCore s n g).lastPace = s.lastPace := rfl
@[simp] theorem updCore_funcDomain : (updCore s n g).funcDomain = s.funcDomain := rfl
@[simp] theorem updCore_debugOn : (updCore s n g).debugOn = s.debugOn := rfl
@[simp] theorem updCore_memGrants : (updCore s n g).memGrants = s.memGrants := rfl
@[simp] theorem updCore_staged : (updCore s n g).staged = s.staged := rfl
@[simp] theorem updCore_firmware : (updCore s n g).firmware = s.firmware := rfl
@[simp] theorem updCore_boot : (updCore s n g).boot = s.boot := rfl
@[simp] theorem updCore_outputs : (updCore s n g).outputs = s.outputs := rfl
@[simp] theorem updCore_nextId : (updCore s n g).nextId = s.nextId := rfl
@[simp] theorem updCore_hardTrip : (updCore s n g).hardTrip = s.hardTrip := rfl
@[simp] theorem updCore_standby : (updCore s n g).standby = s.standby := rfl

end

section
variable (s : State) (c e : Nat) (g : Engine → Engine)

@[simp] theorem updEngine_agenda : (updEngine s c e g).agenda = s.agenda := rfl
@[simp] theorem updEngine_turn : (updEngine s c e g).turn = s.turn := rfl
@[simp] theorem updEngine_freeCount : (updEngine s c e g).freeCount = s.freeCount := rfl
@[simp] theorem updEngine_time : (updEngine s c e g).time = s.time := rfl
@[simp] theorem updEngine_clocks : (updEngine s c e g).clocks = s.clocks := rfl
@[simp] theorem updEngine_clusters : (updEngine s c e g).clusters = s.clusters := rfl
@[simp] theorem updEngine_powered : (updEngine s c e g).powered = s.powered := rfl
@[simp] theorem updEngine_released : (updEngine s c e g).released = s.released := rfl
@[simp] theorem updEngine_failed : (updEngine s c e g).failed = s.failed := rfl
@[simp] theorem updEngine_regs : (updEngine s c e g).regs = s.regs := rfl
@[simp] theorem updEngine_meas : (updEngine s c e g).meas = s.meas := rfl
@[simp] theorem updEngine_mem : (updEngine s c e g).mem = s.mem := rfl
@[simp] theorem updEngine_slice : (updEngine s c e g).slice = s.slice := rfl
@[simp] theorem updEngine_lines : (updEngine s c e g).lines = s.lines := rfl
@[simp] theorem updEngine_dramPoison : (updEngine s c e g).dramPoison = s.dramPoison := rfl
@[simp] theorem updEngine_badSymbols : (updEngine s c e g).badSymbols = s.badSymbols := rfl
@[simp] theorem updEngine_rewrites : (updEngine s c e g).rewrites = s.rewrites := rfl
@[simp] theorem updEngine_horizon : (updEngine s c e g).horizon = s.horizon := rfl
@[simp] theorem updEngine_maxDone : (updEngine s c e g).maxDone = s.maxDone := rfl
@[simp] theorem updEngine_arb : (updEngine s c e g).arb = s.arb := rfl
@[simp] theorem updEngine_scrubPos : (updEngine s c e g).scrubPos = s.scrubPos := rfl
@[simp] theorem updEngine_links : (updEngine s c e g).links = s.links := rfl
@[simp] theorem updEngine_inbox : (updEngine s c e g).inbox = s.inbox := rfl
@[simp] theorem updEngine_streams : (updEngine s c e g).streams = s.streams := rfl
@[simp] theorem updEngine_changes : (updEngine s c e g).changes = s.changes := rfl
@[simp] theorem updEngine_rmaHeld : (updEngine s c e g).rmaHeld = s.rmaHeld := rfl
@[simp] theorem updEngine_markers : (updEngine s c e g).markers = s.markers := rfl
@[simp] theorem updEngine_protErr : (updEngine s c e g).protErr = s.protErr := rfl
@[simp] theorem updEngine_retests : (updEngine s c e g).retests = s.retests := rfl
@[simp] theorem updEngine_whisk : (updEngine s c e g).whisk = s.whisk := rfl
@[simp] theorem updEngine_branches : (updEngine s c e g).branches = s.branches := rfl
@[simp] theorem updEngine_reductions : (updEngine s c e g).reductions = s.reductions := rfl
@[simp] theorem updEngine_shards : (updEngine s c e g).shards = s.shards := rfl
@[simp] theorem updEngine_pageReqs : (updEngine s c e g).pageReqs = s.pageReqs := rfl
@[simp] theorem updEngine_devWrites : (updEngine s c e g).devWrites = s.devWrites := rfl
@[simp] theorem updEngine_xlatGen : (updEngine s c e g).xlatGen = s.xlatGen := rfl
@[simp] theorem updEngine_inval : (updEngine s c e g).inval = s.inval := rfl
@[simp] theorem updEngine_cores : (updEngine s c e g).cores = s.cores := rfl
@[simp] theorem updEngine_readers : (updEngine s c e g).readers = s.readers := rfl
@[simp] theorem updEngine_teams : (updEngine s c e g).teams = s.teams := rfl
@[simp] theorem updEngine_agents : (updEngine s c e g).agents = s.agents := rfl
@[simp] theorem updEngine_grids : (updEngine s c e g).grids = s.grids := rfl
@[simp] theorem updEngine_queues : (updEngine s c e g).queues = s.queues := rfl
@[simp] theorem updEngine_lastTaken : (updEngine s c e g).lastTaken = s.lastTaken := rfl
@[simp] theorem updEngine_lastTake : (updEngine s c e g).lastTake = s.lastTake := rfl
@[simp] theorem updEngine_curve : (updEngine s c e g).curve = s.curve := rfl
@[simp] theorem updEngine_lastSample : (updEngine s c e g).lastSample = s.lastSample := rfl
@[simp] theorem updEngine_staleSince : (updEngine s c e g).staleSince = s.staleSince := rfl
@[simp] theorem updEngine_energyLeft : (updEngine s c e g).energyLeft = s.energyLeft := rfl
@[simp] theorem updEngine_shedSince : (updEngine s c e g).shedSince = s.shedSince := rfl
@[simp] theorem updEngine_lastBoundary : (updEngine s c e g).lastBoundary = s.lastBoundary := rfl
@[simp] theorem updEngine_logConfigured : (updEngine s c e g).logConfigured = s.logConfigured := rfl
@[simp] theorem updEngine_saves : (updEngine s c e g).saves = s.saves := rfl
@[simp] theorem updEngine_saving : (updEngine s c e g).saving = s.saving := rfl
@[simp] theorem updEngine_em : (updEngine s c e g).em = s.em := rfl
@[simp] theorem updEngine_scanFail : (updEngine s c e g).scanFail = s.scanFail := rfl
@[simp] theorem updEngine_hostHeld : (updEngine s c e g).hostHeld = s.hostHeld := rfl
@[simp] theorem updEngine_snoops : (updEngine s c e g).snoops = s.snoops := rfl
@[simp] theorem updEngine_hostUp : (updEngine s c e g).hostUp = s.hostUp := rfl
@[simp] theorem updEngine_hostDownSince : (updEngine s c e g).hostDownSince = s.hostDownSince := rfl
@[simp] theorem updEngine_hostDone : (updEngine s c e g).hostDone = s.hostDone := rfl
@[simp] theorem updEngine_hostReqs : (updEngine s c e g).hostReqs = s.hostReqs := rfl
@[simp] theorem updEngine_sysReqs : (updEngine s c e g).sysReqs = s.sysReqs := rfl
@[simp] theorem updEngine_reservations : (updEngine s c e g).reservations = s.reservations := rfl
@[simp] theorem updEngine_sbxLines : (updEngine s c e g).sbxLines = s.sbxLines := rfl
@[simp] theorem updEngine_hartRegs : (updEngine s c e g).hartRegs = s.hartRegs := rfl
@[simp] theorem updEngine_hartLines : (updEngine s c e g).hartLines = s.hartLines := rfl
@[simp] theorem updEngine_hartOps : (updEngine s c e g).hartOps = s.hartOps := rfl
@[simp] theorem updEngine_harts : (updEngine s c e g).harts = s.harts := rfl
@[simp] theorem updEngine_mgmt : (updEngine s c e g).mgmt = s.mgmt := rfl
@[simp] theorem updEngine_links18 : (updEngine s c e g).links18 = s.links18 := rfl
@[simp] theorem updEngine_lags : (updEngine s c e g).lags = s.lags := rfl
@[simp] theorem updEngine_lastL : (updEngine s c e g).lastL = s.lastL := rfl
@[simp] theorem updEngine_lateCopies : (updEngine s c e g).lateCopies = s.lateCopies := rfl
@[simp] theorem updEngine_lastPace : (updEngine s c e g).lastPace = s.lastPace := rfl
@[simp] theorem updEngine_funcDomain : (updEngine s c e g).funcDomain = s.funcDomain := rfl
@[simp] theorem updEngine_debugOn : (updEngine s c e g).debugOn = s.debugOn := rfl
@[simp] theorem updEngine_memGrants : (updEngine s c e g).memGrants = s.memGrants := rfl
@[simp] theorem updEngine_staged : (updEngine s c e g).staged = s.staged := rfl
@[simp] theorem updEngine_firmware : (updEngine s c e g).firmware = s.firmware := rfl
@[simp] theorem updEngine_boot : (updEngine s c e g).boot = s.boot := rfl
@[simp] theorem updEngine_outputs : (updEngine s c e g).outputs = s.outputs := rfl
@[simp] theorem updEngine_nextId : (updEngine s c e g).nextId = s.nextId := rfl
@[simp] theorem updEngine_hardTrip : (updEngine s c e g).hardTrip = s.hardTrip := rfl
@[simp] theorem updEngine_standby : (updEngine s c e g).standby = s.standby := rfl

end

section
variable (s : State) (n : Nat) (g : Shard → Shard)

@[simp] theorem updShard_agenda : (updShard s n g).agenda = s.agenda := rfl
@[simp] theorem updShard_turn : (updShard s n g).turn = s.turn := rfl
@[simp] theorem updShard_freeCount : (updShard s n g).freeCount = s.freeCount := rfl
@[simp] theorem updShard_time : (updShard s n g).time = s.time := rfl
@[simp] theorem updShard_clocks : (updShard s n g).clocks = s.clocks := rfl
@[simp] theorem updShard_clusters : (updShard s n g).clusters = s.clusters := rfl
@[simp] theorem updShard_powered : (updShard s n g).powered = s.powered := rfl
@[simp] theorem updShard_released : (updShard s n g).released = s.released := rfl
@[simp] theorem updShard_failed : (updShard s n g).failed = s.failed := rfl
@[simp] theorem updShard_regs : (updShard s n g).regs = s.regs := rfl
@[simp] theorem updShard_meas : (updShard s n g).meas = s.meas := rfl
@[simp] theorem updShard_mem : (updShard s n g).mem = s.mem := rfl
@[simp] theorem updShard_slice : (updShard s n g).slice = s.slice := rfl
@[simp] theorem updShard_lines : (updShard s n g).lines = s.lines := rfl
@[simp] theorem updShard_dramPoison : (updShard s n g).dramPoison = s.dramPoison := rfl
@[simp] theorem updShard_badSymbols : (updShard s n g).badSymbols = s.badSymbols := rfl
@[simp] theorem updShard_rewrites : (updShard s n g).rewrites = s.rewrites := rfl
@[simp] theorem updShard_horizon : (updShard s n g).horizon = s.horizon := rfl
@[simp] theorem updShard_maxDone : (updShard s n g).maxDone = s.maxDone := rfl
@[simp] theorem updShard_arb : (updShard s n g).arb = s.arb := rfl
@[simp] theorem updShard_scrubPos : (updShard s n g).scrubPos = s.scrubPos := rfl
@[simp] theorem updShard_links : (updShard s n g).links = s.links := rfl
@[simp] theorem updShard_inbox : (updShard s n g).inbox = s.inbox := rfl
@[simp] theorem updShard_streams : (updShard s n g).streams = s.streams := rfl
@[simp] theorem updShard_changes : (updShard s n g).changes = s.changes := rfl
@[simp] theorem updShard_rmaHeld : (updShard s n g).rmaHeld = s.rmaHeld := rfl
@[simp] theorem updShard_markers : (updShard s n g).markers = s.markers := rfl
@[simp] theorem updShard_protErr : (updShard s n g).protErr = s.protErr := rfl
@[simp] theorem updShard_retests : (updShard s n g).retests = s.retests := rfl
@[simp] theorem updShard_whisk : (updShard s n g).whisk = s.whisk := rfl
@[simp] theorem updShard_branches : (updShard s n g).branches = s.branches := rfl
@[simp] theorem updShard_reductions : (updShard s n g).reductions = s.reductions := rfl
@[simp] theorem updShard_pageReqs : (updShard s n g).pageReqs = s.pageReqs := rfl
@[simp] theorem updShard_devWrites : (updShard s n g).devWrites = s.devWrites := rfl
@[simp] theorem updShard_xlatGen : (updShard s n g).xlatGen = s.xlatGen := rfl
@[simp] theorem updShard_inval : (updShard s n g).inval = s.inval := rfl
@[simp] theorem updShard_cores : (updShard s n g).cores = s.cores := rfl
@[simp] theorem updShard_readers : (updShard s n g).readers = s.readers := rfl
@[simp] theorem updShard_teams : (updShard s n g).teams = s.teams := rfl
@[simp] theorem updShard_agents : (updShard s n g).agents = s.agents := rfl
@[simp] theorem updShard_engines : (updShard s n g).engines = s.engines := rfl
@[simp] theorem updShard_grids : (updShard s n g).grids = s.grids := rfl
@[simp] theorem updShard_queues : (updShard s n g).queues = s.queues := rfl
@[simp] theorem updShard_lastTaken : (updShard s n g).lastTaken = s.lastTaken := rfl
@[simp] theorem updShard_lastTake : (updShard s n g).lastTake = s.lastTake := rfl
@[simp] theorem updShard_curve : (updShard s n g).curve = s.curve := rfl
@[simp] theorem updShard_lastSample : (updShard s n g).lastSample = s.lastSample := rfl
@[simp] theorem updShard_staleSince : (updShard s n g).staleSince = s.staleSince := rfl
@[simp] theorem updShard_energyLeft : (updShard s n g).energyLeft = s.energyLeft := rfl
@[simp] theorem updShard_shedSince : (updShard s n g).shedSince = s.shedSince := rfl
@[simp] theorem updShard_lastBoundary : (updShard s n g).lastBoundary = s.lastBoundary := rfl
@[simp] theorem updShard_logConfigured : (updShard s n g).logConfigured = s.logConfigured := rfl
@[simp] theorem updShard_saves : (updShard s n g).saves = s.saves := rfl
@[simp] theorem updShard_saving : (updShard s n g).saving = s.saving := rfl
@[simp] theorem updShard_em : (updShard s n g).em = s.em := rfl
@[simp] theorem updShard_scanFail : (updShard s n g).scanFail = s.scanFail := rfl
@[simp] theorem updShard_hostHeld : (updShard s n g).hostHeld = s.hostHeld := rfl
@[simp] theorem updShard_snoops : (updShard s n g).snoops = s.snoops := rfl
@[simp] theorem updShard_hostUp : (updShard s n g).hostUp = s.hostUp := rfl
@[simp] theorem updShard_hostDownSince : (updShard s n g).hostDownSince = s.hostDownSince := rfl
@[simp] theorem updShard_hostDone : (updShard s n g).hostDone = s.hostDone := rfl
@[simp] theorem updShard_hostReqs : (updShard s n g).hostReqs = s.hostReqs := rfl
@[simp] theorem updShard_sysReqs : (updShard s n g).sysReqs = s.sysReqs := rfl
@[simp] theorem updShard_reservations : (updShard s n g).reservations = s.reservations := rfl
@[simp] theorem updShard_sbxLines : (updShard s n g).sbxLines = s.sbxLines := rfl
@[simp] theorem updShard_hartRegs : (updShard s n g).hartRegs = s.hartRegs := rfl
@[simp] theorem updShard_hartLines : (updShard s n g).hartLines = s.hartLines := rfl
@[simp] theorem updShard_hartOps : (updShard s n g).hartOps = s.hartOps := rfl
@[simp] theorem updShard_harts : (updShard s n g).harts = s.harts := rfl
@[simp] theorem updShard_mgmt : (updShard s n g).mgmt = s.mgmt := rfl
@[simp] theorem updShard_links18 : (updShard s n g).links18 = s.links18 := rfl
@[simp] theorem updShard_lags : (updShard s n g).lags = s.lags := rfl
@[simp] theorem updShard_lastL : (updShard s n g).lastL = s.lastL := rfl
@[simp] theorem updShard_lateCopies : (updShard s n g).lateCopies = s.lateCopies := rfl
@[simp] theorem updShard_lastPace : (updShard s n g).lastPace = s.lastPace := rfl
@[simp] theorem updShard_funcDomain : (updShard s n g).funcDomain = s.funcDomain := rfl
@[simp] theorem updShard_debugOn : (updShard s n g).debugOn = s.debugOn := rfl
@[simp] theorem updShard_memGrants : (updShard s n g).memGrants = s.memGrants := rfl
@[simp] theorem updShard_staged : (updShard s n g).staged = s.staged := rfl
@[simp] theorem updShard_firmware : (updShard s n g).firmware = s.firmware := rfl
@[simp] theorem updShard_boot : (updShard s n g).boot = s.boot := rfl
@[simp] theorem updShard_outputs : (updShard s n g).outputs = s.outputs := rfl
@[simp] theorem updShard_nextId : (updShard s n g).nextId = s.nextId := rfl
@[simp] theorem updShard_hardTrip : (updShard s n g).hardTrip = s.hardTrip := rfl
@[simp] theorem updShard_standby : (updShard s n g).standby = s.standby := rfl

end

section
variable (s : State) (r : Reg) (w : Word64)

@[simp] theorem regPut_agenda : (regPut s r w).agenda = s.agenda := rfl
@[simp] theorem regPut_turn : (regPut s r w).turn = s.turn := rfl
@[simp] theorem regPut_freeCount : (regPut s r w).freeCount = s.freeCount := rfl
@[simp] theorem regPut_time : (regPut s r w).time = s.time := rfl
@[simp] theorem regPut_clocks : (regPut s r w).clocks = s.clocks := rfl
@[simp] theorem regPut_clusters : (regPut s r w).clusters = s.clusters := rfl
@[simp] theorem regPut_powered : (regPut s r w).powered = s.powered := rfl
@[simp] theorem regPut_released : (regPut s r w).released = s.released := rfl
@[simp] theorem regPut_failed : (regPut s r w).failed = s.failed := rfl
@[simp] theorem regPut_meas : (regPut s r w).meas = s.meas := rfl
@[simp] theorem regPut_mem : (regPut s r w).mem = s.mem := rfl
@[simp] theorem regPut_slice : (regPut s r w).slice = s.slice := rfl
@[simp] theorem regPut_lines : (regPut s r w).lines = s.lines := rfl
@[simp] theorem regPut_dramPoison : (regPut s r w).dramPoison = s.dramPoison := rfl
@[simp] theorem regPut_badSymbols : (regPut s r w).badSymbols = s.badSymbols := rfl
@[simp] theorem regPut_rewrites : (regPut s r w).rewrites = s.rewrites := rfl
@[simp] theorem regPut_horizon : (regPut s r w).horizon = s.horizon := rfl
@[simp] theorem regPut_maxDone : (regPut s r w).maxDone = s.maxDone := rfl
@[simp] theorem regPut_arb : (regPut s r w).arb = s.arb := rfl
@[simp] theorem regPut_scrubPos : (regPut s r w).scrubPos = s.scrubPos := rfl
@[simp] theorem regPut_links : (regPut s r w).links = s.links := rfl
@[simp] theorem regPut_inbox : (regPut s r w).inbox = s.inbox := rfl
@[simp] theorem regPut_streams : (regPut s r w).streams = s.streams := rfl
@[simp] theorem regPut_changes : (regPut s r w).changes = s.changes := rfl
@[simp] theorem regPut_rmaHeld : (regPut s r w).rmaHeld = s.rmaHeld := rfl
@[simp] theorem regPut_markers : (regPut s r w).markers = s.markers := rfl
@[simp] theorem regPut_protErr : (regPut s r w).protErr = s.protErr := rfl
@[simp] theorem regPut_retests : (regPut s r w).retests = s.retests := rfl
@[simp] theorem regPut_whisk : (regPut s r w).whisk = s.whisk := rfl
@[simp] theorem regPut_branches : (regPut s r w).branches = s.branches := rfl
@[simp] theorem regPut_reductions : (regPut s r w).reductions = s.reductions := rfl
@[simp] theorem regPut_shards : (regPut s r w).shards = s.shards := rfl
@[simp] theorem regPut_pageReqs : (regPut s r w).pageReqs = s.pageReqs := rfl
@[simp] theorem regPut_devWrites : (regPut s r w).devWrites = s.devWrites := rfl
@[simp] theorem regPut_xlatGen : (regPut s r w).xlatGen = s.xlatGen := rfl
@[simp] theorem regPut_inval : (regPut s r w).inval = s.inval := rfl
@[simp] theorem regPut_cores : (regPut s r w).cores = s.cores := rfl
@[simp] theorem regPut_readers : (regPut s r w).readers = s.readers := rfl
@[simp] theorem regPut_teams : (regPut s r w).teams = s.teams := rfl
@[simp] theorem regPut_agents : (regPut s r w).agents = s.agents := rfl
@[simp] theorem regPut_engines : (regPut s r w).engines = s.engines := rfl
@[simp] theorem regPut_grids : (regPut s r w).grids = s.grids := rfl
@[simp] theorem regPut_queues : (regPut s r w).queues = s.queues := rfl
@[simp] theorem regPut_lastTaken : (regPut s r w).lastTaken = s.lastTaken := rfl
@[simp] theorem regPut_lastTake : (regPut s r w).lastTake = s.lastTake := rfl
@[simp] theorem regPut_curve : (regPut s r w).curve = s.curve := rfl
@[simp] theorem regPut_lastSample : (regPut s r w).lastSample = s.lastSample := rfl
@[simp] theorem regPut_staleSince : (regPut s r w).staleSince = s.staleSince := rfl
@[simp] theorem regPut_energyLeft : (regPut s r w).energyLeft = s.energyLeft := rfl
@[simp] theorem regPut_shedSince : (regPut s r w).shedSince = s.shedSince := rfl
@[simp] theorem regPut_lastBoundary : (regPut s r w).lastBoundary = s.lastBoundary := rfl
@[simp] theorem regPut_logConfigured : (regPut s r w).logConfigured = s.logConfigured := rfl
@[simp] theorem regPut_saves : (regPut s r w).saves = s.saves := rfl
@[simp] theorem regPut_saving : (regPut s r w).saving = s.saving := rfl
@[simp] theorem regPut_em : (regPut s r w).em = s.em := rfl
@[simp] theorem regPut_scanFail : (regPut s r w).scanFail = s.scanFail := rfl
@[simp] theorem regPut_hostHeld : (regPut s r w).hostHeld = s.hostHeld := rfl
@[simp] theorem regPut_snoops : (regPut s r w).snoops = s.snoops := rfl
@[simp] theorem regPut_hostUp : (regPut s r w).hostUp = s.hostUp := rfl
@[simp] theorem regPut_hostDownSince : (regPut s r w).hostDownSince = s.hostDownSince := rfl
@[simp] theorem regPut_hostDone : (regPut s r w).hostDone = s.hostDone := rfl
@[simp] theorem regPut_hostReqs : (regPut s r w).hostReqs = s.hostReqs := rfl
@[simp] theorem regPut_sysReqs : (regPut s r w).sysReqs = s.sysReqs := rfl
@[simp] theorem regPut_reservations : (regPut s r w).reservations = s.reservations := rfl
@[simp] theorem regPut_sbxLines : (regPut s r w).sbxLines = s.sbxLines := rfl
@[simp] theorem regPut_hartRegs : (regPut s r w).hartRegs = s.hartRegs := rfl
@[simp] theorem regPut_hartLines : (regPut s r w).hartLines = s.hartLines := rfl
@[simp] theorem regPut_hartOps : (regPut s r w).hartOps = s.hartOps := rfl
@[simp] theorem regPut_harts : (regPut s r w).harts = s.harts := rfl
@[simp] theorem regPut_mgmt : (regPut s r w).mgmt = s.mgmt := rfl
@[simp] theorem regPut_links18 : (regPut s r w).links18 = s.links18 := rfl
@[simp] theorem regPut_lags : (regPut s r w).lags = s.lags := rfl
@[simp] theorem regPut_lastL : (regPut s r w).lastL = s.lastL := rfl
@[simp] theorem regPut_lateCopies : (regPut s r w).lateCopies = s.lateCopies := rfl
@[simp] theorem regPut_lastPace : (regPut s r w).lastPace = s.lastPace := rfl
@[simp] theorem regPut_funcDomain : (regPut s r w).funcDomain = s.funcDomain := rfl
@[simp] theorem regPut_debugOn : (regPut s r w).debugOn = s.debugOn := rfl
@[simp] theorem regPut_memGrants : (regPut s r w).memGrants = s.memGrants := rfl
@[simp] theorem regPut_staged : (regPut s r w).staged = s.staged := rfl
@[simp] theorem regPut_firmware : (regPut s r w).firmware = s.firmware := rfl
@[simp] theorem regPut_boot : (regPut s r w).boot = s.boot := rfl
@[simp] theorem regPut_outputs : (regPut s r w).outputs = s.outputs := rfl
@[simp] theorem regPut_nextId : (regPut s r w).nextId = s.nextId := rfl
@[simp] theorem regPut_hardTrip : (regPut s r w).hardTrip = s.hardTrip := rfl
@[simp] theorem regPut_standby : (regPut s r w).standby = s.standby := rfl

end

section
variable (s : State) (r : Reg) (hi lo x : Nat)

@[simp] theorem regSet_agenda : (regSet s r hi lo x).agenda = s.agenda := rfl
@[simp] theorem regSet_turn : (regSet s r hi lo x).turn = s.turn := rfl
@[simp] theorem regSet_freeCount : (regSet s r hi lo x).freeCount = s.freeCount := rfl
@[simp] theorem regSet_time : (regSet s r hi lo x).time = s.time := rfl
@[simp] theorem regSet_clocks : (regSet s r hi lo x).clocks = s.clocks := rfl
@[simp] theorem regSet_clusters : (regSet s r hi lo x).clusters = s.clusters := rfl
@[simp] theorem regSet_powered : (regSet s r hi lo x).powered = s.powered := rfl
@[simp] theorem regSet_released : (regSet s r hi lo x).released = s.released := rfl
@[simp] theorem regSet_failed : (regSet s r hi lo x).failed = s.failed := rfl
@[simp] theorem regSet_meas : (regSet s r hi lo x).meas = s.meas := rfl
@[simp] theorem regSet_mem : (regSet s r hi lo x).mem = s.mem := rfl
@[simp] theorem regSet_slice : (regSet s r hi lo x).slice = s.slice := rfl
@[simp] theorem regSet_lines : (regSet s r hi lo x).lines = s.lines := rfl
@[simp] theorem regSet_dramPoison : (regSet s r hi lo x).dramPoison = s.dramPoison := rfl
@[simp] theorem regSet_badSymbols : (regSet s r hi lo x).badSymbols = s.badSymbols := rfl
@[simp] theorem regSet_rewrites : (regSet s r hi lo x).rewrites = s.rewrites := rfl
@[simp] theorem regSet_horizon : (regSet s r hi lo x).horizon = s.horizon := rfl
@[simp] theorem regSet_maxDone : (regSet s r hi lo x).maxDone = s.maxDone := rfl
@[simp] theorem regSet_arb : (regSet s r hi lo x).arb = s.arb := rfl
@[simp] theorem regSet_scrubPos : (regSet s r hi lo x).scrubPos = s.scrubPos := rfl
@[simp] theorem regSet_links : (regSet s r hi lo x).links = s.links := rfl
@[simp] theorem regSet_inbox : (regSet s r hi lo x).inbox = s.inbox := rfl
@[simp] theorem regSet_streams : (regSet s r hi lo x).streams = s.streams := rfl
@[simp] theorem regSet_changes : (regSet s r hi lo x).changes = s.changes := rfl
@[simp] theorem regSet_rmaHeld : (regSet s r hi lo x).rmaHeld = s.rmaHeld := rfl
@[simp] theorem regSet_markers : (regSet s r hi lo x).markers = s.markers := rfl
@[simp] theorem regSet_protErr : (regSet s r hi lo x).protErr = s.protErr := rfl
@[simp] theorem regSet_retests : (regSet s r hi lo x).retests = s.retests := rfl
@[simp] theorem regSet_whisk : (regSet s r hi lo x).whisk = s.whisk := rfl
@[simp] theorem regSet_branches : (regSet s r hi lo x).branches = s.branches := rfl
@[simp] theorem regSet_reductions : (regSet s r hi lo x).reductions = s.reductions := rfl
@[simp] theorem regSet_shards : (regSet s r hi lo x).shards = s.shards := rfl
@[simp] theorem regSet_pageReqs : (regSet s r hi lo x).pageReqs = s.pageReqs := rfl
@[simp] theorem regSet_devWrites : (regSet s r hi lo x).devWrites = s.devWrites := rfl
@[simp] theorem regSet_xlatGen : (regSet s r hi lo x).xlatGen = s.xlatGen := rfl
@[simp] theorem regSet_inval : (regSet s r hi lo x).inval = s.inval := rfl
@[simp] theorem regSet_cores : (regSet s r hi lo x).cores = s.cores := rfl
@[simp] theorem regSet_readers : (regSet s r hi lo x).readers = s.readers := rfl
@[simp] theorem regSet_teams : (regSet s r hi lo x).teams = s.teams := rfl
@[simp] theorem regSet_agents : (regSet s r hi lo x).agents = s.agents := rfl
@[simp] theorem regSet_engines : (regSet s r hi lo x).engines = s.engines := rfl
@[simp] theorem regSet_grids : (regSet s r hi lo x).grids = s.grids := rfl
@[simp] theorem regSet_queues : (regSet s r hi lo x).queues = s.queues := rfl
@[simp] theorem regSet_lastTaken : (regSet s r hi lo x).lastTaken = s.lastTaken := rfl
@[simp] theorem regSet_lastTake : (regSet s r hi lo x).lastTake = s.lastTake := rfl
@[simp] theorem regSet_curve : (regSet s r hi lo x).curve = s.curve := rfl
@[simp] theorem regSet_lastSample : (regSet s r hi lo x).lastSample = s.lastSample := rfl
@[simp] theorem regSet_staleSince : (regSet s r hi lo x).staleSince = s.staleSince := rfl
@[simp] theorem regSet_energyLeft : (regSet s r hi lo x).energyLeft = s.energyLeft := rfl
@[simp] theorem regSet_shedSince : (regSet s r hi lo x).shedSince = s.shedSince := rfl
@[simp] theorem regSet_lastBoundary : (regSet s r hi lo x).lastBoundary = s.lastBoundary := rfl
@[simp] theorem regSet_logConfigured : (regSet s r hi lo x).logConfigured = s.logConfigured := rfl
@[simp] theorem regSet_saves : (regSet s r hi lo x).saves = s.saves := rfl
@[simp] theorem regSet_saving : (regSet s r hi lo x).saving = s.saving := rfl
@[simp] theorem regSet_em : (regSet s r hi lo x).em = s.em := rfl
@[simp] theorem regSet_scanFail : (regSet s r hi lo x).scanFail = s.scanFail := rfl
@[simp] theorem regSet_hostHeld : (regSet s r hi lo x).hostHeld = s.hostHeld := rfl
@[simp] theorem regSet_snoops : (regSet s r hi lo x).snoops = s.snoops := rfl
@[simp] theorem regSet_hostUp : (regSet s r hi lo x).hostUp = s.hostUp := rfl
@[simp] theorem regSet_hostDownSince : (regSet s r hi lo x).hostDownSince = s.hostDownSince := rfl
@[simp] theorem regSet_hostDone : (regSet s r hi lo x).hostDone = s.hostDone := rfl
@[simp] theorem regSet_hostReqs : (regSet s r hi lo x).hostReqs = s.hostReqs := rfl
@[simp] theorem regSet_sysReqs : (regSet s r hi lo x).sysReqs = s.sysReqs := rfl
@[simp] theorem regSet_reservations : (regSet s r hi lo x).reservations = s.reservations := rfl
@[simp] theorem regSet_sbxLines : (regSet s r hi lo x).sbxLines = s.sbxLines := rfl
@[simp] theorem regSet_hartRegs : (regSet s r hi lo x).hartRegs = s.hartRegs := rfl
@[simp] theorem regSet_hartLines : (regSet s r hi lo x).hartLines = s.hartLines := rfl
@[simp] theorem regSet_hartOps : (regSet s r hi lo x).hartOps = s.hartOps := rfl
@[simp] theorem regSet_harts : (regSet s r hi lo x).harts = s.harts := rfl
@[simp] theorem regSet_mgmt : (regSet s r hi lo x).mgmt = s.mgmt := rfl
@[simp] theorem regSet_links18 : (regSet s r hi lo x).links18 = s.links18 := rfl
@[simp] theorem regSet_lags : (regSet s r hi lo x).lags = s.lags := rfl
@[simp] theorem regSet_lastL : (regSet s r hi lo x).lastL = s.lastL := rfl
@[simp] theorem regSet_lateCopies : (regSet s r hi lo x).lateCopies = s.lateCopies := rfl
@[simp] theorem regSet_lastPace : (regSet s r hi lo x).lastPace = s.lastPace := rfl
@[simp] theorem regSet_funcDomain : (regSet s r hi lo x).funcDomain = s.funcDomain := rfl
@[simp] theorem regSet_debugOn : (regSet s r hi lo x).debugOn = s.debugOn := rfl
@[simp] theorem regSet_memGrants : (regSet s r hi lo x).memGrants = s.memGrants := rfl
@[simp] theorem regSet_staged : (regSet s r hi lo x).staged = s.staged := rfl
@[simp] theorem regSet_firmware : (regSet s r hi lo x).firmware = s.firmware := rfl
@[simp] theorem regSet_boot : (regSet s r hi lo x).boot = s.boot := rfl
@[simp] theorem regSet_outputs : (regSet s r hi lo x).outputs = s.outputs := rfl
@[simp] theorem regSet_nextId : (regSet s r hi lo x).nextId = s.nextId := rfl
@[simp] theorem regSet_hardTrip : (regSet s r hi lo x).hardTrip = s.hardTrip := rfl
@[simp] theorem regSet_standby : (regSet s r hi lo x).standby = s.standby := rfl

end

section
variable (s : State) (r : Reg) (i : Nat) (b : Bool)

@[simp] theorem regSetBit_agenda : (regSetBit s r i b).agenda = s.agenda := rfl
@[simp] theorem regSetBit_turn : (regSetBit s r i b).turn = s.turn := rfl
@[simp] theorem regSetBit_freeCount : (regSetBit s r i b).freeCount = s.freeCount := rfl
@[simp] theorem regSetBit_time : (regSetBit s r i b).time = s.time := rfl
@[simp] theorem regSetBit_clocks : (regSetBit s r i b).clocks = s.clocks := rfl
@[simp] theorem regSetBit_clusters : (regSetBit s r i b).clusters = s.clusters := rfl
@[simp] theorem regSetBit_powered : (regSetBit s r i b).powered = s.powered := rfl
@[simp] theorem regSetBit_released : (regSetBit s r i b).released = s.released := rfl
@[simp] theorem regSetBit_failed : (regSetBit s r i b).failed = s.failed := rfl
@[simp] theorem regSetBit_meas : (regSetBit s r i b).meas = s.meas := rfl
@[simp] theorem regSetBit_mem : (regSetBit s r i b).mem = s.mem := rfl
@[simp] theorem regSetBit_slice : (regSetBit s r i b).slice = s.slice := rfl
@[simp] theorem regSetBit_lines : (regSetBit s r i b).lines = s.lines := rfl
@[simp] theorem regSetBit_dramPoison : (regSetBit s r i b).dramPoison = s.dramPoison := rfl
@[simp] theorem regSetBit_badSymbols : (regSetBit s r i b).badSymbols = s.badSymbols := rfl
@[simp] theorem regSetBit_rewrites : (regSetBit s r i b).rewrites = s.rewrites := rfl
@[simp] theorem regSetBit_horizon : (regSetBit s r i b).horizon = s.horizon := rfl
@[simp] theorem regSetBit_maxDone : (regSetBit s r i b).maxDone = s.maxDone := rfl
@[simp] theorem regSetBit_arb : (regSetBit s r i b).arb = s.arb := rfl
@[simp] theorem regSetBit_scrubPos : (regSetBit s r i b).scrubPos = s.scrubPos := rfl
@[simp] theorem regSetBit_links : (regSetBit s r i b).links = s.links := rfl
@[simp] theorem regSetBit_inbox : (regSetBit s r i b).inbox = s.inbox := rfl
@[simp] theorem regSetBit_streams : (regSetBit s r i b).streams = s.streams := rfl
@[simp] theorem regSetBit_changes : (regSetBit s r i b).changes = s.changes := rfl
@[simp] theorem regSetBit_rmaHeld : (regSetBit s r i b).rmaHeld = s.rmaHeld := rfl
@[simp] theorem regSetBit_markers : (regSetBit s r i b).markers = s.markers := rfl
@[simp] theorem regSetBit_protErr : (regSetBit s r i b).protErr = s.protErr := rfl
@[simp] theorem regSetBit_retests : (regSetBit s r i b).retests = s.retests := rfl
@[simp] theorem regSetBit_whisk : (regSetBit s r i b).whisk = s.whisk := rfl
@[simp] theorem regSetBit_branches : (regSetBit s r i b).branches = s.branches := rfl
@[simp] theorem regSetBit_reductions : (regSetBit s r i b).reductions = s.reductions := rfl
@[simp] theorem regSetBit_shards : (regSetBit s r i b).shards = s.shards := rfl
@[simp] theorem regSetBit_pageReqs : (regSetBit s r i b).pageReqs = s.pageReqs := rfl
@[simp] theorem regSetBit_devWrites : (regSetBit s r i b).devWrites = s.devWrites := rfl
@[simp] theorem regSetBit_xlatGen : (regSetBit s r i b).xlatGen = s.xlatGen := rfl
@[simp] theorem regSetBit_inval : (regSetBit s r i b).inval = s.inval := rfl
@[simp] theorem regSetBit_cores : (regSetBit s r i b).cores = s.cores := rfl
@[simp] theorem regSetBit_readers : (regSetBit s r i b).readers = s.readers := rfl
@[simp] theorem regSetBit_teams : (regSetBit s r i b).teams = s.teams := rfl
@[simp] theorem regSetBit_agents : (regSetBit s r i b).agents = s.agents := rfl
@[simp] theorem regSetBit_engines : (regSetBit s r i b).engines = s.engines := rfl
@[simp] theorem regSetBit_grids : (regSetBit s r i b).grids = s.grids := rfl
@[simp] theorem regSetBit_queues : (regSetBit s r i b).queues = s.queues := rfl
@[simp] theorem regSetBit_lastTaken : (regSetBit s r i b).lastTaken = s.lastTaken := rfl
@[simp] theorem regSetBit_lastTake : (regSetBit s r i b).lastTake = s.lastTake := rfl
@[simp] theorem regSetBit_curve : (regSetBit s r i b).curve = s.curve := rfl
@[simp] theorem regSetBit_lastSample : (regSetBit s r i b).lastSample = s.lastSample := rfl
@[simp] theorem regSetBit_staleSince : (regSetBit s r i b).staleSince = s.staleSince := rfl
@[simp] theorem regSetBit_energyLeft : (regSetBit s r i b).energyLeft = s.energyLeft := rfl
@[simp] theorem regSetBit_shedSince : (regSetBit s r i b).shedSince = s.shedSince := rfl
@[simp] theorem regSetBit_lastBoundary : (regSetBit s r i b).lastBoundary = s.lastBoundary := rfl
@[simp] theorem regSetBit_logConfigured : (regSetBit s r i b).logConfigured = s.logConfigured := rfl
@[simp] theorem regSetBit_saves : (regSetBit s r i b).saves = s.saves := rfl
@[simp] theorem regSetBit_saving : (regSetBit s r i b).saving = s.saving := rfl
@[simp] theorem regSetBit_em : (regSetBit s r i b).em = s.em := rfl
@[simp] theorem regSetBit_scanFail : (regSetBit s r i b).scanFail = s.scanFail := rfl
@[simp] theorem regSetBit_hostHeld : (regSetBit s r i b).hostHeld = s.hostHeld := rfl
@[simp] theorem regSetBit_snoops : (regSetBit s r i b).snoops = s.snoops := rfl
@[simp] theorem regSetBit_hostUp : (regSetBit s r i b).hostUp = s.hostUp := rfl
@[simp] theorem regSetBit_hostDownSince : (regSetBit s r i b).hostDownSince = s.hostDownSince := rfl
@[simp] theorem regSetBit_hostDone : (regSetBit s r i b).hostDone = s.hostDone := rfl
@[simp] theorem regSetBit_hostReqs : (regSetBit s r i b).hostReqs = s.hostReqs := rfl
@[simp] theorem regSetBit_sysReqs : (regSetBit s r i b).sysReqs = s.sysReqs := rfl
@[simp] theorem regSetBit_reservations : (regSetBit s r i b).reservations = s.reservations := rfl
@[simp] theorem regSetBit_sbxLines : (regSetBit s r i b).sbxLines = s.sbxLines := rfl
@[simp] theorem regSetBit_hartRegs : (regSetBit s r i b).hartRegs = s.hartRegs := rfl
@[simp] theorem regSetBit_hartLines : (regSetBit s r i b).hartLines = s.hartLines := rfl
@[simp] theorem regSetBit_hartOps : (regSetBit s r i b).hartOps = s.hartOps := rfl
@[simp] theorem regSetBit_harts : (regSetBit s r i b).harts = s.harts := rfl
@[simp] theorem regSetBit_mgmt : (regSetBit s r i b).mgmt = s.mgmt := rfl
@[simp] theorem regSetBit_links18 : (regSetBit s r i b).links18 = s.links18 := rfl
@[simp] theorem regSetBit_lags : (regSetBit s r i b).lags = s.lags := rfl
@[simp] theorem regSetBit_lastL : (regSetBit s r i b).lastL = s.lastL := rfl
@[simp] theorem regSetBit_lateCopies : (regSetBit s r i b).lateCopies = s.lateCopies := rfl
@[simp] theorem regSetBit_lastPace : (regSetBit s r i b).lastPace = s.lastPace := rfl
@[simp] theorem regSetBit_funcDomain : (regSetBit s r i b).funcDomain = s.funcDomain := rfl
@[simp] theorem regSetBit_debugOn : (regSetBit s r i b).debugOn = s.debugOn := rfl
@[simp] theorem regSetBit_memGrants : (regSetBit s r i b).memGrants = s.memGrants := rfl
@[simp] theorem regSetBit_staged : (regSetBit s r i b).staged = s.staged := rfl
@[simp] theorem regSetBit_firmware : (regSetBit s r i b).firmware = s.firmware := rfl
@[simp] theorem regSetBit_boot : (regSetBit s r i b).boot = s.boot := rfl
@[simp] theorem regSetBit_outputs : (regSetBit s r i b).outputs = s.outputs := rfl
@[simp] theorem regSetBit_nextId : (regSetBit s r i b).nextId = s.nextId := rfl
@[simp] theorem regSetBit_hardTrip : (regSetBit s r i b).hardTrip = s.hardTrip := rfl
@[simp] theorem regSetBit_standby : (regSetBit s r i b).standby = s.standby := rfl

end

section
variable (s : State) (id : Nat) (f : Reader → Reader)

@[simp] theorem updReader_agenda : (updReader s id f).agenda = s.agenda := rfl
@[simp] theorem updReader_turn : (updReader s id f).turn = s.turn := rfl
@[simp] theorem updReader_freeCount : (updReader s id f).freeCount = s.freeCount := rfl
@[simp] theorem updReader_time : (updReader s id f).time = s.time := rfl
@[simp] theorem updReader_clocks : (updReader s id f).clocks = s.clocks := rfl
@[simp] theorem updReader_clusters : (updReader s id f).clusters = s.clusters := rfl
@[simp] theorem updReader_powered : (updReader s id f).powered = s.powered := rfl
@[simp] theorem updReader_released : (updReader s id f).released = s.released := rfl
@[simp] theorem updReader_failed : (updReader s id f).failed = s.failed := rfl
@[simp] theorem updReader_regs : (updReader s id f).regs = s.regs := rfl
@[simp] theorem updReader_meas : (updReader s id f).meas = s.meas := rfl
@[simp] theorem updReader_mem : (updReader s id f).mem = s.mem := rfl
@[simp] theorem updReader_slice : (updReader s id f).slice = s.slice := rfl
@[simp] theorem updReader_lines : (updReader s id f).lines = s.lines := rfl
@[simp] theorem updReader_dramPoison : (updReader s id f).dramPoison = s.dramPoison := rfl
@[simp] theorem updReader_badSymbols : (updReader s id f).badSymbols = s.badSymbols := rfl
@[simp] theorem updReader_rewrites : (updReader s id f).rewrites = s.rewrites := rfl
@[simp] theorem updReader_horizon : (updReader s id f).horizon = s.horizon := rfl
@[simp] theorem updReader_maxDone : (updReader s id f).maxDone = s.maxDone := rfl
@[simp] theorem updReader_arb : (updReader s id f).arb = s.arb := rfl
@[simp] theorem updReader_scrubPos : (updReader s id f).scrubPos = s.scrubPos := rfl
@[simp] theorem updReader_links : (updReader s id f).links = s.links := rfl
@[simp] theorem updReader_inbox : (updReader s id f).inbox = s.inbox := rfl
@[simp] theorem updReader_streams : (updReader s id f).streams = s.streams := rfl
@[simp] theorem updReader_changes : (updReader s id f).changes = s.changes := rfl
@[simp] theorem updReader_rmaHeld : (updReader s id f).rmaHeld = s.rmaHeld := rfl
@[simp] theorem updReader_markers : (updReader s id f).markers = s.markers := rfl
@[simp] theorem updReader_protErr : (updReader s id f).protErr = s.protErr := rfl
@[simp] theorem updReader_retests : (updReader s id f).retests = s.retests := rfl
@[simp] theorem updReader_whisk : (updReader s id f).whisk = s.whisk := rfl
@[simp] theorem updReader_branches : (updReader s id f).branches = s.branches := rfl
@[simp] theorem updReader_reductions : (updReader s id f).reductions = s.reductions := rfl
@[simp] theorem updReader_shards : (updReader s id f).shards = s.shards := rfl
@[simp] theorem updReader_pageReqs : (updReader s id f).pageReqs = s.pageReqs := rfl
@[simp] theorem updReader_devWrites : (updReader s id f).devWrites = s.devWrites := rfl
@[simp] theorem updReader_xlatGen : (updReader s id f).xlatGen = s.xlatGen := rfl
@[simp] theorem updReader_inval : (updReader s id f).inval = s.inval := rfl
@[simp] theorem updReader_cores : (updReader s id f).cores = s.cores := rfl
@[simp] theorem updReader_teams : (updReader s id f).teams = s.teams := rfl
@[simp] theorem updReader_agents : (updReader s id f).agents = s.agents := rfl
@[simp] theorem updReader_engines : (updReader s id f).engines = s.engines := rfl
@[simp] theorem updReader_grids : (updReader s id f).grids = s.grids := rfl
@[simp] theorem updReader_queues : (updReader s id f).queues = s.queues := rfl
@[simp] theorem updReader_lastTaken : (updReader s id f).lastTaken = s.lastTaken := rfl
@[simp] theorem updReader_lastTake : (updReader s id f).lastTake = s.lastTake := rfl
@[simp] theorem updReader_curve : (updReader s id f).curve = s.curve := rfl
@[simp] theorem updReader_lastSample : (updReader s id f).lastSample = s.lastSample := rfl
@[simp] theorem updReader_staleSince : (updReader s id f).staleSince = s.staleSince := rfl
@[simp] theorem updReader_energyLeft : (updReader s id f).energyLeft = s.energyLeft := rfl
@[simp] theorem updReader_shedSince : (updReader s id f).shedSince = s.shedSince := rfl
@[simp] theorem updReader_lastBoundary : (updReader s id f).lastBoundary = s.lastBoundary := rfl
@[simp] theorem updReader_logConfigured : (updReader s id f).logConfigured = s.logConfigured := rfl
@[simp] theorem updReader_saves : (updReader s id f).saves = s.saves := rfl
@[simp] theorem updReader_saving : (updReader s id f).saving = s.saving := rfl
@[simp] theorem updReader_em : (updReader s id f).em = s.em := rfl
@[simp] theorem updReader_scanFail : (updReader s id f).scanFail = s.scanFail := rfl
@[simp] theorem updReader_hostHeld : (updReader s id f).hostHeld = s.hostHeld := rfl
@[simp] theorem updReader_snoops : (updReader s id f).snoops = s.snoops := rfl
@[simp] theorem updReader_hostUp : (updReader s id f).hostUp = s.hostUp := rfl
@[simp] theorem updReader_hostDownSince : (updReader s id f).hostDownSince = s.hostDownSince := rfl
@[simp] theorem updReader_hostDone : (updReader s id f).hostDone = s.hostDone := rfl
@[simp] theorem updReader_hostReqs : (updReader s id f).hostReqs = s.hostReqs := rfl
@[simp] theorem updReader_sysReqs : (updReader s id f).sysReqs = s.sysReqs := rfl
@[simp] theorem updReader_reservations : (updReader s id f).reservations = s.reservations := rfl
@[simp] theorem updReader_sbxLines : (updReader s id f).sbxLines = s.sbxLines := rfl
@[simp] theorem updReader_hartRegs : (updReader s id f).hartRegs = s.hartRegs := rfl
@[simp] theorem updReader_hartLines : (updReader s id f).hartLines = s.hartLines := rfl
@[simp] theorem updReader_hartOps : (updReader s id f).hartOps = s.hartOps := rfl
@[simp] theorem updReader_harts : (updReader s id f).harts = s.harts := rfl
@[simp] theorem updReader_mgmt : (updReader s id f).mgmt = s.mgmt := rfl
@[simp] theorem updReader_links18 : (updReader s id f).links18 = s.links18 := rfl
@[simp] theorem updReader_lags : (updReader s id f).lags = s.lags := rfl
@[simp] theorem updReader_lastL : (updReader s id f).lastL = s.lastL := rfl
@[simp] theorem updReader_lateCopies : (updReader s id f).lateCopies = s.lateCopies := rfl
@[simp] theorem updReader_lastPace : (updReader s id f).lastPace = s.lastPace := rfl
@[simp] theorem updReader_funcDomain : (updReader s id f).funcDomain = s.funcDomain := rfl
@[simp] theorem updReader_debugOn : (updReader s id f).debugOn = s.debugOn := rfl
@[simp] theorem updReader_memGrants : (updReader s id f).memGrants = s.memGrants := rfl
@[simp] theorem updReader_staged : (updReader s id f).staged = s.staged := rfl
@[simp] theorem updReader_firmware : (updReader s id f).firmware = s.firmware := rfl
@[simp] theorem updReader_boot : (updReader s id f).boot = s.boot := rfl
@[simp] theorem updReader_outputs : (updReader s id f).outputs = s.outputs := rfl
@[simp] theorem updReader_nextId : (updReader s id f).nextId = s.nextId := rfl
@[simp] theorem updReader_hardTrip : (updReader s id f).hardTrip = s.hardTrip := rfl
@[simp] theorem updReader_standby : (updReader s id f).standby = s.standby := rfl

end

section
variable (s : State) (o : Output)

@[simp] theorem emitOut_agenda : (emitOut s o).agenda = s.agenda := rfl
@[simp] theorem emitOut_turn : (emitOut s o).turn = s.turn := rfl
@[simp] theorem emitOut_freeCount : (emitOut s o).freeCount = s.freeCount := rfl
@[simp] theorem emitOut_time : (emitOut s o).time = s.time := rfl
@[simp] theorem emitOut_clocks : (emitOut s o).clocks = s.clocks := rfl
@[simp] theorem emitOut_clusters : (emitOut s o).clusters = s.clusters := rfl
@[simp] theorem emitOut_powered : (emitOut s o).powered = s.powered := rfl
@[simp] theorem emitOut_released : (emitOut s o).released = s.released := rfl
@[simp] theorem emitOut_failed : (emitOut s o).failed = s.failed := rfl
@[simp] theorem emitOut_regs : (emitOut s o).regs = s.regs := rfl
@[simp] theorem emitOut_meas : (emitOut s o).meas = s.meas := rfl
@[simp] theorem emitOut_mem : (emitOut s o).mem = s.mem := rfl
@[simp] theorem emitOut_slice : (emitOut s o).slice = s.slice := rfl
@[simp] theorem emitOut_lines : (emitOut s o).lines = s.lines := rfl
@[simp] theorem emitOut_dramPoison : (emitOut s o).dramPoison = s.dramPoison := rfl
@[simp] theorem emitOut_badSymbols : (emitOut s o).badSymbols = s.badSymbols := rfl
@[simp] theorem emitOut_rewrites : (emitOut s o).rewrites = s.rewrites := rfl
@[simp] theorem emitOut_horizon : (emitOut s o).horizon = s.horizon := rfl
@[simp] theorem emitOut_maxDone : (emitOut s o).maxDone = s.maxDone := rfl
@[simp] theorem emitOut_arb : (emitOut s o).arb = s.arb := rfl
@[simp] theorem emitOut_scrubPos : (emitOut s o).scrubPos = s.scrubPos := rfl
@[simp] theorem emitOut_links : (emitOut s o).links = s.links := rfl
@[simp] theorem emitOut_inbox : (emitOut s o).inbox = s.inbox := rfl
@[simp] theorem emitOut_streams : (emitOut s o).streams = s.streams := rfl
@[simp] theorem emitOut_changes : (emitOut s o).changes = s.changes := rfl
@[simp] theorem emitOut_rmaHeld : (emitOut s o).rmaHeld = s.rmaHeld := rfl
@[simp] theorem emitOut_markers : (emitOut s o).markers = s.markers := rfl
@[simp] theorem emitOut_protErr : (emitOut s o).protErr = s.protErr := rfl
@[simp] theorem emitOut_retests : (emitOut s o).retests = s.retests := rfl
@[simp] theorem emitOut_whisk : (emitOut s o).whisk = s.whisk := rfl
@[simp] theorem emitOut_branches : (emitOut s o).branches = s.branches := rfl
@[simp] theorem emitOut_reductions : (emitOut s o).reductions = s.reductions := rfl
@[simp] theorem emitOut_shards : (emitOut s o).shards = s.shards := rfl
@[simp] theorem emitOut_pageReqs : (emitOut s o).pageReqs = s.pageReqs := rfl
@[simp] theorem emitOut_devWrites : (emitOut s o).devWrites = s.devWrites := rfl
@[simp] theorem emitOut_xlatGen : (emitOut s o).xlatGen = s.xlatGen := rfl
@[simp] theorem emitOut_inval : (emitOut s o).inval = s.inval := rfl
@[simp] theorem emitOut_cores : (emitOut s o).cores = s.cores := rfl
@[simp] theorem emitOut_readers : (emitOut s o).readers = s.readers := rfl
@[simp] theorem emitOut_teams : (emitOut s o).teams = s.teams := rfl
@[simp] theorem emitOut_agents : (emitOut s o).agents = s.agents := rfl
@[simp] theorem emitOut_engines : (emitOut s o).engines = s.engines := rfl
@[simp] theorem emitOut_grids : (emitOut s o).grids = s.grids := rfl
@[simp] theorem emitOut_queues : (emitOut s o).queues = s.queues := rfl
@[simp] theorem emitOut_lastTaken : (emitOut s o).lastTaken = s.lastTaken := rfl
@[simp] theorem emitOut_lastTake : (emitOut s o).lastTake = s.lastTake := rfl
@[simp] theorem emitOut_curve : (emitOut s o).curve = s.curve := rfl
@[simp] theorem emitOut_lastSample : (emitOut s o).lastSample = s.lastSample := rfl
@[simp] theorem emitOut_staleSince : (emitOut s o).staleSince = s.staleSince := rfl
@[simp] theorem emitOut_energyLeft : (emitOut s o).energyLeft = s.energyLeft := rfl
@[simp] theorem emitOut_shedSince : (emitOut s o).shedSince = s.shedSince := rfl
@[simp] theorem emitOut_lastBoundary : (emitOut s o).lastBoundary = s.lastBoundary := rfl
@[simp] theorem emitOut_logConfigured : (emitOut s o).logConfigured = s.logConfigured := rfl
@[simp] theorem emitOut_saves : (emitOut s o).saves = s.saves := rfl
@[simp] theorem emitOut_saving : (emitOut s o).saving = s.saving := rfl
@[simp] theorem emitOut_em : (emitOut s o).em = s.em := rfl
@[simp] theorem emitOut_scanFail : (emitOut s o).scanFail = s.scanFail := rfl
@[simp] theorem emitOut_hostHeld : (emitOut s o).hostHeld = s.hostHeld := rfl
@[simp] theorem emitOut_snoops : (emitOut s o).snoops = s.snoops := rfl
@[simp] theorem emitOut_hostUp : (emitOut s o).hostUp = s.hostUp := rfl
@[simp] theorem emitOut_hostDownSince : (emitOut s o).hostDownSince = s.hostDownSince := rfl
@[simp] theorem emitOut_hostDone : (emitOut s o).hostDone = s.hostDone := rfl
@[simp] theorem emitOut_hostReqs : (emitOut s o).hostReqs = s.hostReqs := rfl
@[simp] theorem emitOut_sysReqs : (emitOut s o).sysReqs = s.sysReqs := rfl
@[simp] theorem emitOut_reservations : (emitOut s o).reservations = s.reservations := rfl
@[simp] theorem emitOut_sbxLines : (emitOut s o).sbxLines = s.sbxLines := rfl
@[simp] theorem emitOut_hartRegs : (emitOut s o).hartRegs = s.hartRegs := rfl
@[simp] theorem emitOut_hartLines : (emitOut s o).hartLines = s.hartLines := rfl
@[simp] theorem emitOut_hartOps : (emitOut s o).hartOps = s.hartOps := rfl
@[simp] theorem emitOut_harts : (emitOut s o).harts = s.harts := rfl
@[simp] theorem emitOut_mgmt : (emitOut s o).mgmt = s.mgmt := rfl
@[simp] theorem emitOut_links18 : (emitOut s o).links18 = s.links18 := rfl
@[simp] theorem emitOut_lags : (emitOut s o).lags = s.lags := rfl
@[simp] theorem emitOut_lastL : (emitOut s o).lastL = s.lastL := rfl
@[simp] theorem emitOut_lateCopies : (emitOut s o).lateCopies = s.lateCopies := rfl
@[simp] theorem emitOut_lastPace : (emitOut s o).lastPace = s.lastPace := rfl
@[simp] theorem emitOut_funcDomain : (emitOut s o).funcDomain = s.funcDomain := rfl
@[simp] theorem emitOut_debugOn : (emitOut s o).debugOn = s.debugOn := rfl
@[simp] theorem emitOut_memGrants : (emitOut s o).memGrants = s.memGrants := rfl
@[simp] theorem emitOut_staged : (emitOut s o).staged = s.staged := rfl
@[simp] theorem emitOut_firmware : (emitOut s o).firmware = s.firmware := rfl
@[simp] theorem emitOut_boot : (emitOut s o).boot = s.boot := rfl
@[simp] theorem emitOut_nextId : (emitOut s o).nextId = s.nextId := rfl
@[simp] theorem emitOut_hardTrip : (emitOut s o).hardTrip = s.hardTrip := rfl
@[simp] theorem emitOut_standby : (emitOut s o).standby = s.standby := rfl

end

section
variable (s : State) (m n : Nat)

@[simp] theorem raiseVector_agenda : (raiseVector s m n).agenda = s.agenda := rfl
@[simp] theorem raiseVector_turn : (raiseVector s m n).turn = s.turn := rfl
@[simp] theorem raiseVector_freeCount : (raiseVector s m n).freeCount = s.freeCount := rfl
@[simp] theorem raiseVector_time : (raiseVector s m n).time = s.time := rfl
@[simp] theorem raiseVector_clocks : (raiseVector s m n).clocks = s.clocks := rfl
@[simp] theorem raiseVector_clusters : (raiseVector s m n).clusters = s.clusters := rfl
@[simp] theorem raiseVector_powered : (raiseVector s m n).powered = s.powered := rfl
@[simp] theorem raiseVector_released : (raiseVector s m n).released = s.released := rfl
@[simp] theorem raiseVector_failed : (raiseVector s m n).failed = s.failed := rfl
@[simp] theorem raiseVector_regs : (raiseVector s m n).regs = s.regs := rfl
@[simp] theorem raiseVector_meas : (raiseVector s m n).meas = s.meas := rfl
@[simp] theorem raiseVector_mem : (raiseVector s m n).mem = s.mem := rfl
@[simp] theorem raiseVector_slice : (raiseVector s m n).slice = s.slice := rfl
@[simp] theorem raiseVector_lines : (raiseVector s m n).lines = s.lines := rfl
@[simp] theorem raiseVector_dramPoison : (raiseVector s m n).dramPoison = s.dramPoison := rfl
@[simp] theorem raiseVector_badSymbols : (raiseVector s m n).badSymbols = s.badSymbols := rfl
@[simp] theorem raiseVector_rewrites : (raiseVector s m n).rewrites = s.rewrites := rfl
@[simp] theorem raiseVector_horizon : (raiseVector s m n).horizon = s.horizon := rfl
@[simp] theorem raiseVector_maxDone : (raiseVector s m n).maxDone = s.maxDone := rfl
@[simp] theorem raiseVector_arb : (raiseVector s m n).arb = s.arb := rfl
@[simp] theorem raiseVector_scrubPos : (raiseVector s m n).scrubPos = s.scrubPos := rfl
@[simp] theorem raiseVector_links : (raiseVector s m n).links = s.links := rfl
@[simp] theorem raiseVector_inbox : (raiseVector s m n).inbox = s.inbox := rfl
@[simp] theorem raiseVector_streams : (raiseVector s m n).streams = s.streams := rfl
@[simp] theorem raiseVector_changes : (raiseVector s m n).changes = s.changes := rfl
@[simp] theorem raiseVector_rmaHeld : (raiseVector s m n).rmaHeld = s.rmaHeld := rfl
@[simp] theorem raiseVector_markers : (raiseVector s m n).markers = s.markers := rfl
@[simp] theorem raiseVector_protErr : (raiseVector s m n).protErr = s.protErr := rfl
@[simp] theorem raiseVector_retests : (raiseVector s m n).retests = s.retests := rfl
@[simp] theorem raiseVector_whisk : (raiseVector s m n).whisk = s.whisk := rfl
@[simp] theorem raiseVector_branches : (raiseVector s m n).branches = s.branches := rfl
@[simp] theorem raiseVector_reductions : (raiseVector s m n).reductions = s.reductions := rfl
@[simp] theorem raiseVector_shards : (raiseVector s m n).shards = s.shards := rfl
@[simp] theorem raiseVector_pageReqs : (raiseVector s m n).pageReqs = s.pageReqs := rfl
@[simp] theorem raiseVector_devWrites : (raiseVector s m n).devWrites = s.devWrites := rfl
@[simp] theorem raiseVector_xlatGen : (raiseVector s m n).xlatGen = s.xlatGen := rfl
@[simp] theorem raiseVector_inval : (raiseVector s m n).inval = s.inval := rfl
@[simp] theorem raiseVector_cores : (raiseVector s m n).cores = s.cores := rfl
@[simp] theorem raiseVector_readers : (raiseVector s m n).readers = s.readers := rfl
@[simp] theorem raiseVector_teams : (raiseVector s m n).teams = s.teams := rfl
@[simp] theorem raiseVector_agents : (raiseVector s m n).agents = s.agents := rfl
@[simp] theorem raiseVector_engines : (raiseVector s m n).engines = s.engines := rfl
@[simp] theorem raiseVector_grids : (raiseVector s m n).grids = s.grids := rfl
@[simp] theorem raiseVector_queues : (raiseVector s m n).queues = s.queues := rfl
@[simp] theorem raiseVector_lastTaken : (raiseVector s m n).lastTaken = s.lastTaken := rfl
@[simp] theorem raiseVector_lastTake : (raiseVector s m n).lastTake = s.lastTake := rfl
@[simp] theorem raiseVector_curve : (raiseVector s m n).curve = s.curve := rfl
@[simp] theorem raiseVector_lastSample : (raiseVector s m n).lastSample = s.lastSample := rfl
@[simp] theorem raiseVector_staleSince : (raiseVector s m n).staleSince = s.staleSince := rfl
@[simp] theorem raiseVector_energyLeft : (raiseVector s m n).energyLeft = s.energyLeft := rfl
@[simp] theorem raiseVector_shedSince : (raiseVector s m n).shedSince = s.shedSince := rfl
@[simp] theorem raiseVector_lastBoundary : (raiseVector s m n).lastBoundary = s.lastBoundary := rfl
@[simp] theorem raiseVector_logConfigured : (raiseVector s m n).logConfigured = s.logConfigured := rfl
@[simp] theorem raiseVector_saves : (raiseVector s m n).saves = s.saves := rfl
@[simp] theorem raiseVector_saving : (raiseVector s m n).saving = s.saving := rfl
@[simp] theorem raiseVector_em : (raiseVector s m n).em = s.em := rfl
@[simp] theorem raiseVector_scanFail : (raiseVector s m n).scanFail = s.scanFail := rfl
@[simp] theorem raiseVector_hostHeld : (raiseVector s m n).hostHeld = s.hostHeld := rfl
@[simp] theorem raiseVector_snoops : (raiseVector s m n).snoops = s.snoops := rfl
@[simp] theorem raiseVector_hostUp : (raiseVector s m n).hostUp = s.hostUp := rfl
@[simp] theorem raiseVector_hostDownSince : (raiseVector s m n).hostDownSince = s.hostDownSince := rfl
@[simp] theorem raiseVector_hostDone : (raiseVector s m n).hostDone = s.hostDone := rfl
@[simp] theorem raiseVector_hostReqs : (raiseVector s m n).hostReqs = s.hostReqs := rfl
@[simp] theorem raiseVector_sysReqs : (raiseVector s m n).sysReqs = s.sysReqs := rfl
@[simp] theorem raiseVector_reservations : (raiseVector s m n).reservations = s.reservations := rfl
@[simp] theorem raiseVector_sbxLines : (raiseVector s m n).sbxLines = s.sbxLines := rfl
@[simp] theorem raiseVector_hartRegs : (raiseVector s m n).hartRegs = s.hartRegs := rfl
@[simp] theorem raiseVector_hartLines : (raiseVector s m n).hartLines = s.hartLines := rfl
@[simp] theorem raiseVector_hartOps : (raiseVector s m n).hartOps = s.hartOps := rfl
@[simp] theorem raiseVector_harts : (raiseVector s m n).harts = s.harts := rfl
@[simp] theorem raiseVector_mgmt : (raiseVector s m n).mgmt = s.mgmt := rfl
@[simp] theorem raiseVector_links18 : (raiseVector s m n).links18 = s.links18 := rfl
@[simp] theorem raiseVector_lags : (raiseVector s m n).lags = s.lags := rfl
@[simp] theorem raiseVector_lastL : (raiseVector s m n).lastL = s.lastL := rfl
@[simp] theorem raiseVector_lateCopies : (raiseVector s m n).lateCopies = s.lateCopies := rfl
@[simp] theorem raiseVector_lastPace : (raiseVector s m n).lastPace = s.lastPace := rfl
@[simp] theorem raiseVector_funcDomain : (raiseVector s m n).funcDomain = s.funcDomain := rfl
@[simp] theorem raiseVector_debugOn : (raiseVector s m n).debugOn = s.debugOn := rfl
@[simp] theorem raiseVector_memGrants : (raiseVector s m n).memGrants = s.memGrants := rfl
@[simp] theorem raiseVector_staged : (raiseVector s m n).staged = s.staged := rfl
@[simp] theorem raiseVector_firmware : (raiseVector s m n).firmware = s.firmware := rfl
@[simp] theorem raiseVector_boot : (raiseVector s m n).boot = s.boot := rfl
@[simp] theorem raiseVector_nextId : (raiseVector s m n).nextId = s.nextId := rfl
@[simp] theorem raiseVector_hardTrip : (raiseVector s m n).hardTrip = s.hardTrip := rfl
@[simp] theorem raiseVector_standby : (raiseVector s m n).standby = s.standby := rfl

end

/-! What the updates write -/

@[simp] theorem updCore_cores (s : State) (n : Nat) (g : Core → Core) (m : Nat) :
    coreOf (updCore s n g) m = if m = n then g (coreOf s n) else coreOf s m := sget_supd coreInit s.cores n g m

@[simp] theorem updShard_shards (s : State) (n : Nat) (g : Shard → Shard) (m : Nat) :
    shardOf (updShard s n g) m = if m = n then g (shardOf s n) else shardOf s m := sget_supd shardInit s.shards n g m

@[simp] theorem emitOut_outputs (s : State) (o : Output) : (emitOut s o).outputs = s.outputs ++ [o] := rfl

/-- A register written reads back. -/
@[simp] theorem regGet_regPut_same (s : State) (r : Reg) (w : Word64) : regGet (regPut s r w) r = w := sget_sset_same (regReset r) s.regs (regCode r) w

/-- Registers with keys of their own keep their values. -/
theorem regGet_regPut_ne (s : State) (w : Word64) {r q : Reg} (h : regCode q ≠ regCode r) : regGet (regPut s r w) q = regGet s q := by
  by_cases hw : w = regReset r
  · simp only [regGet, regPut, sset, hw, if_true, sget, slookup_serase_ne s.regs h]
  · simp only [regGet, regPut, sset, hw, if_false, sget, slookup_sinsert_ne s.regs w h]

/-- Elements updated in place are found as before. -/
theorem find_updWhere {α : Type} (p q : α → Bool) (f : α → α) (l : List α) (h : ∀ a, p a = true → q (f a) = q a) :
    (updWhere p f l).find? q = (l.find? q).map fun a => if p a then f a else a := by
  induction l with
  | nil => rfl
  | cons a l ih =>
    have hq : q (if p a then f a else a) = q a := by
      by_cases hp : p a <;> simp [hp, h]
    simp only [updWhere, List.map_cons, List.find?_cons, hq]
    cases q a
    · simpa [updWhere] using ih
    · rfl

theorem agentOf_key {s : State} {k : AgentKey} {a : Agent} (h : agentOf s k = some a) : a.key = k := by
  have := List.find?_some (show s.agents.find? (fun a => a.key == k) = some a from h)
  simpa using this

theorem teamOf_uid {s : State} {u : Nat} {t : Team} (h : teamOf s u = some t) : t.uid = u := by
  have := List.find?_some (show s.teams.find? (fun t => t.uid == u) = some t from h)
  simpa using this

theorem gridOf_id {s : State} {n : Nat} {g : Grid} (h : gridOf s n = some g) : g.id = n := by
  have := List.find?_some (show s.grids.find? (fun g => g.id == n) = some g from h)
  simpa using this

/-- The agent updated, where the update keeps its key. -/
theorem agentOf_updAgent_same (s : State) (k : AgentKey) (f : Agent → Agent) (h : ∀ a, (f a).key = a.key) :
    agentOf (updAgent s k f) k = (agentOf s k).map f := by
  have hf := find_updWhere (fun a => a.key == k) (fun a => a.key == k) f s.agents fun a _ => by rw [h a]
  show (updWhere (fun a => a.key == k) f s.agents).find? (fun a => a.key == k) = _
  rw [hf]
  show _ = (s.agents.find? fun a => a.key == k).map f
  cases hg : s.agents.find? fun a => a.key == k with
  | none => rfl
  | some a =>
    have := List.find?_some hg
    simp_all

theorem agentOf_updAgent_ne (s : State) (f : Agent → Agent) {k j : AgentKey} (h : ∀ a, (f a).key = a.key) (hj : j ≠ k) :
    agentOf (updAgent s k f) j = agentOf s j := by
  have hf := find_updWhere (fun a => a.key == k) (fun a => a.key == j) f s.agents fun a _ => by rw [h a]
  show (updWhere (fun a => a.key == k) f s.agents).find? (fun a => a.key == j) = _
  rw [hf]
  show _ = s.agents.find? fun a => a.key == j
  cases hg : s.agents.find? fun a => a.key == j with
  | none => rfl
  | some a =>
    have := List.find?_some hg
    simp_all

theorem teamOf_updTeam_same (s : State) (u : Nat) (f : Team → Team) (h : ∀ t, (f t).uid = t.uid) :
    teamOf (updTeam s u f) u = (teamOf s u).map f := by
  have hf := find_updWhere (fun t => t.uid == u) (fun t => t.uid == u) f s.teams fun t _ => by rw [h t]
  show (updWhere (fun t => t.uid == u) f s.teams).find? (fun t => t.uid == u) = _
  rw [hf]
  show _ = (s.teams.find? fun t => t.uid == u).map f
  cases hg : s.teams.find? fun t => t.uid == u with
  | none => rfl
  | some t =>
    have := List.find?_some hg
    simp_all

theorem teamOf_updTeam_ne (s : State) (f : Team → Team) {u v : Nat} (h : ∀ t, (f t).uid = t.uid) (hv : v ≠ u) :
    teamOf (updTeam s u f) v = teamOf s v := by
  have hf := find_updWhere (fun t => t.uid == u) (fun t => t.uid == v) f s.teams fun t _ => by rw [h t]
  show (updWhere (fun t => t.uid == u) f s.teams).find? (fun t => t.uid == v) = _
  rw [hf]
  show _ = s.teams.find? fun t => t.uid == v
  cases hg : s.teams.find? fun t => t.uid == v with
  | none => rfl
  | some t =>
    have := List.find?_some hg
    simp_all

@[simp] theorem agentOf_updTeam (s : State) (u : Nat) (f : Team → Team) (k : AgentKey) : agentOf (updTeam s u f) k = agentOf s k := rfl
@[simp] theorem teamOf_updAgent (s : State) (k : AgentKey) (f : Agent → Agent) (u : Nat) : teamOf (updAgent s k f) u = teamOf s u := rfl
@[simp] theorem gridOf_updAgent (s : State) (k : AgentKey) (f : Agent → Agent) (n : Nat) : gridOf (updAgent s k f) n = gridOf s n := rfl
@[simp] theorem gridOf_updTeam (s : State) (u : Nat) (f : Team → Team) (n : Nat) : gridOf (updTeam s u f) n = gridOf s n := rfl


end Sys2Proof.Machine
end

