-- ==== Sys2Proof/Laws/Issue.lean ====
section
/-! SUPPORT. What an issue comes to, and what its bookkeeping, its results and its register writes change. -/

namespace Sys2Proof.Machine

-- one declaration at a time: a thread for each would be too many
set_option Elab.async false

/-! ### The turn -/

theorem issue_goes {i : Instr} {h : Hdr} {s : State} {c : Iss} (f : Iss → Eff) (hc : turnOf i h s = .goes c) :
    issue i h s f = (f c).result c.a.key := by simp [issue, hc]

theorem issue_event {i : Instr} {h : Hdr} {s t : State} {k : AgentKey} {e : Event} (f : Iss → Eff) (hc : turnOf i h s = .event t k e) :
    issue i h s f = .next (raise t k e) := by simp [issue, hc]

theorem issue_idle {i : Instr} {h : Hdr} {s : State} (f : Iss → Eff) (hc : turnOf i h s = .idle) : issue i h s f = .refused .noIssuer := by
  simp [issue, hc]

@[simp] theorem result_ok (k : AgentKey) (s : State) : (Eff.ok s).result k = .next s := rfl
@[simp] theorem result_stay (k : AgentKey) (s : State) : (Eff.stay s).result k = .next s := rfl
@[simp] theorem result_trap (k : AgentKey) (s : State) (e : Event) : (Eff.trap s e).result k = .next (raise s k e) := rfl

/-- Every own effect ends in a next state. -/
theorem result_next (k : AgentKey) (e : Eff) : ∃ t, e.result k = .next t := by
  cases e
  · exact ⟨_, rfl⟩
  · exact ⟨_, rfl⟩
  · exact ⟨_, rfl⟩

/-- An issue answers a next state, or nobody had the turn. -/
theorem issue_cases (i : Instr) (h : Hdr) (s : State) (f : Iss → Eff) :
    (∃ t, issue i h s f = .next t) ∨ (turnOf i h s = .idle ∧ issue i h s f = .refused .noIssuer) := by
  cases hc : turnOf i h s with
  | idle => exact .inr ⟨rfl, issue_idle f hc⟩
  | event t k e => exact .inl ⟨_, issue_event f hc⟩
  | goes c => exact .inl ((result_next c.a.key (f c)).imp fun t ht => (issue_goes f hc).trans ht)

/-- All that is known of an instruction that goes on: who issues it, where, in which lanes, and that it is legal and not overdue. -/
theorem turnOf_goes {i : Instr} {h : Hdr} {s : State} {c : Iss} (hc : turnOf i h s = .goes c) :
    ∃ k a, s.turn = some k ∧ c.s0 = { s with turn := none } ∧ agentOf c.s0 k = some a ∧ teamOf c.s0 k.team = some c.t
      ∧ gridOf c.s0 c.t.grid = some c.g ∧ issueAddress a = some c.pc ∧ a.issueCount < 256
      ∧ issueLegal i c.t.hdr.version c.t.hdr.vregs c.t.hdr.sregs (isLadle k) = true
      ∧ c.ex = executing a c.pc ∧ c.act = c.ex.filter (guardOf a h) ∧ poisonEvent a i c.act c.pc = none
      ∧ c.a = book a h c.pc c.ex (cycleOf c.s0 c.t.core) ∧ c.s = updAgent c.s0 k (fun _ => c.a) ∧ c.n = a.issues := by
  unfold turnOf at hc
  split at hc
  · cases hc
  · rename_i k hk
    simp only at hc
    split at hc
    · rename_i a t ha ht
      split at hc
      · rename_i g pc hg hpc
        split at hc
        · cases hc
        · split at hc
          · cases hc
          · split at hc
            · cases hc
            · cases hc
              rename_i h1 h2 _ h3
              exact ⟨k, a, hk, rfl, ha, ht, hg, hpc, by omega, by simpa using h2, rfl, rfl, h3, rfl, rfl, rfl⟩
      · cases hc
    · cases hc

/-! ### The bookkeeping (R203, R205, R315, R353) -/

section Book
variable (a : Agent) (h : Hdr) (pc : Nat) (ex : List Nat) (cycle : Nat)

@[simp] theorem book_key : (book a h pc ex cycle).key = a.key := rfl
@[simp] theorem book_v : (book a h pc ex cycle).v = a.v := rfl
@[simp] theorem book_s : (book a h pc ex cycle).s = a.s := rfl
@[simp] theorem book_p : (book a h pc ex cycle).p = a.p := rfl
@[simp] theorem book_k : (book a h pc ex cycle).k = a.k := rfl
@[simp] theorem book_lanes : (book a h pc ex cycle).lanes = a.lanes := rfl
@[simp] theorem book_regions : (book a h pc ex cycle).regions = a.regions := rfl
@[simp] theorem book_pend : (book a h pc ex cycle).pend = a.pend := rfl
@[simp] theorem book_vars : (book a h pc ex cycle).vars = a.vars := rfl
@[simp] theorem book_deferred : (book a h pc ex cycle).deferred = a.deferred := rfl
@[simp] theorem book_fpstat : (book a h pc ex cycle).fpstat = a.fpstat := rfl
@[simp] theorem book_rounding : (book a h pc ex cycle).rounding = a.rounding := rfl
@[simp] theorem book_issueCount : (book a h pc ex cycle).issueCount = a.issueCount + 1 := rfl
@[simp] theorem book_issues : (book a h pc ex cycle).issues = a.issues + 1 := rfl
@[simp] theorem book_nextIssue : (book a h pc ex cycle).nextIssue = cycle + 1 + h.gap.toNat := rfl
@[simp] theorem book_marker : (book a h pc ex cycle).marker = (a.marker || h.sw) := rfl

end Book

/-- An issuing agent keeps its key. -/
theorem goes_key {i : Instr} {h : Hdr} {s : State} {c : Iss} (hc : turnOf i h s = .goes c) : s.turn = some c.a.key := by
  obtain ⟨k, a, hk, h0, ha, -, -, -, -, -, -, -, -, hb, -, -⟩ := turnOf_goes hc
  have hkey : a.key = k := agentOf_key ha
  rw [hb, book_key, hkey, hk]

/-- In the state that its issue has reached, the agent is the one with the bookkeeping done. -/
theorem goes_agent {i : Instr} {h : Hdr} {s : State} {c : Iss} (hc : turnOf i h s = .goes c) : agentOf c.s c.a.key = some c.a := by
  obtain ⟨k, a, hk, h0, ha, -, -, -, -, -, -, -, -, hb, hs, -⟩ := turnOf_goes hc
  have hkk : k = c.a.key := by
    have := goes_key hc
    rw [hk] at this
    exact Option.some.inj this
  have hkey : a.key = k := agentOf_key ha
  rw [hs, ← hkk]
  show (updWhere (fun x => x.key == k) (fun _ => c.a) c.s0.agents).find? (fun x => x.key == k) = some c.a
  have hck : (c.a.key == k) = true := by rw [hb, book_key, hkey]; simp
  rw [find_updWhere (fun x => x.key == k) (fun x => x.key == k) (fun _ => c.a) c.s0.agents fun x hx => hck.trans hx.symm, show c.s0.agents.find? (fun x => x.key == k) = some a from ha]
  simp [hkey]

/-! ### Results -/

@[simp] theorem pend_nil (c : Iss) (lat : Nat) : c.pend lat [] = c.s := rfl

/-- A fixed-latency result waits in the issuing agent and changes nothing else (R203). -/
theorem pend_eq (c : Iss) (lat : Nat) {ws : List RegWrite} (h : ws ≠ []) :
    c.pend lat ws = updAgent c.s c.a.key fun a => { a with pend := a.pend ++ [⟨cycleOf c.s c.t.core + lat, ws⟩] } := by
  simp [Iss.pend, h]

theorem agentOf_pend (c : Iss) (lat : Nat) {ws : List RegWrite} (h : ws ≠ []) :
    agentOf (c.pend lat ws) c.a.key = (agentOf c.s c.a.key).map fun a => { a with pend := a.pend ++ [⟨cycleOf c.s c.t.core + lat, ws⟩] } := by
  rw [pend_eq c lat h]
  exact agentOf_updAgent_same c.s c.a.key _ fun _ => rfl

/-- A variable-latency result waits in its agent, unless that has ended (R204, R394). -/
theorem agentOf_addResult (s : State) (k : AgentKey) (r : VarResult) :
    agentOf (addResult s k r) k = (agentOf s k).map fun a => if a.ended then a else { a with vars := a.vars ++ [r] } :=
  agentOf_updAgent_same s k _ fun a => by split <;> rfl

/-! ### Register writes (R148, R149, R151) -/

theorem laneKey_inj {n m l j : Nat} (hl : l < 32) (hj : j < 32) : laneKey n l = laneKey m j ↔ n = m ∧ l = j := by
  unfold laneKey
  constructor
  · intro h
    omega
  · rintro ⟨rfl, rfl⟩
    rfl

@[simp] theorem vGet_write_same (a : Agent) (n l : Nat) (x : Word32) : vGet (writeReg a (.v n l x)) n l = x := sget_sset_same 0 a.v _ x

theorem vGet_write_ne (a : Agent) (x : Word32) {n m l j : Nat} (hl : l < 32) (hj : j < 32) (h : ¬ (m = n ∧ j = l)) :
    vGet (writeReg a (.v n l x)) m j = vGet a m j :=
  sget_sset_ne 0 a.v x fun he => h ((laneKey_inj hj hl).mp he)

@[simp] theorem sGet_write_same (a : Agent) (n : Nat) (x : Word64) : sGet (writeReg a (.s n x)) n = x := sget_sset_same 0 a.s n x

theorem sGet_write_ne (a : Agent) (x : Word64) {n m : Nat} (h : m ≠ n) : sGet (writeReg a (.s n x)) m = sGet a m := sget_sset_ne 0 a.s x h

@[simp] theorem write_p0 (a : Agent) (l : Nat) (b : Bool) : writeReg a (.p 0 l b) = a := rfl

@[simp] theorem pGet_p0 (a : Agent) (l : Nat) : pGet a 0 l = true := rfl

theorem pGet_write_same (a : Agent) (l : Nat) (b : Bool) {n : Nat} (h : n ≠ 0) : pGet (writeReg a (.p n l b)) n l = b := by
  simp [writeReg, h, pGet]

theorem write_key (a : Agent) (w : RegWrite) : (writeReg a w).key = a.key := by
  cases w with
  | p n l x => by_cases h : n = 0 <;> simp [writeReg, h]
  | _ => rfl

/-! ### Results that take effect (R203) -/

theorem releaseWaitj_frame (a : Agent) (k : BitVec 3) :
    ∃ lanes lpc, releaseWaitj a k = { a with lanes := lanes, lpc := lpc } := by
  have step : ∀ (P : Agent → Prop) (f : Agent → Nat → Agent) (ls : List Nat) (b : Agent), P b → (∀ b l, P b → P (f b l)) → P (ls.foldl f b) := by
    intro P f ls
    induction ls with
    | nil => intro b h _; exact h
    | cons l r ih => intro b h hf; exact ih _ (hf b l h) hf
  unfold releaseWaitj
  refine step (fun b => ∃ lanes lpc, b = { a with lanes := lanes, lpc := lpc }) _ _ a ⟨_, _, rfl⟩ ?_
  rintro b l ⟨x, y, rfl⟩
  dsimp only
  split
  · exact ⟨_, _, rfl⟩
  · exact ⟨_, _, rfl⟩

theorem updTeam_self (s : State) (u : Nat) : updTeam s u id = s := by
  have : ∀ l : List Team, updWhere (fun t : Team => t.uid == u) id l = l := by
    intro l; simp [updWhere]
  simp [updTeam, this]
theorem updAgent_self (s : State) (k : AgentKey) : updAgent s k id = s := by
  have : ∀ l : List Agent, updWhere (fun t : Agent => t.key == k) id l = l := by
    intro l; simp [updWhere]
  simp [updAgent, this]

/-- All that an effect of a result can do: the register write in its agent, with lanes perhaps released, and the flags and bounds of its team. -/
theorem applyWrite_cases (s : State) (k : AgentKey) (w : RegWrite) :
    ∃ (f : Agent → Agent) (g : Team → Team), applyWrite s k w = updTeam (updAgent s k f) k.team g
      ∧ (∀ a, (f a).key = a.key ∧ (f a).pend = a.pend ∧ (f a).v = (writeReg a w).v ∧ (f a).s = (writeReg a w).s)
      ∧ ∀ t, ∃ bnd flags, g t = { t with bnd := bnd, bndflags := flags } := by
  have keep : ∀ (f : Agent → Agent), applyWrite s k w = updAgent s k f →
      (∀ a, (f a).key = a.key ∧ (f a).pend = a.pend ∧ (f a).v = (writeReg a w).v ∧ (f a).s = (writeReg a w).s) →
      ∃ (f : Agent → Agent) (g : Team → Team), applyWrite s k w = updTeam (updAgent s k f) k.team g
      ∧ (∀ a, (f a).key = a.key ∧ (f a).pend = a.pend ∧ (f a).v = (writeReg a w).v ∧ (f a).s = (writeReg a w).s)
      ∧ ∀ t, ∃ bnd flags, g t = { t with bnd := bnd, bndflags := flags } :=
    fun f hf hk => ⟨f, id, by rw [updTeam_self, hf], hk, fun t => ⟨t.bnd, t.bndflags, rfl⟩⟩
  have pendw : ∀ a, (writeReg a w).pend = a.pend := by
    intro a; cases w <;> simp [writeReg]; split <;> rfl
  have plain : applyWrite s k w = updAgent s k (fun a => writeReg a w) → _ := fun h => keep _ h fun a => ⟨write_key a w, pendw a, rfl, rfl⟩
  cases w with
  | hit m => exact ⟨id, _, by rw [updAgent_self]; rfl, fun a => ⟨rfl, rfl, rfl, rfl⟩, fun t => ⟨t.bnd, _, rfl⟩⟩
  | special n x =>
    show ∃ f g, writeSpecial s k n x = _ ∧ _
    unfold writeSpecial
    split
    · exact ⟨id, _, by rw [updAgent_self], fun a => ⟨rfl, rfl, rfl, rfl⟩, fun t => ⟨t.bnd, _, rfl⟩⟩
    split
    · exact ⟨fun a => { a with accsat := bit x 0 }, id, (updTeam_self _ _).symm, fun a => ⟨rfl, rfl, rfl, rfl⟩, fun t => ⟨t.bnd, t.bndflags, rfl⟩⟩
    split
    · exact ⟨fun a => { a with fpstat := BitVec.ofNat 5 (fld x 4 0) }, id, (updTeam_self _ _).symm, fun a => ⟨rfl, rfl, rfl, rfl⟩,
        fun t => ⟨t.bnd, t.bndflags, rfl⟩⟩
    split
    · exact ⟨fun a => { a with rmode := BitVec.ofNat 2 (fld x 1 0) }, id, (updTeam_self _ _).symm, fun a => ⟨rfl, rfl, rfl, rfl⟩,
        fun t => ⟨t.bnd, t.bndflags, rfl⟩⟩
    split
    · exact ⟨id, _, by rw [updAgent_self], fun a => ⟨rfl, rfl, rfl, rfl⟩, fun t => ⟨_, t.bndflags, rfl⟩⟩
    · exact ⟨id, id, by rw [updAgent_self, updTeam_self], fun a => ⟨rfl, rfl, rfl, rfl⟩, fun t => ⟨t.bnd, t.bndflags, rfl⟩⟩
  | k n x =>
    refine keep (fun a => releaseWaitj (writeReg a (.k n x)) (BitVec.ofNat 3 n)) rfl fun a => ?_
    obtain ⟨x', y, h⟩ := releaseWaitj_frame (writeReg a (.k n x)) (BitVec.ofNat 3 n)
    rw [h]; exact ⟨rfl, rfl, rfl, rfl⟩
  | v n l x => exact plain rfl
  | s n x => exact plain rfl
  | p n l x => exact plain rfl
  | fpstat f => exact plain rfl
  | accsat => exact plain rfl
  | vPoison n l sub => exact plain rfl
  | sPoison n sub => exact plain rfl

/-- What leaves clusters and every agent's results alone. -/
def Lands (s t : State) : Prop := t.clusters = s.clusters ∧ ∀ k, (agentOf t k).map (·.pend) = (agentOf s k).map (·.pend)

theorem map_pend_updAgent (s : State) (k : AgentKey) (f : Agent → Agent) (hk : ∀ a, (f a).key = a.key) (hp : ∀ a, (f a).pend = a.pend) (j : AgentKey) :
    (agentOf (updAgent s k f) j).map (·.pend) = (agentOf s j).map (·.pend) := by
  by_cases h : j = k
  · subst h; rw [agentOf_updAgent_same s j f hk, Option.map_map]; congr 1; funext a; exact hp a
  · rw [agentOf_updAgent_ne s f hk h]

theorem applyWrite_lands (s : State) (k : AgentKey) (w : RegWrite) : Lands s (applyWrite s k w) := by
  obtain ⟨f, g, h, hf, -⟩ := applyWrite_cases s k w
  rw [h]
  exact ⟨rfl, fun j => map_pend_updAgent s k f (fun a => (hf a).1) (fun a => (hf a).2.1) j⟩

theorem Lands.trans {s t u : State} (a : Lands s t) (b : Lands t u) : Lands s u := ⟨b.1.trans a.1, fun k => (b.2 k).trans (a.2 k)⟩

theorem applyWrites_lands (k : AgentKey) (ws : List RegWrite) : ∀ s, Lands s (applyWrites s k ws) := by
  induction ws with
  | nil => intro s; exact ⟨rfl, fun _ => rfl⟩
  | cons w r ih => intro s; exact (applyWrite_lands s k w).trans (ih _)

theorem fold_lands (g : List RegWrite → List RegWrite) (l : List (AgentKey × List RegWrite)) : ∀ s, Lands s (l.foldl (fun s e => applyWrites s e.1 (g e.2)) s) := by
  induction l with
  | nil => intro s; exact ⟨rfl, fun _ => rfl⟩
  | cons e r ih => intro s; exact (applyWrites_lands e.1 _ s).trans (ih _)

theorem fold_pend (cycle : Nat) (ks : List AgentKey) : ∀ s : State,
    let t := ks.foldl (fun s k => updAgent s k fun a => { a with pend := a.pend.filter fun p => cycle < p.due }) s
    t.clusters = s.clusters ∧ ∀ k ∈ ks, (agentOf t k).map (·.pend) = (agentOf s k).map fun a => a.pend.filter fun p => cycle < p.due := by
  have key : ∀ (ks : List AgentKey) (s : State),
    let t := ks.foldl (fun s k => updAgent s k fun a => { a with pend := a.pend.filter fun p => cycle < p.due }) s
    t.clusters = s.clusters ∧ ∀ k, (agentOf t k).map (·.pend) = (agentOf s k).map fun a => if k ∈ ks then a.pend.filter fun p => cycle < p.due else a.pend := by
    intro ks
    induction ks with
    | nil => intro s; exact ⟨rfl, fun k => by simp⟩
    | cons j r ih =>
      intro s
      obtain ⟨h1, h2⟩ := ih (updAgent s j fun a => { a with pend := a.pend.filter fun p => cycle < p.due })
      refine ⟨h1, fun k => ?_⟩
      rw [List.foldl_cons, h2 k]
      by_cases hk : k = j
      · subst hk
        rw [agentOf_updAgent_same s k _ (by intro a; rfl), Option.map_map]
        congr 1; funext a; by_cases hr : k ∈ r <;> simp [hr]
      · rw [agentOf_updAgent_ne s _ (by intro a; rfl) hk]; simp [hk]
  intro s
  obtain ⟨h1, h2⟩ := key ks s
  exact ⟨h1, fun k hk => by rw [h2 k]; simp [hk]⟩

theorem landAll_pend (s : State) (ks : List AgentKey) (cycle : Nat) :
    (landAll s ks cycle).clusters = s.clusters
    ∧ ∀ k ∈ ks, (agentOf (landAll s ks cycle) k).map (·.pend) = (agentOf s k).map fun a => a.pend.filter fun p => cycle < p.due := by
  obtain ⟨h1, h2⟩ := fold_pend cycle ks s
  have a := fold_lands (fun ws => ws.filter fun w => !isFlag w) (ks.map fun k => (k, dueWrites s k cycle))
    (ks.foldl (fun s k => updAgent s k fun a => { a with pend := a.pend.filter fun p => cycle < p.due }) s)
  have ab : Lands _ (landAll s ks cycle) := a.trans (fold_lands (fun ws => ws.filter isFlag) (ks.map fun k => (k, dueWrites s k cycle)) _)
  exact ⟨ab.1.trans h1, fun k hk => (ab.2 k).trans (h2 k hk)⟩

end Sys2Proof.Machine
end

