-- ==== Sys2Proof/Laws/PerInstr.lean ====
section
/-! SUPPORT. The family OpcodeKept: the word of an instruction carries the opcode of its row (R193, R199). -/

namespace Sys2Proof

-- one declaration at a time: a thread for each would be too many
set_option Elab.async false

/-- The opcode field of an F3 word. -/
theorem opcField_f3Word (opc : BitVec 8) (x : F3) : opcField (f3Word opc x) = opc := by
  apply BitVec.eq_of_getLsbD_eq
  intro i hi
  simp only [opcField, wbits, f3Word, hdrBits, BitVec.getLsbD_extractLsb', BitVec.getLsbD_append]
  simp only [show ¬ 78 + i < 32 by omega, show ¬ 78 + i - 32 < 4 by omega, show ¬ 78 + i - 32 - 4 < 4 by omega, show ¬ 78 + i - 32 - 4 - 4 < 8 by omega, show ¬ 78 + i - 32 - 4 - 4 - 8 < 8 by omega, show ¬ 78 + i - 32 - 4 - 4 - 8 - 8 < 8 by omega, show ¬ 78 + i - 32 - 4 - 4 - 8 - 8 - 8 < 8 by omega, show ¬ 78 + i - 32 - 4 - 4 - 8 - 8 - 8 - 8 < 6 by omega, show 78 + i - 32 - 4 - 4 - 8 - 8 - 8 - 8 - 6 = i by omega, if_true, if_false, decide_true, hi, Bool.true_and]

/-- The opcode field of an FM word. -/
theorem opcField_fmWord (opc : BitVec 8) (x : FM) : opcField (fmWord opc x) = opc := by
  apply BitVec.eq_of_getLsbD_eq
  intro i hi
  simp only [opcField, wbits, fmWord, hdrBits, BitVec.getLsbD_extractLsb', BitVec.getLsbD_append]
  simp only [show ¬ 78 + i < 32 by omega, show ¬ 78 + i - 32 < 4 by omega, show ¬ 78 + i - 32 - 4 < 4 by omega, show ¬ 78 + i - 32 - 4 - 4 < 8 by omega, show ¬ 78 + i - 32 - 4 - 4 - 8 < 8 by omega, show ¬ 78 + i - 32 - 4 - 4 - 8 - 8 < 8 by omega, show ¬ 78 + i - 32 - 4 - 4 - 8 - 8 - 8 < 8 by omega, show ¬ 78 + i - 32 - 4 - 4 - 8 - 8 - 8 - 8 < 6 by omega, show 78 + i - 32 - 4 - 4 - 8 - 8 - 8 - 8 - 6 = i by omega, if_true, if_false, decide_true, hi, Bool.true_and]

/-- The opcode field of an FB word. -/
theorem opcField_fbWord (opc : BitVec 8) (x : FB) : opcField (fbWord opc x) = opc := by
  apply BitVec.eq_of_getLsbD_eq
  intro i hi
  simp only [opcField, wbits, fbWord, hdrBits, BitVec.getLsbD_extractLsb', BitVec.getLsbD_append]
  simp only [show ¬ 78 + i < 3 by omega, show ¬ 78 + i - 3 < 29 by omega, show ¬ 78 + i - 3 - 29 < 16 by omega, show ¬ 78 + i - 3 - 29 - 16 < 8 by omega, show ¬ 78 + i - 3 - 29 - 16 - 8 < 8 by omega, show ¬ 78 + i - 3 - 29 - 16 - 8 - 8 < 8 by omega, show ¬ 78 + i - 3 - 29 - 16 - 8 - 8 - 8 < 6 by omega, show 78 + i - 3 - 29 - 16 - 8 - 8 - 8 - 6 = i by omega, if_true, if_false, decide_true, hi, Bool.true_and]

/-- The opcode field of an FL word. -/
theorem opcField_flWord (opc : BitVec 8) (x : FL) : opcField (flWord opc x) = opc := by
  apply BitVec.eq_of_getLsbD_eq
  intro i hi
  simp only [opcField, wbits, flWord, hdrBits, BitVec.getLsbD_extractLsb', BitVec.getLsbD_append]
  simp only [show ¬ 78 + i < 64 by omega, show ¬ 78 + i - 64 < 8 by omega, show ¬ 78 + i - 64 - 8 < 6 by omega, show 78 + i - 64 - 8 - 6 = i by omega, if_true, if_false, decide_true, hi, Bool.true_and]

namespace Laws

/-- The word that the encoder gives an instruction has the opcode of the instruction's row in its opcode field. -/
def OpcodeKept.Statement (i : Instr) : Prop := ∀ w, encode i = some w → Machine.opcodeOf i = some (opcField w).toNat

/-- From the word and the opcode of an instruction. -/
theorem opcodeKept_of_word (i : Instr) (w : InstrWord) (he : encode i = some w) (ho : Machine.opcodeOf i = some (opcField w).toNat) :
    OpcodeKept.Statement i := by
  intro v h
  rw [he] at h
  cases h
  exact ho

/-- A step of the package has no word. -/
theorem opcodeKept_of_none (i : Instr) (he : encode i = none) : OpcodeKept.Statement i := by
  intro w h
  rw [he] at h
  cases h

theorem OpcodeKept.nop (x : F3) : OpcodeKept.Statement (.nop x) :=
  opcodeKept_of_word _ (f3Word 0x00 x) rfl (congrArg (fun (c : BitVec 8) => some c.toNat) (opcField_f3Word 0x00 x).symm)

theorem OpcodeKept.bra (x : FB) : OpcodeKept.Statement (.bra x) :=
  opcodeKept_of_word _ (fbWord 0x01 x) rfl (congrArg (fun (c : BitVec 8) => some c.toNat) (opcField_fbWord 0x01 x).symm)

theorem OpcodeKept.brx (x : F3) : OpcodeKept.Statement (.brx x) :=
  opcodeKept_of_word _ (f3Word 0x02 x) rfl (congrArg (fun (c : BitVec 8) => some c.toNat) (opcField_f3Word 0x02 x).symm)

theorem OpcodeKept.call (x : FB) : OpcodeKept.Statement (.call x) :=
  opcodeKept_of_word _ (fbWord 0x03 x) rfl (congrArg (fun (c : BitVec 8) => some c.toNat) (opcField_fbWord 0x03 x).symm)

theorem OpcodeKept.callx (x : F3) : OpcodeKept.Statement (.callx x) :=
  opcodeKept_of_word _ (f3Word 0x04 x) rfl (congrArg (fun (c : BitVec 8) => some c.toNat) (opcField_f3Word 0x04 x).symm)

theorem OpcodeKept.ret (x : F3) : OpcodeKept.Statement (.ret x) :=
  opcodeKept_of_word _ (f3Word 0x05 x) rfl (congrArg (fun (c : BitVec 8) => some c.toNat) (opcField_f3Word 0x05 x).symm)

theorem OpcodeKept.join (x : F3) : OpcodeKept.Statement (.join x) :=
  opcodeKept_of_word _ (f3Word 0x06 x) rfl (congrArg (fun (c : BitVec 8) => some c.toNat) (opcField_f3Word 0x06 x).symm)

theorem OpcodeKept.waitj (x : F3) : OpcodeKept.Statement (.waitj x) :=
  opcodeKept_of_word _ (f3Word 0x07 x) rfl (congrArg (fun (c : BitVec 8) => some c.toNat) (opcField_f3Word 0x07 x).symm)

theorem OpcodeKept.exit (x : F3) : OpcodeKept.Statement (.exit x) :=
  opcodeKept_of_word _ (f3Word 0x08 x) rfl (congrArg (fun (c : BitVec 8) => some c.toNat) (opcField_f3Word 0x08 x).symm)

theorem OpcodeKept.yield (x : F3) : OpcodeKept.Statement (.yield x) :=
  opcodeKept_of_word _ (f3Word 0x09 x) rfl (congrArg (fun (c : BitVec 8) => some c.toNat) (opcField_f3Word 0x09 x).symm)

theorem OpcodeKept.safe (x : F3) : OpcodeKept.Statement (.safe x) :=
  opcodeKept_of_word _ (f3Word 0x0A x) rfl (congrArg (fun (c : BitVec 8) => some c.toNat) (opcField_f3Word 0x0A x).symm)

theorem OpcodeKept.launch (x : F3) : OpcodeKept.Statement (.launch x) :=
  opcodeKept_of_word _ (f3Word 0x0B x) rfl (congrArg (fun (c : BitVec 8) => some c.toNat) (opcField_f3Word 0x0B x).symm)

theorem OpcodeKept.cropen (x : FB) : OpcodeKept.Statement (.cropen x) :=
  opcodeKept_of_word _ (fbWord 0x0C x) rfl (congrArg (fun (c : BitVec 8) => some c.toNat) (opcField_fbWord 0x0C x).symm)

theorem OpcodeKept.crclose (x : F3) : OpcodeKept.Statement (.crclose x) :=
  opcodeKept_of_word _ (f3Word 0x0D x) rfl (congrArg (fun (c : BitVec 8) => some c.toNat) (opcField_f3Word 0x0D x).symm)

theorem OpcodeKept.trap (x : F3) : OpcodeKept.Statement (.trap x) :=
  opcodeKept_of_word _ (f3Word 0x0E x) rfl (congrArg (fun (c : BitVec 8) => some c.toNat) (opcField_f3Word 0x0E x).symm)

theorem OpcodeKept.bkpt (x : F3) : OpcodeKept.Statement (.bkpt x) :=
  opcodeKept_of_word _ (f3Word 0x0F x) rfl (congrArg (fun (c : BitVec 8) => some c.toNat) (opcField_f3Word 0x0F x).symm)

theorem OpcodeKept.step (x : F3) : OpcodeKept.Statement (.step x) :=
  opcodeKept_of_word _ (f3Word 0x10 x) rfl (congrArg (fun (c : BitVec 8) => some c.toNat) (opcField_f3Word 0x10 x).symm)

theorem OpcodeKept.redt (x : F3) : OpcodeKept.Statement (.redt x) :=
  opcodeKept_of_word _ (f3Word 0x11 x) rfl (congrArg (fun (c : BitVec 8) => some c.toNat) (opcField_f3Word 0x11 x).symm)

theorem OpcodeKept.waittl (x : F3) : OpcodeKept.Statement (.waittl x) :=
  opcodeKept_of_word _ (f3Word 0x12 x) rfl (congrArg (fun (c : BitVec 8) => some c.toNat) (opcField_f3Word 0x12 x).symm)

theorem OpcodeKept.tlrd (x : F3) : OpcodeKept.Statement (.tlrd x) :=
  opcodeKept_of_word _ (f3Word 0x13 x) rfl (congrArg (fun (c : BitVec 8) => some c.toNat) (opcField_f3Word 0x13 x).symm)

theorem OpcodeKept.tladv (x : F3) : OpcodeKept.Statement (.tladv x) :=
  opcodeKept_of_word _ (f3Word 0x14 x) rfl (congrArg (fun (c : BitVec 8) => some c.toNat) (opcField_f3Word 0x14 x).symm)

theorem OpcodeKept.sleep (x : F3) : OpcodeKept.Statement (.sleep x) :=
  opcodeKept_of_word _ (f3Word 0x15 x) rfl (congrArg (fun (c : BitVec 8) => some c.toNat) (opcField_f3Word 0x15 x).symm)

theorem OpcodeKept.rdtime (x : F3) : OpcodeKept.Statement (.rdtime x) :=
  opcodeKept_of_word _ (f3Word 0x16 x) rfl (congrArg (fun (c : BitVec 8) => some c.toNat) (opcField_f3Word 0x16 x).symm)

theorem OpcodeKept.movsr (x : F3) : OpcodeKept.Statement (.movsr x) :=
  opcodeKept_of_word _ (f3Word 0x17 x) rfl (congrArg (fun (c : BitVec 8) => some c.toNat) (opcField_f3Word 0x17 x).symm)

theorem OpcodeKept.movrs (x : F3) : OpcodeKept.Statement (.movrs x) :=
  opcodeKept_of_word _ (f3Word 0x18 x) rfl (congrArg (fun (c : BitVec 8) => some c.toNat) (opcField_f3Word 0x18 x).symm)

theorem OpcodeKept.iadd (x : F3) : OpcodeKept.Statement (.iadd x) :=
  opcodeKept_of_word _ (f3Word 0x20 x) rfl (congrArg (fun (c : BitVec 8) => some c.toNat) (opcField_f3Word 0x20 x).symm)

theorem OpcodeKept.isub (x : F3) : OpcodeKept.Statement (.isub x) :=
  opcodeKept_of_word _ (f3Word 0x21 x) rfl (congrArg (fun (c : BitVec 8) => some c.toNat) (opcField_f3Word 0x21 x).symm)

theorem OpcodeKept.iaddc (x : F3) : OpcodeKept.Statement (.iaddc x) :=
  opcodeKept_of_word _ (f3Word 0x22 x) rfl (congrArg (fun (c : BitVec 8) => some c.toNat) (opcField_f3Word 0x22 x).symm)

theorem OpcodeKept.imul (x : F3) : OpcodeKept.Statement (.imul x) :=
  opcodeKept_of_word _ (f3Word 0x23 x) rfl (congrArg (fun (c : BitVec 8) => some c.toNat) (opcField_f3Word 0x23 x).symm)

theorem OpcodeKept.imulh (x : F3) : OpcodeKept.Statement (.imulh x) :=
  opcodeKept_of_word _ (f3Word 0x24 x) rfl (congrArg (fun (c : BitVec 8) => some c.toNat) (opcField_f3Word 0x24 x).symm)

theorem OpcodeKept.imad (x : F3) : OpcodeKept.Statement (.imad x) :=
  opcodeKept_of_word _ (f3Word 0x25 x) rfl (congrArg (fun (c : BitVec 8) => some c.toNat) (opcField_f3Word 0x25 x).symm)

theorem OpcodeKept.imadw (x : F3) : OpcodeKept.Statement (.imadw x) :=
  opcodeKept_of_word _ (f3Word 0x26 x) rfl (congrArg (fun (c : BitVec 8) => some c.toNat) (opcField_f3Word 0x26 x).symm)

theorem OpcodeKept.idiv (x : F3) : OpcodeKept.Statement (.idiv x) :=
  opcodeKept_of_word _ (f3Word 0x27 x) rfl (congrArg (fun (c : BitVec 8) => some c.toNat) (opcField_f3Word 0x27 x).symm)

theorem OpcodeKept.irem (x : F3) : OpcodeKept.Statement (.irem x) :=
  opcodeKept_of_word _ (f3Word 0x28 x) rfl (congrArg (fun (c : BitVec 8) => some c.toNat) (opcField_f3Word 0x28 x).symm)

theorem OpcodeKept.ineg (x : F3) : OpcodeKept.Statement (.ineg x) :=
  opcodeKept_of_word _ (f3Word 0x29 x) rfl (congrArg (fun (c : BitVec 8) => some c.toNat) (opcField_f3Word 0x29 x).symm)

theorem OpcodeKept.iabs (x : F3) : OpcodeKept.Statement (.iabs x) :=
  opcodeKept_of_word _ (f3Word 0x2A x) rfl (congrArg (fun (c : BitVec 8) => some c.toNat) (opcField_f3Word 0x2A x).symm)

theorem OpcodeKept.imin (x : F3) : OpcodeKept.Statement (.imin x) :=
  opcodeKept_of_word _ (f3Word 0x2B x) rfl (congrArg (fun (c : BitVec 8) => some c.toNat) (opcField_f3Word 0x2B x).symm)

theorem OpcodeKept.imax (x : F3) : OpcodeKept.Statement (.imax x) :=
  opcodeKept_of_word _ (f3Word 0x2C x) rfl (congrArg (fun (c : BitVec 8) => some c.toNat) (opcField_f3Word 0x2C x).symm)

theorem OpcodeKept.lea (x : F3) : OpcodeKept.Statement (.lea x) :=
  opcodeKept_of_word _ (f3Word 0x2D x) rfl (congrArg (fun (c : BitVec 8) => some c.toNat) (opcField_f3Word 0x2D x).symm)

theorem OpcodeKept.icmp (x : F3) : OpcodeKept.Statement (.icmp x) :=
  opcodeKept_of_word _ (f3Word 0x2E x) rfl (congrArg (fun (c : BitVec 8) => some c.toNat) (opcField_f3Word 0x2E x).symm)

theorem OpcodeKept.psel (x : F3) : OpcodeKept.Statement (.psel x) :=
  opcodeKept_of_word _ (f3Word 0x2F x) rfl (congrArg (fun (c : BitVec 8) => some c.toNat) (opcField_f3Word 0x2F x).symm)

theorem OpcodeKept.mov (x : F3) : OpcodeKept.Statement (.mov x) :=
  opcodeKept_of_word _ (f3Word 0x30 x) rfl (congrArg (fun (c : BitVec 8) => some c.toNat) (opcField_f3Word 0x30 x).symm)

theorem OpcodeKept.movi (x : F3) : OpcodeKept.Statement (.movi x) :=
  opcodeKept_of_word _ (f3Word 0x31 x) rfl (congrArg (fun (c : BitVec 8) => some c.toNat) (opcField_f3Word 0x31 x).symm)

theorem OpcodeKept.movil (x : FL) : OpcodeKept.Statement (.movil x) :=
  opcodeKept_of_word _ (flWord 0x32 x) rfl (congrArg (fun (c : BitVec 8) => some c.toNat) (opcField_flWord 0x32 x).symm)

theorem OpcodeKept.plut (x : F3) : OpcodeKept.Statement (.plut x) :=
  opcodeKept_of_word _ (f3Word 0x33 x) rfl (congrArg (fun (c : BitVec 8) => some c.toNat) (opcField_f3Word 0x33 x).symm)

theorem OpcodeKept.p2v (x : F3) : OpcodeKept.Statement (.p2v x) :=
  opcodeKept_of_word _ (f3Word 0x34 x) rfl (congrArg (fun (c : BitVec 8) => some c.toNat) (opcField_f3Word 0x34 x).symm)

theorem OpcodeKept.v2p (x : F3) : OpcodeKept.Statement (.v2p x) :=
  opcodeKept_of_word _ (f3Word 0x35 x) rfl (congrArg (fun (c : BitVec 8) => some c.toNat) (opcField_f3Word 0x35 x).symm)

theorem OpcodeKept.dot4 (x : F3) : OpcodeKept.Statement (.dot4 x) :=
  opcodeKept_of_word _ (f3Word 0x36 x) rfl (congrArg (fun (c : BitVec 8) => some c.toNat) (opcField_f3Word 0x36 x).symm)

theorem OpcodeKept.and (x : F3) : OpcodeKept.Statement (.and x) :=
  opcodeKept_of_word _ (f3Word 0x40 x) rfl (congrArg (fun (c : BitVec 8) => some c.toNat) (opcField_f3Word 0x40 x).symm)

theorem OpcodeKept.or (x : F3) : OpcodeKept.Statement (.or x) :=
  opcodeKept_of_word _ (f3Word 0x41 x) rfl (congrArg (fun (c : BitVec 8) => some c.toNat) (opcField_f3Word 0x41 x).symm)

theorem OpcodeKept.xor (x : F3) : OpcodeKept.Statement (.xor x) :=
  opcodeKept_of_word _ (f3Word 0x42 x) rfl (congrArg (fun (c : BitVec 8) => some c.toNat) (opcField_f3Word 0x42 x).symm)

theorem OpcodeKept.andn (x : F3) : OpcodeKept.Statement (.andn x) :=
  opcodeKept_of_word _ (f3Word 0x43 x) rfl (congrArg (fun (c : BitVec 8) => some c.toNat) (opcField_f3Word 0x43 x).symm)

theorem OpcodeKept.not (x : F3) : OpcodeKept.Statement (.not x) :=
  opcodeKept_of_word _ (f3Word 0x44 x) rfl (congrArg (fun (c : BitVec 8) => some c.toNat) (opcField_f3Word 0x44 x).symm)

theorem OpcodeKept.lut3 (x : F3) : OpcodeKept.Statement (.lut3 x) :=
  opcodeKept_of_word _ (f3Word 0x45 x) rfl (congrArg (fun (c : BitVec 8) => some c.toNat) (opcField_f3Word 0x45 x).symm)

theorem OpcodeKept.shl (x : F3) : OpcodeKept.Statement (.shl x) :=
  opcodeKept_of_word _ (f3Word 0x46 x) rfl (congrArg (fun (c : BitVec 8) => some c.toNat) (opcField_f3Word 0x46 x).symm)

theorem OpcodeKept.shr (x : F3) : OpcodeKept.Statement (.shr x) :=
  opcodeKept_of_word _ (f3Word 0x47 x) rfl (congrArg (fun (c : BitVec 8) => some c.toNat) (opcField_f3Word 0x47 x).symm)

theorem OpcodeKept.sar (x : F3) : OpcodeKept.Statement (.sar x) :=
  opcodeKept_of_word _ (f3Word 0x48 x) rfl (congrArg (fun (c : BitVec 8) => some c.toNat) (opcField_f3Word 0x48 x).symm)

theorem OpcodeKept.rot (x : F3) : OpcodeKept.Statement (.rot x) :=
  opcodeKept_of_word _ (f3Word 0x49 x) rfl (congrArg (fun (c : BitVec 8) => some c.toNat) (opcField_f3Word 0x49 x).symm)

theorem OpcodeKept.fshf (x : F3) : OpcodeKept.Statement (.fshf x) :=
  opcodeKept_of_word _ (f3Word 0x4A x) rfl (congrArg (fun (c : BitVec 8) => some c.toNat) (opcField_f3Word 0x4A x).symm)

theorem OpcodeKept.bfe (x : F3) : OpcodeKept.Statement (.bfe x) :=
  opcodeKept_of_word _ (f3Word 0x4B x) rfl (congrArg (fun (c : BitVec 8) => some c.toNat) (opcField_f3Word 0x4B x).symm)

theorem OpcodeKept.bfi (x : F3) : OpcodeKept.Statement (.bfi x) :=
  opcodeKept_of_word _ (f3Word 0x4C x) rfl (congrArg (fun (c : BitVec 8) => some c.toNat) (opcField_f3Word 0x4C x).symm)

theorem OpcodeKept.popc (x : F3) : OpcodeKept.Statement (.popc x) :=
  opcodeKept_of_word _ (f3Word 0x4D x) rfl (congrArg (fun (c : BitVec 8) => some c.toNat) (opcField_f3Word 0x4D x).symm)

theorem OpcodeKept.clz (x : F3) : OpcodeKept.Statement (.clz x) :=
  opcodeKept_of_word _ (f3Word 0x4E x) rfl (congrArg (fun (c : BitVec 8) => some c.toNat) (opcField_f3Word 0x4E x).symm)

theorem OpcodeKept.ctz (x : F3) : OpcodeKept.Statement (.ctz x) :=
  opcodeKept_of_word _ (f3Word 0x4F x) rfl (congrArg (fun (c : BitVec 8) => some c.toNat) (opcField_f3Word 0x4F x).symm)

theorem OpcodeKept.brev (x : F3) : OpcodeKept.Statement (.brev x) :=
  opcodeKept_of_word _ (f3Word 0x50 x) rfl (congrArg (fun (c : BitVec 8) => some c.toNat) (opcField_f3Word 0x50 x).symm)

theorem OpcodeKept.bperm (x : F3) : OpcodeKept.Statement (.bperm x) :=
  opcodeKept_of_word _ (f3Word 0x51 x) rfl (congrArg (fun (c : BitVec 8) => some c.toNat) (opcField_f3Word 0x51 x).symm)

theorem OpcodeKept.vote (x : F3) : OpcodeKept.Statement (.vote x) :=
  opcodeKept_of_word _ (f3Word 0x52 x) rfl (congrArg (fun (c : BitVec 8) => some c.toNat) (opcField_f3Word 0x52 x).symm)

theorem OpcodeKept.ballot (x : F3) : OpcodeKept.Statement (.ballot x) :=
  opcodeKept_of_word _ (f3Word 0x53 x) rfl (congrArg (fun (c : BitVec 8) => some c.toNat) (opcField_f3Word 0x53 x).symm)

theorem OpcodeKept.xlane (x : F3) : OpcodeKept.Statement (.xlane x) :=
  opcodeKept_of_word _ (f3Word 0x54 x) rfl (congrArg (fun (c : BitVec 8) => some c.toNat) (opcField_f3Word 0x54 x).symm)

theorem OpcodeKept.matchL (x : F3) : OpcodeKept.Statement (.matchL x) :=
  opcodeKept_of_word _ (f3Word 0x55 x) rfl (congrArg (fun (c : BitVec 8) => some c.toNat) (opcField_f3Word 0x55 x).symm)

theorem OpcodeKept.redux (x : F3) : OpcodeKept.Statement (.redux x) :=
  opcodeKept_of_word _ (f3Word 0x56 x) rfl (congrArg (fun (c : BitVec 8) => some c.toNat) (opcField_f3Word 0x56 x).symm)

theorem OpcodeKept.scanx (x : F3) : OpcodeKept.Statement (.scanx x) :=
  opcodeKept_of_word _ (f3Word 0x57 x) rfl (congrArg (fun (c : BitVec 8) => some c.toNat) (opcField_f3Word 0x57 x).symm)

theorem OpcodeKept.readl (x : F3) : OpcodeKept.Statement (.readl x) :=
  opcodeKept_of_word _ (f3Word 0x58 x) rfl (congrArg (fun (c : BitVec 8) => some c.toNat) (opcField_f3Word 0x58 x).symm)

theorem OpcodeKept.bcast (x : F3) : OpcodeKept.Statement (.bcast x) :=
  opcodeKept_of_word _ (f3Word 0x59 x) rfl (congrArg (fun (c : BitVec 8) => some c.toNat) (opcField_f3Word 0x59 x).symm)

theorem OpcodeKept.fadd (x : F3) : OpcodeKept.Statement (.fadd x) :=
  opcodeKept_of_word _ (f3Word 0x60 x) rfl (congrArg (fun (c : BitVec 8) => some c.toNat) (opcField_f3Word 0x60 x).symm)

theorem OpcodeKept.fsub (x : F3) : OpcodeKept.Statement (.fsub x) :=
  opcodeKept_of_word _ (f3Word 0x61 x) rfl (congrArg (fun (c : BitVec 8) => some c.toNat) (opcField_f3Word 0x61 x).symm)

theorem OpcodeKept.fmul (x : F3) : OpcodeKept.Statement (.fmul x) :=
  opcodeKept_of_word _ (f3Word 0x62 x) rfl (congrArg (fun (c : BitVec 8) => some c.toNat) (opcField_f3Word 0x62 x).symm)

theorem OpcodeKept.ffma (x : F3) : OpcodeKept.Statement (.ffma x) :=
  opcodeKept_of_word _ (f3Word 0x63 x) rfl (congrArg (fun (c : BitVec 8) => some c.toNat) (opcField_f3Word 0x63 x).symm)

theorem OpcodeKept.fmin (x : F3) : OpcodeKept.Statement (.fmin x) :=
  opcodeKept_of_word _ (f3Word 0x64 x) rfl (congrArg (fun (c : BitVec 8) => some c.toNat) (opcField_f3Word 0x64 x).symm)

theorem OpcodeKept.fmax (x : F3) : OpcodeKept.Statement (.fmax x) :=
  opcodeKept_of_word _ (f3Word 0x65 x) rfl (congrArg (fun (c : BitVec 8) => some c.toNat) (opcField_f3Word 0x65 x).symm)

theorem OpcodeKept.fcmp (x : F3) : OpcodeKept.Statement (.fcmp x) :=
  opcodeKept_of_word _ (f3Word 0x66 x) rfl (congrArg (fun (c : BitVec 8) => some c.toNat) (opcField_f3Word 0x66 x).symm)

theorem OpcodeKept.fclass (x : F3) : OpcodeKept.Statement (.fclass x) :=
  opcodeKept_of_word _ (f3Word 0x67 x) rfl (congrArg (fun (c : BitVec 8) => some c.toNat) (opcField_f3Word 0x67 x).symm)

theorem OpcodeKept.frnd (x : F3) : OpcodeKept.Statement (.frnd x) :=
  opcodeKept_of_word _ (f3Word 0x68 x) rfl (congrArg (fun (c : BitVec 8) => some c.toNat) (opcField_f3Word 0x68 x).symm)

theorem OpcodeKept.ffrac (x : F3) : OpcodeKept.Statement (.ffrac x) :=
  opcodeKept_of_word _ (f3Word 0x69 x) rfl (congrArg (fun (c : BitVec 8) => some c.toNat) (opcField_f3Word 0x69 x).symm)

theorem OpcodeKept.fscale (x : F3) : OpcodeKept.Statement (.fscale x) :=
  opcodeKept_of_word _ (f3Word 0x6A x) rfl (congrArg (fun (c : BitVec 8) => some c.toNat) (opcField_f3Word 0x6A x).symm)

theorem OpcodeKept.frcp (x : F3) : OpcodeKept.Statement (.frcp x) :=
  opcodeKept_of_word _ (f3Word 0x70 x) rfl (congrArg (fun (c : BitVec 8) => some c.toNat) (opcField_f3Word 0x70 x).symm)

theorem OpcodeKept.frsq (x : F3) : OpcodeKept.Statement (.frsq x) :=
  opcodeKept_of_word _ (f3Word 0x71 x) rfl (congrArg (fun (c : BitVec 8) => some c.toNat) (opcField_f3Word 0x71 x).symm)

theorem OpcodeKept.fsqrt (x : F3) : OpcodeKept.Statement (.fsqrt x) :=
  opcodeKept_of_word _ (f3Word 0x72 x) rfl (congrArg (fun (c : BitVec 8) => some c.toNat) (opcField_f3Word 0x72 x).symm)

theorem OpcodeKept.fexp2 (x : F3) : OpcodeKept.Statement (.fexp2 x) :=
  opcodeKept_of_word _ (f3Word 0x73 x) rfl (congrArg (fun (c : BitVec 8) => some c.toNat) (opcField_f3Word 0x73 x).symm)

theorem OpcodeKept.flog2 (x : F3) : OpcodeKept.Statement (.flog2 x) :=
  opcodeKept_of_word _ (f3Word 0x74 x) rfl (congrArg (fun (c : BitVec 8) => some c.toNat) (opcField_f3Word 0x74 x).symm)

theorem OpcodeKept.fsin (x : F3) : OpcodeKept.Statement (.fsin x) :=
  opcodeKept_of_word _ (f3Word 0x75 x) rfl (congrArg (fun (c : BitVec 8) => some c.toNat) (opcField_f3Word 0x75 x).symm)

theorem OpcodeKept.fcos (x : F3) : OpcodeKept.Statement (.fcos x) :=
  opcodeKept_of_word _ (f3Word 0x76 x) rfl (congrArg (fun (c : BitVec 8) => some c.toNat) (opcField_f3Word 0x76 x).symm)

theorem OpcodeKept.ftanh (x : F3) : OpcodeKept.Statement (.ftanh x) :=
  opcodeKept_of_word _ (f3Word 0x77 x) rfl (congrArg (fun (c : BitVec 8) => some c.toNat) (opcField_f3Word 0x77 x).symm)

theorem OpcodeKept.pkadd (x : F3) : OpcodeKept.Statement (.pkadd x) :=
  opcodeKept_of_word _ (f3Word 0x78 x) rfl (congrArg (fun (c : BitVec 8) => some c.toNat) (opcField_f3Word 0x78 x).symm)

theorem OpcodeKept.pkmul (x : F3) : OpcodeKept.Statement (.pkmul x) :=
  opcodeKept_of_word _ (f3Word 0x79 x) rfl (congrArg (fun (c : BitVec 8) => some c.toNat) (opcField_f3Word 0x79 x).symm)

theorem OpcodeKept.pkfma (x : F3) : OpcodeKept.Statement (.pkfma x) :=
  opcodeKept_of_word _ (f3Word 0x7A x) rfl (congrArg (fun (c : BitVec 8) => some c.toNat) (opcField_f3Word 0x7A x).symm)

theorem OpcodeKept.pkmax (x : F3) : OpcodeKept.Statement (.pkmax x) :=
  opcodeKept_of_word _ (f3Word 0x7B x) rfl (congrArg (fun (c : BitVec 8) => some c.toNat) (opcField_f3Word 0x7B x).symm)

theorem OpcodeKept.dadd (x : F3) : OpcodeKept.Statement (.dadd x) :=
  opcodeKept_of_word _ (f3Word 0x80 x) rfl (congrArg (fun (c : BitVec 8) => some c.toNat) (opcField_f3Word 0x80 x).symm)

theorem OpcodeKept.dmul (x : F3) : OpcodeKept.Statement (.dmul x) :=
  opcodeKept_of_word _ (f3Word 0x81 x) rfl (congrArg (fun (c : BitVec 8) => some c.toNat) (opcField_f3Word 0x81 x).symm)

theorem OpcodeKept.dfma (x : F3) : OpcodeKept.Statement (.dfma x) :=
  opcodeKept_of_word _ (f3Word 0x82 x) rfl (congrArg (fun (c : BitVec 8) => some c.toNat) (opcField_f3Word 0x82 x).symm)

theorem OpcodeKept.dcmp (x : F3) : OpcodeKept.Statement (.dcmp x) :=
  opcodeKept_of_word _ (f3Word 0x83 x) rfl (congrArg (fun (c : BitVec 8) => some c.toNat) (opcField_f3Word 0x83 x).symm)

theorem OpcodeKept.fcvt (x : F3) : OpcodeKept.Statement (.fcvt x) :=
  opcodeKept_of_word _ (f3Word 0x84 x) rfl (congrArg (fun (c : BitVec 8) => some c.toNat) (opcField_f3Word 0x84 x).symm)

theorem OpcodeKept.icvt (x : F3) : OpcodeKept.Statement (.icvt x) :=
  opcodeKept_of_word _ (f3Word 0x85 x) rfl (congrArg (fun (c : BitVec 8) => some c.toNat) (opcField_f3Word 0x85 x).symm)

theorem OpcodeKept.fpack (x : F3) : OpcodeKept.Statement (.fpack x) :=
  opcodeKept_of_word _ (f3Word 0x86 x) rfl (congrArg (fun (c : BitVec 8) => some c.toNat) (opcField_f3Word 0x86 x).symm)

theorem OpcodeKept.funpack (x : F3) : OpcodeKept.Statement (.funpack x) :=
  opcodeKept_of_word _ (f3Word 0x87 x) rfl (congrArg (fun (c : BitVec 8) => some c.toNat) (opcField_f3Word 0x87 x).symm)

theorem OpcodeKept.bound (x : F3) : OpcodeKept.Statement (.bound x) :=
  opcodeKept_of_word _ (f3Word 0x88 x) rfl (congrArg (fun (c : BitVec 8) => some c.toNat) (opcField_f3Word 0x88 x).symm)

theorem OpcodeKept.mma (x : F3) : OpcodeKept.Statement (.mma x) :=
  opcodeKept_of_word _ (f3Word 0x90 x) rfl (congrArg (fun (c : BitVec 8) => some c.toNat) (opcField_f3Word 0x90 x).symm)

theorem OpcodeKept.mmaz (x : F3) : OpcodeKept.Statement (.mmaz x) :=
  opcodeKept_of_word _ (f3Word 0x91 x) rfl (congrArg (fun (c : BitVec 8) => some c.toNat) (opcField_f3Word 0x91 x).symm)

theorem OpcodeKept.fmtv (x : F3) : OpcodeKept.Statement (.fmtv x) :=
  opcodeKept_of_word _ (f3Word 0x92 x) rfl (congrArg (fun (c : BitVec 8) => some c.toNat) (opcField_f3Word 0x92 x).symm)

theorem OpcodeKept.accepi (x : F3) : OpcodeKept.Statement (.accepi x) :=
  opcodeKept_of_word _ (f3Word 0x93 x) rfl (congrArg (fun (c : BitVec 8) => some c.toNat) (opcField_f3Word 0x93 x).symm)

theorem OpcodeKept.accck (x : F3) : OpcodeKept.Statement (.accck x) :=
  opcodeKept_of_word _ (f3Word 0x94 x) rfl (congrArg (fun (c : BitVec 8) => some c.toNat) (opcField_f3Word 0x94 x).symm)

theorem OpcodeKept.mjob (x : F3) : OpcodeKept.Statement (.mjob x) :=
  opcodeKept_of_word _ (f3Word 0x95 x) rfl (congrArg (fun (c : BitVec 8) => some c.toNat) (opcField_f3Word 0x95 x).symm)

theorem OpcodeKept.accld (x : F3) : OpcodeKept.Statement (.accld x) :=
  opcodeKept_of_word _ (f3Word 0x96 x) rfl (congrArg (fun (c : BitVec 8) => some c.toNat) (opcField_f3Word 0x96 x).symm)

theorem OpcodeKept.accst (x : F3) : OpcodeKept.Statement (.accst x) :=
  opcodeKept_of_word _ (f3Word 0x97 x) rfl (congrArg (fun (c : BitVec 8) => some c.toNat) (opcField_f3Word 0x97 x).symm)

theorem OpcodeKept.accz (x : F3) : OpcodeKept.Statement (.accz x) :=
  opcodeKept_of_word _ (f3Word 0x98 x) rfl (congrArg (fun (c : BitVec 8) => some c.toNat) (opcField_f3Word 0x98 x).symm)

theorem OpcodeKept.ld (x : FM) : OpcodeKept.Statement (.ld x) :=
  opcodeKept_of_word _ (fmWord 0xA0 x) rfl (congrArg (fun (c : BitVec 8) => some c.toNat) (opcField_fmWord 0xA0 x).symm)

theorem OpcodeKept.st (x : FM) : OpcodeKept.Statement (.st x) :=
  opcodeKept_of_word _ (fmWord 0xA1 x) rfl (congrArg (fun (c : BitVec 8) => some c.toNat) (opcField_fmWord 0xA1 x).symm)

theorem OpcodeKept.lda (x : FM) : OpcodeKept.Statement (.lda x) :=
  opcodeKept_of_word _ (fmWord 0xA2 x) rfl (congrArg (fun (c : BitVec 8) => some c.toNat) (opcField_fmWord 0xA2 x).symm)

theorem OpcodeKept.chka (x : FM) : OpcodeKept.Statement (.chka x) :=
  opcodeKept_of_word _ (fmWord 0xA3 x) rfl (congrArg (fun (c : BitVec 8) => some c.toNat) (opcField_fmWord 0xA3 x).symm)

theorem OpcodeKept.invala (x : FM) : OpcodeKept.Statement (.invala x) :=
  opcodeKept_of_word _ (fmWord 0xA4 x) rfl (congrArg (fun (c : BitVec 8) => some c.toNat) (opcField_fmWord 0xA4 x).symm)

theorem OpcodeKept.ldix (x : FM) : OpcodeKept.Statement (.ldix x) :=
  opcodeKept_of_word _ (fmWord 0xA5 x) rfl (congrArg (fun (c : BitVec 8) => some c.toNat) (opcField_fmWord 0xA5 x).symm)

theorem OpcodeKept.pref (x : FM) : OpcodeKept.Statement (.pref x) :=
  opcodeKept_of_word _ (fmWord 0xA6 x) rfl (congrArg (fun (c : BitVec 8) => some c.toNat) (opcField_fmWord 0xA6 x).symm)

theorem OpcodeKept.prefb (x : FM) : OpcodeKept.Statement (.prefb x) :=
  opcodeKept_of_word _ (fmWord 0xA7 x) rfl (congrArg (fun (c : BitVec 8) => some c.toNat) (opcField_fmWord 0xA7 x).symm)

theorem OpcodeKept.cwb (x : FM) : OpcodeKept.Statement (.cwb x) :=
  opcodeKept_of_word _ (fmWord 0xA8 x) rfl (congrArg (fun (c : BitVec 8) => some c.toNat) (opcField_fmWord 0xA8 x).symm)

theorem OpcodeKept.icinv (x : FM) : OpcodeKept.Statement (.icinv x) :=
  opcodeKept_of_word _ (fmWord 0xA9 x) rfl (congrArg (fun (c : BitVec 8) => some c.toNat) (opcField_fmWord 0xA9 x).symm)

theorem OpcodeKept.fetchb (x : FM) : OpcodeKept.Statement (.fetchb x) :=
  opcodeKept_of_word _ (fmWord 0xAA x) rfl (congrArg (fun (c : BitVec 8) => some c.toNat) (opcField_fmWord 0xAA x).symm)

theorem OpcodeKept.fence (x : FM) : OpcodeKept.Statement (.fence x) :=
  opcodeKept_of_word _ (fmWord 0xAB x) rfl (congrArg (fun (c : BitVec 8) => some c.toNat) (opcField_fmWord 0xAB x).symm)

theorem OpcodeKept.lds (x : FM) : OpcodeKept.Statement (.lds x) :=
  opcodeKept_of_word _ (fmWord 0xB0 x) rfl (congrArg (fun (c : BitVec 8) => some c.toNat) (opcField_fmWord 0xB0 x).symm)

theorem OpcodeKept.sts (x : FM) : OpcodeKept.Statement (.sts x) :=
  opcodeKept_of_word _ (fmWord 0xB1 x) rfl (congrArg (fun (c : BitVec 8) => some c.toNat) (opcField_fmWord 0xB1 x).symm)

theorem OpcodeKept.stx (x : FM) : OpcodeKept.Statement (.stx x) :=
  opcodeKept_of_word _ (fmWord 0xB2 x) rfl (congrArg (fun (c : BitVec 8) => some c.toNat) (opcField_fmWord 0xB2 x).symm)

theorem OpcodeKept.ldf (x : FM) : OpcodeKept.Statement (.ldf x) :=
  opcodeKept_of_word _ (fmWord 0xB3 x) rfl (congrArg (fun (c : BitVec 8) => some c.toNat) (opcField_fmWord 0xB3 x).symm)

theorem OpcodeKept.ste (x : FM) : OpcodeKept.Statement (.ste x) :=
  opcodeKept_of_word _ (fmWord 0xB4 x) rfl (congrArg (fun (c : BitVec 8) => some c.toNat) (opcField_fmWord 0xB4 x).symm)

theorem OpcodeKept.stf (x : FM) : OpcodeKept.Statement (.stf x) :=
  opcodeKept_of_word _ (fmWord 0xB5 x) rfl (congrArg (fun (c : BitVec 8) => some c.toNat) (opcField_fmWord 0xB5 x).symm)

theorem OpcodeKept.tagset (x : FM) : OpcodeKept.Statement (.tagset x) :=
  opcodeKept_of_word _ (fmWord 0xB6 x) rfl (congrArg (fun (c : BitVec 8) => some c.toNat) (opcField_fmWord 0xB6 x).symm)

theorem OpcodeKept.tagclr (x : FM) : OpcodeKept.Statement (.tagclr x) :=
  opcodeKept_of_word _ (fmWord 0xB7 x) rfl (congrArg (fun (c : BitVec 8) => some c.toNat) (opcField_fmWord 0xB7 x).symm)

theorem OpcodeKept.tagrd (x : FM) : OpcodeKept.Statement (.tagrd x) :=
  opcodeKept_of_word _ (fmWord 0xB8 x) rfl (congrArg (fun (c : BitVec 8) => some c.toNat) (opcField_fmWord 0xB8 x).symm)

theorem OpcodeKept.prsrd (x : FM) : OpcodeKept.Statement (.prsrd x) :=
  opcodeKept_of_word _ (fmWord 0xB9 x) rfl (congrArg (fun (c : BitVec 8) => some c.toNat) (opcField_fmWord 0xB9 x).symm)

theorem OpcodeKept.atom (x : FM) : OpcodeKept.Statement (.atom x) :=
  opcodeKept_of_word _ (fmWord 0xC0 x) rfl (congrArg (fun (c : BitVec 8) => some c.toNat) (opcField_fmWord 0xC0 x).symm)

theorem OpcodeKept.red (x : FM) : OpcodeKept.Statement (.red x) :=
  opcodeKept_of_word _ (fmWord 0xC1 x) rfl (congrArg (fun (c : BitVec 8) => some c.toNat) (opcField_fmWord 0xC1 x).symm)

theorem OpcodeKept.atoms (x : FM) : OpcodeKept.Statement (.atoms x) :=
  opcodeKept_of_word _ (fmWord 0xC2 x) rfl (congrArg (fun (c : BitVec 8) => some c.toNat) (opcField_fmWord 0xC2 x).symm)

theorem OpcodeKept.reds (x : FM) : OpcodeKept.Statement (.reds x) :=
  opcodeKept_of_word _ (fmWord 0xC3 x) rfl (congrArg (fun (c : BitVec 8) => some c.toNat) (opcField_fmWord 0xC3 x).symm)

theorem OpcodeKept.atomx (x : FM) : OpcodeKept.Statement (.atomx x) :=
  opcodeKept_of_word _ (fmWord 0xC4 x) rfl (congrArg (fun (c : BitVec 8) => some c.toNat) (opcField_fmWord 0xC4 x).symm)

theorem OpcodeKept.copy (x : F3) : OpcodeKept.Statement (.copy x) :=
  opcodeKept_of_word _ (f3Word 0xD0 x) rfl (congrArg (fun (c : BitVec 8) => some c.toNat) (opcField_f3Word 0xD0 x).symm)

theorem OpcodeKept.copyg (x : F3) : OpcodeKept.Statement (.copyg x) :=
  opcodeKept_of_word _ (f3Word 0xD1 x) rfl (congrArg (fun (c : BitVec 8) => some c.toNat) (opcField_f3Word 0xD1 x).symm)

theorem OpcodeKept.copys (x : F3) : OpcodeKept.Statement (.copys x) :=
  opcodeKept_of_word _ (f3Word 0xD2 x) rfl (congrArg (fun (c : BitVec 8) => some c.toNat) (opcField_f3Word 0xD2 x).symm)

theorem OpcodeKept.copyr (x : F3) : OpcodeKept.Statement (.copyr x) :=
  opcodeKept_of_word _ (f3Word 0xD3 x) rfl (congrArg (fun (c : BitVec 8) => some c.toNat) (opcField_f3Word 0xD3 x).symm)

theorem OpcodeKept.cbload (x : F3) : OpcodeKept.Statement (.cbload x) :=
  opcodeKept_of_word _ (f3Word 0xD4 x) rfl (congrArg (fun (c : BitVec 8) => some c.toNat) (opcField_f3Word 0xD4 x).symm)

theorem OpcodeKept.cbdrop (x : F3) : OpcodeKept.Statement (.cbdrop x) :=
  opcodeKept_of_word _ (f3Word 0xD5 x) rfl (congrArg (fun (c : BitVec 8) => some c.toNat) (opcField_f3Word 0xD5 x).symm)

theorem OpcodeKept.cqry (x : F3) : OpcodeKept.Statement (.cqry x) :=
  opcodeKept_of_word _ (f3Word 0xD6 x) rfl (congrArg (fun (c : BitVec 8) => some c.toNat) (opcField_f3Word 0xD6 x).symm)

theorem OpcodeKept.switchMarkerPass (a : AgentKey) : OpcodeKept.Statement (.switchMarkerPass a) := opcodeKept_of_none _ rfl

theorem OpcodeKept.fenceComplete (a : AgentKey) : OpcodeKept.Statement (.fenceComplete a) := opcodeKept_of_none _ rfl

theorem OpcodeKept.sleepExpiry (a : AgentKey) : OpcodeKept.Statement (.sleepExpiry a) := opcodeKept_of_none _ rfl

theorem OpcodeKept.leaseExpiry (core line : Nat) : OpcodeKept.Statement (.leaseExpiry core line) := opcodeKept_of_none _ rfl

theorem OpcodeKept.addressTableExpiry (a : AgentKey) : OpcodeKept.Statement (.addressTableExpiry a) := opcodeKept_of_none _ rfl

theorem OpcodeKept.absentLineWake (a : AgentKey) : OpcodeKept.Statement (.absentLineWake a) := opcodeKept_of_none _ rfl

theorem OpcodeKept.stepComplete (g : GroupKey) : OpcodeKept.Statement (.stepComplete g) := opcodeKept_of_none _ rfl

theorem OpcodeKept.nextPlaneRefillDone (team region : Nat) : OpcodeKept.Statement (.nextPlaneRefillDone team region) := opcodeKept_of_none _ rfl

theorem OpcodeKept.redtResult (g : GroupKey) (k : Nat) : OpcodeKept.Statement (.redtResult g k) := opcodeKept_of_none _ rfl

theorem OpcodeKept.whiskMessage (n : Nat) : OpcodeKept.Statement (.whiskMessage n) := opcodeKept_of_none _ rfl

theorem OpcodeKept.rd (h : Hop) : OpcodeKept.Statement (.rd h) := opcodeKept_of_none _ rfl

theorem OpcodeKept.rdr (h : Hop) : OpcodeKept.Statement (.rdr h) := opcodeKept_of_none _ rfl

theorem OpcodeKept.wr (h : Hop) : OpcodeKept.Statement (.wr h) := opcodeKept_of_none _ rfl

theorem OpcodeKept.wrc (h : Hop) : OpcodeKept.Statement (.wrc h) := opcodeKept_of_none _ rfl

theorem OpcodeKept.atPkt (h : Hop) : OpcodeKept.Statement (.atPkt h) := opcodeKept_of_none _ rfl

theorem OpcodeKept.atr (h : Hop) : OpcodeKept.Statement (.atr h) := opcodeKept_of_none _ rfl

theorem OpcodeKept.lx (h : Hop) : OpcodeKept.Statement (.lx h) := opcodeKept_of_none _ rfl

theorem OpcodeKept.fm (h : Hop) : OpcodeKept.Statement (.fm h) := opcodeKept_of_none _ rfl

theorem OpcodeKept.fmr (h : Hop) : OpcodeKept.Statement (.fmr h) := opcodeKept_of_none _ rfl

theorem OpcodeKept.xm (h : Hop) : OpcodeKept.Statement (.xm h) := opcodeKept_of_none _ rfl

theorem OpcodeKept.pf (h : Hop) : OpcodeKept.Statement (.pf h) := opcodeKept_of_none _ rfl

theorem OpcodeKept.pfReply (h : Hop) : OpcodeKept.Statement (.pfReply h) := opcodeKept_of_none _ rfl

theorem OpcodeKept.rm (h : Hop) : OpcodeKept.Statement (.rm h) := opcodeKept_of_none _ rfl

theorem OpcodeKept.rma (h : Hop) : OpcodeKept.Statement (.rma h) := opcodeKept_of_none _ rfl

theorem OpcodeKept.lc (h : Hop) : OpcodeKept.Statement (.lc h) := opcodeKept_of_none _ rfl

theorem OpcodeKept.lossNotice (h : Hop) : OpcodeKept.Statement (.lossNotice h) := opcodeKept_of_none _ rfl

theorem OpcodeKept.tx (h : Hop) : OpcodeKept.Statement (.tx h) := opcodeKept_of_none _ rfl

theorem OpcodeKept.reservedPacket (h : Hop) : OpcodeKept.Statement (.reservedPacket h) := opcodeKept_of_none _ rfl

theorem OpcodeKept.linkRetryTimeout (h : Hop) : OpcodeKept.Statement (.linkRetryTimeout h) := opcodeKept_of_none _ rfl

theorem OpcodeKept.colourDark (h : Hop) (optical : Bool) : OpcodeKept.Statement (.colourDark h optical) := opcodeKept_of_none _ rfl

theorem OpcodeKept.routeWrite (i j : Nat) (v : Word64) : OpcodeKept.Statement (.routeWrite i j v) := opcodeKept_of_none _ rfl

theorem OpcodeKept.routeRetest (i j : Nat) (v : Word64) : OpcodeKept.Statement (.routeRetest i j v) := opcodeKept_of_none _ rfl

theorem OpcodeKept.routeRetestDone (i j : Nat) (okA okB : Bool) : OpcodeKept.Statement (.routeRetestDone i j okA okB) := opcodeKept_of_none _ rfl

theorem OpcodeKept.timeExchange (sock : Nat) (t1 t2 t3 t4 : Int) : OpcodeKept.Statement (.timeExchange sock t1 t2 t3 t4) :=
  opcodeKept_of_none _ rfl

theorem OpcodeKept.translationRequest (h : Hop) : OpcodeKept.Statement (.translationRequest h) := opcodeKept_of_none _ rfl

theorem OpcodeKept.walkReferenceReply (sock walk : Nat) : OpcodeKept.Statement (.walkReferenceReply sock walk) := opcodeKept_of_none _ rfl

theorem OpcodeKept.pageRequestPost (sock : Nat) : OpcodeKept.Statement (.pageRequestPost sock) := opcodeKept_of_none _ rfl

theorem OpcodeKept.prqRecordComplete (ctx : Nat) : OpcodeKept.Statement (.prqRecordComplete ctx) := opcodeKept_of_none _ rfl

theorem OpcodeKept.prrespRetry (ctx : Nat) (v : Word64) : OpcodeKept.Statement (.prrespRetry ctx v) := opcodeKept_of_none _ rfl

theorem OpcodeKept.prrespRefuse (ctx : Nat) (v : Word64) : OpcodeKept.Statement (.prrespRefuse ctx v) := opcodeKept_of_none _ rfl

theorem OpcodeKept.xlatinvRange (v : Word64) : OpcodeKept.Statement (.xlatinvRange v) := opcodeKept_of_none _ rfl

theorem OpcodeKept.xlatinvContext (v : Word64) : OpcodeKept.Statement (.xlatinvContext v) := opcodeKept_of_none _ rfl

theorem OpcodeKept.xlatinvAll (v : Word64) : OpcodeKept.Statement (.xlatinvAll v) := opcodeKept_of_none _ rfl

theorem OpcodeKept.xlatinvComplete : OpcodeKept.Statement (.xlatinvComplete) := opcodeKept_of_none _ rfl

theorem OpcodeKept.pinctlUnpinRange (n : Nat) (v : Word64) : OpcodeKept.Statement (.pinctlUnpinRange n v) := opcodeKept_of_none _ rfl

theorem OpcodeKept.pinctlUnpinAll (n : Nat) (v : Word64) : OpcodeKept.Statement (.pinctlUnpinAll n v) := opcodeKept_of_none _ rfl

theorem OpcodeKept.pinctlComplete (n : Nat) : OpcodeKept.Statement (.pinctlComplete n) := opcodeKept_of_none _ rfl

theorem OpcodeKept.scrubRead (n : Nat) : OpcodeKept.Statement (.scrubRead n) := opcodeKept_of_none _ rfl

theorem OpcodeKept.memerrClear (n : Nat) (v : Word64) : OpcodeKept.Statement (.memerrClear n v) := opcodeKept_of_none _ rfl

theorem OpcodeKept.icinvCommit (h : Hop) : OpcodeKept.Statement (.icinvCommit h) := opcodeKept_of_none _ rfl

theorem OpcodeKept.lineFill (a : AgentKey) (line : Nat) : OpcodeKept.Statement (.lineFill a line) := opcodeKept_of_none _ rfl

theorem OpcodeKept.copyChunk (c e : Nat) : OpcodeKept.Statement (.copyChunk c e) := opcodeKept_of_none _ rfl

theorem OpcodeKept.copyComplete (c e n : Nat) : OpcodeKept.Statement (.copyComplete c e n) := opcodeKept_of_none _ rfl

theorem OpcodeKept.cbloadServe (c e : Nat) : OpcodeKept.Statement (.cbloadServe c e) := opcodeKept_of_none _ rfl

theorem OpcodeKept.cbdropServe (c e : Nat) : OpcodeKept.Statement (.cbdropServe c e) := opcodeKept_of_none _ rfl

theorem OpcodeKept.jobAdmission (cluster : Nat) : OpcodeKept.Statement (.jobAdmission cluster) := opcodeKept_of_none _ rfl

theorem OpcodeKept.jobStep (core : Nat) : OpcodeKept.Statement (.jobStep core) := opcodeKept_of_none _ rfl

theorem OpcodeKept.jobComplete (core : Nat) : OpcodeKept.Statement (.jobComplete core) := opcodeKept_of_none _ rfl

theorem OpcodeKept.queueWindowWrite (w : WindowWrite) : OpcodeKept.Statement (.queueWindowWrite w) := opcodeKept_of_none _ rfl

theorem OpcodeKept.qcfgWrite (q : Nat) (v : Word64) : OpcodeKept.Statement (.qcfgWrite q v) := opcodeKept_of_none _ rfl

theorem OpcodeKept.qstatClear (q : Nat) (v : Word64) : OpcodeKept.Statement (.qstatClear q v) := opcodeKept_of_none _ rfl

theorem OpcodeKept.dispatchTake : OpcodeKept.Statement (.dispatchTake) := opcodeKept_of_none _ rfl

theorem OpcodeKept.teamPlace (grid team core : Nat) : OpcodeKept.Statement (.teamPlace grid team core) := opcodeKept_of_none _ rfl

theorem OpcodeKept.cohortPlace (grid : Nat) (cores : List Nat) : OpcodeKept.Statement (.cohortPlace grid cores) := opcodeKept_of_none _ rfl

theorem OpcodeKept.cohortWaitExpiry (q : Nat) : OpcodeKept.Statement (.cohortWaitExpiry q) := opcodeKept_of_none _ rfl

theorem OpcodeKept.teamRetire (team : Nat) : OpcodeKept.Statement (.teamRetire team) := opcodeKept_of_none _ rfl

theorem OpcodeKept.gridRetire (grid : Nat) : OpcodeKept.Statement (.gridRetire grid) := opcodeKept_of_none _ rfl

theorem OpcodeKept.controlIntervalBoundary (loads : List Nat) : OpcodeKept.Statement (.controlIntervalBoundary loads) := opcodeKept_of_none _ rfl

theorem OpcodeKept.shedSafeDeadline : OpcodeKept.Statement (.shedSafeDeadline) := opcodeKept_of_none _ rfl

theorem OpcodeKept.shelfSample (f v : BitVec 16) (good : Bool) : OpcodeKept.Statement (.shelfSample f v good) := opcodeKept_of_none _ rfl

theorem OpcodeKept.telemetryStale : OpcodeKept.Statement (.telemetryStale) := opcodeKept_of_none _ rfl

theorem OpcodeKept.droopCurveWrite (k : Nat) (v : Word64) : OpcodeKept.Statement (.droopCurveWrite k v) := opcodeKept_of_none _ rfl

theorem OpcodeKept.droopDetect (cluster : Nat) : OpcodeKept.Statement (.droopDetect cluster) := opcodeKept_of_none _ rfl

theorem OpcodeKept.droopHoldExpiry (cluster : Nat) : OpcodeKept.Statement (.droopHoldExpiry cluster) := opcodeKept_of_none _ rfl

theorem OpcodeKept.teamSave (grid : Nat) : OpcodeKept.Statement (.teamSave grid) := opcodeKept_of_none _ rfl

theorem OpcodeKept.teamRestore (grid : Nat) (cores : List Nat) : OpcodeKept.Statement (.teamRestore grid cores) := opcodeKept_of_none _ rfl

theorem OpcodeKept.watchdogExpiry (a : AgentKey) : OpcodeKept.Statement (.watchdogExpiry a) := opcodeKept_of_none _ rfl

theorem OpcodeKept.emergencySaveComplete : OpcodeKept.Statement (.emergencySaveComplete) := opcodeKept_of_none _ rfl

theorem OpcodeKept.scanDrainComplete : OpcodeKept.Statement (.scanDrainComplete) := opcodeKept_of_none _ rfl

theorem OpcodeKept.scanRunComplete : OpcodeKept.Statement (.scanRunComplete) := opcodeKept_of_none _ rfl

theorem OpcodeKept.pacePeriodEnd : OpcodeKept.Statement (.pacePeriodEnd) := opcodeKept_of_none _ rfl

theorem OpcodeKept.hostWriteCompletion (n : Nat) : OpcodeKept.Statement (.hostWriteCompletion n) := opcodeKept_of_none _ rfl

theorem OpcodeKept.hostLinkTimeout : OpcodeKept.Statement (.hostLinkTimeout) := opcodeKept_of_none _ rfl

theorem OpcodeKept.snoopTimeout (line : Nat) : OpcodeKept.Statement (.snoopTimeout line) := opcodeKept_of_none _ rfl

theorem OpcodeKept.scaleupRecoveryTimeout (port : Nat) : OpcodeKept.Statement (.scaleupRecoveryTimeout port) := opcodeKept_of_none _ rfl

theorem OpcodeKept.socketPowerUp (sock : Nat) : OpcodeKept.Statement (.socketPowerUp sock) := opcodeKept_of_none _ rfl

theorem OpcodeKept.chipletRelease (sock : Nat) : OpcodeKept.Statement (.chipletRelease sock) := opcodeKept_of_none _ rfl

theorem OpcodeKept.icinvChipletAck (a : AgentKey) (sock : Nat) : OpcodeKept.Statement (.icinvChipletAck a sock) := opcodeKept_of_none _ rfl

theorem OpcodeKept.preemptSave (v : Word64) : OpcodeKept.Statement (.preemptSave v) := opcodeKept_of_none _ rfl

theorem OpcodeKept.preemptResume (v : Word64) : OpcodeKept.Statement (.preemptResume v) := opcodeKept_of_none _ rfl

theorem OpcodeKept.preemptCancel (v : Word64) : OpcodeKept.Statement (.preemptCancel v) := opcodeKept_of_none _ rfl

theorem OpcodeKept.thermalReport (sock deg : Nat) : OpcodeKept.Statement (.thermalReport sock deg) := opcodeKept_of_none _ rfl

theorem OpcodeKept.scanDrain (v : Word64) : OpcodeKept.Statement (.scanDrain v) := opcodeKept_of_none _ rfl

theorem OpcodeKept.scanRun (v : Word64) : OpcodeKept.Statement (.scanRun v) := opcodeKept_of_none _ rfl

theorem OpcodeKept.scanRelease (v : Word64) : OpcodeKept.Statement (.scanRelease v) := opcodeKept_of_none _ rfl

theorem OpcodeKept.coreDomWrite (g : Nat) (v : Word64) : OpcodeKept.Statement (.coreDomWrite g v) := opcodeKept_of_none _ rfl

theorem OpcodeKept.fltbaseWrite (d : Nat) (v : Word64) : OpcodeKept.Statement (.fltbaseWrite d v) := opcodeKept_of_none _ rfl

theorem OpcodeKept.cestatClear (c e : Nat) (v : Word64) : OpcodeKept.Statement (.cestatClear c e v) := opcodeKept_of_none _ rfl

theorem OpcodeKept.hidstatClear (v : Word64) : OpcodeKept.Statement (.hidstatClear v) := opcodeKept_of_none _ rfl

theorem OpcodeKept.hostcfgRearm (v : Word64) : OpcodeKept.Statement (.hostcfgRearm v) := opcodeKept_of_none _ rfl

theorem OpcodeKept.pacecfgWrite (v : Word64) : OpcodeKept.Statement (.pacecfgWrite v) := opcodeKept_of_none _ rfl

theorem OpcodeKept.lagWordReceive (lag : Nat) : OpcodeKept.Statement (.lagWordReceive lag) := opcodeKept_of_none _ rfl

theorem OpcodeKept.registerWrite (r : Reg) (v : Word64) : OpcodeKept.Statement (.registerWrite r v) := opcodeKept_of_none _ rfl

theorem OpcodeKept.hostMemRead (q : HostRead) : OpcodeKept.Statement (.hostMemRead q) := opcodeKept_of_none _ rfl

theorem OpcodeKept.hostMemWrite (q : HostWrite) : OpcodeKept.Statement (.hostMemWrite q) := opcodeKept_of_none _ rfl

theorem OpcodeKept.snoopResponse (line : Nat) (cells : List (Nat × Byte)) : OpcodeKept.Statement (.snoopResponse line cells) := opcodeKept_of_none _ rfl

theorem OpcodeKept.dieFailure (sock : Nat) : OpcodeKept.Statement (.dieFailure sock) := opcodeKept_of_none _ rfl

theorem OpcodeKept.computeChipletFailure (sock : Nat) : OpcodeKept.Statement (.computeChipletFailure sock) := opcodeKept_of_none _ rfl

theorem OpcodeKept.dieErrorReport (sock : Nat) : OpcodeKept.Statement (.dieErrorReport sock) := opcodeKept_of_none _ rfl

theorem OpcodeKept.scaleupLinkState (port : Nat) (st : LinkState) : OpcodeKept.Statement (.scaleupLinkState port st) := opcodeKept_of_none _ rfl

theorem OpcodeKept.hartFence (hart : Nat) (predW succR : Bool) : OpcodeKept.Statement (.hartFence hart predW succR) := opcodeKept_of_none _ rfl

theorem OpcodeKept.hartAmo (hart : Nat) (q : HartAmo) : OpcodeKept.Statement (.hartAmo hart q) := opcodeKept_of_none _ rfl

theorem OpcodeKept.hartLr (hart pa : Nat) (w64 : Bool) : OpcodeKept.Statement (.hartLr hart pa w64) := opcodeKept_of_none _ rfl

theorem OpcodeKept.hartSc (hart pa : Nat) (w64 : Bool) (v : Word64) : OpcodeKept.Statement (.hartSc hart pa w64 v) := opcodeKept_of_none _ rfl

theorem OpcodeKept.hartFenceI (hart : Nat) : OpcodeKept.Statement (.hartFenceI hart) := opcodeKept_of_none _ rfl

theorem OpcodeKept.mgmtAssign (kind : AssignKind) (n domain : Nat) : OpcodeKept.Statement (.mgmtAssign kind n domain) := opcodeKept_of_none _ rfl

theorem OpcodeKept.mgmtDebugEnable (domain : Nat) : OpcodeKept.Statement (.mgmtDebugEnable domain) := opcodeKept_of_none _ rfl

theorem OpcodeKept.mgmtDebugDisable (domain : Nat) : OpcodeKept.Statement (.mgmtDebugDisable domain) := opcodeKept_of_none _ rfl

theorem OpcodeKept.mgmtDeclareHostLost : OpcodeKept.Statement (.mgmtDeclareHostLost) := opcodeKept_of_none _ rfl

theorem OpcodeKept.domainReset (domain : Nat) : OpcodeKept.Statement (.domainReset domain) := opcodeKept_of_none _ rfl

theorem OpcodeKept.firmwareUpdate (image : Nat) (bytes : List Byte) : OpcodeKept.Statement (.firmwareUpdate image bytes) := opcodeKept_of_none _ rfl

theorem OpcodeKept.attestationRequest (nonce : List Byte) : OpcodeKept.Statement (.attestationRequest nonce) := opcodeKept_of_none _ rfl

theorem OpcodeKept.debugResume (a : AgentKey) : OpcodeKept.Statement (.debugResume a) := opcodeKept_of_none _ rfl

theorem OpcodeKept.packageReset : OpcodeKept.Statement (.packageReset) := opcodeKept_of_none _ rfl

theorem OpcodeKept.measuredBoot (b : BootImages) : OpcodeKept.Statement (.measuredBoot b) := opcodeKept_of_none _ rfl

theorem OpcodeKept.hostLinkL0Change (up : Bool) : OpcodeKept.Statement (.hostLinkL0Change up) := opcodeKept_of_none _ rfl

theorem OpcodeKept.systemRangeReply (n : Nat) (r : SystemReply) : OpcodeKept.Statement (.systemRangeReply n r) := opcodeKept_of_none _ rfl

theorem OpcodeKept.standbyPowerLoss : OpcodeKept.Statement (.standbyPowerLoss) := opcodeKept_of_none _ rfl

end Laws

end Sys2Proof
end

