-- ==== Sys2Proof/Laws/Shared.lean ====
section
/-! SUPPORT. What the shared operations can do: events, lanes, fences, links. -/

namespace Sys2Proof.Machine

/-! ### Taking an event (R389, R394, R396) -/

/-- An event of an agent that is not there changes nothing. -/
theorem raise_absent {s : State} {k : AgentKey} (e : Event) (ds : List Deferred) (h : agentOf s k = none) : raise s k e ds = s := by
  simp [raise, h]

/-- Inside a region an event that unwinds goes to the handler, with a record only where the log asks for contained ones. -/
theorem raise_unwinds {s : State} {k : AgentKey} {a : Agent} {t : Team} {g : Grid} (e : Event) (ds : List Deferred) (ha : agentOf s k = some a)
    (ht : teamOf s k.team = some t) (hg : gridOf s t.grid = some g) (hu : unwinds e.cause = true) (hr : a.regions ≠ []) :
    raise s k e ds = unwind (logDiscarded (if bit (regGet s (.fltbase g.domain)) 62 then logRecord s (agentRecord s a t g e true false) else s)
      a t g (a.deferred.filter fun d => !ds.contains d)) a t e := by
  simp [raise, ha, ht, hg, hu, hr]

/-- Otherwise its record is logged and its grid is terminated. -/
theorem raise_terminates {s : State} {k : AgentKey} {a : Agent} {t : Team} {g : Grid} (e : Event) (ds : List Deferred) (ha : agentOf s k = some a)
    (ht : teamOf s k.team = some t) (hg : gridOf s t.grid = some g) (hu : unwinds e.cause = false ∨ a.regions = []) :
    raise s k e ds = terminateGrid (logDiscarded (logRecord s (agentRecord s a t g e false true)) a t g
      (a.deferred.filter fun d => !ds.contains d)) g.id e.cause := by
  rcases hu with hu | hr
  · simp [raise, ha, ht, hg, hu]
  · simp [raise, ha, ht, hg, hr]

/-! ### Lanes -/

theorem agentOf_moveLanes (s : State) (k : AgentKey) (ts : List (Nat × Nat)) :
    agentOf (moveLanes s k ts) k = (agentOf s k).map fun a => { a with lpc := ts.foldl (fun m t => sset a.entry m t.1 t.2) a.lpc } :=
  agentOf_updAgent_same s k _ fun _ => rfl

theorem agentOf_parkLanes (s : State) (k : AgentKey) (ls : List Nat) (pc : Nat) (st : LaneState) :
    agentOf (parkLanes s k ls pc st) k = (agentOf s k).map fun a =>
      { a with lanes := ls.foldl (fun m l => sset .ready m l st) a.lanes, lpc := ls.foldl (fun m l => sset a.entry m l pc) a.lpc } :=
  agentOf_updAgent_same s k _ fun _ => rfl

@[simp] theorem exitLanes_nil (s : State) (k : AgentKey) : exitLanes s k [] = s := rfl

/-- A value set in several lanes. -/
theorem sget_foldl_sset {V : Type} [DecidableEq V] (d v : V) (ls : List Nat) (m : Sparse V) (j : Nat) :
    sget d (ls.foldl (fun m l => sset d m l v) m) j = if j ∈ ls then v else sget d m j := by
  induction ls generalizing m with
  | nil => simp
  | cons l ls ih =>
    rw [List.foldl_cons, ih, sget_sset]
    by_cases h1 : j ∈ ls
    · simp [h1]
    · by_cases h2 : j = l <;> simp [h1, h2]

/-! ### Links (R37, R38) -/

@[simp] theorem linkOf_setLink_same (s : State) (l : Link) : linkOf (setLink s l) l.hop = l := by
  unfold setLink
  by_cases h : (s.links.any fun x => x.hop == l.hop) = true
  · have hf : (s.links.find? fun x => x.hop == l.hop).isSome = true := by simpa using h
    obtain ⟨x, hx⟩ := Option.isSome_iff_exists.mp hf
    have hxh : x.hop = l.hop := by simpa using List.find?_some hx
    simp only [linkOf, h, if_true]
    rw [find_updWhere (fun x => x.hop == l.hop) (fun x => x.hop == l.hop) (fun _ => l) s.links fun y hy => by
      have : y.hop = l.hop := by simpa using hy
      rw [this]]
    simp [hx, hxh]
  · have hn : s.links.find? (fun x => x.hop == l.hop) = none := by
      rw [List.find?_eq_none]
      intro x hx hh
      exact h (List.any_eq_true.mpr ⟨x, hx, hh⟩)
    simp [linkOf, h, List.find?_append, hn]

theorem linkOf_setLink_ne (s : State) (l : Link) {h : Hop} (hh : h ≠ l.hop) : linkOf (setLink s l) h = linkOf s h := by
  unfold setLink
  by_cases hc : (s.links.any fun x => x.hop == l.hop) = true
  · simp only [linkOf, hc, if_true]
    rw [find_updWhere (fun x => x.hop == l.hop) (fun x => x.hop == h) (fun _ => l) s.links fun y hy => by
      have : y.hop = l.hop := by simpa using hy
      rw [this]]
    cases hf : s.links.find? fun x => x.hop == h with
    | none => rfl
    | some x =>
      have hx : x.hop = h := by simpa using List.find?_some hf
      simp [hx, hh]
  · simp [linkOf, hc, List.find?_append, Ne.symm hh]

end Sys2Proof.Machine
end

