-- ==== Sys2Proof/Laws/Word.lean ====
section
/-! SUPPORT. Laws of bit fields (R4): a field reads back, and a write leaves the bits outside it alone. -/

namespace Sys2Proof.Machine

variable {n : Nat}

theorem fld_lt (w : BitVec n) (hi lo : Nat) : fld w hi lo < 2 ^ (hi + 1 - lo) := Nat.mod_lt _ (Nat.two_pow_pos _)

theorem testBit_fld (w : BitVec n) (hi lo i : Nat) : (fld w hi lo).testBit i = (decide (i < hi + 1 - lo) && w.getLsbD (lo + i)) := by
  simp [fld, Nat.testBit_mod_two_pow, Nat.testBit_shiftRight, BitVec.getLsbD]

/-- Each bit of a word with a field replaced. -/
theorem getLsbD_setFld (w : BitVec n) {hi lo : Nat} (x i : Nat) (h : lo ≤ hi) :
    (setFld w hi lo x).getLsbD i = if lo ≤ i ∧ i ≤ hi then decide (i < n) && x.testBit (i - lo) else w.getLsbD i := by
  have hm : ((2 ^ (hi + 1 - lo) - 1) <<< lo).testBit i = decide (lo ≤ i ∧ i ≤ hi) := by
    rw [Nat.testBit_shiftLeft, Nat.testBit_two_pow_sub_one]
    by_cases h1 : lo ≤ i <;> by_cases h2 : i ≤ hi <;> simp [h1, h2] <;> omega
  have hx : (x <<< lo).testBit i = (decide (lo ≤ i) && x.testBit (i - lo)) := by simp [Nat.testBit_shiftLeft]
  simp only [setFld, BitVec.getLsbD_or, BitVec.getLsbD_and, BitVec.getLsbD_not, BitVec.getLsbD_ofNat, hm, hx]
  by_cases hn : i < n
  · by_cases h1 : lo ≤ i <;> by_cases h2 : i ≤ hi <;> simp [hn, h1, h2]
  · have hw : w.getLsbD i = false := BitVec.getLsbD_of_ge w i (by omega)
    simp [hn, hw]

/-- A field written reads back. -/
theorem fld_setFld_same (w : BitVec n) {hi lo : Nat} (x : Nat) (h : lo ≤ hi) (hn : hi < n) :
    fld (setFld w hi lo x) hi lo = x % 2 ^ (hi + 1 - lo) := by
  apply Nat.eq_of_testBit_eq
  intro i
  rw [testBit_fld, getLsbD_setFld w x _ h, Nat.testBit_mod_two_pow]
  by_cases hi' : i < hi + 1 - lo
  · have h1 : lo ≤ lo + i ∧ lo + i ≤ hi := by omega
    have h2 : lo + i < n := by omega
    simp [hi', h1.2, h2]
  · simp [hi']

/-- A field apart from the one written keeps its value. -/
theorem fld_setFld_apart (w : BitVec n) {hi lo a b : Nat} (x : Nat) (h : lo ≤ hi) (hd : a < lo ∨ hi < b) :
    fld (setFld w hi lo x) a b = fld w a b := by
  apply Nat.eq_of_testBit_eq
  intro i
  rw [testBit_fld, testBit_fld, getLsbD_setFld w x _ h]
  by_cases hi' : i < a + 1 - b
  · have : ¬ (lo ≤ b + i ∧ b + i ≤ hi) := by omega
    simp [hi', this]
  · simp [hi']

theorem bit_setFld_apart (w : BitVec n) {hi lo i : Nat} (x : Nat) (h : lo ≤ hi) (hd : i < lo ∨ hi < i) : bit (setFld w hi lo x) i = bit w i := by
  have : ¬ (lo ≤ i ∧ i ≤ hi) := by omega
  simp [bit, getLsbD_setFld w x i h, this]

theorem bit_setBit_same (w : BitVec n) {i : Nat} (b : Bool) (hn : i < n) : bit (setBit w i b) i = b := by
  show (setFld w i i b.toNat).getLsbD i = b
  rw [getLsbD_setFld w _ i (le_refl i)]
  cases b <;> simp [hn]

theorem bit_setBit_ne (w : BitVec n) {i j : Nat} (b : Bool) (h : j ≠ i) : bit (setBit w i b) j = bit w j :=
  bit_setFld_apart w b.toNat (le_refl i) (by omega)

theorem fld_setBit_apart (w : BitVec n) {i a b : Nat} (x : Bool) (hd : a < i ∨ i < b) : fld (setBit w i x) a b = fld w a b :=
  fld_setFld_apart w x.toNat (le_refl i) hd

end Sys2Proof.Machine
end

