-- ==== Sys2Proof/Tests/Slice0.lean ====
section
/-! SUPPORT. Tests: ill-formed terms, words of the encoding tables, results of one instruction, and witnesses of the statements' hypotheses. -/

namespace Sys2Proof.Tests

-- one declaration at a time: a thread for each would be too many
set_option Elab.async false

open Machine

/-! Terms -/

/-- A header with a modifier and nothing else. -/
def hm (m : BitVec 6) : Hdr := ⟨false, false, 0, false, false, 0, m⟩

def f3 (m : BitVec 6) (d a b c : Opnd) (imm : BitVec 32) : F3 := ⟨hm m, d, a, b, c, 0, 0, imm⟩

/-- An F3 body with an immediate as operand B (R196). -/
def f3i (m : BitVec 6) (d a c : Opnd) (imm : BitVec 32) : F3 := ⟨hm m, d, a, .zr, c, 0, 8, imm⟩

def fm (m : BitVec 6) (d base index data2 : Opnd) (ord : BitVec 4) (off : BitVec 32) : FM := ⟨hm m, d, base, index, data2, 0, ord, off⟩

def fb (link : Opnd) (line : BitVec 29) (slot : BitVec 3) : FB := ⟨hm 0, link, 0, 0, 0, line, slot⟩

/-- The zero field of an unused position. -/
def o0 : Opnd := .v 0

/-! An ill-formed term for each check of WellFormed (R149, R150, R196 to R200) -/

theorem test_wf_accepts : wf (.iadd (f3 0 (.v 5) (.v 1) (.s 2) o0 0)) = true := by decide
theorem test_wf_refuses_class : wf (.iadd (f3 0 (.p 1) (.v 1) (.s 2) o0 0)) = false := by decide
theorem test_wf_refuses_reserved_specifier : wf (.iadd (f3 0 (.v 5) (.rsvd 0) (.s 2) o0 0)) = false := by decide
theorem test_wf_refuses_constant_destination : wf (.iadd (f3 0 .lid (.v 1) (.s 2) o0 0)) = false := by decide
theorem test_wf_refuses_odd_pair : wf (.iadd (f3 2 (.v 5) (.v 2) (.s 2) o0 0)) = false := by decide
theorem test_wf_refuses_unused_field : wf (.iadd (f3 0 (.v 5) (.v 1) (.s 2) (.v 1) 0)) = false := by decide
theorem test_wf_refuses_mod : wf (.iadd (f3 1 (.v 5) (.v 1) (.s 2) o0 0)) = false := by decide
theorem test_wf_refuses_aux : wf (.iadd ⟨hm 0, .v 5, .v 1, .s 2, o0, 0, 1, 0⟩) = false := by decide
theorem test_wf_refuses_bnd : wf (.iadd ⟨hm 0, .v 5, .v 1, .s 2, o0, 1, 0, 0⟩) = false := by decide
theorem test_wf_refuses_imm : wf (.iadd (f3 0 (.v 5) (.v 1) (.s 2) o0 1)) = false := by decide
theorem test_wf_refuses_keep : wf (.iadd ⟨⟨false, false, 0, true, false, 0, 0⟩, .v 5, .v 1, .s 2, o0, 0, 0, 0⟩) = false := by decide
theorem test_wf_refuses_immb : wf (.mov (f3i 0 (.v 5) (.v 1) o0 0)) = false := by decide
theorem test_wf_refuses_immb_with_b : wf (.iadd ⟨hm 0, .v 5, .v 1, .s 2, o0, 0, 8, 0⟩) = false := by decide
theorem test_wf_refuses_guard : wf (.waitj ⟨⟨false, false, 0, false, false, 1, 0⟩, o0, .k 0, o0, o0, 0, 0, 0⟩) = false := by decide
theorem test_wf_refuses_rounding : wf (.fadd (f3 5 (.v 5) (.v 1) (.s 2) o0 0)) = false := by decide
theorem test_wf_refuses_condition : wf (.icmp (f3 6 (.p 1) (.v 1) (.s 2) (.p 0) 0)) = false := by decide
theorem test_wf_refuses_lane_source : wf (.iadd (f3 0 (.s 5) (.v 1) (.s 2) o0 0)) = false := by decide
theorem test_wf_refuses_mask_mix : wf (.and (f3 0 (.v 5) (.k 1) (.s 2) o0 0)) = false := by decide
theorem test_wf_refuses_mask_from_lane : wf (.mov (f3 0 (.k 5) (.v 1) o0 o0 0)) = false := by decide
theorem test_wf_refuses_vote : wf (.vote (f3 3 (.p 5) (.p 1) o0 o0 0)) = false := by decide
theorem test_wf_refuses_special : wf (.movsr (f3 0 (.v 5) o0 o0 o0 32)) = false := by decide
theorem test_wf_refuses_special_write : wf (.movrs (f3 0 o0 (.s 5) o0 o0 0)) = false := by decide
theorem test_wf_refuses_no_tiles : wf (.accz (f3 0 o0 o0 o0 o0 0)) = false := by decide
theorem test_wf_refuses_slot : wf (.bra (fb o0 0 5)) = false := by decide
theorem test_wf_refuses_load_size : wf (.ld (fm 7 (.v 4) (.s 2) .zr o0 0 0)) = false := by decide
theorem test_wf_refuses_store_size : wf (.st (fm 1 o0 (.s 2) .zr (.v 4) 0 0)) = false := by decide
theorem test_wf_refuses_uniform_load : wf (.ld (fm 4 (.s 4) (.v 2) .zr o0 0 0)) = false := by decide
theorem test_wf_refuses_order : wf (.ld (fm 4 (.v 4) (.s 2) .zr o0 4 0)) = false := by decide
theorem test_wf_refuses_offset : wf (.fence (fm 0 o0 o0 o0 o0 5 1)) = false := by decide
theorem test_wf_refuses_atomic : wf (.red (fm 13 o0 (.s 2) .zr (.v 4) 0 0)) = false := by decide
theorem test_wf_refuses_engine : wf (.copy ⟨hm 0, o0, .s 1, .s 2, .s 3, 0, 0, 0x600⟩) = false := by decide
theorem test_wf_refuses_nb_p0 : wf (.copy ⟨hm 0, .p 0, .s 1, .s 2, .s 3, 0, 1, 0⟩) = false := by decide
theorem test_wf_refuses_element_size : wf (.copyg ⟨hm 0, o0, .s 1, .s 2, .s 3, 0, 0, 0x28000⟩) = false := by decide

/-! Words written out from R149, R193, R195 and R199 -/

theorem test_word_branch : decode 0x02C0400000000000FFFFFFFA#96 = some (.bra ⟨⟨false, false, 0, false, true, 3, 0⟩, o0, 0, 0, 0, 0x1FFFFFFF#29, 2⟩) := by decide
theorem test_word_call : decode 0x0000C0840000000000000008#96 = some (.call (fb (.s 4) 1 0)) := by decide
theorem test_word_waitj : decode 0x0001C000CA00000000000000#96 = some (.waitj (f3 0 o0 (.k 2) o0 o0 0)) := by decide
theorem test_word_step_release : decode 0x800401000000000000000003#96 = some (.step ⟨⟨true, false, 0, false, false, 0, 1⟩, o0, o0, o0, o0, 0, 0, 3⟩) := by decide
theorem test_word_movsr : decode 0x0005C089000000000000000C#96 = some (.movsr (f3 0 (.s 9) o0 o0 o0 12)) := by decide
theorem test_word_isub_immediate : decode 0x0008440708FF0008FFFFFFFF#96 = some (.isub (f3i 4 (.v 7) (.v 8) o0 0xFFFFFFFF)) := by decide
theorem test_word_icmp : decode 0x000BABC20183C40000000000#96 = some (.icmp (f3 0b101011 (.p 2) (.v 1) (.s 3) (.p 4) 0)) := by decide
theorem test_word_movil : decode 0x000C8085123456789ABCDEF0#96 = some (.movil ⟨hm 0, .s 5, 0x123456789ABCDEF0⟩) := by decide
theorem test_word_lut3 : decode 0x001140010203040000000096#96 = some (.lut3 (f3 0 (.v 1) (.v 2) (.v 3) (.v 4) 0x96)) := by decide
theorem test_word_fshf : decode 0x001285010203D00000000000#96 = some (.fshf (f3 5 (.v 1) (.v 2) (.v 3) .lid 0)) := by decide
theorem test_word_xlane_gap : decode 0x681503010280000000000000#96 = some (.xlane ⟨⟨false, true, 5, false, false, 0, 3⟩, .v 1, .v 2, .s 0, o0, 0, 0, 0⟩) := by decide
theorem test_word_fsqrt : decode 0x001C8401D300000000000000#96 = some (.fsqrt (f3 4 (.v 1) .fone o0 o0 0)) := by decide
theorem test_word_dfma : decode 0x002081020406880000000000#96 = some (.dfma (f3 1 (.v 2) (.v 4) (.v 6) (.s 8) 0)) := by decide
theorem test_word_fcvt : decode 0x00210D010200000000002010#96 = some (.fcvt (f3 0b001101 (.v 1) (.v 2) o0 o0 0x2010)) := by decide
theorem test_word_mma_keep : decode 0x042400862087FF000000003F#96 = some (.mma ⟨⟨false, false, 0, true, false, 0, 0⟩, .s 6, .v 32, .s 7, .zr, 0, 0, 63⟩) := by decide
theorem test_word_mjob : decode 0x002540000083000000000000#96 = some (.mjob (f3 0 o0 o0 (.s 3) o0 0)) := by decide
theorem test_word_ld_acquire : decode 0x0028040981020009FFFFFFFC#96 = some (.ld (fm 4 (.v 9) (.s 1) (.v 2) o0 9 0xFFFFFFFC)) := by decide
theorem test_word_fence : decode 0x002AC0000000000F00000000#96 = some (.fence (fm 0 o0 o0 o0 o0 15 0)) := by decide
theorem test_word_sts_bound : decode 0x002C4C0081FF039000000040#96 = some (.sts ⟨hm 0b1100, o0, .s 1, .zr, .v 3, 9, 0, 64⟩) := by decide
theorem test_word_tagrd : decode 0x002E000481FF000000000000#96 = some (.tagrd (fm 0 (.v 4) (.s 1) .zr o0 0 0)) := by decide
theorem test_word_atomx : decode 0x0031200481FF060000000000#96 = some (.atomx (fm 0b100000 (.v 4) (.s 1) .zr (.v 6) 0 0)) := by decide
theorem test_word_cqry : decode 0x003580830000000000000700#96 = some (.cqry (f3 0 (.s 3) o0 o0 o0 0x700)) := by decide
theorem test_word_reserved_opcode : decode 0x000640000000000000000000#96 = none := by decide
theorem test_word_reserved_opcode_high : decode 0x003FC0000000000000000000#96 = none := by decide
theorem test_word_reserved_opcode_gap : decode 0x000DC0000000000000000000#96 = none := by decide
theorem test_word_unused_field : (decode 0x000800050102010000000000#96).map wf = some false := by decide

/-! One instruction of a placed agent -/

/-- Reset with `i` placed (log entry 10) and the turn at its agent. -/
def turnAt (i : Instr) : State :=
  let s := placeWord State.reset 96 ((encode i).getD 0).toNat
  match s.agenda with
  | .issue k :: _ => { s with agenda := [], turn := some k }
  | _ => s

/-- A change of every agent, or of every team. -/
def ags (f : Agent → Agent) (s : State) : State := { s with agents := s.agents.map f }
def tms (f : Team → Team) (s : State) : State := { s with teams := s.teams.map f }

/-- Lane register values, predicates and uniform registers put in place; `vs` are (register, lane, value). -/
def setV (vs : List (Nat × Nat × Word32)) : State → State :=
  ags fun a => { a with v := vs.foldl (fun m x => sset 0 m (laneKey x.1 x.2.1) x.2.2) a.v }
def setP (ps : List (Nat × Nat)) : State → State :=
  ags fun a => { a with p := ps.foldl (fun m x => sset false m (laneKey x.1 x.2) true) a.p }
def setS (ss : List (Nat × Word64)) : State → State := ags fun a => { a with s := ss.foldl (fun m x => sset 0 m x.1 x.2) a.s }

/-- The agent after an instruction, its results in place. -/
def after (i : Instr) (f : State → State) : Option Agent :=
  match exec i (f (turnAt i)) with
  | .next t => t.agents.head?.map fun a => (a.pend.flatMap (·.writes) ++ a.vars.flatMap (·.writes)).foldl writeReg a
  | _ => none

/-- Lane register `n` of lane `l` after an instruction on some lane registers. -/
def vOf (i : Instr) (vs : List (Nat × Nat × Word32)) (n : Nat := 5) (l : Nat := 0) : Option Word32 :=
  (after i (setV vs)).map fun a => vGet a n l

/-- v5 of lane 0, from v1 and v2 of lane 0. -/
def ab (i : F3 → Instr) (m : BitVec 6) (a b : Word32) : Option Word32 :=
  vOf (i (f3 m (.v 5) (.v 1) (.v 2) o0 0)) [(1, 0, a), (2, 0, b)]

/-- v5 of lane 0, from v1 alone. -/
def av (i : F3 → Instr) (m : BitVec 6) (a : Word32) : Option Word32 := vOf (i (f3 m (.v 5) (.v 1) o0 o0 0)) [(1, 0, a)]

/-- v5 of lane 0, from v1, v2 and v3 of lane 0. -/
def abc (i : F3 → Instr) (m : BitVec 6) (a b c : Word32) (imm : BitVec 32 := 0) : Option Word32 :=
  vOf (i (f3 m (.v 5) (.v 1) (.v 2) (.v 3) imm)) [(1, 0, a), (2, 0, b), (3, 0, c)]

/-- p1 of lane 0. -/
def p1 (i : Instr) (f : State → State) : Option Bool := (after i f).map fun a => pGet a 1 0

/-! Integer results, by hand from R245 to R247, R251 -/

theorem test_iadd_wraps : ab .iadd 0 0xFFFFFFFF 2 = some 1 := by decide
theorem test_iadd_saturates : ab .iadd 4 0x7FFFFFFF 2 = some 0x7FFFFFFF := by decide
theorem test_isub_order : ab .isub 0 1 2 = some 0xFFFFFFFF := by decide
theorem test_isub_saturates : ab .isub 4 0x80000000 1 = some 0x80000000 := by decide
theorem test_iaddc_sum : (after (.iaddc (f3 0 (.v 5) (.v 1) (.v 2) (.p 1) 0)) (setP [(1, 0)] ∘ setV [(1, 0, 0xFFFFFFFF), (2, 0, 0)])).map
    (fun a => (vGet a 5 0, pGet a 1 0)) = some (0, true) := by decide
theorem test_imul_low : ab .imul 0 0x10001 0x10001 = some 0x20001 := by decide
theorem test_imulh_signed : ab .imulh 0 0xFFFFFFFF 2 = some 0xFFFFFFFF := by decide
theorem test_imulh_unsigned : ab .imulh 1 0xFFFFFFFF 2 = some 1 := by decide
theorem test_imad_saturates : abc .imad 4 0x7FFFFFFF 2 0xFFFFFFFF = some 0x7FFFFFFF := by decide
theorem test_imadw_high : vOf (.imadw (f3 0 (.v 6) (.v 1) (.v 2) (.v 4) 0)) [(1, 0, 0xFFFFFFFF), (2, 0, 1), (4, 0, 0)] 7 = some 0xFFFFFFFF := by
  decide
theorem test_idiv_zero : ab .idiv 0 7 0 = some 0xFFFFFFFF := by decide
theorem test_idiv_truncates : ab .idiv 0 0xFFFFFFF9 2 = some 0xFFFFFFFD := by decide
theorem test_irem_sign : ab .irem 0 0xFFFFFFF9 2 = some 0xFFFFFFFF := by decide
theorem test_irem_overflow : ab .irem 0 0x80000000 0xFFFFFFFF = some 0 := by decide
theorem test_ineg_saturates : av .ineg 4 0x80000000 = some 0x7FFFFFFF := by decide
theorem test_iabs_least : av .iabs 0 0x80000000 = some 0x80000000 := by decide
theorem test_imin_signed : ab .imin 0 0xFFFFFFFF 1 = some 0xFFFFFFFF := by decide
theorem test_imax_unsigned : ab .imax 1 0xFFFFFFFF 1 = some 0xFFFFFFFF := by decide
theorem test_lea_shift : ab .lea 3 5 1 = some 41 := by decide
theorem test_dot4_signed : abc .dot4 0 0xFF010203 0x01010101 10 = some 15 := by decide

/-- The example of R248. -/
theorem test_icmp_example : p1 (.icmp (f3i 0x14 (.p 1) (.v 1) (.p 3) 100)) (setP [(3, 0)] ∘ setV [(1, 0, 150)]) = some true
    ∧ p1 (.icmp (f3i 0x14 (.p 1) (.v 1) (.p 3) 100)) (setP [(3, 0)] ∘ setV [(1, 0, 0xFFFFFFFB)]) = some false := by decide
theorem test_psel_false : (after (.psel (f3 0 (.v 5) (.v 1) (.v 2) (.p 3) 0)) (setV [(1, 0, 8), (2, 0, 9)])).map (vGet · 5 0) = some 9 := by
  decide
theorem test_mov_lane : av .mov 0 0xDEADBEEF = some 0xDEADBEEF := by decide
theorem test_movi_upper_half : (after (.movi (f3 0 (.s 5) o0 o0 o0 0x80000000)) (setS [(5, 0xFFFFFFFFFFFFFFFF)])).map (sGet · 5)
    = some 0x80000000 := by decide
theorem test_movil_pair : vOf (.movil ⟨hm 0, .v 4, 0x0123456789ABCDEF⟩) [] 5 = some 0x01234567 := by decide
theorem test_plut_table : p1 (.plut (f3 0 (.p 1) (.p 2) (.p 3) (.p 4) 0x10)) (setP [(4, 0)]) = some true
    ∧ p1 (.plut (f3 0 (.p 1) (.p 2) (.p 3) (.p 4) 0x10)) (setP [(2, 0)]) = some false := by decide
theorem test_p2v_p0 : (after (.p2v (f3 0 (.v 5) o0 o0 o0 0)) (setP [(7, 0)])).map (vGet · 5 0) = some 0x81 := by decide
theorem test_v2p_mask : (after (.v2p (f3 0 o0 (.v 1) o0 o0 2)) (setV [(1, 0, 6)])).map (fun a => (pGet a 1 0, pGet a 2 0)) = some (true, false) := by
  decide

/-! Logic and bit fields, by hand from R252 to R256 -/

theorem test_and : ab .and 0 0xFF00FF00 0xF0F0F0F0 = some 0xF000F000 := by decide
theorem test_or : ab .or 0 0xFF00FF00 0xF0F0F0F0 = some 0xFFF0FFF0 := by decide
theorem test_xor : ab .xor 0 0xFF00FF00 0xF0F0F0F0 = some 0x0FF00FF0 := by decide
theorem test_andn_order : ab .andn 0 0xFF00FF00 0xF0F0F0F0 = some 0x0F000F00 := by decide
theorem test_not : av .not 0 0xFF00FF00 = some 0x00FF00FF := by decide
theorem test_lut3_own_table : abc .lut3 0 0xAA 0xCC 0xF0 0x96 = some 0x96 := by decide
theorem test_shl_width : ab .shl 0 1 32 = some 0 := by decide
theorem test_shl_wrap : ab .shl 1 1 33 = some 2 := by decide
theorem test_shr_zeros : ab .shr 0 0x80000000 31 = some 1 := by decide
theorem test_sar_width : ab .sar 0 0x80000000 32 = some 0xFFFFFFFF := by decide
theorem test_rot_left : ab .rot 0 0x80000001 4 = some 0x18 := by decide
theorem test_fshf_left : abc .fshf 0 0x80000000 1 1 = some 3 := by decide
theorem test_fshf_right_all : abc .fshf 1 0x12345678 0x9ABCDEF0 40 = some 0x9ABCDEF0 := by decide
theorem test_bfe_sign : ab .bfe 1 0x80 0x0404 = some 0xFFFFFFF8 := by decide
theorem test_bfi_drops : abc .bfi 0 0xFF 0x081C 0 = some 0xF0000000 := by decide
theorem test_popc : av .popc 0 0xF000000F = some 8 := by decide
theorem test_clz_zero : av .clz 0 0 = some 32 := by decide
theorem test_ctz : av .ctz 0 0x10 = some 4 := by decide
theorem test_brev : av .brev 0 1 = some 0x80000000 := by decide
theorem test_bperm_sign_byte : abc .bperm 0 0x000000FF 0x44332211 0x4408 = some 0x1111FFFF := by decide

/-! Lane operations, by hand from R258 to R262 -/

theorem test_vote_every : p1 (.vote (f3 0 (.p 1) (.p 2) o0 o0 0)) (setP [(2, 0)]) = some false
    ∧ p1 (.vote (f3 1 (.p 1) (.p 2) o0 o0 0)) (setP [(2, 0)]) = some true := by decide
theorem test_ballot : (after (.ballot (f3 0 (.s 5) (.p 2) o0 o0 0)) (setP [(2, 0), (2, 31)])).map (sGet · 5) = some 0x80000001 := by decide
theorem test_xlane_down_none : vOf (.xlane (f3i 2 (.v 5) (.v 1) o0 1)) [(1, 0, 7), (1, 1, 8)] = some 0
    ∧ vOf (.xlane (f3i 2 (.v 5) (.v 1) o0 1)) [(1, 0, 7), (1, 1, 8)] 5 1 = some 7 := by decide
theorem test_match_any : vOf (.matchL (f3 0 (.v 5) (.v 1) o0 o0 0)) [(1, 0, 9), (1, 3, 9)] = some 9 := by decide
theorem test_redux_umax : (after (.redux (f3 4 (.s 5) .lid o0 o0 0)) id).map (sGet · 5) = some 31 := by decide +kernel
theorem test_scanx_exclusive : vOf (.scanx (f3 8 (.v 5) .lid o0 o0 0)) [] = some 0 ∧ vOf (.scanx (f3 8 (.v 5) .lid o0 o0 0)) [] 5 4 = some 6 := by
  decide
theorem test_readl_own : (after (.readl (f3i 0 (.s 5) (.v 1) .zr 3)) (setV [(1, 3, 77)])).map (sGet · 5) = some 77 := by decide
theorem test_bcast : vOf (.bcast (f3i 0 (.v 5) (.v 1) o0 3)) [(1, 3, 77)] 5 9 = some 77 := by decide

/-! Floating point, by hand from R263 to R280 -/

theorem test_fadd : ab .fadd 0 0x3F800000 0x40000000 = some 0x40400000 := by decide
theorem test_fadd_sat_nan : ab .fadd 8 0x7FC00000 0x40000000 = some 0 := by decide
theorem test_fsub_zero : ab .fsub 3 0x3F800000 0x3F800000 = some 0x80000000 := by decide
theorem test_fmul_infinity_zero : (after (.fmul (f3 0 (.v 5) (.v 1) (.v 2) o0 0)) (setV [(1, 0, 0x7F800000), (2, 0, 0)])).map (vGet · 5 0)
    = some 0x7FC00000 := by decide
theorem test_ffma_single_rounding : abc .ffma 0 0x3F800001 0x3F800001 0xBF800002 = some 0x28800000 := by decide
theorem test_fmin_nan : ab .fmin 0 0x7FC00000 0x40000000 = some 0x40000000 := by decide
theorem test_fmax_zeros : ab .fmax 0 0x80000000 0 = some 0 := by decide
theorem test_fcmp_unordered : p1 (.fcmp (f3 1 (.p 1) (.v 1) (.v 2) o0 0)) (setV [(1, 0, 0x7FC00000)]) = some false
    ∧ p1 (.fcmp (f3 9 (.p 1) (.v 1) (.v 2) o0 0)) (setV [(1, 0, 0x7FC00000)]) = some true := by decide
theorem test_fclass_signalling : av .fclass 0 0x7F800001 = some 0x100 := by decide
theorem test_frnd_even : av .frnd 0 0x40200000 = some 0x40000000 := by decide
theorem test_frnd_down : av .frnd 3 0xBF000000 = some 0xBF800000 := by decide
theorem test_ffrac : av .ffrac 0 0xC0300000 = some 0xBF400000 := by decide
theorem test_fscale : ab .fscale 0 0x3F800000 3 = some 0x41000000 := by decide
theorem test_fsqrt : av .fsqrt 0 0x40800000 = some 0x40000000 := by decide
theorem test_pkadd_halves : ab .pkadd 0 0x3C003C00 0x40003C00 = some 0x42004000 := by decide
theorem test_pkmax_nan : ab .pkmax 0 0x7E007C01 0x7E003C00 = some 0x7E003C00 := by decide
theorem test_dadd : vOf (.dadd (f3 0 (.v 4) (.v 0) (.v 2) o0 0)) [(1, 0, 0x3FF00000), (3, 0, 0x40000000)] = some 0x40080000 := by decide
theorem test_dcmp_zeros : p1 (.dcmp (f3 0 (.p 1) (.v 2) (.v 4) o0 0)) (setV [(3, 0, 0x80000000)]) = some true := by decide
theorem test_fcvt_narrow : vOf (.fcvt (f3 0 (.v 5) (.v 1) o0 o0 0x0002)) [(1, 0, 0x3F800000)] = some 0x3C00 := by decide
theorem test_icvt_truncates : vOf (.icvt (f3 1 (.v 5) (.v 1) o0 o0 0x0028)) [(1, 0, 0xC0300000)] = some 0xFFFFFFFE := by decide
theorem test_fpack_slot : abc .fpack 0 0x3F800000 0x40000000 0x11111111 0x0002 = some 0x40003C00 := by decide
theorem test_funpack_raw : vOf (.funpack (f3 0 (.v 5) (.v 1) o0 o0 0x8112)) [(1, 0, 0x0000AB00)] = some 0xAB := by decide

/-! Control, by hand from R188, R308 to R328 -/

/-- Where lane 0 stands after an instruction at PC 256. -/
def pcAfter (i : Instr) (f : State → State) : Option Nat := (after i f).map fun a => lpcOf a 0

theorem test_nop_pc : pcAfter (.nop (f3 0 o0 o0 o0 o0 0)) id = some 268 := by decide
theorem test_bra_target : pcAfter (.bra (fb o0 0 3)) id = some 292 := by decide
theorem test_guard_false : pcAfter (.bra ⟨⟨false, false, 0, false, true, 0, 0⟩, o0, 0, 0, 0, 0, 3⟩) id = some 268 := by decide
theorem test_call_link : (after (.call (fb (.s 4) 0 2)) id).map (fun a => (lpcOf a 0, sGet a 4)) = some (280, 268) := by decide
theorem test_brx : pcAfter (.brx (f3 0 o0 (.s 1) o0 o0 0)) (setS [(1, 304)]) = some 304 := by decide
theorem test_ret_exits : (after (.ret (f3 0 o0 (.s 1) o0 o0 0)) (setS [(1, 0)])).map (fun a => laneState a 0) = some .exited := by decide
theorem test_join_mask : (after (.join (f3 0 (.k 2) o0 o0 o0 0)) id).map (kGet · 2) = some 0xFFFFFFFF := by decide
theorem test_exit : (after (.exit (f3 0 o0 o0 o0 o0 0)) id).map (fun a => laneState a 31) = some .exited := by decide
theorem test_cropen : (after (.cropen (fb o0 0 4)) id).map (·.regions) = some [304] := by decide
theorem test_movsr_warp : (after (.movsr (f3 0 (.s 5) o0 o0 o0 1)) (setS [(5, 9)])).map (sGet · 5) = some 0 := by decide
theorem test_yield : (after (.yield (f3 0 o0 o0 o0 o0 0)) id).map (·.gaveWay) = some true := by decide

/-- TRAP outside every region ends the grid (R319); inside one it goes to the handler with the code. -/
theorem test_trap_region : (after (.trap (f3 0 o0 o0 o0 o0 0xBEEF)) (ags fun a => { a with regions := [280] })).map
    (fun a => (lpcOf a 0, a.cri, a.crpc)) = some (280, 0xBEEF, 256) := by decide +kernel

/-! Witnesses of the hypotheses of the statements about instructions -/

/-- The turn goes, `p` holds of it, and the instruction answers a next state. -/
def went (i : Instr) (f : State → State) (p : Iss → Bool := fun _ => true) : Bool :=
  match hdrOf i with
  | none => false
  | some h => match turnOf i h (f (turnAt i)) with
    | .goes c => p c && (match exec i (f (turnAt i)) with | .next _ => true | _ => false)
    | _ => false

/-- Operands for one, two and three lane sources. -/
def x1 : F3 := f3 0 (.v 5) (.v 1) o0 o0 0
def x2 : F3 := f3 0 (.v 5) (.v 1) (.v 2) o0 0
def x3 : F3 := f3 0 (.v 5) (.v 1) (.v 2) (.v 3) 0

/-- A guard that is false in every lane (R194). -/
def off (x : F3) : F3 := { x with h := ⟨false, false, 0, false, true, 0, x.h.mod⟩ }

theorem witness_integerComplete :
    [.iadd x2, .isub x2, .imul x2, .imulh x2, .imad x3, .imadw (f3 0 (.v 6) (.v 1) (.v 2) (.v 4) 0), .idiv x2, .irem x2, .ineg x1, .iabs x1, .imin x2,
      .imax x2, .lea x2, .dot4 x3, .iaddc (f3 0 (.v 5) (.v 1) (.v 2) (.p 1) 0), .iaddc (f3 0 (.v 5) (.v 1) (.v 2) .zr 0),
      .iaddc (f3 0 (.s 5) (.s 1) (.s 2) (.p 1) 0)].all (went · id) = true := by decide

theorem witness_logicMoveComplete :
    [.icmp (f3 0 (.p 1) (.v 1) (.v 2) o0 0), .psel (f3 0 (.v 5) (.v 1) (.v 2) (.p 1) 0), .mov x1, .mov (f3 0 (.k 1) (.s 2) o0 o0 0), .movi (f3 0 (.v 5) o0 o0 o0 1),
      .movil ⟨hm 0, .v 4, 1⟩, .plut (f3 0 (.p 1) (.p 2) .zr (.p 3) 1), .p2v (f3 0 (.v 5) o0 o0 o0 0), .v2p (f3 0 o0 (.v 1) o0 o0 0xFE), .and x2,
      .or x2, .xor x2, .andn x2, .not x1, .lut3 (f3 0 (.v 5) (.v 1) (.v 2) (.v 3) 0xE8), .shl x2, .shr x2, .sar x2, .rot x2, .fshf x3, .bfe x2, .bfi x3,
      .popc x1, .clz x1, .ctz x1, .brev x1, .bperm x3].all (went · id) = true := by decide

/-- READL of this warp, of a warp that the team does not have, and of one that it has. -/
def anotherWarp : State → State := fun s => match s.agents with
  | a :: r => { s with agents := a :: { a with key := ⟨a.key.team, 1⟩ } :: r }
  | [] => s

theorem witness_laneComplete :
    [.vote (f3 2 (.p 1) (.p 2) o0 o0 0), .ballot (f3 0 (.s 5) (.p 2) o0 o0 0), .matchL x1, .redux x1, .scanx x1, .readl (f3i 0 (.s 5) (.v 1) .zr 3)].all
        (went · id fun c => !c.act.isEmpty) = true
    ∧ went (.xlane x2) id (fun c => c.lanePoison c.a (.v 1) (fun l => xlaneSource 0 l (c.valB 32 x2 l)) = none) = true
    ∧ went (.bcast (f3i 0 (.v 5) (.v 1) o0 31)) id (fun c => c.lanePoison c.a (.v 1) (fun _ => some 31) = none) = true
    ∧ went (.readl (f3i 0 (.s 5) (.v 1) (.s 2) 3)) (setS [(2, 1)]) (fun c => agentOf c.s ⟨c.a.key.team, 1⟩ = none) = true
    ∧ went (.readl (f3i 0 (.s 5) (.v 1) (.s 2) 3)) (anotherWarp ∘ setS [(2, 1)]) (fun c => match agentOf c.s ⟨c.a.key.team, 1⟩ with
      | some b => !b.ended && laneState b 0 != .exited && sget 0 b.vPoison (laneKey 1 3) == 0
      | none => false) = true := by decide

theorem witness_floatComplete :
    [.fadd x2, .fsub x2, .fmul x2, .ffma x3, .fmin x2, .fmax x2, .fcmp (f3 0 (.p 1) (.v 1) (.v 2) o0 0), .fclass x1, .frnd x1, .ffrac x1, .fscale x2,
      .pkadd x2, .pkmul x2, .pkfma x3, .pkmax x2].all (went · id) = true := by decide

/-- 64-bit operands in pairs (R263). -/
def d2 : F3 := f3 0 (.v 4) (.v 0) (.v 2) o0 0

theorem witness_specialDoubleComplete :
    [.frcp x1, .frsq x1, .fsqrt x1, .fexp2 x1, .flog2 x1, .fsin x1, .fcos x1, .ftanh x1, .dadd d2, .dmul d2, .dfma (f3 0 (.v 4) (.v 0) (.v 2) (.v 6) 0),
      .dcmp (f3 0 (.p 1) (.v 0) (.v 2) o0 0)].all (went · id) = true := by decide

theorem witness_registerFormsFrame : (registerForms ++ floatForms).any (fun f => went (f x2) id) = true := by decide

theorem witness_convertComplete :
    went (.fcvt (f3 0 (.v 5) (.v 1) o0 o0 2)) id (fun _ => (ntypeOf 2).isSome && (ntypeOf 0).isSome) = true
    ∧ went (.icvt (f3 1 (.v 5) (.v 1) o0 o0 0x28)) id (fun c => match ntypeIn c.t.hdr.version 0x28, ntypeIn c.t.hdr.version 0 with
        | some d, some t => icvtPair 0x28 0 d t && (c.evalLanes (.icvt (f3 1 (.v 5) (.v 1) o0 o0 0x28)) (.v 5)).all fun l =>
            (sourceValue t (c.val 32 (.v 1) l)).isSome
        | _, _ => false) = true
    ∧ went (.fpack (f3 0 (.v 5) (.v 1) (.v 2) (.v 3) 2)) id (fun c => packWidth 2 != 0 && (ntypeIn c.t.hdr.version 2).isSome) = true
    ∧ went (.funpack (f3 0 (.v 5) (.v 1) o0 o0 0x8012)) id (fun c => packWidth 0x12 != 0 && (ntypeIn c.t.hdr.version 0x12).isSome) = true
    ∧ went (.funpack (f3 0 (.v 5) (.v 1) o0 o0 2)) id (fun c => match ntypeIn c.t.hdr.version 2 with
        | some t => (sourceValue t 0).isSome
        | none => false) = true
    ∧ went (.fcvt (f3 0 (.v 5) (.v 1) o0 o0 0x30)) id (fun _ => ntypeOf 0x30 = none) = true
    ∧ went (.icvt (f3 0 (.v 5) (.v 1) o0 o0 0x30)) id (fun c => ntypeIn c.t.hdr.version 0x30 = none) = true
    ∧ went (.bound x1) id (fun c => (c.evalLanes (.bound x1) (.v 5)).all fun l => !(teamBound c.t 0 (c.val 32 (.v 1) l)).trap) = true := by
  decide

/-- The slots of the fetched line marked by `m` (R189). -/
def marks (m : Byte) (s : State) : State :=
  ags (fun a => { a with fetchBuf := a.fetchBuf.map fun l => { l with st := match l.st with | .good bs => .good (bs.take 60 ++ [m, 0, 0, 0]) | t => t } }) s

def goTo (pc : Nat) (c : Iss) : Bool := c.act.all fun l => judge c.a pc == .go && l < 32
def badAt (pc : Nat) (c : Iss) : Bool := !c.act.isEmpty && judge c.a pc == .bad

theorem witness_branchComplete :
    went (.nop (f3 0 o0 o0 o0 o0 0)) id = true
    ∧ went (.bra (fb o0 0 4)) id (goTo 304) = true ∧ went (.bra (fb o0 0 4)) (marks 1) (badAt 304) = true
    ∧ went (.call (fb (.s 4) 0 4)) id (goTo 304) = true ∧ went (.call (fb .zr 0 4)) (marks 1) (badAt 304) = true
    ∧ went (.brx (f3 0 o0 (.s 1) o0 o0 0)) (setS [(1, 304)]) (goTo 304) = true
    ∧ went (.brx (f3 0 o0 (.s 1) o0 o0 0)) (setS [(1, 316)]) (badAt 316) = true
    ∧ went (.callx (f3 0 (.s 2) (.s 1) o0 o0 0)) (setS [(1, 304)]) (goTo 304) = true
    ∧ went (.callx (f3 0 .zr (.s 1) o0 o0 0)) (setS [(1, 316)]) (badAt 316) = true
    ∧ went (.ret (f3 0 o0 (.s 1) o0 o0 0)) (setS [(1, 0)]) = true
    ∧ went (.ret (f3 0 o0 (.s 1) o0 o0 0)) (setS [(1, 304)]) (fun _ => legalPc 304) = true
    ∧ went (.ret (f3 0 o0 (.s 1) o0 o0 0)) (setS [(1, 316)]) (fun _ => !legalPc 316) = true := by decide

theorem witness_laneControlComplete :
    went (.waitj (f3 0 o0 (.k 7) o0 o0 0)) id = true ∧ went (.exit (f3 0 o0 o0 o0 o0 0)) id = true
    ∧ went (.yield (f3 0 o0 o0 o0 o0 0)) id (fun c => !c.act.isEmpty) = true
    ∧ went (.yield (off (f3 0 o0 o0 o0 o0 0))) id (fun c => c.act.isEmpty) = true
    ∧ went (.safe (f3 0 o0 o0 o0 o0 0)) id (fun c => decide (0 < c.t.hdr.liveCount) && !outstanding c.s0 c.a c.t.core && c.a.pend.isEmpty
        && (deliver c.s0 c.a.key).isNone) = true
    ∧ went (.safe (f3 0 o0 o0 o0 o0 1)) id (fun c => decide (c.t.hdr.liveCount ≤ 1)) = true := by decide

theorem witness_joinMask : went (.join (f3 0 (.k 7) o0 o0 o0 0)) id (fun c => !c.act.isEmpty) = true
    ∧ went (.join (off (f3 0 (.k 0) o0 o0 o0 0))) id (fun c => c.act.isEmpty) = true := by decide

theorem witness_trapTaken : went (.trap (f3 0 o0 o0 o0 o0 0xFFFF)) id (fun c => !c.act.isEmpty && c.a.regions.isEmpty) = true
    ∧ went (.trap (f3 0 o0 o0 o0 o0 0)) (ags fun a => { a with regions := [280] }) (fun c => !c.act.isEmpty && c.a.regions == [280]) = true := by
  decide

/-- LAUNCH of the record at s1 with timeline 15 (R316). -/
def launchX : F3 := ⟨hm 0, .zr, .s 1, o0, o0, 15, 0, 0⟩

def deep (n : Nat) (s : State) : State := { s with grids := s.grids.map fun g => { g with depth := n } }
def noTimelines : State → State := tms fun t => { t with hdr := { t.hdr with timelines := 0 } }
def eightRegions : State → State := ags fun a => { a with regions := List.replicate 8 280 }

theorem witness_regionControlComplete :
    went (.launch launchX) (setS [(1, 64)] ∘ deep 9) (fun c => c.a.key.idx == 0 && hasTimeline c.t 15 && !c.act.isEmpty && decide (c.g.depth < 10)
      && val64 c.a (.s 1) 0 % 64 == 0) = true
    ∧ went (.launch launchX) (deep 10) (fun c => hasTimeline c.t 15 && decide (10 ≤ c.g.depth)) = true
    ∧ went (.launch launchX) noTimelines (fun c => !hasTimeline c.t 15) = true
    ∧ went (.cropen (fb o0 0 4)) id (fun c => judge c.a 304 == .go && decide (c.a.regions.length < 8)) = true
    ∧ went (.cropen (fb o0 0 4)) eightRegions (fun c => judge c.a 304 == .go && decide (8 ≤ c.a.regions.length)) = true
    ∧ went (.cropen (fb o0 0 4)) (marks 1) (fun c => judge c.a 304 == .bad) = true
    ∧ went (.crclose (f3 0 o0 o0 o0 o0 0)) eightRegions (fun c => !c.a.regions.isEmpty) = true
    ∧ went (.crclose (f3 0 o0 o0 o0 o0 0)) id (fun c => c.a.regions.isEmpty) = true
    ∧ went (.bkpt (f3 0 o0 o0 o0 o0 7)) id (fun c => !bit c.s0.debugOn c.g.domain) = true
    ∧ went (.bkpt (f3 0 o0 o0 o0 o0 7)) (fun s => { s with debugOn := 1 }) (fun c => bit c.s0.debugOn c.g.domain && !c.a.debugPass.contains c.pc
      && !c.act.isEmpty && (agentOf c.s0 c.a.key).isSome) = true
    ∧ went (.bkpt (f3 0 o0 o0 o0 o0 7)) (ags (fun a => { a with debugPass := [256] }) ∘ fun s => { s with debugOn := 1 })
      (fun c => c.a.debugPass.contains c.pc) = true := by decide

/-- An instruction whose only operand is a timeline, with a source register. -/
def tl (d a : Opnd) (n : BitVec 4) (imm : BitVec 32) : F3 := ⟨hm 0, d, a, o0, o0, n, 0, imm⟩

theorem witness_timelineComplete :
    went (.step (f3 0 o0 o0 o0 o0 0)) id (fun c => isMember c.t 0 c.a.key.idx) = true
    ∧ went (.step (f3 0 o0 o0 o0 o0 7)) id (fun c => !isMember c.t 7 c.a.key.idx) = true
    ∧ went (.redt (f3 0 (.s 4) (.s 2) o0 o0 0)) id (fun c => isMember c.t 0 c.a.key.idx && !c.act.isEmpty) = true
    ∧ went (.redt (f3 0 (.s 4) (.s 2) o0 o0 7)) id (fun c => !isMember c.t 7 c.a.key.idx) = true
    ∧ went (.waittl { tl o0 o0 15 0 with b := .s 1 }) id (fun c => hasTimeline c.t 15 && !c.act.isEmpty) = true
    ∧ went (.waittl { tl o0 o0 15 0 with b := .s 1 }) noTimelines (fun c => !hasTimeline c.t 15) = true
    ∧ went (.tlrd (tl (.s 2) o0 15 0)) noTimelines (fun c => !hasTimeline c.t 15) = true
    ∧ went (.tladv (tl o0 o0 15 0)) id (fun c => hasTimeline c.t 15 && !c.act.isEmpty) = true
    ∧ went (.sleep { tl o0 o0 0 0 with b := .s 1 }) (setS [(1, 5)]) (fun c => !c.act.isEmpty) = true
    ∧ went (.rdtime (f3 0 (.s 2) o0 o0 o0 0)) id = true
    ∧ went (.movsr (f3 0 (.v 2) o0 o0 o0 0)) id = true ∧ went (.movrs (f3 0 o0 (.s 2) o0 o0 9)) id = true := by decide

theorem witness_timelineRead : went (.tlrd (tl (.s 2) o0 15 0)) id (fun c => hasTimeline c.t 15) = true
    ∧ went (.tlrd (tl (.s 2) o0 0 1)) id (fun c => hasTimeline c.t 0) = true := by decide

/-- A matrix operation on formats of code 0 in v8 and v9, with its descriptor in s60, on tile `t`. -/
def mmaX (t : BitVec 32) : F3 := f3 0 (.v 8) (.v 16) (.s 60) o0 t

/-- The hypotheses of the statement about MMA and MMAZ, with no latch. -/
def mmaMeets (x : F3) (zero : Bool) (c : Iss) : Bool :=
  let v := c.vote x.d
  let tile := fld x.imm 5 0
  let blocks := sideRead v.fa false
  let desc := val64 c.a x.b 0
  let off := desc % 2 ^ 20
  let rows := fragValues v.fa (c.fragment x.a blocks) 0
  let u := (c.landed (operandReads v.fb off (desc / 2 ^ 20 % 2 ^ 20) false)).tileView v.fb
  let cols := stepOperand u v.fb off (desc / 2 ^ 20 % 2 ^ 20) false 0
  c.a.latch.isNone && maskOf c.ex == 0xFFFFFFFF && maskOf c.act == 0xFFFFFFFF && v.ma == 0 && v.mb == 0
    && mmaPair c.t.hdr.version v.fa v.fb == some false && !blocks && decide (tile < c.t.hdr.accTiles) && (c.descFault x v desc).isNone
    && (readWaits c.t off (32 * runBytes v.fb)).isEmpty && !sideRead v.fb false
    && (poisonRead c.a ((List.range 8).map (fragReg x.a + ·)) [] c.act).isNone && (badRows rows).isEmpty && (badRows cols).isEmpty
    && (zero || !tilePoisoned c.t tile) && !stepPoisoned u off (32 * runBytes v.fb)

/-- ACCEPI and ACCCK of tile 0 with descriptor s60 and s61. -/
def epiX (m : BitVec 6) : F3 := f3 m o0 (.s 60) (.s 61) o0 0
def ckX : F3 := f3 0 (.s 4) (.s 60) (.s 61) o0 0

/-- The bytes of a job card of one tile: level counts 1, timeline 0, formats of code 18, peak and energy 1 (R300). -/
def oneTileCard : List Byte :=
  let level : List Byte := [1, 0, 0, 0, 0, 0, 0, 0, 0, 0, 0, 0]
  (List.replicate 5 level).flatten ++ List.replicate 24 0 ++ [18, 0, 0, 0, 18, 0, 0, 0] ++ List.replicate 10 0 ++ [1, 0, 1, 0, 0, 0] ++ List.replicate 20 0

def withCard : State → State :=
  tms fun t => { t with present := oneTileCard.zipIdx.foldl (fun m b => sset 0 m b.2 b.1) t.present }

theorem witness_matrix_mma : went (.mma (mmaX 63)) id (mmaMeets (mmaX 63) false) = true
    ∧ went (.mmaz (mmaX 0)) id (mmaMeets (mmaX 0) true) = true := by decide +kernel

theorem witness_matrix_moves :
    went (.fmtv (f3 0 (.s 4) (.v 8) o0 o0 0)) id (fun c => maskOf c.ex == 0xFFFFFFFF && maskOf c.act == 0xFFFFFFFF) = true
    ∧ went (.accld (f3 0 o0 (.v 8) o0 o0 0x33F)) id (fun c => !c.act.isEmpty && decide (63 < c.t.hdr.accTiles)) = true
    ∧ went (.accst (f3 0 (.v 8) o0 o0 o0 0)) id (fun c => !c.act.isEmpty && decide (0 < c.t.hdr.accTiles)) = true
    ∧ went (.accz (f3 0 o0 o0 o0 o0 0x4000)) id (fun c => !c.act.isEmpty && decide (64 ≤ c.t.hdr.accTiles)) = true := by decide

theorem witness_matrix_epilogue : went (.accepi (epiX 0)) id (fun c =>
    let out := val64 c.a (.s 60) 0
    fmtOk c.t.hdr.version .dest 0 && out == 0 && (epiPlaces c.t 32 out none none).isNone && (absentLines c.t out 4096).isEmpty
      && !tilePoisoned c.t 0
      && (epilogue c.t 0 ⟨false, 0, 0, 0, none, none⟩ (drawAt c.t c.a.key) ((List.range 32).map (roundCounter c.a))).trapped.isEmpty) = true := by
  decide +kernel

theorem witness_matrix_check : went (.accck ckX) (setS [(60, 0x4000000000000), (61, 0x1200000000)] ∘
      tms fun t => { t with hdr := { t.hdr with regions := [⟨0, 8192, 0, .plain, .sum, .i32, false, 0⟩] } }) (fun c =>
    let ck := val64 c.a (.s 60) 0 / 2 ^ 40 % 2 ^ 20
    codeWidth 18 == 8 && (epiPlaces c.t 8 0 none (some ck)).isNone && (readWaits c.t 0 1024).isEmpty && (readWaits c.t ck 128).isEmpty
      && !stepPoisoned c.t 0 1024 && !stepPoisoned c.t ck 128) = true := by decide +kernel

theorem witness_matrix_job : went (.mjob (f3 0 o0 o0 (.s 60) o0 0)) withCard (fun c =>
    decide ((coreOf c.s0 c.t.core).jobs.length < 4) && inOneRegion c.t 0 128 && (readWaits c.t 0 128).isEmpty && !stepPoisoned c.t 0 128
      && cardOk c.t (stepBytes c.t 0 128) (parseCard (stepBytes c.t 0 128))) = true := by decide +kernel

/-- Aligned addresses and a free waiting-table entry. -/
def mayAccess (x : FM) (n : Nat) (op : MemOp) (c : Iss) : Bool :=
  c.act.all (fun l => c.ea x n l % n == 0) && c.room op ((c.memLanes x [x.d]).map fun l => laneReq l (c.ea x n l) none n 0 0) && !c.act.isEmpty

def ld4 : FM := fm 4 (.v 4) (.s 60) .zr o0 0 64
def st4 : FM := fm 4 o0 (.s 60) .zr (.v 4) 0 64

theorem witness_globalComplete :
    went (.ld ld4) id (mayAccess ld4 4 (.load false false)) = true
    ∧ went (.ld { ld4 with ord := 13 }) id (mayAccess { ld4 with ord := 13 } 4 (.load false false)) = true
    ∧ went (.st st4) id (fun c => mayAccess st4 4 .store c && (c.boundStore st4.h 0 4 (c.memLanes st4 [.v 4]) (c.data 4 (.v 4))).2.2.isEmpty) = true
    ∧ went (.lda ld4) id (mayAccess ld4 4 (.load false true)) = true
    ∧ went (.chka ld4) id (mayAccess ld4 4 (.load false false)) = true
    ∧ went (.invala (fm 1 o0 o0 o0 o0 0 0)) id (fun c => !c.act.isEmpty) = true
    ∧ went (.ldix (fm 4 (.v 4) (.s 60) .zr (.v 6) 0 0)) id (mayAccess (fm 4 (.v 4) (.s 60) .zr (.v 6) 0 0) 4 (.ldix false false)) = true
    ∧ went (.atom (fm 0 (.v 4) (.s 60) .zr (.v 6) 0 0)) id (mayAccess (fm 0 (.v 4) (.s 60) .zr (.v 6) 0 0) 4 (.atom 0 false)) = true
    ∧ went (.atom (fm 0 (.v 4) (.s 60) .zr (.v 6) 10 0)) id (fun c => !(c.atomReqs (fm 0 (.v 4) (.s 60) .zr (.v 6) 10 0) [.v 4, .v 6]).isEmpty) = true
    ∧ went (.red (fm 0x20 o0 (.s 60) .zr (.v 6) 0 0)) id (mayAccess (fm 0x20 o0 (.s 60) .zr (.v 6) 0 0) 8 (.red 0 true)) = true := by decide

/-- ICINV and PREFB of no bytes and of some (R225, R227). -/
def rangeX (ord : BitVec 4) : FM := fm 0 o0 (.s 60) .zr (.s 61) ord 0

theorem witness_cacheControlComplete :
    went (.pref (fm 0 o0 (.s 60) .zr o0 0 0)) id = true
    ∧ went (.prefb { rangeX 0 with bnd := 15 }) id (fun c => hasTimeline c.t 15 && !c.act.isEmpty) = true
    ∧ went (.prefb (rangeX 0)) noTimelines (fun c => !hasTimeline c.t 0) = true
    ∧ went (.cwb (fm 0 o0 (.s 60) .zr o0 0 0)) id (mayAccess (fm 0 o0 (.s 60) .zr o0 0 0) 1 .cwb) = true
    ∧ went (.icinv (rangeX 8)) id (fun c => (pageParts (c.ea (rangeX 8) 1 0) (val64 c.a (.s 61) 0 % 2 ^ 32)).isEmpty) = true
    ∧ went (.icinv (rangeX 4)) (setS [(61, 128)]) (fun c =>
        c.room .icinv ((pageParts (c.ea (rangeX 4) 1 0) (val64 c.a (.s 61) 0 % 2 ^ 32)).map fun p => laneReq 0 p.1 none p.2 0 0)
          && !(pageParts (c.ea (rangeX 4) 1 0) (val64 c.a (.s 61) 0 % 2 ^ 32)).isEmpty) = true
    ∧ went (.fetchb (fm 0 o0 o0 o0 o0 0 0)) id (fun c => !c.act.isEmpty) = true
    ∧ went (.fence (fm 0 o0 o0 o0 o0 15 0)) id (fun c => !c.act.isEmpty) = true
    ∧ went (.fence { fm 0 o0 o0 o0 o0 5 0 with h := ⟨false, false, 0, false, true, 0, 0⟩ }) id (fun c => c.act.isEmpty) = true
    ∧ went (.fetchb { fm 0 o0 o0 o0 o0 0 0 with h := ⟨false, false, 0, false, true, 0, 0⟩ }) id (fun c => c.act.isEmpty) = true := by decide

/-- The region of the placed team made tagged (R120, R144). -/
def tagged : State → State := tms fun t => { t with hdr := { t.hdr with regions := [⟨0, 4096, 0, .tagged, .sum, .i32, false, 0⟩] } }

/-- The region of the placed team made a step region (R120). -/
def stepRegion : State → State := tms fun t => { t with hdr := { t.hdr with regions := [⟨0, 4096, 0, .step, .sum, .i32, false, 0⟩] } }

/-- The same in a cohort group (R133). -/
def cohortRegion : State → State := tms (fun t => { t with hdr := { t.hdr with cohortGroups := 1 } }) ∘ stepRegion

/-- No lane is at fault, and no line of its own core is absent. -/
def stepClear (x : FM) (remote : Bool) (n : Nat) (acc : StepAccess) (c : Iss) : Bool :=
  c.act.all (fun l => (c.stepCause remote n acc (c.ea x n l)).isNone) && (c.missing (c.ownLanes c.act (c.ea x n)) n).isEmpty
    && (c.otherLanes c.act (c.ea x n)).isEmpty && !(c.ownLanes c.act (c.ea x n)).isEmpty

def ldsX (m : BitVec 6) : FM := fm m (.v 4) (.s 60) .zr o0 0 4092
def stsX (m : BitVec 6) : FM := fm m o0 (.s 60) .zr (.v 6) 0 4088

theorem witness_stepMemComplete :
    went (.lds (ldsX 4)) id (stepClear (ldsX 4) false 4 .load) = true
    ∧ went (.sts (stsX 4)) id (stepClear (stsX 4) false 4 .store) = true
    ∧ went (.stx (stsX 4)) cohortRegion (stepClear (stsX 4) true 4 .stx) = true
    ∧ went (.ldf (ldsX 4)) tagged (stepClear (ldsX 4) true 4 .tag) = true
    ∧ went (.tagset (fm 0 o0 (.s 60) .zr o0 0 0)) tagged (stepClear (fm 0 o0 (.s 60) .zr o0 0 0) true 4 .tag) = true
    ∧ went (.tagclr (fm 0 o0 (.s 60) .zr o0 0 0)) tagged (stepClear (fm 0 o0 (.s 60) .zr o0 0 0) true 4 .tag) = true
    ∧ went (.tagrd (fm 0 (.v 4) (.s 60) .zr o0 0 0)) tagged (stepClear (fm 0 (.v 4) (.s 60) .zr o0 0 0) true 4 .tag) = true
    ∧ went (.ste (stsX 4)) tagged (stepClear (stsX 4) true 4 .tag) = true ∧ went (.stf (stsX 4)) tagged (stepClear (stsX 4) true 4 .tag) = true
    ∧ went (.prsrd (fm 0 (.v 4) (.s 60) .zr o0 0 0)) stepRegion
        (fun c => c.act.all fun l => (c.stepCause false 1 .presence (c.ea (fm 0 (.v 4) (.s 60) .zr o0 0 0) 1 l)).isNone) = true
    ∧ went (.atoms (fm 0 (.v 4) (.s 60) .zr (.v 6) 0 0)) id (stepClear (fm 0 (.v 4) (.s 60) .zr (.v 6) 0 0) false 4 .atomic) = true
    ∧ went (.reds (fm 0 o0 (.s 60) .zr (.v 6) 0 0)) id (stepClear (fm 0 o0 (.s 60) .zr (.v 6) 0 0) false 4 .atomic) = true
    ∧ went (.atomx (fm 0x20 (.v 4) (.s 60) .zr (.v 6) 0 0)) id (stepClear (fm 0x20 (.v 4) (.s 60) .zr (.v 6) 0 0) true 8 .atomic) = true := by decide

/-- Copies of the ladle context with .nb into p1, and their form without. -/
def cpX (imm : BitVec 32) : F3 := ⟨hm 0, o0, .s 60, .s 61, .s 62, 15, 0, imm⟩
def nbX (imm : BitVec 32) : F3 := ⟨hm 0, .p 1, .s 60, .s 61, .s 62, 15, 1, imm⟩

/-- Lengths in s62 and s63, and every count of the step memory at its most (R102). -/
def lengths : State → State := setS [(62, 128), (63, 1)]
def fullCounts : State → State := tms fun t => { t with copyCount := (List.range 32).map fun k => (k, 15) }

theorem witness_copyComplete_accepted :
    went (.copy (cpX 0x1000)) lengths (fun c => hasTimeline c.t 15 && !c.act.isEmpty
      && c.copyRoom 0 (c.plan (cpX 0x1000) .copy false 1 false 0)) = true
    ∧ went (.copyg (nbX 0x1000)) lengths (fun c => hasTimeline c.t 15 && !c.act.isEmpty
      && c.copyRoom 0 (c.plan (nbX 0x1000) .gather true 1 false 0)) = true
    ∧ went (.copys (nbX 0x500)) lengths (fun c => hasTimeline c.t 15 && !c.act.isEmpty
      && c.copyRoom 5 (c.plan (nbX 0x500) .scatter true 1 false 0)) = true
    ∧ went (.copyr (cpX 0)) lengths (fun c => hasTimeline c.t 15 && !c.act.isEmpty
      && c.copyRoom 0 (c.plan (cpX 0) (.reduce 0) false 4 true 0)) = true
    ∧ went (.cbload ⟨hm 0, o0, o0, .s 60, .s 61, 0, 0, 0⟩) (setS [(61, 0x10001)]) (fun c => !c.act.isEmpty
      && c.copyRoom 0 (c.bookPlan ⟨hm 0, o0, o0, .s 60, .s 61, 0, 0, 0⟩ 0)) = true
    ∧ went (.cbdrop ⟨hm 0, o0, o0, o0, o0, 0, 0, 0xC0500⟩) id (fun c => hasTimeline c.t 0 && !c.act.isEmpty
      && decide (queued c.s (socketOf c.t.core) 5 < 64)) = true
    ∧ went (.cqry (f3 0 (.s 4) o0 o0 o0 0x700)) id (fun c => !c.act.isEmpty) = true := by decide

theorem witness_copyComplete_refused :
    went (.copy (nbX 0x1000)) (fullCounts ∘ lengths) (fun c => !c.copyRoom 0 (c.plan (nbX 0x1000) .copy false 1 false 0)) = true
    ∧ went (.copyg (nbX 0x1000)) (fullCounts ∘ lengths) (fun c => !c.copyRoom 0 (c.plan (nbX 0x1000) .gather true 1 false 0)) = true
    ∧ went (.copys { nbX 0 with aux := 1 }) (fun s => { s with engines := [] }) (fun c => hasTimeline c.t 15) = true
    ∧ went (.copy (cpX 0)) noTimelines (fun c => !hasTimeline c.t 15) = true
    ∧ went (.copyr (cpX 0)) noTimelines (fun c => !hasTimeline c.t 15) = true
    ∧ went (.cbload ⟨hm 0, o0, o0, .s 60, .s 61, 0, 0, 0⟩) noTimelines (fun c => !hasTimeline c.t 0) = true := by decide

/-! Witnesses of the hypotheses of the statements about steps of the package: a step that is not due is refused, so a next state shows that its
hypotheses hold. -/

/-- Whether a step answers a next state. -/
def answers (i : Instr) (s : State) : Bool := match exec i s with | .next _ => true | _ => false

/-- Every socket live, powered and released, boot done, some time past reset. -/
def upState : State :=
  regPut { State.reset with powered := 0xFFFFFFFF, released := 0xFFFFFFFF, boot := .done, time := 10000000000 } .pkgcfg 0xFFFFFFFFFFFFFFFF

/-- The agent of a placed NOP, its team and its grid, in such a package. -/
def key0 : AgentKey := ⟨State.reset.nextId, 0⟩
def withAgent : State := { placeWord upState 96 0 with agenda := [] }
def agent0 (f : Agent → Agent) : State := ags f withAgent
def team0 (f : Team → Team) : State := tms f withAgent
def grid0 (f : Grid → Grid) : State := { withAgent with grids := withAgent.grids.map f }
def core0 (f : Core → Core) : State := { withAgent with cores := supd coreInit withAgent.cores 0 f }

def fence0 (rel : Bool) : Hold := .fence ⟨7, true, rel, 3, true, 0, 0, .none, [], [], none⟩

/-- An identity translation of the first 64 KiB in context 0. -/
def tlb0 : TlbEntry := ⟨0, ⟨0, 0, 65536, 1, true, true, true, true⟩, true⟩

theorem witness_agentEvents :
    answers (.switchMarkerPass key0) (agent0 fun a => { a with marker := true }) = true
    ∧ answers (.fenceComplete key0) (agent0 fun a => { a with hold := some (fence0 false) }) = true
    ∧ answers (.sleepExpiry key0) (agent0 fun a => { a with hold := some (.sleep 10000000000) }) = true
    ∧ answers (.leaseExpiry 0 5) (core0 fun c => { c with l1 := [⟨5, 10000000000, 0, []⟩] }) = true
    ∧ answers (.addressTableExpiry key0) (agent0 fun a => { a with addrTable := [⟨0, .v 4, 4, [], 0, false⟩] }) = true
    ∧ answers (.absentLineWake key0) (agent0 fun a => { a with absent := [⟨1, [0]⟩] }) = true
    ∧ answers (.lineFill key0 256) (ags (fun a => { a with fetchBuf := [] }) (core0 fun c => { c with tlb := [tlb0] })) = true
    ∧ answers (.watchdogExpiry key0) (regPut (agent0 fun a => { a with stuck := 1000 }) .wdcfg 0x8000000000000001) = true
    ∧ answers (.debugResume key0) (agent0 fun a => { a with hold := some (.bkpt 7 256) }) = true
    ∧ answers (.icinvChipletAck key0 3) (agent0 fun a => { a with hold := some (.icinv ⟨0, [3, 4], [], true, 0, []⟩) }) = true := by decide +kernel

/-- The group of the placed team. -/
def group0 : GroupKey := ⟨0, some key0.team, 0⟩
def arrived0 (f : Team → Team) : State := tms f (agent0 fun a =>
  { a with stepArrived := true, lanes := (List.range 32).foldl (fun m l => sset .ready m l (.atStep 0)) a.lanes })

/-- A step region of 64 bytes with a collision under the fault rule (R128). -/
def collided (t : Team) : Team := { t with
  hdr := { t.hdr with regions := [⟨0, 64, 0, .step, .fault, .i32, false, 0⟩] }
  next := sset nextInit t.next 0 { nextInit with written := true, collided := true } }

theorem witness_stepEvents :
    answers (.stepComplete group0) (arrived0 id) = true
    ∧ answers (.stepComplete group0) (arrived0 collided) = true ∧ (groupTrap (landStep (arrived0 collided) group0) group0).isSome = true
    ∧ answers (.nextPlaneRefillDone key0.team 0) (team0 fun t => { t with refilling := [0] }) = true
    ∧ answers (.redtResult group0 0) { withAgent with reductions := [⟨group0, 0, 0, false, 5, [⟨key0, .s 4, 0, 256, true⟩]⟩] } = true
    ∧ answers (.whiskMessage 0) { withAgent with whisk := [⟨⟨0, none, 0⟩, 0, false, 1, 10000000000⟩] } = true := by decide +kernel

/-- A packet that has arrived at the end of a hop, by itself. -/
def hop0 : Hop := ⟨0, 0, false⟩
def packet (src : Nat) (m : Msg) : Packet := { src, dst := 0, relayed := false, planeB := false, who := .other, attr := 1, pa := 0, sseq := 0, msg := m }
def sent (lseq : BitVec 8) (p : Packet) : Sent := ⟨lseq, 0, 0, p, packetCrc lseq 0 p⟩
def arriving (m : Msg) : State := { upState with links := [⟨hop0, [sent 0 (packet 0 m)], [], [], 0, 0, 0, false⟩] }

theorem witness_requestPackets :
    answers (.rd hop0) (arriving (.rd [⟨0, 0, 4, 0, 0⟩] false)) = true ∧ answers (.wr hop0) (arriving (.wr [(0, 1)] false none false)) = true
    ∧ answers (.atPkt hop0) (arriving (.at 0 false [⟨0, 0, 4, 1, 0⟩] true)) = true ∧ answers (.lx hop0) (arriving (.lxe 0 0 4)) = true
    ∧ answers (.pf hop0) (arriving (.pf 0 128 0 0 1)) = true ∧ answers (.icinvCommit hop0) (arriving (.commit [0])) = true
    ∧ answers (.fm hop0) (arriving .fm) = true ∧ answers (.fm hop0) { upState with markers := [packet 0 .fm] } = true := by decide +kernel

/-- A packet of another socket, with its link number expected, and not. -/
def farHop : Hop := ⟨1, 0, false⟩
def farArriving (lseq : BitVec 8) (m : Msg) : State :=
  { upState with links := [⟨farHop, [sent lseq (packet 1 m)], [], [], 0, 0, 0, false⟩] }

theorem witness_replyPackets :
    answers (.rdr hop0) (arriving (.rdr [] 0 [] 0)) = true ∧ answers (.wrc hop0) (arriving (.wrc 0 false)) = true
    ∧ answers (.atr hop0) (arriving (.atr [] 0 true)) = true ∧ answers (.fmr hop0) (arriving (.fmr 0)) = true
    ∧ answers (.xm hop0) (arriving (.xm 0 0 0 (.tagset 0) key0 0 0)) = true ∧ answers (.pfReply hop0) (arriving (.pfr 0 0 1)) = true
    ∧ answers (.rm farHop) (farArriving 0 (.rm 0)) = true ∧ answers (.rma farHop) (farArriving 0 (.rma 0)) = true
    ∧ answers (.lc farHop) (farArriving 0 (.ack 0)) = true ∧ answers (.lossNotice farHop) (farArriving 0 (.loss false)) = true
    ∧ answers (.tx hop0) (arriving (.tx (.raw [1]))) = true ∧ answers (.translationRequest hop0) (arriving (.xreq 0 0 0 .read)) = true
    ∧ answers (.reservedPacket farHop) (farArriving 0 .reserved) = true ∧ answers (.rdr farHop) (farArriving 1 (.rdr [] 0 [] 0)) = true
    ∧ answers (.xm farHop) (farArriving 1 (.xmr [])) = true := by decide +kernel

/-- A colour whose oldest packet waits for its acknowledgement, sent again `n` times. -/
def unacked (n : Nat) : State := { upState with links := [⟨farHop, [], [sent 0 (packet 1 .fm)], [], 1, 0, n, false⟩] }

theorem witness_linkEvents :
    answers (.linkRetryTimeout farHop) (unacked 7) = true ∧ answers (.colourDark farHop true) upState = true
    ∧ answers (.colourDark farHop false) (unacked 8) = true ∧ answers (.routeWrite 0 1 0) upState = true ∧ answers (.routeRetest 0 1 0) upState = true
    ∧ answers (.routeRetestDone 0 1 true false) { upState with retests := [⟨0, 1, 9999990000, true, false⟩] } = true
    ∧ answers (exchangeOf upState 30) upState = true := by decide +kernel

/-- A walk of context 0 at its first reference, and a shard with one thing in it. -/
def xreq0 : XReq := ⟨0, false, .other, 0, 0, 0, .read⟩
def walk0 (dropped : Bool) : Walk := ⟨5, xreq0, 0, 0, some 0, false, none, none, none, false, none, false, 0, dropped, false, 0, false, [], none, some (0, false)⟩
def shard0 (h : Shard) : State := { upState with shards := [(2, h)] }

theorem witness_translationEvents :
    answers (.walkReferenceReply 2 5) (shard0 ⟨[], [], [walk0 true], [], []⟩) = true
    ∧ answers (.walkReferenceReply 2 5) (shard0 ⟨[], [], [walk0 false], [], []⟩) = true
    ∧ answers (.pageRequestPost 2) (regPut (shard0 ⟨[], [], [], [], [(xreq0, 0, 1, 0)]⟩) (.prqbase 0) 0) = true
    ∧ answers (.prqRecordComplete 0) { upState with devWrites := [⟨3, 12, .prq 0, [], 0, 5⟩] } = true
    ∧ (pageReqOf { upState with pageReqs := [⟨0, 3, xreq0, none, true⟩] } 0 3).isSome = true ∧ (pageReqOf upState 0 3).isNone = true
    ∧ answers (.prrespRetry 0 3) { upState with pageReqs := [⟨0, 3, xreq0, none, true⟩] } = true
    ∧ answers (.prrespRefuse 0 3) { upState with pageReqs := [⟨0, 3, xreq0, none, false⟩] } = true
    ∧ answers (.xlatinvRange 0) upState = true ∧ answers (.xlatinvContext 0) upState = true ∧ answers (.xlatinvAll 0) upState = true
    ∧ answers .xlatinvComplete (regPut upState .xlatinv 0x8000000000000000) = true := by decide +kernel

theorem witness_homeEvents :
    answers (.pinctlUnpinRange 12 0) upState = true ∧ answers (.pinctlUnpinAll 27 0) upState = true
    ∧ answers (.pinctlComplete 12) (regSetBit upState (.pinctl 12) 61 true) = true
    ∧ answers (.scrubRead 12) (regSetBit upState .scrubcfg 31 true) = true ∧ answers (.memerrClear 12 0) upState = true := by decide +kernel

/-- A copy of the placed team at the head of engine 0 of its chiplet. -/
def copy0 (form : CopyForm) (pos : Nat) : CopyOp :=
  ⟨1, 1, 0, key0, 0, 0, 0, 256, form, false, false, false, 0, 4096, 0, runShape 1 128, 0, 0, false, pos, 0, 0, [], [], [], false, false, none, 0, 0, [],
    Known.none, false⟩
def engine0 (op : CopyOp) : State := { withAgent with engines := [(0, ⟨[op], [], []⟩)] }

/-- A job of the placed team at the head of core 0's engine. -/
def job0 (admitted finished : Bool) : Job :=
  ⟨key0, 1, 256, parseCard oneTileCard, 0, false, [], [], false, List.replicate 32 0, 0, false, admitted, 0, none, 0, finished⟩

theorem witness_engineEvents :
    answers (.copyChunk 0 0) (engine0 (copy0 .copy 0)) = true ∧ answers (.cbloadServe 0 0) (engine0 (copy0 (.cbload 0 1 1) 0)) = true
    ∧ answers (.cbdropServe 0 0) (engine0 (copy0 (.cbdrop 3) 0)) = true ∧ answers (.copyComplete 0 0 1) (engine0 (copy0 .copy 128)) = true
    ∧ answers (.jobAdmission 0) (core0 fun c => { c with jobs := [job0 false false] }) = true
    ∧ answers (.jobComplete 0) (core0 fun c => { c with jobs := [job0 true true] }) = true := by decide +kernel

theorem witness_engineEvents_step :
    answers (.jobStep 0) (core0 fun c => { c with jobs := [job0 true false] }) = true
    ∧ (match jobStep (core0 fun c => { c with jobs := [job0 true false] }) 0 (job0 true false) ((withAgent.teams.head?).getD (newTeam 0 (probeGrid 0 false) 0 0)) with
      | .done _ => true
      | _ => false) = true := by decide +kernel

/-- A queued record of one team whose image fails the first checks, and a queue that is enabled. -/
def record0 : Record := { probeRecord with reserved := 1 }
def queue0 : State :=
  regPut (regPut { upState with queues := [(0, [⟨record0, 0, 1, 0, false, none, false⟩])] } (.qcfg 0) 0x8000000000000000) (.coreDom 0) 0x8000000000000000

/-- A grid with no team placed yet. -/
def grid1 (cohort : Bool) : State :=
  let s := grid0 fun g => { g with nextTeam := 0, retired := 0, hdr := { g.hdr with cohort := cohort } }
  { s with teams := [], agents := [] }

theorem witness_queueEvents :
    answers (.queueWindowWrite ⟨.coreOrLadle, 0, [0]⟩) upState = true ∧ answers (.qcfgWrite 2047 0) upState = true
    ∧ answers (.qstatClear 0 0) upState = true ∧ answers .dispatchTake queue0 = true
    ∧ answers (.teamPlace 0 0 383) (regPut (grid1 false) (.coreDom 383) 0x8000000000000000) = true
    ∧ answers (.cohortPlace 0 [5]) (regPut (grid1 true) (.coreDom 5) 0x8000000000000000) = true
    ∧ answers (.cohortWaitExpiry 0) (let s := grid1 true; { s with grids := s.grids.map fun g => { g with parentGrid := some 9 } }) = true
    ∧ answers (.teamRetire key0.team) (agent0 fun a => { a with ended := true }) = true
    ∧ answers (.gridRetire 0) (let s := grid1 false; { s with grids := s.grids.map fun g => { g with nextTeam := 1, retired := 1 } }) = true := by
  decide +kernel

theorem witness_powerEvents :
    answers (.controlIntervalBoundary []) upState = true ∧ answers (.shelfSample 1 2 true) upState = true ∧ answers (.shelfSample 1 2 false) upState = true
    ∧ answers .telemetryStale (regSetBit upState .shelfstat 48 false) = true ∧ answers (.droopCurveWrite 7 0) upState = true
    ∧ answers (.droopDetect 95) upState = true
    ∧ answers (.droopHoldExpiry 95) { upState with clusters := [(95, { clusterInit with halvedUntil := some 0 })] } = true
    ∧ answers (.thermalReport 5 255) upState = true ∧ answers (.pacecfgWrite 0) upState = true ∧ answers .pacePeriodEnd upState = true
    ∧ answers .pacePeriodEnd (regSetBit upState .pacecfg 31 true) = true ∧ answers (.lagWordReceive 5) upState = true := by decide +kernel

theorem witness_powerEvents_more :
    answers .shedSafeDeadline { regSetBit upState .shedState 45 true with shedSince := [(1, 0)] } = true
    ∧ answers (.thermalReport 5 90) (regPut (regPut (regPut upState .thermHard 100) .thermSave 0x80000050) .emsave 0x0011000000000000) = true := by
  decide +kernel

/-- SHA3-256 of no bytes, as FIPS 202's examples give it: the digest of an area that a save has not filled (R403). -/
def emptyDigest : List Byte :=
  [0xA7, 0xFF, 0xC6, 0xF8, 0xBF, 0x1E, 0xD7, 0x66, 0x51, 0xC1, 0x47, 0x56, 0xA0, 0x61, 0xD6, 0x62,
    0xF5, 0x80, 0xFF, 0x4D, 0xE4, 0x3B, 0x49, 0xFA, 0x82, 0xD8, 0x0A, 0x4B, 0x80, 0xF8, 0x43, 0x4A]

theorem test_sha3_empty : sha3 [] = emptyDigest := by decide +kernel

/-- Queue 0 saved from the placed team, and its resume begun. -/
def savedTeam : State :=
  let s := withAgent
  regPut (regPut { s with teams := [], agents := [], mem := cellsAt 0 emptyDigest, saves := [⟨0, 0, false, s.grids, s.teams, s.agents⟩] } .preempt 0x2000000000000000)
    (.coreDom 7) 0x8000000000000000

theorem witness_saveEvents :
    answers (.preemptSave 0) (regSetBit upState .preempt 61 true) = true ∧ answers (.preemptSave 0) upState = true
    ∧ answers (.preemptResume 0) upState = true ∧ answers (.preemptCancel 0) upState = true
    ∧ answers (.teamSave 0) { agent0 (fun a => { a with hold := some (.safePark 0) }) with saving := some 0 } = true
    ∧ answers (.teamRestore 0 [7]) savedTeam = true
    ∧ answers (.teamRestore 0 [7]) { savedTeam with mem := [] } = true
    ∧ answers .standbyPowerLoss upState = true := by decide +kernel

theorem witness_saveEvents_emergency : ∃ s e, s.em = some e ∧ regBit s .emstat 62 = true ∧ e.pending = [] ∧ e.lost = [] ∧ hostReached s = true :=
  ⟨{ regSetBit upState .emstat 62 true with em := some ⟨[], [], 0, [], false, false⟩ }, ⟨[], [], 0, [], false, false⟩, rfl, by decide, rfl, rfl, by decide⟩

theorem witness_scanEvents :
    answers (.scanDrain 0) upState = true ∧ answers (.scanRun 0x02C0000000000000) upState = true ∧ answers (.scanRelease 0x02C0000000000000) upState = true
    ∧ (fld 0x02C0000000000000#64 58 54 == 11 && isCompute 11) = true ∧ answers (.scanDrain 0) (regSetBit upState .scanctl 61 true) = true
    ∧ answers .scanDrainComplete (setScanCommand (regSetBit upState .scanctl 61 true) 1) = true := by decide +kernel

theorem witness_scanEvents_run : ∃ s, regBit s .scanctl 61 = true ∧ scanCommand s = 2 :=
  ⟨setScanCommand (regSetBit upState .scanctl 61 true) 2, by decide, by decide⟩

theorem witness_registerWrites :
    answers (.registerWrite .wdcfg 5) upState = true ∧ answers (.coreDomWrite 383 0) upState = true ∧ answers (.fltbaseWrite 63 0) upState = true
    ∧ answers (.cestatClear 11 5 0) upState = true ∧ answers (.hidstatClear 0) upState = true
    ∧ answers (.hostcfgRearm 0) { upState with hostUp := true } = true
    ∧ (regExists (.coreDom 383) && regExists (.fltbase 63) && regExists (.cestat 11 5) && upState.em.isNone) = true := by decide +kernel

/-- A request that waits for the answer to a snoop of line 1, since `t`. -/
def snooped (t : Nat) : State := { upState with snoops := [(1, t, hop0, packet 0 (.rd [⟨0, 128, 4, 0, 0⟩] false))] }

theorem witness_hostEvents :
    answers (.hostMemRead ⟨0, 0, 1, false⟩) { upState with hostUp := true } = true
    ∧ answers (.hostMemWrite ⟨0, 0, [1]⟩) { upState with hostUp := true } = true
    ∧ answers (.hostWriteCompletion 0) { upState with hostDone := [⟨0, 0, 9999999999⟩] } = true
    ∧ answers (.snoopResponse 1 [(128, 7)]) (snooped 9999999999) = true ∧ answers (.snoopTimeout 1) (snooped 0) = true
    ∧ answers .hostLinkTimeout { upState with hostUp := false, hostDownSince := 0 } = true
    ∧ answers (.hostLinkL0Change true) { upState with hostUp := false } = true ∧ answers (.hostLinkL0Change false) { upState with hostUp := true } = true
    ∧ answers (.systemRangeReply 0 ⟨false, false, []⟩) { upState with sysReqs := [⟨packet 0 (.rd [] false), 16, 0, 0⟩] } = true := by decide +kernel

theorem witness_failureEvents :
    answers (.dieFailure 12) upState = true ∧ answers (.computeChipletFailure 11) upState = true ∧ answers (.dieErrorReport 31) upState = true
    ∧ answers (.scaleupLinkState 15 .down) upState = true
    ∧ answers (.scaleupRecoveryTimeout 15) { upState with links18 := [(15, .recovering, 0)] } = true := by decide +kernel

/-- Hart 63 assigned, and its reservation of granule 1. -/
def hartState : State := { upState with harts := 0x8000000000000000, reservations := [⟨63, 1⟩] }

theorem witness_sandboxEvents :
    answers (.hartFence 63 true true) hartState = true ∧ answers (.hartAmo 63 ⟨0, false, 4, 1, true, true⟩) hartState = true
    ∧ answers (.hartLr 63 8 true) hartState = true ∧ answers (.hartSc 63 16 false 5) hartState = true ∧ answers (.hartSc 63 32 false 5) hartState = true
    ∧ answers (.hartFenceI 63) hartState = true ∧ answers (.mgmtAssign .function 63 63) upState = true ∧ answers (.mgmtAssign .core 0 63) upState = true
    ∧ answers (.mgmtAssign .queue 2047 0) upState = true ∧ answers (.mgmtDebugEnable 63) upState = true ∧ answers (.mgmtDebugDisable 0) upState = true
    ∧ answers .mgmtDeclareHostLost upState = true ∧ answers (.domainReset 63) hartState = true ∧ answers (.firmwareUpdate 3 [1]) upState = true := by decide +kernel

theorem witness_sandboxEvents_report : ∃ nonce : List Byte, nonce.length = 32 ∧ upState.boot = .done := ⟨List.replicate 32 0, by decide, by decide⟩

/-- Images of no bytes: nothing is measured here, since the signatures are free (log entry 6). -/
def images0 : BootImages := ⟨⟨[], []⟩, ⟨[], []⟩, ⟨[], []⟩, ⟨[], []⟩, 0xFFFFFFFF, 3⟩

theorem witness_bootEvents :
    answers .packageReset upState = true ∧ answers (.socketPowerUp 0) { State.reset with time := 50000 } = true
    ∧ answers (.chipletRelease 30) { upState with released := 0x80000000, clocks := [(30, { clockInit with good := 3 })] } = true
    ∧ (popCount (images0.selfTest ||| 0x80000000#32).toNat 12 != 0 && popCount ((images0.selfTest ||| 0x80000000#32).toNat / 2 ^ 12) 16 != 0
      && images0.boundNs != 0 && decide (images0.boundNs ≤ 3)) = true := by decide +kernel

/-! Witnesses of further clauses: what an instruction does without an entry, lanes, room or a slot, and where it raises its event -/

/-- Every waiting-table entry of the core taken (R40). -/
def fullTable : State → State := ags fun a => { a with vars := (List.range 496).map fun n => ⟨0, [], none, false, some n, none⟩ }

/-- The FP64 lanes of every quadrant busy (R275). -/
def busyLanes (s : State) : State := { s with cores := supd coreInit s.cores 0 fun c => { c with dpBusy := (List.range 4).map fun q => (q, 100) } }

def rl (c : Opnd) : F3 := f3i 0 (.s 5) (.v 1) c 3

theorem witness_laneComplete_readl :
    went (.readl (rl .zr)) (ags fun a => { a with vPoison := sset 0 a.vPoison (laneKey 1 3) 2 }) (fun c =>
        c.readlWarp (rl .zr) 0 == c.a.key.idx && sget 0 c.a.vPoison (laneKey 1 3) != 0) = true
    ∧ went (.readl (rl (.s 2))) (fullTable ∘ setS [(2, 1)]) (fun c => c.readlWarp (rl (.s 2)) 0 != c.a.key.idx && !tableFree c.s0 c.t.core false) = true
    ∧ went (.readl (off (rl .zr))) id (fun c => c.act.isEmpty) = true
    ∧ (match teamOf withAgent key0.team, agentOf withAgent key0 with
      | some t, some b => !warpGone withAgent t 0 && sget 0 b.vPoison (laneKey 1 3) == 0
      | _, _ => false) = true
    ∧ (match teamOf withAgent key0.team with | some t => warpGone (agent0 fun a => { a with ended := true }) t 0 | none => false) = true := by
  decide +kernel

theorem witness_doubleForms :
    [Instr.dadd d2, .dmul d2, .dfma (f3 0 (.v 4) (.v 0) (.v 2) (.v 6) 0), .dcmp (f3 0 (.p 1) (.v 0) (.v 2) o0 0)].all (fun i =>
      went i id (·.dpFree) && went i busyLanes fun c => !c.dpFree) = true := by decide +kernel

theorem witness_matrix_idle :
    [Instr.mma (off (mmaX 0)), .mmaz (off (mmaX 0)), .fmtv (off (f3 0 (.s 4) (.v 8) o0 o0 0))].all
        (went · id fun c => match c.collective with | .none => true | _ => false) = true
    ∧ [Instr.accld (off (f3 0 o0 (.v 8) o0 o0 0)), .accst (off (f3 0 (.v 8) o0 o0 o0 0)), .accz (off (f3 0 o0 o0 o0 o0 0x100)), .accepi (off (epiX 0)),
      .accck (off ckX), .mjob (off (f3 0 o0 o0 (.s 60) o0 0))].all (went · id fun c => c.act.isEmpty) = true
    ∧ went (.mjob (f3 0 o0 o0 (.s 60) o0 0)) (fun s => { s with cores := supd coreInit s.cores 0 fun c =>
        { c with jobs := List.replicate 4 ⟨⟨0, 0⟩, 1, 256, parseCard oneTileCard, 0, false, [], [], false, [], 0, false, false, 0, none, 0, false⟩ } })
        (fun c => !c.act.isEmpty && decide (4 ≤ (coreOf c.s0 c.t.core).jobs.length)) = true := by decide +kernel

/-- Bound register 0 traps below the least positive number and above 2 (R159, R160, R219). -/
def trapping : State → State := tms fun t => { t with bnd := [0x4000000000000001], bndflags := 2 <<< 32 }

theorem witness_globalComplete_held :
    [Instr.ld ld4, .lda ld4, .chka ld4, .atom (fm 0 (.v 4) (.s 60) .zr (.v 6) 0 0), .ldix (fm 4 (.v 4) (.s 60) .zr (.v 6) 0 0)].all
        (went · fullTable fun c => !tableFree c.s0 c.t.core false && !c.act.isEmpty) = true
    ∧ went (.ld { ld4 with h := ⟨false, false, 0, false, true, 0, 4⟩ }) id (fun c => (c.loadReqs ld4 4).isEmpty) = true
    ∧ went (.red (fm 0x20 o0 (.s 60) .zr (.v 6) 10 0)) id (fun c => ordRel (fm 0x20 o0 (.s 60) .zr (.v 6) 10 0)
        && !(c.atomReqs (fm 0x20 o0 (.s 60) .zr (.v 6) 10 0) [.v 6]).isEmpty) = true := by decide +kernel

theorem witness_stepMemComplete_held :
    [Instr.ldf { ldsX 4 with offset := 0x1000000 }, .atomx (fm 0x20 (.v 4) (.s 60) .zr (.v 6) 0 0)].all (went · (fullTable ∘ tagged)) = true
    ∧ went (.lds (ldsX 4)) stepRegion (fun c => c.act.all fun l => (c.stepCause false 4 .load (c.ea (ldsX 4) 4 l)).isNone) = true
    ∧ went (.lds { ldsX 4 with offset := 4096 }) id (fun c => (c.stepBad false 4 .load (c.ea { ldsX 4 with offset := 4096 } 4)).isSome) = true
    ∧ went (.sts { stsX 4 with offset := 2 }) id (fun c => (c.stepBad false 4 .store (c.ea { stsX 4 with offset := 2 } 4)).isSome) = true
    ∧ went (.tagrd (fm 0 (.v 4) (.s 60) .zr o0 0 0)) id (fun c => (c.stepBad true 4 .tag (c.ea (fm 0 (.v 4) (.s 60) .zr o0 0 0) 4)).isSome) = true
    ∧ went (.stx (stsX 4)) stepRegion (fun c => (c.stepBad true 4 .stx (c.ea (stsX 4) 4)).isSome) = true
    ∧ went (.sts (stsX 4)) (tms fun t => { t with copyCount := [(31, 1)] }) (fun c =>
        !(c.missing (c.ownLanes c.act (c.ea (stsX 4) 4)) 4).isEmpty) = true := by decide +kernel

theorem witness_copyComplete_parked :
    went (.copy (cpX 0x1000)) (fullCounts ∘ lengths) (fun c => !c.copyRoom 0 (c.plan (cpX 0x1000) .copy false 1 false 0)) = true
    ∧ went (.copy (off (cpX 0x1000))) lengths (fun c => c.act.isEmpty) = true := by decide +kernel

/-- A fence of some scope, with its markers sent or not. -/
def fenceAs (scope : BitVec 2) (sent : Bool) : Hold := .fence ⟨7, false, true, scope, sent, 0, 0, .none, [], [], none⟩

def timeline0 (faulted : List Nat) : Team → Team := fun t => { t with tls := t.tls.set 0 ⟨1, 1, [], faulted⟩ }

theorem witness_agentEvents_more :
    answers (.switchMarkerPass key0) (agent0 fun a => { a with marker := true, lanes := (List.range 32).map fun l => (l, .exited) }) = true
    ∧ answers (.fenceComplete key0) (agent0 fun a => { a with hold := some (fenceAs 1 false) }) = true
    ∧ answers (.fenceComplete key0) (agent0 fun a => { a with hold := some (fenceAs 3 false), paths := [⟨12, false⟩] }) = true
    ∧ answers (.fenceComplete key0) (agent0 fun a => { a with hold := some (fenceAs 2 true) }) = true
    ∧ answers (.fenceComplete key0) (tms (timeline0 []) (agent0 fun a => { a with hold := some (.waittl 0 1 256) })) = true
    ∧ answers (.fenceComplete key0) (tms (timeline0 [1]) (agent0 fun a => { a with hold := some (.waittl 0 1 256) })) = true
    ∧ answers (.fenceComplete key0) (agent0 fun a => { a with adv := [⟨7, .count 0 1, 2, false, 0, 0, 1, [], none⟩] }) = true
    ∧ answers (.fenceComplete key0) (agent0 fun a => { a with adv := [⟨7, .count 0 1, 2, true, 0, 0, 1, [], none⟩] }) = true
    ∧ answers (.lineFill key0 256) (ags (fun a => { a with fetchBuf := [] }) (core0 fun c =>
        { c with tlb := [tlb0], l0 := [⟨0, 256, 256, List.replicate 64 0⟩] })) = true
    ∧ answers (.icinvChipletAck key0 3) (agent0 fun a => { a with hold := some (.icinv ⟨0, [3, 4], [], true, 0, [(3, 0)]⟩) }) = true := by decide +kernel

/-- A request that a slice has accepted, and an idle link. -/
def accepted (m : Msg) : State :=
  let h : Hop := ⟨12, 12, false⟩
  { upState with inbox := [⟨h, 0, 0, { packet 12 m with dst := 12 }, [0]⟩] }

/-- Whether a request of a kind may be served, and none has just arrived. -/
def mayServe (kind : Msg → Bool) (s : State) : Bool :=
  let h : Hop := ⟨12, 12, false⟩
  (brings s h kind).isNone && s.inbox.zipIdx.any fun a => a.1.hop == h && kind a.1.pkt.msg && canServe s a

theorem witness_requestPackets_served :
    mayServe isRd (accepted (.rd [⟨0, 0, 4, 0, 0⟩] false)) = true ∧ mayServe isWr (accepted (.wr [(0, 1)] false none false)) = true
    ∧ mayServe isPf (accepted (.pf 0 128 0 0 1)) = true ∧ mayServe isFm (accepted .fm) = true
    ∧ mayServe isTx (accepted (.tx (.hart 5 63 0 (.lr false)))) = true
    ∧ answers (.rd farHop) (farArriving 1 (.rd [⟨0, 0, 4, 0, 0⟩] false)) = true := by decide +kernel

theorem witness_engineEvents_epilogue :
    answers (.jobStep 0) (core0 fun c => { c with jobs := [{ job0 true false with accumulated := true }] }) = true := by decide +kernel

theorem witness_queueEvents_more :
    answers .dispatchTake (regPut (regPut { upState with queues := [(0, [⟨probeRecord, 0, 1, 0, false, none, false⟩])] } (.qcfg 0) 0x8000000000000000) (.coreDom 0)
      0x8000000000000000) = true := by decide +kernel

theorem witness_sandboxEvents_more :
    answers (.hartAmo 63 ⟨sysBase, false, 4, 1, true, true⟩) hartState = true
    ∧ answers (.hartSc 63 sysBase true 5) hartState = true ∧ answers (.hartFence 63 false true) hartState = true
    ∧ (destOf hartState 8).isSome = true := by decide +kernel

theorem witness_clusterCycle_agent :
    (match agentOf withAgent key0, teamOf withAgent key0.team with
      | some _, some t => cycleOver { ags (fun a => { a with ended := true }) withAgent with clusters := [(clusterOf t.core, { clusterInit with phase := 100 })] }
          (clusterOf t.core)
      | _, _ => false) = true := by decide +kernel

/-! Witnesses of further clauses: faults of formats, bounds and places, stores on their way, harts, boot and the registers of a hart -/

def cvt (imm : BitVec 32) : F3 := f3 0 (.v 5) (.v 1) o0 o0 imm
def pack (imm : BitVec 32) : F3 := f3 0 (.v 5) (.v 1) (.v 2) (.v 3) imm

/-- TERN code 3 in lane 0 (R176). -/
def tern3 : State → State := setV [(1, 0, 3)]

theorem witness_convertFaults :
    went (.fcvt (f3 0 (.v 5) (.v 2) o0 o0 0x2000)) busyLanes (fun c => ntypeOf 0x20 == some (.flt f64) && !c.dpFree) = true
    ∧ went (.fcvt (f3 0 (.v 5) (.v 2) o0 o0 0x2000)) id (·.dpFree) = true ∧ went (.fcvt (cvt 18)) id (fun _ => ntypeOf 18 == some (.int 8 true)) = true
    ∧ [Instr.fpack (pack 40), .funpack (cvt 40)].all (went · id fun _ => packWidth 40 == 0) = true
    ∧ went (.icvt (cvt 0x1A00)) tern3 (fun c => ntypeIn c.t.hdr.version 26 == some .tern && icvtPair 0 26 (.flt f32) .tern
        && (sourceValue .tern (c.val 32 (.v 1) 0)).isNone) = true
    ∧ went (.funpack (cvt 26)) tern3 (fun c => ntypeIn c.t.hdr.version 26 == some .tern && (sourceValue .tern 3).isNone) = true
    ∧ went (.bound x1) (setV [(1, 0, 5)] ∘ trapping) (fun c => ((c.evalLanes (.bound x1) (.v 5)).any fun l => (teamBound c.t 0 (c.val 32 (.v 1) l)).trap)) = true := by
  decide +kernel

theorem witness_boundTraps :
    went (.st { st4 with h := hm 0b1100 }) trapping (fun c => !(c.boundStore (hm 0b1100) 0 4 (c.memLanes st4 [.v 4]) (c.data 4 (.v 4))).2.2.isEmpty) = true
    ∧ went (.sts (stsX 0b1100)) trapping (fun c =>
        !(c.boundStore (hm 0b1100) 0 4 (c.memLanes (stsX 0b1100) [.v 6]) (c.data 4 (.v 6))).2.2.isEmpty) = true := by decide +kernel

theorem witness_regionControl_misaligned :
    went (.launch launchX) (setS [(1, 68)]) (fun c => c.a.key.idx == 0 && hasTimeline c.t 15 && decide (c.g.depth < 10) && val64 c.a (.s 1) 0 % 64 != 0) = true := by
  decide +kernel

theorem witness_globalComplete_release :
    [id, fullTable].all (fun f => went (.atom (fm 0 (.v 4) (.s 60) .zr (.v 6) 10 0)) f fun c =>
      c.room (.atom 0 false) (c.atomReqs (fm 0 (.v 4) (.s 60) .zr (.v 6) 10 0) [.v 4, .v 6]) == tableFree c.s0 c.t.core false
        && !(c.atomReqs (fm 0 (.v 4) (.s 60) .zr (.v 6) 10 0) [.v 4, .v 6]).isEmpty) = true := by decide +kernel

/-- STS of every lane, each to a word of its own. -/
def stsLanes : FM := fm 4 o0 (.v 8) .zr (.v 6) 0 0
def laneWords : State → State := setV ((List.range 32).map fun l => (8, l, BitVec.ofNat 32 (4 * l)))

theorem witness_stepStoreFrame_lanes :
    [id, stepRegion].all (fun f => went (.sts stsLanes) (f ∘ laneWords) fun c =>
      let own := c.ownLanes c.act (c.ea stsLanes 4)
      stepClear stsLanes false 4 .store c && own.length == 32 && decide (own.Pairwise fun p q => p.2 + 4 ≤ q.2 ∨ q.2 + 4 ≤ p.2)
        && own.all fun p => !(nextWord c.t p.2).written) = true := by decide +kernel

theorem witness_stepMemComplete_entries :
    [Instr.ldf { ldsX 4 with offset := 0x1000000 }, .ste { stsX 4 with offset := 0x1000000 }].all (went · (cohortRegion ∘ tagged)) = true := by decide +kernel

/-- A fence of team scope behind a store on its way to its bank, and behind none (R79). -/
theorem witness_agentEvents_banks :
    (match teamOf withAgent key0.team, agentOf withAgent key0 with
      | some t, some a => !storesOut t key0 1 && !bankWritesOut withAgent a && (faultMark (timelineOf t 0)).isNone
      | _, _ => false) = true := by decide +kernel

theorem witness_linkEvents_missed :
    answers (exchangeOf { upState with failed := 0x80000000 } 30) { upState with failed := 0x80000000 } = true := by decide +kernel

theorem witness_translationEvents_told :
    (match pageReqOf { upState with pageReqs := [⟨0, 3, xreq0, none, true⟩] } 0 3 with | some p => p.told | none => false) = true
    ∧ regBit upState .xlatinv 63 = false ∧ coveredInFlight upState upState.inval = false := by decide +kernel

/-- A job whose operand lies outside every region (R304). -/
def farJob : Job := { job0 true false with card := { parseCard oneTileCard with aBase := 0x80000 } }

theorem witness_engineEvents_faults :
    answers (.jobStep 0) (core0 fun c => { c with jobs := [farJob] }) = true
    ∧ (match teamOf withAgent key0.team with
      | some t => (stepFault t farJob.card (stepPlan farJob.card 0)).isSome && (stepFault t (job0 true false).card (stepPlan (job0 true false).card 0)).isNone
      | none => false) = true := by decide +kernel

/-- Lost host, thermal save enabled and reached (R407, R415). -/
def hotLost : State := declareLost (regPut (regPut (regPut upState .thermHard 100) .thermSave 0x80000050) .emsave 0x0011000000000000)

theorem witness_powerEvents_record : answers (.thermalReport 5 90) hotLost = true ∧ hostReached hotLost = false ∧ answers (.thermalReport 5 79) hotLost = true := by
  decide +kernel

theorem witness_saveEvents_sound : areaSound savedTeam 0 = true ∧ areaSound { savedTeam with mem := [] } 0 = false ∧ savedTeam.hostHeld = [] := by decide +kernel

theorem witness_scanEvents_held : hostHolds upState 0 4096 = false := by decide +kernel

/-- Hart 63 out of machine mode, with paths to release, and with its domain's grant of GiB 0. -/
def userHart (f : Hart → Hart) : State := updHart { hartState with memGrants := [(0, 0)] } 63 fun t => f { t with mode := .hs, csr := [] }
def amo (pa : Nat) (rl : Bool) : HartAmo := ⟨pa, true, 0, 1, false, rl⟩

theorem witness_sandboxEvents_cases :
    [(4, userHart id), (8, userHart id), (2 ^ 30, userHart id)].all (fun e => answers (.hartAmo 63 (amo e.1 false)) e.2) = true
    ∧ (hartMayTouch (userHart id) 63 8 8 && !hartMayTouch (userHart id) 63 (2 ^ 30) 8 && hartMayTouch hartState 63 (2 ^ 30) 8) = true
    ∧ answers (.hartAmo 63 (amo 8 true)) (userHart fun t => { t with paths := [⟨12, false⟩] }) = true
    ∧ answers (.hartSc 63 16 true 5) (userHart id) = true ∧ (8 < dramTop hartState && decide (dramTop hartState ≤ (2 ^ 50))) = true
    ∧ (systemStop hartState (2 ^ 50) false).isNone = true ∧ (hartStop hartState 8 8 (.load 8)).isNone = true
    ∧ (hartStop hartState (2 ^ 47) 8 (.load 8)).isSome = true ∧ isCommand (.mgmtDebugEnable 3) = true
    ∧ answers (.mgmtAssign .hart 5 3) upState = true ∧ answers (.mgmtAssign .memoryGib 5 3) upState = true := by decide +kernel

theorem witness_bootEvents_boot :
    withinSkew { State.reset with powered := 0xFFFFFFFF } images0.boundNs.toNat = true ∧ State.reset.boot = .before ∧ State.reset.firmware = [] := by decide +kernel

theorem witness_words : (0 < 32 ∧ 5 < 32 ∧ (32 = 32 ∨ 32 = 64)) ∧ went (.fshf x3) id = true := by decide

/-! Witnesses of the other statements -/

theorem witness_decodeEncode : wf (.iadd x2) = true ∧ (opcodeOf (.iadd x2)).isSome = true ∧ decode ((encode (.iadd x2)).getD 0) = some (.iadd x2) := by
  decide

/-- The word that an agent fetches. -/
def wordAt (a : Agent) (pc : Nat) : Option Nat := match fetchAt a pc with | .word w => some w.toNat | _ => none

theorem witness_reservedWords : decode 0x000640000000000000000000#96 = none
    ∧ (((placeWord upState 96 0x000640000000000000000000).agents.head?).bind fun a => wordAt a 256) = some 0x000640000000000000000000 := by
  decide +kernel

/-- The agent of a placed word, in place of the first of the list. -/
def first (s : State) : Agent := (s.agents.head?).getD (newAgent key0 0 256 (probeGrid 0 false) 0)

/-- The fetched line of an agent in another state. -/
def lineAs (st : LineState) : Agent := first (agent0 fun a => { a with fetchBuf := a.fetchBuf.map fun l => { l with st := st } })

theorem witness_fetchedSlot :
    (bufLine (first (agent0 id)) 304).isSome = true ∧ (legalPc 304 && !legalPc 316) = true
    ∧ (match fetchAt (first (marks 0 (agent0 id))) 256 with | .fault e => e.cause == 4 | _ => false) = true
    ∧ (match fetchAt (lineAs .parity) 256 with | .fault e => e.cause == 3 | _ => false) = true
    ∧ (match fetchAt (lineAs .illegalLine) 256 with | .fault e => e.cause == 2 | _ => false) = true := by decide +kernel

/-- IADD placed in a package that is up: the move at the head of the agenda issues it. -/
def stepState : State := placeWord upState 96 0x18C800050182000000000000

theorem witness_stepRunsDecoded :
    stepState.agenda = [.issue key0] ∧ stepState.hardTrip = false ∧ (agentOf stepState key0).isSome = true ∧ (teamOf stepState key0.team).isSome = true
    ∧ (match agentOf stepState key0, teamOf stepState key0.team with
      | some a, some t => isPicked { stepState with agenda := [] } a t && issueAddress a == some 256 && wordAt a 256 == some 0x18C800050182000000000000
      | _, _ => false) = true
    ∧ (match step stepState with | .next t => (first t).issues == 1 | _ => false) = true := by decide +kernel

theorem witness_issueOrder :
    (match turnOf (.iadd x2) x2.h (ags (fun a => { a with issueCount := 256 }) (turnAt (.iadd x2))) with | .event _ _ e => e.cause == 15 | _ => false) = true
    ∧ (match turnOf (.iadd { x2 with bnd := 1 }) x2.h (turnAt (.iadd x2)) with | .event _ _ e => e.cause == 1 | _ => false) = true
    ∧ (match turnOf (.iadd x2) x2.h (ags (fun a => { a with vPoison := sset 0 a.vPoison (laneKey 1 0) 3 }) (turnAt (.iadd x2))) with
      | .event _ _ e => e.cause != 0
      | _ => false) = true
    ∧ went (.iadd x2) id = true ∧ (match turnOf (.iadd x2) x2.h upState with | .idle => true | _ => false) = true := by decide +kernel

theorem witness_resultTiming : agentOf (agent0 id) key0 = some (first (agent0 id)) := by decide +kernel

theorem witness_clusterCycle : cycleOver { upState with clusters := [(0, { clusterInit with phase := 100 })] } 0 = true
    ∧ cycleOver { withAgent with clusters := [(0, { clusterInit with phase := 100 })] } 0 = false := by decide +kernel

/-- Lines of the slice that agree with memory. -/
theorem witness_homeStore : upState.cleanAgrees ∧ (([(3, 1), (4, 2)] : List Host.Cell).map (·.1)).Nodup ∧ socketFailed upState (homeSocket upState 0) = false := by
  refine ⟨?_, by decide, by decide⟩
  intro a h
  simp_all [upState, State.reset, regPut, lineAt, sget, slookup, lineInit]

theorem witness_stepKeepsMemory : stepState.memoriesWf = true ∧ (match step stepState with | .next _ => true | _ => false) = true := by decide +kernel

theorem witness_alignmentTraps :
    [Instr.ld { ld4 with offset := 1 }, .st { st4 with offset := 1 }, .lda { ld4 with offset := 2 }, .chka { ld4 with offset := 3 },
      .ldix (fm 4 (.v 4) (.s 60) .zr (.v 6) 0 1), .atom (fm 0 (.v 4) (.s 60) .zr (.v 6) 0 2), .red (fm 0 o0 (.s 60) .zr (.v 6) 0 3)].all
        (went · id fun c => !c.act.isEmpty) = true
    ∧ went (.ld { ld4 with offset := 1 }) id (fun c => c.ea { ld4 with offset := 1 } 4 0 % 4 != 0) = true := by decide +kernel

/-- STS of lane 0 alone, to a plain and to a step region (R232). -/
def stsOne : FM := { stsX 4 with h := ⟨false, false, 0, false, false, 1, 4⟩ }

theorem witness_stepStoreFrame :
    went (.sts stsOne) (setP [(1, 0)]) (fun c => c.act == [0] && stepClear stsOne false 4 .store c && (c.ownLanes c.act (c.ea stsOne 4)).length == 1) = true
    ∧ went (.sts stsOne) (stepRegion ∘ setP [(1, 0)]) (fun c => c.act == [0] && stepClear stsOne false 4 .store c) = true := by decide +kernel

theorem witness_divisionRule :
    went (.idiv x2) (setV [(1, 0, 0x80000000), (2, 0, 0xFFFFFFFF), (1, 1, 7)]) (fun c => readInt 32 false (c.val 32 (.v 1) 0) == -2 ^ 31) = true
    ∧ went (.irem x2) (setV [(1, 0, 7), (2, 0, 2)]) = true := by decide

theorem witness_floatCodes : f64 ∈ [f64, f32, f16, bf16, e5m2, e4m3, e3m2, e2m3, e2m1] ∧ 0 < 2 ^ f64.width ∧ decodeF f64 0 ≠ .nan
    ∧ decodeF e2m1 15 ≠ .nan := by decide

theorem witness_eventTaken :
    (match agentOf (agent0 fun a => { a with regions := [280] }) key0, teamOf withAgent key0.team with
      | some a, some t => a.regions == [280] && (gridOf withAgent t.grid).isSome && unwinds 18 && unwinds 24 && !unwinds 17 && !unwinds 25
      | _, _ => false) = true
    ∧ (match agentOf withAgent key0 with | some a => a.regions == [] | none => false) = true := by decide +kernel

theorem witness_swapPlanes : ((0 : Nat) % 4 = 0 ∧ 64 % 4 = 0 ∧ 0 + 64 ≤ windowBase) ∧ ∀ t ∈ withAgent.teams, ∀ e ∈ (collided t).next, e.1 % 4 = 0 := by
  decide +kernel

theorem test_reset_memory : State.reset.memoriesWf = true := by decide

end Sys2Proof.Tests
end

