-- ==== Sys2Proof/Proofs/RegisterSpace.lean ====
section
/-! Writes to the register space (R5, R116, R392, R397, R415, R417). -/

namespace Sys2Proof.Machine

set_option Elab.async false

/-- WDCFG is a register of the plain rule of R5. -/
theorem writeRegister_wdcfg (s : State) (v : Word64) :
    writeRegister s .wdcfg v = regPut s .wdcfg (regWritten .wdcfg (regGet s .wdcfg) v) := rfl

/-- The rule of R397 for a register of CORE_DOM's layout: a change of domain while busy is refused. -/
theorem writeDomain_of_exists (s : State) (r : Reg) (v : Word64) (hr : regExists r = true) :
    writeDomain s r v =
      let old := regGet s r
      let new := regWritten r old v
      if bit old 61 && fld new 5 0 != fld old 5 0 then regSetBit (regSet (regPut s r new) r 5 0 (fld old 5 0)) r 60 true
      else regPut s r new := by
  simp [writeDomain, hr]

/-- Without an emergency save in progress no queue has lost anything, so a write to FLTBASE records nothing (R392). -/
theorem writeFltbase_of_no_save (s : State) (d : Nat) (v : Word64) (hr : regExists (.fltbase d) = true) (hs : s.em = none) :
    writeFltbase s d v =
      { regPut s (.fltbase d) (regWritten (.fltbase d) (regGet s (.fltbase d)) v) with
        logConfigured := setBit s.logConfigured d true } := by
  simp [writeFltbase, hr, hs]

/-- A write with clear set (R116). -/
theorem writeCestat_of_clear (s : State) (c e : Nat) (v : Word64) (hr : regExists (.cestat c e) = true) (hv : bit v 39 = true) :
    writeCestat s c e v = regSet (regSet s (.cestat c e) 63 48 0) (.cestat c e) 47 40 0 := by
  simp [writeCestat, hr, hv]

/-- A write with clear set (R417). -/
theorem writeHidstat_of_clear (s : State) (v : Word64) (hv : bit v 31 = true) :
    writeHidstat s v = regSetBit (regSet s .hidstat 63 32 0) .hidstat 30 false := by
  simp [writeHidstat, hv]

/-- A write with rearm set while the host's link is in L0 (R415). -/
theorem writeHostcfg_of_rearm (s : State) (v : Word64) (hv : bit v 30 = true) (hup : s.hostUp = true)
    (hf : socketFailed s 28 = false) :
    writeHostcfg s v = regSetBit (regPut s .hostcfg (regWritten .hostcfg (regGet s .hostcfg) v)) .hostcfg 31 false := by
  have hf' : socketFailed (regPut s .hostcfg (regWritten .hostcfg (regGet s .hostcfg) v)) 28 = false := hf
  simp [writeHostcfg, hv, hup, hf']

end Sys2Proof.Machine

open Sys2Proof Sys2Proof.Machine

/-- Settles O44: each event is its register's write, and a write with a trigger bit set takes the branch of that bit. -/
theorem registerWrites : Obligations.RegisterWrites := by
  unfold Obligations.RegisterWrites
  intro n m v r
  refine ⟨fun s => ?_, fun s => ?_, fun s hr => ?_, fun s hr hs => ?_, fun s hr => ?_, fun s => ?_, fun s hup hf => ?_⟩
  · rfl
  · rw [← writeRegister_wdcfg]
    rfl
  · simp only [← writeDomain_of_exists s (.coreDom n) v hr]
    rfl
  · rw [← writeFltbase_of_no_save s n v hr hs]
    rfl
  · rw [← writeCestat_of_clear s n m (setBit v 39 true) hr (bit_setBit_same v true (by decide))]
    rfl
  · rw [← writeHidstat_of_clear s (setBit v 31 true) (bit_setBit_same v true (by decide))]
    rfl
  · rw [← writeHostcfg_of_rearm s (setBit v 30 true) (bit_setBit_same v true (by decide)) hup hf]
    rfl

end

