-- ==== Sys2Proof/Proofs/SameBytes.lean ====
section
/-! Changes of a state that leave the bytes of both memories, DRAM's and the slices', as they are. -/

namespace Sys2Proof.Machine

-- one declaration at a time: a thread for each would be too many
set_option Elab.async false

/-- Both memories of a state hold what those of another hold. -/
@[reducible, simp] def sameBytes (s t : State) : Prop := t.mem = s.mem ∧ t.slice = s.slice

/-- The same for what an outcome goes on with. -/
def outcomeSame (s : State) : Result → Prop
  | .next t => sameBytes s t
  | .fault _ => True
  | .refused _ => True

/-- The same for a state that may result. -/
def optSame (s : State) : Option State → Prop
  | some t => sameBytes s t
  | none => True

/-- The same for what an instruction does. -/
def effSame (s : State) : Eff → Prop
  | .ok t => sameBytes s t
  | .trap t _ => sameBytes s t
  | .stay t => sameBytes s t

/-- The same for what a receiver makes of a packet. -/
def takenSame (s : State) : Taken → Prop
  | .notDue => True
  | .passed t => sameBytes s t
  | .got _ t => sameBytes s t

/-- The same for what a step of a job gives. -/
def jobOutSame (s : State) : JobOut → Prop
  | .waits => True
  | .fault t _ _ => sameBytes s t
  | .done t => sameBytes s t

@[simp] theorem outcomeSame_next (s t) : outcomeSame s (.next t) ↔ sameBytes s t := .rfl
@[simp] theorem outcomeSame_refused (s r) : outcomeSame s (.refused r) := trivial
@[simp] theorem optSame_some (s t) : optSame s (some t) ↔ sameBytes s t := .rfl
@[simp] theorem optSame_none (s) : optSame s none := trivial
@[simp] theorem effSame_ok (s t) : effSame s (.ok t) ↔ sameBytes s t := .rfl
@[simp] theorem effSame_trap (s t e) : effSame s (.trap t e) ↔ sameBytes s t := .rfl
@[simp] theorem effSame_stay (s t) : effSame s (.stay t) ↔ sameBytes s t := .rfl
@[simp] theorem takenSame_notDue (s) : takenSame s .notDue := trivial
@[simp] theorem takenSame_passed (s t) : takenSame s (.passed t) ↔ sameBytes s t := .rfl
@[simp] theorem takenSame_got (s p t) : takenSame s (.got p t) ↔ sameBytes s t := .rfl
@[simp] theorem jobOutSame_waits (s) : jobOutSame s .waits := trivial
@[simp] theorem jobOutSame_fault (s t a b) : jobOutSame s (.fault t a b) ↔ sameBytes s t := .rfl
@[simp] theorem jobOutSame_done (s t) : jobOutSame s (.done t) ↔ sameBytes s t := .rfl

/-- An issue both of whose states hold the bytes of a state. -/
@[reducible, simp] def issSame (s : State) (c : Iss) : Prop := sameBytes s c.s ∧ sameBytes s c.s0

@[simp] theorem ite_mem {c : Prop} [Decidable c] (s t : State) : (if c then s else t).mem = if c then s.mem else t.mem := apply_ite ..
@[simp] theorem ite_slice {c : Prop} [Decidable c] (s t : State) : (if c then s else t).slice = if c then s.slice else t.slice := apply_ite ..

theorem sameBytes.trans {s t u : State} (h : sameBytes s t) (k : sameBytes t u) : sameBytes s u := ⟨k.1.trans h.1, k.2.trans h.2⟩

theorem ite_same {c : Prop} [Decidable c] {s t u : State} (ht : sameBytes s t) (hu : sameBytes s u) : sameBytes s (if c then t else u) := by
  split <;> assumption

theorem effSame_ite {p : Prop} [Decidable p] {s : State} {a b : Eff} (ha : effSame s a) (hb : effSame s b) : effSame s (if p then a else b) := by
  split <;> assumption

theorem outcome_ite {c : Prop} [Decidable c] {s : State} {a b : Result} (ha : outcomeSame s a) (hb : outcomeSame s b) :
    outcomeSame s (if c then a else b) := by
  split <;> assumption

/-- A fold whose every turn leaves the bytes alone leaves them alone. -/
theorem foldl_same {α : Type} {f : State → α → State} (hf : ∀ t a, sameBytes t (f t a)) (l : List α) (s : State) : sameBytes s (l.foldl f s) :=
  foldl_keeps (P := sameBytes s) (fun t a h => sameBytes.trans h (hf t a)) l ⟨rfl, rfl⟩

/-- The same for a fold from a state that is as another. -/
theorem foldl_from {α : Type} {f : State → α → State} {s t : State} (h : sameBytes s t) (hf : ∀ t a, sameBytes t (f t a)) (l : List α) :
    sameBytes s (l.foldl f t) := sameBytes.trans h (foldl_same hf l t)

theorem foldl_fst_same {α β : Type} {f : State × β → α → State × β} (hf : ∀ x a, sameBytes x.1 (f x a).1) (l : List α) (x : State × β) :
    sameBytes x.1 (l.foldl f x).1 :=
  foldl_keeps (P := fun y : State × β => sameBytes x.1 y.1) (fun y a h => sameBytes.trans h (hf y a)) l ⟨rfl, rfl⟩

theorem foldl_snd_same {α β : Type} {f : β × State → α → β × State} (hf : ∀ x a, sameBytes x.2 (f x a).2) (l : List α) (x : β × State) :
    sameBytes x.2 (l.foldl f x).2 :=
  foldl_keeps (P := fun y : β × State => sameBytes x.2 y.2) (fun y a h => sameBytes.trans h (hf y a)) l ⟨rfl, rfl⟩

@[simp] theorem foldl_mem {α : Type} {f : State → α → State} (hf : ∀ t a, sameBytes t (f t a)) (l : List α) (s : State) :
    (l.foldl f s).mem = s.mem := (foldl_same hf l s).1
@[simp] theorem foldl_slice {α : Type} {f : State → α → State} (hf : ∀ t a, sameBytes t (f t a)) (l : List α) (s : State) :
    (l.foldl f s).slice = s.slice := (foldl_same hf l s).2

@[simp] theorem whenDue_frame {s : State} {o : Option State} (m : String) (h : optSame s o) : outcomeSame s (whenDue m o) := by
  cases o <;> simp_all [whenDue]

theorem getD_same {s t : State} {o : Option State} (h : optSame s o) (ht : sameBytes s t) : sameBytes s (o.getD t) := by
  cases o <;> simp_all

end Sys2Proof.Machine
end

