-- ==== Sys2Proof/Proofs/FrameState.lean ====
section
/-! Operations of the state, the fabric and translation, which leave the bytes of memory as they are: one lemma for each. -/

namespace Sys2Proof.Machine

-- one declaration at a time: a thread for each would be too many
set_option Elab.async false

/-! ### Regs -/

@[simp] theorem budgetTake_frame (s c) : sameBytes s (budgetTake s c) := ⟨rfl, rfl⟩

/-! ### Coherent -/

@[simp] theorem dramCheck_same (s pa) : sameBytes s (dramCheck s pa) := dramCheck_frame ..

@[simp] theorem pick_frame (s n) : sameBytes s (pick s n).2 := ⟨rfl, rfl⟩

@[simp] theorem noteCompletion_frame (s h src planeB t) : sameBytes s (noteCompletion s h src planeB t) := ⟨rfl, rfl⟩

@[simp] theorem grantLease_frame (s pa) : sameBytes s (grantLease s pa).2 := by
  unfold grantLease
  dsimp only
  split <;> simp

/-! ### Ops -/

@[simp] theorem fresh_frame (s) : sameBytes s (fresh s).2 := ⟨rfl, rfl⟩

@[simp] theorem writeSpecial_frame (s k n x) : sameBytes s (writeSpecial s k n x) := by simp [writeSpecial]

@[simp] theorem applyWrite_frame (s k w) : sameBytes s (applyWrite s k w) := by
  unfold applyWrite
  split <;> simp

@[simp] theorem applyWrites_frame (s k ws) : sameBytes s (applyWrites s k ws) := by simp [applyWrites]

@[simp] theorem landAll_frame (s ks cycle) : sameBytes s (landAll s ks cycle) := by simp [landAll]

@[simp] theorem landDue_frame (s k cycle) : sameBytes s (landDue s k cycle) := by simp [landDue]

@[simp] theorem notifyDomain_frame (s d) : sameBytes s (notifyDomain s d) := by simp [notifyDomain]

@[simp] theorem deviceWrite_frame (s sock pa bs g) : sameBytes s (deviceWrite s sock pa bs g) := ⟨rfl, rfl⟩

@[simp] theorem logRecord_frame (s r) : sameBytes s (logRecord s r) := by simp [logRecord]

@[simp] theorem settleLogs_frame (s) : sameBytes s (settleLogs s) := foldl_same (fun t w => by (repeat' split) <;> simp) _ s

@[simp] theorem discardWork_frame (s k core) : sameBytes s (discardWork s k core) := ⟨rfl, rfl⟩

@[simp] theorem showEngine_frame (s c e) : sameBytes s (showEngine s c e) := by simp [showEngine]

@[simp] theorem clearSlots_frame (s teams) : sameBytes s (clearSlots s teams) := by simp [clearSlots]

@[simp] theorem terminateGrid_frame (s g cause) : sameBytes s (terminateGrid s g cause) := by
  simp only [sameBytes, terminateGrid, clearSlots_frame]
  exact foldl_from (by simp) (fun t a => by split <;> simp) _

@[simp] theorem discardRanks_frame (s src warp) : sameBytes s (discardRanks s src warp) := ⟨rfl, rfl⟩

@[simp] theorem reopenStep_frame (s t n) : sameBytes s (reopenStep s t n) := ⟨rfl, rfl⟩

@[simp] theorem withdrawArrival_frame (s a t) : sameBytes s (withdrawArrival s a t) := by simp [withdrawArrival]

@[simp] theorem unwind_frame (s a t e) : sameBytes s (unwind s a t e) := by
  unfold unwind
  split <;> simp

@[simp] theorem logDiscarded_frame (s a t g ds) : sameBytes s (logDiscarded s a t g ds) := by simp [logDiscarded]

@[simp] theorem raise_frame (s k e taken) : sameBytes s (raise s k e taken) := by
  unfold raise
  (repeat' split) <;> simp

@[simp] theorem deliverOf_frame (s k due) : optSame s (deliverOf s k due) := by
  unfold deliverOf
  split
  · trivial
  · cases firstDeferred _ <;> simp

@[simp] theorem deliver_frame (s k) : optSame s (deliver s k) := deliverOf_frame ..

@[simp] theorem deferEvent_frame (s k issue lane e) : sameBytes s (deferEvent s k issue lane e) := ⟨rfl, rfl⟩

@[simp] theorem deferReport_frame (s k issue lane e) : sameBytes s (deferReport s k issue lane e) := ⟨rfl, rfl⟩

/-- The agent's turn leaves the bytes alone before the instruction's own effect. -/
theorem turnOf_goes_same {i : Instr} {h : Hdr} {s : State} {c : Iss} (hc : turnOf i h s = .goes c) : issSame s c := by
  obtain ⟨k, a, -, h0, -, -, -, -, -, -, -, -, -, -, hs, -⟩ := turnOf_goes hc
  simp [hs, h0]

theorem turnOf_event_same {i : Instr} {h : Hdr} {s t : State} {k e} (hc : turnOf i h s = .event t k e) : sameBytes s t := by
  unfold turnOf at hc
  split at hc
  · cases hc
  · dsimp only at hc
    (repeat' split at hc) <;> cases hc <;> exact ⟨rfl, rfl⟩

theorem result_frame {s : State} {e : Eff} (k) (h : effSame s e) : outcomeSame s (e.result k) := by
  cases e <;> simp_all

/-- An issue leaves the bytes alone where the instruction's own effect does. -/
theorem issue_frame {i : Instr} {h : Hdr} {s : State} {f : Iss → Eff} (hf : ∀ c, issSame s c → effSame s (f c)) : outcomeSame s (issue i h s f) := by
  unfold issue
  split
  · trivial
  · simpa using turnOf_event_same ‹_›
  · exact result_frame _ (hf _ (turnOf_goes_same ‹_›))

@[simp] theorem Iss.fault_frame {s : State} {c : Iss} (hc : issSame s c) (cause sub cri) : effSame s (c.fault cause sub cri) := hc.2

@[simp] theorem Iss.faultAt_frame {s : State} {c : Iss} (hc : issSame s c) (cause sub cri addr) : effSame s (c.faultAt cause sub cri addr) := hc.2

@[simp] theorem Iss.illegal_frame {s : State} {c : Iss} (hc : issSame s c) : effSame s (c.illegal) := hc.2

@[simp] theorem Iss.upd_frame (c : Iss) (f) : sameBytes c.s (c.upd f) := ⟨rfl, rfl⟩

@[simp] theorem Iss.pend_frame (c : Iss) (lat ws) : sameBytes c.s (c.pend lat ws) := by
  unfold Iss.pend
  split <;> simp

@[simp] theorem addResult_frame (s k r) : sameBytes s (addResult s k r) := ⟨rfl, rfl⟩

@[simp] theorem addVar_frame (s k n ws ev) : sameBytes s (addVar s k n ws ev) := ⟨rfl, rfl⟩

@[simp] theorem addLoad_frame (s k n ws) : sameBytes s (addLoad s k n ws) := ⟨rfl, rfl⟩

@[simp] theorem Iss.later_frame {s : State} {c : Iss} (hc : issSame s c) : effSame s (c.later) := hc.2

@[simp] theorem Iss.dpTaken_frame (c : Iss) : sameBytes c.s c.dpTaken.s := by
  unfold Iss.dpTaken; split <;> simp

@[simp] theorem Iss.dpTaken_s0 (c : Iss) : c.dpTaken.s0 = c.s0 := by
  unfold Iss.dpTaken; split <;> rfl

/-- An operation on the FP64 lanes goes on where they are taken, or is not issued. -/
theorem Iss.onDp_frame {s : State} {c : Iss} (hc : issSame s c) {f : Iss → Eff} (hf : ∀ c, issSame s c → effSame s (f c)) : effSame s (c.onDp f) := by
  unfold Iss.onDp
  split
  · exact hf _ (by simp [hc])
  · exact Iss.later_frame hc

/-! ### Operands -/

@[simp] theorem Iss.aluF_frame {s : State} {c : Iss} (hc : issSame s c) (i d w lat f) : effSame s (c.aluF i d w lat f) := by simp [Iss.aluF, hc]

@[simp] theorem Iss.alu_frame {s : State} {c : Iss} (hc : issSame s c) (i d w lat f) : effSame s (c.alu i d w lat f) := by simp [Iss.alu, hc]

@[simp] theorem Iss.aluP_frame {s : State} {c : Iss} (hc : issSame s c) (i d lat f) : effSame s (c.aluP i d lat f) := by simp [Iss.aluP, hc]

/-! ### Flags -/

@[simp] theorem setHit_frame (s team n) : sameBytes s (setHit s team n) := ⟨rfl, rfl⟩

@[simp] theorem Iss.boundTrap_frame {s : State} {c : Iss} (hc : issSame s c) (bnd lanes) : effSame s (c.boundTrap bnd lanes) := hc.2

/-! ### Fabric -/

@[simp] theorem setLink_frame (s l) : sameBytes s (setLink s l) := by simp [setLink]

@[simp] theorem updLink_frame (s h f) : sameBytes s (updLink s h f) := by simp [updLink]

@[simp] theorem emit_frame (s h p) : sameBytes s (emit s h p) := by simp [emit]

@[simp] theorem acknowledge_frame (s h lack) : sameBytes s (acknowledge s h lack) := by simp [acknowledge]

@[simp] theorem setStream_frame (s x) : sameBytes s (setStream s x) := by simp [setStream]

@[simp] theorem number_frame (s p) : sameBytes s (number s p).1 := by
  unfold number
  split <;> simp

@[simp] theorem sendOn_frame (s p lost) (hlost : ∀ t, sameBytes t (lost t)) : sameBytes s (sendOn s p lost) := by
  grind [sendOn, emit_frame, number_frame]

@[simp] theorem sendPlain_frame (s p) : sameBytes s (sendPlain s p) := by simp [sendPlain]

@[simp] theorem answerHere_frame (s at_ sub p) : sameBytes s (answerHere s at_ sub p) := by
  unfold answerHere
  split <;> simp

@[simp] theorem rejectHere_frame (s p) : sameBytes s (rejectHere s p) := by
  unfold rejectHere
  split <;> simp

@[simp] theorem send_frame (s p) : sameBytes s (send s p) := by
  unfold send
  split <;> simp

@[simp] theorem sendDeviceLine_frame (s w line) : sameBytes s (sendDeviceLine s w line) := by simp [sendDeviceLine]

@[simp] theorem flushDevWrites_frame (s) : sameBytes s (flushDevWrites s) := by simp [flushDevWrites]

@[simp] theorem sendAgain_frame (s at_ p) : sameBytes s (sendAgain s at_ p) := by
  unfold sendAgain
  dsimp only
  (repeat' split) <;> simp

@[simp] theorem sendAck_frame (s h) : sameBytes s (sendAck s h) := by
  unfold sendAck
  split <;> simp

@[simp] theorem take_frame (s h kind) : takenSame s (take s h kind) := by
  unfold take; dsimp only; (repeat' split) <;> simp

@[simp] theorem onPacket_frame (m s h kind) {f} (hf : ∀ p t, sameBytes t (f p t)) : outcomeSame s (onPacket m s h kind f) := by
  have ht := take_frame s h kind
  unfold onPacket
  split <;> simp_all

@[simp] theorem flushRma_frame (s) : sameBytes s (flushRma s) := foldl_same (fun t p => by split <;> simp) _ s

@[simp] theorem setBusy_frame (s i j) : sameBytes s (setBusy s i j) := ⟨rfl, rfl⟩

@[simp] theorem takeOld_frame (s hop cs) : sameBytes s (takeOld s hop cs).1 :=
  foldl_fst_same (fun x c => by (repeat' split) <;> simp) cs (s, [])

@[simp] theorem applyLoss_frame (s i j planeB) : sameBytes s (applyLoss s i j planeB) := by simp [applyLoss]

/-! ### Xlat -/

@[simp] theorem walkStep_frame (s sock w pa e bad) : sameBytes s (walkStep s sock w pa e bad).1 := by
  unfold walkStep
  dsimp only
  (repeat' split) <;> simp

@[simp] theorem dropOne_frame {α : Type} (s cap) (l : List α) : sameBytes s (dropOne s cap l).1 := by
  unfold dropOne
  split <;> simp [pick]

@[simp] theorem shardInsert_frame (s sock ctx va x) : sameBytes s (shardInsert s sock ctx va x) := by simp [shardInsert]

@[simp] theorem tlbRoom_frame (s rest) : sameBytes s (tlbRoom s rest).1 := by
  unfold tlbRoom
  split <;> simp

@[simp] theorem tlbInsert_frame (s core ctx x) : sameBytes s (tlbInsert s core ctx x) := by simp [tlbInsert]

@[simp] theorem tlbUse_frame (s core ctx va acc) : sameBytes s (tlbUse s core ctx va acc) := by
  unfold tlbUse
  split <;> simp

@[simp] theorem forgetClosed_frame (s q) : sameBytes s (forgetClosed s q) := ⟨rfl, rfl⟩

@[simp] theorem newPageReq_frame (s sock q stage ipa) : sameBytes s (newPageReq s sock q stage ipa).2 := ⟨rfl, rfl⟩

/-! ### Reader -/

@[simp] theorem askLine_frame (s sock who line ks) : sameBytes s (askLine s sock who line ks) := by
  unfold askLine
  split
  · cases destOf s _ <;> simp
  · simp

@[simp] theorem askPageOf_frame (s sock ctx who vpn va acc wte) : sameBytes s (askPageOf s sock ctx who vpn va acc wte) := by simp [askPageOf]

@[simp] theorem sendNeeds_frame (s sock ctx who k ns) : sameBytes s (sendNeeds s sock ctx who k ns) := by simp [sendNeeds]

@[simp] theorem dropReader_frame (s id) : sameBytes s (dropReader s id) := ⟨rfl, rfl⟩

@[simp] theorem newReader_frame (s core ladle ctx goal) : sameBytes s (newReader s core ladle ctx goal).2 := ⟨rfl, rfl⟩

@[simp] theorem askReader_frame (s r ns) : sameBytes s (askReader s r ns) := by simp [askReader]

@[simp] theorem readerXlat_frame (s r vpn ans gen) : sameBytes s (readerXlat s r vpn ans gen) := by
  unfold readerXlat
  split <;> simp

/-! ### Launch -/

@[simp] theorem launchFault_frame (s queue domain check tag) : sameBytes s (launchFault s queue domain check tag) := by simp [launchFault]

@[simp] theorem addGrid_frame (s r h queue prio cls domain vf boost depth parent parentGrid) :
    sameBytes s (addGrid s r h queue prio cls domain vf boost depth parent parentGrid).1 := ⟨rfl, rfl⟩

@[simp] theorem takeNumber_frame (s team tl) : sameBytes s (takeNumber s team tl).1 := by
  unfold takeNumber
  split <;> simp

@[simp] theorem completeOp_frame (s team tl n fault) : sameBytes s (completeOp s team tl n fault) := ⟨rfl, rfl⟩

@[simp] theorem addAgent_frame (s core a) : sameBytes s (addAgent s core a) := ⟨rfl, rfl⟩

@[simp] theorem refreshBusy_frame (s g) : sameBytes s (refreshBusy s g) := ⟨rfl, rfl⟩

@[simp] theorem placeTeam_frame (s g teamid core) : sameBytes s (placeTeam s g teamid core) := by simp [placeTeam]

end Sys2Proof.Machine
end

