-- ==== Sys2Proof/Proofs/FrameInstr.lean ====
section
/-! The Daref instructions: none changes a byte of memory when it is issued; what it asks for goes out as packets (R8). -/

namespace Sys2Proof.Machine

-- one declaration at a time: a thread for each would be too many
set_option Elab.async false

/-! ### Access -/

@[simp] theorem deferLane_frame (s e cause sub r) : sameBytes s (deferLane s e cause sub r) := ⟨rfl, rfl⟩

@[simp] theorem poisonLane_frame (s e sub r) : sameBytes s (poisonLane s e sub r) := by
  unfold poisonLane
  split <;> simp

@[simp] theorem faultLane_frame (s e sub r) : sameBytes s (faultLane s e sub r) := by simp [faultLane]

@[simp] theorem l1Store_frame (s core pa bs) : sameBytes s (l1Store s core pa bs) := ⟨rfl, rfl⟩

@[simp] theorem l1Drop_frame (s core pa) : sameBytes s (l1Drop s core pa) := ⟨rfl, rfl⟩

@[simp] theorem l1Overtake_frame (s core pa) : sameBytes s (l1Overtake s core pa) := ⟨rfl, rfl⟩

@[simp] theorem l1Install_frame (s core line expiry cells) : sameBytes s (l1Install s core line expiry cells) := by
  unfold l1Install
  dsimp only
  split <;> simp

@[simp] theorem dropAddrsVa_frame (s core ctx va n) : sameBytes s (dropAddrsVa s core ctx va n) := ⟨rfl, rfl⟩

@[simp] theorem dropAddrsPa_frame (s core pa n) : sameBytes s (dropAddrsPa s core pa n) := ⟨rfl, rfl⟩

@[simp] theorem updEntry_frame (s core id f) : sameBytes s (updEntry s core id f) := ⟨rfl, rfl⟩

@[simp] theorem makeAddr_frame (s e) : sameBytes s (makeAddr s e) := by
  unfold makeAddr
  (repeat' split) <;> simp

@[simp] theorem restartFetches_frame (s rs core) : sameBytes s (restartFetches s rs core) := by simp [restartFetches]

@[simp] theorem dropLines_frame (s rs core) : sameBytes s (dropLines s rs core) := by simp [dropLines]

@[simp] theorem icinvCheck_frame (s k core) : sameBytes s (icinvCheck s k core) := by
  unfold icinvCheck
  (repeat' split) <;> simp

@[simp] theorem finishEntry_frame (s core id) : sameBytes s (finishEntry s core id) := by
  unfold finishEntry
  split <;> simp

@[simp] theorem notePath_frame (s k issue p) : sameBytes s (notePath s k issue p) := ⟨rfl, rfl⟩

@[simp] theorem notePathTime_frame (s k p t) : sameBytes s (notePathTime s k p t) := ⟨rfl, rfl⟩

@[simp] theorem landLane_frame (s e lane x) : sameBytes s (landLane s e lane x) := ⟨rfl, rfl⟩

@[simp] theorem sendLine_frame (s core e rs) : sameBytes s (sendLine s core e rs) := by
  unfold sendLine
  split
  · exact ⟨rfl, rfl⟩
  · cases destOf s _ with
    | none => exact ⟨rfl, rfl⟩
    | some dst =>
      dsimp only [Option.elim]
      split
      · (repeat' split) <;> simp
      · simp
      · simp
      · simp
      · exact foldl_same (fun t r => by split <;> simp) _ _
      · split <;> simp
      · exact ⟨rfl, rfl⟩
      · exact ⟨rfl, rfl⟩

@[simp] theorem sendCommits_frame (s core e r) : sameBytes s (sendCommits s core e r) := by
  unfold sendCommits
  split <;> simp

@[simp] theorem releaseFirst_frame (s e) : sameBytes s (releaseFirst s e) := by
  unfold releaseFirst
  split <;> simp

@[simp] theorem sendReady_frame (s core id) : sameBytes s (sendReady s core id) := by
  unfold sendReady
  split
  · exact ⟨rfl, rfl⟩
  · dsimp only
    split
    · exact sameBytes.trans (foldl_from (by simp) (fun t r => by split <;> simp) _) (finishEntry_frame ..)
    · refine sameBytes.trans (foldl_from (ite_same ?_ ?_) (fun t l => by simp) _) (finishEntry_frame ..)
      · exact sameBytes.trans (foldl_from (by simp) (fun t r => by (repeat' split) <;> simp) _) (updEntry_frame ..)
      · exact foldl_from (by simp) (fun t r => by (repeat' split) <;> simp) _

@[simp] theorem requestXlat_frame (s core id ladle ctx vpn va acc) : sameBytes s (requestXlat s core id ladle ctx vpn va acc) := by simp [requestXlat]

@[simp] theorem askPage_frame (s core e vpn) : sameBytes s (askPage s core e vpn) := by
  unfold askPage
  split <;> simp

@[simp] theorem endLanes_frame (s core e vpn f) (hf : ∀ t a, sameBytes t (f t a)) : sameBytes s (endLanes s core e vpn f) := by
  unfold endLanes
  simp_all

@[simp] theorem answerEntry_frame (s core e vpn ans) : sameBytes s (answerEntry s core e vpn ans) := by
  unfold answerEntry
  split <;> simp

@[simp] theorem answerJoined_frame (s core e vpn ans) : sameBytes s (answerJoined s core e vpn ans) := by
  unfold answerJoined
  split <;> simp

@[simp] theorem showReplay_frame (s core k) : sameBytes s (showReplay s core k) := ⟨rfl, rfl⟩

@[simp] theorem flushLanes_frame (s) : sameBytes s (flushLanes s) :=
  sameBytes.trans (foldl_same (fun t e => by (repeat' split) <;> simp) _ s) (foldl_same (fun t a => by simp) _ _)

@[simp] theorem answerXlat_frame (s core id vpn ans gen) : sameBytes s (answerXlat s core id vpn ans gen) := by
  unfold answerXlat
  (repeat' split) <;> simp

@[simp] theorem beginPage_frame (s core k id ctx acc vpn va) : sameBytes s (beginPage s core k id ctx acc vpn va) := by
  unfold beginPage
  (repeat' split) <;> simp

@[simp] theorem startAccess_frame (s k core issue pc op dest size reqs relSys slot) :
    sameBytes s (startAccess s k core issue pc op dest size reqs relSys slot) := by
  unfold startAccess; dsimp only [fresh]; split <;> simp

@[simp] theorem entryReply_frame (s core id vals expiry count) : sameBytes s (entryReply s core id vals expiry count) := by
  unfold entryReply
  split
  · exact ⟨rfl, rfl⟩
  · exact sameBytes.trans (foldl_from (by simp) (fun t r => by (repeat' split) <;> simp) _) (sameBytes.trans (updEntry_frame ..) (finishEntry_frame ..))

/-! ### Integer -/

@[simp] theorem Iss.binW_frame {s : State} {c : Iss} (hc : issSame s c) (i x w lat f) : effSame s (c.binW i x w lat f) := Iss.alu_frame hc ..

@[simp] theorem Iss.unW_frame {s : State} {c : Iss} (hc : issSame s c) (i x w dw lat f) : effSame s (c.unW i x w dw lat f) := Iss.alu_frame hc ..

@[simp] theorem execIadd_frame (x s) : outcomeSame s (execIadd x s) := issue_frame fun c hc => by simp [hc]

@[simp] theorem execIsub_frame (x s) : outcomeSame s (execIsub x s) := issue_frame fun c hc => by simp [hc]

@[simp] theorem execIaddc_frame (x s) : outcomeSame s (execIaddc x s) := issue_frame fun c hc => by simp [hc]

@[simp] theorem execImul_frame (x s) : outcomeSame s (execImul x s) := issue_frame fun c hc => by simp [hc]

@[simp] theorem execImulh_frame (x s) : outcomeSame s (execImulh x s) := issue_frame fun c hc => by simp [hc]

@[simp] theorem execImad_frame (x s) : outcomeSame s (execImad x s) := issue_frame fun c hc => by simp [hc]

@[simp] theorem execImadw_frame (x s) : outcomeSame s (execImadw x s) := issue_frame fun c hc => by simp [hc]

@[simp] theorem execIdiv_frame (x s) : outcomeSame s (execIdiv x s) := issue_frame fun c hc => by simp [hc]

@[simp] theorem execIrem_frame (x s) : outcomeSame s (execIrem x s) := issue_frame fun c hc => by simp [hc]

@[simp] theorem execIneg_frame (x s) : outcomeSame s (execIneg x s) := issue_frame fun c hc => by simp [hc]

@[simp] theorem execIabs_frame (x s) : outcomeSame s (execIabs x s) := issue_frame fun c hc => by simp [hc]

@[simp] theorem execImin_frame (x s) : outcomeSame s (execImin x s) := issue_frame fun c hc => by simp [hc]

@[simp] theorem execImax_frame (x s) : outcomeSame s (execImax x s) := issue_frame fun c hc => by simp [hc]

@[simp] theorem execLea_frame (x s) : outcomeSame s (execLea x s) := issue_frame fun c hc => by simp [hc]

@[simp] theorem execIcmp_frame (x s) : outcomeSame s (execIcmp x s) := issue_frame fun c hc => by simp [hc]

@[simp] theorem execPsel_frame (x s) : outcomeSame s (execPsel x s) := issue_frame fun c hc => by simp [hc]

@[simp] theorem execMov_frame (x s) : outcomeSame s (execMov x s) := issue_frame fun c hc => by simp [hc]

@[simp] theorem execMovi_frame (x s) : outcomeSame s (execMovi x s) := issue_frame fun c hc => by simp [hc]

@[simp] theorem execMovil_frame (x s) : outcomeSame s (execMovil x s) := issue_frame fun c hc => by simp [hc]

@[simp] theorem execPlut_frame (x s) : outcomeSame s (execPlut x s) := issue_frame fun c hc => by simp [hc]

@[simp] theorem execP2v_frame (x s) : outcomeSame s (execP2v x s) := issue_frame fun c hc => by simp [hc]

@[simp] theorem execV2p_frame (x s) : outcomeSame s (execV2p x s) := issue_frame fun c hc => by simp [hc]

@[simp] theorem execDot4_frame (x s) : outcomeSame s (execDot4 x s) := issue_frame fun c hc => by simp [hc]

@[simp] theorem execAnd_frame (x s) : outcomeSame s (execAnd x s) := issue_frame fun c hc => by simp [hc]

@[simp] theorem execOr_frame (x s) : outcomeSame s (execOr x s) := issue_frame fun c hc => by simp [hc]

@[simp] theorem execXor_frame (x s) : outcomeSame s (execXor x s) := issue_frame fun c hc => by simp [hc]

@[simp] theorem execAndn_frame (x s) : outcomeSame s (execAndn x s) := issue_frame fun c hc => by simp [hc]

@[simp] theorem execNot_frame (x s) : outcomeSame s (execNot x s) := issue_frame fun c hc => by simp [hc]

@[simp] theorem execLut3_frame (x s) : outcomeSame s (execLut3 x s) := issue_frame fun c hc => by simp [hc]

@[simp] theorem Iss.shift_frame {s : State} {c : Iss} (hc : issSame s c) (i x f) : effSame s (c.shift i x f) := Iss.alu_frame hc ..

@[simp] theorem execShl_frame (x s) : outcomeSame s (execShl x s) := issue_frame fun c hc => by simp [hc]

@[simp] theorem execShr_frame (x s) : outcomeSame s (execShr x s) := issue_frame fun c hc => by simp [hc]

@[simp] theorem execSar_frame (x s) : outcomeSame s (execSar x s) := issue_frame fun c hc => by simp [hc]

@[simp] theorem execRot_frame (x s) : outcomeSame s (execRot x s) := issue_frame fun c hc => by simp [hc]

@[simp] theorem execFshf_frame (x s) : outcomeSame s (execFshf x s) := issue_frame fun c hc => by simp [hc]

@[simp] theorem execBfe_frame (x s) : outcomeSame s (execBfe x s) := issue_frame fun c hc => by simp [hc]

@[simp] theorem execBfi_frame (x s) : outcomeSame s (execBfi x s) := issue_frame fun c hc => by simp [hc]

@[simp] theorem execPopc_frame (x s) : outcomeSame s (execPopc x s) := issue_frame fun c hc => by simp [hc]

@[simp] theorem execClz_frame (x s) : outcomeSame s (execClz x s) := issue_frame fun c hc => by simp [hc]

@[simp] theorem execCtz_frame (x s) : outcomeSame s (execCtz x s) := issue_frame fun c hc => by simp [hc]

@[simp] theorem execBrev_frame (x s) : outcomeSame s (execBrev x s) := issue_frame fun c hc => by simp [hc]

@[simp] theorem execBperm_frame (x s) : outcomeSame s (execBperm x s) := issue_frame fun c hc => by simp [hc]

/-! ### Lane -/

@[simp] theorem Iss.same_frame {s : State} {c : Iss} (hc : issSame s c) (d lat v) : effSame s (c.same d lat v) := by
  unfold Iss.same
  split <;> simp [hc]

@[simp] theorem execVote_frame (x s) : outcomeSame s (execVote x s) := issue_frame fun c hc => by
  dsimp only
  split <;> simp [hc]

@[simp] theorem execBallot_frame (x s) : outcomeSame s (execBallot x s) := issue_frame fun c hc => by simp [hc]

@[simp] theorem execXlane_frame (x s) : outcomeSame s (execXlane x s) := issue_frame fun c hc => by
  dsimp only
  split <;> simp [hc]

@[simp] theorem execMatchL_frame (x s) : outcomeSame s (execMatchL x s) := issue_frame fun c hc => by simp [hc]

@[simp] theorem execRedux_frame (x s) : outcomeSame s (execRedux x s) := issue_frame fun c hc => by simp [hc]

@[simp] theorem execScanx_frame (x s) : outcomeSame s (execScanx x s) := issue_frame fun c hc => by simp [hc]

@[simp] theorem execReadl_frame (x s) : outcomeSame s (execReadl x s) := issue_frame fun c hc => by
  dsimp only
  (repeat' split) <;> simp [hc]

@[simp] theorem execBcast_frame (x s) : outcomeSame s (execBcast x s) := issue_frame fun c hc => by
  dsimp only
  split <;> simp [hc]

/-! ### Warp -/

@[simp] theorem sendMarkers_frame (s core id ladle ps) : sameBytes s (sendMarkers s core id ladle ps) := by simp [sendMarkers]

@[simp] theorem newFence_frame (s acq rel scope c slot) : sameBytes s (newFence s acq rel scope c slot).2 := ⟨rfl, rfl⟩

@[simp] theorem holdFence_frame (s k acq rel scope c slot) : sameBytes s (holdFence s k acq rel scope c slot) := ⟨rfl, rfl⟩

@[simp] theorem startWhisk_frame (s g k isStep) : sameBytes s (startWhisk s g k isStep) := by simp [startWhisk]

@[simp] theorem checkGroup_frame (s g) : sameBytes s (checkGroup s g) := by simp [checkGroup]

@[simp] theorem checkReductions_frame (s grid) : sameBytes s (checkReductions s grid) := by simp [checkReductions]

@[simp] theorem checkGrid_frame (s t) : sameBytes s (checkGrid s t) := by simp [checkGrid]

@[simp] theorem tryArrive_frame (s k) : sameBytes s (tryArrive s k) := by
  unfold tryArrive
  dsimp only
  (repeat' split) <;> simp

@[simp] theorem launchResult_frame (s k dest issue x) : sameBytes s (launchResult s k dest issue x) := by simp [launchResult]

@[simp] theorem refuseLaunch_frame (s k dest tl n check issue tag) : sameBytes s (refuseLaunch s k dest tl n check issue tag) := by
  unfold refuseLaunch
  split <;> simp

@[simp] theorem settleLaunch_frame (s k g dest tl n issue r img) : sameBytes s (settleLaunch s k g dest tl n issue r img) := by
  unfold settleLaunch
  split <;> simp

@[simp] theorem launchRun_frame (s r) : sameBytes s (launchRun s r) := by
  unfold launchRun
  dsimp only
  (repeat' split) <;> simp

@[simp] theorem beginLaunch_frame (s k dest record tl n pc issue) : sameBytes s (beginLaunch s k dest record tl n pc issue) := by
  unfold beginLaunch
  dsimp only
  (repeat' split) <;> simp

@[simp] theorem noteXpath_frame (s k issue p) : sameBytes s (noteXpath s k issue p) := ⟨rfl, rfl⟩

@[simp] theorem reportRange_frame (s k issue pc lane ea) : sameBytes s (reportRange s k issue pc lane ea) := ⟨rfl, rfl⟩

@[simp] theorem sendMessage_frame (s t who lane core off op k issue pc) :
    sameBytes s (sendMessage s t who lane core off op k issue pc) := by simp [sendMessage]

@[simp] theorem bankEntry_frame (s core k issue pc op dest size ls slot) :
    sameBytes s (bankEntry s core k issue pc op dest size ls slot).2 := ⟨rfl, rfl⟩

@[simp] theorem wakeTagLanes_frame (s k lanes) : sameBytes s (wakeTagLanes s k lanes) := ⟨rfl, rfl⟩

@[simp] theorem tagDone_frame (s core done) : sameBytes s (tagDone s core done) :=
  foldl_same (fun t d => by dsimp only; (repeat' split) <;> simp) _ s

@[simp] theorem serveWord_frame (s team word) : sameBytes s (serveWord s team word) := by
  unfold serveWord
  split <;> simp

@[simp] theorem serveLines_frame (s team lines) : sameBytes s (serveLines s team lines) := by
  unfold serveLines
  split <;> simp

@[simp] theorem bankTag_frame (s team w) : sameBytes s (bankTag s team w) := by simp [bankTag]

@[simp] theorem carryTags_frame (s k t o dest pc issue ls slot) : sameBytes s (carryTags s k t o dest pc issue ls slot) := by simp [carryTags]

@[simp] theorem tagsBehindRelease_frame (s a core scope o dest pc issue ls) :
    sameBytes s (tagsBehindRelease s a core scope o dest pc issue ls) := ⟨rfl, rfl⟩

@[simp] theorem fenceGoesOn_frame (s k core c slot) : sameBytes s (fenceGoesOn s k core c slot) := by
  unfold fenceGoesOn
  dsimp only
  (repeat' split) <;> simp

@[simp] theorem endIfEmpty_frame (s k) : sameBytes s (endIfEmpty s k) := by
  unfold endIfEmpty
  split <;> simp

@[simp] theorem fenceEnds_frame (s k core c slot) : sameBytes s (fenceEnds s k core c slot) := by
  have hd := deliverOf_frame s k (·.report)
  unfold fenceEnds
  split <;> simp_all

@[simp] theorem fenceProgress_frame (s a core f) : optSame s (fenceProgress s a core f) := by
  unfold fenceProgress
  (repeat' split) <;> simp

@[simp] theorem advProgress_frame (s a core o) : optSame s (advProgress s a core o) := by
  unfold advProgress
  dsimp only
  (repeat' split) <;> simp

@[simp] theorem waittlProgress_frame (s a t tl n pc) : optSame s (waittlProgress s a t tl n pc) := by
  have hd := deliverOf_frame (updAgent s a.key fun a => { a with hold := none }) a.key (·.report)
  unfold waittlProgress
  dsimp only
  (repeat' split) <;> simp_all

theorem findSome?_same {α : Type} {s : State} {f : α → Option State} (hf : ∀ a, optSame s (f a)) (l : List α) : optSame s (l.findSome? f) := by
  induction l with
  | nil => trivial
  | cons a l ih => have ha := hf a; rw [List.findSome?_cons]; split <;> simp_all

@[simp] theorem waitProgress_frame (s k) : optSame s (waitProgress s k) := by
  unfold waitProgress
  split
  · rename_i a t _ _
    have ha := findSome?_same (fun o => advProgress_frame s a t.core o) a.adv
    dsimp only
    split
    · rename_i f _; have hf := fenceProgress_frame s a t.core f; split <;> simp_all
    · rename_i tl n pc _; have hf := waittlProgress_frame s a t tl n pc; split <;> simp_all
    · exact ha
  · trivial

@[simp] theorem passMarker_frame (s k) : optSame s (passMarker s k) := by
  have hd := deliver_frame (updAgent s k fun a => { a with marker := false, markerAcq := none }) k
  unfold passMarker
  dsimp only
  (repeat' split) <;> simp_all

@[simp] theorem afterExit_frame (s k) : sameBytes s (afterExit s k) := by
  grind [afterExit, updAgent_mem, updAgent_slice, checkGrid_frame, tryArrive_frame]

/-! ### Control -/

@[simp] theorem moveLanes_frame (s k ts) : sameBytes s (moveLanes s k ts) := ⟨rfl, rfl⟩

@[simp] theorem Iss.branch_frame {s : State} {c : Iss} (hc : issSame s c) (link target) : effSame s (c.branch link target) := by
  unfold Iss.branch
  dsimp only
  (repeat' split) <;> simp [hc]

@[simp] theorem execNop_frame (x s) : outcomeSame s (execNop x s) := issue_frame fun c hc => by simp [hc]

@[simp] theorem execBra_frame (x s) : outcomeSame s (execBra x s) := issue_frame fun c hc => by simp [hc]

@[simp] theorem execBrx_frame (x s) : outcomeSame s (execBrx x s) := issue_frame fun c hc => by simp [hc]

@[simp] theorem execCall_frame (x s) : outcomeSame s (execCall x s) := issue_frame fun c hc => by simp [hc]

@[simp] theorem execCallx_frame (x s) : outcomeSame s (execCallx x s) := issue_frame fun c hc => by simp [hc]

@[simp] theorem exitLanes_frame (s k ls) : sameBytes s (exitLanes s k ls) := by simp [exitLanes]

@[simp] theorem execRet_frame (x s) : outcomeSame s (execRet x s) := issue_frame fun c hc => by
  dsimp only
  split <;> simp [hc]

@[simp] theorem execJoin_frame (x s) : outcomeSame s (execJoin x s) := issue_frame fun c hc => by simp [hc]

@[simp] theorem parkLanes_frame (s k ls pc st) : sameBytes s (parkLanes s k ls pc st) := ⟨rfl, rfl⟩

@[simp] theorem execWaitj_frame (x s) : outcomeSame s (execWaitj x s) := issue_frame fun c hc => by simp [hc]

@[simp] theorem execExit_frame (x s) : outcomeSame s (execExit x s) := issue_frame fun c hc => by simp [hc]

@[simp] theorem execYield_frame (x s) : outcomeSame s (execYield x s) := issue_frame fun c hc => by simp [hc]

@[simp] theorem execSafe_frame (x s) : outcomeSame s (execSafe x s) := issue_frame fun c hc => by
  have hd := deliver_frame c.s0 c.a.key
  dsimp only
  (repeat' split) <;> simp_all

@[simp] theorem execLaunch_frame (x s) : outcomeSame s (execLaunch x s) := issue_frame fun c hc => by
  dsimp only
  (repeat' split) <;> simp [hc]

@[simp] theorem execCropen_frame (x s) : outcomeSame s (execCropen x s) := issue_frame fun c hc => by
  dsimp only
  (repeat' split) <;> simp [hc]

@[simp] theorem execCrclose_frame (x s) : outcomeSame s (execCrclose x s) := issue_frame fun c hc => by
  split <;> simp [hc]

@[simp] theorem execTrap_frame (x s) : outcomeSame s (execTrap x s) := issue_frame fun c hc => by
  split <;> simp [hc]

@[simp] theorem execBkpt_frame (x s) : outcomeSame s (execBkpt x s) := issue_frame fun c hc => by
  dsimp only
  split <;> simp [hc]

/-! ### System -/

@[simp] theorem execStep_frame (x s) : outcomeSame s (execStep x s) := issue_frame fun c hc => by
  dsimp only
  split <;> simp [hc]

@[simp] theorem contribute_frame (s g k op v m) : sameBytes s (contribute s g k op v m) := by simp [contribute]

@[simp] theorem execRedt_frame (x s) : outcomeSame s (execRedt x s) := issue_frame fun c hc => by
  dsimp only
  (repeat' split) <;> simp [hc]

@[simp] theorem execWaittl_frame (x s) : outcomeSame s (execWaittl x s) := issue_frame fun c hc => by
  dsimp only
  (repeat' split) <;> simp [hc]

@[simp] theorem execTlrd_frame (x s) : outcomeSame s (execTlrd x s) := issue_frame fun c hc => by
  dsimp only
  split <;> simp [hc]

@[simp] theorem execTladv_frame (x s) : outcomeSame s (execTladv x s) := issue_frame fun c hc => by
  dsimp only
  (repeat' split) <;> simp [hc]

@[simp] theorem execSleep_frame (x s) : outcomeSame s (execSleep x s) := issue_frame fun c hc => by
  dsimp only
  split <;> simp [hc]

@[simp] theorem execRdtime_frame (x s) : outcomeSame s (execRdtime x s) := issue_frame fun c hc => by simp [hc]

@[simp] theorem execMovsr_frame (x s) : outcomeSame s (execMovsr x s) := issue_frame fun c hc => by
  dsimp only
  split <;> simp [hc]

@[simp] theorem execMovrs_frame (x s) : outcomeSame s (execMovrs x s) := issue_frame fun c hc => by simp [hc]

/-! ### Bank -/

@[simp] theorem Iss.atAbsent_frame (c : Iss) (lines) : sameBytes c.s (c.atAbsent lines) := ⟨rfl, rfl⟩

@[simp] theorem Iss.absent_frame {s : State} {c : Iss} (hc : issSame s c) (lines) : effSame s (c.absent lines) := by simp [Iss.absent, hc]

@[simp] theorem landIn_frame (s team off bs bad) : sameBytes s (landIn s team off bs bad) := by
  unfold landIn
  split <;> simp

@[simp] theorem Iss.landed_frame (c : Iss) (rs) : sameBytes c.s (c.landed rs).s := ⟨rfl, rfl⟩

@[simp] theorem Iss.landed_s0 (c : Iss) (rs) : (c.landed rs).s0 = c.s0 := rfl

/-! ### Float -/

@[simp] theorem Iss.fp2_frame {s : State} {c : Iss} (hc : issSame s c) (i x f) : effSame s (c.fp2 i x f) := Iss.aluF_frame hc ..

@[simp] theorem execFadd_frame (x s) : outcomeSame s (execFadd x s) := issue_frame fun c hc => by simp [hc]

@[simp] theorem execFsub_frame (x s) : outcomeSame s (execFsub x s) := issue_frame fun c hc => by simp [hc]

@[simp] theorem execFmul_frame (x s) : outcomeSame s (execFmul x s) := issue_frame fun c hc => by simp [hc]

@[simp] theorem execFfma_frame (x s) : outcomeSame s (execFfma x s) := issue_frame fun c hc => by simp [hc]

@[simp] theorem execFmin_frame (x s) : outcomeSame s (execFmin x s) := issue_frame fun c hc => by simp [hc]

@[simp] theorem execFmax_frame (x s) : outcomeSame s (execFmax x s) := issue_frame fun c hc => by simp [hc]

@[simp] theorem execFcmp_frame (x s) : outcomeSame s (execFcmp x s) := issue_frame fun c hc => by simp [hc]

@[simp] theorem execFclass_frame (x s) : outcomeSame s (execFclass x s) := issue_frame fun c hc => by simp [hc]

@[simp] theorem execFrnd_frame (x s) : outcomeSame s (execFrnd x s) := issue_frame fun c hc => by simp [hc]

@[simp] theorem execFfrac_frame (x s) : outcomeSame s (execFfrac x s) := issue_frame fun c hc => by simp [hc]

@[simp] theorem execFscale_frame (x s) : outcomeSame s (execFscale x s) := issue_frame fun c hc => by simp [hc]

@[simp] theorem Iss.sfu_frame {s : State} {c : Iss} (hc : issSame s c) (i x f) : effSame s (c.sfu i x f) := Iss.aluF_frame hc ..

@[simp] theorem execFrcp_frame (x s) : outcomeSame s (execFrcp x s) := issue_frame fun c hc => by simp [hc]

@[simp] theorem execFrsq_frame (x s) : outcomeSame s (execFrsq x s) := issue_frame fun c hc => by simp [hc]

@[simp] theorem execFsqrt_frame (x s) : outcomeSame s (execFsqrt x s) := issue_frame fun c hc => by simp [hc]

@[simp] theorem execFexp2_frame (x s) : outcomeSame s (execFexp2 x s) := issue_frame fun c hc => by simp [hc]

@[simp] theorem execFlog2_frame (x s) : outcomeSame s (execFlog2 x s) := issue_frame fun c hc => by simp [hc]

@[simp] theorem execFsin_frame (x s) : outcomeSame s (execFsin x s) := issue_frame fun c hc => by simp [hc]

@[simp] theorem execFcos_frame (x s) : outcomeSame s (execFcos x s) := issue_frame fun c hc => by simp [hc]

@[simp] theorem execFtanh_frame (x s) : outcomeSame s (execFtanh x s) := issue_frame fun c hc => by simp [hc]

@[simp] theorem execPkadd_frame (x s) : outcomeSame s (execPkadd x s) := issue_frame fun c hc => by simp [hc]

@[simp] theorem execPkmul_frame (x s) : outcomeSame s (execPkmul x s) := issue_frame fun c hc => by simp [hc]

@[simp] theorem execPkfma_frame (x s) : outcomeSame s (execPkfma x s) := issue_frame fun c hc => by simp [hc]

@[simp] theorem execPkmax_frame (x s) : outcomeSame s (execPkmax x s) := issue_frame fun c hc => by simp [hc]

@[simp] theorem execDadd_frame (x s) : outcomeSame s (execDadd x s) := issue_frame fun c hc => Iss.onDp_frame hc fun c hc => by simp [hc]

@[simp] theorem execDmul_frame (x s) : outcomeSame s (execDmul x s) := issue_frame fun c hc => Iss.onDp_frame hc fun c hc => by simp [hc]

@[simp] theorem execDfma_frame (x s) : outcomeSame s (execDfma x s) := issue_frame fun c hc => Iss.onDp_frame hc fun c hc => by simp [hc]

@[simp] theorem execDcmp_frame (x s) : outcomeSame s (execDcmp x s) := issue_frame fun c hc => Iss.onDp_frame hc fun c hc => by simp [hc]

/-! ### Convert -/

@[simp] theorem Iss.format_frame {s : State} {c : Iss} (hc : issSame s c) : effSame s (c.format) := Iss.fault_frame hc ..

@[simp] theorem Iss.convertLanes_frame {s : State} {c : Iss} (hc : issSame s c) (i d w lat f) : effSame s (c.convertLanes i d w lat f) := by
  unfold Iss.convertLanes
  dsimp only
  split <;> simp [hc]

@[simp] theorem Iss.fcvt_frame {s : State} {c : Iss} (hc : issSame s c) (x dc sc df sf) :
    effSame s (c.fcvt x dc sc df sf) := Iss.convertLanes_frame hc ..

@[simp] theorem execFcvt_frame (x s) : outcomeSame s (execFcvt x s) := issue_frame fun c hc => by
  dsimp only
  split
  · split
    · exact Iss.onDp_frame hc fun c hc => by simp [hc]
    · simp [hc]
  · simp [hc]

@[simp] theorem execIcvt_frame (x s) : outcomeSame s (execIcvt x s) := issue_frame fun c hc => by
  dsimp only
  (repeat' split) <;> simp [hc]

@[simp] theorem execFpack_frame (x s) : outcomeSame s (execFpack x s) := issue_frame fun c hc => by
  dsimp only
  split <;> simp [hc]

@[simp] theorem execFunpack_frame (x s) : outcomeSame s (execFunpack x s) := issue_frame fun c hc => by
  dsimp only
  split <;> simp [hc]

@[simp] theorem execBound_frame (x s) : outcomeSame s (execBound x s) := issue_frame fun c hc => by
  dsimp only
  split <;> simp [hc]

/-! ### Matrix -/

@[simp] theorem Iss.mma_frame {s : State} {c : Iss} (hc : issSame s c) (x zero) : effSame s (c.mma x zero) := by
  unfold Iss.mma
  split
  · simp [hc]
  · simp [hc]
  · dsimp only
    refine effSame_ite (by simp [hc]) ?_
    split
    · simp [hc]
    · refine effSame_ite (by simp [hc]) (effSame_ite (by simp [hc]) ?_)
      split
      · simp [hc]
      · simp [hc]
      · refine effSame_ite (by simp [hc]) ?_
        split
        · simp [hc]
        · refine effSame_ite (by simp [hc]) (effSame_ite (by simp [hc]) (effSame_ite (by simp [hc]) (effSame_ite (by simp [hc]) ?_)))
          simp [hc]

@[simp] theorem execMma_frame (x s) : outcomeSame s (execMma x s) := issue_frame fun c hc => by simp [hc]

@[simp] theorem execMmaz_frame (x s) : outcomeSame s (execMmaz x s) := issue_frame fun c hc => by simp [hc]

@[simp] theorem execFmtv_frame (x s) : outcomeSame s (execFmtv x s) := issue_frame fun c hc => by
  dsimp only
  split <;> simp [hc]

@[simp] theorem execAccepi_frame (x s) : outcomeSame s (execAccepi x s) := issue_frame fun c hc => by
  dsimp only
  split
  · simp [hc]
  · refine effSame_ite (by simp [hc]) (effSame_ite (by simp [hc]) (effSame_ite (by simp [hc]) ?_))
    split
    · simp [hc]
    · refine effSame_ite (by simp [hc]) (effSame_ite (by simp [hc]) (effSame_ite (by simp [hc]) ?_))
      simp [hc]

@[simp] theorem execAccck_frame (x s) : outcomeSame s (execAccck x s) := issue_frame fun c hc => by
  dsimp only
  (repeat' split) <;> simp [hc]

@[simp] theorem execAccld_frame (x s) : outcomeSame s (execAccld x s) := issue_frame fun c hc => by
  dsimp only
  (repeat' split) <;> simp [hc]

@[simp] theorem execAccst_frame (x s) : outcomeSame s (execAccst x s) := issue_frame fun c hc => by
  dsimp only
  (repeat' split) <;> simp [hc]

@[simp] theorem execAccz_frame (x s) : outcomeSame s (execAccz x s) := issue_frame fun c hc => by
  dsimp only
  (repeat' split) <;> simp [hc]

@[simp] theorem execMjob_frame (x s) : outcomeSame s (execMjob x s) := issue_frame fun c hc => by
  dsimp only
  (repeat' split) <;> simp [hc]

end Sys2Proof.Machine
end

