-- ==== Sys2Proof/Proofs/FrameUnits.lean ====
section
/-! Jobs, global memory, engines, fetch and queues: their steps change no byte of memory. -/

namespace Sys2Proof.Machine

-- one declaration at a time: a thread for each would be too many
set_option Elab.async false

/-! ### Jobs -/

@[simp] theorem putHead_frame (s core j) : sameBytes s (putHead s core j) := ⟨rfl, rfl⟩

@[simp] theorem showDeclared_frame (s c) : sameBytes s (showDeclared s c) := ⟨rfl, rfl⟩

@[simp] theorem finishJob_frame (s core j fault) : sameBytes s (finishJob s core j fault) := ⟨rfl, rfl⟩

@[simp] theorem testJob_frame (s boundary core) : sameBytes s (testJob s boundary core) := by
  unfold testJob
  split <;> simp

@[simp] theorem admitCluster_frame (s boundary c) : sameBytes s (admitCluster s boundary c) := by simp [admitCluster]

@[simp] theorem execJobAdmission_frame (cluster s) : outcomeSame s (execJobAdmission cluster s) := by
  unfold execJobAdmission
  split <;> simp

@[simp] theorem jobSaturated_frame (s j sat) : sameBytes s (jobSaturated s j sat) := by simp [jobSaturated]

@[simp] theorem jobAccumulate_frame (s core j t) : jobOutSame s (jobAccumulate s core j t) := by
  unfold jobAccumulate; dsimp only; (repeat' split) <;> simp

@[simp] theorem jobEpilogue_frame (s core j t) : jobOutSame s (jobEpilogue s core j t) := by
  unfold jobEpilogue; dsimp only; (repeat' split) <;> simp

@[simp] theorem jobStep_frame (s core j t) : jobOutSame s (jobStep s core j t) := by
  unfold jobStep; split <;> simp

@[simp] theorem execJobStep_frame (core s) : outcomeSame s (execJobStep core s) := by
  unfold execJobStep
  split
  · rename_i j _
    split
    · trivial
    · split
      · trivial
      · rename_i t _
        have hj := jobStep_frame s core j t
        split <;> simp_all
  · trivial

@[simp] theorem releaseFull_frame (s core) : sameBytes s (releaseFull s core) := ⟨rfl, rfl⟩

@[simp] theorem timelineRecord_frame (s t agent unit pc tl n sub addr) : sameBytes s (timelineRecord s t agent unit pc tl n sub addr) := by
  unfold timelineRecord
  split <;> simp

@[simp] theorem endJob_frame (s core j) : sameBytes s (endJob s core j) := by
  unfold endJob
  split <;> simp

@[simp] theorem execJobComplete_frame (core s) : outcomeSame s (execJobComplete core s) := by
  unfold execJobComplete
  (repeat' split) <;> simp

/-! ### GlobalMem -/

theorem Iss.misaligned_frame {s : State} {c : Iss} (hc : issSame s c) {n va e} (h : c.misaligned n va = some e) : effSame s e := by
  unfold Iss.misaligned at h
  split at h
  · cases h
  · cases h; exact Iss.faultAt_frame hc ..

@[simp] theorem Iss.begun_frame (c s op dest size reqs acq) : sameBytes s (Iss.begun c s op dest size reqs acq) := by
  unfold Iss.begun
  split <;> simp

@[simp] theorem Iss.access_frame {s t : State} {c : Iss} (hc : issSame s c) (ht : sameBytes s t) (op dest size reqs acq) :
    effSame s (c.access t op dest size reqs acq) := by
  unfold Iss.access; (repeat' split) <;> simp [hc, ht]

@[simp] theorem execLd_frame (x s) : outcomeSame s (execLd x s) := issue_frame fun c hc => by
  dsimp only
  split
  · exact Iss.misaligned_frame hc ‹_›
  · simp [hc]

@[simp] theorem execSt_frame (x s) : outcomeSame s (execSt x s) := issue_frame fun c hc => by
  dsimp only
  split
  · exact Iss.misaligned_frame hc ‹_›
  · split <;> simp [hc]

@[simp] theorem execLda_frame (x s) : outcomeSame s (execLda x s) := issue_frame fun c hc => by
  dsimp only
  split
  · exact Iss.misaligned_frame hc ‹_›
  · simp [hc]

@[simp] theorem execChka_frame (x s) : outcomeSame s (execChka x s) := issue_frame fun c hc => by
  dsimp only
  split
  · exact Iss.misaligned_frame hc ‹_›
  · split <;> simp [hc]

@[simp] theorem execInvala_frame (x s) : outcomeSame s (execInvala x s) := issue_frame fun c hc => by simp [hc]

@[simp] theorem execLdix_frame (x s) : outcomeSame s (execLdix x s) := issue_frame fun c hc => by
  dsimp only
  split
  · exact Iss.misaligned_frame hc ‹_›
  · simp [hc]

@[simp] theorem prefLine_frame (s core ladle ctx x va) : sameBytes s (prefLine s core ladle ctx x va) := by simp [prefLine]

@[simp] theorem prefRun_frame (s r) : sameBytes s (prefRun s r) := by
  unfold prefRun
  split
  · rename_i vas core _ _
    extract_lets looks s1 left
    have hs : sameBytes s s1 := foldl_same (fun t l => by split <;> simp) looks s
    clear_value s1
    exact ite_same (hs.trans (dropReader_frame ..)) (hs.trans (by simp))
  · exact ⟨rfl, rfl⟩

@[simp] theorem beginPrefetch_frame (s core k ctx goal run) (hrun : ∀ t a, sameBytes t (run t a)) :
    sameBytes s (beginPrefetch s core k ctx goal run) := by
  grind [beginPrefetch, newReader_frame]

@[simp] theorem execPref_frame (x s) : outcomeSame s (execPref x s) := issue_frame fun c hc => by simp [hc]

@[simp] theorem prefbPage_frame (s core ladle ctx team tl n x part) : sameBytes s (prefbPage s core ladle ctx team tl n x part) := by simp [prefbPage]

@[simp] theorem prefbDone_frame (s team tl n) : sameBytes s (prefbDone s team tl n) := by
  unfold prefbDone
  (repeat' split) <;> simp

@[simp] theorem prefbPages_frame (s r core team tl n ps) : sameBytes s (prefbPages s r core team tl n ps).1 := by
  induction ps generalizing s with
  | nil => exact ⟨rfl, rfl⟩
  | cons p rest ih => unfold prefbPages; split <;> simp [ih]

@[simp] theorem prefbRun_frame (s r) : sameBytes s (prefbRun s r) := by
  unfold prefbRun
  dsimp only
  (repeat' split) <;> simp

@[simp] theorem execPrefb_frame (x s) : outcomeSame s (execPrefb x s) := issue_frame fun c hc => by
  dsimp only
  (repeat' split) <;> simp [hc]

@[simp] theorem execCwb_frame (x s) : outcomeSame s (execCwb x s) := issue_frame fun c hc => by simp [hc]

@[simp] theorem execIcinv_frame (x s) : outcomeSame s (execIcinv x s) := issue_frame fun c hc => by
  dsimp only
  (repeat' split) <;> simp [hc]

@[simp] theorem execFetchb_frame (x s) : outcomeSame s (execFetchb x s) := issue_frame fun c hc => by simp [hc]

@[simp] theorem execFence_frame (x s) : outcomeSame s (execFence x s) := issue_frame fun c hc => by simp [hc]

@[simp] theorem Iss.atomic_frame {s : State} {c : Iss} (hc : issSame s c) (x op dest reqs) : effSame s (c.atomic x op dest reqs) := by
  unfold Iss.atomic
  dsimp only
  split
  · exact Iss.misaligned_frame hc ‹_›
  · (repeat' split) <;> simp [hc]

@[simp] theorem execAtom_frame (x s) : outcomeSame s (execAtom x s) := issue_frame fun c hc => by simp [hc]

@[simp] theorem execRed_frame (x s) : outcomeSame s (execRed x s) := issue_frame fun c hc => by simp [hc]

/-! ### StepMem -/

theorem Iss.stepFault_frame {s : State} {c : Iss} (hc : issSame s c) {remote n acc ea e} (h : c.stepFault remote n acc ea = some e) :
    effSame s e := by
  obtain ⟨⟨cause, ls, addr⟩, -, rfl⟩ := Option.map_eq_some_iff.mp h
  exact Iss.faultAt_frame hc ..

@[simp] theorem execLds_frame (x s) : outcomeSame s (execLds x s) := issue_frame fun c hc => by
  dsimp only
  split
  · exact Iss.stepFault_frame hc ‹_›
  · split <;> simp [hc]

@[simp] theorem Iss.storeOwn_frame (c s n own) : sameBytes s (Iss.storeOwn c s n own) := ⟨rfl, rfl⟩

@[simp] theorem execSts_frame (x s) : outcomeSame s (execSts x s) := issue_frame fun c hc => by
  dsimp only
  split
  · exact Iss.stepFault_frame hc ‹_›
  · (repeat' split) <;> simp [hc]

@[simp] theorem Iss.exchangeThere_frame (c s n ea lane core off x) :
    sameBytes s (Iss.exchangeThere c s n ea lane core off x) := by simp [Iss.exchangeThere]

@[simp] theorem Iss.stxEffect_frame (c x value s) : sameBytes s (Iss.stxEffect c x value s) := by simp [Iss.stxEffect]

@[simp] theorem execStx_frame (x s) : outcomeSame s (execStx x s) := issue_frame fun c hc => by
  dsimp only
  split
  · exact Iss.stepFault_frame hc ‹_›
  · split <;> simp [hc]

@[simp] theorem Iss.tagEffect_frame (c x o dest data value s) : sameBytes s (Iss.tagEffect c x o dest data value s) := by simp [Iss.tagEffect]

@[simp] theorem Iss.tagged_frame {s t : State} {c : Iss} (hc : issSame s c) (ht : sameBytes s t) (x o dest data value) :
    effSame s (c.tagged x o dest data value t) := by
  unfold Iss.tagged; dsimp only; (repeat' split) <;> simp [hc, ht]

@[simp] theorem Iss.tagOnly_frame {s : State} {c : Iss} (hc : issSame s c) (x o dest data) : effSame s (c.tagOnly x o dest data) := by
  unfold Iss.tagOnly
  split
  · exact Iss.stepFault_frame hc ‹_›
  · simp [hc]

@[simp] theorem Iss.tagStore_frame {s : State} {c : Iss} (hc : issSame s c) (x o) : effSame s (c.tagStore x o) := by
  unfold Iss.tagStore
  split
  · exact Iss.stepFault_frame hc ‹_›
  · dsimp only; split <;> simp [hc]

@[simp] theorem execLdf_frame (x s) : outcomeSame s (execLdf x s) := issue_frame fun c hc => by simp [hc]

@[simp] theorem execSte_frame (x s) : outcomeSame s (execSte x s) := issue_frame fun c hc => by simp [hc]

@[simp] theorem execStf_frame (x s) : outcomeSame s (execStf x s) := issue_frame fun c hc => by simp [hc]

@[simp] theorem execTagset_frame (x s) : outcomeSame s (execTagset x s) := issue_frame fun c hc => by simp [hc]

@[simp] theorem execTagclr_frame (x s) : outcomeSame s (execTagclr x s) := issue_frame fun c hc => by simp [hc]

@[simp] theorem execTagrd_frame (x s) : outcomeSame s (execTagrd x s) := issue_frame fun c hc => by simp [hc]

@[simp] theorem execPrsrd_frame (x s) : outcomeSame s (execPrsrd x s) := issue_frame fun c hc => by
  dsimp only
  split
  · exact Iss.stepFault_frame hc ‹_›
  · simp [hc]

@[simp] theorem Iss.bankEffect_frame (c : Iss) (x dest data) : sameBytes c.s (c.bankEffect x dest data) := by
  unfold Iss.bankEffect
  dsimp only
  (repeat' split) <;> simp

@[simp] theorem Iss.bankAtomics_frame {s : State} {c : Iss} (hc : issSame s c) (x remote dest data) :
    effSame s (c.bankAtomics x remote dest data) := by
  unfold Iss.bankAtomics
  dsimp only
  split
  · exact Iss.stepFault_frame hc ‹_›
  · (repeat' split) <;> simp [hc]

@[simp] theorem execAtoms_frame (x s) : outcomeSame s (execAtoms x s) := issue_frame fun c hc => by simp [hc]

@[simp] theorem execReds_frame (x s) : outcomeSame s (execReds x s) := issue_frame fun c hc => by simp [hc]

@[simp] theorem execAtomx_frame (x s) : outcomeSame s (execAtomx x s) := issue_frame fun c hc => by simp [hc]

/-! ### Copy -/

@[simp] theorem acceptCopy_frame (s c e tl slack p) : sameBytes s (acceptCopy s c e tl slack p) := by simp [acceptCopy]

@[simp] theorem Iss.nbMark_frame (c nb d s b) : sameBytes s (Iss.nbMark c nb d s b) := by
  unfold Iss.nbMark
  split <;> simp

@[simp] theorem Iss.accept_frame {s : State} {c : Iss} (hc : issSame s c) (e tl slack nb d p) : effSame s (c.accept e tl slack nb d p) := by
  unfold Iss.accept
  (repeat' split) <;> simp [hc]

@[simp] theorem Iss.copyAs_frame {s : State} {c : Iss} (hc : issSame s c) (x plan) : effSame s (c.copyAs x plan) := by
  unfold Iss.copyAs
  (repeat' split) <;> simp [hc]

@[simp] theorem execCopy_frame (x s) : outcomeSame s (execCopy x s) := issue_frame fun c hc => by simp [hc]

@[simp] theorem execCopyg_frame (x s) : outcomeSame s (execCopyg x s) := issue_frame fun c hc => by simp [hc]

@[simp] theorem execCopys_frame (x s) : outcomeSame s (execCopys x s) := issue_frame fun c hc => by simp [hc]

@[simp] theorem execCopyr_frame (x s) : outcomeSame s (execCopyr x s) := issue_frame fun c hc => by simp [hc]

@[simp] theorem execCbload_frame (x s) : outcomeSame s (execCbload x s) := issue_frame fun c hc => by
  (repeat' split) <;> simp [hc]

@[simp] theorem execCbdrop_frame (x s) : outcomeSame s (execCbdrop x s) := issue_frame fun c hc => by
  dsimp only
  (repeat' split) <;> simp [hc]

@[simp] theorem execCqry_frame (x s) : outcomeSame s (execCqry x s) := issue_frame fun c hc => by
  split <;> simp [hc]

/-! ### CopyEngine -/

@[simp] theorem updOp_frame (s c e seq f) : sameBytes s (updOp s c e seq f) := ⟨rfl, rfl⟩

@[simp] theorem countLate_frame (s c e op) : sameBytes s (countLate s c e op) := by simp [countLate]

@[simp] theorem noteLate_frame (s c e op) : sameBytes s (noteLate s c e op) := by simp [noteLate]

@[simp] theorem ageCopies_frame (s team) : sameBytes s (ageCopies s team) := by simp [ageCopies]

@[simp] theorem cutChunk_frame (s op k) : sameBytes s (cutChunk s op k).2 := by
  unfold cutChunk
  dsimp only
  (repeat' split) <;> simp

@[simp] theorem sendCopyPacket_frame (s c e op pa attr m) : sameBytes s (sendCopyPacket s c e op pa attr m) := by
  unfold sendCopyPacket
  cases destOf s pa <;> simp

@[simp] theorem sendCopyWrite_frame (s c e op cells attr bad) : sameBytes s (sendCopyWrite s c e op cells attr bad) := by
  unfold sendCopyWrite
  split <;> simp

@[simp] theorem sendReduce_frame (s c e op code el) : sameBytes s (sendReduce s c e op code el) := by
  unfold sendReduce
  (repeat' split) <;> simp

@[simp] theorem writeChunk_frame (s c e op out) : sameBytes s (writeChunk s c e op out) := by
  unfold writeChunk
  dsimp only
  (repeat' split) <;> simp

@[simp] theorem releaseLines_frame (s team lines) : sameBytes s (releaseLines s team lines) := by
  unfold releaseLines
  split <;> simp

@[simp] theorem askCopy_frame (s c e op ns) : sameBytes s (askCopy s c e op ns) := by simp [askCopy]

@[simp] theorem landChunk_frame (s c e op k) : sameBytes s (landChunk s c e op k) := by
  unfold landChunk
  dsimp only
  split <;> simp

@[simp] theorem serveChunk_frame (s c e op) : sameBytes s (serveChunk s c e op) := by
  unfold serveChunk
  dsimp only
  (repeat' split) <;> simp

@[simp] theorem execCopyChunk_frame (c e s) : outcomeSame s (execCopyChunk c e s) := by
  unfold execCopyChunk
  (repeat' split) <;> simp

@[simp] theorem putBook_frame (s c e k b) : sameBytes s (putBook s c e k b) := by simp [putBook]

@[simp] theorem loadBook_frame (s c e op k count size) : sameBytes s (loadBook s c e op k count size) := by
  unfold loadBook
  split <;> simp

@[simp] theorem execCbloadServe_frame (c e s) : outcomeSame s (execCbloadServe c e s) := by
  unfold execCbloadServe
  (repeat' split) <;> simp

@[simp] theorem dropBook_frame (s c e op k) : sameBytes s (dropBook s c e op k) := by simp [dropBook]

@[simp] theorem execCbdropServe_frame (c e s) : outcomeSame s (execCbdropServe c e s) := by
  unfold execCbdropServe
  (repeat' split) <;> simp

@[simp] theorem endCopy_frame (s c e op) : sameBytes s (endCopy s c e op) := by
  unfold endCopy
  dsimp only
  (repeat' split) <;> simp

@[simp] theorem execCopyComplete_frame (c e n s) : outcomeSame s (execCopyComplete c e n s) := by
  unfold execCopyComplete
  (repeat' split) <;> simp

@[simp] theorem writeCestat_frame (s c e v) : sameBytes s (writeCestat s c e v) := by simp [writeCestat]

@[simp] theorem execCestatClear_frame (c e v s) : outcomeSame s (execCestatClear c e v s) := by simp [execCestatClear]

/-! ### Events -/

@[simp] theorem execSwitchMarkerPass_frame (a s) : outcomeSame s (execSwitchMarkerPass a s) := by
  unfold execSwitchMarkerPass
  (repeat' split) <;> simp

@[simp] theorem execFenceComplete_frame (a s) : outcomeSame s (execFenceComplete a s) := by simp [execFenceComplete]

@[simp] theorem execSleepExpiry_frame (a s) : outcomeSame s (execSleepExpiry a s) := by
  unfold execSleepExpiry
  (repeat' split) <;> simp

@[simp] theorem execLeaseExpiry_frame (core line s) : outcomeSame s (execLeaseExpiry core line s) := by
  unfold execLeaseExpiry
  dsimp only
  split <;> simp

@[simp] theorem execAddressTableExpiry_frame (a s) : outcomeSame s (execAddressTableExpiry a s) := by
  unfold execAddressTableExpiry
  dsimp only
  (repeat' split) <;> simp

@[simp] theorem execAbsentLineWake_frame (a s) : outcomeSame s (execAbsentLineWake a s) := by
  unfold execAbsentLineWake
  (repeat' split) <;> simp

@[simp] theorem eachTeam_frame (s g f) : sameBytes s (eachTeam s g f) := ⟨rfl, rfl⟩

@[simp] theorem landStep_frame (s g) : sameBytes s (landStep s g) := ⟨rfl, rfl⟩

@[simp] theorem trapStep_frame (s g x) : sameBytes s (trapStep s g x) :=
  foldl_same (fun t k => by (repeat' split) <;> simp) _ (eachTeam s g _)

@[simp] theorem swapStep_frame (s g) : sameBytes s (swapStep s g) := by simp [swapStep]

@[simp] theorem execStepComplete_frame (g s) : outcomeSame s (execStepComplete g s) := by
  unfold execStepComplete
  dsimp only
  (repeat' split) <;> simp

@[simp] theorem execNextPlaneRefillDone_frame (team region s) : outcomeSame s (execNextPlaneRefillDone team region s) := by
  unfold execNextPlaneRefillDone
  (repeat' split) <;> simp

@[simp] theorem giveResult_frame (s g k r) : sameBytes s (giveResult s g k r) := by simp [giveResult]

@[simp] theorem execRedtResult_frame (g k s) : outcomeSame s (execRedtResult g k s) := by
  unfold execRedtResult
  (repeat' split) <;> simp

@[simp] theorem execWhiskMessage_frame (n s) : outcomeSame s (execWhiskMessage n s) := by
  unfold execWhiskMessage
  dsimp only
  (repeat' split) <;> simp

@[simp] theorem execIcinvChipletAck_frame (a sock s) : outcomeSame s (execIcinvChipletAck a sock s) := by
  unfold execIcinvChipletAck
  dsimp only
  (repeat' split) <;> simp

@[simp] theorem execDebugResume_frame (a s) : outcomeSame s (execDebugResume a s) := by
  unfold execDebugResume
  (repeat' split) <;> simp

/-! ### Fetch -/

@[simp] theorem putFetch_frame (s k l) : sameBytes s (putFetch s k l) := ⟨rfl, rfl⟩

@[simp] theorem l0Insert_frame (s core l) : sameBytes s (l0Insert s core l) := by simp [l0Insert]

@[simp] theorem lineRun_frame (s r) : sameBytes s (lineRun s r) := by
  unfold lineRun
  dsimp only
  (repeat' split) <;> simp

@[simp] theorem execLineFill_frame (k line s) : outcomeSame s (execLineFill k line s) := by
  unfold execLineFill
  dsimp only
  (repeat' split) <;> simp

@[simp] theorem freeBytes_frame (s n) : sameBytes s (freeBytes s n).2 :=
  foldl_snd_same (f := fun acc _ => ((acc.1 ++ [BitVec.ofNat 8 (pick acc.2 256).1] : List Byte), (pick acc.2 256).2))
    (fun _ _ => ⟨rfl, rfl⟩) (List.range n) ([], s)

@[simp] theorem liveRun_frame (s r) : sameBytes s (liveRun s r) := by
  unfold liveRun
  dsimp only
  (repeat' split) <;> simp

/-! ### Queues -/

@[simp] theorem setQueue_frame (s q l) : sameBytes s (setQueue s q l) := ⟨rfl, rfl⟩

@[simp] theorem dropBad_frame (s q) : sameBytes s (dropBad s q) := ⟨rfl, rfl⟩

@[simp] theorem dropFull_frame (s q) : sameBytes s (dropFull s q) := ⟨rfl, rfl⟩

@[simp] theorem advanceQueue_frame (s q) : sameBytes s (advanceQueue s q) := by simp [advanceQueue]

@[simp] theorem restartHeads_frame (before after) : sameBytes after (restartHeads before after) := ⟨rfl, rfl⟩

@[simp] theorem enqueue_frame (s q bs) : sameBytes s (enqueue s q bs) := ⟨rfl, rfl⟩

@[simp] theorem windowWrite_frame (s w) : sameBytes s (windowWrite s w) := by simp [windowWrite]

@[simp] theorem execQueueWindowWrite_frame (w s) : outcomeSame s (execQueueWindowWrite w s) := by simp [execQueueWindowWrite]

@[simp] theorem writeQcfg_frame (s q v) : sameBytes s (writeQcfg s q v) := by simp [writeQcfg]

@[simp] theorem execQcfgWrite_frame (q v s) : outcomeSame s (execQcfgWrite q v s) := by simp [execQcfgWrite]

@[simp] theorem writeQstat_frame (s q v) : sameBytes s (writeQstat s q v) := by simp [writeQstat]

@[simp] theorem execQstatClear_frame (q v s) : outcomeSame s (execQstatClear q v s) := by simp [execQstatClear]

@[simp] theorem judgeRun_frame (s r) : sameBytes s (judgeRun s r) := by
  unfold judgeRun
  (repeat' split) <;> simp

@[simp] theorem beginJudge_frame (s q r) : sameBytes s (beginJudge s q r) := by
  unfold beginJudge
  dsimp only
  split <;> simp

@[simp] theorem pickSome_frame {α : Type} (s n) (l : List α) : sameBytes s (pickSome s n l).1 := by
  induction n generalizing s l with
  | zero => exact ⟨rfl, rfl⟩
  | succ n ih => unfold pickSome; dsimp only [pick]; split <;> simp [ih]

@[simp] theorem placeCohort_frame (s g cores) : sameBytes s (placeCohort s g cores) := by simp [placeCohort]

@[simp] theorem placeTaken_frame (s id) : sameBytes s (placeTaken s id) := by
  unfold placeTaken
  split
  · exact ⟨rfl, rfl⟩
  · rename_i g _
    exact ite_same (sameBytes.trans (pickSome_frame ..) (placeCohort_frame ..)) ⟨rfl, rfl⟩

@[simp] theorem takeHead_frame (s q r e) : sameBytes s (takeHead s q r e) := by
  unfold takeHead
  cases e <;> simp

@[simp] theorem execDispatchTake_frame (s) : outcomeSame s (execDispatchTake s) := by
  unfold execDispatchTake
  (repeat' split) <;> simp

@[simp] theorem execTeamPlace_frame (grid team core s) : outcomeSame s (execTeamPlace grid team core s) := by
  unfold execTeamPlace
  (repeat' split) <;> simp

@[simp] theorem execCohortPlace_frame (grid cores s) : outcomeSame s (execCohortPlace grid cores s) := by
  unfold execCohortPlace
  (repeat' split) <;> simp

@[simp] theorem execCohortWaitExpiry_frame (q s) : outcomeSame s (execCohortWaitExpiry q s) := by
  unfold execCohortWaitExpiry
  dsimp only
  (repeat' split) <;> simp

@[simp] theorem removeTeam_frame (s t) : sameBytes s (removeTeam s t) := by simp [removeTeam]

@[simp] theorem execTeamRetire_frame (team s) : outcomeSame s (execTeamRetire team s) := by
  unfold execTeamRetire
  (repeat' split) <;> simp

@[simp] theorem childOver_frame (s g team tl n) : sameBytes s (childOver s g team tl n) := by
  unfold childOver
  split <;> simp

@[simp] theorem retireGrid_frame (s g) : sameBytes s (retireGrid s g) := by
  unfold retireGrid
  split <;> simp

@[simp] theorem execGridRetire_frame (grid s) : outcomeSame s (execGridRetire grid s) := by
  unfold execGridRetire
  (repeat' split) <;> simp

end Sys2Proof.Machine
end

