-- ==== Sys2Proof/Proofs/FramePackage.lean ====
section
/-! Replies, links, shards, the host port, power and saves: their steps change no byte of memory but those of Home and Failures. -/

namespace Sys2Proof.Machine

-- one declaration at a time: a thread for each would be too many
set_option Elab.async false

/-! ### Home -/

@[simp] theorem movePointer_frame (s d t) : sameBytes s (movePointer s d t) := by
  unfold movePointer
  dsimp only
  split <;> simp

@[simp] theorem acceptArrival_frame (h t p s) : sameBytes s (acceptArrival h t p s) := by simp [acceptArrival]

@[simp] theorem answer_frame (s p m) : sameBytes s (answer s p m) := by simp [answer]

@[simp] theorem noteWrite_frame (s p) : sameBytes s (noteWrite s p).2 := ⟨rfl, rfl⟩

@[simp] theorem forwardElement_frame (s p lane esize signed elemBase pageBase pageSize attr index) :
    sameBytes s (forwardElement s p lane esize signed elemBase pageBase pageSize attr index) := by
  unfold forwardElement
  refine ite_same (answer_frame ..) ?_
  extract_lets a
  split
  · exact answer_frame ..
  · exact answer_frame ..
  · exact send_frame ..
  · exact answer_frame ..

@[simp] theorem awaitSnoop_frame (s h p) : sameBytes s (awaitSnoop s h p) := by simp [awaitSnoop]

@[simp] theorem systemFail_frame (s p sub) : sameBytes s (systemFail s p sub) := by
  unfold systemFail
  (repeat' split) <;> simp

@[simp] theorem toSystem_frame (s p) : sameBytes s (toSystem s p) := by simp [toSystem]

@[simp] theorem apertureWrite_frame (s p cells) : sameBytes s (apertureWrite s p cells) := by
  unfold apertureWrite
  split
  · exact ⟨rfl, rfl⟩
  · exact ite_same (windowWrite_frame ..) (foldl_same (fun t q => windowWrite_frame ..) _ _)

@[simp] theorem toAperture_frame (s p) : sameBytes s (toAperture s p) := by
  unfold toAperture
  dsimp only
  split
  · simp
  · simp
  · simp
  · simp
  · simp
  · simp
  · split <;> simp
  · simp

@[simp] theorem applyRequest_frame (s p) : sameBytes s (applyRequest s p) := by simp [applyRequest]

@[simp] theorem answerMarker_frame (s p) : sameBytes s (answerMarker s p) := by simp [answerMarker]

@[simp] theorem beginSnoop_frame (s a line) : sameBytes s (beginSnoop s a line) := by simp [beginSnoop]

@[simp] theorem answerEmpty_frame (p s) : sameBytes s (answerEmpty p s) := by
  unfold answerEmpty
  split <;> simp

/-! ### Replies -/

@[simp] theorem dataReply_frame (s core id vals line cells expiry) : sameBytes s (dataReply s core id vals line cells expiry) := by
  unfold dataReply
  split <;> simp

@[simp] theorem prefReply_frame (s core vals line cells expiry) : sameBytes s (prefReply s core vals line cells expiry) := by
  unfold prefReply
  split <;> simp

@[simp] theorem runReader_frame (s id) : sameBytes s (runReader s id) := by
  unfold runReader
  (repeat' split) <;> simp

@[simp] theorem xlatToReader_frame (s id vpn ans gen) : sameBytes s (xlatToReader s id vpn ans gen) := by
  unfold xlatToReader
  split <;> simp

@[simp] theorem walkGot_frame (s sock id v bad) : sameBytes s (walkGot s sock id v bad) := ⟨rfl, rfl⟩

@[simp] theorem retryReq_frame (s p) : sameBytes s (retryReq s p) := by
  unfold retryReq
  (repeat' split) <;> simp

@[simp] theorem refuseReq_frame (s p) : sameBytes s (refuseReq s p) := by
  unfold refuseReq
  (repeat' split) <;> simp

@[simp] theorem settleReq_frame (s p) : sameBytes s (settleReq s p) := by
  unfold settleReq
  split <;> simp

@[simp] theorem noteReq_frame (s p f) : sameBytes s (noteReq s p f) := by simp [noteReq]

@[simp] theorem toldReq_frame (s who vpn ans) : sameBytes s (toldReq s who vpn ans) := by
  unfold toldReq
  (repeat' split) <;> simp

@[simp] theorem lateKnown_frame (s c e seq) : sameBytes s (lateKnown s c e seq) := by
  unfold lateKnown
  split <;> simp

@[simp] theorem xlatReply_frame (s who vpn ans gen) : sameBytes s (xlatReply s who vpn ans gen) := by
  unfold xlatReply
  split <;> simp

@[simp] theorem applyRdr_frame (p s) : sameBytes s (applyRdr p s) := by
  unfold applyRdr
  split <;> simp

@[simp] theorem execRdr_frame (h s) : outcomeSame s (execRdr h s) := by simp [execRdr]

@[simp] theorem engineReply_frame (s c e seq path t f) : sameBytes s (engineReply s c e seq path t f) := ⟨rfl, rfl⟩

@[simp] theorem postedReport_frame (s k issue pc lanes cause sub va) :
    sameBytes s (postedReport s k issue pc lanes cause sub va) := by simp [postedReport]

@[simp] theorem applyWrc_frame (p s) : sameBytes s (applyWrc p s) := by
  unfold applyWrc
  split <;> simp

@[simp] theorem execWrc_frame (h s) : outcomeSame s (execWrc h s) := by simp [execWrc]

@[simp] theorem applyAtr_frame (p s) : sameBytes s (applyAtr p s) := by
  unfold applyAtr
  (repeat' split) <;> simp

@[simp] theorem execAtr_frame (h s) : outcomeSame s (execAtr h s) := by simp [execAtr]

@[simp] theorem applyPfReply_frame (p s) : sameBytes s (applyPfReply p s) := by
  unfold applyPfReply
  split <;> simp

@[simp] theorem execPfReply_frame (h s) : outcomeSame s (execPfReply h s) := by simp [execPfReply]

@[simp] theorem arriveIfCounted_frame (s k) : sameBytes s (arriveIfCounted s k) := by
  unfold arriveIfCounted
  (repeat' split) <;> simp

@[simp] theorem engineTimesOver_frame (s sock path) : sameBytes s (engineTimesOver s sock path) := ⟨rfl, rfl⟩

@[simp] theorem applyFmr_frame (p s) : sameBytes s (applyFmr p s) := by
  unfold applyFmr
  split <;> simp

@[simp] theorem execFmr_frame (h s) : outcomeSame s (execFmr h s) := by simp [execFmr]

@[simp] theorem targetTeam_frame (s grid core) : sameBytes s (targetTeam s grid core).1 := by
  unfold targetTeam
  split <;> simp

@[simp] theorem bankReply_frame (s p lane x bad) : sameBytes s (bankReply s p lane x bad) := by simp [bankReply]

@[simp] theorem applyMessage_frame (s p t lane issue from_ op) : sameBytes s (applyMessage s p t lane issue from_ op) := by
  unfold applyMessage
  split <;> simp

@[simp] theorem wakeRemote_frame (s core id lane) : sameBytes s (wakeRemote s core id lane) := by
  unfold wakeRemote
  (repeat' split) <;> simp

@[simp] theorem applyXm_frame (p s) : sameBytes s (applyXm p s) := by
  unfold applyXm
  dsimp only
  (repeat' split) <;> simp

@[simp] theorem execXm_frame (h s) : outcomeSame s (execXm h s) := by simp [execXm]

@[simp] theorem applyRm_frame (p s) : sameBytes s (applyRm p s) := by
  unfold applyRm
  dsimp only
  (repeat' split) <;> simp

@[simp] theorem execRm_frame (h s) : outcomeSame s (execRm h s) := by simp [execRm]

@[simp] theorem applyRma_frame (p s) : sameBytes s (applyRma p s) := by
  unfold applyRma
  (repeat' split) <;> simp

@[simp] theorem execRma_frame (h s) : outcomeSame s (execRma h s) := by simp [execRma]

@[simp] theorem applyLc_frame (p s) : sameBytes s (applyLc p s) := by
  unfold applyLc
  split <;> simp

@[simp] theorem execLc_frame (h s) : outcomeSame s (execLc h s) := by simp [execLc]

@[simp] theorem applyLossNotice_frame (p s) : sameBytes s (applyLossNotice p s) := by
  unfold applyLossNotice
  split <;> simp

@[simp] theorem execLossNotice_frame (h s) : outcomeSame s (execLossNotice h s) := by simp [execLossNotice]

@[simp] theorem applyReservedPacket_frame (h _p s) : sameBytes s (applyReservedPacket h _p s) := ⟨rfl, rfl⟩

@[simp] theorem execReservedPacket_frame (h s) : outcomeSame s (execReservedPacket h s) := by simp [execReservedPacket]

/-! ### Failures -/

@[simp] theorem failSystem_frame (s hit sub) : sameBytes s (failSystem s hit sub) := by simp [failSystem]

@[simp] theorem dieRecords_frame (s sock) : sameBytes s (dieRecords s sock) := by simp [dieRecords]

@[simp] theorem failGrid_frame (s sock g) : sameBytes s (failGrid s sock g) := by simp [failGrid]

@[simp] theorem failShard_frame (s sock) : sameBytes s (failShard s sock) :=
  foldl_from (s := s) (t := { s with shards := serase s.shards sock }) ⟨rfl, rfl⟩ (fun t q => by split <;> simp) _

@[simp] theorem failChiplet_frame (s sock) : sameBytes s (failChiplet s sock) := by simp [failChiplet]

@[simp] theorem failCompute_frame (s sock) : sameBytes s (failCompute s sock) := by simp [failCompute]

@[simp] theorem failSandbox_frame (s) : sameBytes s (failSandbox s) := by simp [failSandbox]

@[simp] theorem failService_frame (s) : sameBytes s (failService s) := ⟨rfl, rfl⟩

@[simp] theorem loseMaster_frame (s sock) : sameBytes s (loseMaster s sock) := by simp [loseMaster]

/-! ### Links -/

@[simp] theorem execLinkRetryTimeout_frame (h s) : outcomeSame s (execLinkRetryTimeout h s) := by
  unfold execLinkRetryTimeout
  dsimp only
  split <;> simp

@[simp] theorem sendNotice_frame (s h) : sameBytes s (sendNotice s h) := by
  unfold sendNotice
  split <;> simp

@[simp] theorem execColourDark_frame (h optical s) : outcomeSame s (execColourDark h optical s) := by
  unfold execColourDark
  dsimp only
  (repeat' split) <;> simp

@[simp] theorem startChange_frame (s old half) : sameBytes s (startChange s old half) := by
  unfold startChange
  split <;> simp

@[simp] theorem startRetest_frame (s i j v) : sameBytes s (startRetest s i j v) := by simp [startRetest]

@[simp] theorem writeRoute_frame (s i j v) : sameBytes s (writeRoute s i j v) := by simp [writeRoute]

@[simp] theorem execRouteWrite_frame (i j v s) : outcomeSame s (execRouteWrite i j v s) := by simp [execRouteWrite]

@[simp] theorem execRouteRetest_frame (i j v s) : outcomeSame s (execRouteRetest i j v s) := by simp [execRouteRetest]

@[simp] theorem relight_frame (s h) : sameBytes s (relight s h) := by simp [relight]

@[simp] theorem execRouteRetestDone_frame (i j okA okB s) : outcomeSame s (execRouteRetestDone i j okA okB s) := by
  unfold execRouteRetestDone
  (repeat' split) <;> simp

@[simp] theorem missExchange_frame (s sock c) : sameBytes s (missExchange s sock c) := by simp [missExchange]

/-! ### Shards -/

@[simp] theorem answerShard_frame (s sock q ans) : sameBytes s (answerShard s sock q ans) := by simp [answerShard]

@[simp] theorem endWalk_frame (s sock q prq e) : sameBytes s (endWalk s sock q prq e) := by
  unfold endWalk
  split <;> simp

@[simp] theorem setWalk_frame (s sock w) : sameBytes s (setWalk s sock w) := ⟨rfl, rfl⟩

@[simp] theorem dropWalk_frame (s sock id) : sameBytes s (dropWalk s sock id) := ⟨rfl, rfl⟩

@[simp] theorem sendWalk_frame (s sock id pa m) : sameBytes s (sendWalk s sock id pa m) := by simp [sendWalk]

@[simp] theorem finishWalk_frame (s sock w e) : sameBytes s (finishWalk s sock w e) := by simp [finishWalk]

@[simp] theorem driveWalk_frame (s sock w) : sameBytes s (driveWalk s sock w) := by
  unfold driveWalk
  split <;> simp

@[simp] theorem walkOn_frame (s sock w n) : sameBytes s (walkOn s sock w n) := by
  unfold walkOn
  split <;> simp

@[simp] theorem serveRequest_frame (s sock q) : sameBytes s (serveRequest s sock q) := by
  unfold serveRequest
  dsimp only
  (repeat' split) <;> simp

@[simp] theorem serveWaiting_frame (sock n s) : sameBytes s (serveWaiting sock n s) := by
  induction n generalizing s with
  | zero => exact ⟨rfl, rfl⟩
  | succ n ih => unfold serveWaiting; (repeat' split) <;> simp [ih]

@[simp] theorem applyTranslationRequest_frame (p s) : sameBytes s (applyTranslationRequest p s) := by
  unfold applyTranslationRequest
  split <;> simp

@[simp] theorem execTranslationRequest_frame (h s) : outcomeSame s (execTranslationRequest h s) := by simp [execTranslationRequest]

@[simp] theorem walkReply_frame (s sock w v bad) : sameBytes s (walkReply s sock w v bad) := by
  unfold walkReply
  (repeat' split) <;> simp

@[simp] theorem execWalkReferenceReply_frame (sock walk s) : outcomeSame s (execWalkReferenceReply sock walk s) := by
  unfold execWalkReferenceReply
  (repeat' split) <;> simp

@[simp] theorem accessCode_frame (s a) : sameBytes s (accessCode s a).1 := by
  unfold accessCode
  split <;> simp

@[simp] theorem execPageRequestPost_frame (sock s) : outcomeSame s (execPageRequestPost sock s) := by
  unfold execPageRequestPost
  dsimp only
  (repeat' split) <;> simp

@[simp] theorem execPrqRecordComplete_frame (ctx s) : outcomeSame s (execPrqRecordComplete ctx s) := by
  unfold execPrqRecordComplete
  (repeat' split) <;> simp

@[simp] theorem answerReq_frame (s p retry) : sameBytes s (answerReq s p retry) := by simp [answerReq]

@[simp] theorem writePrresp_frame (s ctx v) : sameBytes s (writePrresp s ctx v) := by
  unfold writePrresp
  (repeat' split) <;> simp

@[simp] theorem execPrrespRetry_frame (ctx v s) : outcomeSame s (execPrrespRetry ctx v s) := by simp [execPrrespRetry]

@[simp] theorem execPrrespRefuse_frame (ctx v s) : outcomeSame s (execPrrespRefuse ctx v s) := by simp [execPrrespRefuse]

@[simp] theorem dropCovered_frame (s i) : sameBytes s (dropCovered s i) := ⟨rfl, rfl⟩

@[simp] theorem writeXlatinv_frame (s v) : sameBytes s (writeXlatinv s v) := by simp [writeXlatinv]

@[simp] theorem execXlatinvRange_frame (v s) : outcomeSame s (execXlatinvRange v s) := by simp [execXlatinvRange]

@[simp] theorem execXlatinvContext_frame (v s) : outcomeSame s (execXlatinvContext v s) := by simp [execXlatinvContext]

@[simp] theorem execXlatinvAll_frame (v s) : outcomeSame s (execXlatinvAll v s) := by simp [execXlatinvAll]

@[simp] theorem execXlatinvComplete_frame (s) : outcomeSame s (execXlatinvComplete s) := by
  unfold execXlatinvComplete
  split <;> simp

/-! ### Upkeep -/

@[simp] theorem unpin_frame (s n hit) : sameBytes s (unpin s n hit) := by simp [unpin]

@[simp] theorem writePinctl_frame (s n v) : sameBytes s (writePinctl s n v) := by
  unfold writePinctl
  (repeat' split) <;> simp

@[simp] theorem execPinctlUnpinRange_frame (n v s) : outcomeSame s (execPinctlUnpinRange n v s) := by simp [execPinctlUnpinRange]

@[simp] theorem execPinctlUnpinAll_frame (n v s) : outcomeSame s (execPinctlUnpinAll n v s) := by simp [execPinctlUnpinAll]

@[simp] theorem execPinctlComplete_frame (n s) : outcomeSame s (execPinctlComplete n s) := by
  unfold execPinctlComplete
  split <;> simp

@[simp] theorem execScrubRead_frame (n s) : outcomeSame s (execScrubRead n s) := by
  unfold execScrubRead
  dsimp only
  split <;> simp

@[simp] theorem writeMemerr_frame (s n v) : sameBytes s (writeMemerr s n v) := by simp [writeMemerr]

@[simp] theorem execMemerrClear_frame (n v s) : outcomeSame s (execMemerrClear n v s) := by simp [execMemerrClear]

/-! ### HostLink -/

@[simp] theorem refuseHost_frame (s host pa) : sameBytes s (refuseHost s host pa) := by simp [refuseHost]

@[simp] theorem sendTx_frame (s src dst pa b) : sameBytes s (sendTx s src dst pa b) := by simp [sendTx]

@[simp] theorem beginHost_frame (s host pa n write body) : sameBytes s (beginHost s host pa n write body) := by simp [beginHost]

@[simp] theorem readHost_frame (s q) : sameBytes s (readHost s q) := by simp [readHost]

@[simp] theorem execHostMemRead_frame (q s) : outcomeSame s (execHostMemRead q s) := by
  unfold execHostMemRead
  split <;> simp

@[simp] theorem writeHost_frame (s q) : sameBytes s (writeHost s q) := by simp [writeHost]

@[simp] theorem execHostMemWrite_frame (q s) : outcomeSame s (execHostMemWrite q s) := by
  unfold execHostMemWrite
  split <;> simp

@[simp] theorem hostAnswer_frame (s id cells poison t) : sameBytes s (hostAnswer s id cells poison t) := by
  unfold hostAnswer
  split <;> simp

@[simp] theorem execHostWriteCompletion_frame (n s) : outcomeSame s (execHostWriteCompletion n s) := by
  unfold execHostWriteCompletion
  (repeat' split) <;> simp

@[simp] theorem snoopRange_frame (name s sock pa n) : outcomeSame s (snoopRange name s sock pa n) := by
  unfold snoopRange
  dsimp only
  split <;> simp

@[simp] theorem execHostLinkL0Change_frame (up s) : outcomeSame s (execHostLinkL0Change up s) := by
  unfold execHostLinkL0Change
  split <;> simp

@[simp] theorem writeHostcfg_frame (s v) : sameBytes s (writeHostcfg s v) := by simp [writeHostcfg]

@[simp] theorem execHostcfgRearm_frame (v s) : outcomeSame s (execHostcfgRearm v s) := by simp [execHostcfgRearm]

@[simp] theorem writeHidstat_frame (s v) : sameBytes s (writeHidstat s v) := by simp [writeHidstat]

@[simp] theorem execHidstatClear_frame (v s) : outcomeSame s (execHidstatClear v s) := by simp [execHidstatClear]

@[simp] theorem systemHart_frame (s p r id h pa op) : sameBytes s (systemHart s p r id h pa op) := by simp [systemHart]

@[simp] theorem systemAnswer_frame (s p r) : sameBytes s (systemAnswer s p r) := by
  unfold systemAnswer
  dsimp only
  (repeat' split) <;> simp

@[simp] theorem execSystemRangeReply_frame (n r s) : outcomeSame s (execSystemRangeReply n r s) := by
  unfold execSystemRangeReply
  (repeat' split) <;> simp

@[simp] theorem setLinkState_frame (s port st) : sameBytes s (setLinkState s port st) := by simp [setLinkState]

@[simp] theorem execScaleupLinkState_frame (port st s) : outcomeSame s (execScaleupLinkState port st s) := by
  unfold execScaleupLinkState
  split <;> simp

@[simp] theorem execScaleupRecoveryTimeout_frame (port s) : outcomeSame s (execScaleupRecoveryTimeout port s) := by
  unfold execScaleupRecoveryTimeout
  split <;> simp

@[simp] theorem execPacePeriodEnd_frame (s) : outcomeSame s (execPacePeriodEnd s) := by
  unfold execPacePeriodEnd
  (repeat' split) <;> simp

@[simp] theorem execLagWordReceive_frame (lag s) : outcomeSame s (execLagWordReceive lag s) := by simp [execLagWordReceive]

@[simp] theorem writePacecfg_frame (s v) : sameBytes s (writePacecfg s v) := by simp [writePacecfg]

@[simp] theorem execPacecfgWrite_frame (v s) : outcomeSame s (execPacecfgWrite v s) := by simp [execPacecfgWrite]

/-! ### Power -/

@[simp] theorem execShelfSample_frame (f v good s) : outcomeSame s (execShelfSample f v good s) := by
  unfold execShelfSample
  split <;> simp

@[simp] theorem execTelemetryStale_frame (s) : outcomeSame s (execTelemetryStale s) := by
  unfold execTelemetryStale
  split <;> simp

@[simp] theorem setCurveRun_frame (s k r) : sameBytes s (setCurveRun s k r) := ⟨rfl, rfl⟩

@[simp] theorem writeCurve_frame (s k v) : sameBytes s (writeCurve s k v) := by simp [writeCurve]

@[simp] theorem execDroopCurveWrite_frame (k v s) : outcomeSame s (execDroopCurveWrite k v s) := by simp [execDroopCurveWrite]

@[simp] theorem evaluateCurve_frame (s now) : sameBytes s (evaluateCurve s now) := by simp [evaluateCurve]

@[simp] theorem refreshComplete_frame (s) : sameBytes s (refreshComplete s) := by simp [refreshComplete]

@[simp] theorem releaseParked_frame (s hit) : sameBytes s (releaseParked s hit) := by simp [releaseParked]

@[simp] theorem shedAndRestore_frame (before s now) : sameBytes s (shedAndRestore before s now) := by
  have hfold : ∀ f : State → Nat → State, (∀ t c, sameBytes t (f t c)) → sameBytes s ([1, 2, 3].foldl f s) :=
    fun f hf => foldl_same hf _ s
  unfold shedAndRestore
  extract_lets was s1
  have hs : sameBytes s s1 := hfold _ fun t c => by (repeat' split) <;> simp
  exact ite_same (hs.trans (releaseParked_frame ..)) hs

@[simp] theorem execShedSafeDeadline_frame (s) : outcomeSame s (execShedSafeDeadline s) := by
  unfold execShedSafeDeadline
  split <;> simp

@[simp] theorem showHalved_frame (s c) : sameBytes s (showHalved s c) := ⟨rfl, rfl⟩

@[simp] theorem setBalance_frame (s c load ballast throttled) : sameBytes s (setBalance s c load ballast throttled) := by simp [setBalance]

@[simp] theorem balancePair_frame (s loads p) : sameBytes s (balancePair s loads p) := by simp [balancePair]

@[simp] theorem grantPair_frame (s p) : sameBytes s (grantPair s p) := by simp [grantPair]

@[simp] theorem forRange_frame (n f s) (hf : ∀ t a, sameBytes t (f t a)) : sameBytes s (forRange n f s) := by
  unfold forRange
  simp_all

@[simp] theorem atBoundary_frame (s0 loads) : sameBytes s0 (atBoundary s0 loads) := by simp [atBoundary]

@[simp] theorem execControlIntervalBoundary_frame (loads s) : outcomeSame s (execControlIntervalBoundary loads s) := by
  unfold execControlIntervalBoundary
  split <;> simp

@[simp] theorem execDroopDetect_frame (cluster s) : outcomeSame s (execDroopDetect cluster s) := by
  unfold execDroopDetect
  split <;> simp

@[simp] theorem execDroopHoldExpiry_frame (cluster s) : outcomeSame s (execDroopHoldExpiry cluster s) := by
  unfold execDroopHoldExpiry
  (repeat' split) <;> simp

/-! ### Preempt -/

@[simp] theorem readLive_frame (s a) : sameBytes s (readLive s a) := by
  unfold readLive
  dsimp only
  (repeat' split) <;> simp

@[simp] theorem beginRelease_frame (s a) : sameBytes s (beginRelease s a) := by
  unfold beginRelease
  split <;> simp

@[simp] theorem saveAgent_frame (s k) : sameBytes s (saveAgent s k).1 := by
  unfold saveAgent
  dsimp only
  (repeat' split) <;> simp

@[simp] theorem saveTeam_frame (s t) : sameBytes s (saveTeam s t).1 := foldl_fst_same (fun _ _ => by simp) _ (s, [])

@[simp] theorem takeOut_frame (s q base emergency) : sameBytes s (takeOut s q base emergency) := by
  unfold takeOut
  extract_lets gs ids ts
  have hsaved : sameBytes s (ts.foldl (fun (acc : State × List Agent) t => let (s, l) := saveTeam acc.1 t; (s, acc.2 ++ l)) (s, [])).1 := by
    refine foldl_fst_same (fun acc t => ?_) ts (s, [])
    exact saveTeam_frame acc.1 t
  generalize ts.foldl _ (s, []) = x at hsaved ⊢
  obtain ⟨s1, ags⟩ := x
  dsimp only
  refine foldl_from ?_ refreshBusy_frame _
  simpa using hsaved

@[simp] theorem areaBytes_frame (s n) : sameBytes s (areaBytes s n).2 := by simp [areaBytes]

@[simp] theorem finishSave_frame (s q) : sameBytes s (finishSave s q) := by simp [finishSave]

@[simp] theorem writeSave_frame (s q) : sameBytes s (writeSave s q) := by simp [writeSave]

@[simp] theorem goOnSave_frame (s q) : sameBytes s (goOnSave s q) := by simp [goOnSave]

@[simp] theorem thermalRecord_frame (s domain queue gridid terminated tag) :
    sameBytes s (thermalRecord s domain queue gridid terminated tag) := by simp [thermalRecord]

@[simp] theorem emWrite_frame (s off bs) : sameBytes s (emWrite s off bs) := by simp [emWrite]

@[simp] theorem finishEmergency_frame (s q) : sameBytes s (finishEmergency s q) := by
  unfold finishEmergency
  split <;> simp

@[simp] theorem settleSaves_frame (s) : sameBytes s (settleSaves s) := by
  unfold settleSaves
  dsimp only
  (repeat' split) <;> simp

@[simp] theorem markDrained_frame (s marks) : sameBytes s (markDrained s marks) := by simp [markDrained]

@[simp] theorem preemptErr_frame (s) : sameBytes s (preemptErr s) := ⟨rfl, rfl⟩

@[simp] theorem startSave_frame (s q) : sameBytes s (startSave s q) := by simp [startSave]

@[simp] theorem settleResume_frame (s q em) : sameBytes s (settleResume s q em) := by
  unfold settleResume
  split <;> simp

@[simp] theorem startResume_frame (s q em) : sameBytes s (startResume s q em) := by
  unfold startResume
  dsimp only
  (repeat' split) <;> simp

@[simp] theorem cancelSave_frame (s) : sameBytes s (cancelSave s) := by
  unfold cancelSave
  split <;> simp

@[simp] theorem writePreempt_frame (s v) : sameBytes s (writePreempt s v) := by simp [writePreempt]

@[simp] theorem execPreemptSave_frame (v s) : outcomeSame s (execPreemptSave v s) := by simp [execPreemptSave]

@[simp] theorem execPreemptResume_frame (v s) : outcomeSame s (execPreemptResume v s) := by simp [execPreemptResume]

@[simp] theorem execPreemptCancel_frame (v s) : outcomeSame s (execPreemptCancel v s) := by simp [execPreemptCancel]

@[simp] theorem execTeamSave_frame (grid s) : outcomeSame s (execTeamSave grid s) := by
  unfold execTeamSave
  dsimp only
  (repeat' split) <;> simp

@[simp] theorem restoreTeam_frame (s a t core) : sameBytes s (restoreTeam s a t core) := by simp [restoreTeam]

@[simp] theorem restoreTeams_frame (a g ts s) : optSame s (restoreTeams a g ts s) := by
  induction ts generalizing s with
  | nil => exact ⟨rfl, rfl⟩
  | cons p r ih =>
    have hr := ih (restoreTeam s a p.1 p.2)
    unfold restoreTeams
    split
    · cases h : restoreTeams a g r (restoreTeam s a p.1 p.2) <;> simp_all
    · trivial

@[simp] theorem dropSaved_frame (s q em uids) : sameBytes s (dropSaved s q em uids) := by simp [dropSaved]

@[simp] theorem digestMatches_frame (s a q) : sameBytes s (digestMatches s a q).2 := by
  unfold digestMatches
  split <;> simp

@[simp] theorem badSave_frame (s g q) : sameBytes s (badSave s g q) := by simp [badSave]

/-- The saved area's length is generalized, so that it is not computed. -/
@[simp] theorem execTeamRestore_frame (grid cores s) : outcomeSame s (execTeamRestore grid cores s) := by
  unfold execTeamRestore
  extract_lets q em
  split
  · rename_i g a _ _
    generalize 32 + leNat (homeBytes s (ctxBase s q + 32) 8) % 2 ^ 32 = n
    extract_lets ts uids
    refine outcome_ite trivial ?_
    refine outcome_ite (dropSaved_frame ..) ?_
    refine outcome_ite (snoopRange_frame _ s _ _ _) ?_
    have hd : sameBytes s (digestMatches s a q).2 := digestMatches_frame ..
    generalize digestMatches s a q = d at hd ⊢
    obtain ⟨fine, s1⟩ := d
    replace hd : sameBytes s s1 := hd
    refine outcome_ite (hd.trans ((badSave_frame s1 g q).trans (dropSaved_frame ..))) ?_
    refine outcome_ite trivial ?_
    have hr := restoreTeams_frame a g (ts.zip cores) s1
    generalize restoreTeams a g (ts.zip cores) s1 = o at hr ⊢
    cases o with
    | some s2 => exact hd.trans (sameBytes.trans hr (dropSaved_frame ..))
    | none => trivial
  · trivial

@[simp] theorem execWatchdogExpiry_frame (k s) : outcomeSame s (execWatchdogExpiry k s) := by
  unfold execWatchdogExpiry
  (repeat' split) <;> simp

@[simp] theorem beginEmergency_frame (s) : sameBytes s (beginEmergency s) := by
  unfold beginEmergency
  dsimp only
  split <;> simp

@[simp] theorem execThermalReport_frame (sock deg s) : outcomeSame s (execThermalReport sock deg s) := by
  unfold execThermalReport
  (repeat' split) <;> simp

@[simp] theorem powerDownCompute_frame (s) : sameBytes s (powerDownCompute s) := ⟨rfl, rfl⟩

@[simp] theorem execEmergencySaveComplete_frame (s) : outcomeSame s (execEmergencySaveComplete s) := by
  unfold execEmergencySaveComplete
  (repeat' split) <;> simp

end Sys2Proof.Machine
end

