-- ==== Sys2Proof/Proofs/FrameService.lean ====
section
/-! Scans, harts, boot and the machine's own moves: their steps change no byte of memory. -/

namespace Sys2Proof.Machine

-- one declaration at a time: a thread for each would be too many
set_option Elab.async false

/-! ### Scan -/

@[simp] theorem writeDomain_frame (s r v) : sameBytes s (writeDomain s r v) := by simp [writeDomain]

@[simp] theorem writeCoreDom_frame (s g v) : sameBytes s (writeCoreDom s g v) := by simp [writeCoreDom]

@[simp] theorem execCoreDomWrite_frame (g v s) : outcomeSame s (execCoreDomWrite g v s) := by simp [execCoreDomWrite]

@[simp] theorem dropHart_frame (s h) : sameBytes s (dropHart s h) := ⟨rfl, rfl⟩

@[simp] theorem writeSbxDom_frame (s h v) : sameBytes s (writeSbxDom s h v) := by simp [writeSbxDom]

@[simp] theorem writeFltbase_frame (s d v) : sameBytes s (writeFltbase s d v) := by
  unfold writeFltbase
  dsimp only
  (repeat' split) <;> simp

@[simp] theorem execFltbaseWrite_frame (d v s) : outcomeSame s (execFltbaseWrite d v s) := by simp [execFltbaseWrite]

@[simp] theorem setDrain_frame (s sock b) : sameBytes s (setDrain s sock b) := foldl_same (fun _ _ => by simp) _ s

@[simp] theorem setScanCommand_frame (s c) : sameBytes s (setScanCommand s c) := ⟨rfl, rfl⟩

/-- The command is generalized: nothing is to be computed from the written value. -/
@[simp] theorem writeScanctl_frame (s v) : sameBytes s (writeScanctl s v) := by
  unfold writeScanctl
  refine ite_same ⟨rfl, rfl⟩ ?_
  extract_lets s1 sock begin
  have hput : sameBytes s s1 := ⟨rfl, rfl⟩
  have hbegin : ∀ t c, sameBytes t (begin t c) := fun t c => ⟨rfl, rfl⟩
  clear_value s1 sock begin
  generalize fld v 63 62 = c
  refine ite_same hput ?_
  split
  · exact hput.trans ((setDrain_frame ..).trans (hbegin ..))
  · exact ite_same (hput.trans (sameBytes.trans (by simp) (hbegin ..))) hput
  · exact ite_same hput (hput.trans (setDrain_frame ..))
  · exact hput

@[simp] theorem execScanDrain_frame (v s) : outcomeSame s (execScanDrain v s) := by simp [execScanDrain]

@[simp] theorem execScanRun_frame (v s) : outcomeSame s (execScanRun v s) := by simp [execScanRun]

@[simp] theorem execScanRelease_frame (v s) : outcomeSame s (execScanRelease v s) := by simp [execScanRelease]

@[simp] theorem execScanDrainComplete_frame (s) : outcomeSame s (execScanDrainComplete s) := by
  unfold execScanDrainComplete
  split <;> simp

@[simp] theorem extendMeas_frame (s j digest) : sameBytes s (extendMeas s j digest) := ⟨rfl, rfl⟩

@[simp] theorem zeroSocket_frame (s sock) : sameBytes s (zeroSocket s sock) := ⟨rfl, rfl⟩

@[simp] theorem execScanRunComplete_frame (s) : outcomeSame s (execScanRunComplete s) := by
  unfold execScanRunComplete
  dsimp only
  (repeat' split) <;> simp

@[simp] theorem writeRegister_frame (s r v) : sameBytes s (writeRegister s r v) := by
  unfold writeRegister
  split <;> simp

@[simp] theorem execRegisterWrite_frame (r v s) : outcomeSame s (execRegisterWrite r v s) := by simp [execRegisterWrite]

/-! ### Harts -/

@[simp] theorem updHart_frame (s h f) : sameBytes s (updHart s h f) := ⟨rfl, rfl⟩

@[simp] theorem trapHart_frame (s h code pc) : sameBytes s (trapHart s h code pc) := by simp [trapHart]

@[simp] theorem releaseHart_frame (s h) : sameBytes s (releaseHart s h) := by simp [releaseHart]

@[simp] theorem sbxInstall_frame (s h line expiry cells) : sameBytes s (sbxInstall s h line expiry cells) := by simp [sbxInstall]

@[simp] theorem endHart_frame (s o) : sameBytes s (endHart s o) := by
  unfold endHart
  (repeat' split) <;> simp

@[simp] theorem hartPart_frame (s id cells bad) : sameBytes s (hartPart s id cells bad) := by
  unfold hartPart
  split <;> simp

@[simp] theorem sendHartPart_frame (s o p) : sameBytes s (sendHartPart s o p) := by
  unfold sendHartPart
  extract_lets waits hit
  split
  · exact hartPart_frame ..
  · exact (ite_same (updHart_frame ..) ⟨rfl, rfl⟩ : sameBytes s (if o.op.writes then _ else s)).trans (sendTx_frame ..)
  · exact hartPart_frame ..

@[simp] theorem startHart_frame (s h pa op rd signed pc) : sameBytes s (startHart s h pa op rd signed pc) := by
  unfold startHart
  extract_lets own
  exact ite_same ⟨rfl, rfl⟩ (foldl_from ⟨rfl, rfl⟩ (fun t p => sendHartPart_frame t _ p) _)

@[simp] theorem hartAccess_frame (s h pa op rd signed pc) : sameBytes s (hartAccess s h pa op rd signed pc) := by
  unfold hartAccess
  (repeat' split) <;> simp

@[simp] theorem hartPlain_frame (s h pa op) : sameBytes s (hartPlain s h pa op) := by simp [hartPlain]

@[simp] theorem hartAtomic_frame (s h pa op go) (hgo : ∀ t, sameBytes t (go t)) : sameBytes s (hartAtomic s h pa op go) := by
  grind [hartAtomic, trapHart_frame, updHart_frame]

@[simp] theorem hartRun_frame (s h st) : sameBytes s (hartRun s h st) := by simp [hartRun]

@[simp] theorem execHartFence_frame (hart predW succR s) : outcomeSame s (execHartFence hart predW succR s) := by
  unfold execHartFence
  split <;> simp

@[simp] theorem hartLine_frame (s h pa expiry cells) : sameBytes s (hartLine s h pa expiry cells) := by simp [hartLine]

@[simp] theorem hartAnswer_frame (s id h pa v bad cells expiry) : sameBytes s (hartAnswer s id h pa v bad cells expiry) := by
  unfold hartAnswer
  (repeat' split) <;> simp

@[simp] theorem applyTx_frame (p s) : sameBytes s (applyTx p s) := by
  unfold applyTx
  split <;> simp

@[simp] theorem sendAmo_frame (s h pa op) : sameBytes s (sendAmo s h pa op) := by simp [sendAmo]

@[simp] theorem execHartAmo_frame (hart q s) : outcomeSame s (execHartAmo hart q s) := by
  unfold execHartAmo
  dsimp only
  split <;> simp

@[simp] theorem settleHarts_frame (s) : sameBytes s (settleHarts s) := foldl_same (fun t e => by (repeat' split) <;> simp) _ s

@[simp] theorem execHartLr_frame (hart pa w64 s) : outcomeSame s (execHartLr hart pa w64 s) := by
  unfold execHartLr
  split <;> simp

@[simp] theorem execHartSc_frame (hart pa w64 v s) : outcomeSame s (execHartSc hart pa w64 v s) := by
  unfold execHartSc
  split
  · trivial
  · exact hartAtomic_frame _ _ _ _ _ fun t => ite_same (updHart_frame ..) (hartAccess_frame ..)

@[simp] theorem execHartFenceI_frame (hart s) : outcomeSame s (execHartFenceI hart s) := by
  unfold execHartFenceI
  split <;> simp

@[simp] theorem execMgmtAssign_frame (kind n domain s) : outcomeSame s (execMgmtAssign kind n domain s) := by
  unfold execMgmtAssign
  (repeat' split) <;> simp

@[simp] theorem execMgmtDebugEnable_frame (domain s) : outcomeSame s (execMgmtDebugEnable domain s) := by simp [execMgmtDebugEnable]

@[simp] theorem execMgmtDebugDisable_frame (domain s) : outcomeSame s (execMgmtDebugDisable domain s) := by
  unfold execMgmtDebugDisable
  split <;> simp

@[simp] theorem execDomainReset_frame (domain s) : outcomeSame s (execDomainReset domain s) := by simp [execDomainReset]

@[simp] theorem execFirmwareUpdate_frame (image bytes s) : outcomeSame s (execFirmwareUpdate image bytes s) := by simp [execFirmwareUpdate]

@[simp] theorem execAttestationRequest_frame (nonce s) : outcomeSame s (execAttestationRequest nonce s) := by
  unfold execAttestationRequest
  split <;> simp

/-! ### Boot -/

@[simp] theorem execStandbyPowerLoss_frame (s) : outcomeSame s (execStandbyPowerLoss s) := by simp [execStandbyPowerLoss]

@[simp] theorem execSocketPowerUp_frame (sock s) : outcomeSame s (execSocketPowerUp sock s) := by
  unfold execSocketPowerUp
  split <;> simp

@[simp] theorem measureImages_frame (s ims) : sameBytes s (measureImages s ims).1 := by
  induction ims generalizing s with
  | nil => exact ⟨rfl, rfl⟩
  | cons e r ih => unfold measureImages; dsimp only; split <;> simp [ih]

theorem bootRegisters_frame (s w n) : sameBytes s (regSet (regPut s .pkgcfg w) .timeskew 7 0 n) := by simp

/-- The states on the way are made opaque, so that no digest is computed. -/
@[simp] theorem execMeasuredBoot_frame (b s) : outcomeSame s (execMeasuredBoot b s) := by
  unfold execMeasuredBoot
  extract_lets images updated live
  clear_value updated images live
  refine outcome_ite trivial ?_
  have hm : sameBytes s _ :=
    measureImages_frame { s with firmware := images.map (·.bytes) } [(0, b.service), (1, b.compute), (2, b.memory), (3, b.sandbox)]
  generalize measureImages _ _ = m at hm ⊢
  obtain ⟨s1, sound⟩ := m
  refine outcome_ite hm ?_
  extract_lets s2 record s3
  have hput : sameBytes s s2 := sameBytes.trans (t := s1) hm (bootRegisters_frame s1 _ _)
  have hmeas : sameBytes s s3 := sameBytes.trans (t := s2) hput (extendMeas_frame s2 4 (sha3 record))
  clear_value s3
  obtain ⟨hmem, hslice⟩ := hmeas
  cases s3
  exact ⟨hmem, hslice⟩

@[simp] theorem execChipletRelease_frame (sock s) : outcomeSame s (execChipletRelease sock s) := by
  unfold execChipletRelease
  split <;> simp

/-! ### Auto -/

@[simp] theorem noteIssue_frame (s t a) : sameBytes s (noteIssue s t a) := ⟨rfl, rfl⟩

@[simp] theorem landWhole_frame (s k n v) : sameBytes s (landWhole s k n v) := by
  unfold landWhole
  split <;> simp

@[simp] theorem runLand_frame (s k n) : sameBytes s (runLand s k n) := by
  unfold runLand
  dsimp only
  (repeat' split) <;> simp

@[simp] theorem passMarkers_frame (s ks cycle) : sameBytes s (passMarkers s ks cycle) :=
  foldl_same (fun t k => by
    split
    · exact ite_same (getD_same (passMarker_frame t k) ⟨rfl, rfl⟩) ⟨rfl, rfl⟩
    · exact ⟨rfl, rfl⟩) ks s

@[simp] theorem damageWire_frame (s h mask) : sameBytes s (damageWire s h mask) := by simp [damageWire]

@[simp] theorem damageSlice_frame (s sector) : sameBytes s (damageSlice s sector) := by simp [damageSlice]

@[simp] theorem readEarly_frame (s core job off ahead) : sameBytes s (readEarly s core job off ahead) := by
  unfold readEarly
  (repeat' split) <;> simp

@[simp] theorem mmaEarly_frame (s k off) : sameBytes s (mmaEarly s k off) := by
  unfold mmaEarly
  split <;> simp

@[simp] theorem queueCommand_frame (s cmd) : sameBytes s (queueCommand s cmd) := by simp [queueCommand]

@[simp] theorem runBank_frame (s team n) : sameBytes s (runBank s team n) := by
  unfold runBank
  split <;> simp

end Sys2Proof.Machine
end

