-- ==== Sys2Proof/Proofs/KeepsMemory.lean ====
section
/-! Every step keeps the memories in their canonical form (log entry 1). Bytes change at the home slices alone: where a request is applied, and where a
slice or the host is lost. -/

namespace Sys2Proof.Machine

-- one declaration at a time: a thread for each would be too many
set_option Elab.async false

/-- What holds the bytes of a state in canonical form is in canonical form. -/
theorem sameBytes.wf {s t : State} (h : sameBytes s t) (hs : s.memoriesWf = true) : t.memoriesWf = true := memoriesWf_of_eq h.1 h.2 hs

/-- What an outcome goes on with has its memories in canonical form. -/
def outcomeKeeps : Result → Prop
  | .next t => t.memoriesWf = true
  | .fault _ => True
  | .refused _ => True

theorem outcomeSame.wf {s : State} {r : Result} (h : outcomeSame s r) (hs : s.memoriesWf = true) : outcomeKeeps r := by
  cases r with
  | next t => exact sameBytes.wf h hs
  | fault f => trivial
  | refused r => trivial

theorem outcome_keeps_ite {c : Prop} [Decidable c] {a b : Result} (ha : outcomeKeeps a) (hb : outcomeKeeps b) : outcomeKeeps (if c then a else b) := by
  split <;> assumption

theorem ite_snd_keeps {c : Prop} [Decidable c] {α : Type} {x y : α × State} (hx : x.2.memoriesWf = true) (hy : y.2.memoriesWf = true) :
    (if c then x else y).2.memoriesWf = true := by
  split <;> assumption

theorem foldl_wf {α : Type} {f : State → α → State} (hf : ∀ t a, t.memoriesWf = true → (f t a).memoriesWf = true) (l : List α) {s : State}
    (hs : s.memoriesWf = true) : (l.foldl f s).memoriesWf = true := foldl_keeps (P := fun t : State => t.memoriesWf = true) hf l hs

theorem swf_filter {V : Type} [DecidableEq V] {d : V} {m : Sparse V} (p : Nat × V → Bool) (h : swf d m = true) : swf d (m.filter p) = true := by
  simp only [swf, Bool.and_eq_true, List.all_eq_true, srising_iff] at h ⊢
  exact ⟨h.1.sublist List.filter_sublist, fun e he => h.2 e (List.mem_of_mem_filter he)⟩

theorem wf_filter {m : Memory} (p : Nat × Byte → Bool) (h : Memory.wf m = true) : Memory.wf (m.filter p) = true := swf_filter p h

/-! Requests applied at their homes -/

variable {s : State}

theorem prepare_keeps (attr : BitVec 2) (pa n : Nat) (hs : s.memoriesWf = true) : (prepare s attr pa n).memoriesWf = true :=
  ite_keeps hs (homePrepare_keeps attr pa n hs)

theorem applyRead_keeps (p : Packet) (reqs : List LaneAcc) (lease : Bool) (hs : s.memoriesWf = true) :
    (applyRead s p reqs lease).memoriesWf = true := by
  have hp := foldl_wf (fun t (r : LaneAcc) ht => prepare_keeps p.attr r.pa r.size ht) reqs hs
  exact (answer_frame ..).wf (ite_snd_keeps (c := lease = true) ((grantLease_frame ..).wf hp) hp)

theorem applyWrite_keeps (p : Packet) (cells : List Host.Cell) (check : Option (BitVec 32)) (poisoned : Bool) (hs : s.memoriesWf = true) :
    (applyWrite_ s p cells check poisoned).memoriesWf = true := by
  unfold applyWrite_
  exact ite_keeps ((answer_frame ..).wf hs) ((answer_frame ..).wf ((noteWrite_frame ..).wf (homeWrite_keeps p.attr cells p.src p.who poisoned hs)))

theorem homeAtomic_keeps (p : Packet) (op : Nat) (w64 : Bool) (r : LaneAcc) (hs : s.memoriesWf = true) :
    (homeAtomic s p op w64 r).1.memoriesWf = true := by
  have hp := prepare_keeps p.attr r.pa (if w64 then 8 else 4) hs
  unfold homeAtomic
  extract_lets n s1 v
  split
  · exact hp
  · split
    · exact homeWrite_keeps _ _ _ _ _ hp
    · exact hp

theorem applyAtomics_keeps (p : Packet) (op : BitVec 5) (w64 : Bool) (reqs : List LaneAcc) (returns : Bool) (hs : s.memoriesWf = true) :
    (applyAtomics s p op w64 reqs returns).memoriesWf = true := by
  have hf : ∀ (acc : State × List LaneVal) (r : LaneAcc), acc.1.memoriesWf = true →
      (let (t, v) := homeAtomic acc.1 p op.toNat w64 r; ((t, acc.2 ++ [v]) : State × List LaneVal)).1.memoriesWf = true :=
    fun acc r ht => homeAtomic_keeps p op.toNat w64 r ht
  have hall := foldl_keeps (P := fun acc : State × List LaneVal => acc.1.memoriesWf = true) hf reqs (b := (s, [])) hs
  exact (answer_frame ..).wf (ite_snd_keeps ((noteWrite_frame ..).wf hall) hall)

theorem applyHart_keeps (p : Packet) (id h pa : Nat) (op : HartOp) (hs : s.memoriesWf = true) : (applyHart s p id h pa op).memoriesWf = true := by
  have hstore : ∀ (t : State) (n x : Nat), t.memoriesWf = true →
      (noteWrite (homeWrite t 1 (cellsAt pa (leBytes n x)) p.src (.hart h) false) p).2.memoriesWf = true :=
    fun t n x ht => (noteWrite_frame ..).wf (homeWrite_keeps _ _ _ _ _ ht)
  have hres : ∀ (t : State) l, t.memoriesWf = true → { t with reservations := l }.memoriesWf = true := fun t l ht => memoriesWf_of_eq rfl rfl ht
  cases op with
  | load n => exact (answer_frame ..).wf ((grantLease_frame ..).wf (prepare_keeps _ _ _ hs))
  | fetch => exact (answer_frame ..).wf (prepare_keeps _ _ _ hs)
  | store n v => exact (answer_frame ..).wf (hstore _ _ _ hs)
  | lr w64 => exact (answer_frame ..).wf (hres _ _ (prepare_keeps _ _ _ hs))
  | sc w64 v => exact ite_keeps ((answer_frame ..).wf (hstore _ _ _ (hres _ _ hs))) ((answer_frame ..).wf (hres _ _ hs))
  | amo o w64 q v =>
    have hp := prepare_keeps 1 pa (if w64 then 8 else 4) hs
    refine ite_keeps ((answer_frame ..).wf hp) ?_
    split
    · exact (answer_frame ..).wf (hstore _ _ _ hp)
    · exact (answer_frame ..).wf hp

theorem applyTxHome_keeps (p : Packet) (b : TxBody) (hs : s.memoriesWf = true) : (applyTxHome s p b).memoriesWf = true := by
  unfold applyTxHome
  split
  · refine (answer_frame ..).wf ?_
    exact ite_keeps (memoriesWf_of_eq rfl rfl (prepare_keeps _ _ _ hs)) (prepare_keeps _ _ _ hs)
  · exact (answer_frame ..).wf ((noteWrite_frame ..).wf (homeWrite_keeps _ _ _ _ _ hs))
  · exact applyHart_keeps _ _ _ _ _ hs
  · exact hs

/-- A request at its home slice keeps the form (R8, R15). -/
theorem applyHome_keeps (p : Packet) (hs : s.memoriesWf = true) : (applyHome s p).memoriesWf = true := by
  unfold applyHome
  split
  · exact applyRead_keeps _ _ _ hs
  · exact applyWrite_keeps _ _ _ _ hs
  · exact applyAtomics_keeps _ _ _ _ _ hs
  · exact ite_keeps ((answer_frame ..).wf (prepare_keeps _ _ _ hs)) ((forwardElement_frame ..).wf (prepare_keeps _ _ _ hs))
  · exact (answer_frame ..).wf (prepare_keeps _ _ _ hs)
  · exact ite_keeps hs (writeBackLine_keeps _ hs)
  · exact applyTxHome_keeps _ _ hs
  · exact hs

/-! Slices and the packets that reach them -/

theorem serveNext_keeps (a : Arrival) {f : State → Nat → State} (m : Msg) (hf : ∀ t n, t.memoriesWf = true → (f t n).memoriesWf = true)
    (hs : s.memoriesWf = true) : (serveNext s a f m).memoriesWf = true := by
  unfold serveNext
  split
  · exact (answer_frame ..).wf hs
  · exact ite_keeps ((answer_frame ..).wf (hf _ _ hs)) (memoriesWf_of_eq rfl rfl (hf _ _ hs))

theorem serveArrival_keeps (a : Arrival) (hs : s.memoriesWf = true) : (serveArrival s a).memoriesWf = true := by
  have hrest : { s with inbox := s.inbox.erase a }.memoriesWf = true := memoriesWf_of_eq rfl rfl hs
  unfold serveArrival
  extract_lets p rest
  split
  · exact ite_keeps ((beginSnoop_frame ..).wf hs) (serveNext_keeps _ _ (fun t n ht => homePrepare_keeps _ _ _ ht) hs)
  · exact ite_keeps ((beginSnoop_frame ..).wf hs) (serveNext_keeps _ _ (fun t n ht => memoriesWf_of_eq rfl rfl ht) hs)
  · exact (answerMarker_frame ..).wf hrest
  · exact ite_keeps ((rejectHere_frame ..).wf hrest) (ite_keeps ((awaitSnoop_frame ..).wf hrest) (applyHome_keeps _ hrest))

theorem serveInbox_keeps (m : String) (h : Hop) (kind : Msg → Bool) (hs : s.memoriesWf = true) : outcomeKeeps (serveInbox m s h kind) := by
  unfold serveInbox
  split
  · trivial
  · simp only [pick]
    split
    · exact serveArrival_keeps _ (memoriesWf_of_eq rfl rfl hs)
    · trivial

/-- A step of one kind of request keeps the form: a target takes the packet without a change of memory, and a slice applies what it has accepted. -/
theorem onRequest_keeps (m : String) (h : Hop) (kind : Msg → Bool) {f : Packet → State → State} (hf : ∀ p t, sameBytes t (f p t))
    (hs : s.memoriesWf = true) : outcomeKeeps (onRequest m s h kind f) := by
  unfold onRequest
  split
  · refine outcome_keeps_ite trivial (outcomeSame.wf (onPacket_frame _ _ _ _ fun p t => ?_) hs)
    exact ite_same (acceptArrival_frame ..) (hf p t)
  · exact serveInbox_keeps _ _ _ hs

theorem execRd_keeps (h : Hop) (hs : s.memoriesWf = true) : outcomeKeeps (execRd h s) := onRequest_keeps _ _ _ (fun _ _ => applyRequest_frame ..) hs
theorem execWr_keeps (h : Hop) (hs : s.memoriesWf = true) : outcomeKeeps (execWr h s) := onRequest_keeps _ _ _ (fun _ _ => applyRequest_frame ..) hs
theorem execAtPkt_keeps (h : Hop) (hs : s.memoriesWf = true) : outcomeKeeps (execAtPkt h s) :=
  onRequest_keeps _ _ _ (fun _ _ => applyRequest_frame ..) hs
theorem execLx_keeps (h : Hop) (hs : s.memoriesWf = true) : outcomeKeeps (execLx h s) := onRequest_keeps _ _ _ (fun _ _ => applyRequest_frame ..) hs
theorem execPf_keeps (h : Hop) (hs : s.memoriesWf = true) : outcomeKeeps (execPf h s) := onRequest_keeps _ _ _ answerEmpty_frame hs
theorem execIcinvCommit_keeps (h : Hop) (hs : s.memoriesWf = true) : outcomeKeeps (execIcinvCommit h s) := onRequest_keeps _ _ _ answerEmpty_frame hs

theorem execFm_keeps (h : Hop) (hs : s.memoriesWf = true) : outcomeKeeps (execFm h s) := by
  unfold execFm
  split
  · exact (answerMarker_frame ..).wf (memoriesWf_of_eq rfl rfl hs)
  · exact onRequest_keeps _ _ _ (fun p t => ite_same ⟨rfl, rfl⟩ (answerMarker_frame ..)) hs

theorem execTx_keeps (h : Hop) (hs : s.memoriesWf = true) : outcomeKeeps (execTx h s) := by
  unfold execTx
  split
  · refine outcome_keeps_ite trivial (outcomeSame.wf (onPacket_frame _ _ _ _ fun p t => ?_) hs)
    exact ite_same (acceptArrival_frame ..) (applyTx_frame ..)
  · exact serveInbox_keeps _ _ _ hs

/-! Loss of the host and failures of dies -/

theorem poisonLine_keeps (line : Nat) (hs : s.memoriesWf = true) : (poisonLine s line).memoriesWf = true :=
  ite_keeps hs (memoriesWf_of_eq rfl rfl (homePrepare_keeps 1 (line * 128) 128 hs))

theorem releaseLost_keeps (w : Hop × Packet) (hs : s.memoriesWf = true) : (releaseLost s w).memoriesWf = true := by
  unfold releaseLost
  split
  · exact applyHome_keeps _ hs
  · exact (systemFail_frame ..).wf hs
  · exact (systemFail_frame ..).wf hs
  · exact (systemFail_frame ..).wf hs
  · exact (systemFail_frame ..).wf hs
  · exact (systemFail_frame ..).wf hs
  · exact applyHome_keeps _ hs

theorem declareLost_keeps (hs : s.memoriesWf = true) : (declareLost s).memoriesWf = true := by
  refine ite_keeps hs ((failSystem_frame ..).wf ?_)
  refine foldl_wf (fun t w ht => releaseLost_keeps w.2.2 ht) _ ?_
  exact foldl_wf (fun t l ht => poisonLine_keeps l ht) _ (memoriesWf_of_eq rfl rfl hs)

/-- A failed memory chiplet's slice is lost, with what it held (R399). -/
theorem failMemory_keeps (sock : Nat) (hs : s.memoriesWf = true) : (failMemory s sock).memoriesWf = true := by
  obtain ⟨hm, hl⟩ := (memoriesWf_iff s).mp hs
  refine (dieRecords_frame ..).wf ((failShard_frame ..).wf ?_)
  refine foldl_wf (fun t w ht => applyHome_keeps w.2.2.2 ht) _ (regSet_keeps _ _ _ _ ?_)
  exact (memoriesWf_iff _).mpr ⟨hm, wf_filter _ hl⟩

theorem failDie_keeps (sock : Nat) (hs : s.memoriesWf = true) : (failDie s sock).memoriesWf = true := by
  have hfail : ∀ (t : State) (f : BitVec 32) (q : List HostReq) (d : List HostDone), t.memoriesWf = true →
      { t with failed := f, hostReqs := q, hostDone := d }.memoriesWf = true := fun t f q d ht => memoriesWf_of_eq rfl rfl ht
  unfold failDie
  refine ite_keeps hs (ite_keeps ((failCompute_frame ..).wf hs) (ite_keeps (failMemory_keeps sock hs) (ite_keeps ?_ (ite_keeps ?_ ?_))))
  · exact (dieRecords_frame ..).wf ((failSystem_frame ..).wf (declareLost_keeps (hfail s _ _ _ hs)))
  · exact (dieRecords_frame ..).wf ((failSystem_frame ..).wf (memoriesWf_of_eq rfl rfl hs))
  · exact ite_keeps ((failSandbox_frame ..).wf hs) ((failService_frame ..).wf hs)

theorem execDieFailure_keeps (sock : Nat) (hs : s.memoriesWf = true) : outcomeKeeps (execDieFailure sock s) :=
  outcome_keeps_ite trivial (failDie_keeps sock hs)

theorem execComputeChipletFailure_keeps (sock : Nat) (hs : s.memoriesWf = true) : outcomeKeeps (execComputeChipletFailure sock s) :=
  outcome_keeps_ite trivial (failDie_keeps sock hs)

theorem execDieErrorReport_keeps (sock : Nat) (hs : s.memoriesWf = true) : outcomeKeeps (execDieErrorReport sock s) :=
  outcome_keeps_ite (failDie_keeps sock hs) trivial

theorem execTimeExchange_keeps (sock : Nat) (t1 t2 t3 t4 : Int) (hs : s.memoriesWf = true) :
    outcomeKeeps (execTimeExchange sock t1 t2 t3 t4 s) := by
  have hclock : ∀ m, { s with clocks := m }.memoriesWf = true := fun m => memoriesWf_of_eq rfl rfl hs
  unfold execTimeExchange
  refine outcome_keeps_ite trivial (outcome_keeps_ite ((missExchange_frame ..).wf hs) ?_)
  exact ite_keeps (failDie_keeps sock (hclock _)) (hclock _)

theorem execSnoopResponse_keeps (line : Nat) (cells : List (Nat × Byte)) (hs : s.memoriesWf = true) :
    outcomeKeeps (execSnoopResponse line cells s) := by
  refine outcome_keeps_ite trivial ?_
  exact foldl_wf (fun t w ht => applyHome_keeps w.2 ht) _ (homeWrite_keeps _ _ _ _ _ (memoriesWf_of_eq rfl rfl hs))

theorem execSnoopTimeout_keeps (line : Nat) (hs : s.memoriesWf = true) : outcomeKeeps (execSnoopTimeout line s) :=
  outcome_keeps_ite (declareLost_keeps hs) trivial

theorem execHostLinkTimeout_keeps (hs : s.memoriesWf = true) : outcomeKeeps (execHostLinkTimeout s) :=
  outcome_keeps_ite trivial (declareLost_keeps hs)

theorem execMgmtDeclareHostLost_keeps (hs : s.memoriesWf = true) : outcomeKeeps (execMgmtDeclareHostLost s) := declareLost_keeps hs

/-- DRAM is kept over a package reset, and the slices begin empty (R409). -/
theorem execPackageReset_keeps (hs : s.memoriesWf = true) : outcomeKeeps (execPackageReset s) :=
  (memoriesWf_iff _).mpr ⟨((memoriesWf_iff s).mp hs).1, wf_nil⟩

/-! Instructions and moves -/

/-- The cases named apply requests at their homes, or lose a slice or the host; every other instruction and step leaves the bytes as they are. -/
theorem exec_keeps (i : Instr) (hs : s.memoriesWf = true) : outcomeKeeps (exec i s) := by
  cases i
  case rd h => exact execRd_keeps h hs
  case wr h => exact execWr_keeps h hs
  case atPkt h => exact execAtPkt_keeps h hs
  case lx h => exact execLx_keeps h hs
  case pf h => exact execPf_keeps h hs
  case icinvCommit h => exact execIcinvCommit_keeps h hs
  case fm h => exact execFm_keeps h hs
  case tx h => exact execTx_keeps h hs
  case dieFailure n => exact execDieFailure_keeps n hs
  case computeChipletFailure n => exact execComputeChipletFailure_keeps n hs
  case dieErrorReport n => exact execDieErrorReport_keeps n hs
  case timeExchange => exact execTimeExchange_keeps _ _ _ _ _ hs
  case snoopResponse line cells => exact execSnoopResponse_keeps line cells hs
  case snoopTimeout line => exact execSnoopTimeout_keeps line hs
  case hostLinkTimeout => exact execHostLinkTimeout_keeps hs
  case mgmtDeclareHostLost => exact execMgmtDeclareHostLost_keeps hs
  case packageReset => exact execPackageReset_keeps hs
  all_goals exact outcomeSame.wf (by simp [exec]) hs

/-! Moves -/

theorem runCycle_frame (s c) : sameBytes s (runCycle s c) := by
  unfold runCycle
  extract_lets k ags waited keys s1
  have hs1 : sameBytes s s1 := ⟨rfl, rfl⟩
  exact ite_same ⟨rfl, rfl⟩ (hs1.trans ((landAll_frame ..).trans (passMarkers_frame ..)))

theorem slipClock_frame (s sock ahead) : sameBytes s (slipClock s sock ahead) := ite_same ⟨rfl, rfl⟩ ⟨rfl, rfl⟩

theorem runTick_frame (s) : sameBytes s (runTick s) := ite_same ⟨rfl, rfl⟩ ⟨rfl, rfl⟩

/-- What befalls the package changes no byte that the memories list (log entry 5). -/
theorem runDisturbance_frame (s d) : sameBytes s (runDisturbance s d) := by
  cases d with
  | wire h mask => exact damageWire_frame ..
  | slip sock ahead => exact slipClock_frame ..
  | symbol half => exact ite_same ⟨rfl, rfl⟩ ⟨rfl, rfl⟩
  | sliceBit sector => exact damageSlice_frame ..
  | vreg a reg lane => exact ite_same ⟨rfl, rfl⟩ ⟨rfl, rfl⟩
  | sreg a reg => exact ite_same ⟨rfl, rfl⟩ ⟨rfl, rfl⟩
  | accWord team word => exact ⟨rfl, rfl⟩
  | addrEntry a num => exact ⟨rfl, rfl⟩
  | sbxLine line => exact ⟨rfl, rfl⟩
  | early core job off ahead => exact readEarly_frame ..
  | hart h pa op => cases op <;> simp [runDisturbance]
  | mmaEarly a off => exact mmaEarly_frame ..
  | hartRun h st => exact hartRun_frame ..
  | mailbox function cmd => exact ite_same (queueCommand_frame ..) ⟨rfl, rfl⟩
  | outOfBand cmd => exact queueCommand_frame ..

theorem packageStep_keeps (i : Instr) (hs : s.memoriesWf = true) : outcomeKeeps (packageStep s i) :=
  outcome_keeps_ite trivial (exec_keeps i hs)

theorem unlessDue_keeps {r : Result} (hs : s.memoriesWf = true) (hr : outcomeKeeps r) : outcomeKeeps (unlessDue s r) := by
  unfold unlessDue
  split
  · exact hs
  · exact hr

theorem runEvent_keeps (i : Instr) (hs : s.memoriesWf = true) : outcomeKeeps (runEvent s i) := by
  have hm : ∀ l, { s with mgmt := l }.memoriesWf = true := fun l => memoriesWf_of_eq rfl rfl hs
  refine outcome_keeps_ite hs ?_
  split
  · exact outcome_keeps_ite (unlessDue_keeps (hm _) (packageStep_keeps i (hm _))) ((queueCommand_frame ..).wf hs)
  · exact unlessDue_keeps hs (packageStep_keeps i hs)

theorem issueAt_keeps (a : Agent) (pc : Nat) (hs : s.memoriesWf = true) : outcomeKeeps (issueAt s a pc) := by
  unfold issueAt
  split
  · exact hs
  · exact (raise_frame ..).wf hs
  · split
    · exact exec_keeps _ (memoriesWf_of_eq rfl rfl hs)
    · exact (raise_frame ..).wf hs

theorem runIssue_keeps (k : AgentKey) (hs : s.memoriesWf = true) : outcomeKeeps (runIssue s k) := by
  unfold runIssue
  split
  · refine outcome_keeps_ite hs ?_
    split
    · exact hs
    · rename_i a t _ _ _ pc _
      have hi := issueAt_keeps a pc hs
      split
      · rename_i s' heq
        rw [heq] at hi
        exact ite_keeps ((noteIssue_frame ..).wf hi) hi
      · exact hi
  · exact hs

theorem afterMove_keeps {r : Result} (hr : outcomeKeeps r) : outcomeKeeps (afterMove r) := by
  cases r with
  | next t =>
    have h := (settleLogs_frame _).wf ((refreshComplete_frame _).wf ((flushLanes_frame t).wf hr))
    exact (settleHarts_frame _).wf ((flushDevWrites_frame _).wf h)
  | fault f => trivial
  | refused r => trivial

theorem runMove_keeps (m : Move) (hs : s.memoriesWf = true) : outcomeKeeps (runMove s m) := by
  refine outcome_keeps_ite hs (afterMove_keeps ?_)
  cases m with
  | issue k => exact runIssue_keeps k hs
  | land k n => exact (runLand_frame ..).wf hs
  | bank team n => exact (runBank_frame ..).wf hs
  | cycle c => exact (runCycle_frame ..).wf hs
  | tick => exact (runTick_frame _).wf hs
  | befall d => exact (runDisturbance_frame ..).wf hs
  | event i => exact runEvent_keeps i hs

/-- The measured loads of a boundary are free values. -/
theorem ownMove_frame (s) : sameBytes s (ownMove s).2 := by
  unfold ownMove
  split
  · split
    · exact ⟨rfl, rfl⟩
    · refine foldl_snd_same (fun acc _ => ?_) (List.range 96) (([], s) : List Nat × State)
      exact pick_frame acc.2 65536
  · exact ⟨rfl, rfl⟩

theorem nextMove_frame (s) : sameBytes s (nextMove s).2 := by
  unfold nextMove
  split
  · exact ⟨rfl, rfl⟩
  · exact ownMove_frame s

theorem step_keeps (hs : s.memoriesWf = true) : outcomeKeeps (step s) := runMove_keeps (nextMove s).1 ((nextMove_frame s).wf hs)

end Sys2Proof.Machine

open Sys2Proof Sys2Proof.Machine

/-- Settles O50, by cases of the move: all but the home slices leave the bytes alone (`sameBytes`), and those write through `writeCells`, drop a
slice's lines or empty it. -/
theorem stepKeepsMemory : Obligations.StepKeepsMemory := by
  unfold Obligations.StepKeepsMemory
  intro s t hs hstep
  have hkeeps := step_keeps hs
  rwa [hstep] at hkeeps

end

