-- ==== Sys2Proof/Proofs/AtomicValues.lean ====
section
/-! The home ALU (R24): the new values of an atomic as operations on words. -/

namespace Sys2Proof.Machine

set_option Elab.async false

/-- The signed reading of an operand by `atomicNew` is two's complement. -/
theorem signedReading_eq_toInt {b : Nat} (hb : 0 < b) (x : BitVec b) :
    (if x.toNat < 2 ^ b / 2 then (x.toNat : Int) else (x.toNat : Int) - (2 ^ b : Nat)) = x.toInt := by
  obtain ⟨k, rfl⟩ : ∃ k, b = k + 1 := ⟨b - 1, by omega⟩
  rw [BitVec.toInt_eq_toNat_cond]
  have hp : 2 ^ (k + 1) = 2 * 2 ^ k := by ring
  split <;> split <;> omega

section
variable {b : Nat} (o v c : BitVec b)

theorem atomicNew_add : atomicNew 0 b o.toNat v.toNat c.toNat = some (o + v).toNat := by
  simp [atomicNew, BitVec.toNat_add]

theorem atomicNew_sub : atomicNew 1 b o.toNat v.toNat c.toNat = some (o - v).toNat := by
  simp [atomicNew, BitVec.toNat_sub, Nat.add_comm]

theorem atomicNew_smin (hb : 0 < b) : atomicNew 2 b o.toNat v.toNat c.toNat = some (if v.slt o then v else o).toNat := by
  simp only [atomicNew, signedReading_eq_toInt hb, BitVec.slt_iff_toInt_lt]
  split <;> rfl

theorem atomicNew_smax (hb : 0 < b) : atomicNew 3 b o.toNat v.toNat c.toNat = some (if o.slt v then v else o).toNat := by
  simp only [atomicNew, signedReading_eq_toInt hb, BitVec.slt_iff_toInt_lt]
  split <;> rfl

theorem atomicNew_umin : atomicNew 4 b o.toNat v.toNat c.toNat = some (if v.ult o then v else o).toNat := by
  simp only [atomicNew, BitVec.ult_iff_toNat_lt, Option.some.injEq]
  split <;> omega

theorem atomicNew_umax : atomicNew 5 b o.toNat v.toNat c.toNat = some (if o.ult v then v else o).toNat := by
  simp only [atomicNew, BitVec.ult_iff_toNat_lt, Option.some.injEq]
  split <;> omega

theorem atomicNew_cas : atomicNew 10 b o.toNat v.toNat c.toNat = some (if o = c then v else o).toNat := by
  simp only [atomicNew, BitVec.toNat_inj]
  split <;> rfl

/-- INC wraps to 0 at its operand, so it never leaves the word. -/
theorem atomicNew_inc (hb : 0 < b) : atomicNew 11 b o.toNat v.toNat c.toNat = some (if v.ule o then 0 else o + 1).toNat := by
  simp only [atomicNew, BitVec.ule_iff_toNat_le]
  split
  · simp
  · have hv := v.isLt
    have h1 : (1 : BitVec b).toNat = 1 := BitVec.toNat_one hb
    rw [BitVec.toNat_add, h1, Nat.mod_eq_of_lt (by omega)]

/-- DEC goes to its operand from 0 or from above it. -/
theorem atomicNew_dec (hb : 0 < b) : atomicNew 12 b o.toNat v.toNat c.toNat = some (if o = 0 ∨ v.ult o then v else o - 1).toNat := by
  have hz : o.toNat = 0 ↔ o = 0 := by rw [← BitVec.toNat_inj]; simp
  simp only [atomicNew, BitVec.ult_iff_toNat_lt, hz]
  split
  · rfl
  · rename_i h
    have ho : o.toNat ≠ 0 := fun h0 => h (.inl (hz.mp h0))
    have h1 : (1 : BitVec b).toNat = 1 := BitVec.toNat_one hb
    rw [BitVec.toNat_sub_of_le (by rw [BitVec.le_def]; omega), h1]

end

end Sys2Proof.Machine

open Sys2Proof Sys2Proof.Machine

/-- Settles O52, operation by operation. -/
theorem atomicValues : Obligations.AtomicValues := by
  unfold Obligations.AtomicValues
  intro b o v c hb
  have hpos : 0 < b := by omega
  exact ⟨atomicNew_add o v c, atomicNew_sub o v c, atomicNew_smin o v c hpos, atomicNew_smax o v c hpos, atomicNew_umin o v c,
    atomicNew_umax o v c, rfl, rfl, rfl, rfl, atomicNew_cas o v c, atomicNew_inc o v c hpos, atomicNew_dec o v c hpos, rfl, rfl, rfl, rfl⟩

end

