-- ==== Sys2Proof/Proofs/HomeWrite.lean ====
section
/-! Writes at a home (R14, R20): what the home holds of each address, and which operations of a slice leave it as it is. -/

namespace Sys2Proof.Machine

-- one declaration at a time: a thread for each would be too many
set_option Elab.async false

/-! ### What a slice holds -/

/-- Whether the slice holds the sector of an address. -/
def heldValid (s : State) (a : Nat) : Bool := bit (lineAt s a).valid (sectorIx a)

/-- Whether the slice holds the sector of an address with bytes that DRAM does not have. -/
def heldUnsaved (s : State) (a : Nat) : Bool := heldValid s a && bit (lineAt s a).dirty (sectorIx a)

theorem homeByte_eq (s : State) (a : Nat) : homeByte s a = if heldValid s a then readByte s.slice a else readByte s.mem a := rfl

theorem cleanAgrees_iff (s : State) :
    s.cleanAgrees ↔ ∀ a, heldValid s a = true → heldUnsaved s a = false → readByte s.slice a = readByte s.mem a :=
  forall_congr' fun a => by
    unfold heldUnsaved heldValid
    constructor
    · intro h hv hd
      exact h hv (by simpa [hv] using hd)
    · intro h hv hd
      exact h hv (by simp [hd])

/-- The home of a state holds what that of another holds, and its clean sectors agree with DRAM as before. -/
def sameHome (s t : State) : Prop := s.cleanAgrees → t.cleanAgrees ∧ ∀ a, homeByte t a = homeByte s a

theorem sameHome.refl (s : State) : sameHome s s := fun h => ⟨h, fun _ => rfl⟩

theorem sameHome.trans {s t u : State} (h : sameHome s t) (k : sameHome t u) : sameHome s u := fun hs =>
  have ht := h hs
  have hu := k ht.1
  ⟨hu.1, fun a => (hu.2 a).trans (ht.2 a)⟩

/-- The memories and the sectors held are those of another state. -/
structure SameCopy (s t : State) : Prop where
  mem : t.mem = s.mem
  slice : t.slice = s.slice
  held : ∀ a, heldValid t a = heldValid s a
  unsaved : ∀ a, heldUnsaved t a = heldUnsaved s a

theorem SameCopy.refl (s : State) : SameCopy s s := ⟨rfl, rfl, fun _ => rfl, fun _ => rfl⟩

theorem SameCopy.trans {s t u : State} (h : SameCopy s t) (k : SameCopy t u) : SameCopy s u :=
  ⟨k.mem.trans h.mem, k.slice.trans h.slice, fun a => (k.held a).trans (h.held a), fun a => (k.unsaved a).trans (h.unsaved a)⟩

theorem SameCopy.of_lines {s t : State} (hm : t.mem = s.mem) (hs : t.slice = s.slice) (hl : t.lines = s.lines) : SameCopy s t := by
  refine ⟨hm, hs, fun a => ?_, fun a => ?_⟩ <;> simp only [heldUnsaved, heldValid, lineAt, hl]

theorem SameCopy.foldl {α : Type} {f : State → α → State} (hf : ∀ t a, SameCopy t (f t a)) (l : List α) (s : State) : SameCopy s (l.foldl f s) :=
  foldl_keeps (P := SameCopy s) (fun t a h => h.trans (hf t a)) l (.refl s)

theorem SameCopy.homeByte {s t : State} (h : SameCopy s t) (a : Nat) : homeByte t a = homeByte s a := by
  rw [homeByte_eq, homeByte_eq, h.held, h.mem, h.slice]

theorem SameCopy.sameHome {s t : State} (h : SameCopy s t) : sameHome s t := fun hs => by
  refine ⟨?_, h.homeByte⟩
  rw [cleanAgrees_iff] at hs ⊢
  intro a
  rw [h.held, h.unsaved, h.mem, h.slice]
  exact hs a

/-! ### Lines -/

theorem lineAt_putLine (s : State) (pa : Nat) (l : SliceLine) (a : Nat) :
    lineAt (putLine s pa l) a = if a / 128 = pa / 128 then l else lineAt s a := sget_sset ..

theorem sameSector_iff (a pa : Nat) : a / 16 = pa / 16 ↔ a / 128 = pa / 128 ∧ sectorIx a = sectorIx pa := by
  unfold sectorIx
  omega

/-- A flag of the sectors of a line put with the flag of one sector changed. -/
theorem bit_putLine_setBit (g : SliceLine → BitVec 8) {s : State} {pa : Nat} {l : SliceLine} {b : Bool}
    (hl : g l = setBit (g (lineAt s pa)) (sectorIx pa) b) (a : Nat) :
    bit (g (lineAt (putLine s pa l) a)) (sectorIx a) = if a / 16 = pa / 16 then b else bit (g (lineAt s a)) (sectorIx a) := by
  have hlt : sectorIx pa < 8 := Nat.mod_lt _ (by decide)
  rw [lineAt_putLine]
  by_cases hline : a / 128 = pa / 128
  · have hsame : lineAt s a = lineAt s pa := by simp only [lineAt, hline]
    by_cases hsec : sectorIx a = sectorIx pa
    · simp [hline, hl, sameSector_iff, hsec, bit_setBit_same _ _ hlt]
    · simp [hline, hl, sameSector_iff, hsec, bit_setBit_ne _ _ hsec, hsame]
  · simp [hline, sameSector_iff]

/-- A flag of the sectors of a line put with this flag as it was. -/
theorem bit_putLine_same (g : SliceLine → BitVec 8) {s : State} {pa : Nat} {l : SliceLine} (hl : g l = g (lineAt s pa)) (a : Nat) :
    bit (g (lineAt (putLine s pa l) a)) (sectorIx a) = bit (g (lineAt s a)) (sectorIx a) := by
  rw [lineAt_putLine]
  by_cases hline : a / 128 = pa / 128
  · simp only [hline, if_true, hl, lineAt]
  · simp [hline]

/-- A line put with its sectors as they were. -/
theorem SameCopy.putLine {s : State} {pa : Nat} {l : SliceLine} (hv : l.valid = (lineAt s pa).valid) (hd : l.dirty = (lineAt s pa).dirty) :
    SameCopy s (putLine s pa l) := by
  have held : ∀ a, heldValid (Machine.putLine s pa l) a = heldValid s a := bit_putLine_same (·.valid) hv
  exact ⟨rfl, rfl, held, fun a => congrArg₂ (· && ·) (held a) (bit_putLine_same (·.dirty) hd a)⟩

/-- A line without a sector put where none was held. -/
theorem SameCopy.putLine_empty {s : State} {pa : Nat} {l : SliceLine} (hl : l.valid = 0) (hs : ∀ a, a / 128 = pa / 128 → heldValid s a = false) :
    SameCopy s (Machine.putLine s pa l) := by
  have held : ∀ a, heldValid (Machine.putLine s pa l) a = heldValid s a := fun a => by
    by_cases hline : a / 128 = pa / 128
    · rw [hs a hline, heldValid, lineAt_putLine, if_pos hline, hl]
      simp [bit]
    · rw [heldValid, lineAt_putLine, if_neg hline, heldValid]
  refine ⟨rfl, rfl, held, fun a => ?_⟩
  rw [heldUnsaved, heldUnsaved, held]
  by_cases hline : a / 128 = pa / 128
  · rw [hs a hline]; rfl
  · rw [lineAt_putLine, if_neg hline]

/-! ### Checks and uses, which move no byte -/

theorem regPut_sameCopy (s : State) (r : Reg) (w : Word64) : SameCopy s (regPut s r w) := .of_lines rfl rfl rfl

theorem reservations_sameCopy (s : State) (r : List Reservation) : SameCopy s { s with reservations := r } := .of_lines rfl rfl rfl

theorem horizon_sameCopy (s : State) (m : Sparse Nat) : SameCopy s { s with horizon := m } := .of_lines rfl rfl rfl

theorem countDramError_lines (s : State) (pa : Nat) (ue : Bool) : (countDramError s pa ue).lines = s.lines := by cases ue <;> rfl

theorem dramCheck_lines (s : State) (pa : Nat) : (dramCheck s pa).lines = s.lines := by
  unfold dramCheck
  split
  · rfl
  · split <;> exact countDramError_lines _ pa false
  · exact countDramError_lines _ pa true

theorem countDramError_sameCopy (s : State) (pa : Nat) (ue : Bool) : SameCopy s (countDramError s pa ue) :=
  .of_lines (countDramError_frame s pa ue).1 (countDramError_frame s pa ue).2 (countDramError_lines s pa ue)

theorem dramCheck_sameCopy (s : State) (pa : Nat) : SameCopy s (dramCheck s pa) :=
  .of_lines (dramCheck_frame s pa).1 (dramCheck_frame s pa).2 (dramCheck_lines s pa)

theorem sliceCheck_sameCopy (s : State) (pa : Nat) : SameCopy s (sliceCheck s pa) := by
  unfold sliceCheck
  simp only
  split
  · exact .refl s
  · split
    · exact .trans (.putLine (by rfl) (by rfl)) (countDramError_sameCopy ..)
    · split
      · exact .trans (.putLine (by rfl) (by rfl)) (countDramError_sameCopy ..)
      · exact .refl s

theorem useLine_sameCopy (s : State) (pa : Nat) : SameCopy s (useLine s pa) := by
  unfold useLine
  simp only
  split
  · exact .refl s
  · refine .trans ?_ (.putLine (by rfl) (by rfl))
    split
    · exact .foldl (fun t e => .putLine (by rfl) (by rfl)) _ s
    · exact .refl s

theorem noteRewrite_lines (s : State) (half : Nat) (addrs : List Nat) (src : Nat) (who : Requester) :
    (noteRewrite s half addrs src who).lines = s.lines := by
  unfold noteRewrite
  simp only
  split
  · rfl
  · split
    · rfl
    · split <;> rfl

theorem noteRewrite_sameCopy (s : State) (half : Nat) (addrs : List Nat) (src : Nat) (who : Requester) :
    SameCopy s (noteRewrite s half addrs src who) :=
  .of_lines (noteRewrite_frame s half addrs src who).1 (noteRewrite_frame s half addrs src who).2 (noteRewrite_lines s half addrs src who)

/-! ### Sectors copied between DRAM and the slice -/

theorem mem_cellsAt_readBytes {m : Memory} {b n : Nat} {c : Host.Cell} (h : c ∈ cellsAt b (readBytes m b n)) :
    b ≤ c.1 ∧ c.1 < b + n ∧ c.2 = readByte m c.1 := by
  simp only [cellsAt, readBytes, List.mem_map, Prod.exists, List.mem_zipIdx_iff_getElem?] at h
  obtain ⟨x, i, hi, rfl⟩ := h
  rw [List.getElem?_map, Option.map_eq_some_iff] at hi
  obtain ⟨j, hj, rfl⟩ := hi
  obtain ⟨hlt, rfl⟩ := List.getElem?_eq_some_iff.mp hj
  simp only [List.length_range] at hlt
  simp [hlt]

theorem map_fst_cellsAt (b : Nat) (bs : List Byte) : (cellsAt b bs).map (·.1) = (List.range bs.length).map (b + ·) := by
  simp only [cellsAt, List.map_map, List.range_eq_range', ← List.zipIdx_map_snd 0 bs]
  rfl

theorem cellsAt_nodup (b : Nat) (bs : List Byte) : ((cellsAt b bs).map (·.1)).Nodup := by
  rw [map_fst_cellsAt]
  exact List.nodup_range.map fun _ _ h => Nat.add_left_cancel h

/-- Memory with a range copied from another. -/
theorem readByte_copied (m src : Memory) (b n a : Nat) :
    readByte (writeCells m (cellsAt b (readBytes src b n))) a = if b ≤ a ∧ a < b + n then readByte src a else readByte m a := by
  split
  · rename_i h
    have ha : a ∈ (cellsAt b (readBytes src b n)).map (·.1) := by
      rw [map_fst_cellsAt]
      exact List.mem_map.mpr ⟨a - b, by simp [readBytes]; omega, by omega⟩
    obtain ⟨c, hc, rfl⟩ := List.mem_map.mp ha
    rw [readByte_writeCells_in m hc (cellsAt_nodup ..)]
    exact (mem_cellsAt_readBytes hc).2.2
  · rename_i h
    refine readByte_writeCells_out m fun c hc he => h ?_
    subst he
    exact ⟨(mem_cellsAt_readBytes hc).1, (mem_cellsAt_readBytes hc).2.1⟩

theorem readByte_copiedSector (m src : Memory) (pa a : Nat) :
    readByte (writeCells m (cellsAt (pa / 16 * 16) (readBytes src (pa / 16 * 16) 16))) a =
      if a / 16 = pa / 16 then readByte src a else readByte m a := by
  rw [readByte_copied]
  exact if_congr (by omega) rfl rfl

/-- A sector put with the bytes of DRAM. -/
theorem putSector_sameHome {u v : State} {pa : Nat} {l : SliceLine} (hlines : v.lines = u.lines) (hmem : v.mem = u.mem)
    (hslice : ∀ a, readByte v.slice a = if a / 16 = pa / 16 then readByte u.mem a else readByte u.slice a)
    (hempty : heldValid u pa = false) (hv : l.valid = setBit (lineAt u pa).valid (sectorIx pa) true) (hd : l.dirty = (lineAt u pa).dirty) :
    sameHome u (putLine v pa l) := by
  intro hu
  have hline : ∀ a, lineAt v a = lineAt u a := fun a => by simp only [lineAt, hlines]
  have held : ∀ a, heldValid (putLine v pa l) a = if a / 16 = pa / 16 then true else heldValid u a := fun a => by
    rw [heldValid, heldValid, bit_putLine_setBit (·.valid) (by rw [hline]; exact hv), hline]
  have dirty : ∀ a, bit (lineAt (putLine v pa l) a).dirty (sectorIx a) = bit (lineAt u a).dirty (sectorIx a) := fun a => by
    rw [bit_putLine_same (·.dirty) (by rw [hline]; exact hd), hline]
  rw [cleanAgrees_iff] at hu ⊢
  refine ⟨fun a => ?_, fun a => ?_⟩
  · rw [heldUnsaved, held, dirty, putLine_slice, putLine_mem, hslice, hmem]
    by_cases ha : a / 16 = pa / 16
    · simp [ha]
    · simpa [ha, heldUnsaved] using hu a
  · rw [homeByte_eq, homeByte_eq, held, putLine_slice, putLine_mem, hslice, hmem]
    by_cases ha : a / 16 = pa / 16
    · obtain ⟨hl, hsec⟩ := (sameSector_iff a pa).mp ha
      have : heldValid u a = false := by rw [← hempty]; simp only [heldValid, lineAt, hl, hsec]
      simp [ha, this]
    · simp [ha]

/-- A sector filled from DRAM (R14). -/
theorem fillSector_sameHome (s : State) (pa : Nat) : sameHome s (fillSector s pa) := by
  unfold fillSector
  simp only
  split
  · exact (sliceCheck_sameCopy s pa).sameHome
  · rename_i hv
    refine (dramCheck_sameCopy s pa).sameHome.trans ?_
    have hline : lineAt (dramCheck s pa) pa = lineAt s pa := by simp only [lineAt, dramCheck_lines]
    refine putSector_sameHome rfl rfl (fun a => readByte_copiedSector ..) ?_ ?_ ?_
    · simpa [heldValid, hline] using hv
    · rw [hline]
    · rw [hline]

theorem heldValid_fillSector (s : State) {pa a : Nat} (ha : a / 16 = pa / 16) : heldValid (fillSector s pa) a = true := by
  obtain ⟨hline, hsec⟩ := (sameSector_iff a pa).mp ha
  have hpa : ∀ t, heldValid t a = heldValid t pa := fun t => by simp only [heldValid, lineAt, hline, hsec]
  rw [hpa]
  unfold fillSector
  simp only
  split
  · rename_i hv
    exact ((sliceCheck_sameCopy s pa).held pa).trans hv
  · rw [heldValid, lineAt_putLine, if_pos rfl]
    exact bit_setBit_same _ _ (Nat.mod_lt _ (by decide))

/-! ### Sectors written back and lines dropped -/

/-- What a dirty sector's write-back leaves: DRAM has its bytes, and every sector is held as before (R14). -/
structure WroteBack (s t : State) (pa : Nat) : Prop where
  slice : t.slice = s.slice
  mem : ∀ a, readByte t.mem a = if a / 16 = pa / 16 ∧ heldUnsaved s pa = true then readByte s.slice a else readByte s.mem a
  held : ∀ a, heldValid t a = heldValid s a
  unsaved : ∀ a, heldUnsaved t a = if a / 16 = pa / 16 then false else heldUnsaved s a

theorem heldUnsaved_sector (s : State) {a pa : Nat} (ha : a / 16 = pa / 16) : heldUnsaved s a = heldUnsaved s pa := by
  obtain ⟨hline, hsec⟩ := (sameSector_iff a pa).mp ha
  simp only [heldUnsaved, heldValid, lineAt, hline, hsec]

theorem heldValid_of_unsaved {s : State} {a : Nat} (h : heldUnsaved s a = true) : heldValid s a = true := (Bool.and_eq_true_iff.mp h).1

theorem writeBackSector_wroteBack (s : State) (pa : Nat) : WroteBack s (writeBackSector s pa) pa := by
  unfold writeBackSector
  split
  · rename_i hun
    replace hun : heldUnsaved s pa = true := hun
    have hu := (sliceCheck_sameCopy s pa).trans (dramCheck_sameCopy (sliceCheck s pa) pa)
    simp only
    generalize dramCheck (sliceCheck s pa) pa = u at hu ⊢
    generalize hv : ({ u with mem := _, dramPoison := _, badSymbols := _ } : State) = v
    have hmem : ∀ a, readByte v.mem a = if a / 16 = pa / 16 then readByte u.slice a else readByte u.mem a := fun a => by
      rw [← hv]; exact readByte_copiedSector ..
    have hslice : v.slice = u.slice := by rw [← hv]
    have hline : ∀ a, lineAt v a = lineAt u a := fun a => by rw [← hv]; rfl
    have held : ∀ a, heldValid (putLine v pa { lineAt u pa with dirty := setBit (lineAt u pa).dirty (sectorIx pa) false }) a =
        heldValid u a := fun a => by
      rw [heldValid, heldValid, bit_putLine_same (·.valid) (by rw [hline]), hline]
    refine ⟨hslice.trans hu.slice, fun a => ?_, fun a => (held a).trans (hu.held a), fun a => ?_⟩
    · rw [putLine_mem, hmem, hu.mem, hu.slice]
      simp [hun]
    · rw [heldUnsaved, held, bit_putLine_setBit (·.dirty) (by rw [hline]), hline, ← hu.unsaved, heldUnsaved]
      split <;> simp
  · rename_i hun
    replace hun : heldUnsaved s pa = false := by simpa [heldUnsaved, heldValid] using hun
    refine ⟨rfl, fun a => by simp [hun], fun _ => rfl, fun a => ?_⟩
    split
    · rename_i ha
      exact (heldUnsaved_sector s ha).trans hun
    · rfl

theorem writeBackSector_sameHome (s : State) (pa : Nat) : sameHome s (writeBackSector s pa) := fun hs => by
  have hw := writeBackSector_wroteBack s pa
  rw [cleanAgrees_iff] at hs ⊢
  refine ⟨fun a => ?_, fun a => ?_⟩
  · rw [hw.held, hw.unsaved, hw.slice, hw.mem]
    intro hv hd
    by_cases ha : a / 16 = pa / 16
    · by_cases hun : heldUnsaved s pa = true
      · simp [ha, hun]
      · rw [if_neg (by simp [hun])]
        exact hs a hv (by rw [heldUnsaved_sector s ha]; simpa using hun)
    · simp only [ha, false_and, if_false] at hd ⊢
      exact hs a hv hd
  · rw [homeByte_eq, homeByte_eq, hw.held, hw.slice, hw.mem]
    by_cases hc : a / 16 = pa / 16 ∧ heldUnsaved s pa = true
    · have : heldValid s a = true := heldValid_of_unsaved ((heldUnsaved_sector s hc.1).trans hc.2)
      simp [this]
    · rw [if_neg hc]

theorem writeBackLine_sameHome (s : State) (pa : Nat) : sameHome s (writeBackLine s pa) :=
  foldl_keeps (P := sameHome s) (fun _ _ h => h.trans (writeBackSector_sameHome _ _)) _ (.refl s)

theorem heldValid_writeBackLine (s : State) (pa a : Nat) : heldValid (writeBackLine s pa) a = heldValid s a :=
  foldl_keeps (P := fun t => heldValid t a = heldValid s a) (fun t _ h => ((writeBackSector_wroteBack t _).held a).trans h) _ rfl

/-- A line written back has nothing that DRAM does not have (R14). -/
theorem heldUnsaved_writeBackLine (s : State) {pa a : Nat} (ha : a / 128 = pa / 128) : heldUnsaved (writeBackLine s pa) a = false := by
  have key : ∀ (ls : List Nat) (t : State), (heldUnsaved t a = true → a / 16 % 8 ∈ ls) →
      heldUnsaved (ls.foldl (fun s i => writeBackSector s (pa / 128 * 128 + 16 * i)) t) a = false := by
    intro ls
    induction ls with
    | nil => intro t h; simpa using h
    | cons i ls ih =>
      intro t h
      refine ih _ fun hun => ?_
      rw [(writeBackSector_wroteBack t _).unsaved] at hun
      split at hun
      · cases hun
      · rename_i hne
        rcases List.mem_cons.mp (h hun) with rfl | hmem
        · omega
        · exact hmem
  exact key (List.range 8) s fun _ => List.mem_range.mpr (by omega)

theorem sget_serase {V : Type} (d : V) (m : Sparse V) (k j : Nat) : sget d (serase m k) j = if j = k then d else sget d m j := by
  by_cases h : j = k
  · simp [h, sget]
  · simp [h, sget, slookup_serase_ne m h]

theorem readByte_zeroed (b : Nat) (ls : List Nat) (m : Memory) {a : Nat} (h : ∀ i ∈ ls, b + i ≠ a) :
    readByte (ls.foldl (fun m i => writeByte m (b + i) 0) m) a = readByte m a := by
  induction ls generalizing m with
  | nil => rfl
  | cons i ls ih =>
    rw [List.foldl_cons, ih _ fun j hj => h j (List.mem_cons_of_mem _ hj)]
    exact readByte_writeByte_ne m 0 (h i (by simp)).symm

/-- A line dropped whose sectors DRAM has. -/
theorem dropped_sameHome {w t : State} {pa : Nat} (hun : ∀ a, a / 128 = pa / 128 → heldUnsaved w a = false) (hmem : t.mem = w.mem)
    (hlines : t.lines = serase w.lines (pa / 128)) (hslice : ∀ a, a / 128 ≠ pa / 128 → readByte t.slice a = readByte w.slice a) :
    sameHome w t := by
  intro hw
  have hline : ∀ a, lineAt t a = if a / 128 = pa / 128 then lineInit else lineAt w a := fun a => by
    simp only [lineAt, hlines, sget_serase]
  rw [cleanAgrees_iff] at hw ⊢
  refine ⟨fun a => ?_, fun a => ?_⟩
  · by_cases ha : a / 128 = pa / 128
    · simp [heldValid, hline, ha, lineInit, bit]
    · simpa [heldUnsaved, heldValid, hline, ha, hslice a ha, hmem] using hw a
  · rw [homeByte_eq, homeByte_eq]
    by_cases ha : a / 128 = pa / 128
    · have hno : heldValid t a = false := by simp [heldValid, hline, ha, lineInit, bit]
      rw [if_neg (by simp [hno]), hmem]
      split
      · rename_i hv
        exact (hw a hv (hun a ha)).symm
      · rfl
    · have hsame : heldValid t a = heldValid w a := by simp [heldValid, hline, ha]
      rw [hsame, hslice a ha, hmem]

/-- The state of an eviction after its write-back, with the line's own lists (R14, R18). -/
theorem evictLine_present {s : State} {pa : Nat} (h : linePresent s pa = true) :
    (evictLine s pa).mem = (writeBackLine s pa).mem ∧ (evictLine s pa).lines = serase (writeBackLine s pa).lines (pa / 128)
      ∧ (evictLine s pa).slice =
        (List.range 128).foldl (fun m i => writeByte m (pa / 128 * 128 + i) 0) (writeBackLine s pa).slice := by
  unfold evictLine
  rw [if_pos h]
  simp only
  generalize writeBackLine s pa = w
  by_cases hl : timeAt w (homeSocket w pa) < (lineAt w pa).lease <;> by_cases hp : (lineAt w pa).pin = true <;> simp [hl, hp]

theorem evictLine_sameHome (s : State) (pa : Nat) : sameHome s (evictLine s pa) := by
  by_cases h : linePresent s pa = true
  · obtain ⟨hmem, hlines, hslice⟩ := evictLine_present h
    refine (writeBackLine_sameHome s pa).trans (dropped_sameHome (pa := pa) (fun a ha => heldUnsaved_writeBackLine s ha) hmem hlines fun a ha => ?_)
    rw [hslice]
    refine readByte_zeroed _ _ _ fun i hi he => ha ?_
    have := List.mem_range.mp hi
    omega
  · rw [evictLine, if_neg h]
    exact .refl s

theorem heldValid_of_absent {s : State} {pa a : Nat} (h : linePresent s pa = false) (ha : a / 128 = pa / 128) : heldValid s a = false := by
  have hnone : slookup s.lines (pa / 128) = none := by simpa [linePresent] using h
  simp [heldValid, lineAt, sget, ha, hnone, lineInit, bit]

theorem heldValid_evictLine_same (s : State) {pa a : Nat} (ha : a / 128 = pa / 128) : heldValid (evictLine s pa) a = false := by
  refine heldValid_of_absent (pa := pa) ?_ ha
  by_cases h : linePresent s pa = true
  · simp [linePresent, (evictLine_present h).2.1]
  · rw [evictLine, if_neg h]
    simpa using h

/-- An eviction brings no sector in. -/
theorem heldValid_evictLine_of (s : State) {pa a : Nat} (h : heldValid s a = false) : heldValid (evictLine s pa) a = false := by
  by_cases ha : a / 128 = pa / 128
  · exact heldValid_evictLine_same s ha
  · by_cases hp : linePresent s pa = true
    · rw [heldValid, lineAt, (evictLine_present hp).2.1, sget_serase, if_neg ha]
      exact (heldValid_writeBackLine s pa a).trans h
    · rw [evictLine, if_neg hp]
      exact h

/-- The transient copy of an UNCACHED write begins without a sector (R20). -/
theorem transientCopy_sameHome (s : State) (pa : Nat) : sameHome s (putLine (evictLine s pa) pa lineInit) :=
  (evictLine_sameHome s pa).trans (SameCopy.putLine_empty rfl fun _ ha => heldValid_evictLine_same s ha).sameHome

/-- Room made for a line: what the home holds stays, and no sector comes in (R14). -/
theorem makeRoom_sameHome (s : State) (pa : Nat) :
    sameHome s (makeRoom s pa) ∧ ∀ a, heldValid s a = false → heldValid (makeRoom s pa) a = false := by
  unfold makeRoom
  simp only
  split
  · exact ⟨.refl s, fun _ h => h⟩
  · have hpick : ∀ n, SameCopy s (pick s n).2 := fun n => .of_lines rfl rfl rfl
    split
    · exact ⟨(hpick _).sameHome.trans (evictLine_sameHome _ _), fun a h => heldValid_evictLine_of _ (((hpick _).held a).trans h)⟩
    · exact ⟨(hpick _).sameHome, fun a h => ((hpick _).held a).trans h⟩

/-- A line made present (R14, R18, R21). -/
theorem touchLine_sameHome (s : State) (pa : Nat) (attr : BitVec 2) : sameHome s (touchLine s pa attr) := by
  unfold touchLine
  simp only
  generalize hx : (if linePresent s pa = true then s else _) = x
  have hheld : sameHome s x := by
    rw [← hx]
    split
    · exact .refl s
    · rename_i h
      obtain ⟨hroom, hnone⟩ := makeRoom_sameHome s pa
      refine hroom.trans (.trans (SameCopy.putLine_empty (by rfl) fun a ha => ?_).sameHome (fillSector_sameHome _ pa))
      exact hnone a (heldValid_of_absent (by simpa using h) ha)
  refine hheld.trans (.trans (useLine_sameCopy x pa).sameHome ?_)
  split
  · split
    · exact (SameCopy.trans (.putLine (by rfl) (by rfl)) (regPut_sameCopy ..)).sameHome
    · exact (regPut_sameCopy ..).sameHome
  · exact .refl _

/-! ### Writes -/

/-- What some cells leave of a byte. -/
def storedAt (cells : List Host.Cell) (a : Nat) (old : Byte) : Byte :=
  match cells.find? (fun c => c.1 == a) with
  | some c => c.2
  | none => old

theorem storedAt_of_mem {cells : List Host.Cell} (hn : (cells.map (·.1)).Nodup) {c : Host.Cell} (hc : c ∈ cells) (old : Byte) :
    storedAt cells c.1 old = c.2 := by
  have hfind : cells.find? (fun d => d.1 == c.1) = some c := by
    obtain ⟨d, hd⟩ := Option.isSome_iff_exists.mp (List.find?_isSome (p := fun d => d.1 == c.1).mpr ⟨c, hc, by simp⟩)
    have hd1 : d.1 = c.1 := by simpa using List.find?_some hd
    rw [hd, List.inj_on_of_nodup_map hn (List.mem_of_find?_eq_some hd) hc hd1]
  rw [storedAt, hfind]

theorem storedAt_of_not_mem {cells : List Host.Cell} {a : Nat} (h : ∀ c ∈ cells, c.1 ≠ a) (old : Byte) : storedAt cells a old = old := by
  have hfind : cells.find? (fun d => d.1 == a) = none := List.find?_eq_none.mpr fun c hc => by simpa using h c hc
  rw [storedAt, hfind]

/-- Sixteen cells of one sector are all of its bytes. -/
theorem whole_sector {mine : List Host.Cell} {k a : Nat} (hn : (mine.map (·.1)).Nodup) (hk : ∀ c ∈ mine, c.1 / 16 = k)
    (hlen : 16 ≤ mine.length) (ha : a / 16 = k) : ∃ c ∈ mine, c.1 = a := by
  have hsub : (mine.map (·.1)).toFinset ⊆ Finset.Ico (16 * k) (16 * k + 16) := by
    intro x hx
    obtain ⟨c, hc, rfl⟩ := List.mem_map.mp (List.mem_toFinset.mp hx)
    have := hk c hc
    exact Finset.mem_Ico.mpr (by omega)
  have hcard : (Finset.Ico (16 * k) (16 * k + 16)).card ≤ (mine.map (·.1)).toFinset.card := by
    rw [List.toFinset_card_of_nodup hn, List.length_map, Nat.card_Ico]
    omega
  have hmem : a ∈ (mine.map (·.1)).toFinset := by
    rw [Finset.eq_of_subset_of_card_le hsub hcard]
    exact Finset.mem_Ico.mpr (by omega)
  exact List.mem_map.mp (List.mem_toFinset.mp hmem)

/-- Some cells of one sector put in the slice, where it holds the rest of the sector (R14). -/
theorem putCells_home {u : State} {pa : Nat} {mine : List Host.Cell} {l : SliceLine} (hu : u.cleanAgrees) (hn : (mine.map (·.1)).Nodup)
    (hk : ∀ c ∈ mine, c.1 / 16 = pa / 16) (hrest : heldValid u pa = true ∨ 16 ≤ mine.length)
    (hv : l.valid = setBit (lineAt u pa).valid (sectorIx pa) true) (hd : l.dirty = setBit (lineAt u pa).dirty (sectorIx pa) true) :
    let t := putLine { u with slice := writeCells u.slice mine } pa l
    t.cleanAgrees ∧ ∀ a, homeByte t a = storedAt mine a (homeByte u a) := by
  intro t
  have held : ∀ a, heldValid t a = if a / 16 = pa / 16 then true else heldValid u a := bit_putLine_setBit (·.valid) hv
  have dirty : ∀ a, bit (lineAt t a).dirty (sectorIx a) = if a / 16 = pa / 16 then true else bit (lineAt u a).dirty (sectorIx a) :=
    bit_putLine_setBit (·.dirty) hd
  have hslice : t.slice = writeCells u.slice mine := rfl
  have hmem : t.mem = u.mem := rfl
  have hother : ∀ a, a / 16 ≠ pa / 16 → ∀ c ∈ mine, c.1 ≠ a := fun a ha c hc he => ha (he ▸ hk c hc)
  rw [cleanAgrees_iff] at hu ⊢
  refine ⟨fun a => ?_, fun a => ?_⟩
  · rw [heldUnsaved, held, dirty, hslice, hmem]
    by_cases ha : a / 16 = pa / 16
    · simp [ha]
    · rw [readByte_writeCells_out _ (hother a ha)]
      simpa [ha, heldUnsaved] using hu a
  · rw [homeByte_eq, held, hslice, hmem]
    by_cases ha : a / 16 = pa / 16
    · rw [if_pos ha, if_pos rfl]
      by_cases hc : ∃ c ∈ mine, c.1 = a
      · obtain ⟨c, hc, rfl⟩ := hc
        rw [readByte_writeCells_in _ hc hn, storedAt_of_mem hn hc]
      · have hout : ∀ c ∈ mine, c.1 ≠ a := fun c hm he => hc ⟨c, hm, he⟩
        have hva : heldValid u a = true := by
          obtain ⟨hline, hsec⟩ := (sameSector_iff a pa).mp ha
          rcases hrest with h | h
          · rw [← h]
            simp only [heldValid, lineAt, hline, hsec]
          · exact absurd (whole_sector hn hk h ha) hc
        rw [readByte_writeCells_out _ hout, storedAt_of_not_mem hout, homeByte_eq, if_pos hva]
    · rw [if_neg ha, readByte_writeCells_out _ (hother a ha), storedAt_of_not_mem (hother a ha), homeByte_eq]

/-- The cells of one sector written (R14, R28). -/
theorem writeSectorCells_home {s : State} (pa : Nat) {cells : List Host.Cell} (poisoned : Bool) (hs : s.cleanAgrees)
    (hn : (cells.map (·.1)).Nodup) :
    (writeSectorCells s pa cells poisoned).cleanAgrees ∧
      ∀ a, homeByte (writeSectorCells s pa cells poisoned) a = if a / 16 = pa / 16 then storedAt cells a (homeByte s a) else homeByte s a := by
  have hmine : ∀ (a : Nat) (old : Byte),
      storedAt (cells.filter fun c => c.1 / 16 = pa / 16) a old = if a / 16 = pa / 16 then storedAt cells a old else old := by
    intro a old
    by_cases ha : a / 16 = pa / 16
    · rw [if_pos ha, storedAt, storedAt, List.find?_filter]
      congr 2
      funext c
      by_cases hc : c.1 = a <;> simp [hc, ha]
    · rw [if_neg ha]
      refine storedAt_of_not_mem (fun c hc he => ha ?_) old
      simpa [he] using (List.mem_filter.mp hc).2
  have hnm : ((cells.filter fun c => c.1 / 16 = pa / 16).map (·.1)).Nodup := hn.sublist (List.filter_sublist.map _)
  have hk : ∀ c ∈ cells.filter (fun c => c.1 / 16 = pa / 16), c.1 / 16 = pa / 16 := fun c hc => by simpa using (List.mem_filter.mp hc).2
  unfold writeSectorCells
  simp only [← hmine]
  generalize (cells.filter fun c => c.1 / 16 = pa / 16) = mine at hnm hk ⊢
  split
  · rename_i he
    rw [List.isEmpty_iff.mp he]
    exact ⟨hs, fun _ => rfl⟩
  · by_cases hw : 16 ≤ mine.length
    · simp only [hw, decide_true, if_true]
      exact putCells_home hs hnm hk (.inr hw) rfl rfl
    · have hf := fillSector_sameHome s pa hs
      simp only [hw, decide_false, Bool.false_eq_true, if_false, ← hf.2]
      exact putCells_home hf.1 hnm hk (.inl (heldValid_fillSector s rfl)) rfl rfl

/-- All cells of a line written, sector by sector (R14). -/
theorem writeLineCells_home {s : State} (line : Nat) {cells : List Host.Cell} (poisoned : Bool) (hs : s.cleanAgrees)
    (hn : (cells.map (·.1)).Nodup) (hline : ∀ c ∈ cells, c.1 / 128 = line) :
    let t := (List.range 8).foldl (fun s i => writeSectorCells s (line * 128 + 16 * i) cells poisoned) s
    t.cleanAgrees ∧ ∀ a, homeByte t a = storedAt cells a (homeByte s a) := by
  have key : ∀ n ≤ 8,
      let t := (List.range n).foldl (fun s i => writeSectorCells s (line * 128 + 16 * i) cells poisoned) s
      t.cleanAgrees ∧ ∀ a, homeByte t a = if a / 16 < line * 8 + n then storedAt cells a (homeByte s a) else homeByte s a := by
    intro n
    induction n with
    | zero =>
      refine fun _ => ⟨hs, fun a => ?_⟩
      split
      · refine (storedAt_of_not_mem (fun c hc he => ?_) _).symm
        have := hline c hc
        omega
      · rfl
    | succ n ih =>
      intro hle
      obtain ⟨hc, hb⟩ := ih (by omega)
      rw [List.range_succ, List.foldl_append]
      obtain ⟨hc', hb'⟩ := writeSectorCells_home (line * 128 + 16 * n) poisoned hc hn
      refine ⟨hc', fun a => ?_⟩
      simp only [List.foldl_cons, List.foldl_nil]
      rw [hb', hb]
      by_cases h1 : a / 16 = (line * 128 + 16 * n) / 16
      · rw [if_pos h1, if_neg (by omega), if_pos (by omega)]
      · rw [if_neg h1]
        exact if_congr (by omega) rfl rfl
  obtain ⟨hc, hb⟩ := key 8 (le_refl 8)
  refine ⟨hc, fun a => (hb a).trans ?_⟩
  split
  · rfl
  · refine (storedAt_of_not_mem (fun c hc he => ?_) _).symm
    have := hline c hc
    omega

/-- The home of an address is that of its line (R10). -/
theorem homeSocket_line (s : State) (pa : Nat) : homeSocket s (pa / 128 * 128) = homeSocket s pa := by
  have h : pa / 128 * 128 / 256 = pa / 256 := by omega
  simp only [homeSocket, homeIndex, h]

/-- A change of a home followed by a write there. -/
theorem sameHome.then_stores {s t u : State} {cells : List Host.Cell} (h : sameHome s t) (hs : s.cleanAgrees)
    (hw : t.cleanAgrees → u.cleanAgrees ∧ ∀ a, homeByte u a = storedAt cells a (homeByte t a)) :
    u.cleanAgrees ∧ ∀ a, homeByte u a = storedAt cells a (homeByte s a) := by
  obtain ⟨ht, hb⟩ := h hs
  obtain ⟨hu, hb'⟩ := hw ht
  exact ⟨hu, fun a => by rw [hb', hb]⟩

/-- A write at its home stores its cells and nothing else, however its line is cached (R14, R20). -/
theorem homeWrite_home {s : State} (attr : BitVec 2) {cells : List Host.Cell} (src : Nat) (who : Requester) (poisoned : Bool) {line : Nat}
    (hs : s.cleanAgrees) (hne : cells ≠ []) (hn : (cells.map (·.1)).Nodup) (hline : ∀ c ∈ cells, c.1 / 128 = line)
    (hup : socketFailed s (homeSocket s (line * 128)) = false) :
    (homeWrite s attr cells src who poisoned).cleanAgrees ∧
      ∀ a, homeByte (homeWrite s attr cells src who poisoned) a = storedAt cells a (homeByte s a) := by
  obtain ⟨c, cs, rfl⟩ := List.exists_cons_of_ne_nil hne
  have hc : c.1 / 128 = line := hline c (by simp)
  rw [← hc, homeSocket_line] at hup
  simp only [homeWrite, hup, Bool.false_eq_true, if_false]
  -- reservations and rewrite masks are no part of the home's bytes
  generalize hn1 : noteRewrite (noteRewrite _ _ _ _ _) _ _ _ _ = n
  have hnote : sameHome s n := by
    rw [← hn1]
    exact ((reservations_sameCopy s _).trans ((noteRewrite_sameCopy ..).trans (noteRewrite_sameCopy ..))).sameHome
  rw [hc]
  split
  · refine (hnote.trans (transientCopy_sameHome n c.1)).then_stores hs fun hp => ?_
    obtain ⟨hw, hb⟩ := writeLineCells_home line poisoned hp hn hline
    obtain ⟨hw', hb'⟩ := (evictLine_sameHome _ c.1).trans (horizon_sameCopy _ _).sameHome hw
    exact ⟨hw', fun a => (hb' a).trans (hb a)⟩
  · exact (hnote.trans (touchLine_sameHome n c.1 attr)).then_stores hs fun hp => writeLineCells_home line poisoned hp hn hline

end Sys2Proof.Machine

open Sys2Proof Sys2Proof.Machine

/-- Settles O51: what goes before the write and after it leaves the home's bytes alone (`sameHome`), and each sector takes its own cells. -/
theorem homeStore : Obligations.HomeStore := by
  unfold Obligations.HomeStore
  intro s attr cells src who poisoned line hs hne hn hline hup
  exact homeWrite_home attr src who poisoned hs hne hn hline hup

end

