-- ==== Sys2Proof/Proofs/Requests.lean ====
section
/-! Request packets at their targets (R15, R36, R78): what a step of one kind of request does. -/

namespace Sys2Proof.Machine

-- one declaration at a time: a thread for each would be too many
set_option Elab.async false

/-- The arrivals of one kind that a slice has accepted on a hop and that can be applied now. -/
def dueAt (s : State) (h : Hop) (kind : Msg → Bool) : List (Arrival × Nat) :=
  s.inbox.zipIdx.filter fun a => a.1.hop == h && kind a.1.pkt.msg && canServe s a

section
variable {mnemonic : String} {s : State} {h : Hop} {kind : Msg → Bool} {f : Packet → State → State} {t : Nat} {s1 : State}

theorem onRequest_brings (hb : brings s h kind = some t) (hfirst : firstAtInput s h t = true) :
    onRequest mnemonic s h kind f = onPacket mnemonic s h kind fun p s => if isMemory p.dst then acceptArrival h t p s else f p s := by
  simp [onRequest, hb, hfirst]

/-- A packet that its link and stream accept joins a slice's arrivals, or takes effect at another target. -/
theorem onRequest_got {p : Packet} (hb : brings s h kind = some t) (hfirst : firstAtInput s h t = true) (ht : take s h kind = .got p s1) :
    onRequest mnemonic s h kind f = .next (if isMemory p.dst then acceptArrival h t p s1 else f p s1) := by
  simp only [onRequest_brings hb hfirst, onPacket, ht]

theorem onRequest_passed (hb : brings s h kind = some t) (hfirst : firstAtInput s h t = true) (ht : take s h kind = .passed s1) :
    onRequest mnemonic s h kind f = .next s1 := by
  simp only [onRequest_brings hb hfirst, onPacket, ht]

/-- Without a packet at the hop one of the arrivals that are due is served: the choice is always one of them. -/
theorem onRequest_serves (hb : brings s h kind = none) (hdue : dueAt s h kind ≠ []) :
    ∃ a ∈ dueAt s h kind, onRequest mnemonic s h kind f = .next (serveArrival (pick s (dueAt s h kind).length).2 a.1) := by
  have hlt : (pick s (dueAt s h kind).length).1 < (dueAt s h kind).length := Nat.mod_lt _ (List.length_pos_iff.mpr hdue)
  refine ⟨(dueAt s h kind)[(pick s (dueAt s h kind).length).1], List.getElem_mem hlt, ?_⟩
  have hserve : onRequest mnemonic s h kind f = serveInbox mnemonic s h kind := by simp only [onRequest, hb]
  rw [hserve]
  unfold serveInbox
  split
  · rename_i hnil
    exact absurd hnil hdue
  · unfold dueAt at hlt ⊢
    simp only [List.getElem?_eq_getElem hlt]

end

/-- A step of a kind of request: what it accepts, what it passes over, and what it serves. -/
theorem onRequest_completes (mnemonic : String) (s : State) (h : Hop) (kind : Msg → Bool) (f : Packet → State → State) :
    (∀ t p s1, brings s h kind = some t → firstAtInput s h t = true → take s h kind = .got p s1 →
      onRequest mnemonic s h kind f = .next (if isMemory p.dst then acceptArrival h t p s1 else f p s1))
    ∧ (∀ t s1, brings s h kind = some t → firstAtInput s h t = true → take s h kind = .passed s1 → onRequest mnemonic s h kind f = .next s1)
    ∧ (brings s h kind = none → dueAt s h kind ≠ [] →
      ∃ a ∈ dueAt s h kind, onRequest mnemonic s h kind f = .next (serveArrival (pick s (dueAt s h kind).length).2 a.1)) :=
  ⟨fun _ _ _ => onRequest_got, fun _ _ => onRequest_passed, onRequest_serves⟩

/-- A marker held back by nothing any more is answered before the hop's next packet is looked at (R78). -/
theorem execFm_answers {s : State} {h : Hop} {p : Packet} (hp : (s.markers.find? fun p => streamHop p == h && !markerBlocked s p) = some p) :
    execFm h s = .next (answerMarker { s with markers := s.markers.erase p } p) := by
  simp only [execFm, hp]

theorem execFm_onRequest {s : State} {h : Hop} (hp : (s.markers.find? fun p => streamHop p == h && !markerBlocked s p) = none) :
    execFm h s = onRequest "FM" s h isFm fun p s => if markerBlocked s p then { s with markers := s.markers ++ [p] } else answerMarker s p := by
  simp only [execFm, hp]

end Sys2Proof.Machine

open Sys2Proof Sys2Proof.Machine

/-- Settles O34: the six kinds of request and FM are one step, `onRequest`, each with its own effect at other targets than a slice. -/
theorem requestPackets : Obligations.RequestPackets := by
  unfold Obligations.RequestPackets
  intro h s
  refine ⟨fun i kind f hmem => ?_, fun p hp => execFm_answers hp, fun hp => ?_⟩
  · simp only [List.mem_cons, Prod.mk.injEq, List.not_mem_nil, or_false] at hmem
    obtain ⟨rfl, rfl, rfl⟩ | ⟨rfl, rfl, rfl⟩ | ⟨rfl, rfl, rfl⟩ | ⟨rfl, rfl, rfl⟩ | ⟨rfl, rfl, rfl⟩ | ⟨rfl, rfl, rfl⟩ := hmem
    · exact onRequest_completes "RD" s h isRd _
    · exact onRequest_completes "WR" s h isWr _
    · exact onRequest_completes "AT" s h isAtPkt _
    · exact onRequest_completes "LX" s h isLx _
    · exact onRequest_completes "PF" s h isPf _
    · exact onRequest_completes "ICINV_COMMIT" s h isIcinvCommit _
  · have hfm : exec (.fm h) s = _ := execFm_onRequest hp
    rw [hfm]
    exact onRequest_completes "FM" s h isFm _

end

