-- ==== Sys2Proof/Proofs/HomeUpkeep.lean ====
section
/-! Pin commands, patrol scrub and error counters (R22, R29, R30). -/

namespace Sys2Proof.Machine

-- one declaration at a time: a thread for each would be too many
set_option Elab.async false

section
variable {s : State} {n : Nat}

/-- A write to PINCTL while its slice is busy is ignored (R22). -/
theorem writePinctl_of_busy (v : Word64) (hbusy : regBit s (.pinctl n) 61 = true) : writePinctl s n v = s := by
  simp [writePinctl, hbusy]

/-- A write of command 1 stores the range and unpins its lines. -/
theorem writePinctl_unpinRange {w : Word64} (hr : regExists (.pinctl n) = true) (hbusy : regBit s (.pinctl n) 61 = false)
    (hcmd : fld w 63 62 = 1) :
    let first := fld w 51 16 * 65536
    let len := (if fld w 15 0 = 0 then 65536 else fld w 15 0) * 65536
    writePinctl s n w = regSetBit (unpin (regPut s (.pinctl n) (regWritten (.pinctl n) (regGet s (.pinctl n)) w)) n
      fun line => decide (first ≤ line * 128 ∧ line * 128 < first + len)) (.pinctl n) 61 true := by
  simp [writePinctl, hr, hbusy, hcmd]

/-- A write of command 2 unpins every line of the slice. -/
theorem writePinctl_unpinAll {w : Word64} (hr : regExists (.pinctl n) = true) (hbusy : regBit s (.pinctl n) 61 = false)
    (hcmd : fld w 63 62 = 2) :
    writePinctl s n w = regSetBit (unpin (regPut s (.pinctl n) (regWritten (.pinctl n) (regGet s (.pinctl n)) w)) n
      fun _ => true) (.pinctl n) 61 true := by
  simp [writePinctl, hr, hbusy, hcmd]

theorem execPinctlComplete_of_busy (hr : regExists (.pinctl n) = true) (hbusy : regBit s (.pinctl n) 61 = true) :
    execPinctlComplete n s = .next (regSetBit s (.pinctl n) 61 false) := by
  simp [execPinctlComplete, hr, hbusy]

/-- With no demand at its slice the scrub reads the next half-line (R29). -/
theorem execScrubRead_of_idle (hm : isMemory n = true) (hrun : running s n = true) (hon : regBit s .scrubcfg 31 = true)
    (hlinks : ∀ l ∈ s.links, l.hop.dst = n → arrived s l.hop = none) (hin : ∀ a ∈ s.inbox.zipIdx, a.1.hop.dst = n → canServe s a = false) :
    let k := sget 0 s.scrubPos n
    execScrubRead n s = .next (dramCheck { s with scrubPos := sset 0 s.scrubPos n ((k + 1) % chipletHalves) } (halfAddress s n k)) := by
  have hwire : (s.links.any fun l => l.hop.dst == n && (arrived s l.hop).isSome) = false := by
    refine List.any_eq_false.mpr fun l hl hc => ?_
    simp only [Bool.and_eq_true, beq_iff_eq] at hc
    simp [hlinks l hl hc.1] at hc
  have hbox : (s.inbox.zipIdx.any fun a => a.1.hop.dst == n && canServe s a) = false := by
    refine List.any_eq_false.mpr fun a ha hc => ?_
    simp only [Bool.and_eq_true, beq_iff_eq] at hc
    simp [hin a ha hc.1] at hc
  simp [execScrubRead, hwire, hbox, hm, hrun, hon]

/-- A write with clear set zeroes the counters (R30). -/
theorem writeMemerr_of_clear {v : Word64} (hr : regExists (.memerr n) = true) (hv : bit v 38 = true) :
    writeMemerr s n v = regSet (regPut s (.memerr n) (regWritten (.memerr n) (regGet s (.memerr n)) v)) (.memerr n) 63 40 0 := by
  simp [writeMemerr, hr, hv]

end

end Sys2Proof.Machine

open Sys2Proof Sys2Proof.Machine

/-- Settles O38: each command is its register's write with the command's field set. -/
theorem homeEvents : Obligations.HomeEvents := by
  unfold Obligations.HomeEvents
  intro n v
  refine ⟨fun s hr hbusy => ⟨?_, ?_⟩, fun s hr hbusy => ⟨?_, ?_, execPinctlComplete_of_busy hr hbusy⟩,
    fun s hm hrun hon hlinks hin => execScrubRead_of_idle hm hrun hon hlinks hin, fun s hr => ?_⟩
  · exact congrArg _ (writePinctl_unpinRange hr hbusy (fld_setFld_same v 1 (by decide) (by decide)))
  · exact congrArg _ (writePinctl_unpinAll hr hbusy (fld_setFld_same v 2 (by decide) (by decide)))
  · exact congrArg _ (writePinctl_of_busy _ hbusy)
  · exact congrArg _ (writePinctl_of_busy _ hbusy)
  · exact congrArg _ (writeMemerr_of_clear hr (bit_setBit_same v true (by decide)))

end

