-- ==== Sys2Proof/Proofs/Saves.lean ====
section
/-! Saves, resumes and the end of an emergency save (R400 to R409). -/

namespace Sys2Proof.Machine

-- one declaration at a time: a thread for each would be too many
set_option Elab.async false

/-! ### PREEMPT -/

section
variable {s : State} {v : Word64}

/-- While busy only a cancel has an effect (R400). -/
theorem writePreempt_of_busy (hbusy : regBit s .preempt 61 = true) :
    writePreempt s v = if fld v 63 62 = 3 then cancelSave s else s := by
  simp [writePreempt, hbusy]

theorem writePreempt_of_idle (hbusy : regBit s .preempt 61 = false) :
    writePreempt s v =
      let put := regPut s .preempt (regWritten .preempt (regGet s .preempt) v)
      if fld v 63 62 = 1 then startSave put (fld v 10 0) else if fld v 63 62 = 2 then startResume put (fld v 10 0) (bit v 11) else put := by
  simp [writePreempt, hbusy]

/-- The command field of a word is what was put there. -/
theorem command_setFld (v : Word64) {c : Nat} (hc : c < 4) : fld (setFld v 63 62 c) 63 62 = c :=
  (fld_setFld_same v c (by decide) (by decide)).trans (Nat.mod_eq_of_lt hc)

/-- The queue is a field apart from the command. -/
theorem queue_setFld (v : Word64) (c : Nat) : fld (setFld v 63 62 c) 10 0 = fld v 10 0 := fld_setFld_apart v c (by decide) (by decide)

theorem emergency_setFld (v : Word64) (c : Nat) : bit (setFld v 63 62 c) 11 = bit v 11 := bit_setFld_apart v c (by decide) (by decide)

end

/-! ### Saving -/

/-- A pending save of a grid with something to do moves on (R401, R402). -/
theorem execTeamSave_of_pending {s : State} {n : Nat} {g : Grid} (hg : gridOf s n = some g) (hp : savePending s g = true)
    (hlive : g.terminated = false) :
    let todo := (s.teams.filter fun (t : Team) => t.grid == n).flatMap fun t => (agentsOfTeam s t).filter (releasable s t)
    let reads := (s.teams.filter fun (t : Team) => t.grid == n).flatMap fun t => (agentsOfTeam s t).filter (liveDue s)
    (todo ≠ [] ∨ newlyDrained s g ≠ [] ∨ reads ≠ [] ∨ saveReady s = true) →
      execTeamSave n s = .next (settleSaves (markDrained (reads.foldl readLive (todo.foldl beginRelease s)) (newlyDrained s g))) := by
  intro todo reads hdue
  have hc : (savePending s g && !g.terminated) = true := by simp [hp, hlive]
  simp only [execTeamSave, hg, hc, if_true]
  refine if_neg fun hnone => ?_
  simp only [Bool.and_eq_true, List.isEmpty_iff, Bool.not_eq_true'] at hnone
  obtain ⟨⟨⟨htodo, hmarks⟩, hreads⟩, hready⟩ := hnone
  rcases hdue with h | h | h | h
  · exact h htodo
  · exact h hmarks
  · exact h hreads
  · simp [hready] at h

/-! ### Restoring -/

theorem hostHolds_of_none {s : State} (h : s.hostHeld = []) (pa n : Nat) : hostHolds s pa n = false := by
  simp [hostHolds, heldByHost, h]

section
variable {s s1 s2 : State} {n : Nat} {g : Grid} {a : SaveArea} {cores : List Nat} (hg : gridOf s n = some g)
  (ha : areaOf s (regFld s .preempt 10 0) (regBit s .preempt 11) = some a) (hbusy : regBit s .preempt 61 = true) (hsave : s.saving = none)
  (hd : dispatching s = true) (hts : (a.teams.filter fun t => t.grid == n) ≠ []) (hlive : g.terminated = false)
  (hhost : regBit s .preempt 11 = true ∨ s.hostHeld = [])
include hhost in
/-- Nothing of the area that a resume reads is held by the host. -/
theorem areaFree (pa k : Nat) : (!regBit s .preempt 11 && hostHolds s pa k) = false := by
  rcases hhost with h | h
  · simp [h]
  · simp [hostHolds_of_none h]

include hg ha hbusy hsave hd hts hlive hhost

/-- Teams of a grid with a sound save placed on cores that accept them (R402, R404). -/
theorem execTeamRestore_places (hdig : digestMatches s a (regFld s .preempt 10 0) = (true, s1)) (hco : g.hdr.cohort = false) (hne : cores ≠ [])
    (hlen : cores.length ≤ (a.teams.filter fun t => t.grid == n).length) (hshed : classShed s1 g.cls = false)
    (hheld : heldByCohort s1 g = false) (hput : restoreTeams a g ((a.teams.filter fun t => t.grid == n).zip cores) s1 = some s2) :
    execTeamRestore n cores s = .next (dropSaved s2 (regFld s .preempt 10 0) (regBit s .preempt 11)
      (((a.teams.filter fun t => t.grid == n).map (·.uid)).take cores.length)) := by
  have hwrong : ¬ (cores = [] ∨ (a.teams.filter fun t => t.grid == n).length < cores.length) := by simp [hne, hlen]
  simp [execTeamRestore, hg, ha, hbusy, hsave, hd, hts, hlive, areaFree hhost, hdig, hco, hshed, hheld, hput, hwrong]

/-- A grid whose save fails its digest ends with nothing placed (R403). -/
theorem execTeamRestore_bad (hdig : digestMatches s a (regFld s .preempt 10 0) = (false, s1)) :
    execTeamRestore n cores s = .next (dropSaved (badSave s1 g (regFld s .preempt 10 0)) (regFld s .preempt 10 0) (regBit s .preempt 11)
      ((a.teams.filter fun t => t.grid == n).map (·.uid))) := by
  simp [execTeamRestore, hg, ha, hbusy, hsave, hd, hts, hlive, areaFree hhost, hdig]

end

/-- What a sound area in device memory is (R28, R403). -/
theorem areaSound_iff (s : State) (base : Nat) :
    areaSound s base = true ↔ leNat (homeBytes s (base + 32) 8) < 2 ^ 32
      ∧ base + 32 + leNat (homeBytes s (base + 32) 8) ≤ dramTop s ∧ rangePoisoned s base (32 + leNat (homeBytes s (base + 32) 8)) = false
      ∧ homeBytes s base 32 = sha3 (homeBytes s (base + 32) (leNat (homeBytes s (base + 32) 8))) := by
  simp only [areaSound, Bool.and_eq_true, decide_eq_true_eq, Bool.not_eq_true', beq_iff_eq, and_assoc]
  exact and_congr_right fun _ => and_congr_right fun _ => and_congr_right fun _ => eq_comm

/-! ### The end of an emergency save -/

theorem execEmergencySaveComplete_of_done {s : State} {e : EmSave} (he : s.em = some e) (hb : regBit s .emstat 62 = true)
    (hp : e.pending = []) (hl : e.lost = []) (hh : hostReached s = true) :
    let s1 := emWrite s 272 (sha3 (emDirectory e))
    let s2 := emWrite { s1 with em := some { e with valid := true } } 256 (leBytes 8 1)
    execEmergencySaveComplete s = .next (powerDownCompute (regSetBit (regSetBit s2 .emstat 62 false) .emstat 61 true)) := by
  simp [execEmergencySaveComplete, he, hb, hp, hl, hh]

end Sys2Proof.Machine

open Sys2Proof Sys2Proof.Machine

/-- Settles O42: the commands of PREEMPT are writes of it, and each other event takes the branch that its conditions name. -/
theorem saveEvents : Obligations.SaveEvents := by
  unfold Obligations.SaveEvents
  intro n v
  refine ⟨fun s hbusy => ⟨?_, ?_, ?_⟩, fun s hidle => ⟨?_, ?_, ?_⟩, fun s g hg hp hlive => execTeamSave_of_pending hg hp hlive, ?_, ?_,
    areaSound_iff, fun s e he hb hp hl hh => execEmergencySaveComplete_of_done he hb hp hl hh, fun s => rfl⟩
  · exact congrArg _ ((writePreempt_of_busy hbusy).trans (by simp [command_setFld]))
  · exact congrArg _ ((writePreempt_of_busy hbusy).trans (by simp [command_setFld]))
  · exact congrArg _ ((writePreempt_of_busy hbusy).trans (by simp [command_setFld]))
  · exact congrArg _ ((writePreempt_of_idle hidle).trans (by simp [command_setFld, queue_setFld]))
  · exact congrArg _ ((writePreempt_of_idle hidle).trans (by simp [command_setFld, queue_setFld, emergency_setFld]))
  · exact congrArg _ ((writePreempt_of_idle hidle).trans (by simp [command_setFld]))
  · intro s g a cores s1 s2 q em ts hg ha hbusy hsave hd hts hlive hhost hdig hco hne hlen hshed hheld hput
    exact execTeamRestore_places hg ha hbusy hsave hd hts hlive hhost hdig hco hne hlen hshed hheld hput
  · intro s g a cores s1 q em ts hg ha hbusy hsave hd hts hlive hhost hdig
    exact execTeamRestore_bad hg ha hbusy hsave hd hts hlive hhost hdig

end

