-- ==== Sys2Proof/Proofs/Failures.lean ====
section
/-! Failures of dies and of scale-up links (R28, R398, R399, R423). -/

namespace Sys2Proof.Machine

-- one declaration at a time: a thread for each would be too many
set_option Elab.async false

/-- A die that runs has not failed yet. -/
theorem socketFailed_of_running {s : State} {n : Nat} (h : running s n = true) : socketFailed s n = false := by
  simp only [running, Bool.and_eq_true, Bool.not_eq_true'] at h
  exact h.2

/-- A running compute chiplet fails by the rule of its kind (R398). -/
theorem failDie_of_compute {s : State} {n : Nat} (hk : isCompute n = true) (hrun : running s n = true) : failDie s n = failCompute s n := by
  simp [failDie, socketFailed_of_running hrun, hk]

theorem execDieFailure_of_running {s : State} {n : Nat} (hk : isCompute n = false) (hrun : running s n = true) :
    execDieFailure n s = .next (failDie s n) := by
  simp [execDieFailure, hk, hrun]

theorem execComputeChipletFailure_of_running {s : State} {n : Nat} (hk : isCompute n = true) (hrun : running s n = true) :
    execComputeChipletFailure n s = .next (failCompute s n) := by
  simp [execComputeChipletFailure, hk, hrun, failDie_of_compute hk hrun]

theorem execDieErrorReport_of_running {s : State} {n : Nat} (hrun : running s n = true) : execDieErrorReport n s = .next (failDie s n) := by
  simp [execDieErrorReport, hrun]

theorem execScaleupLinkState_of_change {s : State} {n : Nat} {st : LinkState} (hn : n < 16) (hst : linkState s n ≠ st) :
    execScaleupLinkState n st s = .next (setLinkState s n st) :=
  if_neg (by simp [hst, hn])

/-- A link that has been recovering for 50 ms goes down (R423). -/
theorem execScaleupRecoveryTimeout_of_due {s : State} {n : Nat} {l : Nat × LinkState × Nat} (hl : l ∈ s.links18) (hn : l.1 = n)
    (hst : l.2.1 = .recovering) (ht : l.2.2 + 50000000 ≤ s.time) : execScaleupRecoveryTimeout n s = .next (setLinkState s n .down) :=
  if_pos (List.any_eq_true.mpr ⟨l, hl, by simp [hn, hst, ht]⟩)

end Sys2Proof.Machine

open Sys2Proof Sys2Proof.Machine

/-- Settles O46: a running die's failure is `failDie`, which is `failCompute` for a compute chiplet. -/
theorem failureEvents : Obligations.FailureEvents := by
  unfold Obligations.FailureEvents
  intro n
  refine ⟨fun s hk hrun => execDieFailure_of_running hk hrun, fun s hk hrun => execComputeChipletFailure_of_running hk hrun,
    fun s hrun => execDieErrorReport_of_running hrun, fun s st hn hst => execScaleupLinkState_of_change hn hst, fun s h => ?_⟩
  obtain ⟨l, hl, hn, hst, ht⟩ := h
  exact execScaleupRecoveryTimeout_of_due hl hn hst ht

end

