-- ==== Sys2Proof/Proofs/Harts.lean ====
section
/-! Hart memory operations and management commands (R420 to R422, R426, R427). -/

namespace Sys2Proof.Machine

-- one declaration at a time: a thread for each would be too many
set_option Elab.async false

/-! ### Harts -/

@[simp] theorem hartOf_updHart_same (s : State) (h : Nat) (f : Hart → Hart) : hartOf (updHart s h f) h = f (hartOf s h) := by
  simp [hartOf, updHart, sget_supd]

/-- An access made behind its instruction is still taken at the instruction's pc. -/
@[simp] theorem past_pc (t : Hart) : t.past.pc - 4 = t.pc := add_sub_cancel_right t.pc 4

@[simp] theorem past_rd (t : Hart) : t.past.rd = t.rd := rfl

@[simp] theorem past_paths (t : Hart) : t.past.paths = t.paths := rfl

section
variable {s : State} {h pa : Nat} {op : HartOp} {go : State → State}

theorem hartAtomic_misaligned (hm : pa % op.bytes ≠ 0) : hartAtomic s h pa op go = trapHart s h (op.faultCode - 1) (hartOf s h).pc := by
  simp [hartAtomic, hm]

theorem hartAtomic_refused (ha : pa % op.bytes = 0) (hm : hartMayTouch s h pa op.bytes = false) :
    hartAtomic s h pa op go = trapHart s h op.faultCode (hartOf s h).pc := by
  simp [hartAtomic, ha, hm]

theorem hartAtomic_goes (ha : pa % op.bytes = 0) (hm : hartMayTouch s h pa op.bytes = true) :
    hartAtomic s h pa op go = go (updHart s h Hart.past) := by
  simp [hartAtomic, ha, hm]

end

theorem execHartFence_of_free {s : State} {h : Nat} {predW succR : Bool} (hf : hartFree s h = true)
    (hw : (predW || succR) = true → hartWaits s h = false) :
    execHartFence h predW succR s = .next (if predW then releaseHart (updHart s h Hart.past) h else updHart s h Hart.past) := by
  refine if_neg ?_
  cases hps : (predW || succR) with
  | false => simp [hf]
  | true => simp [hf, hw hps]

/-- Whatever its width, an LR or SC is of 4 or 8 bytes. -/
theorem hartMay_word {s : State} {h pa : Nat} {op : HartOp} (w64 : Bool) (hb : op.bytes = if w64 then 8 else 4) (hop : op ≠ .fetch)
    (hf : hartFree s h = true) : hartMay s h pa op = true := by
  have hsize : 0 < op.bytes ∧ op.bytes ≤ 64 := by rw [hb]; cases w64 <;> decide
  cases op <;> simp_all [hartMay]

/-- An AMO's turn comes to `hartAtomic` (R421). -/
theorem execHartAmo_of_due {s : State} {h : Nat} {q : HartAmo} (hm : hartMay s h q.pa (.amo q.op q.w64 q.aq q.v) = true)
    (hw : q.rl = true → hartWaits s h = false) :
    execHartAmo h q s = .next (hartAtomic s h q.pa (.amo q.op q.w64 q.aq q.v) fun s =>
      if q.rl && !(hartOf s h).paths.isEmpty then
        releaseHart (updHart s h fun t => { t with next := some (q.pa, .amo q.op q.w64 q.aq q.v) }) h
      else sendAmo s h q.pa (.amo q.op q.w64 q.aq q.v)) := by
  refine if_neg ?_
  cases hrl : q.rl with
  | false => simp [hm]
  | true => simp [hm, hw hrl]

theorem execHartLr_of_aligned {s : State} {h pa : Nat} {w64 : Bool} (hf : hartFree s h = true) (ha : pa % (if w64 then 8 else 4) = 0)
    (ht : hartMayTouch s h pa (if w64 then 8 else 4) = true) :
    execHartLr h pa w64 s = .next (hartAccess (updHart s h Hart.past) h pa (.lr w64) (hartOf s h).rd true (hartOf s h).pc) := by
  have hm : hartMay s h pa (.lr w64) = true := hartMay_word w64 rfl (by simp) hf
  have hgo := hartAtomic_goes (op := .lr w64) (go := fun s => hartAccess s h pa (.lr w64) (hartOf s h).rd true ((hartOf s h).pc - 4)) ha ht
  simp only [execHartLr, hm, hgo, Bool.not_true, Bool.false_eq_true, if_false, hartOf_updHart_same, past_rd, past_pc]

/-- A store-conditional goes to the home of an address in DRAM; outside it fails, where nothing stops it (R421). -/
theorem execHartSc_of_aligned {s : State} {h pa : Nat} {w64 : Bool} (v : Word64) (hf : hartFree s h = true)
    (ha : pa % (if w64 then 8 else 4) = 0) (ht : hartMayTouch s h pa (if w64 then 8 else 4) = true) :
    execHartSc h pa w64 v s = .next (if dramTop s ≤ pa && (systemStop s pa false).isNone then
        updHart (updHart s h Hart.past) h fun t => t.load t.rd true 8 1
      else hartAccess (updHart s h Hart.past) h pa (.sc w64 v) (hartOf s h).rd true (hartOf s h).pc) := by
  have hm : hartMay s h pa (.sc w64 v) = true := hartMay_word w64 rfl (by simp) hf
  have hstop : systemStop (updHart s h Hart.past) pa false = systemStop s pa false := rfl
  have htop : dramTop (updHart s h Hart.past) = dramTop s := rfl
  simp only [execHartSc, hm, hartAtomic_goes (op := .sc w64 v) ha ht, Bool.not_true, Bool.false_eq_true, if_false, hartOf_updHart_same, past_rd,
    past_pc, hstop, htop]

section
variable {s : State} {h pa : Nat} {op : HartOp} {rd : HartReg} {signed : Bool} {pc : Word64}

theorem hartAccess_refused (hm : hartMayTouch s h pa op.bytes = false) : hartAccess s h pa op rd signed pc = trapHart s h op.faultCode pc := by
  simp [hartAccess, hm]

theorem hartAccess_stopped {code : Nat} (hm : hartMayTouch s h pa op.bytes = true) (hs : hartStop s pa op.bytes op = some code) :
    hartAccess s h pa op rd signed pc = trapHart s h code pc := by
  simp [hartAccess, hm, hs]

theorem hartAccess_starts (hm : hartMayTouch s h pa op.bytes = true) (hs : hartStop s pa op.bytes op = none) :
    hartAccess s h pa op rd signed pc = startHart s h pa op rd signed pc := by
  simp [hartAccess, hm, hs]

end

/-- Only a load looks into the shared cache; the part of anything else travels (R90, R421). -/
theorem sendHartPart_travels {s : State} {o : HartPend} {p : Nat × Nat} {d : Nat} (ho : ∀ k, o.op ≠ .load k) (hd : destOf s p.1 = some d) :
    sendHartPart s o p = sendTx (if o.op.writes then updHart s o.hart fun t => { t with paths := addPath t.paths ⟨d, planeOf p.1⟩ } else s)
      30 d p.1 (.hart o.id o.hart p.1 (o.op.part o.pa p)) := by
  cases hop : o.op with
  | load k => exact absurd hop (ho k)
  | _ => simp only [sendHartPart, hop, hd]

/-! ### A domain's reset (R422) -/

section
variable (s : State) (hs : List Nat)

theorem mem_reservations_dropHarts (r : Reservation) :
    r ∈ (hs.foldl dropHart s).reservations ↔ r ∈ s.reservations ∧ r.hart ∉ hs := by
  induction hs generalizing s with
  | nil => simp
  | cons h hs ih =>
    rw [List.foldl_cons, ih]
    simp [dropHart, and_assoc]

theorem hartOf_dropHart (h k : Nat) : hartOf (dropHart s h) k = if k = h then { hartInit with markers := (hartOf s k).markers } else hartOf s k := by
  by_cases hk : k = h <;> simp [hartOf, dropHart, sget_supd, hk]

/-- A hart that is dropped is zeroed but for the replies to its markers that are still out. -/
theorem hartOf_dropHarts {k : Nat} (hk : k ∈ hs) : hartOf (hs.foldl dropHart s) k = { hartInit with markers := (hartOf s k).markers } := by
  have key : ∀ (hs : List Nat) (s : State),
      hartOf (hs.foldl dropHart s) k = if k ∈ hs then { hartInit with markers := (hartOf s k).markers } else hartOf s k := by
    intro hs
    induction hs with
    | nil => simp
    | cons h hs ih =>
      intro s
      rw [List.foldl_cons, ih, hartOf_dropHart]
      by_cases h1 : k = h <;> by_cases h2 : k ∈ hs <;> simp [h1, h2]
  rw [key, if_pos hk]

theorem harts_dropHarts {k : Nat} (hk : k < 64) : bit (hs.foldl dropHart s).harts k = (bit s.harts k && !hs.contains k) := by
  induction hs generalizing s with
  | nil => simp
  | cons h hs ih =>
    rw [List.foldl_cons, ih]
    show (bit (setBit s.harts h false) k && _) = _
    by_cases h1 : k = h
    · subst h1
      simp [bit_setBit_same _ _ hk]
    · simp [bit_setBit_ne _ _ h1, h1]

theorem frame_dropHarts : (hs.foldl dropHart s).agents = s.agents ∧ (hs.foldl dropHart s).cores = s.cores :=
  foldl_keeps (P := fun t : State => t.agents = s.agents ∧ t.cores = s.cores) (f := dropHart) (fun _ _ h => h) hs ⟨rfl, rfl⟩

end

/-- A domain's reset drops its harts with their lines and touches no agent or core (R422). -/
theorem execDomainReset_drops (s : State) (d : Nat) :
    ∃ t, execDomainReset d s = .next t ∧ (∀ k ∈ domainHarts s d, ∀ r ∈ t.reservations, r.hart ≠ k)
      ∧ (∀ k ∈ domainHarts s d, hartOf t k = { hartInit with markers := (hartOf s k).markers } ∧ ∀ l ∈ t.sbxLines, bit l.harts k = false)
      ∧ (∀ k < 64, bit t.harts k = (bit s.harts k && !(domainHarts s d).contains k)) ∧ t.agents = s.agents ∧ t.cores = s.cores := by
  refine ⟨_, rfl, fun k hk r hr he => ?_, fun k hk => ⟨hartOf_dropHarts s _ hk, fun l hl => ?_⟩, fun k hk => harts_dropHarts s _ hk,
    (frame_dropHarts s _).1, (frame_dropHarts s _).2⟩
  · exact ((mem_reservations_dropHarts s _ r).mp hr).2 (he ▸ hk)
  · have hnot := (List.mem_filter.mp hl).2
    simp only [Bool.not_eq_true', Bool.or_eq_false_iff, List.any_eq_false] at hnot
    simpa using hnot.1 k hk

/-! ### Management commands -/

section
variable {s : State} {d : Nat} (hd : d < 64)
include hd

theorem execMgmtDebugEnable_of_domain : execMgmtDebugEnable d s = .next { s with debugOn := setBit s.debugOn d true } := by
  simp only [execMgmtDebugEnable, hd, if_true]

theorem execMgmtDebugDisable_of_domain : ∃ t, execMgmtDebugDisable d s = .next t ∧ t.debugOn = setBit s.debugOn d false :=
  ⟨_, if_neg (Nat.not_le.mpr hd), rfl⟩

end

theorem queueCommand_of_command {s : State} {cmd : Instr} (h : isCommand cmd = true) : queueCommand s cmd = { s with mgmt := s.mgmt ++ [cmd] } :=
  if_pos h

theorem execFirmwareUpdate_of_image {s : State} {n : Nat} (bytes : List Byte) (hn : n < 4) :
    execFirmwareUpdate n bytes s = .next { s with staged := (s.staged.filter fun e => e.1 != n) ++ [(n, bytes)] } := by
  simp only [execFirmwareUpdate, hn, if_true]

theorem execAttestationRequest_of_nonce {s : State} {nonce : List Byte} (hn : nonce.length = 32) (hb : s.boot = .done) :
    execAttestationRequest nonce s = .next (emitOut s (.report (reportBytes s nonce) (Config.attestationSignature (reportBytes s nonce)))) :=
  if_neg (by simp [hn, hb])

end Sys2Proof.Machine

open Sys2Proof Sys2Proof.Machine

/-- Settles O47: `hartAtomic` says when an AMO, LR or SC travels, `hartAccess` when an access does, and a domain's reset drops its harts one
by one. -/
theorem sandboxEvents : Obligations.SandboxEvents := by
  unfold Obligations.SandboxEvents
  intro h n
  refine ⟨fun s predW succR hf hw => execHartFence_of_free hf hw, ?amo, ?reserved, ?access, ?part, ?poison, ?fenceI, ?mailbox, ?function,
    fun s hh => if_neg (Nat.not_le.mpr hh), fun s hh => if_neg (Nat.not_le.mpr hh), fun s hh => if_neg (Nat.not_le.mpr hh),
    fun s hh => if_neg (Nat.not_le.mpr hh), fun s hh => execMgmtDebugEnable_of_domain hh, fun s hh => execMgmtDebugDisable_of_domain hh,
    fun s => rfl, fun s => execDomainReset_drops s h, fun s bytes hn => execFirmwareUpdate_of_image bytes hn,
    fun s nonce hn hb => execAttestationRequest_of_nonce hn hb⟩
  case amo =>
    intro s q op pc s1 hm hw
    have hexec : exec (.hartAmo h q) s = _ := execHartAmo_of_due hm hw
    refine ⟨fun ha => ?_, fun ha ht => ?_, fun ha ht => ⟨fun hp => ?_, fun hrl hp => ?_⟩⟩
    · rw [hexec, hartAtomic_misaligned ha]
      rfl
    · rw [hexec, hartAtomic_refused ha ht]
      rfl
    · rw [hexec, hartAtomic_goes ha ht, hartOf_updHart_same, past_paths, if_neg]
      rcases hp with hp | hp <;> simp [hp]
    · rw [hexec, hartAtomic_goes ha ht, hartOf_updHart_same, past_paths, if_pos]
      simp [hrl, hp]
  case reserved =>
    intro s pa w64 v hf ha t s1 ht
    refine ⟨execHartLr_of_aligned hf ha ht, fun hpa => ?_, fun hpa hstop => ?_⟩
    · have hexec : exec (.hartSc h pa w64 v) s = _ := execHartSc_of_aligned v hf ha ht
      rw [hexec, if_neg (by simp [hpa])]
    · have hexec : exec (.hartSc h pa w64 v) s = _ := execHartSc_of_aligned v hf ha ht
      rw [hexec, if_pos (by simp [hpa, hstop])]
  case access =>
    exact fun s pa op rd signed pc => ⟨hartAccess_refused, fun code => hartAccess_stopped, hartAccess_starts⟩
  case part => exact fun s o p d ho hd => sendHartPart_travels ho hd
  case poison =>
    intro s o hbad
    simp only [endHart, hbad, hartErrorCode]
  case fenceI =>
    intro s hf
    exact if_neg (by simp [hf])
  case mailbox =>
    intro s cmd hc
    exact ⟨queueCommand_of_command hc, fun hn => if_neg hn⟩
  case function =>
    intro s hh hn
    have hexec : exec (.mgmtAssign .function n h) s = .next (if n < 64 then _ else s) := if_neg (Nat.not_le.mpr hh)
    rw [hexec, if_pos hn]

end

