-- ==== Sys2Proof/Proofs/Boot.lean ====
section
/-! Reset, power-up, boot and release (R12, R13, R48, R386, R425). -/

namespace Sys2Proof.Machine

-- one declaration at a time: a thread for each would be too many
set_option Elab.async false

/-- No register has been written at reset. -/
theorem regGet_reset (r : Reg) : regGet State.reset r = regReset r := rfl

@[simp] theorem regBit_regSetBit_same (s : State) (r : Reg) {i : Nat} (b : Bool) (hi : i < 64) : regBit (regSetBit s r i b) r i = b := by
  rw [regBit, regSetBit, regGet_regPut_same, bit_setBit_same _ _ hi]

/-- A socket powers up at its time, after every socket below it (R386). -/
theorem execSocketPowerUp_of_due {s : State} {n : Nat} (hn : n < 31) (hoff : s.powered.getLsbD n = false) (ht : 50000 * (n + 1) ≤ s.time)
    (hem : regBit s .emstat 61 = false) (hbelow : ∀ i < n, s.powered.getLsbD i = true) :
    execSocketPowerUp n s = .next { s with powered := s.powered ||| BitVec.ofNat 32 (2 ^ n) } := by
  have hall : ((List.range n).any fun i => !s.powered.getLsbD i) = false :=
    List.any_eq_false.mpr fun i hi => by simp [hbelow i (List.mem_range.mp hi)]
  refine if_neg ?_
  rw [hall, hoff, hem]
  simp [hn, ht]

/-- A chiplet is released after three good exchanges (R48). -/
theorem execChipletRelease_of_due {s : State} {n : Nat} (hn : n < 31) (hb : s.boot = .done) (hrun : running s n = true)
    (hheld : s.released.getLsbD n = false) (hgood : 3 ≤ (sget clockInit s.clocks n).good) :
    execChipletRelease n s = .next { s with released := s.released ||| BitVec.ofNat 32 (2 ^ n) } := by
  refine if_neg ?_
  rw [hb, hrun, hheld]
  simp [hn, hgood]

/-! ### Measured boot -/

/-- The images of a boot in the order in which they are measured (R425). -/
def bootList (b : BootImages) : List BootImage := [b.service, b.compute, b.memory, b.sandbox]

section
variable {s s1 : State} {b : BootImages} (hb : s.boot = .before) (hp : s.powered = 0xFFFFFFFF) (h0 : b.boundNs ≠ 0) (h3 : b.boundNs ≤ 3)
  (hw : withinSkew s b.boundNs.toNat = true) (hu : ∀ e ∈ s.firmware.zip (bootList b), e.1 = [] ∨ e.1 = e.2.bytes)
include hb hp h0 h3 hw hu

/-- What `execMeasuredBoot` asks of a state before it measures. -/
theorem bootDue : (s.boot != .before || s.powered != 0xFFFFFFFF || b.boundNs == 0 || 3 < b.boundNs
    || !((s.firmware.zip [b.service, b.compute, b.memory, b.sandbox]).all fun e => e.1.isEmpty || e.1 == e.2.bytes)
    || !withinSkew s b.boundNs.toNat) = false := by
  have hall : ((s.firmware.zip [b.service, b.compute, b.memory, b.sandbox]).all fun e => e.1.isEmpty || e.1 == e.2.bytes) = true :=
    List.all_eq_true.mpr fun e he => by simpa using hu e he
  have hbound : (b.boundNs == 0) = false ∧ decide (3 < b.boundNs) = false := ⟨beq_false_of_ne h0, decide_eq_false (BitVec.not_lt.mpr h3)⟩
  rw [hall, hw, hb, hp, hbound.1, hbound.2]
  rfl

/-- An image whose signature fails stops the boot. -/
theorem execMeasuredBoot_stops
    (hm : measureImages { s with firmware := (bootList b).map (·.bytes) }
      [(0, b.service), (1, b.compute), (2, b.memory), (3, b.sandbox)] = (s1, false)) :
    execMeasuredBoot b s = .next (bootStops s1) := by
  have hdue := bootDue hb hp h0 h3 hw hu
  simp only [bootList] at hm
  simp only [execMeasuredBoot, hdue, hm, Bool.false_eq_true, if_false, Bool.not_false, Bool.true_or, if_true]

/-- Sound images and live dies on both sides: boot publishes what it found and releases the service chiplet. -/
theorem execMeasuredBoot_done
    (hm : measureImages { s with firmware := (bootList b).map (·.bytes) }
      [(0, b.service), (1, b.compute), (2, b.memory), (3, b.sandbox)] = (s1, true))
    (hc : popCount (b.selfTest ||| 0x80000000#32).toNat 12 ≠ 0) (hmem : popCount ((b.selfTest ||| 0x80000000#32).toNat / 2 ^ 12) 16 ≠ 0) :
    let live := b.selfTest ||| 0x80000000#32
    let s2 := regSet (regPut s1 .pkgcfg (packageConfig live)) .timeskew 7 0 b.boundNs.toNat
    execMeasuredBoot b s = .next { extendMeas s2 4 (sha3 (leBytes 8 (regGet s2 .pkgcfg).toNat ++ leBytes 4 (regGet s2 .timeskew).toNat))
      with boot := .done, released := 0x80000000, branches := branchHosts live, clocks := s2.clocks.map fun e => (e.1, { e.2 with good := 0 }) } := by
  have hdue := bootDue hb hp h0 h3 hw hu
  have hlive : (!true || popCount (b.selfTest ||| 0x80000000#32).toNat 12 == 0
      || popCount ((b.selfTest ||| 0x80000000#32).toNat / 2 ^ 12) 16 == 0) = false := by
    rw [beq_false_of_ne hc, beq_false_of_ne hmem]
    rfl
  simp only [bootList] at hm
  simp only [execMeasuredBoot, hdue, hm, hlive, Bool.false_eq_true, if_false]

end

end Sys2Proof.Machine

open Sys2Proof Sys2Proof.Machine

/-- Settles O49: reset lists nothing, so every register reads as its reset value. -/
theorem resetState : Obligations.ResetState := by
  unfold Obligations.ResetState
  refine ⟨reset_memoriesWf, rfl, rfl, rfl, rfl, rfl, rfl, rfl, rfl, rfl, rfl, rfl, fun q => ⟨?_, ?_⟩, fun n => ⟨?_, ?_, ?_⟩, fun k c => ⟨?_, ?_⟩⟩
  · exact regGet_reset (.qtl q)
  · exact regGet_reset (.qtli q)
  · exact (by decide : fld (0x00400000#64) 23 16 = 64)
  · exact (by decide : fld (0x00400000#64) 13 12 = 0)
  · exact (by decide : bit (0x00400000#64) 11 = false)
  · exact (by decide : bit (0#64) 63 = false)
  · exact (by decide : bit (0#64) 5 = false)

/-- Settles O48: the reset state's own fields, and for each later event the branch that its conditions name. -/
theorem bootEvents : Obligations.BootEvents := by
  unfold Obligations.BootEvents
  intro n
  refine ⟨fun s => ⟨_, rfl, rfl, rfl, rfl, rfl, rfl, rfl, rfl, rfl, rfl, ?_⟩,
    fun s hn hoff ht hem hbelow => execSocketPowerUp_of_due hn hoff ht hem hbelow, fun s b s1 hb hp h0 h3 hw hu => ⟨?_, ?_⟩,
    fun s hn hb hrun hheld hgood => execChipletRelease_of_due hn hb hrun hheld hgood⟩
  · exact regBit_regSetBit_same _ .emstat _ (by decide)
  · exact execMeasuredBoot_stops hb hp h0 h3 hw hu
  · exact execMeasuredBoot_done hb hp h0 h3 hw hu

end

