-- ==== Sys2Proof/Proofs/LaneOps.lean ====
section
/-! Lane operations of one warp, and READL of another warp (R257 to R262). -/

namespace Sys2Proof.Machine

-- one declaration at a time: a thread for each would be too many
set_option Elab.async false

/-! ### Votes, reductions and moves between lanes -/

/-- Once an active lane is there, one value goes to an s-register once, or to every active lane (R258, R261). -/
theorem same_of_active {c : Iss} {d : Opnd} {lat v : Nat} (hact : c.act ≠ []) :
    c.same d lat v = .ok (c.wroteLanes (if isS d then c.act.take 1 else c.act) 32 lat d fun _ => v) := by
  unfold Iss.same Iss.wroteLanes
  cases hc : c.act with
  | nil => exact absurd hc hact
  | cons l r => cases isS d <;> simp

section
variable {x : F3} {s : State} {c : Iss}

/-- VOTE gives all, any, or all or none of the active lanes' predicates, in every active lane (R257). -/
theorem vote_predicate {n : BitVec 3} (hc : turnOf (.vote x) x.h s = .goes c) (hd : x.d = .p n) :
    let vs := c.act.map (c.pred x.a)
    execVote x s = .next (c.pend 6 (c.act.map fun l => .p n.toNat l
      (if fld x.h.mod 1 0 = 0 then vs.all id else if fld x.h.mod 1 0 = 1 then vs.any id else vs.all id || !vs.any id))) := by
  simp only [execVote, issue_goes _ hc, hd]
  match fld x.h.mod 1 0 with
  | 0 => rfl
  | 1 => rfl
  | m + 2 => simp

theorem vote_discarded (hc : turnOf (.vote x) x.h s = .goes c) (hd : ∀ n, x.d ≠ .p n) : execVote x s = .next c.s := by
  simp only [execVote, issue_goes _ hc]
  cases hx : x.d with
  | p n => exact absurd hx (hd n)
  | _ => rfl

/-- XLANE gives each lane its source lane's value, and zero where there is none (R259). -/
theorem xlane_clean (hc : turnOf (.xlane x) x.h s = .goes c)
    (hclean : c.lanePoison c.a x.a (fun l => xlaneSource (fld x.h.mod 1 0) l (c.valB 32 x l)) = none) :
    execXlane x s = .next (c.wroteLanes c.act 32 6 x.d fun l =>
      match xlaneSource (fld x.h.mod 1 0) l (c.valB 32 x l) with | some m => c.val 32 x.a m | none => 0) := by
  refine (issue_goes _ hc).trans ?_
  simp only [hclean, result_ok, Iss.wroteLanes] <;> rfl

theorem bcast_clean (hc : turnOf (.bcast x) x.h s = .goes c) (hclean : c.lanePoison c.a x.a (fun l => some (c.valB 32 x l % 32)) = none) :
    execBcast x s = .next (c.wroteLanes c.act 32 6 x.d fun l => c.val 32 x.a (c.valB 32 x l % 32)) := by
  simp only [execBcast, issue_goes _ hc, hclean, result_ok, Iss.wroteLanes]

theorem ballot_active (hc : turnOf (.ballot x) x.h s = .goes c) (hact : c.act ≠ []) :
    execBallot x s = .next (c.wroteLanes (if isS x.d then c.act.take 1 else c.act) 32 6 x.d
      fun _ => (maskOf (c.act.filter (c.pred x.a))).toNat) := by
  simp only [execBallot, issue_goes _ hc, same_of_active hact, result_ok]

theorem redux_active (hc : turnOf (.redux x) x.h s = .goes c) (hact : c.act ≠ []) :
    execRedux x s = .next (c.wroteLanes (if isS x.d then c.act.take 1 else c.act) 32 6 x.d
      fun _ => (c.act.map fun l => c.val 32 x.a l).foldl (reduceOp 32 (fld x.h.mod 2 0)) (reduceUnit 32 (fld x.h.mod 2 0))) := by
  simp only [execRedux, issue_goes _ hc, same_of_active hact, result_ok]

end

/-! ### READL (R262) -/

section
variable {x : F3} {s : State} {c : Iss} {n : BitVec 7} {l : Nat} {r : List Nat}

theorem readl_inactive (hc : turnOf (.readl x) x.h s = .goes c) (hact : c.act = []) : execReadl x s = .next c.s := by
  simp only [execReadl, issue_goes _ hc, hact, result_ok]

/-- READL of the issuing warp: the named lane's register, or consumed poison. -/
theorem readl_own (hc : turnOf (.readl x) x.h s = .goes c) (ha : x.a = .v n) (hact : c.act = l :: r) (hw : c.readlWarp x l = c.a.key.idx) :
    execReadl x s = if sget 0 c.a.vPoison (laneKey n.toNat (c.valB 32 x l % 32)) = 0
      then .next (c.pend 6 (regWrites 32 x.d l (vGet c.a n.toNat (c.valB 32 x l % 32)).toNat)) else c.raised 19 0 (maskOf c.act) := by
  simp only [execReadl, issue_goes _ hc, hact, ha, hw, if_true]
  split
  · rename_i hz
    rw [if_pos hz, result_ok]
  · rename_i hz
    rw [if_neg hz]
    rfl

/-- READL of another warp: a result that holds a waiting-table entry, zero where that warp is gone, else to be sampled. -/
theorem readl_other (hc : turnOf (.readl x) x.h s = .goes c) (ha : x.a = .v n) (hact : c.act = l :: r) (hw : c.readlWarp x l ≠ c.a.key.idx)
    (hfree : tableFree c.s0 c.t.core false = true) :
    execReadl x s = .next (addResult c.s c.a.key (if warpGone c.s c.t (c.readlWarp x l)
      then { issue := c.n, writes := regWrites 32 x.d l 0, event := none, table := some (tableNext c.s0 c.t.core false) }
      else { issue := c.n, writes := [], event := none, table := some (tableNext c.s0 c.t.core false)
             src := some ⟨⟨c.a.key.team, c.readlWarp x l⟩, n.toNat, c.valB 32 x l % 32, x.d, maskOf c.act, c.pc⟩ })) := by
  simp [execReadl, issue_goes _ hc, hact, ha, hw, hfree]

theorem readl_lacking (hc : turnOf (.readl x) x.h s = .goes c) (hact : c.act = l :: r) (hw : c.readlWarp x l ≠ c.a.key.idx)
    (hfree : tableFree c.s0 c.t.core false = false) : execReadl x s = .next c.lacking := by
  simp only [execReadl, issue_goes _ hc, hact, hw, hfree, if_false, Bool.not_false, if_true]
  rfl

end

/-- What a result of READL becomes when it is sampled, by the state of the warp that it reads. -/
theorem sampleSource_eq {s : State} {v : VarResult} {f : LaneSource} {t : Team} {b : Agent} {l : Nat} (ht : teamOf s f.agent.team = some t)
    (hb : agentOf s f.agent = some b) (hl : (List.range 32).find? (fun l => bit f.act l) = some l) :
    sampleSource s v f = if warpGone s t f.agent.idx then { v with src := none, writes := regWrites 32 f.dest l 0 }
      else if sget 0 b.vPoison (laneKey f.reg f.lane) != 0 then { v with src := none, event := some ⟨v.issue, l, mkEvent 19 0 f.act f.pc, false⟩ }
      else { v with src := none, writes := regWrites 32 f.dest l (vGet b f.reg f.lane).toNat } := by
  simp only [sampleSource, ht, hb, hl, Option.getD_some]

end Sys2Proof.Machine

open Sys2Proof Sys2Proof.Machine

/-- Settles O16: each operation is its own effect at the issue; READL splits on the warp that it names and on what is free and poisoned. -/
theorem laneComplete : Obligations.LaneComplete := by
  unfold Obligations.LaneComplete
  intro x
  refine ⟨?vote, fun s c hc hact => ballot_active hc hact, fun s c hc hclean => xlane_clean hc hclean, fun s c hc => ?matchL, fun s c hc hact => redux_active hc hact,
    fun s c hc => ?scanx, fun s c hc hclean => bcast_clean hc hclean, ?readl, fun s c hc hact => readl_inactive hc hact, ?sample⟩
  case vote =>
    intro s c hc
    cases hd : x.d with
    | p n => exact vote_predicate hc hd
    | _ => exact vote_discarded hc (by simp [hd])
  case matchL => exact issue_goes _ hc
  case scanx => exact issue_goes _ hc
  case readl =>
    intro s c n l r hc ha hact
    refine ⟨fun hw hz => (readl_own hc ha hact hw).trans (if_pos hz), fun hw hz => (readl_own hc ha hact hw).trans (if_neg hz),
      fun hw hfree hgone => ?_, fun hw hfree hgone => ?_, fun hw hfree => readl_lacking hc hact hw hfree⟩
    · refine (readl_other hc ha hact hw hfree).trans ?_
      rw [if_pos hgone]
    · refine (readl_other hc ha hact hw hfree).trans ?_
      rw [if_neg (by simp [hgone])]
  case sample =>
    intro s v f t b hsrc ht hb l hl
    refine ⟨fun hgone => ?_, fun hgone hz => ?_, fun hgone hz => ?_⟩
    · rw [sampleSource_eq ht hb hl, if_pos hgone]
    · rw [sampleSource_eq ht hb hl, if_neg (by simp [hgone]), if_neg (by simp [hz])]
    · rw [sampleSource_eq ht hb hl, if_neg (by simp [hgone]), if_pos (by simp [hz])]

end

