-- ==== Sys2Proof/Proofs/GlobalAccess.lean ====
section
/-! Global loads, stores and atomics at their issue (R40, R218 to R223, R238, R239). -/

namespace Sys2Proof.Machine

-- one declaration at a time: a thread for each would be too many
set_option Elab.async false

/-! ### A global access -/

theorem misaligned_of_aligned {c : Iss} {n : Nat} {va : Nat → Nat} (h : c.aligned n va) : c.misaligned n va = none := by
  have hnil : (c.act.filter fun l => va l % n != 0) = [] := List.filter_eq_nil_iff.mpr fun l hl => by simp [h l hl]
  simp only [Iss.misaligned, hnil]

section
variable {c : Iss} {st : State} {op : MemOp} {dest : Opnd} {n : Nat} {reqs : List LaneReq} {acq : Option (BitVec 2)}

theorem access_nil (h : reqs = []) : c.access st op dest n reqs acq = .ok st := by simp [Iss.access, h]

theorem access_begun (h : reqs ≠ []) (hroom : c.room op reqs = true) : c.access st op dest n reqs acq = .ok (c.begun st op dest n reqs acq) := by
  simp [Iss.access, h, hroom]

theorem access_lacking (h : reqs ≠ []) (hroom : c.room op reqs = false) : c.access st op dest n reqs acq = c.later := by
  simp [Iss.access, h, hroom]

end

/-- What a global access does in every case of its issue. -/
theorem beginsAccess_of_access {i : Instr} {h : Hdr} {p : Iss → Prop} {st : Iss → State} {op : MemOp} {dest : Opnd} {n : Nat}
    {reqs : Iss → List LaneReq} {acq : Option (BitVec 2)}
    (hexec : ∀ s c, turnOf i h s = .goes c → p c → exec i s = (c.access (st c) op dest n (reqs c) acq).result c.a.key) :
    beginsAccess i h p st op dest n reqs acq := by
  intro s c hc hp
  rw [hexec s c hc hp]
  refine ⟨fun hnil => ?_, fun hne hroom => ?_, fun hne hroom => ?_⟩
  · rw [access_nil hnil, result_ok]
  · rw [access_begun hne hroom, result_ok]
  · rw [access_lacking hne hroom]
    rfl

/-! ### Loads and stores -/

section
variable {x : FM} {s : State} {c : Iss}

theorem execLd_aligned (hc : turnOf (.ld x) x.h s = .goes c) (ha : c.aligned (sizeOf x.h) (c.ea x (sizeOf x.h))) :
    execLd x s = (c.access c.s (.load (signedSize x.h) false) x.d (sizeOf x.h) (c.loadReqs x (sizeOf x.h)) (acquireOf x)).result c.a.key := by
  simp only [execLd, issue_goes _ hc, misaligned_of_aligned ha]

theorem execLda_aligned (hc : turnOf (.lda x) x.h s = .goes c) (ha : c.aligned (sizeOf x.h) (c.ea x (sizeOf x.h))) :
    execLda x s = (c.access c.s (.load (signedSize x.h) true) x.d (sizeOf x.h) (c.loadReqs x (sizeOf x.h)) none).result c.a.key := by
  simp only [execLda, issue_goes _ hc, misaligned_of_aligned ha]

/-- LDIX reads its index words, which are 4 bytes each (R223). -/
theorem execLdix_aligned (hc : turnOf (.ldix x) x.h s = .goes c) (ha : c.aligned 4 (c.ea x 4)) :
    execLdix x s = (c.access c.s (.ldix (bit x.h.mod 4) (signedSize x.h)) x.d (sizeOf x.h)
      ((c.memLanes x [x.d, x.data2]).map fun l => laneReq l (c.ea x 4 l) (some (val64 c.a x.data2 l)) (sizeOf x.h) 0 0) none).result c.a.key := by
  simp only [execLdix, issue_goes _ hc, misaligned_of_aligned ha]

/-- CHKA loads again the lanes that no live entry serves, once no poisoned entry serves a lane (R222). -/
theorem execChka_aligned (hc : turnOf (.chka x) x.h s = .goes c) (ha : c.aligned (sizeOf x.h) (c.ea x (sizeOf x.h)))
    (hclean : ∀ l ∈ c.memLanes x [x.d],
      addrPoisoned c.a (coreTime c.s c.t.core) (uniformFM x [x.d]) x.d (sizeOf x.h) l (c.ea x (sizeOf x.h) l) = false) :
    execChka x s = (c.access c.s (.load (signedSize x.h) false) x.d (sizeOf x.h) ((c.loadReqs x (sizeOf x.h)).filter
      fun r => !addrHit c.a (coreTime c.s c.t.core) (uniformFM x [x.d]) x.d (sizeOf x.h) r.lane r.va) none).result c.a.key := by
  have hbad : ((c.memLanes x [x.d]).filter
      fun l => addrPoisoned c.a (coreTime c.s c.t.core) (uniformFM x [x.d]) x.d (sizeOf x.h) l (c.ea x (sizeOf x.h) l)) = [] :=
    List.filter_eq_nil_iff.mpr fun l hl => by simp [hclean l hl]
  simp only [execChka, issue_goes _ hc, misaligned_of_aligned ha, hbad, List.isEmpty_nil, Bool.not_true, Bool.false_eq_true, if_false]

/-- The data of ST after its bound check, whether a bound was hit, and the lanes whose data traps (R219). -/
def storeData (c : Iss) (x : FM) : List (Nat × Nat) × Bool × List Nat :=
  c.boundStore x.h x.bnd.toNat (sizeOf x.h) (c.memLanes x [x.data2]) (c.data (sizeOf x.h) x.data2)

theorem execSt_aligned (hc : turnOf (.st x) x.h s = .goes c) (ha : c.aligned (sizeOf x.h) (c.ea x (sizeOf x.h))) (hok : (storeData c x).2.2 = []) :
    execSt x s = (c.access (c.hitIf (storeData c x).2.1 x.bnd.toNat) .store .zr (sizeOf x.h)
      ((storeData c x).1.map fun d => laneReq d.1 (c.ea x (sizeOf x.h) d.1) none (sizeOf x.h) (BitVec.ofNat 128 d.2) 0) none).result c.a.key := by
  unfold storeData at hok ⊢
  simp only [execSt, issue_goes _ hc, misaligned_of_aligned ha, hok, List.isEmpty_nil, Bool.not_true, Bool.false_eq_true, if_false, Iss.hitIf]

theorem execSt_traps (hc : turnOf (.st x) x.h s = .goes c) (ha : c.aligned (sizeOf x.h) (c.ea x (sizeOf x.h))) (hbad : (storeData c x).2.2 ≠ []) :
    execSt x s = .next (raise (setHit c.s0 c.t.uid x.bnd.toNat) c.a.key (mkEvent 20 x.bnd.toNat (maskOf (storeData c x).2.2) c.pc)) := by
  unfold storeData at hbad ⊢
  simp only [execSt, issue_goes _ hc, misaligned_of_aligned ha, List.isEmpty_eq_false_iff.mpr hbad, Bool.not_false, if_true, Iss.boundTrap, result_trap]

theorem execInvala_active (hc : turnOf (.invala x) x.h s = .goes c) (hact : c.act ≠ []) :
    execInvala x s = .next (updAgent c.s c.a.key fun a =>
      { a with addrTable := if bit x.h.mod 0 then [] else a.addrTable.filter fun e => e.dest != x.d }) := by
  simp only [execInvala, issue_goes _ hc, List.isEmpty_eq_false_iff.mpr hact, Bool.false_eq_true, if_false, Iss.upd, result_ok]
  cases bit x.h.mod 0 <;> rfl

theorem execInvala_inactive (hc : turnOf (.invala x) x.h s = .goes c) (hact : c.act = []) : execInvala x s = .next c.s := by
  simp only [execInvala, issue_goes _ hc, hact, List.isEmpty_nil, if_true, result_ok]

end

/-! ### Atomics -/

section
variable {x : FM} {c : Iss} {op : MemOp} {dest : Opnd} {reqs : List LaneReq}

/-- An atomic without a release of its own, or without a lane, is an access (R238). -/
theorem atomic_access (ha : c.aligned (atomSize x) (c.ea x (atomSize x))) (hrel : ordRel x = false ∨ reqs = []) :
    c.atomic x op dest reqs = c.access c.s op dest (atomSize x) reqs (acquireOf x) := by
  have hno : (ordRel x && !reqs.isEmpty) = false := by
    rcases hrel with h | h <;> simp [h]
  simp only [Iss.atomic, misaligned_of_aligned ha, hno, Bool.false_eq_true, if_false]

/-- A releasing atomic takes its waiting-table entry and goes behind its release, or is put off without one (R40, R238). -/
theorem atomic_releases (ha : c.aligned (atomSize x) (c.ea x (atomSize x))) (hrel : ordRel x = true) (hne : reqs ≠ []) :
    c.atomic x op dest reqs = if c.room op reqs then .ok (holdFence c.s c.a.key false true (ordScope x)
      (.access op dest (atomSize x) c.pc reqs (acquireOf x) (ordScope x != 3)) (c.slotFor op reqs)) else c.later := by
  have hyes : (ordRel x && !reqs.isEmpty) = true := by simp [hrel, hne]
  simp only [Iss.atomic, misaligned_of_aligned ha, hyes, if_true]

end

/-- What an instruction that is one atomic does at its issue. -/
theorem atomic_completes {i : Instr} {x : FM} {op : MemOp} {dest : Opnd} {reqs : Iss → List LaneReq}
    (hexec : ∀ s, exec i s = issue i x.h s fun c => c.atomic x op dest (reqs c)) :
    beginsAccess i x.h (fun c => c.aligned (atomSize x) (c.ea x (atomSize x)) ∧ (ordRel x = false ∨ reqs c = [])) (·.s) op dest (atomSize x) reqs
      (acquireOf x)
    ∧ (completesWhen i x.h
      (fun c => c.aligned (atomSize x) (c.ea x (atomSize x)) ∧ ordRel x = true ∧ reqs c ≠ [] ∧ c.room op (reqs c) = true) fun c =>
        holdFence c.s c.a.key false true (ordScope x) (.access op dest (atomSize x) c.pc (reqs c) (acquireOf x) (ordScope x != 3))
          (c.slotFor op (reqs c)))
    ∧ completesWhen i x.h
      (fun c => c.aligned (atomSize x) (c.ea x (atomSize x)) ∧ ordRel x = true ∧ reqs c ≠ [] ∧ c.room op (reqs c) = false) Iss.lacking := by
  refine ⟨beginsAccess_of_access fun s c hc hp => ?_, fun s c hc hp => ?_, fun s c hc hp => ?_⟩
  · rw [hexec, issue_goes _ hc, atomic_access hp.1 hp.2]
  · obtain ⟨ha, hrel, hne, hroom⟩ := hp
    rw [hexec, issue_goes _ hc, atomic_releases ha hrel hne, if_pos hroom, result_ok]
  · obtain ⟨ha, hrel, hne, hroom⟩ := hp
    rw [hexec, issue_goes _ hc, atomic_releases ha hrel hne, if_neg (by simp [hroom])]
    rfl

end Sys2Proof.Machine

open Sys2Proof Sys2Proof.Machine

/-- Settles O28: each form is one access of its lanes once the addresses are aligned and no check stops it; ATOM and RED are one atomic. -/
theorem globalComplete : Obligations.GlobalComplete := by
  unfold Obligations.GlobalComplete
  intro x
  refine ⟨beginsAccess_of_access fun s c hc ha => execLd_aligned hc ha, beginsAccess_of_access fun s c hc hp => execSt_aligned hc hp.1 hp.2,
    fun s c hc ha hbad => execSt_traps hc ha hbad, beginsAccess_of_access fun s c hc ha => execLda_aligned hc ha,
    beginsAccess_of_access fun s c hc hp => execChka_aligned hc hp.1 hp.2, fun s c hc hact => execInvala_active hc hact,
    fun s c hc hact => execInvala_inactive hc hact, beginsAccess_of_access fun s c hc ha => execLdix_aligned hc ha, fun returns => ?_⟩
  cases returns with
  | true => exact atomic_completes fun s => rfl
  | false => exact atomic_completes fun s => rfl

end

