-- ==== Sys2Proof/Proofs/StepGroups.lean ====
section
/-! Steps, refills, reductions and messages of the whisk tree (R49, R50, R126, R132, R322, R323). -/

namespace Sys2Proof.Machine

-- one declaration at a time: a thread for each would be too many
set_option Elab.async false

section
variable {s : State} {g : GroupKey}

/-- A step that finds no collision swaps its planes (R128, R132). -/
theorem execStepComplete_swaps (hdue : stepDue s g = true) (hx : groupTrap (landStep s g) g = none) :
    execStepComplete g s = .next (swapStep (landStep s g) g) := by
  simp [execStepComplete, hdue, hx]

theorem execStepComplete_traps {x : StepTrap} (hdue : stepDue s g = true) (hx : groupTrap (landStep s g) g = some x) :
    execStepComplete g s = .next (trapStep (landStep s g) g x) := by
  simp [execStepComplete, hdue, hx]

theorem execNextPlaneRefillDone_of_refilling {t : Team} {team region : Nat} (ht : teamOf s team = some t) (hr : t.refilling.contains region = true) :
    execNextPlaneRefillDone team region s = .next (updTeam s team fun t => { t with refilling := t.refilling.filter (· != region) }) := by
  simp only [execNextPlaneRefillDone, ht, hr, if_true]

theorem execRedtResult_of_complete {k : Nat} {r : Reduction} (hr : (s.reductions.find? fun r => r.group == g && r.k == k) = some r)
    (hall : redtComplete s r = true) (hdown : whiskDone s g k false = true) : execRedtResult g k s = .next (giveResult s g k r) := by
  simp [execRedtResult, hr, hall, hdown]

/-- A result given to an agent that has not ended waits in it (R204). -/
theorem agentOf_addVar_of_running {k : AgentKey} {a : Agent} (n : Nat) (ws : List RegWrite) (ev : Option Deferred) (ha : agentOf s k = some a)
    (hend : a.ended = false) :
    agentOf (addVar s k n ws ev) k = some { a with vars := a.vars ++ [{ issue := n, writes := ws, event := ev }] } := by
  rw [addVar, agentOf_addResult, ha, Option.map_some, hend, if_neg Bool.false_ne_true]

/-- The one live member of a reduction without a mismatch gets the combined value (R323). -/
theorem giveResult_single {k : Nat} {r : Reduction} {m : RedMember} (hm : r.members = [m]) (hlive : m.live = true) (hmix : r.mixed = false) :
    giveResult s g k r = addVar { s with reductions := s.reductions.erase r, whisk := s.whisk.filter fun w => !(w.group == g && w.k == k && !w.isStep) }
      m.agent m.issue (regWrites 64 m.dest 0 r.value.toNat) none := by
  simp [giveResult, hm, hlive, hmix]

/-- A whisk message crosses its next link at its time, and is due at the following one by that link's latency (R49, R50). -/
theorem execWhiskMessage_of_due {n : Nat} {w : Whisk} (hw : s.whisk[n]? = some w) (ht : w.due ≤ s.time)
    (hl : w.links < (whiskLinks s w.group).length) :
    execWhiskMessage n s
      = .next { s with whisk := s.whisk.set n { w with links := w.links + 1, due := s.time + ((whiskLinks s w.group)[w.links + 1]?).getD 0 } } := by
  simp only [execWhiskMessage, hw]
  exact if_neg (by omega)

end

end Sys2Proof.Machine

open Sys2Proof Sys2Proof.Machine

/-- Settles O33: each event takes the branch that its conditions name; a reduction's value goes to each live member. -/
theorem stepEvents : Obligations.StepEvents := by
  unfold Obligations.StepEvents
  intro g
  refine ⟨fun s hdue hx => execStepComplete_swaps hdue hx, fun s x hdue hx => execStepComplete_traps hdue hx,
    fun s t team region ht hr => execNextPlaneRefillDone_of_refilling ht hr, fun s k r hr hall hdown => ⟨execRedtResult_of_complete hr hall hdown, ?_⟩,
    fun s n w hw ht hl => execWhiskMessage_of_due hw ht hl⟩
  intro m a hm hlive hmix ha hend
  rw [giveResult_single hm hlive hmix]
  exact ⟨_, agentOf_addVar_of_running _ _ _ ha hend, rfl⟩

end

