-- ==== Sys2Proof/Proofs/Replies.lean ====
section
/-! Replies, messages between cores and fabric control packets at their receivers (R36 to R46). -/

namespace Sys2Proof.Machine

-- one declaration at a time: a thread for each would be too many
set_option Elab.async false

/-- A packet that its link and stream accept has its effect; one that they do not accept leaves what their checks give (R38, R39). -/
theorem onPacket_completes (mnemonic : String) (s : State) (h : Hop) (kind : Msg → Bool) (f : Packet → State → State) :
    (∀ p s1, take s h kind = .got p s1 → onPacket mnemonic s h kind f = .next (f p s1))
    ∧ (∀ s1, take s h kind = .passed s1 → onPacket mnemonic s h kind f = .next s1) :=
  ⟨fun p s1 ht => by simp only [onPacket, ht], fun s1 ht => by simp only [onPacket, ht]⟩

section
variable {s : State} {h : Hop} {t : Nat}

/-- A TX packet is accepted in the order of its slice's cycles; requests join the slice's arrivals (R15). -/
theorem execTx_brings (hb : brings s h isTx = some t) (hfirst : firstAtInput s h t = true) :
    execTx h s = onPacket "TX" s h isTx fun p s => if isMemory p.dst && sliceRequest p.msg then acceptArrival h t p s else applyTx p s := by
  simp [execTx, hb, hfirst]

theorem execTx_got {p : Packet} {s1 : State} (hb : brings s h isTx = some t) (hfirst : firstAtInput s h t = true) (ht : take s h isTx = .got p s1) :
    execTx h s = .next (if isMemory p.dst ∧ sliceRequest p.msg = true then acceptArrival h t p s1 else applyTx p s1) := by
  rw [execTx_brings hb hfirst, (onPacket_completes "TX" s h isTx _).1 p s1 ht]
  simp only [Bool.and_eq_true]

theorem execTx_passed {s1 : State} (hb : brings s h isTx = some t) (hfirst : firstAtInput s h t = true) (ht : take s h isTx = .passed s1) :
    execTx h s = .next s1 := by
  rw [execTx_brings hb hfirst, (onPacket_completes "TX" s h isTx _).2 s1 ht]

/-- Without a TX packet at the hop, TX serves as a request does. -/
theorem execTx_serves (hb : brings s h isTx = none) : execTx h s = onRequest "TX" s h isTx applyTx := by
  simp only [execTx, onRequest, hb]

end

end Sys2Proof.Machine

open Sys2Proof Sys2Proof.Machine

/-- Settles O35: the twelve kinds are one step, `onPacket`, each with its own effect; TX accepts as its slice's order asks, and serves. -/
theorem replyPackets : Obligations.ReplyPackets := by
  unfold Obligations.ReplyPackets
  intro h s
  refine ⟨fun i kind f hmem => ?_, fun t p s1 hb hfirst ht => execTx_got hb hfirst ht, fun t s1 hb hfirst ht => execTx_passed hb hfirst ht,
    fun hb hdue => ?_⟩
  · simp only [List.mem_cons, Prod.mk.injEq, List.not_mem_nil, or_false] at hmem
    obtain ⟨rfl, rfl, rfl⟩ | ⟨rfl, rfl, rfl⟩ | ⟨rfl, rfl, rfl⟩ | ⟨rfl, rfl, rfl⟩ | ⟨rfl, rfl, rfl⟩ | ⟨rfl, rfl, rfl⟩ | ⟨rfl, rfl, rfl⟩
      | ⟨rfl, rfl, rfl⟩ | ⟨rfl, rfl, rfl⟩ | ⟨rfl, rfl, rfl⟩ | ⟨rfl, rfl, rfl⟩ | ⟨rfl, rfl, rfl⟩ := hmem
    · exact onPacket_completes "RDR" s h isRdr _
    · exact onPacket_completes "WRC" s h isWrc _
    · exact onPacket_completes "ATR" s h isAtr _
    · exact onPacket_completes "FMR" s h isFmr _
    · exact onPacket_completes "XM" s h isXm _
    · exact onPacket_completes "PF_REPLY" s h isPfReply _
    · exact onPacket_completes "RM" s h isRm _
    · exact onPacket_completes "RMA" s h isRma _
    · exact onPacket_completes "LC" s h isLc _
    · exact onPacket_completes "LOSS_NOTICE" s h isLossNotice _
    · exact onPacket_completes "TRANSLATION_REQUEST" s h isTranslationRequest _
    · exact onPacket_completes "RESERVED_PACKET" s h isReservedPacket _
  · have hexec : exec (.tx h) s = _ := execTx_serves hb
    rw [hexec]
    exact onRequest_serves hb hdue

end

