-- ==== Sys2Proof/Proofs/LinkEvents.lean ====
section
/-! Link retries, dark colours, routes and package time (R38, R42 to R48). -/

namespace Sys2Proof.Machine

-- one declaration at a time: a thread for each would be too many
set_option Elab.async false

/-! ### Resending (R38) -/

@[simp] theorem linkOf_hop (s : State) (h : Hop) : (linkOf s h).hop = h := by
  cases hf : s.links.find? fun l => l.hop == h with
  | none => simp [linkOf, hf, linkInit]
  | some l =>
    have hl : l.hop = h := by simpa using List.find?_some hf
    simp [linkOf, hf, hl]

theorem linkOf_setLink_of_hop (s : State) {l : Link} {h : Hop} (hl : l.hop = h) : linkOf (setLink s l) h = l := by
  rw [← hl, linkOf_setLink_same]

/-- Packets put on a hop's wire change nothing but the wire. -/
theorem foldl_putWire_eq (xs : List Sent) (l : Link) : ∃ wire, xs.foldl putWire l = { l with wire := wire } := by
  induction xs generalizing l with
  | nil => exact ⟨l.wire, rfl⟩
  | cons x xs ih =>
    obtain ⟨wire, hwire⟩ := ih (putWire l x)
    refine ⟨wire, ?_⟩
    rw [List.foldl_cons, hwire]
    unfold putWire
    split <;> rfl

/-- Everything unacknowledged of a link as it leaves again at an instant, in order and under its old link numbers (R38). -/
def resent (l : Link) (lack : BitVec 8) (now : Nat) : List Sent := l.unacked.map fun x => wrap x.lseq lack now x.pkt

theorem resent_pkts (l : Link) (lack : BitVec 8) (now : Nat) : (resent l lack now).map (·.pkt) = l.unacked.map (·.pkt) := by
  simp [resent, wrap]

theorem resent_length (l : Link) (lack : BitVec 8) (now : Nat) : (resent l lack now).length = l.unacked.length := by
  simp [resent]

theorem at_of_mem_resent {l : Link} {lack : BitVec 8} {now : Nat} {x : Sent} (hx : x ∈ resent l lack now) : x.at_ = now := by
  obtain ⟨y, -, rfl⟩ := List.mem_map.mp hx
  rfl

/-- A link that has sent everything unacknowledged again. -/
def retried (l : Link) (lack : BitVec 8) (now : Nat) : Link :=
  (resent l lack now).foldl putWire { l with unacked := resent l lack now, resends := l.resends + 1 }

theorem retried_fields (l : Link) (lack : BitVec 8) (now : Nat) :
    (retried l lack now).hop = l.hop ∧ (retried l lack now).unacked = resent l lack now ∧ (retried l lack now).resends = l.resends + 1 := by
  obtain ⟨wire, hwire⟩ := foldl_putWire_eq (resent l lack now) { l with unacked := resent l lack now, resends := l.resends + 1 }
  rw [retried, hwire]
  exact ⟨rfl, rfl, rfl⟩

theorem linkOf_regSet (s : State) (r : Reg) (hi lo x : Nat) (h : Hop) : linkOf (regSet s r hi lo x) h = linkOf s h := rfl

/-- A field that the device sets reads back. -/
theorem regFld_regSet_same (s : State) (r : Reg) {hi lo : Nat} (x : Nat) (h : lo ≤ hi) (hn : hi < 64) :
    regFld (regSet s r hi lo x) r hi lo = x % 2 ^ (hi + 1 - lo) := by
  rw [regFld, regSet, regGet_regPut_same, fld_setFld_same _ x h hn]

section
variable {s : State} {h : Hop}

/-- A retry sends everything unacknowledged again and counts each packet in ROUTE.resends, which stays at its greatest value (R38, R43). -/
theorem execLinkRetryTimeout_resends (hdue : retryDue s (linkOf s h) = true) (hmay : (linkOf s h).resends < 8) :
    execLinkRetryTimeout h s = .next (regSet (setLink s (retried (linkOf s h) (linkOf s (reverseHop h)).expected s.time))
      (.route h.src h.dst) 7 0 (saturate 8 (regFld s (.route h.src h.dst) 7 0 + (linkOf s h).unacked.length))) := by
  rw [← resent_length (linkOf s h) (linkOf s (reverseHop h)).expected s.time]
  exact if_neg (by simp [hdue, hmay])

/-! ### Dark colours (R42, R45) -/

theorem execColourDark_optical (hne : h.src ≠ h.dst) (hsrc : h.src < 32) (hdst : h.dst < 32) (hlit : (linkOf s h).dark = false) :
    execColourDark h true s = .next (sendNotice (setLink s { linkOf s h with wire := [], dark := true }) h) := by
  simp [execColourDark, hne, hsrc, hdst, hlit]

/-- After eight resends without an answer the colour is lost. -/
theorem execColourDark_unanswered (hne : h.src ≠ h.dst) (hsrc : h.src < 32) (hdst : h.dst < 32) (hdue : retryDue s (linkOf s h) = true)
    (h8 : 8 ≤ (linkOf s h).resends) : execColourDark h false s = .next (applyLoss s h.src h.dst h.planeB) := by
  simp [execColourDark, hne, hsrc, hdst, hdue, h8]

end

/-! ### Retests (R44) -/

/-- After 10 µs a retest lights the colours that it found dark, that are dark still and whose pattern came back. -/
theorem execRouteRetestDone_of_due {s : State} {m n : Nat} {r : Retest} (okA okB : Bool)
    (hr : (s.retests.find? fun r => r.src == m && r.dst == n) = some r) (ht : r.since + 10000 ≤ s.time) :
    execRouteRetestDone m n okA okB s = .next (flushRma (
      let s1 := { s with retests := s.retests.erase r }
      let s2 := if okA = true ∧ r.planeA = true ∧ routeDark s1 m n false = true then relight s1 ⟨m, n, false⟩ else s1
      if okB = true ∧ r.planeB = true ∧ routeDark s2 m n true = true then relight s2 ⟨m, n, true⟩ else s2)) := by
  simp only [execRouteRetestDone, hr, if_neg (Nat.not_lt.mpr ht), Bool.and_eq_true, and_assoc]

/-! ### Package time (R47, R48, R399) -/

section
variable {s : State} {n : Nat} {t1 t2 t3 t4 : Int}

/-- A time exchange removes half the measured sum by slewing and counts it as good or fails a released chiplet (R47, R48). -/
theorem execTimeExchange_measures (hdue : exchangeDue s n = true) (ht : exchangeTimes s n = (t1, t2, t3, t4)) (hm : socketFailed s 31 = false) :
    let num := (t2 - t1) - (t4 - t3)
    let good := decide (num.natAbs ≤ skew s)
    let s1 := { s with clocks := sset clockInit s.clocks n { sget clockInit s.clocks n with
      remove := num / 2, good := if good then (sget clockInit s.clocks n).good + 1 else 0, nextExchange := s.time + 10000, missed := 0 } }
    execTimeExchange n t1 t2 t3 t4 s = .next (if s1.released.getLsbD n && !good then failDie s1 n else s1) :=
  (if_neg (by simp [hdue, ht])).trans (if_neg (by simp [hm]))

theorem execTimeExchange_missed (hdue : exchangeDue s n = true) (ht : exchangeTimes s n = (t1, t2, t3, t4)) (hm : socketFailed s 31 = true) :
    execTimeExchange n t1 t2 t3 t4 s = .next (missExchange s n (sget clockInit s.clocks n)) := by
  simp [execTimeExchange, hdue, ht, hm]

/-- 10 µs after the last one an exchange with a live chiplet is due (R47). -/
theorem exchangeDue_of_live (hp : s.powered.getLsbD n = true) (hn : n < 31) (hf : socketFailed s n = false) (hl : isLive s n = true)
    (ht : (sget clockInit s.clocks n).nextExchange ≤ s.time) : exchangeDue s n = true := by
  simp [exchangeDue, hp, hn, hf, hl, ht]

end

end Sys2Proof.Machine

open Sys2Proof Sys2Proof.Machine

/-- Settles O36: each event takes the branch that its conditions name; of a retry, what the link and ROUTE hold after it. -/
theorem linkEvents : Obligations.LinkEvents := by
  unfold Obligations.LinkEvents
  intro h m n v
  refine ⟨fun s hdue hmay => ?_, fun s hne hsrc hdst hlit => execColourDark_optical hne hsrc hdst hlit,
    fun s hne hsrc hdst hdue h8 => execColourDark_unanswered hne hsrc hdst hdue h8, fun s => rfl, fun s => rfl,
    fun s t wasA wasB okA okB hr ht => execRouteRetestDone_of_due okA okB hr ht,
    fun s t1 t2 t3 t4 hdue ht => execTimeExchange_measures hdue ht, fun s t1 t2 t3 t4 hdue ht hm => execTimeExchange_missed hdue ht hm,
    fun s hp hn hf hl ht => exchangeDue_of_live hp hn hf hl ht⟩
  obtain ⟨hhop, hunacked, hresends⟩ := retried_fields (linkOf s h) (linkOf s (reverseHop h)).expected s.time
  rw [linkOf_hop] at hhop
  refine ⟨_, execLinkRetryTimeout_resends hdue hmay, ?_, ?_, ?_, fun _ => ?_⟩
  · rw [linkOf_regSet, linkOf_setLink_of_hop s hhop, hresends]
  · rw [linkOf_regSet, linkOf_setLink_of_hop s hhop, hunacked, resent_pkts]
  · rw [linkOf_regSet, linkOf_setLink_of_hop s hhop, hunacked]
    exact fun x hx => at_of_mem_resent hx
  · rw [regFld_regSet_same _ _ _ (by decide) (by decide)]
    unfold saturate
    omega

end

