-- ==== Sys2Proof/Proofs/IssueStep.lean ====
section
/-! The step in which an agent issues (R188, R345, R351, R352). -/

namespace Sys2Proof.Machine

-- one declaration at a time: a thread for each would be too many
set_option Elab.async false

/-- What an issue of an agent has given, noted in its cluster where the agent has issued (R351, R352). -/
def noteIssued (t : Team) (a : Agent) : Result → Result
  | .next s => .next (if hasIssued a s then noteIssue s t a else s)
  | r => r

section
variable {s : State} {a : Agent} {pc : Nat}

/-- The head of an agenda is taken as the move while package power is on. -/
theorem step_of_issue {k : AgentKey} {rest : List Move} (hag : s.agenda = .issue k :: rest) (hpower : s.hardTrip = false) :
    step s = afterMove (runIssue { s with agenda := rest } k) := by
  simp [step, nextMove, hag, runMove, hpower]

/-- At a word of an instruction an issue is the instruction's meaning with the agent on turn (R188). -/
theorem issueAt_of_word {w : InstrWord} {i : Instr} (hf : fetchAt a pc = .word w) (hd : decode w = some i) :
    issueAt s a pc = exec i { s with turn := some a.key } := by
  simp only [issueAt, hf, hd]

/-- An agent that issues now does what is at its issue address (R351). -/
theorem runIssue_of_issuesNow {k : AgentKey} {t : Team} (ha : agentOf s k = some a) (ht : teamOf s k.team = some t)
    (hnow : issuesNow s a t = true) (hpc : issueAddress a = some pc) :
    runIssue s k = noteIssued t a (issueAt s a pc) := by
  simp only [runIssue, ha, ht, hnow, hpc, Bool.not_true, Bool.false_eq_true, if_false]
  rfl

end

end Sys2Proof.Machine

open Sys2Proof Sys2Proof.Machine

/-- Settles O6: the agenda's head is the move, its agent issues, and the fetched word decodes to the instruction. -/
theorem stepRunsDecoded : Obligations.StepRunsDecoded := by
  unfold Obligations.StepRunsDecoded
  intro s k rest a t pc w i hag hpower ha ht hnow hpc hf hd
  have hissue : runIssue { s with agenda := rest } k = noteIssued t a (exec i { s with agenda := rest, turn := some a.key }) := by
    rw [runIssue_of_issuesNow (s := { s with agenda := rest }) ha ht hnow hpc, issueAt_of_word hf hd]
  rw [step_of_issue hag hpower, hissue]
  rfl

end

