-- ==== Sys2Proof/Proofs/Translation.lean ====
section
/-! Walks, page requests and their answers, invalidations (R52 to R69). -/

namespace Sys2Proof.Machine

-- one declaration at a time: a thread for each would be too many
set_option Elab.async false

/-! ### Walks (R52 to R55, R61 to R63, R69) -/

section
variable {s : State} {sock n : Nat} {w : Walk} {x : Word64} {bad : Bool}

/-- A walk goes on with what its reference has brought, and then requests that waited are served. -/
theorem execWalkReferenceReply_of_got (hw : ((shardOf s sock).walks.find? fun w => w.id == n) = some w)
    (hgot : w.got = some (x, bad)) :
    let s1 := walkReply s sock w x bad
    execWalkReferenceReply sock n s = .next (serveWaiting sock ((shardOf s1 sock).waiting.length + 1) s1) := by
  simp only [execWalkReferenceReply, hw, hgot]

/-- A walk that an invalidation has overtaken begins again (R69). -/
theorem walkReply_of_dropped (hd : w.dropped = true) : walkReply s sock w x bad = walkOn s sock w (walkBegin s sock w.req w.id) := by
  simp only [walkReply, hd, if_true]

/-- An update of an entry is done, or has failed (R55, R62). -/
theorem walkReply_of_update {o : Nat × Word64} {r : List (Nat × Word64)} (hd : w.dropped = false) (hors : w.ors = o :: r) :
    walkReply s sock w x bad = walkOn s sock w (if bad then .done (.fault 9) else .more { w with got := none, ors := r }) := by
  simp only [walkReply, hd, hors, Bool.false_eq_true, if_false]

/-- An entry has been read. -/
theorem walkReply_of_entry {pa : Nat} (hd : w.dropped = false) (hors : w.ors = []) (hpa : walkAddress w = some pa) :
    walkReply s sock w x bad = walkOn (walkStep s sock { w with got := none } pa x bad).1 sock w
      (walkStep s sock { w with got := none } pa x bad).2 := by
  simp only [walkReply, hd, hors, hpa, Bool.false_eq_true, if_false]

end

/-! ### Page requests (R64 to R67) -/

section
variable {s : State} {sock : Nat}

/-- The first request whose queue has space is written to it, and is posted no more. -/
theorem execPageRequestPost_writes {q : XReq} {id stage ipa pa : Nat}
    (hfind : ((shardOf s sock).toPost.find? fun e => (nextRecord s e.1.ctx).isSome) = some (q, id, stage, ipa))
    (hpa : nextRecord s q.ctx = some pa) :
    let c := accessCode s q.acc
    execPageRequestPost sock s = .next (updShard
      (deviceWrite c.1 sock pa (requestRecord sock q id stage ipa c.2 (timeAt c.1 sock)) (.prq q.ctx)) sock fun h =>
      { h with toPost := h.toPost.erase (q, id, stage, ipa) }) := by
  simp only [execPageRequestPost, hfind, hpa]

/-- Where every queue is full, the first request whose queue does not say so sets overflow. -/
theorem execPageRequestPost_overflows {e : XReq × Nat × Nat × Nat} (hfull : ∀ e ∈ (shardOf s sock).toPost, nextRecord s e.1.ctx = none)
    (hfind : ((shardOf s sock).toPost.find? fun e => !regBit s (.prqbase e.1.ctx) 63) = some e) :
    execPageRequestPost sock s = .next (regSetBit s (.prqbase e.1.ctx) 63 true) := by
  have hnone : ((shardOf s sock).toPost.find? fun e => (nextRecord s e.1.ctx).isSome) = none :=
    List.find?_eq_none.mpr fun x hx => by simp [hfull x hx]
  simp only [execPageRequestPost, hnone, hfind]

theorem execPrqRecordComplete_of_over {n : Nat} {w : DevWrite} (hw : (writesFor s (.prq n)).head? = some w) (hover : w.over s = true) :
    execPrqRecordComplete n s = .next (raiseVector
      (regSet { s with devWrites := s.devWrites.erase w } (.prqptr n) 31 0 ((regFld s (.prqptr n) 31 0 + 1) % 2 ^ 32)) n 0) := by
  simp only [execPrqRecordComplete, hw, hover, Bool.not_true, Bool.false_eq_true, if_false]

end

section
variable {s : State} {n : Nat} {v : Word64}

/-- A response to no outstanding request is ignored (R65). -/
theorem writePrresp_of_unknown (hp : pageReqOf s n (fld v 15 0) = none) : writePrresp s n v = s := by
  simp only [writePrresp, hp]

theorem writePrresp_of_retry {p : PageReq} (hp : pageReqOf s n (fld v 15 0) = some p) (hv : fld v 63 62 = 0) :
    writePrresp s n v = answerReq s p true := by
  simp only [writePrresp, hp, hv]

theorem writePrresp_of_refuse {p : PageReq} (hp : pageReqOf s n (fld v 15 0) = some p) (hv : fld v 63 62 = 1) :
    writePrresp s n v = answerReq s p false := by
  simp only [writePrresp, hp, hv]

/-- The status of a response says nothing of the request that it answers. -/
theorem pageReqOf_setStatus (s : State) (n : Nat) (v : Word64) (status : Nat) :
    pageReqOf s n (fld (setFld v 63 62 status) 15 0) = pageReqOf s n (fld v 15 0) := by
  rw [fld_setFld_apart v status (by decide) (by decide)]

/-- A retry that comes once the requester knows the identifier, and the request is not still to be posted, is acted on at once (R65). -/
theorem answerReq_retries {p : PageReq} (htold : p.told = true)
    (hposted : ∀ e ∈ s.shards, ∀ x ∈ e.2.toPost, ¬ (x.1.ctx = p.ctx ∧ x.2.1 = p.id)) :
    answerReq s p true = retryReq { s with pageReqs := updWhere (· == p) (fun p => { p with answer := some true }) s.pageReqs }
      { p with answer := some true } := by
  have hkept : (s.shards.map fun e =>
      (e.1, { e.2 with toPost := e.2.toPost.filter fun x => !(x.1.ctx == p.ctx && x.2.1 == p.id) })) = s.shards := by
    refine (List.map_congr_left fun e he => ?_).trans (List.map_id s.shards)
    have hall : (e.2.toPost.filter fun x => !(x.1.ctx == p.ctx && x.2.1 == p.id)) = e.2.toPost :=
      List.filter_eq_self.mpr fun x hx => by simpa using not_and_or.mp (hposted e he x hx)
    rw [hall, id]
  simp only [answerReq, hkept, noteReq, settleReq, htold]

end

/-! ### Invalidations (R68, R69) -/

section
variable {s : State}

theorem writeXlatinv_of_busy (v : Word64) (hbusy : regBit s .xlatinv 63 = true) : writeXlatinv s v = s := by
  simp only [writeXlatinv, hbusy, Bool.true_or, if_true]

/-- A command of one of the three scopes drops what it covers and is busy. -/
theorem writeXlatinv_of_idle {v : Word64} (hidle : regBit s .xlatinv 63 = false) (hscope : fld v 62 61 ≠ 3) :
    writeXlatinv s v =
      let s1 := regSetBit (regPut s .xlatinv (regWritten .xlatinv (regGet s .xlatinv) v)) .xlatinv 63 true
      { dropCovered s1 (invalOf s1) with xlatGen := s1.xlatGen + 1, inval := invalOf s1 } := by
  have hruns : ¬ (regBit s .xlatinv 63 || fld v 62 61 == 3) = true := by simp [hidle, hscope]
  exact if_neg hruns

/-- A command whose scope the event sets to 0, 1 or 2 is never of the scope that is ignored. -/
theorem fld_scope_ne {v : Word64} {scope : Nat} (h : scope < 3) : fld (setFld v 62 61 scope) 62 61 ≠ 3 := by
  rw [fld_setFld_same v scope (by decide) (by decide)]
  omega

theorem execXlatinvComplete_of_done (hbusy : regBit s .xlatinv 63 = true) (hwalks : ∀ e ∈ s.shards, ∀ w ∈ e.2.walks, w.dropped = false)
    (hflight : coveredInFlight s s.inval = false) : execXlatinvComplete s = .next (regSetBit s .xlatinv 63 false) := by
  have hnone : (s.shards.any fun e => e.2.walks.any (·.dropped)) = false :=
    List.any_eq_false.mpr fun e he => by simpa using hwalks e he
  simp only [execXlatinvComplete, hbusy, hnone, hflight, Bool.not_true, Bool.or_false, Bool.false_eq_true, if_false]

end

end Sys2Proof.Machine

open Sys2Proof Sys2Proof.Machine

/-- Settles O37: each event takes the branch that its conditions name; the status or scope that a command sets reads back from its write. -/
theorem translationEvents : Obligations.TranslationEvents := by
  unfold Obligations.TranslationEvents
  intro sock n v
  refine ⟨fun s w x bad hw hgot => ⟨execWalkReferenceReply_of_got hw hgot, walkReply_of_dropped, fun _ _ => walkReply_of_update,
      fun _ => walkReply_of_entry⟩,
    fun s q id stage ipa pa hfind hpa => execPageRequestPost_writes hfind hpa, fun s e hfull hfind => execPageRequestPost_overflows hfull hfind,
    fun s w hw hover => execPrqRecordComplete_of_over hw hover, fun s p hp => ?response, fun s hp => ?unknown, fun s hidle => ?command,
    fun s hbusy => ?busy, fun s hbusy hwalks hflight => execXlatinvComplete_of_done hbusy hwalks hflight⟩
  case response =>
    have hany (status : Nat) := (pageReqOf_setStatus s n v status).trans hp
    exact ⟨congrArg _ (writePrresp_of_retry (hany 0) (fld_setFld_same v 0 (by decide) (by decide))),
      congrArg _ (writePrresp_of_refuse (hany 1) (fld_setFld_same v 1 (by decide) (by decide))), answerReq_retries⟩
  case unknown =>
    have hany (status : Nat) := (pageReqOf_setStatus s n v status).trans hp
    exact ⟨congrArg _ (writePrresp_of_unknown (hany 0)), congrArg _ (writePrresp_of_unknown (hany 1))⟩
  case command =>
    have hdrops (scope : Nat) (h : scope < 3) := writeXlatinv_of_idle hidle (fld_scope_ne (v := v) h)
    exact ⟨congrArg _ (hdrops 0 (by decide)), congrArg _ (hdrops 1 (by decide)), congrArg _ (hdrops 2 (by decide))⟩
  case busy =>
    have hignored (w : Word64) := writeXlatinv_of_busy w hbusy
    exact ⟨congrArg _ (hignored _), congrArg _ (hignored _), congrArg _ (hignored _)⟩

end

