-- ==== Sys2Proof/Proofs/CacheControl.lean ====
section
/-! Prefetches, write-back, code invalidation and fences at their issue (R224 to R229). -/

namespace Sys2Proof.Machine

-- one declaration at a time: a thread for each would be too many
set_option Elab.async false

/-- The end of an issue that finds its instruction illegal is the event of R200 in its place. -/
theorem illegal_result (c : Iss) : c.illegal.result c.a.key = c.raised 1 0 (maskOf c.ex) := rfl

section
variable {c : Iss} {x : FM} {data : List Opnd}

theorem memLanes_of_inactive (hact : c.act = []) : c.memLanes x data = [] := by simp [Iss.memLanes, hact]

theorem memLanes_ne_nil (hact : c.act ≠ []) : c.memLanes x data ≠ [] := by
  unfold Iss.memLanes
  split
  · simpa using hact
  · exact hact

end

section
variable {x : FM} {s : State} {c : Iss}

/-! ### Prefetches -/

theorem execPref_active (hc : turnOf (.pref x) x.h s = .goes c) (hact : c.act ≠ []) :
    execPref x s = .next (beginPrefetch c.s c.t.core c.a.key c.g.vf (.pref ((c.memLanes x []).map fun l => c.ea x 1 l / 128 * 128).dedup) prefRun) := by
  have hlines : ((c.memLanes x []).map fun l => c.ea x 1 l / 128 * 128).dedup ≠ [] := by
    simpa [List.dedup_eq_nil] using memLanes_ne_nil hact
  simp only [execPref, issue_goes _ hc, List.isEmpty_eq_false_iff.mpr hlines, Bool.false_eq_true, if_false, result_ok]

theorem execPref_inactive (hc : turnOf (.pref x) x.h s = .goes c) (hact : c.act = []) : execPref x s = .next c.s := by
  simp only [execPref, issue_goes _ hc, memLanes_of_inactive hact, List.map_nil, List.dedup_nil, List.isEmpty_nil, if_true, result_ok]

theorem execPrefb_illegal (hc : turnOf (.prefb x) x.h s = .goes c) (ht : hasTimeline c.t x.bnd.toNat = false) :
    execPrefb x s = c.raised 1 0 (maskOf c.ex) := by
  simp only [execPrefb, issue_goes _ hc, ht, Bool.not_false, if_true, illegal_result]

theorem execPrefb_inactive (hc : turnOf (.prefb x) x.h s = .goes c) (ht : hasTimeline c.t x.bnd.toNat = true) (hact : c.act = []) :
    execPrefb x s = .next c.s := by
  simp only [execPrefb, issue_goes _ hc, ht, hact, Bool.not_true, Bool.false_eq_true, if_false, result_ok]

/-- PREFB takes a number of its timeline and begins its pages (R225). -/
theorem execPrefb_active {l : Nat} {r : List Nat} (hc : turnOf (.prefb x) x.h s = .goes c) (ht : hasTimeline c.t x.bnd.toNat = true)
    (hact : c.act = l :: r) :
    let n := takeNumber c.s c.t.uid x.bnd.toNat
    execPrefb x s = .next (beginPrefetch (updTeam n.1 c.t.uid fun t => { t with prefb := t.prefb ++ [(x.bnd.toNat, n.2, 1)] }) c.t.core c.a.key c.g.vf
      (.prefb c.t.uid x.bnd.toNat n.2 (c.ea x 1 l) (val64 c.a x.data2 l % 2 ^ 32)) prefbRun) := by
  simp only [execPrefb, issue_goes _ hc, ht, hact, Bool.not_true, Bool.false_eq_true, if_false, result_ok]

/-! ### Write-back and code -/

theorem execCwb_access (hc : turnOf (.cwb x) x.h s = .goes c) :
    execCwb x s = (c.access c.s .cwb .zr 1 ((c.memLanes x []).map fun l => laneReq l (c.ea x 1 l) none 1 0 0) none).result c.a.key := by
  simp only [execCwb, issue_goes _ hc]

/-- The requests of an ICINV: one for each page that the range of its lowest active lane touches (R227). -/
def icinvReqs (c : Iss) (x : FM) : List LaneReq :=
  (c.act.take 1).flatMap fun l => (pageParts (c.ea x 1 l) (val64 c.a x.data2 l % 2 ^ 32)).map fun p => laneReq l p.1 none p.2 0 0

/-- The agent held by an ICINV, with the chiplets that have to drop the range: the live ones at device scope (R227). -/
def icinvHeld (c : Iss) (x : FM) : State :=
  updAgent c.s c.a.key fun a => { a with hold := some (.icinv ⟨0,
    if ordScope x == 2 then (List.range 12).filter fun k => isLive c.s k && !socketFailed c.s k else [], [], ordScope x == 2, c.s.time, []⟩) }

theorem icinvReqs_nil_iff :
    icinvReqs c x = [] ↔ ((c.act.take 1).flatMap fun l => pageParts (c.ea x 1 l) (val64 c.a x.data2 l % 2 ^ 32)) = [] := by
  simp [icinvReqs]

theorem execIcinv_empty (hc : turnOf (.icinv x) x.h s = .goes c) (hr : icinvReqs c x = []) : execIcinv x s = .next c.s := by
  cases hact : c.act with
  | nil => simp only [execIcinv, issue_goes _ hc, hact, result_ok]
  | cons l r =>
    have hnone : (pageParts (c.ea x 1 l) (val64 c.a x.data2 l % 2 ^ 32)) = [] := by simpa [icinvReqs, hact] using hr
    simp only [execIcinv, issue_goes _ hc, hact, hnone, List.map_nil, List.isEmpty_nil, if_true, result_ok]

theorem execIcinv_access (hc : turnOf (.icinv x) x.h s = .goes c) (hr : icinvReqs c x ≠ []) :
    execIcinv x s = (c.access (icinvHeld c x) .icinv .zr 1 (icinvReqs c x) none).result c.a.key := by
  cases hact : c.act with
  | nil => exact absurd (by simp [icinvReqs, hact]) hr
  | cons l r =>
    have hreqs : icinvReqs c x = (pageParts (c.ea x 1 l) (val64 c.a x.data2 l % 2 ^ 32)).map fun p => laneReq l p.1 none p.2 0 0 := by
      simp [icinvReqs, hact]
    rw [hreqs] at hr ⊢
    simp only [execIcinv, issue_goes _ hc, hact, List.isEmpty_eq_false_iff.mpr hr, Bool.false_eq_true, if_false]
    rfl

/-! ### The fetch buffer and fences -/

theorem execFetchb_active (hc : turnOf (.fetchb x) x.h s = .goes c) (hact : c.act ≠ []) :
    execFetchb x s = .next (updAgent c.s c.a.key fun a => { a with fetchBuf := [] }) := by
  simp only [execFetchb, issue_goes _ hc, List.isEmpty_eq_false_iff.mpr hact, Bool.false_eq_true, if_false, Iss.upd, result_ok]

theorem execFetchb_inactive (hc : turnOf (.fetchb x) x.h s = .goes c) (hact : c.act = []) : execFetchb x s = .next c.s := by
  simp only [execFetchb, issue_goes _ hc, hact, List.isEmpty_nil, if_true, result_ok]

theorem execFence_active (hc : turnOf (.fence x) x.h s = .goes c) (hact : c.act ≠ []) :
    execFence x s = .next (holdFence c.s c.a.key (ordAcq x) (ordRel x) (ordScope x) .none) := by
  simp only [execFence, issue_goes _ hc, List.isEmpty_eq_false_iff.mpr hact, Bool.false_eq_true, if_false, result_ok]

theorem execFence_inactive (hc : turnOf (.fence x) x.h s = .goes c) (hact : c.act = []) : execFence x s = .next c.s := by
  simp only [execFence, issue_goes _ hc, hact, List.isEmpty_nil, if_true, result_ok]

end

end Sys2Proof.Machine

open Sys2Proof Sys2Proof.Machine

/-- Settles O29: with an active lane each form has its one effect or is one access of its lanes; without one it leaves its issue as it is. -/
theorem cacheControlComplete : Obligations.CacheControlComplete := by
  unfold Obligations.CacheControlComplete
  intro x
  refine ⟨fun s c hc hact => execPref_active hc hact,
    fun s c hc ht => ⟨execPrefb_inactive hc ht, fun l r hact => execPrefb_active hc ht hact⟩,
    fun s c hc ht => execPrefb_illegal hc ht, beginsAccess_of_access fun s c hc _ => execCwb_access hc,
    beginsAccess_of_access fun s c hc hr => execIcinv_access hc (icinvReqs_nil_iff.not.mpr hr),
    fun s c hc hr => execIcinv_empty hc (icinvReqs_nil_iff.mpr hr), fun s c hc hact => execFetchb_active hc hact,
    fun s c hc hact => execFence_active hc hact, fun i hi => ?_⟩
  rcases List.mem_cons.mp hi with rfl | hi
  · exact fun s c hc hact => execPref_inactive hc hact
  rcases List.mem_cons.mp hi with rfl | hi
  · exact fun s c hc hact => execFetchb_inactive hc hact
  · obtain rfl := List.mem_singleton.mp hi
    exact fun s c hc hact => execFence_inactive hc hact

end

