-- ==== Sys2Proof/Proofs/Copies.lean ====
section
/-! Copy instructions at their issue (R84, R101 to R117, R330 to R336). -/

namespace Sys2Proof.Machine

-- one declaration at a time: a thread for each would be too many
set_option Elab.async false

section
variable {c : Iss} {e tl slack : Nat} {nb : Bool} {d : Opnd} {p : CopyPlan}

theorem accept_room (hroom : c.copyRoom e p = true) : c.accept e tl slack nb d p = .ok (c.nbMark nb d (acceptCopy c.s c e tl slack p) true) := by
  simp only [Iss.accept, hroom, if_true]

theorem accept_refused (hroom : c.copyRoom e p = false) : c.accept e tl slack true d p = .ok (c.nbMark true d c.s false) := by
  simp only [Iss.accept, hroom, Bool.false_eq_true, if_false, if_true]

theorem accept_parked (hroom : c.copyRoom e p = false) :
    c.accept e tl slack false d p = .stay (updAgent c.s0 c.a.key fun a => { a with hold := some .full }) := by
  simp only [Iss.accept, hroom, Bool.false_eq_true, if_false]

end

/-- An instruction that ends in the acceptance of a plan does all that a copy instruction does at its issue (R84, R332). -/
theorem acceptsCopy_of_accept {i : Instr} {h : Hdr} {tl slack : Nat} {nb : Bool} {d : Opnd} {e : Iss → Nat} {plan : Iss → Nat → CopyPlan}
    (hexec : ∀ s, exec i s = issue i h s fun c =>
      if !hasTimeline c.t tl then c.illegal
      else match c.act with
        | [] => .ok c.s
        | l :: _ => c.accept (e c) tl slack nb d (plan c l)) :
    acceptsCopy i h tl slack nb d e plan := by
  intro s c hc
  rw [hexec, issue_goes _ hc]
  refine ⟨fun ht => ?illegal, fun ht hact => ?inactive, fun l r ht hact => ⟨fun hroom => ?room, fun hroom hnb => ?refused, fun hroom hnb => ?parked⟩⟩
  case illegal => simp only [ht, Bool.not_false, if_true, illegal_result]
  case inactive => simp only [ht, hact, Bool.not_true, Bool.false_eq_true, if_false, result_ok]
  case room => simp only [ht, hact, Bool.not_true, Bool.false_eq_true, if_false, accept_room hroom, result_ok]
  case refused => simp only [ht, hact, hnb, Bool.not_true, Bool.false_eq_true, if_false, accept_refused hroom, result_ok]
  case parked => simp only [ht, hact, hnb, Bool.not_true, Bool.false_eq_true, if_false, accept_parked hroom, result_stay]

/-- CBDROP asks the same of any active lane, so it may be read as its lowest one's plan (R335). -/
theorem execCbdrop_accept (x : F3) (s : State) :
    execCbdrop x s = issue (.cbdrop x) x.h s fun c =>
      if !hasTimeline c.t x.bnd.toNat then c.illegal
      else match c.act with
        | [] => .ok c.s
        | _ :: _ => c.accept (fld x.imm 10 8) x.bnd.toNat 0 false .zr
          { emptyPlan (.cbdrop (fld x.imm 19 18)) x 0 0 0 with dstStep := false, srcStep := false, idxStep := false } := by
  unfold execCbdrop
  congr 1
  funext c
  cases c.act <;> rfl

section
variable {x : F3} {s : State} {c : Iss}

theorem execCqry_inactive (hc : turnOf (.cqry x) x.h s = .goes c) (hact : c.act = []) : execCqry x s = .next c.s := by
  simp only [execCqry, issue_goes _ hc, hact, result_ok]

theorem execCqry_active {l : Nat} {r : List Nat} (hc : turnOf (.cqry x) x.h s = .goes c) (hact : c.act = l :: r) :
    execCqry x s
      = .next (addVar c.s c.a.key c.n (regWrites 64 x.d l (cqryWord c.s (socketOf c.t.core) (c.engine x) c.t.uid).toNat) none) := by
  simp only [execCqry, issue_goes _ hc, hact, result_ok]

end

end Sys2Proof.Machine

open Sys2Proof Sys2Proof.Machine

/-- Settles O31: the six copy forms end in the acceptance of their plans; CQRY reads its engine in its lowest active lane. -/
theorem copyComplete : Obligations.CopyComplete := by
  unfold Obligations.CopyComplete
  intro x
  exact ⟨acceptsCopy_of_accept fun s => rfl, acceptsCopy_of_accept fun s => rfl, acceptsCopy_of_accept fun s => rfl,
    acceptsCopy_of_accept fun s => rfl, acceptsCopy_of_accept fun s => rfl, acceptsCopy_of_accept fun s => execCbdrop_accept x s,
    fun s c hc _ => ⟨execCqry_inactive hc, fun l r hact => execCqry_active hc hact⟩⟩

end

