-- ==== Sys2Proof/Proofs/HostPort.lean ====
section
/-! The host port: accesses, completions, snoops, loss of the host and replies from system ranges (R90, R91, R412 to R418). -/

namespace Sys2Proof.Machine

-- one declaration at a time: a thread for each would be too many
set_option Elab.async false

section
variable {s : State} {n : Nat}

/-! ### Accesses of the host (R414, R416, R417) -/

theorem execHostMemRead_of_port {q : HostRead} (hp : hostPort s = true) (hlen : q.len ≠ 0) : execHostMemRead q s = .next (readHost s q) := by
  simp [execHostMemRead, hp, hlen]

theorem execHostMemWrite_of_port {q : HostWrite} (hp : hostPort s = true) (hlen : q.bytes.length ≠ 0) :
    execHostMemWrite q s = .next (writeHost s q) := by
  simp only [execHostMemWrite, hp, beq_eq_false_iff_ne.mpr hlen, Bool.not_true, Bool.or_false, Bool.false_eq_true, if_false]

theorem execHostWriteCompletion_of_due {d : HostDone} (hd : s.hostDone[n]? = some d) (ht : d.time < timeAt s (homeSocket s d.pa)) :
    execHostWriteCompletion n s = .next (emitOut { s with hostDone := s.hostDone.eraseIdx n } (.hostDone d.host d.pa)) := by
  simp only [execHostWriteCompletion, hd, if_neg (Nat.not_le.mpr ht)]

/-! ### Snoops and loss of the host (R90, R91, R415) -/

theorem execSnoopResponse_of_snoop (cells : List (Nat × Byte)) (hw : ∃ w ∈ s.snoops, w.1 = n) :
    execSnoopResponse n cells s = .next ((waitingOn s n).foldl (fun s w => applyHome s w.2)
      (homeWrite { s with hostHeld := s.hostHeld.filter (· != n), snoops := s.snoops.filter fun w => w.1 != n } 1
        (cells.filter fun c => c.1 / 128 == n) 28 .other false)) := by
  have hany : (s.snoops.any fun w => w.1 == n) = true := by simpa [List.any_eq_true] using hw
  simp only [execSnoopResponse, hany, Bool.not_true, Bool.false_eq_true, if_false]

theorem execHostLinkTimeout_of_due (hdown : s.hostUp = false) (hlost : hostLost s = false)
    (ht : s.hostDownSince + 1000000 * max 1 (regFld s .hostcfg 15 0) ≤ timeAt s 28) : execHostLinkTimeout s = .next (declareLost s) := by
  simp only [execHostLinkTimeout, hdown, hlost, decide_eq_false (Nat.not_lt.mpr ht), Bool.or_false, Bool.false_eq_true, if_false]

theorem execSnoopTimeout_of_due (hw : ∃ w ∈ s.snoops, w.1 = n ∧ w.2.1 + 10000000 ≤ timeAt s w.2.2.2.dst) :
    execSnoopTimeout n s = .next (declareLost s) := by
  have hany : (s.snoops.any fun w => w.1 == n && decide (w.2.1 + 10000000 ≤ timeAt s w.2.2.2.dst)) = true := by
    simpa [List.any_eq_true] using hw
  simp only [execSnoopTimeout, hany, if_true]

theorem execHostLinkL0Change_of_change {up : Bool} (h : up ≠ s.hostUp) :
    execHostLinkL0Change up s = .next { s with hostUp := up, hostDownSince := timeAt s 28 } := by
  simp only [execHostLinkL0Change, beq_eq_false_iff_ne.mpr h, Bool.false_eq_true, if_false]

/-! ### System ranges (R412, R418, R423) -/

theorem execSystemRangeReply_of_link {q : SysReq} (r : SystemReply) (hq : s.sysReqs[n]? = some q) (hl : 16 ≤ q.port ∨ linkState s q.port = .up) :
    execSystemRangeReply n r s = .next (systemAnswer { s with sysReqs := s.sysReqs.eraseIdx n } q.pkt r) := by
  have hgoes : ¬ (q.port < 16 ∧ linkState s q.port ≠ .up) := by
    rintro ⟨hport, hdown⟩
    exact hl.elim (by omega) hdown
  simp only [execSystemRangeReply, hq, if_neg hgoes]

end

end Sys2Proof.Machine

open Sys2Proof Sys2Proof.Machine

/-- Settles O45: each event takes the branch that its conditions name. -/
theorem hostEvents : Obligations.HostEvents := by
  unfold Obligations.HostEvents
  intro n
  exact ⟨fun s q hp hlen => execHostMemRead_of_port hp hlen, fun s q hp hlen => execHostMemWrite_of_port hp hlen,
    fun s d hd ht => execHostWriteCompletion_of_due hd ht, fun s cells hw => execSnoopResponse_of_snoop cells hw,
    fun s hdown hlost ht => execHostLinkTimeout_of_due hdown hlost ht, fun s hw => execSnoopTimeout_of_due hw,
    fun s up h => execHostLinkL0Change_of_change h, fun s q r hq hl => execSystemRangeReply_of_link r hq hl⟩

end

