-- ==== Sys2Proof/Proofs/CopyEngines.lean ====
section
/-! Copy engines at work (R84, R108 to R115). -/

namespace Sys2Proof.Machine

-- one declaration at a time: a thread for each would be too many
set_option Elab.async false

section
variable {s : State} {c e n : Nat} {op : CopyOp}

theorem execCopyChunk_of_next (hctl : nextControl s c e = none) (hnext : nextCopy s c e = some op) (hask : op.know.asking = false) :
    execCopyChunk c e s = .next (serveChunk s c e op) := by
  simp only [execCopyChunk, hctl, hnext, hask, Option.isSome_none, Bool.false_eq_true, if_false]

theorem execCbloadServe_of_next {k count size : Nat} (hctl : nextControl s c e = some op) (hform : op.form = .cbload k count size)
    (hask : op.know.asking = false) : execCbloadServe c e s = .next (loadBook s c e op k count size) := by
  simp only [execCbloadServe, hctl, hform, hask, Bool.false_eq_true, if_false]

theorem execCbdropServe_of_next {k : Nat} (hctl : nextControl s c e = some op) (hform : op.form = .cbdrop k) :
    execCbdropServe c e s = .next (dropBook s c e op k) := by
  simp only [execCbdropServe, hctl, hform]

/-- A copy whose work is over and whose completion times have passed is over (R85, R115). -/
theorem copyOver_of_done (hout : op.outstanding = 0) (htime : op.tMax = 0 ∨ op.tMax < timeAt s c)
    (hdone : op.fault ≠ none ∨ (copyTotal s c e op ≤ op.pos ∧ linesLanded s op = true)) : copyOver s c e op = true := by
  simp only [copyOver, hout, beq_self_eq_true, Bool.true_and, Bool.and_eq_true, Bool.or_eq_true, beq_iff_eq, decide_eq_true_eq]
  exact ⟨htime, hdone.imp_left Option.isSome_iff_ne_none.mpr⟩

theorem execCopyComplete_of_over (hop : ((engineOf s c e).queue.find? fun op => op.seq == n) = some op) (hover : copyOver s c e op = true) :
    execCopyComplete c e n s = .next (endCopy s c e op) := by
  simp only [execCopyComplete, hop, hover, if_true]

end

end Sys2Proof.Machine
end

