-- ==== Sys2Proof/Proofs/Jobs.lean ====
section
/-! Jobs of the matrix engines: admission, accumulation, epilogue and completion (R302 to R305, R371). -/

namespace Sys2Proof.Machine

-- one declaration at a time: a thread for each would be too many
set_option Elab.async false

/-! ### An accumulation taken back (R304) -/

section
variable {V : Type} (m m' : Sparse V) (k : Nat)

theorem slookup_append : slookup (m ++ m') k = (slookup m k).or (slookup m' k) := by
  induction m with
  | nil => rfl
  | cons e m ih =>
    obtain ⟨a, x⟩ := e
    rw [List.cons_append, slookup_cons, slookup_cons, ih]
    split <;> rfl

theorem slookup_filter (p : Nat → Bool) : slookup (m.filter fun e => p e.1) k = if p k then slookup m k else none := by
  induction m with
  | nil => simp
  | cons e m ih =>
    obtain ⟨a, x⟩ := e
    by_cases hak : a = k
    · subst hak
      by_cases hp : p a <;> simp [hp, slookup_cons, ih]
    · by_cases hp : p a <;> simp [hp, slookup_cons, hak, ih]

theorem slookup_eq_none (h : ∀ e ∈ m, e.1 ≠ k) : slookup m k = none := by
  induction m with
  | nil => rfl
  | cons e m ih =>
    obtain ⟨a, x⟩ := e
    rw [slookup_cons, if_neg (h (a, x) List.mem_cons_self)]
    exact ih fun e he => h e (List.mem_cons_of_mem _ he)

end

/-- A tile put leaves every word outside it (R155). -/
theorem acc_putTile_out (t : Team) (tile : Nat) {ws : List Word32} (hws : ws.length ≤ 1024) {n : Nat}
    (hn : n < tile * 1024 ∨ tile * 1024 + 1024 ≤ n) : sget 0 (putTile t tile ws).acc n = sget 0 t.acc n := by
  have hmid : slookup ((ws.zipIdx.filter fun e => e.1 != 0).map fun e => (tile * 1024 + e.2, e.1)) n = none := by
    refine slookup_eq_none _ _ fun e he => ?_
    obtain ⟨w, hw, rfl⟩ := List.mem_map.mp he
    have hlt := (List.mem_zipIdx (List.mem_of_mem_filter hw)).2.1
    dsimp only
    omega
  simp only [sget, putTile, slookup_append, hmid, slookup_filter t.acc n fun a => decide (a < tile * 1024),
    slookup_filter t.acc n fun a => decide (tile * 1024 + 1024 ≤ a), Option.or_none, decide_eq_true_eq]
  rcases hn with hlow | hhigh
  · rw [if_pos hlow, if_neg (by omega), Option.or_none]
  · rw [if_neg (by omega), if_pos hhigh, Option.none_or]

theorem length_tileWords (t : Team) (tile : Nat) : (tileWords t tile).length = 1024 := by rw [tileWords, List.length_map, List.length_range]

theorem acc_mmaTile_out (t : Team) (tile : Nat) (zero isInt : Bool) (rows cols : List (List FVal)) {n : Nat}
    (hn : n < tile * 1024 ∨ tile * 1024 + 1024 ≤ n) : sget 0 (mmaTile t tile zero isInt rows cols).1.acc n = sget 0 t.acc n := by
  refine acc_putTile_out t tile ?_ hn
  rw [List.length_map, List.length_map, List.length_zip]
  refine (Nat.min_le_left _ _).trans (le_of_eq ?_)
  cases zero with
  | true => exact List.length_replicate
  | false => exact length_tileWords t tile

/-- One word of an accumulation taken back: it has its value from before where nothing has replaced it since. -/
def undoWord (tile : Nat) (t : Team) (e : (Word32 × Bool × Word32) × Nat) : Team :=
  let k := tile * 1024 + e.2
  if sget 0 t.acc k = e.1.2.2 then
    { t with acc := sset 0 t.acc k e.1.1, accPoison := sset false t.accPoison k (sget false t.accPoison k || e.1.2.1) }
  else t

theorem undoTile_eq (t : Team) (tile : Nat) (ws : List (Word32 × Bool × Word32)) : undoTile t tile ws = ws.zipIdx.foldl (undoWord tile) t := rfl

theorem acc_undoWord_same {tile : Nat} {t : Team} {e : (Word32 × Bool × Word32) × Nat} (h : sget 0 t.acc (tile * 1024 + e.2) = e.1.2.2) :
    sget 0 (undoWord tile t e).acc (tile * 1024 + e.2) = e.1.1 := by
  simp only [undoWord, if_pos h, sget_sset_same]

theorem acc_undoWord_ne {tile : Nat} (t : Team) (e : (Word32 × Bool × Word32) × Nat) {n : Nat} (h : n ≠ tile * 1024 + e.2) :
    sget 0 (undoWord tile t e).acc n = sget 0 t.acc n := by
  unfold undoWord
  dsimp only
  split
  · exact sget_sset_ne 0 t.acc _ h
  · rfl

/-- Words from the `i`-th of a tile on taken back, which nothing has replaced, where all the others have their values from before. -/
theorem acc_foldl_undoWord {tile : Nat} {old : Nat → Word32} (ws : List (Word32 × Bool × Word32)) (i : Nat) (t : Team)
    (hws : ∀ j w, ws[j]? = some w → sget 0 t.acc (tile * 1024 + (i + j)) = w.2.2 ∧ w.1 = old (tile * 1024 + (i + j)))
    (hout : ∀ n, n < tile * 1024 + i ∨ tile * 1024 + (i + ws.length) ≤ n → sget 0 t.acc n = old n) (n : Nat) :
    sget 0 ((ws.zipIdx i).foldl (undoWord tile) t).acc n = old n := by
  induction ws generalizing i t with
  | nil => exact hout n (by simp only [List.length_nil]; omega)
  | cons w ws ih =>
    obtain ⟨hnow, hold⟩ := hws 0 w rfl
    rw [List.zipIdx_cons, List.foldl_cons]
    refine ih (i + 1) (undoWord tile t (w, i)) (fun j v hv => ?_) fun m hm => ?_
    · have hj : i + 1 + j = i + (j + 1) := by omega
      rw [hj, acc_undoWord_ne t (w, i) (by dsimp only; omega)]
      exact hws (j + 1) v hv
    · by_cases hmi : m = tile * 1024 + i
      · subst hmi
        exact (acc_undoWord_same (e := (w, i)) hnow).trans hold
      · rw [acc_undoWord_ne t (w, i) hmi]
        exact hout m (by rw [List.length_cons]; omega)

/-- What a job keeps of a tile to take its accumulation back: each word and its poison before it, and the word after it (R304). -/
def undoWords (t u : Team) (tile : Nat) : List (Word32 × Bool × Word32) :=
  (((tileWords t tile).zipIdx.map fun e => (e.1, sget false t.accPoison (tile * 1024 + e.2))).zip (tileWords u tile)).map fun e => (e.1.1, e.1.2, e.2)

theorem undoWords_eq (t u : Team) (tile : Nat) :
    undoWords t u tile = (List.range 1024).map fun i =>
      (sget 0 t.acc (tile * 1024 + i), sget false t.accPoison (tile * 1024 + i), sget 0 u.acc (tile * 1024 + i)) := by
  apply List.ext_getElem
  · simp [undoWords, tileWords]
  · intro i hi hi'
    simp [undoWords, tileWords]

/-- An accumulation taken back leaves the tiles as before it, where it has changed nothing outside its tile. -/
theorem acc_undoTile_undoWords {t u : Team} {tile : Nat}
    (hout : ∀ n, n < tile * 1024 ∨ tile * 1024 + 1024 ≤ n → sget 0 u.acc n = sget 0 t.acc n) (n : Nat) :
    sget 0 (undoTile u tile (undoWords t u tile)).acc n = sget 0 t.acc n := by
  rw [undoTile_eq]
  refine acc_foldl_undoWord (old := sget 0 t.acc) _ 0 u (fun j w hw => ?_) (fun m hm => hout m ?_) n
  · rw [undoWords_eq, List.getElem?_map, Option.map_eq_some_iff] at hw
    obtain ⟨i, hi, rfl⟩ := hw
    obtain ⟨-, rfl⟩ := List.getElem?_eq_some_iff.mp hi
    simp
  · simpa [undoWords_eq] using hm

/-! ### The accumulation of a step (R302 to R304) -/

section
variable (t : Team) (j : Job)

/-- The ranges that a step's accumulation reads. -/
def jobReads : List (Nat × Nat) :=
  let p := stepPlan j.card j.step
  operandReads j.card.fmtA p.a p.aSide true ++ operandReads j.card.fmtB p.b p.bSide true

/-- The rows and the columns that a step multiplies. -/
def jobRows : List (List (Option FVal)) :=
  let p := stepPlan j.card j.step
  stepOperand (jobView t j) j.card.fmtA p.a p.aSide true 0

def jobCols : List (List (Option FVal)) :=
  let p := stepPlan j.card j.step
  stepOperand (jobView t j) j.card.fmtB p.b p.bSide true 0

/-- Whether a step starts its tile from zero, and whether an epilogue ends it. -/
def jobZeroes : Bool := (stepPlan j.card j.step).first && j.card.zero

def jobEnds : Bool := (stepPlan j.card j.step).last && j.card.epi

/-- The tile that a step accumulates into. -/
def jobTile : Nat := (stepPlan j.card j.step).tile.toNat

/-- A step's accumulation, and whether it saturated. -/
def jobProduct : Team × Bool :=
  mmaTile t (jobTile j) (jobZeroes j) ((pairKind j.card.fmtA j.card.fmtB).getD false) (goodRows (jobRows t j)) (goodRows (jobCols t j))

end

section
variable {s : State} {core : Nat} {j : Job} {t : Team}

theorem jobAccumulate_fault {f : Nat × Nat} (hf : stepFault t j.card (stepPlan j.card j.step) = some f) : jobAccumulate s core j t = .fault s f.1 f.2 := by
  simp only [jobAccumulate, hf]

/-- An accumulation whose step has no fault and whose lines are present. -/
theorem jobAccumulate_present (hf : stepFault t j.card (stepPlan j.card j.step) = none) (hlines : ∀ r ∈ jobReads j, readWaits t r.1 r.2 = []) :
    jobAccumulate s core j t =
      if ((jobReads j).any fun r => stepPoisoned (jobView t j) r.1 r.2) || (!jobZeroes j && tilePoisoned t (jobTile j)) then .fault s 5 0
      else if !(badRows (jobRows t j)).isEmpty || !(badRows (jobCols t j)).isEmpty then .fault s 3 0
      else if jobEnds j then .done (putHead (updTeam s t.uid fun _ => (jobProduct t j).1) core
        { j with accumulated := true, sat := (jobProduct t j).2, undo := undoWords t (jobProduct t j).1 (jobTile j) })
      else .done (putHead (jobSaturated (updTeam s t.uid fun _ => (jobProduct t j).1) j (jobProduct t j).2) core (jobPast j j.draws)) := by
  have hpres : ((jobReads j).any fun r => !(readWaits t r.1 r.2).isEmpty) = false := List.any_eq_false.mpr fun r hr => by simp [hlines r hr]
  simp only [jobReads] at hpres
  simp only [jobAccumulate, hf, hpres, Bool.false_eq_true, if_false]
  rfl

/-- The step meets an uncorrectable error in its operands or its tile (R304). -/
theorem jobAccumulate_poisoned (hf : stepFault t j.card (stepPlan j.card j.step) = none) (hlines : ∀ r ∈ jobReads j, readWaits t r.1 r.2 = [])
    (hbad : (∃ r ∈ jobReads j, stepPoisoned (jobView t j) r.1 r.2 = true) ∨ (jobZeroes j = false ∧ tilePoisoned t (jobTile j) = true)) :
    jobAccumulate s core j t = .fault s 5 0 := by
  rw [jobAccumulate_present hf hlines, if_pos]
  rw [Bool.or_eq_true, List.any_eq_true, Bool.and_eq_true, Bool.not_eq_true']
  exact hbad

section
variable (hf : stepFault t j.card (stepPlan j.card j.step) = none) (hlines : ∀ r ∈ jobReads j, readWaits t r.1 r.2 = [])
  (hreads : ∀ r ∈ jobReads j, stepPoisoned (jobView t j) r.1 r.2 = false) (htile : jobZeroes j = true ∨ tilePoisoned t (jobTile j) = false)
include hf hlines hreads htile

theorem jobAccumulate_clean :
    jobAccumulate s core j t =
      if !(badRows (jobRows t j)).isEmpty || !(badRows (jobCols t j)).isEmpty then .fault s 3 0
      else if jobEnds j then .done (putHead (updTeam s t.uid fun _ => (jobProduct t j).1) core
        { j with accumulated := true, sat := (jobProduct t j).2, undo := undoWords t (jobProduct t j).1 (jobTile j) })
      else .done (putHead (jobSaturated (updTeam s t.uid fun _ => (jobProduct t j).1) j (jobProduct t j).2) core (jobPast j j.draws)) := by
  have hclean : ((jobReads j).any fun r => stepPoisoned (jobView t j) r.1 r.2) = false := List.any_eq_false.mpr fun r hr => by simp [hreads r hr]
  have hgood : (!jobZeroes j && tilePoisoned t (jobTile j)) = false := by rcases htile with h | h <;> simp [h]
  rw [jobAccumulate_present hf hlines, hclean, hgood]
  rfl

/-- An operand holds an element that is no value (R176). -/
theorem jobAccumulate_badRows (hbad : badRows (jobRows t j) ≠ [] ∨ badRows (jobCols t j) ≠ []) : jobAccumulate s core j t = .fault s 3 0 := by
  rw [jobAccumulate_clean hf hlines hreads htile, if_pos]
  rw [Bool.or_eq_true, Bool.not_eq_true', Bool.not_eq_true', List.isEmpty_eq_false_iff, List.isEmpty_eq_false_iff]
  exact hbad

variable (hrows : badRows (jobRows t j) = []) (hcols : badRows (jobCols t j) = [])
include hrows hcols

theorem jobAccumulate_goesOn (hends : jobEnds j = false) :
    jobAccumulate s core j t
      = .done (putHead (jobSaturated (updTeam s t.uid fun _ => (jobProduct t j).1) j (jobProduct t j).2) core (jobPast j j.draws)) := by
  rw [jobAccumulate_clean hf hlines hreads htile, hrows, hcols, hends]
  rfl

theorem jobAccumulate_ends (hends : jobEnds j = true) :
    jobAccumulate s core j t = .done (putHead (updTeam s t.uid fun _ => (jobProduct t j).1) core
      { j with accumulated := true, sat := (jobProduct t j).2, undo := undoWords t (jobProduct t j).1 (jobTile j) }) := by
  rw [jobAccumulate_clean hf hlines hreads htile, hrows, hcols, hends]
  rfl

end

/-- An accumulation changes no word outside its tile, so its words taken back are those before it. -/
theorem acc_undo_jobProduct (t : Team) (j : Job) (n : Nat) :
    sget 0 (undoTile (jobProduct t j).1 (jobTile j) (undoWords t (jobProduct t j).1 (jobTile j))).acc n = sget 0 t.acc n :=
  acc_undoTile_undoWords (fun _ hn => acc_mmaTile_out t _ _ _ _ _ hn) n

end

/-! ### The epilogue of a step (R296, R304) -/

section
variable (t : Team) (j : Job)

/-- The bias vector that an epilogue reads, and the output tile and check vector that it writes. -/
def jobBias : List (Nat × Nat) := if j.card.bias then [((stepPlan j.card j.step).bias, 128)] else []

def jobWrites : List (Nat × Nat) :=
  let p := stepPlan j.card j.step
  (p.out, 128 * codeWidth (fwCode j.card.fmtOut)) :: (if j.card.ck then [(p.check, 128)] else [])

/-- What a step's epilogue gives (R296). -/
def jobResult : EpiOut :=
  epilogue t (jobTile j)
    { isInt := (pairKind j.card.fmtA j.card.fmtB).getD false, scale := j.card.scale.toNat, fmt := j.card.fmtOut, act := j.card.act.toNat
      bias := if j.card.bias then some (biasWords (jobView t j) (stepPlan j.card j.step).bias) else none
      bnd := if j.card.bndEn then some j.card.bnd.toNat else none }
    (fun i c => draw t.seed 34 i (65536 * j.n + c)) j.draws

/-- The hit bit of an epilogue's bound and the issuing warp's %accsat set (R303). -/
def jobFlagged (s : State) : State := jobSaturated (if (jobResult t j).hit then setHit s t.uid j.card.bnd.toNat else s) j j.sat

/-- The output and check words of an epilogue written (R298). -/
def jobWritten (s : State) : State :=
  let p := stepPlan j.card j.step
  let s := landIn (jobFlagged t j s) t.uid p.out (tileBytes (codeWidth (fwCode j.card.fmtOut)) (jobResult t j).codes) false
  if j.card.ck then landIn s t.uid p.check (checkBytes (columnSums (jobResult t j).codes)) false else s

end

section
variable {s : State} {core : Nat} {j : Job} {t : Team}

/-- An epilogue whose lines are present. -/
theorem jobEpilogue_present (hbias : ∀ r ∈ jobBias j, readWaits t r.1 r.2 = []) (hwrites : ∀ r ∈ jobWrites j, absentLines t r.1 r.2 = []) :
    jobEpilogue s core j t =
      if ((jobBias j).any fun r => stepPoisoned (jobView t j) r.1 r.2) || tilePoisoned t (jobTile j) then
        .fault (updTeam s t.uid fun t => undoTile t (jobTile j) j.undo) 5 0
      else if !(jobResult t j).trapped.isEmpty then .fault (jobFlagged t j s) 4 0
      else .done (putHead (jobWritten t j s) core (jobPast j (jobResult t j).counters)) := by
  have hpres : ((jobBias j).any fun r => !(readWaits t r.1 r.2).isEmpty) = false := List.any_eq_false.mpr fun r hr => by simp [hbias r hr]
  have hroom : ((jobWrites j).any fun r => !(absentLines t r.1 r.2).isEmpty) = false := List.any_eq_false.mpr fun r hr => by simp [hwrites r hr]
  simp only [jobBias] at hpres
  simp only [jobWrites] at hroom
  simp only [jobEpilogue, hpres, hroom, Bool.or_false, Bool.false_eq_true, if_false]
  rfl

/-- An epilogue that meets an uncorrectable error takes the accumulation back (R304). -/
theorem jobEpilogue_poisoned (hbias : ∀ r ∈ jobBias j, readWaits t r.1 r.2 = []) (hwrites : ∀ r ∈ jobWrites j, absentLines t r.1 r.2 = [])
    (hbad : (∃ r ∈ jobBias j, stepPoisoned (jobView t j) r.1 r.2 = true) ∨ tilePoisoned t (jobTile j) = true) :
    jobEpilogue s core j t = .fault (updTeam s t.uid fun t => undoTile t (jobTile j) j.undo) 5 0 := by
  rw [jobEpilogue_present hbias hwrites, if_pos]
  rw [Bool.or_eq_true, List.any_eq_true]
  exact hbad

section
variable (hbias : ∀ r ∈ jobBias j, readWaits t r.1 r.2 = []) (hwrites : ∀ r ∈ jobWrites j, absentLines t r.1 r.2 = [])
  (hgood : ∀ r ∈ jobBias j, stepPoisoned (jobView t j) r.1 r.2 = false) (htile : tilePoisoned t (jobTile j) = false)
include hbias hwrites hgood htile

theorem jobEpilogue_clean :
    jobEpilogue s core j t = if !(jobResult t j).trapped.isEmpty then .fault (jobFlagged t j s) 4 0
      else .done (putHead (jobWritten t j s) core (jobPast j (jobResult t j).counters)) := by
  have hclean : ((jobBias j).any fun r => stepPoisoned (jobView t j) r.1 r.2) = false := List.any_eq_false.mpr fun r hr => by simp [hgood r hr]
  rw [jobEpilogue_present hbias hwrites, hclean, htile]
  rfl

theorem jobEpilogue_traps (htrap : (jobResult t j).trapped ≠ []) : jobEpilogue s core j t = .fault (jobFlagged t j s) 4 0 := by
  rw [jobEpilogue_clean hbias hwrites hgood htile, List.isEmpty_eq_false_iff.mpr htrap]
  rfl

theorem jobEpilogue_writes (htrap : (jobResult t j).trapped = []) :
    jobEpilogue s core j t = .done (putHead (jobWritten t j s) core (jobPast j (jobResult t j).counters)) := by
  rw [jobEpilogue_clean hbias hwrites hgood htile, htrap]
  rfl

end

end

/-! ### Moves of a job -/

section
variable {s : State} {c : Nat} {j : Job} {t : Team}

/-- A step's end with a fault names the offset at fault (R391). -/
def jobEnded (s : State) (c : Nat) (j : Job) (f : Nat × Nat) : State := finishJob s c { j with addr := f.2 } (some f.1)

/-- What one move of a core's admitted job comes to. -/
def jobOutcome (c : Nat) (j : Job) : JobOut → Result
  | .waits => .refused (.notDue "JOB_STEP")
  | .fault s sub addr => .next (jobEnded s c j (sub, addr))
  | .done s => .next s

theorem execJobAdmission_of_asked (hj : ∃ g ∈ clusterCores c, ∃ j, headJob s g = some j ∧ j.tested = false ∧ j.admitted = false ∧ j.finished = false) :
    execJobAdmission c s = .next (admitCluster s false c) := by
  obtain ⟨g, hg, j, hhead, htested, hadmitted, hfinished⟩ := hj
  refine if_pos (List.any_eq_true.mpr ⟨g, hg, ?_⟩)
  simp [hhead, htested, hadmitted, hfinished]

theorem execJobStep_of_head (hj : headJob s c = some j) (hadm : j.admitted = true) (hfin : j.finished = false) (ht : teamOf s j.issuer.team = some t) :
    execJobStep c s = jobOutcome c j (jobStep s c j t) := by
  have hgoes : ¬ (!j.admitted || j.finished) = true := by simp [hadm, hfin]
  simp only [execJobStep, hj, ht, if_neg hgoes]
  cases jobStep s c j t with
  | waits => rfl
  | fault s sub addr => rfl
  | done s => rfl

theorem execJobComplete_of_finished (hj : headJob s c = some j) (hfin : j.finished = true) : execJobComplete c s = .next (endJob s c j) := by
  simp only [execJobComplete, hj, hfin, if_true]

theorem jobStep_accumulates (h : j.accumulated = false) : jobStep s c j t = jobAccumulate s c j t := by
  simp only [jobStep, h, Bool.false_eq_true, if_false]

theorem jobStep_epilogue (h : j.accumulated = true) : jobStep s c j t = jobEpilogue s c j t := by
  simp only [jobStep, h, if_true]

end

end Sys2Proof.Machine

open Sys2Proof Sys2Proof.Machine

/-- Settles O39: each event takes the branch that its conditions name; an accumulation that a later epilogue takes back has changed its tile alone. -/
theorem engineEvents : Obligations.EngineEvents := by
  unfold Obligations.EngineEvents
  intro c e
  refine ⟨fun s op hctl hnext hask => execCopyChunk_of_next hctl hnext hask,
    fun s op k count size hctl hform hask => execCbloadServe_of_next hctl hform hask, fun s op k hctl hform => execCbdropServe_of_next hctl hform,
    fun s n op hop hout htime hdone => execCopyComplete_of_over hop (copyOver_of_done hout htime hdone), fun s hj => execJobAdmission_of_asked hj,
    fun s j t hj hadm hfin ht => ?step, fun s j hj hfin => execJobComplete_of_finished hj hfin⟩
  case step =>
    have hstep := execJobStep_of_head hj hadm hfin ht
    refine ⟨fun hacc => ?accumulate, fun hacc hbias hwrites => ?epilogue⟩
    case accumulate =>
      rw [jobStep_accumulates hacc] at hstep
      refine ⟨fun f hf => hstep.trans (congrArg _ (jobAccumulate_fault hf)),
        fun hf hlines => ⟨fun hbad => hstep.trans (congrArg _ (jobAccumulate_poisoned hf hlines hbad)), fun hreads htile =>
          ⟨fun hbad => hstep.trans (congrArg _ (jobAccumulate_badRows hf hlines hreads htile hbad)), fun hrows hcols =>
            ⟨fun hends => hstep.trans (congrArg _ (jobAccumulate_goesOn hf hlines hreads htile hrows hcols hends)),
              fun hends => ⟨undoWords t (jobProduct t j).1 (jobTile j),
                hstep.trans (congrArg _ (jobAccumulate_ends hf hlines hreads htile hrows hcols hends)), acc_undo_jobProduct t j⟩⟩⟩⟩⟩
    case epilogue =>
      rw [jobStep_epilogue hacc] at hstep
      exact ⟨fun hbad => hstep.trans (congrArg _ (jobEpilogue_poisoned hbias hwrites hbad)), fun hgood htile =>
        ⟨fun htrap => hstep.trans (congrArg _ (jobEpilogue_traps hbias hwrites hgood htile htrap)),
          fun htrap => hstep.trans (congrArg _ (jobEpilogue_writes hbias hwrites hgood htile htrap))⟩⟩

end

