-- ==== Sys2Proof/Proofs/StepBytes.lean ====
section
/-! What a write of step memory does to each byte and to each next-plane word, and what it leaves alone (R97, R125, R127). -/

namespace Sys2Proof.Machine

-- one declaration at a time: a thread for each would be too many
set_option Elab.async false

/-! ### Bytes -/

theorem stepByte_putStepByte (t : Team) (off : Nat) (b : Byte) (a : Nat) : stepByte (putStepByte t off b) a = if a = off then b else stepByte t a := by
  by_cases ho : windowBase ≤ off <;> by_cases ha : windowBase ≤ a
  · have hsub : a - windowBase = off - windowBase ↔ a = off := by omega
    simp only [stepByte, putStepByte, if_pos ho, if_pos ha, sget_sset, hsub]
  · have hne : a ≠ off := by omega
    simp only [stepByte, putStepByte, if_pos ho, if_neg ha, if_neg hne]
  · have hne : a ≠ off := by omega
    simp only [stepByte, putStepByte, if_neg ho, if_pos ha, if_neg hne]
  · simp only [stepByte, putStepByte, if_neg ho, if_neg ha, sget_sset]

/-- A run of bytes put one by one, the first at `off + i`. -/
theorem stepByte_foldl_putStepByte (off a : Nat) (bs : List Byte) (i : Nat) (t : Team) :
    stepByte ((bs.zipIdx i).foldl (fun t e => putStepByte t (off + e.2) e.1) t) a
      = if off + i ≤ a ∧ a < off + i + bs.length then bs.getD (a - (off + i)) 0 else stepByte t a := by
  induction bs generalizing i t with
  | nil => simp
  | cons b bs ih =>
    rw [List.zipIdx_cons, List.foldl_cons, ih, stepByte_putStepByte]
    rcases Nat.lt_trichotomy a (off + i) with hlt | rfl | hgt
    · rw [if_neg (by omega), if_neg (by omega), if_neg (by omega)]
    · simp
    · obtain ⟨d, rfl⟩ : ∃ d, a = off + (i + 1) + d := ⟨a - (off + (i + 1)), by omega⟩
      have hd : off + (i + 1) + d - (off + i) = d + 1 := by omega
      rw [if_neg (by omega : ¬ off + (i + 1) + d = off + i), hd, Nat.add_sub_cancel_left, List.getD_cons_succ, List.length_cons]
      exact if_congr (by omega) rfl rfl

theorem stepByte_putStepBytes (t : Team) (off : Nat) (bs : List Byte) (a : Nat) :
    stepByte (putStepBytes t off bs) a = if off ≤ a ∧ a < off + bs.length then bs.getD (a - off) 0 else stepByte t a := by
  have hfold := stepByte_foldl_putStepByte off a bs 0 t
  simp only [Nat.add_zero] at hfold
  rw [← hfold]
  unfold putStepBytes
  dsimp only
  split <;> rfl

theorem stepByte_putStepBytes_out (t : Team) {off a : Nat} (bs : List Byte) (h : a < off ∨ off + bs.length ≤ a) :
    stepByte (putStepBytes t off bs) a = stepByte t a := by
  rw [stepByte_putStepBytes, if_neg (by omega)]

/-- What a run of bytes written can change of its team. -/
theorem putStepBytes_frame (t : Team) (off : Nat) (bs : List Byte) :
    ∃ present ladleMem stepPoison, putStepBytes t off bs = { t with present := present, ladleMem := ladleMem, stepPoison := stepPoison } := by
  have hbyte : ∀ (u : Team) (e : Byte × Nat), (∃ present ladleMem, u = { t with present := present, ladleMem := ladleMem }) →
      ∃ present ladleMem, putStepByte u (off + e.2) e.1 = { t with present := present, ladleMem := ladleMem } := by
    rintro _ e ⟨present, ladleMem, rfl⟩
    unfold putStepByte
    split
    · exact ⟨_, _, rfl⟩
    · exact ⟨_, _, rfl⟩
  obtain ⟨present, ladleMem, hfold⟩ := foldl_keeps hbyte bs.zipIdx ⟨t.present, t.ladleMem, rfl⟩
  unfold putStepBytes
  rw [hfold]
  dsimp only
  split
  · exact ⟨present, ladleMem, t.stepPoison, rfl⟩
  · exact ⟨present, ladleMem, _, rfl⟩

/-- Reads of a range agree where its bytes do. -/
theorem stepRead_congr {t u : Team} {off n : Nat} (h : ∀ a, off ≤ a → a < off + n → stepByte u a = stepByte t a) :
    stepRead u off n = stepRead t off n := by
  unfold stepRead
  congr 1
  refine List.map_congr_left fun i hi => h _ (Nat.le_add_right off i) ?_
  have := List.mem_range.mp hi
  omega

/-- A number written reads back as its low bytes. -/
theorem stepRead_putStepBytes_same (t : Team) (off n x : Nat) : stepRead (putStepBytes t off (leBytes n x)) off n = x % 2 ^ (8 * n) := by
  have hbytes : (List.range n).map (fun i => stepByte (putStepBytes t off (leBytes n x)) (off + i)) = leBytes n x := by
    apply List.ext_getElem
    · simp
    · intro i hi hi'
      have hn : i < n := by simpa using hi
      rw [List.getElem_map, List.getElem_range, stepByte_putStepBytes, if_pos (by simp [hn]), Nat.add_sub_cancel_left,
        List.getD_eq_getElem _ _ hi']
  rw [stepRead, hbytes, leNat_leBytes, Nat.pow_mul]

/-! ### Next-plane words -/

/-- What an entry of the collision table can change of its team (R127, R130): of the words, only its own. -/
theorem tablePut_frame (t : Team) (off rank : Nat) (v : Word32) :
    (∃ next coll, tablePut t off rank v = { t with next := next, coll := coll }) ∧ ∀ o, o ≠ off → nextWord (tablePut t off rank v) o = nextWord t o := by
  unfold tablePut
  split
  · exact ⟨⟨t.next, _, rfl⟩, fun _ _ => rfl⟩
  · split
    · exact ⟨⟨t.next, _, rfl⟩, fun _ _ => rfl⟩
    · exact ⟨⟨_, t.coll, rfl⟩, fun _ ho => sget_sset_ne nextInit t.next _ ho⟩

/-- A relation of teams that a store of one word keeps to: the parts that it can change, and every other word as it was. -/
def nextFrame (off : Nat) (t u : Team) : Prop :=
  (∃ next nextPoison coll, u = { t with next := next, nextPoison := nextPoison, coll := coll }) ∧ ∀ o, o ≠ off → nextWord u o = nextWord t o

theorem nextFrame.trans {off : Nat} {t u w : Team} (h : nextFrame off t u) (k : nextFrame off u w) : nextFrame off t w := by
  obtain ⟨⟨_, _, _, rfl⟩, hword⟩ := h
  obtain ⟨⟨next, nextPoison, coll, rfl⟩, hword'⟩ := k
  exact ⟨⟨next, nextPoison, coll, rfl⟩, fun o ho => (hword' o ho).trans (hword o ho)⟩

theorem nextFrame_put (t : Team) (off : Nat) (w : NextWord) : nextFrame off t { t with next := sset nextInit t.next off w } :=
  ⟨⟨_, t.nextPoison, t.coll, rfl⟩, fun _ ho => sget_sset_ne nextInit t.next w ho⟩

theorem nextFrame_tablePut (t : Team) (off rank : Nat) (v : Word32) : nextFrame off t (tablePut t off rank v) := by
  obtain ⟨⟨next, coll, ht⟩, hword⟩ := tablePut_frame t off rank v
  exact ⟨⟨next, t.nextPoison, coll, ht⟩, hword⟩

/-- A lane's store of one word, whatever the rule of its region (R127). -/
theorem nextFrame_putNext (t : Team) (r : Region) (off rank : Nat) (v : Word32) : nextFrame off t (putNext t r off rank v) := by
  have hclear : nextFrame off t (if t.nextPoison.isEmpty then t else { t with nextPoison := sset false t.nextPoison (off / 4) false }) := by
    split
    · exact ⟨⟨t.next, t.nextPoison, t.coll, rfl⟩, fun _ _ => rfl⟩
    · exact ⟨⟨t.next, _, t.coll, rfl⟩, fun _ _ => rfl⟩
  unfold putNext
  dsimp only
  refine hclear.trans ?_
  generalize (if t.nextPoison.isEmpty then t else { t with nextPoison := sset false t.nextPoison (off / 4) false }) = t1
  split
  · exact nextFrame_put t1 off _
  · split
    · split
      · exact nextFrame_put t1 off _
      · exact ⟨⟨t1.next, t1.nextPoison, t1.coll, rfl⟩, fun _ _ => rfl⟩
    · split
      · exact nextFrame_put t1 off _
      · exact nextFrame_put t1 off _
    · split
      · exact nextFrame_put t1 off _
      · split
        · exact nextFrame_tablePut t1 off rank v
        · exact ((nextFrame_tablePut t1 off _ _).trans (nextFrame_put _ off _)).trans (nextFrame_tablePut _ off rank v)

/-- A word that nothing has written gets the value and the rank of its first store (R127). -/
theorem nextWord_putNext_unwritten {t : Team} {off : Nat} (r : Region) (rank : Nat) (v : Word32) (h : (nextWord t off).written = false) :
    nextWord (putNext t r off rank v) off = { nextWord t off with value := v, rank := rank, written := true, copied := false } := by
  unfold putNext
  simp only [h, Bool.not_false, if_true]
  exact sget_sset_same nextInit _ off _

/-- The words of a store, the first at `off + 4 * i`. -/
theorem nextWord_foldl_putNext_out (r : Region) (off rank : Nat) (vs : List Word32) (i : Nat) (t : Team) {o : Nat}
    (ho : o < off + 4 * i ∨ off + 4 * (i + vs.length) ≤ o) :
    nextWord ((vs.zipIdx i).foldl (fun t e => putNext t r (off + 4 * e.2) rank e.1) t) o = nextWord t o := by
  induction vs generalizing i t with
  | nil => rfl
  | cons v vs ih =>
    rw [List.length_cons] at ho
    rw [List.zipIdx_cons, List.foldl_cons, ih (i + 1) _ (by omega)]
    exact (nextFrame_putNext t r (off + 4 * i) rank v).2 o (by rintro rfl; omega)

theorem nextWord_foldl_putNext_in (r : Region) (off rank : Nat) (vs : List Word32) (i : Nat) (t : Team) {j : Nat} {v : Word32} (hj : vs[j]? = some v)
    (h : (nextWord t (off + 4 * (i + j))).written = false) :
    nextWord ((vs.zipIdx i).foldl (fun t e => putNext t r (off + 4 * e.2) rank e.1) t) (off + 4 * (i + j))
      = { nextWord t (off + 4 * (i + j)) with value := v, rank := rank, written := true, copied := false } := by
  induction vs generalizing i j t with
  | nil => simp at hj
  | cons w vs ih =>
    rw [List.zipIdx_cons, List.foldl_cons]
    cases j with
    | zero =>
      obtain rfl : w = v := by simpa using hj
      rw [Nat.add_zero] at h ⊢
      rw [nextWord_foldl_putNext_out r off rank vs (i + 1) _ (by omega)]
      exact nextWord_putNext_unwritten r rank w h
    | succ j =>
      have hij : i + (j + 1) = i + 1 + j := by omega
      have hkeep := (nextFrame_putNext t r (off + 4 * i) rank w).2 (off + 4 * (i + 1 + j)) (by omega)
      rw [hij] at h ⊢
      rw [ih (i + 1) _ (by simpa using hj) (by rw [hkeep]; exact h), hkeep]

theorem putNextWords_frame (t : Team) (r : Region) (off rank : Nat) (vs : List Word32) :
    ∃ next nextPoison coll, putNextWords t r off rank vs = { t with next := next, nextPoison := nextPoison, coll := coll } := by
  refine foldl_keeps (P := fun u => ∃ next nextPoison coll, u = { t with next := next, nextPoison := nextPoison, coll := coll }) ?_ vs.zipIdx
    ⟨t.next, t.nextPoison, t.coll, rfl⟩
  rintro _ e ⟨_, _, _, rfl⟩
  exact (nextFrame_putNext _ r _ rank e.1).1

theorem nextWord_putNextWords_out (t : Team) (r : Region) (off rank : Nat) (vs : List Word32) {o : Nat} (ho : o < off ∨ off + 4 * vs.length ≤ o) :
    nextWord (putNextWords t r off rank vs) o = nextWord t o :=
  nextWord_foldl_putNext_out r off rank vs 0 t (by omega)

theorem nextWord_putNextWords_in {t : Team} (r : Region) (off rank : Nat) {vs : List Word32} {j : Nat} {v : Word32} (hj : vs[j]? = some v)
    (h : (nextWord t (off + 4 * j)).written = false) :
    nextWord (putNextWords t r off rank vs) (off + 4 * j)
      = { nextWord t (off + 4 * j) with value := v, rank := rank, written := true, copied := false } := by
  have hin := nextWord_foldl_putNext_in r off rank vs 0 t hj (by rwa [Nat.zero_add])
  rwa [Nat.zero_add] at hin

@[simp] theorem wordsOf_length (n x : Nat) : (wordsOf n x).length = n / 4 := by rw [wordsOf, List.length_map, List.length_range]

theorem getElem?_wordsOf {n i : Nat} (x : Nat) (hi : i < n / 4) : (wordsOf n x)[i]? = some (BitVec.ofNat 32 (x / 2 ^ (32 * i))) := by
  rw [wordsOf, List.getElem?_map, List.getElem?_range hi]
  rfl

end Sys2Proof.Machine
end

