-- ==== Sys2Proof/Proofs/StepStores.lean ====
section
/-! The stores of STS: to next planes and the ladle window at once, elsewhere on their way to the banks (R79, R97, R127, R219, R232). -/

namespace Sys2Proof.Machine

-- one declaration at a time: a thread for each would be too many
set_option Elab.async false

/-! ### What a store never touches -/

/-- A team without the parts that a store can change. -/
def storeRest (t : Team) : Team :=
  { t with stores := [], present := [], stepPoison := [], next := [], nextPoison := [], coll := [], ladleMem := [] }

theorem eq_of_storeRest {t u : Team} (h : storeRest u = storeRest t) :
    u = { t with stores := u.stores, present := u.present, stepPoison := u.stepPoison, next := u.next, nextPoison := u.nextPoison, coll := u.coll,
                 ladleMem := u.ladleMem } := by
  cases u
  cases t
  simpa [storeRest] using h

section
variable {t u : Team} (h : storeRest u = storeRest t)
include h

theorem hdr_of_storeRest : u.hdr = t.hdr := (congrArg Team.hdr h :)

theorem bndflags_of_storeRest : u.bndflags = t.bndflags := (congrArg Team.bndflags h :)

/-- The rank of a lane is read from what no store changes (R129). -/
theorem rankOf_of_storeRest (n warp lane : Nat) : rankOf u n warp lane = rankOf t n warp lane := by
  have hid : u.teamid = t.teamid := (congrArg Team.teamid h :)
  simp only [rankOf, hdr_of_storeRest h, hid]

end

/-! ### The store of one lane -/

section
variable {t : Team} {k : AgentKey} {issue off n lane x : Nat} {r : Region}

theorem storeStep_window (h : regionAt t.hdr off n = none) : storeStep t k issue off n lane x = putStepBytes t off (leBytes n x) := by
  simp only [storeStep, h]

theorem storeStep_next (h : regionAt t.hdr off n = some r) (hk : r.kind = .step) :
    storeStep t k issue off n lane x = putNextWords t r off (rankOf t r.group k.idx lane) (wordsOf n x) := by
  simp only [storeStep, h, hk, if_true]

theorem storeStep_bank (h : regionAt t.hdr off n = some r) (hk : r.kind ≠ .step) :
    storeStep t k issue off n lane x = postStore t ⟨k, issue, off, leBytes n x⟩ := by
  simp only [storeStep, h, if_neg hk]

end

section
variable (t : Team) (k : AgentKey) (issue off n lane x : Nat)

/-- A store goes to the ladle window, to a next plane or on its way to a bank. -/
theorem storeStep_cases :
    (regionAt t.hdr off n = none ∧ storeStep t k issue off n lane x = putStepBytes t off (leBytes n x))
    ∨ (∃ r, regionAt t.hdr off n = some r ∧ r.kind = .step
      ∧ storeStep t k issue off n lane x = putNextWords t r off (rankOf t r.group k.idx lane) (wordsOf n x))
    ∨ ∃ r, regionAt t.hdr off n = some r ∧ r.kind ≠ .step ∧ storeStep t k issue off n lane x = postStore t ⟨k, issue, off, leBytes n x⟩ := by
  cases hr : regionAt t.hdr off n with
  | none => exact .inl ⟨rfl, storeStep_window hr⟩
  | some r =>
    by_cases hk : r.kind = .step
    · exact .inr (.inl ⟨r, rfl, hk, storeStep_next hr hk⟩)
    · exact .inr (.inr ⟨r, rfl, hk, storeStep_bank hr hk⟩)

theorem storeRest_storeStep : storeRest (storeStep t k issue off n lane x) = storeRest t := by
  rcases storeStep_cases t k issue off n lane x with ⟨-, h⟩ | ⟨r, -, -, h⟩ | ⟨r, -, -, h⟩ <;> rw [h]
  · obtain ⟨_, _, _, hframe⟩ := putStepBytes_frame t off (leBytes n x)
    rw [hframe]
    rfl
  · obtain ⟨_, _, _, hframe⟩ := putNextWords_frame t r off (rankOf t r.group k.idx lane) (wordsOf n x)
    rw [hframe]
    rfl
  · rfl

/-- A store in a region changes no byte of the present plane yet. -/
theorem stepByte_storeStep_of_region (h : regionAt t.hdr off n ≠ none) (a : Nat) : stepByte (storeStep t k issue off n lane x) a = stepByte t a := by
  rcases storeStep_cases t k issue off n lane x with ⟨hr, -⟩ | ⟨r, -, -, hs⟩ | ⟨r, -, -, hs⟩
  · exact absurd hr h
  · obtain ⟨_, _, _, hframe⟩ := putNextWords_frame t r off (rankOf t r.group k.idx lane) (wordsOf n x)
    rw [hs, hframe]
    rfl
  · rw [hs]
    rfl

theorem stepByte_storeStep_out {a : Nat} (ha : a < off ∨ off + n ≤ a) : stepByte (storeStep t k issue off n lane x) a = stepByte t a := by
  by_cases hr : regionAt t.hdr off n = none
  · rw [storeStep_window hr]
    exact stepByte_putStepBytes_out t _ (by rwa [leBytes_length])
  · exact stepByte_storeStep_of_region t k issue off n lane x hr a

theorem nextWord_storeStep_out {o : Nat} (ho : o < off ∨ off + n ≤ o) : nextWord (storeStep t k issue off n lane x) o = nextWord t o := by
  rcases storeStep_cases t k issue off n lane x with ⟨-, h⟩ | ⟨r, -, -, h⟩ | ⟨r, -, -, h⟩ <;> rw [h]
  · obtain ⟨_, _, _, hframe⟩ := putStepBytes_frame t off (leBytes n x)
    rw [hframe]
    rfl
  · exact nextWord_putNextWords_out t r off _ _ (by rw [wordsOf_length]; omega)
  · rfl

/-- The stores on their way after a lane's: at most its own behind those before it. -/
theorem stores_storeStep :
    ∃ ws, (storeStep t k issue off n lane x).stores = t.stores ++ ws ∧ ∀ w ∈ ws, w.off = off ∧ w.bytes.length = n := by
  rcases storeStep_cases t k issue off n lane x with ⟨-, h⟩ | ⟨r, -, -, h⟩ | ⟨r, -, -, h⟩ <;> rw [h]
  · obtain ⟨_, _, _, hframe⟩ := putStepBytes_frame t off (leBytes n x)
    exact ⟨[], by rw [hframe, List.append_nil], by simp⟩
  · obtain ⟨_, _, _, hframe⟩ := putNextWords_frame t r off (rankOf t r.group k.idx lane) (wordsOf n x)
    exact ⟨[], by rw [hframe, List.append_nil], by simp⟩
  · exact ⟨[⟨k, issue, off, leBytes n x⟩], rfl, by simp⟩

end

/-! ### The stores of some lanes -/

/-- The stores of some lanes, each a lane and its offset, in lane order, with the data of each lane (R217). -/
def storeLanes (k : AgentKey) (issue n : Nat) (f : Nat → Nat) (own : List (Nat × Nat)) (t : Team) : Team :=
  own.foldl (fun t p => storeStep t k issue p.2 n p.1 (f p.1)) t

/-- Whether the ranges of two lanes do not overlap. -/
def lanesApart (n : Nat) (p q : Nat × Nat) : Prop := p.2 + n ≤ q.2 ∨ q.2 + n ≤ p.2

section
variable {k : AgentKey} {issue n : Nat} {f : Nat → Nat}

theorem storeLanes_append (as bs : List (Nat × Nat)) (t : Team) :
    storeLanes k issue n f (as ++ bs) t = storeLanes k issue n f bs (storeLanes k issue n f as t) := List.foldl_append

theorem storeLanes_cons (p : Nat × Nat) (ps : List (Nat × Nat)) (t : Team) :
    storeLanes k issue n f (p :: ps) t = storeLanes k issue n f ps (storeStep t k issue p.2 n p.1 (f p.1)) := rfl

theorem storeRest_storeLanes (own : List (Nat × Nat)) (t : Team) : storeRest (storeLanes k issue n f own t) = storeRest t :=
  foldl_keeps (P := fun u => storeRest u = storeRest t) (fun u p hu => (storeRest_storeStep u k issue p.2 n p.1 (f p.1)).trans hu) own rfl

theorem hdr_storeLanes (own : List (Nat × Nat)) (t : Team) : (storeLanes k issue n f own t).hdr = t.hdr := hdr_of_storeRest (storeRest_storeLanes own t)

theorem stepByte_storeLanes_out {own : List (Nat × Nat)} (t : Team) {a : Nat} (ha : ∀ p ∈ own, a < p.2 ∨ p.2 + n ≤ a) :
    stepByte (storeLanes k issue n f own t) a = stepByte t a := by
  induction own generalizing t with
  | nil => rfl
  | cons p ps ih =>
    rw [storeLanes_cons, ih _ fun q hq => ha q (List.mem_cons_of_mem _ hq)]
    exact stepByte_storeStep_out t k issue p.2 n p.1 (f p.1) (ha p List.mem_cons_self)

/-- Where only the ladle window lies outside the regions, no byte of the present plane changes yet. -/
theorem stepByte_storeLanes_present {own : List (Nat × Nat)} (t : Team) (hwin : ∀ p ∈ own, regionAt t.hdr p.2 n = none → windowBase ≤ p.2) {a : Nat}
    (ha : a < windowBase) : stepByte (storeLanes k issue n f own t) a = stepByte t a := by
  induction own generalizing t with
  | nil => rfl
  | cons p ps ih =>
    have hhdr := hdr_of_storeRest (storeRest_storeStep t k issue p.2 n p.1 (f p.1))
    rw [storeLanes_cons, ih _ fun q hq hr => hwin q (List.mem_cons_of_mem _ hq) (hhdr ▸ hr)]
    by_cases hr : regionAt t.hdr p.2 n = none
    · exact stepByte_storeStep_out t k issue p.2 n p.1 (f p.1) (.inl (ha.trans_le (hwin p List.mem_cons_self hr)))
    · exact stepByte_storeStep_of_region t k issue p.2 n p.1 (f p.1) hr a

theorem nextWord_storeLanes_out {own : List (Nat × Nat)} (t : Team) {o : Nat} (ho : ∀ p ∈ own, o < p.2 ∨ p.2 + n ≤ o) :
    nextWord (storeLanes k issue n f own t) o = nextWord t o := by
  induction own generalizing t with
  | nil => rfl
  | cons p ps ih =>
    rw [storeLanes_cons, ih _ fun q hq => ho q (List.mem_cons_of_mem _ hq)]
    exact nextWord_storeStep_out t k issue p.2 n p.1 (f p.1) (ho p List.mem_cons_self)

theorem stores_storeLanes (own : List (Nat × Nat)) (t : Team) :
    ∃ ws, (storeLanes k issue n f own t).stores = t.stores ++ ws ∧ ∀ w ∈ ws, w.bytes.length = n ∧ ∃ p ∈ own, w.off = p.2 := by
  induction own generalizing t with
  | nil => exact ⟨[], (List.append_nil _).symm, by simp⟩
  | cons p ps ih =>
    obtain ⟨ws, hws, hlane⟩ := stores_storeStep t k issue p.2 n p.1 (f p.1)
    obtain ⟨vs, hvs, hlanes⟩ := ih (storeStep t k issue p.2 n p.1 (f p.1))
    refine ⟨ws ++ vs, by rw [storeLanes_cons, hvs, hws, List.append_assoc], fun w hw => ?_⟩
    rcases List.mem_append.mp hw with hw | hw
    · exact ⟨(hlane w hw).2, p, List.mem_cons_self, (hlane w hw).1⟩
    · obtain ⟨hlen, q, hq, hoff⟩ := hlanes w hw
      exact ⟨hlen, q, List.mem_cons_of_mem _ hq, hoff⟩

section
variable {as bs : List (Nat × Nat)} {p : Nat × Nat} (t : Team)

/-- A lane's bytes of the ladle window read as stored behind the stores of later lanes elsewhere (R97). -/
theorem stepRead_storeLanes_window (hlater : ∀ q ∈ bs, lanesApart n p q) (hr : regionAt t.hdr p.2 n = none) :
    stepRead (storeLanes k issue n f (as ++ p :: bs) t) p.2 n = f p.1 % 2 ^ (8 * n) := by
  rw [storeLanes_append, storeLanes_cons, storeStep_window (by rwa [hdr_storeLanes]), ← stepRead_putStepBytes_same (storeLanes k issue n f as t) p.2 n]
  refine stepRead_congr fun a hlow hhigh => stepByte_storeLanes_out _ fun q hq => ?_
  rcases hlater q hq with h | h <;> omega

/-- A word of a next plane that nothing has written gets its lane's word with the lane's rank (R127). -/
theorem nextWord_storeLanes_in {r : Region} {i : Nat} (hearlier : ∀ q ∈ as, lanesApart n q p) (hlater : ∀ q ∈ bs, lanesApart n p q)
    (hr : regionAt t.hdr p.2 n = some r) (hk : r.kind = .step) (hi : i < n / 4) (hun : (nextWord t (p.2 + 4 * i)).written = false) :
    nextWord (storeLanes k issue n f (as ++ p :: bs) t) (p.2 + 4 * i) = { nextWord t (p.2 + 4 * i) with
      value := BitVec.ofNat 32 (f p.1 / 2 ^ (32 * i)), rank := rankOf t r.group k.idx p.1, written := true, copied := false } := by
  have hbefore : nextWord (storeLanes k issue n f as t) (p.2 + 4 * i) = nextWord t (p.2 + 4 * i) :=
    nextWord_storeLanes_out t fun q hq => by rcases hearlier q hq with h | h <;> omega
  have hafter := fun u => nextWord_storeLanes_out (k := k) (issue := issue) (n := n) (f := f) (own := bs) u (o := p.2 + 4 * i) fun q hq => by
    rcases hlater q hq with h | h <;> omega
  rw [storeLanes_append, storeLanes_cons, hafter, storeStep_next (by rwa [hdr_storeLanes]) hk, rankOf_of_storeRest (storeRest_storeLanes as t),
    nextWord_putNextWords_in r p.2 _ (getElem?_wordsOf (f p.1) hi) (by rwa [hbefore]), hbefore]

end

/-- Each lane of some whose ranges do not overlap lies apart from those before it and behind it. -/
theorem lanesApart_of_pairwise {n : Nat} {as bs : List (Nat × Nat)} {p : Nat × Nat} (h : (as ++ p :: bs).Pairwise (lanesApart n)) :
    (∀ q ∈ as, lanesApart n q p) ∧ ∀ q ∈ bs, lanesApart n p q := by
  obtain ⟨-, hright, hcross⟩ := List.pairwise_append.mp h
  exact ⟨fun q hq => hcross q hq p List.mem_cons_self, (List.pairwise_cons.mp hright).1⟩

end

/-! ### Stores that have landed (R127) -/

section
variable {k : AgentKey} {rs : List (Nat × Nat)}

theorem storesBefore_cons (w : BankStore) (ws : List BankStore) :
    storesBefore k rs (w :: ws) = if w.agent == k && (storesBefore k rs ws).2.any w.at_
      then (w :: (storesBefore k rs ws).1, (w.off, w.bytes.length) :: (storesBefore k rs ws).2) else storesBefore k rs ws := rfl

theorem mem_of_mem_storesBefore {w : BankStore} {ws : List BankStore} (h : w ∈ (storesBefore k rs ws).1) : w ∈ ws := by
  induction ws with
  | nil => exact h
  | cons v vs ih =>
    rw [storesBefore_cons] at h
    split at h
    · rcases List.mem_cons.mp h with rfl | h
      · exact List.mem_cons_self
      · exact List.mem_cons_of_mem _ (ih h)
    · exact List.mem_cons_of_mem _ (ih h)

theorem mem_ranges_storesBefore {r : Nat × Nat} (hr : r ∈ rs) (ws : List BankStore) : r ∈ (storesBefore k rs ws).2 := by
  induction ws with
  | nil => exact hr
  | cons v vs ih =>
    rw [storesBefore_cons]
    split
    · exact List.mem_cons_of_mem _ ih
    · exact ih

theorem storesBefore_append (ws vs : List BankStore) : ∃ us, (storesBefore k rs (ws ++ vs)).1 = us ++ (storesBefore k rs vs).1 := by
  induction ws with
  | nil => exact ⟨[], rfl⟩
  | cons w ws ih =>
    obtain ⟨us, hus⟩ := ih
    rw [List.cons_append, storesBefore_cons]
    split
    · exact ⟨w :: us, congrArg (w :: ·) hus⟩
    · exact ⟨us, hus⟩

theorem storesBefore_cons_of_mem {r : Nat × Nat} (hr : r ∈ rs) {w : BankStore} (hk : w.agent = k) (hat : w.at_ r = true) (ws : List BankStore) :
    (storesBefore k rs (w :: ws)).1 = w :: (storesBefore k rs ws).1 := by
  have hany : (storesBefore k rs ws).2.any w.at_ = true := List.any_eq_true.mpr ⟨r, mem_ranges_storesBefore hr ws, hat⟩
  rw [storesBefore_cons, hk, hany, beq_self_eq_true]
  rfl

end

/-- A range of at least one byte passes through its own banks (R118). -/
theorem shareBank_self (off : Nat) {n : Nat} (hn : 0 < n) : shareBank off n off n = true := by
  have hmem : off / 4 % 32 ∈ banksOf off n := List.mem_map.mpr ⟨0, List.mem_range.mpr (by omega), rfl⟩
  exact List.any_eq_true.mpr ⟨_, hmem, List.contains_iff_mem.mpr hmem⟩

theorem stepByte_foldl_putStepBytes_out {ws : List BankStore} (t : Team) {a : Nat} (ha : ∀ w ∈ ws, a < w.off ∨ w.off + w.bytes.length ≤ a) :
    stepByte (ws.foldl (fun t w => putStepBytes t w.off w.bytes) t) a = stepByte t a := by
  induction ws generalizing t with
  | nil => rfl
  | cons w ws ih =>
    rw [List.foldl_cons, ih _ fun v hv => ha v (List.mem_cons_of_mem _ hv)]
    exact stepByte_putStepBytes_out t _ (ha w List.mem_cons_self)

/-- A range reads as the last store of it, where later stores lie elsewhere. -/
theorem stepRead_foldl_putStepBytes (t : Team) (off n x : Nat) {ws : List BankStore}
    (hlater : ∀ w ∈ ws, w.off + w.bytes.length ≤ off ∨ off + n ≤ w.off) :
    stepRead (ws.foldl (fun t w => putStepBytes t w.off w.bytes) (putStepBytes t off (leBytes n x))) off n = x % 2 ^ (8 * n) := by
  rw [← stepRead_putStepBytes_same t off n x]
  refine stepRead_congr fun a hlow hhigh => stepByte_foldl_putStepBytes_out _ fun w hw => ?_
  rcases hlater w hw with h | h <;> omega

/-- A range reads as the agent's store of it once the agent's stores have landed, where later stores lie elsewhere (R127). -/
theorem stepRead_landFor {u : Team} {k : AgentKey} {issue off n x : Nat} {rs : List (Nat × Nat)} {ws vs : List BankStore} (hrs : (off, n) ∈ rs)
    (hstores : u.stores = ws ++ ⟨k, issue, off, leBytes n x⟩ :: vs) (hlater : ∀ v ∈ vs, v.off + v.bytes.length ≤ off ∨ off + n ≤ v.off) :
    stepRead (landFor u k rs) off n = x % 2 ^ (8 * n) := by
  rcases Nat.eq_zero_or_pos n with rfl | hn
  · rw [Nat.mul_zero, Nat.pow_zero, Nat.mod_one]
    rfl
  · have hat : (⟨k, issue, off, leBytes n x⟩ : BankStore).at_ (off, n) = true := by
      rw [BankStore.at_, leBytes_length]
      exact shareBank_self off hn
    obtain ⟨us, hus⟩ := storesBefore_append (k := k) (rs := rs) ws (⟨k, issue, off, leBytes n x⟩ :: vs)
    rw [storesBefore_cons_of_mem hrs rfl hat, ← hstores] at hus
    simp only [landFor, hus, List.foldl_append, List.foldl_cons]
    exact stepRead_foldl_putStepBytes _ off n x fun v hv => hlater v (mem_of_mem_storesBefore hv)

/-- A lane's bytes of a PLAIN or TAGGED region read as stored once the agent's stores have landed (R79, R127). -/
theorem stepRead_landFor_storeLanes {k : AgentKey} {issue n : Nat} {f : Nat → Nat} {as bs : List (Nat × Nat)} {p : Nat × Nat} {r : Region} (t : Team)
    {rs : List (Nat × Nat)} (hrs : (p.2, n) ∈ rs) (hlater : ∀ q ∈ bs, lanesApart n p q) (hr : regionAt t.hdr p.2 n = some r) (hk : r.kind ≠ .step) :
    stepRead (landFor (storeLanes k issue n f (as ++ p :: bs) t) k rs) p.2 n = f p.1 % 2 ^ (8 * n) := by
  obtain ⟨vs, hvs, hlanes⟩ := stores_storeLanes (k := k) (issue := issue) (n := n) (f := f) bs
    (storeStep (storeLanes k issue n f as t) k issue p.2 n p.1 (f p.1))
  rw [storeLanes_append, storeLanes_cons]
  refine stepRead_landFor (issue := issue) (ws := (storeLanes k issue n f as t).stores) (vs := vs) hrs (hvs.trans ?_) fun v hv => ?_
  · rw [storeStep_bank (by rwa [hdr_storeLanes]) hk, postStore, List.append_assoc]
    rfl
  · obtain ⟨hlen, q, hq, hoff⟩ := hlanes v hv
    rw [hlen, hoff]
    exact (hlater q hq).symm

/-- What the stores of some lanes whose ranges do not overlap leave of each: its bytes of the ladle window at once, those of a PLAIN or TAGGED region
once they have landed, and its words of a next plane that nothing had written (R97, R127, R217). -/
theorem storeLanes_stored {k : AgentKey} {issue n : Nat} {f : Nat → Nat} {own : List (Nat × Nat)} {p : Nat × Nat} (t : Team)
    (hapart : own.Pairwise (lanesApart n)) (hp : p ∈ own) :
    (regionAt t.hdr p.2 n = none → stepRead (storeLanes k issue n f own t) p.2 n = f p.1 % 2 ^ (8 * n))
    ∧ (∀ r, regionAt t.hdr p.2 n = some r → r.kind ≠ .step →
      stepRead (landFor (storeLanes k issue n f own t) k (own.map fun p => (p.2, n))) p.2 n = f p.1 % 2 ^ (8 * n))
    ∧ ∀ r i, regionAt t.hdr p.2 n = some r → r.kind = .step → i < n / 4 → (nextWord t (p.2 + 4 * i)).written = false →
      nextWord (storeLanes k issue n f own t) (p.2 + 4 * i) = { nextWord t (p.2 + 4 * i) with
        value := BitVec.ofNat 32 (f p.1 / 2 ^ (32 * i)), rank := rankOf t r.group k.idx p.1, written := true, copied := false } := by
  have hrange : (p.2, n) ∈ own.map fun p => (p.2, n) := List.mem_map.mpr ⟨p, hp, rfl⟩
  obtain ⟨as, bs, rfl⟩ := List.append_of_mem hp
  obtain ⟨hearlier, hlater⟩ := lanesApart_of_pairwise hapart
  exact ⟨stepRead_storeLanes_window t hlater, fun r hr hk => stepRead_landFor_storeLanes t hrange hlater hr hk,
    fun r i hr hk hi hun => nextWord_storeLanes_in t hearlier hlater hr hk hi hun⟩

/-! ### STS at its issue (R219, R232) -/

/-- An issue's team is the one that its state holds. -/
theorem goes_team {i : Instr} {h : Hdr} {s : State} {c : Iss} (hc : turnOf i h s = .goes c) : teamOf c.s c.t.uid = some c.t := by
  obtain ⟨k, a, -, -, -, ht, -, -, -, -, -, -, -, -, hs, -⟩ := turnOf_goes hc
  rw [hs, teamOf_updAgent, teamOf_uid ht, ht]

theorem mem_act_of_mem_memLanes {c : Iss} {x : FM} {data : List Opnd} {l : Nat} (h : l ∈ c.memLanes x data) : l ∈ c.act := by
  unfold Iss.memLanes at h
  split at h
  · exact List.mem_of_mem_take h
  · exact h

theorem at_of_mem_ownLanes {c : Iss} {ls : List Nat} {ea : Nat → Nat} {p : Nat × Nat} (h : p ∈ c.ownLanes ls ea) :
    p.1 ∈ ls ∧ c.at_ (ea p.1) = .own p.2 := by
  obtain ⟨l, hl, hp⟩ := List.mem_filterMap.mp h
  obtain ⟨off, hoff, rfl⟩ := Option.map_eq_some_iff.mp hp
  refine ⟨hl, ?_⟩
  unfold Iss.ownOff at hoff
  split at hoff
  · rename_i o hat
    rw [hat, Option.some.inj hoff]
  · cases hoff

/-- An offset that passes the checks of an access lies in a region or in the ladle window (R124). -/
theorem windowBase_le_of_stepCheck {t : Team} {ladle : Bool} {member : Region → Bool} {off n : Nat} {acc : StepAccess}
    (h : stepCheck t ladle member off n acc = none) (hr : regionAt t.hdr off n = none) : windowBase ≤ off := by
  by_contra hlow
  simp only [stepCheck, if_neg hlow, hr, reduceCtorEq] at h

theorem stepFault_of_good {c : Iss} {remote : Bool} {n : Nat} {acc : StepAccess} {ea : Nat → Nat} (h : c.stepGood remote n acc ea) :
    c.stepFault remote n acc ea = none := by
  have hnil : (c.act.filterMap fun l => (c.stepCause remote n acc (ea l)).map fun cause => (l, cause, ea l)) = [] :=
    List.filterMap_eq_nil_iff.mpr fun l hl => by rw [h l hl]; rfl
  rw [Iss.stepFault, Iss.stepBad, hnil]
  rfl

/-- The data of STS after its bound check, whether a bound was hit, and the lanes whose data traps (R219). -/
def stsData (c : Iss) (x : FM) : List (Nat × Nat) × Bool × List Nat :=
  c.boundStore x.h x.bnd.toNat (sizeOf x.h) (c.memLanes x [x.data2]) (c.data (sizeOf x.h) x.data2)

/-- The lanes of STS with their step offsets. -/
def stsLanes (c : Iss) (x : FM) : List (Nat × Nat) := c.ownLanes (c.memLanes x [x.data2]) (c.ea x (sizeOf x.h))

section
variable {x : FM} {s : State} {c : Iss}

theorem execSts_stores (hc : turnOf (.sts x) x.h s = .goes c) (hgood : c.stepGood false (sizeOf x.h) .store (c.ea x (sizeOf x.h)))
    (hok : (stsData c x).2.2 = []) (hpres : c.missing (stsLanes c x) (sizeOf x.h) = []) :
    execSts x s = .next (updTeam (c.hitIf (stsData c x).2.1 x.bnd.toNat) c.t.uid
      (storeLanes c.a.key c.n (sizeOf x.h) (dataOf (stsData c x).1) (stsLanes c x))) := by
  unfold stsLanes at hpres
  unfold stsData at hok
  simp only [execSts, issue_goes _ hc, stepFault_of_good hgood, hok, hpres, List.isEmpty_nil, Bool.not_true, Bool.false_eq_true, if_false,
    result_ok, Iss.storeOwn, List.foldl_map]
  rfl

/-- Each lane of STS lies in a region or in the ladle window. -/
theorem windowBase_le_of_mem_stsLanes (hgood : c.stepGood false (sizeOf x.h) .store (c.ea x (sizeOf x.h))) {p : Nat × Nat} (hp : p ∈ stsLanes c x)
    (hr : regionAt c.t.hdr p.2 (sizeOf x.h) = none) : windowBase ≤ p.2 := by
  obtain ⟨hl, hat⟩ := at_of_mem_ownLanes hp
  have hcause := hgood p.1 (mem_act_of_mem_memLanes hl)
  simp only [Iss.stepCause, hat] at hcause
  exact windowBase_le_of_stepCheck hcause hr

end

/-- The team of an issue with the hit bit of a bound set, where the check found a hit. -/
def hitTeam (t : Team) (hit : Bool) (bnd : Nat) : Team := if hit then { t with bndflags := t.bndflags ||| BitVec.ofNat 64 (2 ^ bnd) } else t

section
variable (t : Team) (hit : Bool) (bnd : Nat)

@[simp] theorem hitTeam_uid : (hitTeam t hit bnd).uid = t.uid := by cases hit <;> rfl
@[simp] theorem hitTeam_hdr : (hitTeam t hit bnd).hdr = t.hdr := by cases hit <;> rfl
@[simp] theorem hitTeam_stepByte (a : Nat) : stepByte (hitTeam t hit bnd) a = stepByte t a := by cases hit <;> rfl
@[simp] theorem hitTeam_nextWord (o : Nat) : nextWord (hitTeam t hit bnd) o = nextWord t o := by cases hit <;> rfl
@[simp] theorem hitTeam_rankOf (n warp lane : Nat) : rankOf (hitTeam t hit bnd) n warp lane = rankOf t n warp lane := by cases hit <;> rfl

theorem hitTeam_bndflags : (hitTeam t hit bnd).bndflags = if hit then t.bndflags ||| BitVec.ofNat 64 (2 ^ bnd) else t.bndflags := by
  cases hit <;> rfl

end

/-- What the stores of a team and the hit bit of their bound can change of it. -/
theorem eq_of_storeRest_hitTeam {t u : Team} {hit : Bool} {bnd : Nat} (h : storeRest u = storeRest (hitTeam t hit bnd)) :
    u = { t with stores := u.stores, present := u.present, stepPoison := u.stepPoison, next := u.next, nextPoison := u.nextPoison, coll := u.coll,
                 ladleMem := u.ladleMem, bndflags := u.bndflags } := by
  obtain ⟨flags, ht⟩ : ∃ flags, hitTeam t hit bnd = { t with bndflags := flags } := by
    cases hit
    · exact ⟨t.bndflags, rfl⟩
    · exact ⟨_, rfl⟩
  rw [ht] at h
  have hflags : u.bndflags = flags := bndflags_of_storeRest h
  rw [hflags]
  exact eq_of_storeRest h

section
variable {c : Iss} (hit : Bool) (bnd : Nat) (f : Team → Team)

theorem teamOf_hitIf_same (hteam : teamOf c.s c.t.uid = some c.t) : teamOf (c.hitIf hit bnd) c.t.uid = some (hitTeam c.t hit bnd) := by
  cases hit
  · exact hteam
  · exact (teamOf_updTeam_same c.s c.t.uid (hitTeam · true bnd) (hitTeam_uid · true bnd)).trans (congrArg _ hteam)

theorem teamOf_hitIf_ne {k : Nat} (hk : k ≠ c.t.uid) : teamOf (c.hitIf hit bnd) k = teamOf c.s k := by
  cases hit
  · rfl
  · exact teamOf_updTeam_ne c.s _ (fun _ => rfl) hk

theorem hitIf_frame : (c.hitIf hit bnd).mem = c.s.mem ∧ (c.hitIf hit bnd).slice = c.s.slice ∧ (c.hitIf hit bnd).agents = c.s.agents
    ∧ (c.hitIf hit bnd).regs = c.s.regs := by
  cases hit <;> exact ⟨rfl, rfl, rfl, rfl⟩

end

end Sys2Proof.Machine

open Sys2Proof Sys2Proof.Machine

/-- Settles O54: STS is the stores of its lanes, each of which changes its own range alone; ranges that do not overlap keep what their lanes
have stored. -/
theorem stepStoreFrame : Obligations.StepStoreFrame := by
  unfold Obligations.StepStoreFrame
  intro x s c hc n b own hgood hok hpres
  let t := hitTeam c.t b.2.1 x.bnd.toNat
  let u := storeLanes c.a.key c.n n (dataOf b.1) own t
  have hrest : storeRest u = storeRest t := storeRest_storeLanes own t
  have hwin : ∀ p ∈ own, regionAt t.hdr p.2 n = none → windowBase ≤ p.2 := fun p hp hr =>
    windowBase_le_of_mem_stsLanes hgood hp (by rwa [hitTeam_hdr] at hr)
  have huid : ∀ v, (storeLanes c.a.key c.n n (dataOf b.1) own v).uid = v.uid := fun v => (congrArg Team.uid (storeRest_storeLanes own v) :)
  have hteam := teamOf_hitIf_same b.2.1 x.bnd.toNat (goes_team hc)
  refine ⟨_, u, execSts_stores hc hgood hok hpres, ?team, fun a ha => ?bytes, fun a ha => ?present, fun o ho => ?words, fun hapart p hp => ?lanes,
    ?flags, eq_of_storeRest_hitTeam hrest, fun k hk => ?others, hitIf_frame b.2.1 x.bnd.toNat⟩
  case team => exact (teamOf_updTeam_same _ _ _ huid).trans (congrArg _ hteam)
  case bytes => exact (stepByte_storeLanes_out t ha).trans (hitTeam_stepByte ..)
  case present => exact (stepByte_storeLanes_present t hwin ha).trans (hitTeam_stepByte ..)
  case words => exact (nextWord_storeLanes_out t ho).trans (hitTeam_nextWord ..)
  case flags => exact (bndflags_of_storeRest hrest).trans (hitTeam_bndflags ..)
  case others => exact (teamOf_updTeam_ne _ _ huid hk).trans (teamOf_hitIf_ne _ _ hk)
  case lanes =>
    obtain ⟨hwindow, hbank, hnext⟩ := storeLanes_stored (k := c.a.key) (issue := c.n) (f := dataOf b.1) t hapart hp
    simp only [t, hitTeam_hdr, hitTeam_nextWord, hitTeam_rankOf] at hwindow hbank hnext
    refine ⟨hwindow, hbank, fun r i hr hk hi hun => ?_⟩
    have hword := hnext r i hr hk hi hun
    exact ⟨congrArg NextWord.value hword, congrArg NextWord.written hword, congrArg NextWord.rank hword⟩

end

