-- ==== Sys2Proof/Proofs/AgentWaits.lean ====
section
/-! Switch markers, fences, WAITTL and TLADV (R77 to R80, R134, R204, R313, R324, R326, R353). -/

namespace Sys2Proof.Machine

-- one declaration at a time: a thread for each would be too many
set_option Elab.async false

/-! ### Switch markers (R80, R313, R353) -/

/-- An agent whose switch marker has passed. -/
def markerPassed (s : State) (k : AgentKey) : State := updAgent s k fun a => { a with marker := false, markerAcq := none }

section
variable {s : State} {k : AgentKey} {a : Agent} {t : Team} (ha : agentOf s k = some a) (ht : teamOf s k.team = some t)
  (hcycle : a.lastIssue ≤ cycleOf s (coreOfAgent s k)) (hmarker : a.marker = true) (hhold : a.hold = none) (hend : a.ended = false)
  (hout : outstanding s a t.core = false)
include ha ht hcycle hmarker hhold hend hout

/-- A marker that may pass delivers a deferred event, or sends its agent on. -/
theorem execSwitchMarkerPass_passes :
    execSwitchMarkerPass k s = .next ((deliver (markerPassed s k) k).elim
      (if allExited a then holdFence (markerPassed s k) k false true 3 .endAgent else tryArrive (markerPassed s k) k) fun d => endIfEmpty d k) := by
  simp only [execSwitchMarkerPass, passMarker, ha, ht, hcycle, hmarker, hhold, hend, hout, if_true, Bool.not_true, Option.isSome_none, Bool.or_false,
    Bool.false_eq_true, if_false]
  rw [show (updAgent s k fun a => { a with marker := false, markerAcq := none }) = markerPassed s k from rfl]
  cases deliver (markerPassed s k) k with
  | some d => rfl
  | none => cases allExited a <;> rfl

theorem execSwitchMarkerPass_delivers {d : State} (hd : deliver (markerPassed s k) k = some d) :
    execSwitchMarkerPass k s = .next (endIfEmpty d k) := by
  rw [execSwitchMarkerPass_passes ha ht hcycle hmarker hhold hend hout, hd]
  rfl

theorem execSwitchMarkerPass_goesOn (hd : deliver (markerPassed s k) k = none) (hexit : allExited a = false) :
    execSwitchMarkerPass k s = .next (tryArrive (markerPassed s k) k) := by
  rw [execSwitchMarkerPass_passes ha ht hcycle hmarker hhold hend hout, hd, hexit]
  rfl

theorem execSwitchMarkerPass_ends (hd : deliver (markerPassed s k) k = none) (hexit : allExited a = true) :
    execSwitchMarkerPass k s = .next (holdFence (markerPassed s k) k false true 3 .endAgent) := by
  rw [execSwitchMarkerPass_passes ha ht hcycle hmarker hhold hend hout, hd, hexit]
  rfl

end

/-! ### Fences (R77 to R79) -/

section
variable {s : State} {a : Agent} {core : Nat} {f : Fence}

section
variable (hloads : loadsOut s a core = false) (hready : contReady s a core f.cont = true)
include hloads hready

theorem fenceProgress_acquires (hrel : f.rel = false) : fenceProgress s a core f = some (fenceEnds s a.key core f.cont f.slot) := by
  simp only [fenceProgress, hloads, hready, hrel, Bool.not_true, Bool.not_false, Bool.and_false, Bool.or_false, Bool.false_eq_true, if_true, if_false]

variable (hrel : f.rel = true) (haccess : accessesOut s a core = false) (hbank : bankWritesOut s a = false)
include hrel haccess hbank

/-- At team scope a release has no markers to send (R79). -/
theorem fenceProgress_team (hscope : f.scope = 1) (htags : tagWaitsOf s a.key = []) (hremote : ∀ e ∈ entriesOf s core a.key, e.remote = false) :
    fenceProgress s a core f = some (fenceEnds s a.key core f.cont f.slot) := by
  have hnone : ((entriesOf s core a.key).any fun e => e.remote) = false := List.any_eq_false.mpr fun e he => by simp [hremote e he]
  simp only [fenceProgress, hloads, hready, hrel, haccess, hbank, hscope, htags, hnone, List.isEmpty_nil, Bool.not_true, Bool.and_false, Bool.or_false,
    Bool.false_eq_true, if_true, if_false]

theorem fenceProgress_sends (hscope : f.scope ≠ 1) (hsent : f.sent = false) :
    let ps := fencePaths a f.scope
    fenceProgress s a core f = some (sendMarkers (updAgent s a.key fun a =>
      { a with hold := some (.fence { f with sent := true, replies := ps.length, paths := ps, xpaths := a.xpaths.filter ps.contains })
               paths := a.paths.filter fun p => !ps.contains p
               xpaths := a.xpaths.filter fun p => !ps.contains p }) core f.id (isLadle a.key) ps) := by
  simp only [fenceProgress, hloads, hready, hrel, haccess, hbank, if_neg hscope, hsent, Bool.not_true, Bool.not_false, Bool.and_false, Bool.or_false,
    Bool.false_eq_true, if_true, if_false]

theorem fenceProgress_answered (hscope : f.scope ≠ 1) (hsent : f.sent = true) (hover : fenceOver s core true f.replies f.tMax = true) :
    fenceProgress s a core f = some (fenceEnds s a.key core f.cont f.slot) := by
  simp only [fenceProgress, hloads, hready, hrel, haccess, hbank, if_neg hscope, hsent, hover, Bool.not_true, Bool.and_false, Bool.or_false,
    Bool.false_eq_true, if_true, if_false]

end

/-- The replies are in and their largest time has passed (R78). -/
theorem fenceOver_of_times {replies tMax : Nat} (hreplies : replies = 0) (htime : tMax = 0 ∨ tMax < coreTime s core) :
    fenceOver s core true replies tMax = true := by
  simp only [fenceOver, hreplies, beq_self_eq_true, Bool.true_and, Bool.or_eq_true, beq_iff_eq, decide_eq_true_eq]
  exact htime

end

/-! ### WAITTL (R86, R134, R324, R393) -/

/-- The reports of posted accesses delivered to an agent, where some have come (R134). -/
def reportsDelivered (s : State) (k : AgentKey) : State := (deliverOf s k (·.report)).elim s fun d => endIfEmpty d k

section
variable {s : State} {a : Agent} {t : Team} {tl n : Nat} (pc : Nat) (hloads : loadsOut s a t.core = false)
include hloads

theorem waittlProgress_reached (hmark : faultMark (timelineOf t tl) = none) (hcount : n ≤ (timelineOf t tl).completed) :
    waittlProgress s a t tl n pc = some (reportsDelivered (updAgent s a.key fun a => { a with hold := none }) a.key) := by
  have hgoes : ¬ ((decide ((timelineOf t tl).completed < n) && !false || loadsOut s a t.core) = true) := by simp [hloads, hcount]
  simp only [waittlProgress, hmark, if_neg hgoes, Bool.false_eq_true, if_false, reportsDelivered]
  cases deliverOf (updAgent s a.key fun a => { a with hold := none }) a.key (·.report) with
  | some d => rfl
  | none => rfl

theorem waittlProgress_faulted {m : Nat} (hmark : faultMark (timelineOf t tl) = some m) (hm : m ≤ n) :
    waittlProgress s a t tl n pc = some (raise
      (updTeam (updAgent s a.key fun a => { a with hold := none }) t.uid fun u =>
        setTimeline u tl { timelineOf u tl with faulted := (timelineOf t tl).faulted.filter fun m => n < m })
      a.key (timelineEvent tl ((timelineOf t tl).faulted.min?.getD 0) pc)) := by
  simp only [waittlProgress, hmark, hm, hloads, decide_true, Bool.not_true, Bool.and_false, Bool.or_false, Bool.false_eq_true, if_true, if_false]

end

/-! ### TLADV (R326) -/

section
variable {s : State} {a : Agent} {t : Team} {core tl n : Nat} {o : AdvOp}

theorem advProgress_sends (hgoal : o.goal = .count tl n) (hsent : o.sent = false) (ht : teamOf s a.key.team = some t)
    (hentries : ∀ e ∈ entriesOf s core a.key, e.issue < o.upto → e.holdsMarkers = false) (hstores : storesOut t a.key o.upto = false) :
    advProgress s a core o = some (sendMarkers (updAgent s a.key fun a =>
      { a with adv := updWhere (fun x => x.id == o.id) (fun x => { x with sent := true, replies := o.paths.length }) a.adv })
      core o.id (isLadle a.key) o.paths) := by
  have hnone : ((entriesOf s core a.key).any fun e => decide (e.issue < o.upto) && e.holdsMarkers) = false :=
    List.any_eq_false.mpr fun e he => by simpa using hentries e he
  simp only [advProgress, AdvOp.tags, hgoal, hsent, ht, hnone, hstores, Option.any_some, Bool.not_false, Bool.false_and, Bool.or_false,
    Bool.false_eq_true, if_true, if_false]

theorem advProgress_counts (hgoal : o.goal = .count tl n) (hsent : o.sent = true) (hover : fenceOver s core true o.replies o.tMax = true) :
    advProgress s a core o
      = some (completeOp (updAgent s a.key fun a => { a with adv := a.adv.filter fun x => x.id != o.id }) a.key.team tl n false) := by
  simp only [advProgress, hgoal, hsent, hover, Bool.not_true, Bool.false_eq_true, if_true, if_false]

end

/-! ### What of these comes next -/

section
variable {s u : State} {k : AgentKey} {a : Agent} {t : Team} (ha : agentOf s k = some a) (ht : teamOf s k.team = some t)
include ha ht

theorem execFenceComplete_of_fence {f : Fence} (hhold : a.hold = some (.fence f)) (hgoes : fenceProgress s a t.core f = some u) :
    execFenceComplete k s = .next u := by
  simp only [execFenceComplete, waitProgress, ha, ht, hhold, hgoes, whenDue]

theorem execFenceComplete_of_waittl {tl n pc : Nat} (hhold : a.hold = some (.waittl tl n pc)) (hgoes : waittlProgress s a t tl n pc = some u) :
    execFenceComplete k s = .next u := by
  simp only [execFenceComplete, waitProgress, ha, ht, hhold, hgoes, whenDue]

theorem execFenceComplete_of_adv {o : AdvOp} {r : List AdvOp} (hhold : a.hold = none) (hadv : a.adv = o :: r)
    (hgoes : advProgress s a t.core o = some u) : execFenceComplete k s = .next u := by
  simp only [execFenceComplete, waitProgress, ha, ht, hhold, hadv, List.findSome?_cons, hgoes, whenDue]

end

end Sys2Proof.Machine
end

