-- ==== Sys2Proof/Proofs/AgentEvents.lean ====
section
/-! Expiries, wakes, line fills, the watchdog, the debugger and the chiplets of an ICINV (R74, R92, R138, R163, R227, R320, R327, R405). -/

namespace Sys2Proof.Machine

-- one declaration at a time: a thread for each would be too many
set_option Elab.async false

/-! ### Expiries and wakes (R74, R138, R163, R327) -/

section
variable {s : State} {k : AgentKey} {a : Agent}

theorem execSleepExpiry_of_due {n : Nat} (ha : agentOf s k = some a) (hhold : a.hold = some (.sleep n)) (ht : n ≤ coreTime s (coreOfAgent s k)) :
    execSleepExpiry k s = .next (updAgent s k fun b => { b with hold := none }) := by
  simp only [execSleepExpiry, ha, hhold, ht, if_true, whenDue]

theorem execLeaseExpiry_of_past {core line : Nat} (hl : ∃ l ∈ (coreOf s core).l1, l.line = line ∧ l.expiry ≤ coreTime s core) :
    execLeaseExpiry core line s
      = .next (updCore s core fun c => { c with l1 := c.l1.filter fun l => !(l.line == line && decide (l.expiry ≤ coreTime s core)) }) := by
  have hany : ((coreOf s core).l1.any fun l => l.line == line && decide (l.expiry ≤ coreTime s core)) = true := by simpa [List.any_eq_true] using hl
  simp only [execLeaseExpiry, hany, if_true]

theorem execAddressTableExpiry_of_past (ha : agentOf s k = some a) (he : ∃ e ∈ a.addrTable, e.expiry ≤ coreTime s (coreOfAgent s k)) :
    execAddressTableExpiry k s
      = .next (updAgent s k fun b => { b with addrTable := b.addrTable.filter fun e => !decide (e.expiry ≤ coreTime s (coreOfAgent s k)) }) := by
  have hany : (a.addrTable.any fun e => decide (e.expiry ≤ coreTime s (coreOfAgent s k))) = true := by simpa [List.any_eq_true] using he
  simp only [execAddressTableExpiry, ha, hany, if_true]

/-- Lanes held at absent lines that are all present now are ready again (R138). -/
theorem execAbsentLineWake_of_present {t : Team} {w : AbsentWait} (ha : agentOf s k = some a) (ht : teamOf s k.team = some t)
    (hw : (a.absent.find? fun w => w.lines.all (lineReady t)) = some w) :
    execAbsentLineWake k s = .next (updAgent s k fun b =>
      { b with
        absent := b.absent.erase w
        lanes := (laneIds k).foldl (fun m l => if bit w.lanes l && sget .ready m l == .absent then sset .ready m l .ready else m) b.lanes }) := by
  simp only [execAbsentLineWake, ha, ht, hw]

end

/-! ### Line fills (R92) -/

/-- The reader that an agent begins on its core, knowing nothing yet. -/
def coreReader (s : State) (core : Nat) (ladle : Bool) (ctx : Nat) (goal : ReadGoal) : Reader :=
  ⟨s.nextId, socketOf core, some core, ladle, ctx, goal, .none⟩

theorem readerOf_newReader {s : State} (core : Nat) (ladle : Bool) (ctx : Nat) (goal : ReadGoal) (hfresh : ∀ r ∈ s.readers, r.id ≠ s.nextId) :
    readerOf (newReader s (some core) ladle ctx goal).2 s.nextId = some (coreReader s core ladle ctx goal) := by
  have hold : s.readers.find? (fun r => r.id == s.nextId) = none := List.find?_eq_none.mpr fun r hr => by simpa using hfresh r hr
  show (s.readers ++ [coreReader s core ladle ctx goal]).find? (fun r => r.id == s.nextId) = _
  rw [List.find?_append, hold, Option.none_or]
  exact List.find?_cons_of_pos (beq_self_eq_true s.nextId)

section
variable {s : State} {k : AgentKey} {a : Agent} {t : Team} {line : Nat}

theorem execLineFill_runs {r : Reader} (ha : agentOf s k = some a) (ht : teamOf s k.team = some t) (hend : a.ended = false)
    (hwant : wantedLine a = some line) (hfetch : fetching s k line = false) :
    let q := newReader s (some t.core) (isLadle k) (ctxOf s k) (.line k line (a.fetchBuf.any fun l => l.va == line && l.st == .retry))
    readerOf q.2 q.1 = some r → execLineFill k line s = .next (lineRun q.2 r) := by
  intro q hr
  have hgoes : ¬ ((a.ended || wantedLine a != some line || fetching s k line) = true) := by simp [hend, hwant, hfetch]
  simp only [execLineFill, ha, ht, if_neg hgoes]
  rw [show readerOf _ _ = some r from hr]

/-- A reader whose core's TLB holds the page and whose core's L0 holds the line puts the line into its agent's fetch buffer (R92). -/
theorem lineRun_of_held {r : Reader} {core : Nat} {x : Xlat} {l : L0Line} (hgoal : r.goal = .line k line false) (hcore : r.core = some core)
    (hcanon : canonical line = true) (hx : tlbFind s core r.ctx line .fetch = some x)
    (hl : ((coreOf s core).l0.find? fun l => l.ctx == r.ctx && l.va == line) = some l) :
    lineRun s r = putFetch (dropReader s r.id) k ⟨line, l.pa, lineChecked l.bytes⟩ := by
  have hpage : lookPage s r.eye .fetch line = .ok x := by
    simp only [lookPage, Reader.eye, hcanon, hcore, Option.bind_some, hx, Bool.not_true, Bool.false_eq_true, if_false]
  simp only [lineRun, hgoal, hcore, hpage, hl, Bool.false_eq_true, if_false]

end

/-! ### The watchdog and the debugger (R320, R405) -/

section
variable {s : State} {k : AgentKey} {a : Agent}

theorem execWatchdogExpiry_of_due (ha : agentOf s k = some a) (hend : a.ended = false) (hon : regBit s .wdcfg 63 = true)
    (hstuck : 1000 * max 1 (regFld s .wdcfg 31 0) ≤ a.stuck) :
    execWatchdogExpiry k s = .next (raise s k (mkEvent 26 (if isLadle k then 1 else 0) (parkedLanes a) ((issueAddress a).getD (lpcOf a 0)))) := by
  simp only [execWatchdogExpiry, ha, hend, hon, decide_eq_false (Nat.not_lt.mpr hstuck), Bool.not_true, Bool.or_false, Bool.false_eq_true, if_false]

theorem execDebugResume_of_halted {n : BitVec 16} {pc : Nat} (ha : agentOf s k = some a) (hhold : a.hold = some (.bkpt n pc)) :
    execDebugResume k s = .next (updAgent s k fun b => { b with hold := none, debugPass := b.debugPass ++ [pc] }) := by
  simp only [execDebugResume, ha, hhold]

end

/-! ### Chiplets of an ICINV (R73, R227) -/

/-- The time of a message between an agent's chiplet and another: none to its own. -/
def icinvWay (s : State) (k : AgentKey) (sock : Nat) : Nat := if sock = socketOf (coreOfAgent s k) then 0 else 20

section
variable {s : State} {k : AgentKey} {a : Agent} {q : Icinv} {sock : Nat} (ha : agentOf s k = some a) (hhold : a.hold = some (.icinv q))
  (hwalked : ∀ e ∈ entriesOf s (coreOfAgent s k) k, e.op ≠ .icinv) (hsock : sock ∈ q.chiplets)
include ha hhold hwalked hsock

theorem execIcinvChipletAck_drops (hfirst : ∀ d ∈ q.dropped, d.1 ≠ sock) (htime : q.since + icinvWay s k sock ≤ s.time) :
    execIcinvChipletAck k sock s = .next (updAgent ((List.range 32).foldl (fun s i => dropLines s q.ranges (32 * sock + i)) s) k fun b =>
      { b with hold := some (.icinv { q with dropped := q.dropped ++ [(sock, s.time)] }) }) := by
  have hnone : (q.dropped.find? fun d => d.1 == sock) = none := List.find?_eq_none.mpr fun d hd => by simpa using hfirst d hd
  have hgoes : ¬ (((entriesOf s (coreOfAgent s k) k).any fun e => e.op == .icinv) || !q.chiplets.contains sock) = true := by
    simpa [hsock] using hwalked
  simp only [execIcinvChipletAck, ha, hhold, if_neg hgoes, hnone]
  exact if_neg (Nat.not_lt.mpr htime)

theorem execIcinvChipletAck_acknowledges {d : Nat × Nat} (hd : (q.dropped.find? fun d => d.1 == sock) = some d) (htime : d.2 + icinvWay s k sock ≤ s.time) :
    execIcinvChipletAck k sock s
      = .next (icinvCheck (updAgent s k fun b => { b with hold := some (.icinv { q with chiplets := q.chiplets.filter (· != sock) }) }) k
        (coreOfAgent s k)) := by
  have hgoes : ¬ (((entriesOf s (coreOfAgent s k) k).any fun e => e.op == .icinv) || !q.chiplets.contains sock) = true := by
    simpa [hsock] using hwalked
  simp only [execIcinvChipletAck, ha, hhold, if_neg hgoes, hd]
  exact if_neg (Nat.not_lt.mpr htime)

end

end Sys2Proof.Machine

open Sys2Proof Sys2Proof.Machine

/-- Settles O32: each event takes the branch that its conditions name; a line that the L0 holds comes from it. -/
theorem agentEvents : Obligations.AgentEvents := by
  unfold Obligations.AgentEvents
  intro k
  refine ⟨fun s a t ha ht hcycle hmarker hhold hend hout =>
      ⟨fun d hd => execSwitchMarkerPass_delivers ha ht hcycle hmarker hhold hend hout hd,
        fun hd hexit => execSwitchMarkerPass_goesOn ha ht hcycle hmarker hhold hend hout hd hexit,
        fun hd hexit => execSwitchMarkerPass_ends ha ht hcycle hmarker hhold hend hout hd hexit⟩,
    fun s a t f ha ht hhold hloads hready => ?fence, fun s a t tl n pc ha ht hhold hloads hmark hcount => ?reached,
    fun s a t tl n pc m ha ht hhold hloads hmark hm => ?faulted, fun s a t o r tl n ha ht hhold hadv hgoal => ?adv,
    fun s a n ha hhold ht => execSleepExpiry_of_due ha hhold ht, fun s core line hl => execLeaseExpiry_of_past hl,
    fun s a ha he => execAddressTableExpiry_of_past ha he, fun s a t w ha ht hw => execAbsentLineWake_of_present ha ht hw,
    fun s line a t ha ht hend hwant hfetch => ⟨fun r hr => execLineFill_runs ha ht hend hwant hfetch hr, fun x l hfresh hagain hcanon hx hl => ?held⟩,
    fun s a ha hend hon hstuck => execWatchdogExpiry_of_due ha hend hon hstuck, fun s a n pc ha hhold => execDebugResume_of_halted ha hhold,
    fun s a q sock ha hhold hwalked hsock => ⟨fun hfirst htime => execIcinvChipletAck_drops ha hhold hwalked hsock hfirst htime,
      fun d hd htime => execIcinvChipletAck_acknowledges ha hhold hwalked hsock hd htime⟩⟩
  case fence =>
    have hrun := fun u => execFenceComplete_of_fence (u := u) ha ht hhold
    obtain rfl := agentOf_key ha
    exact ⟨fun hrel => hrun _ (fenceProgress_acquires hloads hready hrel),
      fun hrel hscope haccess hbank htags hremote => hrun _ (fenceProgress_team hloads hready hrel haccess hbank hscope htags hremote),
      fun hrel hscope haccess hbank hsent => hrun _ (fenceProgress_sends hloads hready hrel haccess hbank hscope hsent),
      fun hrel hscope haccess hbank hsent hreplies htime =>
        hrun _ (fenceProgress_answered hloads hready hrel haccess hbank hscope hsent (fenceOver_of_times hreplies htime))⟩
  case reached =>
    have hrun := execFenceComplete_of_waittl ha ht hhold (waittlProgress_reached pc hloads hmark hcount)
    obtain rfl := agentOf_key ha
    refine hrun.trans (congrArg _ ?_)
    unfold reportsDelivered
    cases deliverOf (updAgent s a.key fun a => { a with hold := none }) a.key (·.report) with
    | some d => rfl
    | none => rfl
  case faulted =>
    have hrun := execFenceComplete_of_waittl ha ht hhold (waittlProgress_faulted pc hloads hmark hm)
    obtain rfl := agentOf_key ha
    exact hrun
  case adv =>
    have hrun := fun u => execFenceComplete_of_adv (u := u) ha ht hhold hadv
    obtain rfl := agentOf_key ha
    exact ⟨fun hsent hentries hstores => hrun _ (advProgress_sends hgoal hsent ht hentries hstores),
      fun hsent hreplies htime => hrun _ (advProgress_counts hgoal hsent (fenceOver_of_times hreplies htime))⟩
  case held =>
    have hread := readerOf_newReader t.core (isLadle k) (ctxOf s k) (.line k line (a.fetchBuf.any fun l => l.va == line && l.st == .retry)) hfresh
    have hgoal := congrArg (ReadGoal.line k line) hagain
    exact (execLineFill_runs ha ht hend hwant hfetch hread).trans (congrArg _ (lineRun_of_held hgoal rfl hcanon hx hl))

end

