-- ==== Sys2Proof/Proofs/StepSwap.lean ====
section
/-! The planes of a STEP region swapped at the end of a step: the words of the region, and what stays as it was (R125 to R128). -/

namespace Sys2Proof.Machine

-- one declaration at a time: a thread for each would be too many
set_option Elab.async false

/-! ### Poison of the present plane (R115, R153) -/

theorem sget_stepPoison_putStepBytes (t : Team) (off : Nat) (bs : List Byte) (w : Nat) :
    sget false (putStepBytes t off bs).stepPoison w = if w ∈ wholeWords off bs.length then false else sget false t.stepPoison w := by
  have hbyte : ∀ (u : Team) (e : Byte × Nat), u.stepPoison = t.stepPoison → (putStepByte u (off + e.2) e.1).stepPoison = t.stepPoison := by
    intro u e hu
    unfold putStepByte
    split <;> exact hu
  have hfold := foldl_keeps (P := fun u : Team => u.stepPoison = t.stepPoison) hbyte bs.zipIdx rfl
  unfold putStepBytes
  dsimp only
  split
  · rename_i hclean
    rw [hfold, List.isEmpty_iff] at hclean
    simp [hfold, hclean, sget]
  · exact (sget_foldl_sset false false _ _ w).trans (by rw [hfold])

theorem sget_stepPoison_markStep (t : Team) {off n : Nat} (bad : Bool) {w : Nat} (h : w < off / 4 ∨ (off + n + 3) / 4 ≤ w) :
    sget false (markStep t off n bad).stepPoison w = sget false t.stepPoison w := by
  cases bad with
  | false => rfl
  | true =>
    refine List.foldlRecOn (motive := fun m => sget false m w = sget false t.stepPoison w) _ _ rfl fun m hm i hi => ?_
    have := List.mem_range.mp hi
    rw [sget_sset_ne _ _ _ (by omega), hm]

/-! ### One word of a swap -/

theorem presentWord_eq_stepRead (t : Team) {o : Nat} (h : o + 4 ≤ windowBase) : presentWord t o = BitVec.ofNat 32 (stepRead t o 4) := by
  unfold presentWord stepRead
  congr 2
  refine List.map_congr_left fun i hi => ?_
  have := List.mem_range.mp hi
  rw [stepByte, if_neg (by omega)]

@[simp] theorem stepByte_markStep (t : Team) (off n : Nat) (bad : Bool) (a : Nat) : stepByte (markStep t off n bad) a = stepByte t a := by cases bad <;> rfl

/-- A word of the present plane with its new value, poisoned where the next plane's word is (R115, R128). -/
def swapWord (t : Team) (o : Nat) (v : Word32) : Team := markStep (putStepBytes t o (leBytes 4 v.toNat)) o 4 (sget false t.nextPoison (o / 4))

/-- Two teams that differ only in the bytes of present planes and their poison, and in those only from offset `lo` up to `hi`. -/
structure presentFrame (lo hi : Nat) (t u : Team) : Prop where
  rest : ∃ present stepPoison, u = { t with present := present, stepPoison := stepPoison }
  bytes : ∀ a, a < lo ∨ hi ≤ a → stepByte u a = stepByte t a
  poison : ∀ w, 4 * w < lo ∨ hi ≤ 4 * w → sget false u.stepPoison w = sget false t.stepPoison w

theorem presentFrame.refl (lo hi : Nat) (t : Team) : presentFrame lo hi t t := ⟨⟨t.present, t.stepPoison, rfl⟩, fun _ _ => rfl, fun _ _ => rfl⟩

theorem presentFrame.trans {lo hi : Nat} {t u w : Team} (h : presentFrame lo hi t u) (k : presentFrame lo hi u w) : presentFrame lo hi t w := by
  obtain ⟨_, _, rfl⟩ := h.rest
  obtain ⟨present, stepPoison, hw⟩ := k.rest
  exact ⟨⟨present, stepPoison, hw⟩, fun a ha => (k.bytes a ha).trans (h.bytes a ha), fun i hi => (k.poison i hi).trans (h.poison i hi)⟩

/-- Bytes written below the ladle window change the present plane and its poison alone (R97). -/
theorem putStepBytes_below (t : Team) {off : Nat} {bs : List Byte} (h : off + bs.length ≤ windowBase) :
    ∃ present stepPoison, putStepBytes t off bs = { t with present := present, stepPoison := stepPoison } := by
  have hfold : ∃ present, bs.zipIdx.foldl (fun t e => putStepByte t (off + e.2) e.1) t = { t with present := present } := by
    refine List.foldlRecOn (motive := fun u : Team => ∃ present, u = { t with present := present }) _ _ ⟨t.present, rfl⟩ ?_
    rintro _ ⟨present, rfl⟩ e he
    have hlt : e.2 < bs.length := by simpa using List.snd_lt_of_mem_zipIdx he
    exact ⟨_, if_neg (by omega)⟩
  obtain ⟨present, hfold⟩ := hfold
  unfold putStepBytes
  rw [hfold]
  dsimp only
  split
  · exact ⟨present, t.stepPoison, rfl⟩
  · exact ⟨present, _, rfl⟩

section
variable {t : Team} {o : Nat}

theorem presentFrame_swapWord {lo hi : Nat} (v : Word32) (ho : o % 4 = 0) (hlo : lo ≤ o) (hhi : o + 4 ≤ hi) (hwin : hi ≤ windowBase) :
    presentFrame lo hi t (swapWord t o v) := by
  have hlen : (leBytes 4 v.toNat).length = 4 := leBytes_length 4 v.toNat
  refine ⟨?_, fun a ha => ?_, fun w hw => ?_⟩
  · obtain ⟨present, stepPoison, hput⟩ := putStepBytes_below t (off := o) (bs := leBytes 4 v.toNat) (by omega)
    rw [swapWord, hput, markStep]
    split
    · exact ⟨present, _, rfl⟩
    · exact ⟨present, stepPoison, rfl⟩
  · rw [swapWord, stepByte_markStep, stepByte_putStepBytes_out t _ (by omega)]
  · have hout : w ∉ wholeWords o 4 := by
      simp only [wholeWords, List.mem_map, List.mem_range, not_exists, not_and]
      omega
    rw [swapWord, sget_stepPoison_markStep _ _ (by omega), sget_stepPoison_putStepBytes, hlen, if_neg hout]

/-- A word reads as its new value, and every other word as before. -/
theorem presentWord_swapWord {j : Nat} (v : Word32) (ho : o % 4 = 0) (hwin : o + 4 ≤ windowBase) (hj : j % 4 = 0) (hjwin : j + 4 ≤ windowBase) :
    presentWord (swapWord t o v) j = if j = o then v else presentWord t j := by
  rw [presentWord_eq_stepRead _ hjwin]
  by_cases h : j = o
  · subst h
    rw [if_pos rfl, swapWord, stepRead_congr (t := putStepBytes t j (leBytes 4 v.toNat)) fun a _ _ => stepByte_markStep .., stepRead_putStepBytes_same]
    exact BitVec.eq_of_toNat_eq (by simp [v.isLt])
  · rw [if_neg h, presentWord_eq_stepRead _ hjwin]
    have hframe := presentFrame_swapWord (t := t) v ho le_rfl le_rfl hwin
    rw [stepRead_congr fun a _ _ => hframe.bytes a (by omega)]

end

/-! ### The words of a swap -/

/-- Some words of the present plane with their new values. -/
def swapWords (t : Team) (v : Nat → Word32) (ws : List Nat) : Team := ws.foldl (fun u o => swapWord u o (v o)) t

section
variable {v : Nat → Word32} {ws : List Nat}

theorem presentFrame_swapWords {lo hi : Nat} (t : Team) (hws : ∀ o ∈ ws, o % 4 = 0 ∧ lo ≤ o ∧ o + 4 ≤ hi) (hwin : hi ≤ windowBase) :
    presentFrame lo hi t (swapWords t v ws) :=
  List.foldlRecOn (motive := presentFrame lo hi t) _ _ (.refl lo hi t) fun _ hu o hmem =>
    have ⟨ho, hlo, hhi⟩ := hws o hmem
    hu.trans (presentFrame_swapWord (v o) ho hlo hhi hwin)

theorem presentWord_swapWords (t : Team) {j : Nat} (hws : ∀ o ∈ ws, o % 4 = 0 ∧ o + 4 ≤ windowBase) (hj : j % 4 = 0) (hjwin : j + 4 ≤ windowBase) :
    presentWord (swapWords t v ws) j = if j ∈ ws then v j else presentWord t j := by
  induction ws generalizing t with
  | nil => rfl
  | cons o ws ih =>
    obtain ⟨ho, hwin⟩ := hws o List.mem_cons_self
    refine (ih (swapWord t o (v o)) fun q hq => hws q (List.mem_cons_of_mem _ hq)).trans ?_
    rw [presentWord_swapWord (v o) ho hwin hj hjwin]
    by_cases hmem : j ∈ ws
    · rw [if_pos hmem, if_pos (List.mem_cons_of_mem _ hmem)]
    · by_cases h : j = o
      · subst h
        rw [if_neg hmem, if_pos rfl, if_pos List.mem_cons_self]
      · rw [if_neg hmem, if_neg h, if_neg (by simp [h, hmem])]

end

/-! ### The swap of a region -/

/-- The new present value of a word of a region (R126, R128). -/
def swappedValue (t : Team) (r : Region) (o : Nat) : Word32 :=
  let w := nextWord t o
  if w.collided then resolveSum r.etype ((t.coll.filter fun c => c.word == o).map (·.value))
  else if w.written || w.copied then w.value
  else if r.zero then 0 else presentWord t o

/-- The words that a swap writes: under CARRY an unwritten one keeps its present value (R126). -/
def swappedWords (t : Team) (r : Region) : List Nat := if r.zero then regionWords r else listedWords t r

/-- A table of a team without the entries of a region, by the offset of each. -/
def outside {α : Type} (r : Region) (off : α → Nat) (l : List α) : List α := l.filter fun e => !(r.base ≤ off e && off e < r.base + r.size)

theorem swapRegion_eq (t : Team) (r : Region) :
    swapRegion t r =
      let u := swapWords t (swappedValue t r) (swappedWords t r)
      { u with next := outside r (·.1) u.next, nextPoison := outside r (4 * ·.1) u.nextPoison, coll := outside r (·.word) u.coll
               refilling := u.refilling.filter (· != r.idx) ++ [r.idx] } := by
  have hwords : ((swappedWords t r).map fun o => (o, swappedValue t r o)).foldl (fun u e => swapWord u e.1 e.2) t
      = swapWords t (swappedValue t r) (swappedWords t r) := List.foldl_map
  rw [← hwords]
  rfl

/-- What a table filtered by its keys holds of a key. -/
theorem sget_filter_key {V : Type} (d : V) (m : Sparse V) (p : Nat → Bool) (k : Nat) :
    sget d (m.filter fun e => p e.1) k = if p k then sget d m k else d := by
  have hlookup : slookup (m.filter fun e => p e.1) k = if p k then slookup m k else none := by
    induction m with
    | nil => simp
    | cons e m ih =>
      obtain ⟨a, x⟩ := e
      by_cases ha : p a <;> by_cases hk : a = k <;> simp_all [slookup_cons]
  rw [sget, hlookup]
  split <;> rfl

theorem sget_outside_in {V : Type} (d : V) (m : Sparse V) (r : Region) (off : Nat → Nat) {k : Nat} (h : r.base ≤ off k ∧ off k < r.base + r.size) :
    sget d (outside r (off ·.1) m) k = d := by
  refine (sget_filter_key d m (fun k => !(r.base ≤ off k && off k < r.base + r.size)) k).trans (if_neg ?_)
  simpa using h

theorem sget_outside_out {V : Type} (d : V) (m : Sparse V) (r : Region) (off : Nat → Nat) {k : Nat} (h : off k < r.base ∨ r.base + r.size ≤ off k) :
    sget d (outside r (off ·.1) m) k = sget d m k := by
  refine (sget_filter_key d m (fun k => !(r.base ≤ off k && off k < r.base + r.size)) k).trans (if_pos ?_)
  simp
  omega

section
variable {t : Team} {r : Region}

theorem mem_regionWords {o : Nat} (hb : r.base % 4 = 0) (hs : r.size % 4 = 0) :
    o ∈ regionWords r ↔ o % 4 = 0 ∧ r.base ≤ o ∧ o < r.base + r.size := by
  simp only [regionWords, List.mem_map, List.mem_range]
  constructor
  · rintro ⟨i, hi, rfl⟩
    omega
  · intro h
    exact ⟨(o - r.base) / 4, by omega, by omega⟩

theorem mem_listedWords {o : Nat} : o ∈ listedWords t r ↔ (∃ e ∈ t.next, e.1 = o) ∧ r.base ≤ o ∧ o < r.base + r.size := by
  simp [listedWords]

/-- The words that a swap writes lie whole in the region. -/
theorem swappedWords_within (hb : r.base % 4 = 0) (hs : r.size % 4 = 0) (hnext : ∀ e ∈ t.next, e.1 % 4 = 0) :
    ∀ o ∈ swappedWords t r, o % 4 = 0 ∧ r.base ≤ o ∧ o + 4 ≤ r.base + r.size := by
  intro o ho
  unfold swappedWords at ho
  split at ho
  · have := (mem_regionWords hb hs).mp ho
    omega
  · obtain ⟨⟨e, he, rfl⟩, hlo, hhi⟩ := mem_listedWords.mp ho
    have := hnext e he
    omega

theorem nextWord_of_not_listed {o : Nat} (hlo : r.base ≤ o) (hhi : o < r.base + r.size) (h : o ∉ listedWords t r) : nextWord t o = nextInit := by
  have hkey : ∀ e ∈ t.next, e.1 ≠ o := fun e he heq => h (mem_listedWords.mpr ⟨⟨e, he, heq⟩, hlo, hhi⟩)
  have hself : (t.next.filter fun e => e.1 != o) = t.next := List.filter_eq_self.mpr fun e he => by simpa using hkey e he
  rw [nextWord, ← hself, sget_filter_key nextInit t.next (· != o)]
  simp

/-- A word that a swap does not write keeps the value that it would get. -/
theorem swappedValue_of_not_swapped {o : Nat} (hb : r.base % 4 = 0) (hs : r.size % 4 = 0) (ho : o % 4 = 0) (hlo : r.base ≤ o)
    (hhi : o < r.base + r.size) (h : o ∉ swappedWords t r) : swappedValue t r o = presentWord t o := by
  unfold swappedWords at h
  split at h
  · exact absurd ((mem_regionWords hb hs).mpr ⟨ho, hlo, hhi⟩) h
  · rename_i hcarry
    simp [swappedValue, nextWord_of_not_listed hlo hhi h, nextInit, hcarry]

end

/-- The sum of a collided word of integers is that of its entries, modulo 2^32 (R128). -/
theorem resolveSum_toNat {ty : EType} (h : ty = .i32 ∨ ty = .u32) (vs : List Word32) :
    (resolveSum ty vs).toNat = (vs.map (·.toNat)).sum % 2 ^ 32 := by
  have hsum : resolveSum ty vs = vs.sum := by
    rw [List.sum_eq_foldl]
    rcases h with rfl | rfl <;> rfl
  rw [hsum]
  clear hsum
  induction vs with
  | nil => rfl
  | cons v vs ih => rw [List.sum_cons, BitVec.toNat_add, ih, Nat.add_mod_mod, List.map_cons, List.sum_cons]

end Sys2Proof.Machine

open Sys2Proof Sys2Proof.Machine

/-- Settles O60: the words that a swap writes lie in the region and get their new values, and a word of the region that it does not write keeps
the value that it would get; the tables lose the region's entries alone. -/
theorem swapPlanes : Obligations.SwapPlanes := by
  unfold Obligations.SwapPlanes
  intro t r hb hs hwin hnext u
  have hwithin := swappedWords_within hb hs hnext
  have hframe := presentFrame_swapWords (v := swappedValue t r) t hwithin hwin
  have hwords := fun j => presentWord_swapWords (v := swappedValue t r) t (j := j) fun o ho => ⟨(hwithin o ho).1, (hwithin o ho).2.2.trans hwin⟩
  have hu : u = _ := swapRegion_eq t r
  dsimp only at hu
  obtain ⟨⟨present, stepPoison, hput⟩, hbytes, hpoison⟩ := hframe
  rw [hput] at hu hbytes hpoison hwords
  rw [hu]
  refine ⟨fun o ho hlo hhi => ⟨?value, sget_outside_in nextInit t.next r id ⟨hlo, hhi⟩⟩, hbytes, fun o ho => sget_outside_out nextInit t.next r id ho,
    ?begun, ?coll, ?other, fun w hw => ⟨hpoison w hw, sget_outside_out false t.nextPoison r (4 * ·) hw⟩, rfl, fun h vs => resolveSum_toNat h vs⟩
  case value =>
    refine (hwords o ho (by omega)).trans ?_
    by_cases h : o ∈ swappedWords t r
    · exact if_pos h
    · rw [if_neg h]
      exact (swappedValue_of_not_swapped hb hs ho hlo hhi h).symm
  case begun => simp
  case coll =>
    refine List.filter_congr fun c _ => ?_
    rw [Bool.eq_iff_iff]
    simp
  case other =>
    intro i hi
    rw [Bool.eq_iff_iff]
    simp [hi]

end

