-- ==== Sys2Proof/Proofs/StepAccess.lean ====
section
/-! Step-memory loads, stores, exchange stores, tagged operations, PRSRD and bank atomics at their issue (R216, R219, R230 to R237, R240, R241). -/

namespace Sys2Proof.Machine

-- one declaration at a time: a thread for each would be too many
set_option Elab.async false

/-! ### The checks of a step access (R124, R230) -/

theorem stepFault_of_bad {c : Iss} {remote : Bool} {n : Nat} {acc : StepAccess} {ea : Nat → Nat} {cause addr : Nat} {ls : List Nat}
    (h : c.stepBad remote n acc ea = some (cause, ls, addr)) : c.stepFault remote n acc ea = some (c.faultAt cause 0 (maskOf ls) addr) := by
  rw [Iss.stepFault, h]
  rfl

/-- An instruction that ends in the fault of its access, where a lane fails its check, raises the event of that check. -/
theorem stepTraps_of_fault {i : Instr} {h : Hdr} {remote : Bool} {n : Nat} {acc : StepAccess} {ea : Iss → Nat → Nat}
    (hexec : ∀ s c e, turnOf i h s = .goes c → c.stepFault remote n acc (ea c) = some e → exec i s = e.result c.a.key) :
    stepTraps i h remote n acc ea :=
  fun s c _ _ _ hc hbad => hexec s c _ hc (stepFault_of_bad hbad)

/-! ### The waiting table behind a hit bit (R40, R219) -/

/-- The taken entries of a core are read from its agents: of a team only which core it is on, and its number. -/
theorem tableTaken_updTeam (s : State) (team core : Nat) {f : Team → Team} (hcore : ∀ t, (f t).core = t.core) (huid : ∀ t, (f t).uid = t.uid) :
    tableTaken (updTeam s team f) core = tableTaken s core := by
  have hkeeps : ∀ t, (if t.uid == team then f t else t).core = t.core ∧ (if t.uid == team then f t else t).uid = t.uid := by
    intro t
    split
    · exact ⟨hcore t, huid t⟩
    · exact ⟨rfl, rfl⟩
  have huids : ((updWhere (fun t => t.uid == team) f s.teams).filter fun t => t.core == core).map (·.uid)
      = (s.teams.filter fun t => t.core == core).map (·.uid) := by
    simp only [updWhere, List.filter_map, List.map_map, Function.comp_def, hkeeps]
  simp only [tableTaken, updTeam, huids]
  rfl

theorem tableFree_hitIf (c : Iss) (hit : Bool) (bnd core : Nat) (ladle : Bool) : tableFree (c.hitIf hit bnd) core ladle = tableFree c.s core ladle := by
  cases hit with
  | false => rfl
  | true =>
    have htaken : tableTaken (c.hitIf true bnd) core = tableTaken c.s core := tableTaken_updTeam _ _ _ (fun _ => rfl) fun _ => rfl
    rw [tableFree, tableFree, htaken]

/-! ### LDS and PRSRD (R231, R236) -/

/-- The lanes of a load of step memory with their offsets. -/
def loadLanes (c : Iss) (x : FM) (n : Nat) : List (Nat × Nat) := c.ownLanes (c.memLanes x [x.d]) (c.ea x n)

/-- The absent lines that hold LDS back (R137, R138). -/
def ldsLines (c : Iss) (x : FM) : List Nat := ((loadLanes c x (sizeOf x.h)).flatMap fun p => readWaits c.t p.2 (sizeOf x.h)).dedup

/-- What LDS does: its words, with their poison, behind the agent's earlier stores (R127, R231). -/
def ldsEffect (c : Iss) (x : FM) : State :=
  let n := sizeOf x.h
  let c1 := c.landed ((loadLanes c x n).map fun p => (p.2, n))
  if loadLanes c x n = [] then c1.s else addLoad c1.s c.a.key c.n ((loadLanes c x n).flatMap fun p =>
    let r := loadResult n (signedSize x.h) (stepRead c1.t p.2 n)
    regWrites r.1 x.d p.1 r.2 ++ if stepPoisoned c1.t p.2 n then poisonMarks r.1 x.d p.1 0 else [])

section
variable {x : FM} {s : State} {c : Iss}

theorem execLds_faults {e : Eff} (hc : turnOf (.lds x) x.h s = .goes c) (he : c.stepFault false (sizeOf x.h) .load (c.ea x (sizeOf x.h)) = some e) :
    execLds x s = e.result c.a.key := by
  simp only [execLds, issue_goes _ hc, he]

section
variable (hc : turnOf (.lds x) x.h s = .goes c) (hgood : c.stepGood false (sizeOf x.h) .load (c.ea x (sizeOf x.h)))
include hc hgood

theorem execLds_loads (h : ldsLines c x = []) : execLds x s = .next (ldsEffect c x) := by
  unfold ldsLines loadLanes at h
  simp only [execLds, issue_goes _ hc, stepFault_of_good hgood, h, result_ok, List.isEmpty_iff]
  rfl

theorem execLds_waits (h : ldsLines c x ≠ []) : execLds x s = .next (c.atAbsent (ldsLines c x)) := by
  obtain ⟨l, r, hlines⟩ := List.exists_cons_of_ne_nil h
  rw [hlines]
  unfold ldsLines loadLanes at hlines
  simp only [execLds, issue_goes _ hc, stepFault_of_good hgood, hlines]
  rfl

end

theorem execPrsrd_faults {e : Eff} (hc : turnOf (.prsrd x) x.h s = .goes c) (he : c.stepFault false 1 .presence (c.ea x 1) = some e) :
    execPrsrd x s = e.result c.a.key := by
  simp only [execPrsrd, issue_goes _ hc, he]

theorem execPrsrd_reads (hc : turnOf (.prsrd x) x.h s = .goes c) (hgood : c.stepGood false 1 .presence (c.ea x 1)) :
    execPrsrd x s = .next (if loadLanes c x 1 = [] then c.s
      else addVar c.s c.a.key c.n ((loadLanes c x 1).flatMap fun p => regWrites 32 x.d p.1 (presenceWord c.t p.2).toNat) none) := by
  simp only [execPrsrd, issue_goes _ hc, stepFault_of_good hgood, result_ok, List.isEmpty_iff]
  rfl

end

/-! ### STS and STX (R219, R232, R233) -/

section
variable {x : FM} {s : State} {c : Iss}

theorem execSts_faults {e : Eff} (hc : turnOf (.sts x) x.h s = .goes c) (he : c.stepFault false (sizeOf x.h) .store (c.ea x (sizeOf x.h)) = some e) :
    execSts x s = e.result c.a.key := by
  simp only [execSts, issue_goes _ hc, he]

section
variable (hc : turnOf (.sts x) x.h s = .goes c) (hgood : c.stepGood false (sizeOf x.h) .store (c.ea x (sizeOf x.h)))
include hc hgood

theorem execSts_waits (hok : (stsData c x).2.2 = []) (h : c.missing (stsLanes c x) (sizeOf x.h) ≠ []) :
    execSts x s = .next (c.atAbsent (c.missing (stsLanes c x) (sizeOf x.h))) := by
  obtain ⟨l, r, hlines⟩ := List.exists_cons_of_ne_nil h
  rw [hlines]
  unfold stsLanes at hlines
  unfold stsData at hok
  simp only [execSts, issue_goes _ hc, stepFault_of_good hgood, hok, hlines, List.isEmpty_nil, Bool.not_true, Bool.false_eq_true, if_false]
  rfl

theorem execSts_traps (hbad : (stsData c x).2.2 ≠ []) :
    execSts x s = .next (raise (setHit c.s0 c.t.uid x.bnd.toNat) c.a.key (mkEvent 20 x.bnd.toNat (maskOf (stsData c x).2.2) c.pc)) := by
  unfold stsData at hbad ⊢
  simp only [execSts, issue_goes _ hc, stepFault_of_good hgood, List.isEmpty_eq_false_iff.mpr hbad, Bool.not_false, if_true, Iss.boundTrap, result_trap]

end

theorem execStx_faults {e : Eff} (hc : turnOf (.stx x) x.h s = .goes c) (he : c.stepFault true (sizeOf x.h) .stx (c.ea x (sizeOf x.h)) = some e) :
    execStx x s = e.result c.a.key := by
  simp only [execStx, issue_goes _ hc, he]

section
variable (hc : turnOf (.stx x) x.h s = .goes c) (hgood : c.stepGood true (sizeOf x.h) .stx (c.ea x (sizeOf x.h)))
include hc hgood

/-- STX has the data of STS, and waits at no line (R219, R233). -/
theorem execStx_sends (hok : (stsData c x).2.2 = []) :
    execStx x s = .next (c.stxEffect x (dataOf (stsData c x).1) (c.hitIf (stsData c x).2.1 x.bnd.toNat)) := by
  unfold stsData at hok
  simp only [execStx, issue_goes _ hc, stepFault_of_good hgood, hok, List.isEmpty_nil, Bool.not_true, Bool.false_eq_true, if_false, result_ok]
  rfl

theorem execStx_traps (hbad : (stsData c x).2.2 ≠ []) :
    execStx x s = .next (raise (setHit c.s0 c.t.uid x.bnd.toNat) c.a.key (mkEvent 20 x.bnd.toNat (maskOf (stsData c x).2.2) c.pc)) := by
  unfold stsData at hbad ⊢
  simp only [execStx, issue_goes _ hc, stepFault_of_good hgood, List.isEmpty_eq_false_iff.mpr hbad, Bool.not_false, if_true, Iss.boundTrap, result_trap]

end

end

/-! ### Operations at the banks of the own core and of others (R40, R138) -/

/-- The absent lines of the own core that an operation of `n` bytes needs (R138). -/
def bankLines (c : Iss) (x : FM) (n : Nat) (data : List Opnd) : List Nat := c.missing (c.ownLanes (c.memLanes x data) (c.ea x n)) n

/-- Whether an operation has the waiting-table entry that its messages need (R40). -/
def hasEntry (c : Iss) (x : FM) (n : Nat) (data : List Opnd) : Prop :=
  c.otherLanes (c.memLanes x data) (c.ea x n) = [] ∨ tableFree c.s c.t.core (isLadle c.a.key) = true

/-- An operation held at absent lines, put off without an entry, else carried out: what tagged instructions and bank atomics share. -/
def onBanks (c : Iss) (x : FM) (n : Nat) (data : List Opnd) (done : State) : Eff :=
  match bankLines c x n data with
  | l :: r => c.absent (l :: r)
  | [] =>
    if !(c.otherLanes (c.memLanes x data) (c.ea x n)).isEmpty && !tableFree c.s c.t.core (isLadle c.a.key) then c.later else .ok done

section
variable {c : Iss} {x : FM} {n : Nat} {data : List Opnd} {done : State}

theorem onBanks_absent (h : bankLines c x n data ≠ []) : onBanks c x n data done = c.absent (bankLines c x n data) := by
  obtain ⟨l, r, hlines⟩ := List.exists_cons_of_ne_nil h
  simp only [onBanks, hlines]

theorem onBanks_acts (h : bankLines c x n data = []) (hentry : hasEntry c x n data) : onBanks c x n data done = .ok done := by
  have hroom : (!(c.otherLanes (c.memLanes x data) (c.ea x n)).isEmpty && !tableFree c.s c.t.core (isLadle c.a.key)) = false := by
    rcases hentry with he | he <;> simp [he]
  simp only [onBanks, h, hroom, Bool.false_eq_true, if_false]

theorem onBanks_lacks (h : bankLines c x n data = []) (hentry : ¬ hasEntry c x n data) : onBanks c x n data done = c.later := by
  obtain ⟨hother, hfull⟩ := not_or.mp hentry
  simp only [onBanks, h, List.isEmpty_eq_false_iff.mpr hother, Bool.eq_false_iff.mpr hfull, Bool.not_false, Bool.and_self, if_true]

end

/-- What an instruction that is one operation at the banks does in every case of its issue. -/
theorem completes_of_onBanks {i : Instr} {x : FM} {p : Iss → Prop} {n : Nat} {data : List Opnd} {f : Iss → State}
    (hexec : ∀ s c, turnOf i x.h s = .goes c → p c → exec i s = (onBanks c x n data (f c)).result c.a.key) :
    (∀ s c, turnOf i x.h s = .goes c → p c → bankLines c x n data = [] → ¬ hasEntry c x n data → exec i s = .next c.lacking)
    ∧ actsOnBanks i x.h (fun c => p c ∧ (bankLines c x n data = [] → hasEntry c x n data)) (bankLines · x n data) f := by
  refine ⟨fun s c hc hp hlines hentry => ?_, fun s c hc hp => ⟨fun hlines => ?_, fun hlines => ?_⟩⟩
  · rw [hexec s c hc hp, onBanks_lacks hlines hentry]
    rfl
  · rw [hexec s c hc hp.1, onBanks_acts hlines (hp.2 hlines), result_ok]
  · rw [hexec s c hc hp.1, onBanks_absent hlines]
    rfl

/-! ### Tagged operations (R141, R234) -/

section
variable {c : Iss} {x : FM}

/-- A tagged operation behind the hit bit of its bound check is one operation at the banks. -/
theorem tagged_hitIf (o : TagOp) (dest : Opnd) (data : List Opnd) (value : Nat → Nat) (hit : Bool) (bnd : Nat) :
    c.tagged x o dest data value (c.hitIf hit bnd) = onBanks c x 4 data (c.tagEffect x o dest data value (c.hitIf hit bnd)) := by
  simp only [Iss.tagged, tableFree_hitIf]
  rfl

theorem tagOnly_good (o : TagOp) (dest : Opnd) (data : List Opnd) (hgood : c.stepGood true 4 .tag (c.ea x 4)) :
    c.tagOnly x o dest data = onBanks c x 4 data (c.tagEffect x o dest data (fun _ => 0) c.s) := by
  simp only [Iss.tagOnly, stepFault_of_good hgood]
  exact tagged_hitIf o dest data (fun _ => 0) false 0

theorem tagOnly_faults {e : Eff} (o : TagOp) (dest : Opnd) (data : List Opnd) (he : c.stepFault true 4 .tag (c.ea x 4) = some e) :
    c.tagOnly x o dest data = e := by
  simp only [Iss.tagOnly, he]

/-- The data of STE and STF after their bound check, whether a bound was hit, and the lanes whose data traps (R219). -/
def tagData (c : Iss) (x : FM) : List (Nat × Nat) × Bool × List Nat :=
  c.boundStore x.h x.bnd.toNat 4 (c.memLanes x [x.data2]) (c.data 4 x.data2)

theorem tagStore_faults {e : Eff} (o : TagOp) (he : c.stepFault true 4 .tag (c.ea x 4) = some e) : c.tagStore x o = e := by
  simp only [Iss.tagStore, he]

section
variable (o : TagOp) (hgood : c.stepGood true 4 .tag (c.ea x 4))
include hgood

theorem tagStore_good (hok : (tagData c x).2.2 = []) :
    c.tagStore x o = onBanks c x 4 [x.data2] (c.tagEffect x o .zr [x.data2] (dataOf (tagData c x).1) (c.hitIf (tagData c x).2.1 x.bnd.toNat)) := by
  rw [← tagged_hitIf]
  unfold tagData at hok
  simp only [Iss.tagStore, stepFault_of_good hgood, hok, List.isEmpty_nil, Bool.not_true, Bool.false_eq_true, if_false]
  rfl

theorem tagStore_traps (hbad : (tagData c x).2.2 ≠ []) : c.tagStore x o = c.boundTrap x.bnd.toNat (tagData c x).2.2 := by
  unfold tagData at hbad ⊢
  simp only [Iss.tagStore, stepFault_of_good hgood, List.isEmpty_eq_false_iff.mpr hbad, Bool.not_false, if_true]

end

end

section
variable {i : Instr} {x : FM} {o : TagOp}

/-- What a tagged instruction without data does at its issue. -/
theorem tagOnly_completes {dest : Opnd} {data : List Opnd} (hexec : ∀ s, exec i s = issue i x.h s fun c => c.tagOnly x o dest data) :
    (∀ s c, turnOf i x.h s = .goes c → c.stepGood true 4 .tag (c.ea x 4) → bankLines c x 4 data = [] → ¬ hasEntry c x 4 data →
      exec i s = .next c.lacking)
    ∧ actsOnBanks i x.h (fun c => c.stepGood true 4 .tag (c.ea x 4) ∧ (bankLines c x 4 data = [] → hasEntry c x 4 data)) (bankLines · x 4 data)
      fun c => c.tagEffect x o dest data (fun _ => 0) c.s :=
  completes_of_onBanks fun s c hc hgood => by rw [hexec, issue_goes _ hc, tagOnly_good o dest data hgood]

theorem tagOnly_stepTraps {dest : Opnd} {data : List Opnd} (hexec : ∀ s, exec i s = issue i x.h s fun c => c.tagOnly x o dest data) :
    stepTraps i x.h true 4 .tag (·.ea x 4) :=
  stepTraps_of_fault fun s c e hc he => by rw [hexec, issue_goes _ hc, tagOnly_faults o dest data he]

section
variable (hexec : ∀ s, exec i s = issue i x.h s fun c => c.tagStore x o)
include hexec

/-- What STE and STF do at their issue where their data keep to the bound. -/
theorem tagStore_completes :
    (∀ s c, turnOf i x.h s = .goes c → c.stepGood true 4 .tag (c.ea x 4) → (tagData c x).2.2 = [] → bankLines c x 4 [x.data2] = [] →
      ¬ hasEntry c x 4 [x.data2] → exec i s = .next c.lacking)
    ∧ actsOnBanks i x.h (fun c => c.stepGood true 4 .tag (c.ea x 4) ∧ (tagData c x).2.2 = []
        ∧ (bankLines c x 4 [x.data2] = [] → hasEntry c x 4 [x.data2])) (bankLines · x 4 [x.data2])
      fun c => c.tagEffect x o .zr [x.data2] (dataOf (tagData c x).1) (c.hitIf (tagData c x).2.1 x.bnd.toNat) := by
  obtain ⟨hlacks, hacts⟩ := completes_of_onBanks (i := i) (x := x) (p := fun c => c.stepGood true 4 .tag (c.ea x 4) ∧ (tagData c x).2.2 = [])
    fun s c hc hp => by rw [hexec, issue_goes _ hc, tagStore_good o hp.1 hp.2]
  exact ⟨fun s c hc hgood hok => hlacks s c hc ⟨hgood, hok⟩, fun s c hc ⟨hgood, hok, hentry⟩ => hacts s c hc ⟨⟨hgood, hok⟩, hentry⟩⟩

theorem tagStore_stepTraps : stepTraps i x.h true 4 .tag (·.ea x 4) :=
  stepTraps_of_fault fun s c e hc he => by rw [hexec, issue_goes _ hc, tagStore_faults o he]

theorem tagStore_boundTraps :
    boundTraps i x.h x.bnd.toNat (fun c => c.stepGood true 4 .tag (c.ea x 4)) fun c => (tagData c x).2.2 := by
  intro s c hc hgood hbad
  rw [hexec, issue_goes _ hc, tagStore_traps o hgood hbad, Iss.boundTrap, result_trap]

end

end

/-! ### Bank atomics (R143, R240, R241) -/

section
variable {i : Instr} {x : FM} {remote : Bool} {dest : Opnd} {data : List Opnd}
  (hexec : ∀ s, exec i s = issue i x.h s fun c => c.bankAtomics x remote dest data)
include hexec

/-- What an atomic on step memory does at its issue. -/
theorem bankAtomics_completes :
    (∀ s c, turnOf i x.h s = .goes c → c.stepGood remote (atomSize x) .atomic (c.ea x (atomSize x)) → bankLines c x (atomSize x) data = [] →
      ¬ hasEntry c x (atomSize x) data → exec i s = .next c.lacking)
    ∧ actsOnBanks i x.h (fun c => c.stepGood remote (atomSize x) .atomic (c.ea x (atomSize x))
        ∧ (bankLines c x (atomSize x) data = [] → hasEntry c x (atomSize x) data)) (bankLines · x (atomSize x) data)
      fun c => c.bankEffect x dest data :=
  completes_of_onBanks fun s c hc hgood => by
    rw [hexec, issue_goes _ hc]
    simp only [Iss.bankAtomics, stepFault_of_good hgood]
    rfl

theorem bankAtomics_stepTraps : stepTraps i x.h remote (atomSize x) .atomic (·.ea x (atomSize x)) :=
  stepTraps_of_fault fun s c e hc he => by
    rw [hexec, issue_goes _ hc]
    simp only [Iss.bankAtomics, he]

end

end Sys2Proof.Machine

open Sys2Proof Sys2Proof.Machine

/-- Settles O30: each form ends in the fault of its access, in its bound trap, at its absent lines or in its effect; the tagged forms and the
atomics are one operation at the banks each. -/
theorem stepMemComplete : Obligations.StepMemComplete := by
  unfold Obligations.StepMemComplete
  intro x n m st entry lines
  refine ⟨fun s c hc hgood => ⟨execLds_loads hc hgood, execLds_waits hc hgood⟩,
    fun s c hc ⟨hgood, hok⟩ => ⟨execSts_stores hc hgood hok, execSts_waits hc hgood hok⟩, fun s c hc ⟨hgood, hok⟩ => execStx_sends hc hgood hok,
    ?tagOnly, ?tagStore, fun s c hc hgood => execPrsrd_reads hc hgood, ?atomics, stepTraps_of_fault fun s c e => execLds_faults,
    stepTraps_of_fault fun s c e => execSts_faults, stepTraps_of_fault fun s c e => execStx_faults, stepTraps_of_fault fun s c e => execPrsrd_faults,
    ?tagTraps, ?atomicTraps, bankAtomics_stepTraps fun s => rfl, fun s c hc hgood => execSts_traps hc hgood,
    fun s c hc hgood => execStx_traps hc hgood, ?tagBounds⟩
  case tagOnly =>
    intro i op dest data hi
    simp only [List.mem_cons, List.not_mem_nil, or_false, Prod.mk.injEq] at hi
    rcases hi with ⟨rfl, rfl, rfl, rfl⟩ | ⟨rfl, rfl, rfl, rfl⟩ | ⟨rfl, rfl, rfl, rfl⟩ | ⟨rfl, rfl, rfl, rfl⟩ <;> exact tagOnly_completes fun s => rfl
  case tagStore =>
    intro i op hi
    simp only [List.mem_cons, List.not_mem_nil, or_false, Prod.mk.injEq] at hi
    rcases hi with ⟨rfl, rfl⟩ | ⟨rfl, rfl⟩ <;> exact tagStore_completes fun s => rfl
  case atomics =>
    intro i remote dest data hi
    simp only [List.mem_cons, List.not_mem_nil, or_false, Prod.mk.injEq] at hi
    rcases hi with ⟨rfl, rfl, rfl, rfl⟩ | ⟨rfl, rfl, rfl, rfl⟩ | ⟨rfl, rfl, rfl, rfl⟩ <;> exact bankAtomics_completes fun s => rfl
  case tagTraps =>
    simp only [List.forall_mem_cons, List.not_mem_nil, false_imp_iff, implies_true, and_true]
    exact ⟨tagOnly_stepTraps fun s => rfl, tagOnly_stepTraps fun s => rfl, tagOnly_stepTraps fun s => rfl, tagOnly_stepTraps fun s => rfl,
      tagStore_stepTraps fun s => rfl, tagStore_stepTraps fun s => rfl⟩
  case atomicTraps =>
    simp only [List.forall_mem_cons, List.not_mem_nil, false_imp_iff, implies_true, and_true]
    exact ⟨bankAtomics_stepTraps fun s => rfl, bankAtomics_stepTraps fun s => rfl⟩
  case tagBounds =>
    simp only [List.forall_mem_cons, List.not_mem_nil, false_imp_iff, implies_true, and_true]
    exact ⟨tagStore_boundTraps fun s => rfl, tagStore_boundTraps fun s => rfl⟩

end

