-- ==== Sys2Proof/Proofs/Encoding.lean ====
section
/-! The encoder and the decoder undo each other (R149, R193, R195, R199). -/

namespace Sys2Proof

-- one declaration at a time: a thread for each would be too many
set_option Elab.async false

open Machine

/-! ### Register specifiers (R149) -/

/-- A specifier that some position accepts is the one that its code stands for. -/
theorem opndOf_opndCode {q : Pos} {o : Opnd} (h : q.fits o = true) : opndOf (opndCode o) = o := by
  cases o with
  | v n =>
    have hn : n.toNat < 128 := n.isLt
    simp [opndOf, opndCode, hn, Nat.mod_eq_of_lt (show n.toNat < 256 by omega)]
  | s n =>
    have hn : n.toNat < 64 := n.isLt
    simp [opndOf, opndCode, Nat.mod_eq_of_lt (show 128 + n.toNat < 256 by omega), show 128 + n.toNat < 192 by omega]
  | p n =>
    have hn : n.toNat < 8 := n.isLt
    simp [opndOf, opndCode, Nat.mod_eq_of_lt (show 192 + n.toNat < 256 by omega), show ¬ 192 + n.toNat < 128 by omega,
      show 192 + n.toNat < 200 by omega]
  | k n =>
    have hn : n.toNat < 8 := n.isLt
    simp [opndOf, opndCode, Nat.mod_eq_of_lt (show 200 + n.toNat < 256 by omega), show ¬ 200 + n.toNat < 128 by omega,
      show ¬ 200 + n.toNat < 192 by omega, show 200 + n.toNat < 208 by omega]
  | rsvd n => cases h
  | lid | ones | sgn | fone | amask | zr => rfl

/-- Every code is that of the specifier it stands for, a reserved one too: each class of specifiers is a range of codes. -/
theorem opndCode_opndOf (c : BitVec 8) : opndCode (opndOf c) = c := by
  have hc : c.toNat < 256 := c.isLt
  apply BitVec.eq_of_toNat_eq
  unfold opndOf
  dsimp only
  split_ifs <;> simp only [opndCode, BitVec.ofNat_eq_ofNat, BitVec.toNat_ofNat] <;> omega

/-! ### Headers (R193) -/

/-- The header held in bits [95:72] of a word. -/
def hdrOfTop (t : BitVec 24) : Hdr where
  sw := t.getLsbD 23
  gw := t.getLsbD 22
  gap := t.extractLsb' 19 3
  keep := t.getLsbD 18
  neg := t.getLsbD 17
  guard := t.extractLsb' 14 3
  mod := t.extractLsb' 0 6

/-- Bits within a part of a word. -/
theorem extractLsb'_extractLsb' {n : Nat} (x : BitVec n) {a k b m : Nat} (h : b + m ≤ k) :
    (x.extractLsb' a k).extractLsb' b m = x.extractLsb' (a + b) m := by
  apply BitVec.eq_of_getLsbD_eq
  intro i hi
  simp [hi, show b + i < k by omega, Nat.add_assoc]

theorem ofBool_beq_one (b : Bool) : (BitVec.ofBool b == 1#1) = b := by cases b <;> rfl

theorem ofBool_getLsbD {n : Nat} (x : BitVec n) (i : Nat) : BitVec.ofBool (x.getLsbD i) = x.extractLsb' i 1 := by
  apply BitVec.eq_of_getLsbD_eq
  intro j hj
  obtain rfl : j = 0 := by omega
  simp

theorem hdrField_eq (w : InstrWord) : hdrField w = hdrOfTop (wbits w 72 24) := by
  simp [hdrField, hdrOfTop, wbits, extractLsb'_extractLsb']

theorem hdrOfTop_hdrBits (c : BitVec 8) (h : Hdr) : hdrOfTop (hdrBits c h) = h := by
  cases h
  simp (disch := decide) only [hdrOfTop, hdrBits, BitVec.getLsbD_eq_extractLsb', BitVec.extractLsb'_append_eq_of_add_le,
    BitVec.extractLsb'_append_eq_of_le, BitVec.extractLsb'_eq_self, Nat.reduceSub, ofBool_beq_one]

theorem hdrBits_hdrField (w : InstrWord) : hdrBits (opcField w) (hdrField w) = wbits w 72 24 := by
  simp (disch := decide) only [hdrBits, opcField, hdrField, wbits, ofBool_getLsbD, BitVec.extractLsb'_append_extractLsb'_eq_extractLsb']

/-! ### Bodies (R195) -/

/-- A body of instructions: its word under an opcode, its fields in a word, its register positions, and that each of word and fields gives the
other back, where the positions hold specifiers that their codes stand for. -/
structure Body (β : Type) where
  word : BitVec 8 → β → InstrWord
  field : InstrWord → β
  regs : β → List Opnd
  opcField_word : ∀ c x, opcField (word c x) = c
  field_word : ∀ c x, (∀ o ∈ regs x, opndOf (opndCode o) = o) → field (word c x) = x
  word_field : ∀ w, word (opcField w) (field w) = w

/-- Body F3 (R195). -/
def f3Body : Body F3 where
  word := f3Word
  field := f3Field
  regs x := [x.d, x.a, x.b, x.c]
  opcField_word := opcField_f3Word
  field_word c x h := by
    obtain ⟨hd, ha, hb, hc⟩ : opndOf (opndCode x.d) = x.d ∧ opndOf (opndCode x.a) = x.a ∧ opndOf (opndCode x.b) = x.b
        ∧ opndOf (opndCode x.c) = x.c := by simpa using h
    simp (disch := decide) only [f3Field, hdrField_eq, f3Word, wbits, BitVec.extractLsb'_append_eq_of_add_le,
      BitVec.extractLsb'_append_eq_of_le, BitVec.extractLsb'_eq_self, Nat.reduceSub, hdrOfTop_hdrBits, hd, ha, hb, hc]
  word_field w := by
    simp (disch := decide) only [f3Word, f3Field, hdrBits_hdrField, opndCode_opndOf, wbits,
      BitVec.extractLsb'_append_extractLsb'_eq_extractLsb']
    exact BitVec.extractLsb'_eq_self

/-- Body FM (R195). -/
def fmBody : Body FM where
  word := fmWord
  field := fmField
  regs x := [x.d, x.base, x.index, x.data2]
  opcField_word := opcField_fmWord
  field_word c x h := by
    obtain ⟨hd, hb, hi, h2⟩ : opndOf (opndCode x.d) = x.d ∧ opndOf (opndCode x.base) = x.base ∧ opndOf (opndCode x.index) = x.index
        ∧ opndOf (opndCode x.data2) = x.data2 := by simpa using h
    simp (disch := decide) only [fmField, hdrField_eq, fmWord, wbits, BitVec.extractLsb'_append_eq_of_add_le,
      BitVec.extractLsb'_append_eq_of_le, BitVec.extractLsb'_eq_self, Nat.reduceSub, hdrOfTop_hdrBits, hd, hb, hi, h2]
  word_field w := by
    simp (disch := decide) only [fmWord, fmField, hdrBits_hdrField, opndCode_opndOf, wbits,
      BitVec.extractLsb'_append_extractLsb'_eq_extractLsb']
    exact BitVec.extractLsb'_eq_self

/-- Body FB, whose target and rejoin registers are plain fields (R195). -/
def fbBody : Body FB where
  word := fbWord
  field := fbField
  regs x := [x.link]
  opcField_word := opcField_fbWord
  field_word c x h := by
    have hl : opndOf (opndCode x.link) = x.link := by simpa using h
    simp (disch := decide) only [fbField, hdrField_eq, fbWord, wbits, BitVec.extractLsb'_append_eq_of_add_le,
      BitVec.extractLsb'_append_eq_of_le, BitVec.extractLsb'_eq_self, Nat.reduceSub, hdrOfTop_hdrBits, hl]
  word_field w := by
    simp (disch := decide) only [fbWord, fbField, hdrBits_hdrField, opndCode_opndOf, wbits,
      BitVec.extractLsb'_append_extractLsb'_eq_extractLsb']
    exact BitVec.extractLsb'_eq_self

/-- Body FL (R195). -/
def flBody : Body FL where
  word := flWord
  field := flField
  regs x := [x.d]
  opcField_word := opcField_flWord
  field_word c x h := by
    have hd : opndOf (opndCode x.d) = x.d := by simpa using h
    simp (disch := decide) only [flField, hdrField_eq, flWord, wbits, BitVec.extractLsb'_append_eq_of_add_le,
      BitVec.extractLsb'_append_eq_of_le, BitVec.extractLsb'_eq_self, Nat.reduceSub, hdrOfTop_hdrBits, hd]
  word_field w := by
    simp (disch := decide) only [flWord, flField, hdrBits_hdrField, opndCode_opndOf, wbits,
      BitVec.extractLsb'_append_extractLsb'_eq_extractLsb']
    exact BitVec.extractLsb'_eq_self

/-! ### Rows of the opcode table (R199) -/

/-- An instruction of a row: a body under an opcode, which encoder, decoder and register positions agree on. -/
inductive Row : Instr → Prop where
  | of {β : Type} (B : Body β) {mk : β → Instr} {c : BitVec 8} (x : β) (henc : ∀ y, encode (mk y) = some (B.word c y))
      (hdec : ∀ w, decodeOpc c.toNat w = some (mk (B.field w))) (hopc : opcodeOf (mk x) = some c.toNat)
      (hregs : (fieldsOf (mk x)).map (·.1) = B.regs x) : Row (mk x)

/-- Every instruction with an opcode has a row, of one of the four bodies. -/
theorem row_of_opcode {i : Instr} (h : (opcodeOf i).isSome = true) : Row i := by
  cases i with
  | nop x | brx x | callx x | ret x | join x | waitj x | exit x | yield x | safe x | launch x | crclose x | trap x | bkpt x | step x | redt x
  | waittl x | tlrd x | tladv x | sleep x | rdtime x | movsr x | movrs x | iadd x | isub x | iaddc x | imul x | imulh x | imad x | imadw x | idiv x
  | irem x | ineg x | iabs x | imin x | imax x | lea x | icmp x | psel x | mov x | movi x | plut x | p2v x | v2p x | dot4 x | and x | or x | xor x
  | andn x | not x | lut3 x | shl x | shr x | sar x | rot x | fshf x | bfe x | bfi x | popc x | clz x | ctz x | brev x | bperm x | vote x | ballot x
  | xlane x | matchL x | redux x | scanx x | readl x | bcast x | fadd x | fsub x | fmul x | ffma x | fmin x | fmax x | fcmp x | fclass x | frnd x
  | ffrac x | fscale x | frcp x | frsq x | fsqrt x | fexp2 x | flog2 x | fsin x | fcos x | ftanh x | pkadd x | pkmul x | pkfma x | pkmax x | dadd x
  | dmul x | dfma x | dcmp x | fcvt x | icvt x | fpack x | funpack x | bound x | mma x | mmaz x | fmtv x | accepi x | accck x | mjob x | accld x
  | accst x | accz x | copy x | copyg x | copys x | copyr x | cbload x | cbdrop x | cqry x =>
    exact .of f3Body x (fun _ => rfl) (fun _ => rfl) rfl rfl
  | ld x | st x | lda x | chka x | invala x | ldix x | pref x | prefb x | cwb x | icinv x | fetchb x | fence x | lds x | sts x | stx x | ldf x
  | ste x | stf x | tagset x | tagclr x | tagrd x | prsrd x | atom x | red x | atoms x | reds x | atomx x =>
    exact .of fmBody x (fun _ => rfl) (fun _ => rfl) rfl rfl
  | bra x | call x | cropen x => exact .of fbBody x (fun _ => rfl) (fun _ => rfl) rfl rfl
  | movil x => exact .of flBody x (fun _ => rfl) (fun _ => rfl) rfl rfl
  | _ => cases h

/-- The decoder answers the instruction of the opcode it reads. -/
theorem opcodeOf_decodeOpc {n : Nat} {w : InstrWord} {i : Instr} (h : decodeOpc n w = some i) : opcodeOf i = some n := by
  unfold decodeOpc at h
  split at h <;> cases h <;> rfl

/-- The code of each register position of a well-formed instruction stands for the specifier in it (R149, R150). -/
theorem opndOf_opndCode_of_wf {i : Instr} (h : wf i = true) {o : Opnd} (ho : o ∈ (fieldsOf i).map (·.1)) : opndOf (opndCode o) = o := by
  obtain ⟨f, hf, rfl⟩ := List.mem_map.mp ho
  simp only [wf, encodingLegal, Bool.and_eq_true, List.all_eq_true] at h
  obtain ⟨-, hfits⟩ := h
  exact opndOf_opndCode (hfits f hf)

theorem Row.decode_encode {i : Instr} (h : Row i) (hwf : wf i = true) : ∃ w, encode i = some w ∧ decode w = some i := by
  obtain ⟨B, x, henc, hdec, -, hregs⟩ := h
  refine ⟨_, henc x, ?_⟩
  rw [decode, B.opcField_word, hdec, B.field_word _ x fun o ho => opndOf_opndCode_of_wf hwf (hregs ▸ ho)]

theorem Row.encode_decode {i : Instr} (h : Row i) {w : InstrWord} (hw : decode w = some i) : encode i = some w := by
  obtain ⟨B, x, henc, hdec, hopc, -⟩ := h
  have hc : opcField w = _ := BitVec.eq_of_toNat_eq (Option.some.inj ((opcodeOf_decodeOpc hw).symm.trans hopc))
  have hx := hdec w
  rw [← hc, ← decode, hw, Option.some.injEq] at hx
  rw [hx, henc, ← hc, B.word_field]

end Sys2Proof

open Sys2Proof Sys2Proof.Machine

/-- Settles O2: the word of an instruction's row holds its fields, and the positions of a well-formed one hold no reserved specifier. -/
theorem decodeEncode : Obligations.DecodeEncode := by
  unfold Obligations.DecodeEncode
  exact fun i hwf hopc => (row_of_opcode hopc).decode_encode hwf

/-- Settles O3: the fields of a body, under the opcode of the row, are all bits of the word. -/
theorem encodeDecode : Obligations.EncodeDecode := by
  unfold Obligations.EncodeDecode
  intro w i h
  exact (row_of_opcode (Option.isSome_of_eq_some (opcodeOf_decodeOpc h))).encode_decode h

end

