-- ==== Sys2Proof/Proofs/RegisterFile.lean ====
section
/-! The register file (R148, R149, R151): what a result leaves in the registers of its position, and nowhere else. -/

namespace Sys2Proof.Machine

-- one declaration at a time: a thread for each would be too many
set_option Elab.async false

/-! ### Runs of register writes -/

/-- Values written to a run of lane registers in one lane. -/
theorem vGet_foldl_v (n l : Nat) (f : Nat → Word32) (k : Nat) (a : Agent) (hl : l < 32) {m j : Nat} (hj : j < 32) :
    vGet (((List.range k).map fun i => RegWrite.v (n + i) l (f i)).foldl writeReg a) m j
      = if n ≤ m ∧ m < n + k ∧ j = l then f (m - n) else vGet a m j := by
  induction k with
  | zero => simp [show ¬ (n ≤ m ∧ m < n ∧ j = l) by omega]
  | succ k ih =>
    rw [List.range_succ, List.map_append, List.foldl_append]
    by_cases h : m = n + k ∧ j = l
    · obtain ⟨rfl, rfl⟩ := h
      simp
    · have hne : (n ≤ m ∧ m < n + (k + 1) ∧ j = l) ↔ (n ≤ m ∧ m < n + k ∧ j = l) := by omega
      simp only [List.map_cons, List.map_nil, List.foldl_cons, List.foldl_nil, vGet_write_ne _ _ hl hj h, ih, hne]

/-- Values written to a run of uniform registers. -/
theorem sGet_foldl_s (n : Nat) (f : Nat → Word64) (k : Nat) (a : Agent) (m : Nat) :
    sGet (((List.range k).map fun i => RegWrite.s (n + i) (f i)).foldl writeReg a) m = if n ≤ m ∧ m < n + k then f (m - n) else sGet a m := by
  induction k with
  | zero => simp [show ¬ (n ≤ m ∧ m < n) by omega]
  | succ k ih =>
    rw [List.range_succ, List.map_append, List.foldl_append]
    by_cases h : m = n + k
    · subst h
      simp
    · have hne : (n ≤ m ∧ m < n + (k + 1)) ↔ (n ≤ m ∧ m < n + k) := by omega
      simp only [List.map_cons, List.map_nil, List.foldl_cons, List.foldl_nil, sGet_write_ne _ _ h, ih, hne]

/-! ### Results -/

section
variable (a : Agent) (l x : Nat)

/-- A result of 32, 64 or 128 bits in lane registers: the register at each place of the group holds its 32 bits, in that lane. -/
theorem vGet_result (w : Nat) (hl : l < 32) (n : BitVec 7) {m j : Nat} (hj : j < 32) :
    vGet ((regWrites w (.v n) l x).foldl writeReg a) m j
      = if n.toNat ≤ m ∧ m < n.toNat + w / 32 ∧ j = l then BitVec.ofNat 32 (x / 2 ^ (32 * (m - n.toNat))) else vGet a m j := by
  by_cases h32 : w = 32
  · subst h32
    simpa [regWrites] using vGet_foldl_v n.toNat l (fun i => BitVec.ofNat 32 (x / 2 ^ (32 * i))) 1 a hl hj
  · simpa only [regWrites, if_neg h32] using vGet_foldl_v n.toNat l (fun i => BitVec.ofNat 32 (x / 2 ^ (32 * i))) (w / 32) a hl hj

/-- A result of 64 or 128 bits in uniform registers. -/
theorem sGet_result {w : Nat} (hw : w ≠ 32) (n : BitVec 6) (m : Nat) :
    sGet ((regWrites w (.s n) l x).foldl writeReg a) m
      = if n.toNat ≤ m ∧ m < n.toNat + w / 64 then BitVec.ofNat 64 (x / 2 ^ (64 * (m - n.toNat))) else sGet a m := by
  simpa only [regWrites, if_neg hw] using sGet_foldl_s n.toNat (fun i => BitVec.ofNat 64 (x / 2 ^ (64 * i))) (w / 64) a m

/-! ### Wide values -/

theorem mod_two_pow_64 (x : Nat) : x % 2 ^ 32 + x / 2 ^ 32 % 2 ^ 32 * 2 ^ 32 = x % 2 ^ 64 := by
  rw [show 2 ^ 64 = 2 ^ 32 * 2 ^ 32 by norm_num, Nat.mod_mul, Nat.mul_comm]

theorem mod_two_pow_128 (x : Nat) : x % 2 ^ 64 + x / 2 ^ 64 % 2 ^ 64 * 2 ^ 64 = x % 2 ^ 128 := by
  rw [show 2 ^ 128 = 2 ^ 64 * 2 ^ 64 by norm_num, Nat.mod_mul, Nat.mul_comm]

theorem val64_result_v {w : Nat} (hw : 64 ≤ w) (hl : l < 32) (n : BitVec 7) :
    val64 ((regWrites w (.v n) l x).foldl writeReg a) (.v n) l = x % 2 ^ 64 := by
  simp only [val64, vGet_result a l x w hl n hl]
  simpa [show 0 < w / 32 by omega, show 1 < w / 32 by omega] using mod_two_pow_64 x

theorem val128_result_v (hl : l < 32) (n : BitVec 7) : val128 ((regWrites 128 (.v n) l x).foldl writeReg a) (.v n) l = x % 2 ^ 128 := by
  simp only [val128, val64_result_v a l x (show 64 ≤ 128 by norm_num) hl n, vGet_result a l x 128 hl n hl]
  have h := mod_two_pow_64 (x / 2 ^ 64)
  rw [Nat.div_div_eq_div_mul] at h
  rw [← mod_two_pow_128 x, ← h]
  simp

theorem val128_result_s (n : BitVec 6) : val128 ((regWrites 128 (.s n) l x).foldl writeReg a) (.s n) l = x % 2 ^ 128 := by
  simp only [val128, sGet_result a l x (show 128 ≠ 32 by norm_num) n]
  simpa using mod_two_pow_128 x

end

/-! ### What a result leaves alone -/

/-- What no write of a list changes stays. -/
theorem foldl_writeReg_frame {β : Type} (g : Agent → β) {ws : List RegWrite} (h : ∀ w ∈ ws, ∀ a, g (writeReg a w) = g a) (a : Agent) :
    g (ws.foldl writeReg a) = g a := by
  induction ws generalizing a with
  | nil => rfl
  | cons w ws ih =>
    rw [List.foldl_cons, ih fun u hu => h u (List.mem_cons_of_mem _ hu)]
    exact h w List.mem_cons_self a

theorem mem_regWrites_v {w l x : Nat} {n : BitVec 7} {u : RegWrite} (h : u ∈ regWrites w (.v n) l x) : ∃ m y, u = .v m l y := by
  simp only [regWrites] at h
  split at h
  · exact ⟨_, _, List.mem_singleton.mp h⟩
  · obtain ⟨i, -, rfl⟩ := List.mem_map.mp h
    exact ⟨_, _, rfl⟩

theorem mem_regWrites_s {w l x : Nat} {n : BitVec 6} {u : RegWrite} (h : u ∈ regWrites w (.s n) l x) : ∃ m y, u = .s m y := by
  simp only [regWrites] at h
  split at h
  · exact ⟨_, _, List.mem_singleton.mp h⟩
  · obtain ⟨i, -, rfl⟩ := List.mem_map.mp h
    exact ⟨_, _, rfl⟩

/-- A result in lane registers leaves alone what a write of a lane register does. -/
theorem result_v_frame {β : Type} (g : Agent → β) (hg : ∀ a m l y, g (writeReg a (.v m l y)) = g a) (a : Agent) (w l x : Nat) (n : BitVec 7) :
    g ((regWrites w (.v n) l x).foldl writeReg a) = g a := by
  refine foldl_writeReg_frame g (fun u hu b => ?_) a
  obtain ⟨m, y, rfl⟩ := mem_regWrites_v hu
  exact hg b m l y

theorem result_s_frame {β : Type} (g : Agent → β) (hg : ∀ a m y, g (writeReg a (.s m y)) = g a) (a : Agent) (w l x : Nat) (n : BitVec 6) :
    g ((regWrites w (.s n) l x).foldl writeReg a) = g a := by
  refine foldl_writeReg_frame g (fun u hu b => ?_) a
  obtain ⟨m, y, rfl⟩ := mem_regWrites_s hu
  exact hg b m y

theorem kGet_write_same (a : Agent) (n : Nat) (x : Word32) : kGet (writeReg a (.k n x)) n = x := sget_sset_same 0 a.k n x

theorem kGet_write_ne (a : Agent) (x : Word32) {n m : Nat} (h : m ≠ n) : kGet (writeReg a (.k n x)) m = kGet a m := sget_sset_ne 0 a.k x h

theorem pGet_write_ne (a : Agent) (b : Bool) {n m l j : Nat} (hl : l < 32) (hj : j < 32) (h : ¬ (m = n ∧ j = l)) :
    pGet (writeReg a (.p n l b)) m j = pGet a m j := by
  by_cases hn : n = 0
  · subst hn
    rfl
  · have hkey : laneKey m j ≠ laneKey n l := fun he => h ((laneKey_inj hj hl).mp he)
    simp [pGet, writeReg, hn, sget_sset_ne false a.p b hkey]

end Sys2Proof.Machine

open Sys2Proof Sys2Proof.Machine

/-- Settles O12: a result is a run of writes, whose places read their parts of it and every other place what it held. -/
theorem registerFile : Obligations.RegisterFile := by
  unfold Obligations.RegisterFile
  intro a l x hl
  refine ⟨fun n => ⟨by simp [regWrites], fun m j hj h => (vGet_result a l x 32 hl n hj).trans (if_neg (by omega))⟩,
    fun n => ⟨val64_result_v a l x (le_refl 64) hl n, fun m j hj h => (vGet_result a l x 64 hl n hj).trans (if_neg (by omega))⟩,
    fun n => ⟨val128_result_v a l x hl n, fun m j hj h => (vGet_result a l x 128 hl n hj).trans (if_neg (by omega))⟩,
    fun n w => ⟨result_v_frame (·.s) (fun _ _ _ _ => rfl) a w l x n, result_v_frame (·.p) (fun _ _ _ _ => rfl) a w l x n,
      result_v_frame (·.k) (fun _ _ _ _ => rfl) a w l x n⟩,
    fun n => ⟨sGet_write_same a _ _, by simp [sGet_result],
      fun m h => ⟨sGet_write_ne a _ h, (sGet_result a l x (show 64 ≠ 32 by norm_num) n m).trans (if_neg (by omega))⟩⟩,
    fun n => ⟨val128_result_s a l x n, fun m h h1 => (sGet_result a l x (show 128 ≠ 32 by norm_num) n m).trans (if_neg (by omega))⟩,
    fun n w => ⟨kGet_write_same a _ _, fun m h => kGet_write_ne a _ h, rfl, rfl, rfl⟩,
    fun n w => ⟨result_s_frame (·.v) (fun _ _ _ => rfl) a w l x n, result_s_frame (·.p) (fun _ _ _ => rfl) a w l x n,
      result_s_frame (·.k) (fun _ _ _ => rfl) a w l x n⟩,
    fun w => rfl, fun b => ⟨rfl, rfl⟩, fun n b hn => ⟨pGet_write_same a l b hn, fun m j hj h => pGet_write_ne a b hl hj h⟩⟩

end

