-- ==== Sys2Proof/Proofs/ResultTiming.lean ====
section
/-! Fixed-latency results (R148, R202, R203): what those that are due leave in the registers. -/

namespace Sys2Proof.Machine

-- one declaration at a time: a thread for each would be too many
set_option Elab.async false

/-! ### The register file as one value -/

/-- The lane registers, uniform registers, predicates and rejoin masks of an agent (R148, R151). -/
def Agent.file (a : Agent) : Sparse Word32 × Sparse Word64 × Sparse Bool × Sparse Word32 := (a.v, a.s, a.p, a.k)

theorem file_eq_iff {a b : Agent} : a.file = b.file ↔ a.v = b.v ∧ a.s = b.s ∧ a.p = b.p ∧ a.k = b.k := by
  simp [Agent.file]

/-- What a write leaves in the registers depends on nothing else of the agent. -/
theorem file_writeReg_congr {a b : Agent} (h : a.file = b.file) (w : RegWrite) : (writeReg a w).file = (writeReg b w).file := by
  obtain ⟨hv, hs, hp, hk⟩ := file_eq_iff.mp h
  cases w with
  | p n l x => by_cases hn : n = 0 <;> simp [writeReg, Agent.file, hn, hv, hs, hp, hk]
  | _ => simp [writeReg, Agent.file, hv, hs, hp, hk]

theorem file_foldl_congr {a b : Agent} (h : a.file = b.file) (ws : List RegWrite) :
    (ws.foldl writeReg a).file = (ws.foldl writeReg b).file := by
  induction ws generalizing a b with
  | nil => exact h
  | cons w ws ih => exact ih (file_writeReg_congr h w)

/-- A flag that an instruction sets is in no register of the file (R158, R160). -/
theorem file_writeReg_flag {w : RegWrite} (h : isFlag w = true) (a : Agent) : (writeReg a w).file = a.file := by
  cases w with
  | fpstat f => rfl
  | hit m => rfl
  | accsat => rfl
  | _ => cases h

/-- The registers are the same whether flags are written or left out. -/
theorem file_foldl_filter (ws : List RegWrite) (a : Agent) :
    ((ws.filter fun w => !isFlag w).foldl writeReg a).file = (ws.foldl writeReg a).file := by
  induction ws generalizing a with
  | nil => rfl
  | cons w ws ih =>
    cases hw : isFlag w with
    | false => simpa [List.filter_cons, hw] using ih (writeReg a w)
    | true => simpa [List.filter_cons, hw] using (ih a).trans (file_foldl_congr (file_writeReg_flag hw a).symm ws)

/-! ### Effects applied -/

section
variable {s : State} {k : AgentKey} {a : Agent}

/-- An agent updated under its key. -/
theorem agentOf_updAgent_of (h : agentOf s k = some a) {f : Agent → Agent} (hf : ∀ a, (f a).key = a.key) :
    agentOf (updAgent s k f) k = some (f a) := by
  rw [agentOf_updAgent_same s k f hf, h]
  rfl

theorem agentOf_writeSpecial (h : agentOf s k = some a) (n : Nat) (x : Word64) :
    ∃ b, agentOf (writeSpecial s k n x) k = some b ∧ b.file = a.file := by
  have hupd : ∀ f : Agent → Agent, (∀ a, (f a).key = a.key) → (f a).file = a.file →
      ∃ b, agentOf (updAgent s k f) k = some b ∧ b.file = a.file :=
    fun f hkey hfile => ⟨f a, agentOf_updAgent_of h hkey, hfile⟩
  unfold writeSpecial
  split_ifs
  · exact ⟨a, h, rfl⟩
  · exact hupd _ (fun _ => rfl) rfl
  · exact hupd _ (fun _ => rfl) rfl
  · exact hupd _ (fun _ => rfl) rfl
  · exact ⟨a, h, rfl⟩
  · exact ⟨a, h, rfl⟩

theorem releaseWaitj_keeps (a : Agent) (k : BitVec 3) : (releaseWaitj a k).key = a.key ∧ (releaseWaitj a k).file = a.file := by
  obtain ⟨lanes, lpc, hr⟩ := releaseWaitj_frame a k
  rw [hr]
  exact ⟨rfl, rfl⟩

/-- An effect of a result leaves in the registers what its write does. -/
theorem agentOf_applyWrite (h : agentOf s k = some a) (w : RegWrite) :
    ∃ b, agentOf (applyWrite s k w) k = some b ∧ b.file = (writeReg a w).file := by
  have plain : agentOf (updAgent s k fun a => writeReg a w) k = some (writeReg a w) := agentOf_updAgent_of h fun a => write_key a w
  cases w with
  | hit m => exact ⟨a, h, rfl⟩
  | special n x => exact agentOf_writeSpecial h n x
  | k n x => exact ⟨_, agentOf_updAgent_of h fun a => (releaseWaitj_keeps _ _).1, (releaseWaitj_keeps _ _).2⟩
  | v n l x => exact ⟨_, plain, rfl⟩
  | s n x => exact ⟨_, plain, rfl⟩
  | p n l x => exact ⟨_, plain, rfl⟩
  | fpstat f => exact ⟨_, plain, rfl⟩
  | accsat => exact ⟨_, plain, rfl⟩
  | vPoison n l sub => exact ⟨_, plain, rfl⟩
  | sPoison n sub => exact ⟨_, plain, rfl⟩

theorem agentOf_applyWrites (h : agentOf s k = some a) (ws : List RegWrite) :
    ∃ b, agentOf (applyWrites s k ws) k = some b ∧ b.file = (ws.foldl writeReg a).file := by
  induction ws generalizing s a with
  | nil => exact ⟨a, h, rfl⟩
  | cons w ws ih =>
    obtain ⟨b, hb, hfile⟩ := agentOf_applyWrite h w
    obtain ⟨d, hd, hrest⟩ := ih hb
    exact ⟨d, hd, hrest.trans (file_foldl_congr hfile ws)⟩

/-- An agent without its results that are due by a cycle. -/
def dropDue (cycle : Nat) (a : Agent) : Agent := { a with pend := a.pend.filter fun p => cycle < p.due }

/-- Once its due results have landed, an agent's registers hold what their writes leave in issue order, though the flags land last, and the
later results stay (R203). -/
theorem agentOf_landDue (h : agentOf s k = some a) (cycle : Nat) :
    ∃ b, agentOf (landDue s k cycle) k = some b ∧ b.pend = a.pend.filter (fun p => cycle < p.due)
      ∧ b.file = (((a.pend.filter fun p => p.due ≤ cycle).flatMap (·.writes)).foldl writeReg a).file := by
  have hws : dueWrites s k cycle = (a.pend.filter fun p => p.due ≤ cycle).flatMap (·.writes) := by simp [dueWrites, h]
  obtain ⟨b, hb, hfile⟩ := agentOf_applyWrites (agentOf_updAgent_of (f := dropDue cycle) h fun _ => rfl)
    ((dueWrites s k cycle).filter fun w => !isFlag w)
  obtain ⟨d, hd, hflags⟩ := agentOf_applyWrites hb ((dueWrites s k cycle).filter isFlag)
  have hland : agentOf (landDue s k cycle) k = some d := hd
  refine ⟨d, hland, ?_, ?_⟩
  · obtain ⟨-, hpend⟩ := landAll_pend s [k] cycle
    have hp := hpend k List.mem_cons_self
    rw [← landDue, hland, h] at hp
    exact Option.some.inj hp
  · calc d.file
      _ = (((dueWrites s k cycle).filter isFlag).foldl writeReg b).file := hflags
      _ = b.file := foldl_writeReg_frame Agent.file (fun w hw => file_writeReg_flag (List.of_mem_filter hw)) b
      _ = _ := hfile
      _ = ((dueWrites s k cycle).foldl writeReg (dropDue cycle a)).file := file_foldl_filter _ _
      _ = _ := by rw [hws]; exact file_foldl_congr (a := dropDue cycle a) (b := a) rfl _

end

/-! ### The last write of a register -/

/-- A register reads the last value that a list of writes puts there, or its old one if there is none. -/
theorem read_foldl_writeReg {α : Type} (g : Agent → α) (m : RegWrite → Option α) (h : ∀ a w, g (writeReg a w) = (m w).getD (g a))
    (ws : List RegWrite) (a : Agent) : g (ws.foldl writeReg a) = (ws.reverse.findSome? m).getD (g a) := by
  induction ws generalizing a with
  | nil => rfl
  | cons w ws ih =>
    rw [List.foldl_cons, ih, h, List.reverse_cons, List.findSome?_append]
    cases ws.reverse.findSome? m <;> cases hw : m w <;> simp [hw]

theorem sget_sset_getD {V : Type} [DecidableEq V] (d : V) (m : Sparse V) (k : Nat) (v : V) (j : Nat) :
    sget d (sset d m k v) j = (if k = j then some v else none).getD (sget d m j) := by
  rw [sget_sset]
  by_cases h : k = j
  · simp [h]
  · simp [h, Ne.symm h]

/-- What a write puts into a lane register in a lane. -/
def vPut (n l : Nat) : RegWrite → Option Word32
  | .v m j x => if laneKey m j = laneKey n l then some x else none
  | _ => none

/-- What a write puts into a uniform register. -/
def sPut (n : Nat) : RegWrite → Option Word64
  | .s m x => if m = n then some x else none
  | _ => none

/-- What a write puts into a predicate other than p0 in a lane. -/
def pPut (n l : Nat) : RegWrite → Option Bool
  | .p m j x => if m ≠ 0 ∧ laneKey m j = laneKey n l then some x else none
  | _ => none

/-- What a write puts into a rejoin mask. -/
def kPut (n : Nat) : RegWrite → Option Word32
  | .k m x => if m = n then some x else none
  | _ => none

/-- A write of a predicate is in no other kind of register. -/
theorem write_p_frame (a : Agent) (n l : Nat) (b : Bool) :
    (writeReg a (.p n l b)).v = a.v ∧ (writeReg a (.p n l b)).s = a.s ∧ (writeReg a (.p n l b)).k = a.k := by
  by_cases h : n = 0 <;> simp [writeReg, h]

theorem vGet_writeReg (n l : Nat) (a : Agent) (w : RegWrite) : vGet (writeReg a w) n l = (vPut n l w).getD (vGet a n l) := by
  cases w with
  | v m j x => exact sget_sset_getD 0 a.v (laneKey m j) x (laneKey n l)
  | p m j x =>
    obtain ⟨hv, -, -⟩ := write_p_frame a m j x
    exact congrArg (sget 0 · (laneKey n l)) hv
  | _ => rfl

theorem sGet_writeReg (n : Nat) (a : Agent) (w : RegWrite) : sGet (writeReg a w) n = (sPut n w).getD (sGet a n) := by
  cases w with
  | s m x => exact sget_sset_getD 0 a.s m x n
  | p m j x =>
    obtain ⟨-, hs, -⟩ := write_p_frame a m j x
    exact congrArg (sget 0 · n) hs
  | _ => rfl

theorem pGet_writeReg {n : Nat} (hn : n ≠ 0) (l : Nat) (a : Agent) (w : RegWrite) : pGet (writeReg a w) n l = (pPut n l w).getD (pGet a n l) := by
  cases w with
  | p m j x =>
    by_cases hm : m = 0
    · simp [hm, pPut]
    · have hz : (n == 0) = false := beq_eq_false_iff_ne.mpr hn
      simp [pGet, hz, writeReg, hm, pPut, sget_sset_getD]
  | _ => rfl

theorem kGet_writeReg (n : Nat) (a : Agent) (w : RegWrite) : kGet (writeReg a w) n = (kPut n w).getD (kGet a n) := by
  cases w with
  | k m x => exact sget_sset_getD 0 a.k m x n
  | p m j x =>
    obtain ⟨-, -, hk⟩ := write_p_frame a m j x
    exact congrArg (sget 0 · n) hk
  | _ => rfl

end Sys2Proof.Machine

open Sys2Proof Sys2Proof.Machine

/-- Settles O10: the landing of the due results is their writes in issue order, so each register holds the last of its own. -/
theorem resultTiming : Obligations.ResultTiming := by
  unfold Obligations.ResultTiming
  refine ⟨fun c lat ws a ha hws => by rw [agentOf_pend c lat hws, ha]; rfl, fun s k c a ha => ?_⟩
  obtain ⟨b, hb, hpend, hfile⟩ := agentOf_landDue ha c
  obtain ⟨hv, hs, hp, hk⟩ := file_eq_iff.mp hfile
  refine ⟨b, hb, hpend, fun n l => ?_, fun n => ?_, fun n l hn => ?_, fun l => rfl, fun n => ?_⟩
  · exact (congrArg (sget 0 · (laneKey n l)) hv).trans (read_foldl_writeReg (vGet · n l) (vPut n l) (vGet_writeReg n l) _ a)
  · exact (congrArg (sget 0 · n) hs).trans (read_foldl_writeReg (sGet · n) (sPut n) (sGet_writeReg n) _ a)
  · exact (congrArg (n == 0 || sget false · (laneKey n l)) hp).trans (read_foldl_writeReg (pGet · n l) (pPut n l) (pGet_writeReg hn l) _ a)
  · exact (congrArg (sget 0 · n) hk).trans (read_foldl_writeReg (kGet · n) (kPut n) (kGet_writeReg n) _ a)

end

