-- ==== Sys2Proof/Proofs/LaneControl.lean ====
section
/-! WAITJ, EXIT, YIELD and SAFE at their issue (R151, R208, R312 to R315). -/

namespace Sys2Proof.Machine

-- one declaration at a time: a thread for each would be too many
set_option Elab.async false

section
variable {x : F3} {s : State} {c : Iss}

theorem execWaitj_goes {k : BitVec 3} (hk : x.a = .k k) (hc : turnOf (.waitj x) x.h s = .goes c) :
    execWaitj x s = .next (updAgent (parkLanes c.s c.a.key c.ex c.pc (.waitj k)) c.a.key fun a => releaseWaitj a k) := by
  simp only [execWaitj, issue_goes _ hc, hk, result_ok]

theorem execExit_goes (hc : turnOf (.exit x) x.h s = .goes c) : execExit x s = .next (exitLanes c.s c.a.key c.act) := by
  simp only [execExit, issue_goes _ hc, result_ok]

theorem execYield_active (hc : turnOf (.yield x) x.h s = .goes c) (hact : c.act ≠ []) :
    execYield x s = .next (updAgent c.s c.a.key fun a => { a with yielded := maskOf c.ex, gaveWay := true }) := by
  simp only [execYield, issue_goes _ hc, List.isEmpty_eq_false_iff.mpr hact, Bool.false_eq_true, if_false, Iss.upd, result_ok]

theorem execYield_inactive (hc : turnOf (.yield x) x.h s = .goes c) (hact : c.act = []) : execYield x s = .next c.s := by
  simp only [execYield, issue_goes _ hc, hact, List.isEmpty_nil, if_true, result_ok]

/-- SAFE goes past once nothing is outstanding, in flight or deferred (R208). -/
theorem execSafe_passes (hc : turnOf (.safe x) x.h s = .goes c) (hidx : fld x.imm 11 0 < c.t.hdr.liveCount)
    (hout : outstanding c.s0 c.a c.t.core = false) (hpend : c.a.pend = []) (hdef : deliver c.s0 c.a.key = none) :
    execSafe x s = .next (updAgent c.s c.a.key fun a =>
      { a with issueCount := 0, hold := if parksAtSafe c.s c.g (isLadle c.a.key) then some (.safePark (fld x.imm 11 0)) else a.hold }) := by
  simp only [execSafe, issue_goes _ hc, Nat.not_le.mpr hidx, hout, hpend, hdef, List.isEmpty_nil, Bool.not_true, Bool.false_eq_true, if_false,
    Iss.upd, result_ok]

theorem execSafe_illegal (hc : turnOf (.safe x) x.h s = .goes c) (hidx : c.t.hdr.liveCount ≤ fld x.imm 11 0) :
    execSafe x s = c.raised 1 0 (maskOf c.ex) := by
  simp only [execSafe, issue_goes _ hc, hidx, if_true, illegal_result]

end

end Sys2Proof.Machine

open Sys2Proof Sys2Proof.Machine

/-- Settles O21: what each of WAITJ, EXIT, YIELD and SAFE does in each of its cases. -/
theorem laneControlComplete : Obligations.LaneControlComplete := by
  unfold Obligations.LaneControlComplete
  exact fun x => ⟨fun k hk s c hc => execWaitj_goes hk hc, fun s c hc => execExit_goes hc, fun s c hc hact => execYield_active hc hact,
    fun s c hc hact => execYield_inactive hc hact,
    fun s c hc ⟨hidx, hout, hpend, hdef⟩ => execSafe_passes hc hidx hout hpend hdef, fun s c hc hidx => execSafe_illegal hc hidx⟩

end

