-- ==== Sys2Proof/Proofs/FloatCodes.lean ====
section
/-! Codes of a float format as exact values, and values that a format represents (R165 to R168, R173, R186). -/

namespace Sys2Proof.Machine

-- one declaration at a time: a thread for each would be too many
set_option Elab.async false

/-! ### A code and its fields -/

/-- Exponent field of a code. -/
def exponentOf (f : Fmt) (c : Nat) : Nat := (c >>> f.mb) % 2 ^ f.eb

/-- Mantissa field of a code. -/
def mantissaOf (f : Fmt) (c : Nat) : Nat := c % 2 ^ f.mb

/-- Sign of a code. -/
def signOf (f : Fmt) (c : Nat) : Bool := c.testBit (f.eb + f.mb)

/-- The finite value of an exponent and a mantissa field. -/
def finiteOf (f : Fmt) (neg : Bool) (ex m : Nat) : FVal :=
  if ex = 0 then .fin neg m f.qmin else .fin neg (m + 2 ^ f.mb) (f.qmin + (ex : Int) - 1)

theorem exponentOf_lt (f : Fmt) (c : Nat) : exponentOf f c < 2 ^ f.eb := Nat.mod_lt _ (by positivity)

theorem mantissaOf_lt (f : Fmt) (c : Nat) : mantissaOf f c < 2 ^ f.mb := Nat.mod_lt _ (by positivity)

/-- The magnitude of a code is its exponent field above its mantissa field. -/
theorem magnitude_eq (f : Fmt) (c : Nat) : c % f.signBit = exponentOf f c * 2 ^ f.mb + mantissaOf f c := by
  rw [Fmt.signBit, Nat.add_comm f.eb, pow_add, Nat.mod_mul, exponentOf, mantissaOf, Nat.shiftRight_eq_div_pow]
  ring

/-- A code is its sign above its magnitude. -/
theorem signed_fields {f : Fmt} {c : Nat} (hc : c < 2 ^ f.width) :
    signed f (signOf f c) (exponentOf f c * 2 ^ f.mb + mantissaOf f c) = c := by
  have hw : 2 ^ f.width = 2 * f.signBit := by rw [Fmt.width, Fmt.signBit, Nat.add_assoc, Nat.add_comm, pow_succ, Nat.mul_comm]
  have hdiv : c / f.signBit = (signOf f c).toNat := by
    rw [signOf, Nat.toNat_testBit, ← Fmt.signBit, Nat.mod_eq_of_lt (Nat.div_lt_of_lt_mul (by omega))]
  have hsum := Nat.div_add_mod c f.signBit
  rw [hdiv, magnitude_eq] at hsum
  cases hs : signOf f c <;> simpa [signed, hs] using hsum

/-! ### What a code decodes to -/

/-- A magnitude up to the largest finite one keeps below the sign bit. -/
theorem maxCode_lt_signBit (f : Fmt) : f.maxCode < f.signBit := by
  have hpos : 0 < 2 ^ f.eb * 2 ^ f.mb := by positivity
  rw [Fmt.maxCode, Fmt.signBit, pow_add]
  cases f.sp <;> simp only [Nat.sub_mul] <;> omega

section
variable {f : Fmt} {c : Nat}

theorem decodeF_ieee (hsp : f.sp = .ieee) : decodeF f c =
    if exponentOf f c = 2 ^ f.eb - 1 then (if mantissaOf f c = 0 then .inf (signOf f c) else .nan)
    else finiteOf f (signOf f c) (exponentOf f c) (mantissaOf f c) := by
  simp only [decodeF, hsp]
  rfl

theorem decodeF_nanOnly (hsp : f.sp = .nanOnly) : decodeF f c =
    if c % f.signBit = f.nanCode then .nan else finiteOf f (signOf f c) (exponentOf f c) (mantissaOf f c) := by
  simp only [decodeF, hsp]
  rfl

theorem decodeF_finite (hsp : f.sp = .finite) : decodeF f c = finiteOf f (signOf f c) (exponentOf f c) (mantissaOf f c) := by
  simp only [decodeF, hsp]
  rfl

/-- A code that is no NaN is an infinity of a format that has them, or a finite value whose magnitude is at most the largest. -/
theorem decodeF_cases (hnan : decodeF f c ≠ .nan) :
    (f.sp = .ieee ∧ decodeF f c = .inf (signOf f c) ∧ exponentOf f c * 2 ^ f.mb + mantissaOf f c = f.infCode)
    ∨ (decodeF f c = finiteOf f (signOf f c) (exponentOf f c) (mantissaOf f c) ∧ exponentOf f c * 2 ^ f.mb + mantissaOf f c ≤ f.maxCode) := by
  have hex := exponentOf_lt f c
  have hm := mantissaOf_lt f c
  have hmag : exponentOf f c * 2 ^ f.mb + mantissaOf f c < 2 ^ (f.eb + f.mb) :=
    magnitude_eq f c ▸ Nat.mod_lt _ (by simp [Fmt.signBit])
  cases hsp : f.sp with
  | ieee =>
    rw [decodeF_ieee hsp] at hnan ⊢
    by_cases hinf : exponentOf f c = 2 ^ f.eb - 1
    · have hz : mantissaOf f c = 0 := by
        by_contra hne
        simp [hinf, hne] at hnan
      exact .inl ⟨rfl, by rw [if_pos hinf, if_pos hz], by rw [hinf, hz, Nat.add_zero, Fmt.infCode]⟩
    · refine .inr ⟨if_neg hinf, ?_⟩
      have hle : (exponentOf f c + 1) * 2 ^ f.mb ≤ (2 ^ f.eb - 1) * 2 ^ f.mb := Nat.mul_le_mul_right _ (by omega)
      rw [Nat.succ_mul] at hle
      simp only [Fmt.maxCode, hsp]
      omega
  | nanOnly =>
    rw [decodeF_nanOnly hsp, magnitude_eq] at hnan ⊢
    have htop : exponentOf f c * 2 ^ f.mb + mantissaOf f c ≠ f.nanCode := fun h => hnan (if_pos h)
    refine .inr ⟨if_neg htop, ?_⟩
    simp only [Fmt.nanCode, hsp] at htop
    simp only [Fmt.maxCode, hsp]
    omega
  | finite =>
    refine .inr ⟨decodeF_finite hsp, ?_⟩
    simp only [Fmt.maxCode, hsp]
    omega

end

/-! ### Values that a format represents -/

/-- Below the hidden bit the multiple is the code (R165). -/
theorem codeOf_subnormal {f : Fmt} {m : Nat} (q : Int) (hm : m < 2 ^ f.mb) : codeOf f m q = m := by rw [codeOf, if_pos hm]

/-- Above the hidden bit the exponent field comes from the last bit (R165). -/
theorem codeOf_normal {f : Fmt} {ex m : Nat} (hex : ex ≠ 0) (hm : m < 2 ^ f.mb) :
    codeOf f (m + 2 ^ f.mb) (f.qmin + (ex : Int) - 1) = ex * 2 ^ f.mb + m := by
  have htop : m + 2 ^ f.mb ≠ 2 ^ (f.mb + 1) := by rw [pow_succ]; omega
  have hq : (f.qmin + (ex : Int) - 1 - f.qmin).toNat + 1 = ex := by omega
  simp only [codeOf, Nat.not_lt.mpr (Nat.le_add_left _ _), if_false, htop, hq, Nat.add_sub_cancel]

theorem roundAt_exact (mode : Rnd) (neg : Bool) (m : Nat) (e : Int) : roundAt mode neg m e e = (m, false) := by
  simp [roundAt]

/-- A value whose last bit is the last bit that the format keeps is rounded to itself. -/
theorem roundPrec_exact {f : Fmt} (mode : Rnd) (neg : Bool) {m : Nat} {e : Int} (hq : max (leadExp m e - f.mb) f.qmin = e) :
    ∃ tiny, roundPrec f mode neg m e = (m, e, false, tiny) := by
  simp only [roundPrec, hq, roundAt_exact]
  exact ⟨_, rfl⟩

/-- A value that a format represents, with a code up to the largest finite one, is converted to that code without a flag. -/
theorem toFloat_exact {f : Fmt} (mode : Rnd) (sat neg : Bool) {m : Nat} {e : Int} (hm : m ≠ 0) (hq : max (leadExp m e - f.mb) f.qmin = e)
    (hlead : leadExp m e ≤ 2 * (f.bias : Int) + 2) (hmax : codeOf f m e ≤ f.maxCode) :
    toFloat f mode sat (.fin neg m e) = (signed f neg (codeOf f m e), 0) := by
  obtain ⟨tiny, hround⟩ := roundPrec_exact mode neg hq
  simp [toFloat, hm, Int.not_lt.mpr hlead, hround, Nat.not_lt.mpr hmax]

/-- The bias fills the exponent field but for its top bit (R165). -/
theorem two_pow_eb_eq_bias {f : Fmt} (heb : f.eb ≠ 0) : 2 ^ f.eb = 2 * f.bias + 2 := by
  have hpos : 0 < 2 ^ (f.eb - 1) := by positivity
  have h := Nat.two_pow_pred_add_two_pow_pred (Nat.pos_of_ne_zero heb)
  rw [Fmt.bias]
  omega

/-- The fields of a finite value give its code back, under every mode and without a flag. -/
theorem toFloat_finiteOf {f : Fmt} (heb : f.eb ≠ 0) (mode : Rnd) (neg : Bool) {ex m : Nat} (hm : m < 2 ^ f.mb)
    (hmax : ex * 2 ^ f.mb + m ≤ f.maxCode) : toFloat f mode false (finiteOf f neg ex m) = (signed f neg (ex * 2 ^ f.mb + m), 0) := by
  have hqmin : f.qmin = 1 - (f.bias : Int) - f.mb := rfl
  by_cases hex : ex = 0
  · subst hex
    rw [finiteOf, if_pos rfl, Nat.zero_mul, Nat.zero_add]
    by_cases hz : m = 0
    · simp [toFloat, hz]
    · have hlog : Nat.log2 m < f.mb := (Nat.log2_lt hz).mpr hm
      have h := toFloat_exact (f := f) mode false neg (e := f.qmin) hz (by rw [leadExp]; omega) (by rw [leadExp]; omega)
        (by rw [codeOf_subnormal _ hm]; omega)
      rwa [codeOf_subnormal _ hm] at h
  · rw [finiteOf, if_neg hex]
    have hne : m + 2 ^ f.mb ≠ 0 := by positivity
    have hlog : Nat.log2 (m + 2 ^ f.mb) = f.mb := (Nat.log2_eq_iff hne).mpr ⟨by omega, by rw [pow_succ]; omega⟩
    have hlt : ex < 2 ^ f.eb := by
      have hs := maxCode_lt_signBit f
      rw [Fmt.signBit, pow_add] at hs
      exact Nat.lt_of_mul_lt_mul_right (Nat.lt_of_le_of_lt (Nat.le_of_add_right_le hmax) hs)
    have hbias := two_pow_eb_eq_bias heb
    have h := toFloat_exact (f := f) mode false neg (e := f.qmin + (ex : Int) - 1) hne (by rw [leadExp, hlog]; omega)
      (by rw [leadExp, hlog]; omega) (by rwa [codeOf_normal hex hm])
    rwa [codeOf_normal hex hm] at h

/-- The value of a code that is no NaN is converted to that code without a flag, in every format with an exponent field. -/
theorem toFloat_decodeF {f : Fmt} (heb : f.eb ≠ 0) (mode : Rnd) {c : Nat} (hc : c < 2 ^ f.width) (hnan : decodeF f c ≠ .nan) :
    toFloat f mode false (decodeF f c) = (c, 0) := by
  rcases decodeF_cases hnan with ⟨hsp, hinf, hcode⟩ | ⟨hfin, hmax⟩
  · rw [hinf]
    simp only [toFloat, hsp, decide_true, Bool.not_false, Bool.and_self, if_true]
    rw [← hcode, signed_fields hc]
  · rw [hfin, toFloat_finiteOf heb mode _ (mantissaOf_lt f c) hmax, signed_fields hc]

end Sys2Proof.Machine

open Sys2Proof Sys2Proof.Machine

/-- Settles O58: each of the nine formats has an exponent field, so the value of a code is converted to the code's own fields. -/
theorem floatCodes : Obligations.FloatCodes := by
  unfold Obligations.FloatCodes
  intro f mode code hf hcode hnan
  have heb : f.eb ≠ 0 := by
    simp only [List.mem_cons, List.not_mem_nil, or_false] at hf
    rcases hf with rfl | rfl | rfl | rfl | rfl | rfl | rfl | rfl | rfl <;> decide
  exact toFloat_decodeF heb mode hcode hnan

end

