-- ==== Sys2Proof/Proofs/Conversions.lean ====
section
/-! Conversions, packing and BOUND at their issue (R169, R176, R275 to R281). -/

namespace Sys2Proof.Machine

-- one declaration at a time: a thread for each would be too many
set_option Elab.async false

/-! ### A conversion in each lane -/

theorem format_result (c : Iss) : c.format.result c.a.key = c.raised 12 0 (maskOf c.ex) := rfl

section
variable {c : Iss} {i : Instr} {d : Opnd} {w lat : Nat} {f : Nat → Option (Nat × FFlags × Nat)}

/-- Where every lane's element is a value, each lane is converted. -/
theorem convertLanes_of_values {g : Nat → Nat × FFlags × Nat} (h : ∀ l ∈ c.evalLanes i d, f l = some (g l)) :
    c.convertLanes i d w lat f = .ok (c.converted d w lat ((c.evalLanes i d).map fun l => (l, g l))) := by
  have hbad : ((c.evalLanes i d).filter fun l => (f l).isNone) = [] := List.filter_eq_nil_iff.mpr fun l hl => by simp [h l hl]
  have hrs : ((c.evalLanes i d).filterMap fun l => (f l).map fun r => (l, r)) = (c.evalLanes i d).map fun l => (l, g l) :=
    (List.filterMap_congr fun l hl => by rw [h l hl, Option.map_some]).trans (congrFun List.filterMap_eq_map' _)
  simp only [Iss.convertLanes, hbad, hrs, List.isEmpty_nil, Bool.not_true, Bool.false_eq_true, if_false, Iss.converted]

/-- The lanes whose element is no value raise the format fault (R176). -/
theorem convertLanes_of_bad {ls : List Nat} (hls : ((c.evalLanes i d).filter fun l => (f l).isNone) = ls) (hne : ls ≠ []) :
    c.convertLanes i d w lat f = c.fault 12 0 (maskOf ls) := by
  simp only [Iss.convertLanes, hls, List.isEmpty_eq_false_iff.mpr hne, Bool.not_false, if_true]

end

/-! ### FCVT (R277) -/

@[simp] theorem dpTaken_t (c : Iss) : c.dpTaken.t = c.t := by
  unfold Iss.dpTaken; split <;> rfl

@[simp] theorem dpTaken_a (c : Iss) : c.dpTaken.a = c.a := by
  unfold Iss.dpTaken; split <;> rfl

@[simp] theorem dpTaken_val (c : Iss) (w : Nat) (o : Opnd) (l : Nat) : c.dpTaken.val w o l = c.val w o l := by
  unfold Iss.dpTaken; split <;> rfl

@[simp] theorem dpTaken_evalLanes (c : Iss) (i : Instr) (d : Opnd) : c.dpTaken.evalLanes i d = c.evalLanes i d := by
  unfold Iss.dpTaken; split <;> rfl

/-- What FCVT gives in a lane: code, flags and rounding counter. -/
def fcvtLane (c : Iss) (x : F3) (df sf : Fmt) (l : Nat) : Nat × FFlags × Nat :=
  let a := c.val (if fld x.imm 15 8 = 32 then 64 else 32) x.a l % 2 ^ sf.width
  let r := convertElem c.t c.a x.h l (roundCounter c.a l) (.flt df) (bit x.h.mod 3 && !widens df sf) (decodeF sf a)
  (r.1, r.2.1 ||| (if isSnan sf a then fInvalid else 0), r.2.2)

/-- The state after FCVT: a 64-bit result of a binary64 target, and 16 cycles where binary64 takes part. -/
def fcvtState (c : Iss) (x : F3) (df sf : Fmt) : State :=
  c.converted x.d (if fld x.imm 7 0 = 32 then 64 else 32) (if fld x.imm 7 0 = 32 ∨ fld x.imm 15 8 = 32 then 16 else 4)
    ((c.evalLanes (.fcvt x) x.d).map fun l => (l, fcvtLane c x df sf l))

/-- A code of a float type is always a value. -/
theorem fcvt_eq (c : Iss) (x : F3) (df sf : Fmt) : c.fcvt x (fld x.imm 7 0) (fld x.imm 15 8) df sf = .ok (fcvtState c x df sf) :=
  convertLanes_of_values fun _ _ => rfl

/-- The FP64 lanes taken change nothing that a conversion reads. -/
theorem fcvtState_dpTaken (c : Iss) (x : F3) (df sf : Fmt) : fcvtState c.dpTaken x df sf =
    c.dpTaken.converted x.d (if fld x.imm 7 0 = 32 then 64 else 32) (if fld x.imm 7 0 = 32 ∨ fld x.imm 15 8 = 32 then 16 else 4)
      ((c.evalLanes (.fcvt x) x.d).map fun l => (l, fcvtLane c x df sf l)) := by
  simp only [fcvtState, fcvtLane, dpTaken_t, dpTaken_a, dpTaken_val, dpTaken_evalLanes]

section
variable {x : F3} {s : State} {c : Iss}

section
variable {df sf : Fmt} (hc : turnOf (.fcvt x) x.h s = .goes c) (hd : ntypeOf (fld x.imm 7 0) = some (.flt df))
  (hs : ntypeOf (fld x.imm 15 8) = some (.flt sf))
include hc hd hs

theorem execFcvt_single (hdp : ¬ (fld x.imm 7 0 = 32 ∨ fld x.imm 15 8 = 32)) : execFcvt x s = .next (fcvtState c x df sf) := by
  simp only [execFcvt, issue_goes _ hc, hd, hs, if_neg hdp, fcvt_eq, result_ok]

theorem execFcvt_double (hdp : fld x.imm 7 0 = 32 ∨ fld x.imm 15 8 = 32) (hfree : c.dpFree = true) :
    execFcvt x s = .next (fcvtState c.dpTaken x df sf) := by
  simp only [execFcvt, issue_goes _ hc, hd, hs, if_pos hdp, Iss.onDp, hfree, if_true, fcvt_eq, result_ok]

theorem execFcvt_lacking (hdp : fld x.imm 7 0 = 32 ∨ fld x.imm 15 8 = 32) (hbusy : c.dpFree = false) : execFcvt x s = .next c.lacking := by
  simp only [execFcvt, issue_goes _ hc, hd, hs, if_pos hdp, Iss.onDp, hbusy, Bool.false_eq_true, if_false]
  rfl

end

theorem execFcvt_format (hc : turnOf (.fcvt x) x.h s = .goes c)
    (hno : ¬ ∃ df sf, ntypeOf (fld x.imm 7 0) = some (.flt df) ∧ ntypeOf (fld x.imm 15 8) = some (.flt sf)) :
    execFcvt x s = c.raised 12 0 (maskOf c.ex) := by
  simp only [execFcvt, issue_goes _ hc]
  split
  · rename_i df sf hd hs
    exact absurd ⟨df, sf, hd, hs⟩ hno
  · exact format_result c

/-! ### ICVT (R278) -/

section
variable {d t : NType} (hc : turnOf (.icvt x) x.h s = .goes c) (hd : ntypeIn c.t.hdr.version (fld x.imm 7 0) = some d)
  (ht : ntypeIn c.t.hdr.version (fld x.imm 15 8) = some t) (hpair : icvtPair (fld x.imm 7 0) (fld x.imm 15 8) d t = true)
include hc hd ht hpair

theorem execIcvt_values {vs : Nat → FVal × FFlags} (hvs : ∀ l ∈ c.evalLanes (.icvt x) x.d, sourceValue t (c.val 32 x.a l) = some (vs l)) :
    execIcvt x s = .next (c.converted x.d 32 4 ((c.evalLanes (.icvt x) x.d).map fun l =>
      let r := convertElem c.t c.a x.h l (roundCounter c.a l) d (bit x.h.mod 3) (vs l).1
      (l, r.1, r.2.1 ||| (vs l).2, r.2.2))) := by
  simp only [execIcvt, issue_goes _ hc, hd, ht, hpair, if_true]
  rw [convertLanes_of_values fun l hl => by rw [hvs l hl, Option.map_some], result_ok]

theorem execIcvt_bad (hbad : ((c.evalLanes (.icvt x) x.d).filter fun l => (sourceValue t (c.val 32 x.a l)).isNone) ≠ []) :
    execIcvt x s = c.raised 12 0 (maskOf ((c.evalLanes (.icvt x) x.d).filter fun l => (sourceValue t (c.val 32 x.a l)).isNone)) := by
  simp only [execIcvt, issue_goes _ hc, hd, ht, hpair, if_true]
  rw [convertLanes_of_bad (by simp only [Option.isNone_map]) hbad]
  rfl

end

theorem execIcvt_format (hc : turnOf (.icvt x) x.h s = .goes c)
    (hno : ¬ ∃ d t, ntypeIn c.t.hdr.version (fld x.imm 7 0) = some d ∧ ntypeIn c.t.hdr.version (fld x.imm 15 8) = some t
      ∧ icvtPair (fld x.imm 7 0) (fld x.imm 15 8) d t = true) : execIcvt x s = c.raised 12 0 (maskOf c.ex) := by
  simp only [execIcvt, issue_goes _ hc]
  split
  · rename_i d t hd ht
    rw [if_neg fun hpair => hno ⟨d, t, hd, ht, hpair⟩]
    exact format_result c
  · exact format_result c

/-! ### FPACK and FUNPACK (R279, R280) -/

/-- The type that FPACK and FUNPACK read from their code; none for a code that they do not accept. -/
def packType (c : Iss) (x : F3) : Option NType := if packWidth (fld x.imm 7 0) = 0 then none else ntypeIn c.t.hdr.version (fld x.imm 7 0)

theorem packType_of_width (hw : packWidth (fld x.imm 7 0) ≠ 0) : packType c x = ntypeIn c.t.hdr.version (fld x.imm 7 0) := if_neg hw

theorem packType_none (h : packWidth (fld x.imm 7 0) = 0 ∨ ntypeIn c.t.hdr.version (fld x.imm 7 0) = none) : packType c x = none := by
  rcases h with h | h <;> simp [packType, h]

/-- What FPACK gives in a lane: A's element below B's, which takes the rounding counter after A's. -/
def fpackLane (c : Iss) (x : F3) (t : NType) (l : Nat) : Nat × FFlags × Nat :=
  let w := packWidth (fld x.imm 7 0)
  let slot := fld x.imm 11 8
  let flag := fun (o : Opnd) => if isSnan f32 (c.val 32 o l) then fInvalid else (0 : FFlags)
  let e0 := convertElem c.t c.a x.h l (roundCounter c.a l) t (bit x.h.mod 3) (decodeF f32 (c.val 32 x.a l))
  let e1 := convertElem c.t c.a x.h l e0.2.2 t (bit x.h.mod 3) (decodeF f32 (c.val 32 x.b l))
  let word : Word32 := setFld (BitVec.ofNat 32 (c.val 32 x.c l)) (w * (2 * slot + 1) - 1) (w * 2 * slot) (e0.1 % 2 ^ w)
  ((setFld word (w * (2 * slot + 2) - 1) (w * (2 * slot + 1)) (e1.1 % 2 ^ w)).toNat, e0.2.1 ||| e1.2.1 ||| flag x.a ||| flag x.b, e1.2.2)

theorem execFpack_packs {t : NType} (hc : turnOf (.fpack x) x.h s = .goes c) (ht : packType c x = some t) :
    execFpack x s = .next (c.converted x.d 32 4 ((c.evalLanes (.fpack x) x.d).map fun l => (l, fpackLane c x t l))) := by
  unfold packType at ht
  simp only [execFpack, issue_goes _ hc, ht]
  rw [convertLanes_of_values fun _ _ => rfl, result_ok]
  rfl

theorem execFpack_format (hc : turnOf (.fpack x) x.h s = .goes c) (ht : packType c x = none) :
    execFpack x s = c.raised 12 0 (maskOf c.ex) := by
  unfold packType at ht
  simp only [execFpack, issue_goes _ hc, ht, format_result]

/-- The code of the element that FUNPACK reads in a lane; the 6-bit types stand in byte positions. -/
def funpackElem (c : Iss) (x : F3) (l : Nat) : Nat :=
  let w := packWidth (fld x.imm 7 0)
  let e := c.val 32 x.a l / 2 ^ (w * fld x.imm 12 8) % 2 ^ w
  if fld x.imm 7 0 = 5 ∨ fld x.imm 7 0 = 6 then e % 64 else e

section
variable {t : NType} (hc : turnOf (.funpack x) x.h s = .goes c) (ht : packType c x = some t)
include hc ht

theorem execFunpack_raw (hraw : bit x.imm 15 = true) : execFunpack x s =
    .next (c.converted x.d 32 4 ((c.evalLanes (.funpack x) x.d).map fun l => (l, funpackElem c x l, 0, roundCounter c.a l))) := by
  unfold packType at ht
  simp only [execFunpack, issue_goes _ hc, ht, hraw, if_true]
  rw [convertLanes_of_values fun _ _ => rfl, result_ok]
  rfl

section
variable (hraw : bit x.imm 15 = false)
include hraw

theorem execFunpack_values {vs : Nat → FVal × FFlags}
    (hvs : ∀ l ∈ c.evalLanes (.funpack x) x.d, sourceValue t (funpackElem c x l) = some (vs l)) :
    execFunpack x s = .next (c.converted x.d 32 4 ((c.evalLanes (.funpack x) x.d).map fun l =>
      (l, (toFloat f32 .rne false (vs l).1).1, (vs l).2, roundCounter c.a l))) := by
  unfold packType at ht
  unfold funpackElem at hvs
  simp only [execFunpack, issue_goes _ hc, ht, hraw, Bool.false_eq_true, if_false]
  rw [convertLanes_of_values fun l hl => by rw [hvs l hl, Option.map_some], result_ok]

theorem execFunpack_bad (hbad : ((c.evalLanes (.funpack x) x.d).filter fun l => (sourceValue t (funpackElem c x l)).isNone) ≠ []) :
    execFunpack x s =
      c.raised 12 0 (maskOf ((c.evalLanes (.funpack x) x.d).filter fun l => (sourceValue t (funpackElem c x l)).isNone)) := by
  unfold packType at ht
  unfold funpackElem at hbad ⊢
  simp only [execFunpack, issue_goes _ hc, ht, hraw, Bool.false_eq_true, if_false]
  rw [convertLanes_of_bad (by simp only [Option.isNone_map]) hbad]
  rfl

end

end

theorem execFunpack_format (hc : turnOf (.funpack x) x.h s = .goes c) (ht : packType c x = none) :
    execFunpack x s = c.raised 12 0 (maskOf c.ex) := by
  unfold packType at ht
  simp only [execFunpack, issue_goes _ hc, ht, format_result]

/-! ### BOUND (R281) -/

/-- What the team's bound makes of a lane's source. -/
def boundLane (c : Iss) (x : F3) (l : Nat) : Bounded := teamBound c.t x.bnd.toNat (c.val 32 x.a l)

theorem execBound_traps (hc : turnOf (.bound x) x.h s = .goes c)
    (hbad : ((c.evalLanes (.bound x) x.d).filter fun l => (boundLane c x l).trap) ≠ []) :
    execBound x s = .next (raise (setHit c.s0 c.t.uid x.bnd.toNat) c.a.key
      (mkEvent 20 x.bnd.toNat (maskOf ((c.evalLanes (.bound x) x.d).filter fun l => (boundLane c x l).trap)) c.pc)) := by
  unfold boundLane at hbad ⊢
  simp only [execBound, issue_goes _ hc, List.filter_map, List.map_map, Function.comp_def, List.map_id', List.isEmpty_eq_false_iff.mpr hbad,
    Bool.not_false, if_true, Iss.boundTrap, result_trap]

theorem execBound_bounds (hc : turnOf (.bound x) x.h s = .goes c) (hok : ∀ l ∈ c.evalLanes (.bound x) x.d, (boundLane c x l).trap = false) :
    execBound x s = .next (c.pend 4 (((c.evalLanes (.bound x) x.d).flatMap fun l => regWrites 32 x.d l (boundLane c x l).value)
      ++ if (c.evalLanes (.bound x) x.d).any fun l => (boundLane c x l).hit then [.hit (BitVec.ofNat 16 (2 ^ x.bnd.toNat))] else [])) := by
  have hnil : ((c.evalLanes (.bound x) x.d).filter fun l => (boundLane c x l).trap) = [] :=
    List.filter_eq_nil_iff.mpr fun l hl => by simp [hok l hl]
  unfold boundLane at hnil ⊢
  simp only [execBound, issue_goes _ hc, List.filter_map, List.map_map, Function.comp_def, List.map_id', hnil, List.isEmpty_nil, Bool.not_true,
    Bool.false_eq_true, if_false, result_ok, List.flatMap_map, List.any_map]

end

end Sys2Proof.Machine

open Sys2Proof Sys2Proof.Machine

/-- Settles O19: each form is its conversion in every lane, its format fault, or the fault of the lanes whose element is no value; BOUND
splits on whether a lane traps. -/
theorem convertComplete : Obligations.ConvertComplete := by
  unfold Obligations.ConvertComplete
  intro x
  refine ⟨fun s c df sf hc hd hs => ⟨execFcvt_lacking hc hd hs, ?fcvt⟩, fun s c d t hc hd ht hpair vs hvs => execIcvt_values hc hd ht hpair hvs,
    fun s c t hc hw ht => execFpack_packs hc ((packType_of_width hw).trans ht),
    fun s c t hc hw ht => ⟨execFunpack_raw hc ((packType_of_width hw).trans ht),
      fun hraw vs hvs => execFunpack_values hc ((packType_of_width hw).trans ht) hraw hvs⟩,
    fun s c hc hno => execFcvt_format hc hno, fun s c hc hno => execIcvt_format hc hno,
    fun s c d t hc hd ht hpair => execIcvt_bad hc hd ht hpair, ?packFormat,
    fun s c t hc hw ht hraw => execFunpack_bad hc ((packType_of_width hw).trans ht) hraw,
    fun s c hc _ hbad => execBound_traps hc hbad, fun s c hc hok => execBound_bounds hc hok⟩
  case fcvt =>
    rintro c' (⟨hdp, hfree, rfl⟩ | ⟨hdp, rfl⟩)
    · exact fcvtState_dpTaken c x df sf ▸ execFcvt_double hc hd hs hdp hfree
    · exact execFcvt_single hc hd hs hdp
  case packFormat =>
    rintro f (rfl | rfl) s c hc hno
    · exact execFpack_format hc (packType_none hno)
    · exact execFunpack_format hc (packType_none hno)

end

