-- ==== Sys2Proof/Proofs/Words.lean ====
section
/-! Words that stand for instructions, and words of reserved opcodes (R199, R200). -/

namespace Sys2Proof

-- one declaration at a time: a thread for each would be too many
set_option Elab.async false

open Machine

/-- Whether an opcode has a row, by the ranges of R199. -/
def listedOpcode (o : Nat) : Bool :=
  o ≤ 0x18 || (0x20 ≤ o && o ≤ 0x36) || (0x40 ≤ o && o ≤ 0x59) || (0x60 ≤ o && o ≤ 0x6A) || (0x70 ≤ o && o ≤ 0x7B) || (0x80 ≤ o && o ≤ 0x88)
    || (0x90 ≤ o && o ≤ 0x98) || (0xA0 ≤ o && o ≤ 0xAB) || (0xB0 ≤ o && o ≤ 0xB9) || (0xC0 ≤ o && o ≤ 0xC4) || (0xD0 ≤ o && o ≤ 0xD6)

/-- Whether an opcode stands for an instruction does not depend on the fields of the word. -/
theorem decodeOpc_isSome_congr {o : Nat} {w : InstrWord} (v : InstrWord) (h : (decodeOpc o w).isSome = true) : (decodeOpc o v).isSome = true := by
  obtain ⟨i, hi⟩ := Option.isSome_iff_exists.mp h
  have hop := opcodeOf_decodeOpc hi
  obtain ⟨B, x, -, hdec, hopc, -⟩ := row_of_opcode (Option.isSome_of_eq_some hop)
  obtain rfl : o = _ := Option.some.inj (hop.symm.trans hopc)
  exact Option.isSome_of_eq_some (hdec v)

theorem decodeOpc_zero_isSome : ∀ o < 256, (decodeOpc o 0).isSome = listedOpcode o := by decide +kernel

theorem decode_isSome (w : InstrWord) : (decode w).isSome = listedOpcode (opcField w).toNat := by
  have hzero := decodeOpc_zero_isSome (opcField w).toNat (opcField w).isLt
  rw [← hzero, Bool.eq_iff_iff]
  exact ⟨decodeOpc_isSome_congr 0, decodeOpc_isSome_congr w⟩

theorem decode_eq_none_iff (w : InstrWord) : decode w = none ↔ listedOpcode (opcField w).toNat = false := by
  rw [← decode_isSome, Option.isSome_eq_false_iff, Option.isNone_iff_eq_none]

end Sys2Proof

namespace Sys2Proof.Machine

-- one declaration at a time: a thread for each would be too many
set_option Elab.async false

/-- A word that stands for no instruction is the event of R200 in its place, or the overrun of R315. -/
theorem issueAt_of_reserved {s : State} {a : Agent} {pc : Nat} {w : InstrWord} (hf : fetchAt a pc = .word w) (hd : decode w = none) :
    issueAt s a pc = .next (raise s a.key (mkEvent (if 256 ≤ a.issueCount then 15 else 1) 0 (maskOf (executing a pc)) pc)) := by
  simp only [issueAt, hf, hd]

end Sys2Proof.Machine

open Sys2Proof Sys2Proof.Machine

/-- Settles O1: the fields of each word, read off. -/
theorem decodedWords : Obligations.DecodedWords := by
  unfold Obligations.DecodedWords
  decide

/-- Settles O4: the rows of the decoder are the ranges of R199, and a word of none of them is the event. -/
theorem reservedWords : Obligations.ReservedWords := by
  unfold Obligations.ReservedWords
  refine ⟨fun w => ?_, fun s a pc w hf hd => issueAt_of_reserved hf hd⟩
  rw [decode_eq_none_iff, ← Bool.not_eq_true]
  simp [listedOpcode, or_assoc]

end

