-- ==== Sys2Proof/Proofs/FetchedSlots.lean ====
section
/-! The slot of a fetched line, and the events of lines that fail their checks (R188, R190, R191). -/

namespace Sys2Proof.Machine

-- one declaration at a time: a thread for each would be too many
set_option Elab.async false

/-! ### Bytes of a little-endian number (R4) -/

theorem leNat_byte (bs : List Byte) (k : Nat) (h : k < bs.length) : leNat bs / 256 ^ k % 256 = bs[k].toNat := by
  induction bs generalizing k with
  | nil => simp at h
  | cons b r ih =>
    have hb : b.toNat < 256 := b.isLt
    cases k with
    | zero => simp only [leNat, List.getElem_cons_zero]; omega
    | succ k =>
      have hrest : (b.toNat + 256 * leNat r) / 256 = leNat r := by omega
      rw [leNat, pow_succ', ← Nat.div_div_eq_div_mul, hrest, List.getElem_cons_succ]
      exact ih k (by simpa using h)

/-- Twelve bytes or fewer fill a slot. -/
theorem toNat_ofNat_leNat {bs : List Byte} (h : bs.length ≤ 12) : (BitVec.ofNat 96 (leNat bs)).toNat = leNat bs := by
  have hlt : leNat bs < 256 ^ 12 := (leNat_lt bs).trans_le (Nat.pow_le_pow_right (by norm_num) h)
  rw [BitVec.toNat_ofNat]
  exact Nat.mod_eq_of_lt (by simpa using hlt)

theorem extractLsb'_of_leNat {w : InstrWord} {bs : List Byte} (hw : w.toNat = leNat bs) {k : Nat} (hk : k < bs.length) :
    w.extractLsb' (8 * k) 8 = bs[k] := by
  have hpow : 2 ^ (8 * k) = 256 ^ k := by rw [pow_mul]; norm_num
  apply BitVec.eq_of_toNat_eq
  rw [BitVec.extractLsb'_toNat, hw, Nat.shiftRight_eq_div_pow, hpow]
  exact leNat_byte bs k hk

/-! ### What a fetch gives -/

section
variable {a : Agent} {pc : Nat} {l : FetchLine} {bs : List Byte}

theorem fetchAt_of_target (hl : bufLine a pc = some l) (hst : l.st = .good bs) (hpc : legalPc pc = true)
    (hm : ¬ (a.issues = 0 ∧ pc = a.entry ∧ targetMarked bs pc = false)) :
    fetchAt a pc = .word (BitVec.ofNat 96 (leNat ((bs.drop (pc % 64)).take 12))) := by
  have hok : (!legalPc pc || (a.issues == 0 && pc == a.entry && !targetMarked bs pc)) = false := by
    rw [hpc]; simpa [and_assoc] using hm
  simp only [fetchAt, hl, hst, hok, Bool.false_eq_true, if_false]

theorem fetchAt_of_illegalTarget (hl : bufLine a pc = some l) (hst : l.st = .good bs)
    (hbad : legalPc pc = false ∨ (a.issues = 0 ∧ pc = a.entry ∧ targetMarked bs pc = false)) :
    fetchAt a pc = .fault (mkEvent 4 0 (maskOf (executing a pc)) pc) := by
  have hno : (!legalPc pc || (a.issues == 0 && pc == a.entry && !targetMarked bs pc)) = true := by simpa [and_assoc] using hbad
  simp only [fetchAt, hl, hst, hno, if_true]

theorem fetchAt_of_parity (hl : bufLine a pc = some l) (hst : l.st = .parity) :
    fetchAt a pc = .fault (mkEvent 3 0 (maskOf (executing a pc)) pc) := by
  simp only [fetchAt, hl, hst]

theorem fetchAt_of_illegalLine (hl : bufLine a pc = some l) (hst : l.st = .illegalLine) :
    fetchAt a pc = .fault (mkEvent 2 0 (maskOf (executing a pc)) pc) := by
  simp only [fetchAt, hl, hst]

end

/-- A legal PC leaves room for a slot before the line word (R188). -/
theorem legalPc_offset {pc : Nat} (h : legalPc pc = true) : pc % 64 ≤ 48 := by
  simp only [legalPc, Bool.and_eq_true, decide_eq_true_eq] at h
  exact h.2

end Sys2Proof.Machine

open Sys2Proof Sys2Proof.Machine

/-- Settles O5: a good line gives the bytes at the PC's offset, and each failed check its event. -/
theorem fetchedSlot : Obligations.FetchedSlot := by
  unfold Obligations.FetchedSlot
  refine fun a pc l hl => ⟨fun bs hst hpc hm => ?_, fun bs hst hbad => fetchAt_of_illegalTarget hl hst hbad, fetchAt_of_parity hl,
    fetchAt_of_illegalLine hl⟩
  have hw := toNat_ofNat_leNat (List.length_take_le 12 (bs.drop (pc % 64)))
  refine ⟨_, fetchAt_of_target hl hst hpc hm, hw, fun hlen k hk => ?_⟩
  have hoff := legalPc_offset hpc
  refine ⟨bs[pc % 64 + k]'(by omega), List.getElem?_eq_getElem _, ?_⟩
  rw [extractLsb'_of_leNat hw (k := k) (by simp; omega), List.getElem_take, List.getElem_drop]

end

