-- ==== Sys2Proof/Proofs/IssueChecks.lean ====
section
/-! The checks of an issue, its bookkeeping, and an issue that ends in an event (R188, R194, R200, R205, R315, R345, R346, R353). -/

namespace Sys2Proof.Machine

-- one declaration at a time: a thread for each would be too many
set_option Elab.async false

/-! ### The order of the checks -/

theorem turnOf_of_noTurn (i : Instr) (h : Hdr) {s : State} (hs : s.turn = none) : turnOf i h s = .idle := by
  simp only [turnOf, hs]

section
variable (i : Instr) (h : Hdr) {s : State} {k : AgentKey} {a : Agent} {t : Team} {g : Grid} {pc : Nat} (hs : s.turn = some k)
  (ha : agentOf { s with turn := none } k = some a) (ht : teamOf { s with turn := none } k.team = some t)
  (hg : gridOf { s with turn := none } t.grid = some g) (hpc : issueAddress a = some pc)

include hs ha ht hg hpc

theorem turnOf_of_overrun (hover : 256 ≤ a.issueCount) :
    turnOf i h s = .event { s with turn := none } k (mkEvent 15 0 (maskOf (executing a pc)) pc) := by
  simp only [turnOf, hs, ha, ht, hg, hpc, hover, if_true]

variable (hcount : a.issueCount < 256)

include hcount

theorem turnOf_of_illegal (hlegal : issueLegal i t.hdr.version t.hdr.vregs t.hdr.sregs (isLadle k) = false) :
    turnOf i h s = .event { s with turn := none } k (mkEvent 1 0 (maskOf (executing a pc)) pc) := by
  simp only [turnOf, hs, ha, ht, hg, hpc, Nat.not_le.mpr hcount, hlegal, Bool.not_false, if_false, if_true]

variable (hlegal : issueLegal i t.hdr.version t.hdr.vregs t.hdr.sregs (isLadle k) = true)

include hlegal

theorem turnOf_of_poison {e : Event} (he : poisonEvent a i ((executing a pc).filter (guardOf a h)) pc = some e) :
    turnOf i h s = .event { s with turn := none } k e := by
  simp only [turnOf, hs, ha, ht, hg, hpc, Nat.not_le.mpr hcount, hlegal, he, Bool.not_true, Bool.false_eq_true, if_false]

/-- An issue that passes every check goes on in the active lanes with its bookkeeping done (R194, R217). -/
theorem turnOf_of_clean (hclean : poisonEvent a i ((executing a pc).filter (guardOf a h)) pc = none) :
    turnOf i h s = .goes
      { s := updAgent { s with turn := none } k fun _ => book a h pc (executing a pc) (cycleOf s t.core)
        s0 := { s with turn := none }, a := book a h pc (executing a pc) (cycleOf s t.core), t := t, g := g, pc := pc
        ex := executing a pc, act := (executing a pc).filter (guardOf a h), n := a.issues } := by
  have hcycle : cycleOf { s with turn := none } t.core = cycleOf s t.core := rfl
  simp only [turnOf, hs, ha, ht, hg, hpc, Nat.not_le.mpr hcount, hlegal, hclean, hcycle, Bool.not_true, Bool.false_eq_true, if_false]

end

/-- An issue that ends in an event is that event, and without an issuer it is refused. -/
theorem issue_ends {i : Instr} {h : Hdr} {s : State} {f : Iss → Eff} (hexec : exec i s = issue i h s f) :
    (∀ t k e, turnOf i h s = .event t k e → exec i s = .next (raise t k e)) ∧ (turnOf i h s = .idle → exec i s = .refused .noIssuer) :=
  ⟨fun _ _ _ hc => hexec.trans (issue_event f hc), fun hc => hexec.trans (issue_idle f hc)⟩

/-! ### The bookkeeping -/

/-- Values set in several lanes, each lane its own. -/
theorem sget_foldl_sset_fun {V : Type} [DecidableEq V] (d : V) (f : Nat → V) (ls : List Nat) (m : Sparse V) (j : Nat) :
    sget d (ls.foldl (fun m l => sset d m l (f l)) m) j = if j ∈ ls then f j else sget d m j := by
  induction ls generalizing m with
  | nil => simp
  | cons l ls ih =>
    rw [List.foldl_cons, ih, sget_sset]
    by_cases h1 : j ∈ ls
    · simp [h1]
    · by_cases h2 : j = l <;> simp [h1, h2]

section
variable (a : Agent) (h : Hdr) (pc : Nat) (ex : List Nat) (cycle l : Nat)

/-- Executing lanes move to the sequential successor (R188, R194). -/
theorem lpcOf_book : lpcOf (book a h pc ex cycle) l = if l ∈ ex then succPc pc else lpcOf a l :=
  sget_foldl_sset a.entry (succPc pc) ex a.lpc l

/-- A candidate lane's idle count is cleared by its issue, and counts one that it is not in (R346). -/
theorem idle_book (hw : isLadle a.key = false) :
    sget 0 (book a h pc ex cycle).idle l
      = if l ∈ candidates a then (if l ∈ ex then 0 else sget 0 a.idle l + 1) else sget 0 a.idle l := by
  simpa [book, hw] using sget_foldl_sset_fun 0 (fun l => if ex.contains l then 0 else sget 0 a.idle l + 1) (candidates a) a.idle l

end

/-! ### An agent that was put off (R351) -/

/-- IADD of zr and zr into v0. -/
def zeroAdd : F3 := ⟨⟨false, false, 0, false, false, 0, 0⟩, .v 0, .zr, .zr, .v 0, 0, 0, 0⟩

/-- Reset with the word of that IADD placed and its warp on turn, whose last try to issue was put off. -/
def putOffState : State :=
  let s := State.reset.withFetchWord 96 ((encode (.iadd zeroAdd)).getD 0).toNat
  { s with agenda := [], turn := some ⟨State.reset.nextId, 0⟩, agents := s.agents.map fun a => { a with hold := some .lacking } }

/-- Whether a turn goes on to the instruction's own effect. -/
def Turn.goesOn : Turn → Bool
  | .goes _ => true
  | _ => false

theorem Turn.exists_goes {t : Turn} (h : t.goesOn = true) : ∃ c, t = .goes c := by
  cases t with
  | goes c => exact ⟨c, rfl⟩
  | _ => cases h

theorem putOffState_goes : ∃ c, turnOf (.iadd zeroAdd) zeroAdd.h putOffState = .goes c := Turn.exists_goes (by decide +kernel)

theorem putOffState_holds : ∀ a ∈ putOffState.agents, a.hold = some .lacking := by decide +kernel

/-- What holds an agent after an outcome. -/
def heldAfter (k : AgentKey) : Result → Option (Option Hold)
  | .next t => (agentOf t k).map (·.hold)
  | _ => none

theorem heldAfter_putOffState : heldAfter ⟨State.reset.nextId, 0⟩ (exec (.iadd zeroAdd) putOffState) = some none := by decide +kernel

theorem onlyIssued_hold {a b : Agent} (h : onlyIssued a b) : b.hold = a.hold := by
  unfold onlyIssued at h
  rw [h]

end Sys2Proof.Machine

open Sys2Proof Sys2Proof.Machine

/-- Settles O7: the turn is the first of its checks that fails. -/
theorem issueOrder : Obligations.IssueOrder := by
  unfold Obligations.IssueOrder
  refine ⟨fun i h s hs => turnOf_of_noTurn i h hs, fun i h s k a t g pc hs ha ht hg hpc => ?_⟩
  exact ⟨turnOf_of_overrun i h hs ha ht hg hpc, turnOf_of_illegal i h hs ha ht hg hpc,
    fun hcount hlegal e he => turnOf_of_poison i h hs ha ht hg hpc hcount hlegal he, turnOf_of_clean i h hs ha ht hg hpc⟩

/-- Settles O8: each form is one issue with its own effect. -/
theorem issueEvents : Obligations.IssueEvents := by
  unfold Obligations.IssueEvents
  exact fun x y z f s => ⟨issue_ends rfl, issue_ends rfl, issue_ends rfl, issue_ends rfl, issue_ends rfl, issue_ends rfl, issue_ends rfl,
    issue_ends rfl, issue_ends rfl, issue_ends rfl⟩

/-- Settles O9: PCs and idle counts lane by lane, the other fields as the bookkeeping writes them. -/
theorem issueBookkeeping : Obligations.IssueBookkeeping := by
  unfold Obligations.IssueBookkeeping
  exact fun a h pc ex cycle l => ⟨lpcOf_book a h pc ex cycle l, rfl, rfl, rfl, rfl, rfl, idle_book a h pc ex cycle l,
    rfl, rfl, rfl, rfl, rfl, rfl, rfl, rfl, rfl, rfl, rfl, rfl, rfl⟩

/-- Refutes O13: a warp that was put off and now issues an IADD loses the note of that wait with the bookkeeping of the issue (R351), while
`onlyIssued` has an issue leave every hold as it was. -/
theorem not_registerFormsFrame : ¬ Obligations.RegisterFormsFrame := by
  unfold Obligations.RegisterFormsFrame
  rintro ⟨hforms, -⟩
  obtain ⟨c, hc⟩ := putOffState_goes
  obtain ⟨t, a, b, hexec, ⟨-, -, hframe⟩, ha, hb, -⟩ := hforms Instr.iadd (by simp [registerForms]) zeroAdd putOffState c hc
  have hkey : (⟨State.reset.nextId, 0⟩ : AgentKey) = c.a.key := Option.some.inj (goes_key hc)
  have hbefore : a.hold = some .lacking := putOffState_holds a (List.mem_of_find?_eq_some ha)
  have hafter : b.hold = none := by
    have hheld := heldAfter_putOffState
    rw [hexec, hkey, heldAfter, hb] at hheld
    exact Option.some.inj hheld
  obtain ⟨b', hb', honly⟩ := hframe a ha
  obtain rfl : b = b' := Option.some.inj (hb.symm.trans hb')
  have hsame := onlyIssued_hold honly
  rw [hafter, hbefore] at hsame
  cases hsame

end

