-- ==== Sys2Proof/Proofs/Branches.lean ====
section
/-! Branches, calls, returns and JOIN at their issue (R191, R194, R306 to R311). -/

namespace Sys2Proof.Machine

-- one declaration at a time: a thread for each would be too many
set_option Elab.async false

/-! ### Targets (R191) -/

theorem neededLine_eq_none {js : List Judged} (h : ∀ line, .need line ∉ js) : neededLine js = none := by
  induction js with
  | nil => rfl
  | cons j r ih =>
    have hr := ih fun line hm => h line (List.mem_cons_of_mem j hm)
    cases j with
    | need line => exact absurd List.mem_cons_self (h line)
    | bad => exact hr
    | go => exact hr

/-- The elements of a list whose images under `f` meet `p`, by way of pairs. -/
theorem map_fst_filter_pairs {α β : Type} (f : α → β) (p : β → Bool) (ls : List α) :
    ((ls.map fun l => (l, f l)).filter fun t => p t.2).map (·.1) = ls.filter fun l => p (f l) := by
  simp [List.filter_map, Function.comp_def]

section
variable {c : Iss} {link : Opnd} {target : Nat → Nat}

/-- No line is waited for once every target is judged. -/
theorem neededLine_of_judged (h : ∀ l ∈ c.act, judge c.a (target l) = .go ∨ judge c.a (target l) = .bad) :
    neededLine ((c.act.map fun l => (l, judge c.a (target l))).map (·.2)) = none := by
  refine neededLine_eq_none fun line hm => ?_
  obtain ⟨l, hl, hj⟩ : ∃ l ∈ c.act, judge c.a (target l) = .need line := by simpa using hm
  rcases h l hl with hgo | hbad
  · cases hgo.symm.trans hj
  · cases hbad.symm.trans hj

theorem branch_moves (h : ∀ l ∈ c.act, judge c.a (target l) = .go) :
    c.branch link target = .ok (moveLanes (c.pend 4 (c.linkWrites link)) c.a.key (c.act.map fun l => (l, target l))) := by
  have hnil : (c.act.filter fun l => judge c.a (target l) == .bad) = [] := List.filter_eq_nil_iff.mpr fun l hl => by simp [h l hl]
  simp only [Iss.branch, neededLine_of_judged fun l hl => .inl (h l hl), map_fst_filter_pairs (fun l => judge c.a (target l)) (· == .bad), hnil]

theorem branch_faults (h : ∀ l ∈ c.act, judge c.a (target l) = .go ∨ judge c.a (target l) = .bad)
    (hbad : ∃ l ∈ c.act, judge c.a (target l) = .bad) :
    c.branch link target = c.fault 4 0 (maskOf (c.act.filter fun l => judge c.a (target l) == .bad)) := by
  -- the fault's arm of the model's match asks for a list that is not empty, which is `hne`
  obtain ⟨l, hl, hj⟩ := hbad
  have hne : (c.act.filter fun l => judge c.a (target l) == .bad) ≠ [] := List.ne_nil_of_mem (List.mem_filter.mpr ⟨hl, by simp [hj]⟩)
  simp only [Iss.branch, neededLine_of_judged h, map_fst_filter_pairs (fun l => judge c.a (target l)) (· == .bad)]

end

/-- A precise event in place of an instruction, as the statements name it (R200). -/
theorem fault_result (c : Iss) (cause sub : Nat) (lanes : BitVec 32) : (c.fault cause sub lanes).result c.a.key = c.raised cause sub lanes := rfl

/-- An instruction that is a branch completes where every target is good, and raises illegal target where one is bad (R191, R309, R310). -/
theorem branch_completes {i : Instr} {h : Hdr} (link : Opnd) (target : Iss → Nat → Nat)
    (hexec : ∀ s, exec i s = issue i h s fun c => c.branch link (target c)) :
    (completesWhen i h (fun c => ∀ l ∈ c.act, judge c.a (target c l) = .go)
      fun c => moveLanes (c.pend 4 (c.linkWrites link)) c.a.key (c.act.map fun l => (l, target c l)))
    ∧ raisesWhen i h
      (fun c => (∀ l ∈ c.act, judge c.a (target c l) = .go ∨ judge c.a (target c l) = .bad) ∧ ∃ l ∈ c.act, judge c.a (target c l) = .bad)
      4 0 fun c => maskOf (c.act.filter fun l => judge c.a (target c l) == .bad) := by
  refine ⟨fun s c hc hgo => ?_, fun s c hc hp => ?_⟩
  · rw [hexec, issue_goes _ hc, branch_moves hgo, result_ok]
  · obtain ⟨hjudged, hbad⟩ := hp
    rw [hexec, issue_goes _ hc, branch_faults hjudged hbad, fault_result]

/-! ### Returns (R310) -/

section
variable {x : F3} {s : State} {c : Iss}

theorem execRet_returns (hc : turnOf (.ret x) x.h s = .goes c) (hok : ∀ l ∈ c.act, val64 c.a x.a l = 0 ∨ legalPc (val64 c.a x.a l) = true) :
    execRet x s = .next (exitLanes (moveLanes c.s c.a.key ((c.act.map fun l => (l, val64 c.a x.a l)).filter fun t => t.2 != 0)) c.a.key
      (c.act.filter fun l => val64 c.a x.a l == 0)) := by
  have hnil : (c.act.filter fun l => val64 c.a x.a l != 0 && !legalPc (val64 c.a x.a l)) = [] :=
    List.filter_eq_nil_iff.mpr fun l hl => by rcases hok l hl with hz | hlegal <;> simp [*]
  simp only [execRet, issue_goes _ hc, map_fst_filter_pairs (fun l => val64 c.a x.a l) (fun n => n != 0 && !legalPc n),
    map_fst_filter_pairs (fun l => val64 c.a x.a l) (· == 0), hnil, result_ok]

theorem execRet_faults (hc : turnOf (.ret x) x.h s = .goes c) (hbad : ∃ l ∈ c.act, val64 c.a x.a l ≠ 0 ∧ legalPc (val64 c.a x.a l) = false) :
    execRet x s = c.raised 4 0 (maskOf (c.act.filter fun l => val64 c.a x.a l != 0 && !legalPc (val64 c.a x.a l))) := by
  -- as in `branch_faults`, `hne` selects the arm of the fault
  obtain ⟨l, hl, hnz, hill⟩ := hbad
  have hne : (c.act.filter fun l => val64 c.a x.a l != 0 && !legalPc (val64 c.a x.a l)) ≠ [] :=
    List.ne_nil_of_mem (List.mem_filter.mpr ⟨hl, by simp [hnz, hill]⟩)
  simp only [execRet, issue_goes _ hc, map_fst_filter_pairs (fun l => val64 c.a x.a l) (fun n => n != 0 && !legalPc n),
    fault_result]

end

/-! ### Rejoin masks (R311) -/

/-- A set of lanes as a mask has the bit of each of its lanes. -/
theorem bit_maskOf (ls : List Nat) {l : Nat} (hl : l < 32) : bit (maskOf ls) l = decide (l ∈ ls) := by
  have hfold : ∀ m : BitVec 32, bit (ls.foldl (fun m l => m ||| BitVec.ofNat 32 (2 ^ l)) m) l = (bit m l || decide (l ∈ ls)) := by
    induction ls with
    | nil => intro m; simp
    | cons j r ih =>
      intro m
      have hbit : (2 ^ j).testBit l = decide (l = j) := by rw [Nat.testBit_two_pow]; exact decide_eq_decide.mpr eq_comm
      rw [List.foldl_cons, ih]
      simp only [bit, BitVec.getLsbD_or, BitVec.getLsbD_ofNat, hl, decide_true, Bool.true_and, hbit, List.mem_cons, Bool.decide_or, Bool.or_assoc]
  rw [maskOf, hfold]
  simp [bit]

theorem execJoin_mask {x : F3} {n : BitVec 3} {s : State} {c : Iss} (hd : x.d = .k n) (hc : turnOf (.join x) x.h s = .goes c) :
    execJoin x s = .next (if c.act = [] then c.s else c.pend 4 [.k n.toNat (maskOf c.act)]) := by
  simp [execJoin, issue_goes _ hc, hd, regWrites]

/-- The executing lanes of an issue stand at the sequential successor (R194). -/
theorem goes_lpcOf {i : Instr} {h : Hdr} {s : State} {c : Iss} (hc : turnOf i h s = .goes c) {l : Nat} (hl : l ∈ c.ex) :
    lpcOf c.a l = succPc c.pc := by
  obtain ⟨_, a, -, -, -, -, -, -, -, -, -, -, -, hbook, -, -⟩ := turnOf_goes hc
  rw [hbook, lpcOf_book, if_pos hl]

end Sys2Proof.Machine

open Sys2Proof Sys2Proof.Machine

/-- Settles O20: BRA, CALL, BRX and CALLX are branches with their own targets and links, and RET judges its links itself. -/
theorem branchComplete : Obligations.BranchComplete := by
  unfold Obligations.BranchComplete
  intro x y
  obtain ⟨hbra, hbra'⟩ := branch_completes (i := .bra y) .zr (fun c _ => fbTarget c.pc y) fun _ => rfl
  obtain ⟨hcall, hcall'⟩ := branch_completes (i := .call y) y.link (fun c _ => fbTarget c.pc y) fun _ => rfl
  obtain ⟨hbrx, hbrx'⟩ := branch_completes (i := .brx x) .zr (fun c l => val64 c.a x.a l) fun _ => rfl
  obtain ⟨hcallx, hcallx'⟩ := branch_completes (i := .callx x) x.d (fun c l => val64 c.a x.a l) fun _ => rfl
  exact ⟨fun s c hc => issue_goes _ hc, hbra, hbra', hcall, hcall', hbrx, hbrx', hcallx, hcallx',
    fun s c hc hok => execRet_returns hc hok, fun s c hc hbad => execRet_faults hc hbad⟩

/-- Settles O22: the mask of the active lanes is JOIN's one result, and its lanes have moved on with the bookkeeping. -/
theorem joinMask : Obligations.JoinMask := by
  unfold Obligations.JoinMask
  exact fun x n s c hd hc => ⟨execJoin_mask hd hc, fun l hl => bit_maskOf c.act hl, fun l hl => goes_lpcOf hc hl⟩

end

