-- ==== Sys2Proof/Proofs/Alignment.lean ====
section
/-! Misaligned global accesses (R200, R218, R223). -/

namespace Sys2Proof.Machine

-- one declaration at a time: a thread for each would be too many
set_option Elab.async false

theorem misaligned_of_lanes {c : Iss} {n : Nat} {va : Nat → Nat} {l : Nat} {r : List Nat} (h : (c.act.filter fun l => va l % n != 0) = l :: r) :
    c.misaligned n va = some (c.faultAt 5 0 (maskOf (l :: r)) (va l)) := by
  simp only [Iss.misaligned, h]

/-- An instruction that starts with the check of its addresses ends in the fault of its misaligned lanes, in the state in which it was found. -/
theorem raises_of_misaligned {i : Instr} {h : Hdr} {f : Iss → Eff} {n : Nat} {va : Iss → Nat → Nat} (hexec : ∀ s, exec i s = issue i h s f)
    (hcheck : ∀ c e, c.misaligned n (va c) = some e → f c = e) (s : State) (c : Iss) (l : Nat) (r : List Nat) (hc : turnOf i h s = .goes c)
    (hbad : (c.act.filter fun l => va c l % n != 0) = l :: r) :
    exec i s = .next (raise c.s0 c.a.key { mkEvent 5 0 (maskOf (l :: r)) c.pc with addr := va c l }) := by
  rw [hexec, issue_goes f hc, hcheck c _ (misaligned_of_lanes hbad)]
  rfl

theorem atomic_of_misaligned {c : Iss} {x : FM} {op : MemOp} {dest : Opnd} {reqs : List LaneReq} {e : Eff}
    (h : c.misaligned (atomSize x) (c.ea x (atomSize x)) = some e) : c.atomic x op dest reqs = e := by
  simp only [Iss.atomic, h]

end Sys2Proof.Machine

open Sys2Proof Sys2Proof.Machine

/-- Settles O53: each form checks the addresses of its active lanes before anything else. -/
theorem alignmentTraps : Obligations.AlignmentTraps := by
  unfold Obligations.AlignmentTraps
  exact fun x => ⟨raises_of_misaligned (fun _ => rfl) fun c e he => by simp only [he],
    raises_of_misaligned (fun _ => rfl) fun c e he => by simp only [he],
    raises_of_misaligned (fun _ => rfl) fun c e he => by simp only [he],
    raises_of_misaligned (fun _ => rfl) fun c e he => by simp only [he],
    raises_of_misaligned (fun _ => rfl) fun c e he => by simp only [he],
    raises_of_misaligned (fun _ => rfl) fun c e he => atomic_of_misaligned he,
    raises_of_misaligned (fun _ => rfl) fun c e he => atomic_of_misaligned he⟩

end

