-- ==== Sys2Proof/Proofs/ClusterCycles.lean ====
section
/-! The end of a cluster's cycle: the due results of all its agents land (R202, R203, R351, R353). -/

namespace Sys2Proof.Machine

-- one declaration at a time: a thread for each would be too many
set_option Elab.async false

/-! ### Registers read -/

/-- Two agents read the same in every register (R148, R151). -/
def sameReads (a b : Agent) : Prop :=
  (∀ n l, vGet a n l = vGet b n l ∧ pGet a n l = pGet b n l) ∧ ∀ n, sGet a n = sGet b n ∧ kGet a n = kGet b n

theorem sameReads_of_file {a b : Agent} (h : a.file = b.file) : sameReads a b := by
  obtain ⟨hv, hs, hp, hk⟩ := file_eq_iff.mp h
  simp [sameReads, vGet, sGet, pGet, kGet, hv, hs, hp, hk]

theorem sameReads.trans {a b d : Agent} (h : sameReads a b) (h' : sameReads b d) : sameReads a d := by
  obtain ⟨hlanes, huniform⟩ := h
  obtain ⟨hlanes', huniform'⟩ := h'
  refine ⟨fun n l => ?_, fun n => ?_⟩
  · obtain ⟨hv, hp⟩ := hlanes n l
    obtain ⟨hv', hp'⟩ := hlanes' n l
    exact ⟨hv.trans hv', hp.trans hp'⟩
  · obtain ⟨hs, hk⟩ := huniform n
    obtain ⟨hs', hk'⟩ := huniform' n
    exact ⟨hs.trans hs', hk.trans hk'⟩

/-- Writes done twice read as if done once: the last one of a register is the same. -/
theorem read_foldl_twice {α : Type} (g : Agent → α) (m : RegWrite → Option α) (h : ∀ a w, g (writeReg a w) = (m w).getD (g a))
    (ws : List RegWrite) (a : Agent) : g (ws.foldl writeReg (ws.foldl writeReg a)) = g (ws.foldl writeReg a) := by
  simp only [read_foldl_writeReg g m h]
  cases ws.reverse.findSome? m <;> rfl

theorem sameReads_foldl_twice (ws : List RegWrite) (a : Agent) : sameReads (ws.foldl writeReg (ws.foldl writeReg a)) (ws.foldl writeReg a) := by
  refine ⟨fun n l => ⟨read_foldl_twice (vGet · n l) (vPut n l) (vGet_writeReg n l) ws a, ?_⟩,
    fun n => ⟨read_foldl_twice (sGet · n) (sPut n) (sGet_writeReg n) ws a, read_foldl_twice (kGet · n) (kPut n) (kGet_writeReg n) ws a⟩⟩
  by_cases hn : n = 0
  · subst hn
    rfl
  · exact read_foldl_twice (pGet · n l) (pPut n l) (pGet_writeReg hn l) ws a

/-! ### Results of several agents -/

/-- The effects of an agent's results are in no other agent. -/
theorem agentOf_applyWrites_ne (s : State) {k j : AgentKey} (hj : j ≠ k) (ws : List RegWrite) : agentOf (applyWrites s k ws) j = agentOf s j := by
  induction ws generalizing s with
  | nil => rfl
  | cons w ws ih =>
    obtain ⟨f, g, happly, hf, -⟩ := applyWrite_cases s k w
    calc agentOf (applyWrites (applyWrite s k w) k ws) j
      _ = agentOf (applyWrite s k w) j := ih _
      _ = agentOf (updAgent s k f) j := by rw [happly, agentOf_updTeam]
      _ = agentOf s j := agentOf_updAgent_ne s f (fun a => (hf a).1) hj

/-- An agent's registers are as they were, in a later state. -/
def keepsFile (k : AgentKey) (s t : State) : Prop := ∀ a, agentOf s k = some a → ∃ b, agentOf t k = some b ∧ b.file = a.file

theorem keepsFile_foldl {κ : Type} {k : AgentKey} {F : State → κ → State} (hF : ∀ s e, keepsFile k s (F s e)) (es : List κ) (s : State) :
    keepsFile k s (es.foldl F s) := by
  induction es generalizing s with
  | nil => exact fun a ha => ⟨a, ha, rfl⟩
  | cons e es ih =>
    intro a ha
    obtain ⟨b, hb, hfile⟩ := hF s e a ha
    obtain ⟨d, hd, hrest⟩ := ih (F s e) b hb
    exact ⟨d, hd, hrest.trans hfile⟩

theorem keepsFile_updAgent (s : State) (k j : AgentKey) {f : Agent → Agent} (hkey : ∀ a, (f a).key = a.key) (hfile : ∀ a, (f a).file = a.file) :
    keepsFile k s (updAgent s j f) := by
  intro a ha
  by_cases h : k = j
  · subst h
    exact ⟨f a, agentOf_updAgent_of ha hkey, hfile a⟩
  · exact ⟨a, (agentOf_updAgent_ne s f hkey h).trans ha, rfl⟩

/-- Flags that land are in no register of the file. -/
theorem keepsFile_applyFlags (s : State) (k j : AgentKey) (ws : List RegWrite) : keepsFile k s (applyWrites s j (ws.filter isFlag)) := by
  intro a ha
  by_cases h : k = j
  · subst h
    obtain ⟨b, hb, hfile⟩ := agentOf_applyWrites ha (ws.filter isFlag)
    exact ⟨b, hb, hfile.trans (foldl_writeReg_frame Agent.file (fun w hw => file_writeReg_flag (List.of_mem_filter hw)) a)⟩
  · exact ⟨a, (agentOf_applyWrites_ne s h _).trans ha, rfl⟩

/-- Results of several agents that land: an agent among them reads what its own leave, however often it is named. -/
theorem agentOf_applyAll {k : AgentKey} (W : AgentKey → List RegWrite) (ks : List AgentKey) (s : State) {a : Agent} (ha : agentOf s k = some a) :
    ∃ b, agentOf (ks.foldl (fun s j => applyWrites s j (W j)) s) k = some b ∧ if k ∈ ks then sameReads b ((W k).foldl writeReg a) else b = a := by
  induction ks generalizing s a with
  | nil => exact ⟨a, ha, by simp⟩
  | cons j ks ih =>
    by_cases hj : k = j
    · subst hj
      obtain ⟨b, hb, hfile⟩ := agentOf_applyWrites ha (W k)
      obtain ⟨d, hd, hrest⟩ := ih _ hb
      refine ⟨d, hd, ?_⟩
      rw [if_pos List.mem_cons_self]
      split at hrest
      · exact (hrest.trans (sameReads_of_file (file_foldl_congr hfile (W k)))).trans (sameReads_foldl_twice (W k) a)
      · rw [hrest]
        exact sameReads_of_file hfile
    · obtain ⟨d, hd, hrest⟩ := ih _ ((agentOf_applyWrites_ne s hj (W j)).trans ha)
      exact ⟨d, hd, by simpa [hj] using hrest⟩

/-- Once the due results of several agents have landed, each of them reads what its own writes leave (R203). -/
theorem agentOf_landAll {s : State} {k : AgentKey} {a : Agent} (ha : agentOf s k = some a) {ks : List AgentKey} (hk : k ∈ ks) (cycle : Nat) :
    ∃ b, agentOf (landAll s ks cycle) k = some b ∧ b.pend = a.pend.filter (fun p => cycle < p.due)
      ∧ sameReads b (((a.pend.filter fun p => p.due ≤ cycle).flatMap (·.writes)).foldl writeReg a) := by
  have hws : dueWrites s k cycle = (a.pend.filter fun p => p.due ≤ cycle).flatMap (·.writes) := by simp [dueWrites, ha]
  obtain ⟨b, hb, hbfile⟩ := keepsFile_foldl (fun s j => keepsFile_updAgent s k j (f := dropDue cycle) (fun _ => rfl) fun _ => rfl) ks s a ha
  obtain ⟨d, hd, hreads⟩ := agentOf_applyAll (fun j => (dueWrites s j cycle).filter fun w => !isFlag w) ks _ hb
  obtain ⟨e, he, hefile⟩ := keepsFile_foldl (fun t j => keepsFile_applyFlags t k j (dueWrites s j cycle)) ks _ d hd
  have hland : agentOf (landAll s ks cycle) k = some e := by
    simp only [landAll, List.foldl_map]
    exact he
  refine ⟨e, hland, ?_, ?_⟩
  · obtain ⟨-, hpend⟩ := landAll_pend s ks cycle
    have hp := hpend k hk
    rw [hland, ha] at hp
    exact Option.some.inj hp
  · rw [if_pos hk] at hreads
    refine (sameReads_of_file hefile).trans (hreads.trans (sameReads_of_file ?_))
    rw [← hws]
    exact (file_foldl_filter _ b).trans (file_foldl_congr hbfile _)

/-! ### A cycle that ends -/

/-- The agents of a cluster, by their keys. -/
def clusterKeys (s : State) (c : Nat) : List AgentKey := (clusterAgents s c).map fun e => e.1.key

/-- A cluster's next cycle begun: its count risen, every place free to issue again, and the warps that were ready and were not issued
longer in waiting (R351, R352). -/
def nextCycle (s : State) (c : Nat) : State :=
  let k := sget clusterInit s.clusters c
  let waited := ((clusterAgents s c).filter fun e => ready s e.1 e.2).map fun e => e.1.key
  { s with
    clusters := sset clusterInit s.clusters c { k with phase := k.phase - 100, cycle := k.cycle + 1, issued := [] }
    agents := updWhere (fun a => waited.contains a.key) (fun a => { a with waitCount := a.waitCount + 1 }) s.agents }

section
variable {s : State} {c : Nat}

theorem runCycle_of_not_over (h : cycleOver s c = false) : runCycle s c = s := by
  simp only [runCycle, h, Bool.not_false, if_true]

theorem runCycle_of_over (h : cycleOver s c = true) :
    runCycle s c = passMarkers (landAll (nextCycle s c) (clusterKeys s c) ((sget clusterInit s.clusters c).cycle + 1)) (clusterKeys s c)
      (sget clusterInit s.clusters c).cycle := by
  simp only [runCycle, h, Bool.not_true, Bool.false_eq_true, if_false]
  rfl

theorem cluster_nextCycle : sget clusterInit (nextCycle s c).clusters c
    = { sget clusterInit s.clusters c with
        phase := (sget clusterInit s.clusters c).phase - 100, cycle := (sget clusterInit s.clusters c).cycle + 1, issued := [] } :=
  sget_sset_same clusterInit s.clusters c _

/-- A next cycle changes nothing of an agent but how long it has waited. -/
theorem agentOf_nextCycle {k : AgentKey} {a : Agent} (ha : agentOf s k = some a) :
    ∃ n, agentOf (nextCycle s c) k = some { a with waitCount := n } := by
  have hfind : agentOf (nextCycle s c) k = (agentOf s k).map _ := find_updWhere _ _ _ s.agents fun _ _ => rfl
  rw [hfind, ha, Option.map_some]
  split
  · exact ⟨_, rfl⟩
  · exact ⟨a.waitCount, rfl⟩

theorem mem_clusterKeys {a : Agent} {t : Team} (ha : agentOf s a.key = some a) (ht : teamOf s a.key.team = some t) (hc : clusterOf t.core = c) :
    a.key ∈ clusterKeys s c := by
  refine List.mem_map.mpr ⟨(a, t), List.mem_filterMap.mpr ⟨a, List.mem_of_find?_eq_some ha, ?_⟩, rfl⟩
  simp [ht, hc]

end

end Sys2Proof.Machine

open Sys2Proof Sys2Proof.Machine

/-- Settles O11: the results of the cluster's agents land together, and each agent reads what its own alone leave. -/
theorem clusterCycle : Obligations.ClusterCycle := by
  unfold Obligations.ClusterCycle
  refine fun s c => ⟨runCycle_of_not_over, fun hover => ⟨_, _, runCycle_of_over hover, ?_⟩⟩
  obtain ⟨hclusters, -⟩ := landAll_pend (nextCycle s c) (clusterKeys s c) ((sget clusterInit s.clusters c).cycle + 1)
  rw [hclusters, cluster_nextCycle]
  refine ⟨rfl, rfl, fun a t ha ht hc => ?_⟩
  have hk := mem_clusterKeys ha ht hc
  obtain ⟨n, hn⟩ := agentOf_nextCycle (c := c) ha
  obtain ⟨b, hb, hpend, hreads⟩ := agentOf_landAll hn hk ((sget clusterInit s.clusters c).cycle + 1)
  obtain ⟨b', hb', -, hfile⟩ := agentOf_landDue ha ((sget clusterInit s.clusters c).cycle + 1)
  have hwaited : Agent.file { a with waitCount := n } = a.file := rfl
  obtain ⟨hlanes, huniform⟩ := hreads.trans (sameReads_of_file ((file_foldl_congr hwaited _).trans hfile.symm))
  exact ⟨hk, b, b', hb, hpend, hb', hlanes, huniform⟩

end

