-- ==== Sys2Proof/Proofs/IntegerWords.lean ====
section
/-! Integer words (R244): a word read as unsigned or signed, an integer taken modulo 2^w, and the widths of source operands (R149, R196). -/

namespace Sys2Proof.Machine

-- one declaration at a time: a thread for each would be too many
set_option Elab.async false

/-! ### Readings of a word -/

section
variable {w : Nat}

/-- The signed reading is two's complement. -/
theorem toS_toNat (hw : 0 < w) (a : BitVec w) : toS w a.toNat = a.toInt := by
  have hhalf : 2 ^ (w - 1) = 2 ^ w / 2 := by simp [Nat.pow_sub_one (by decide : (2 : Nat) ≠ 0) hw.ne']
  rw [toS, hhalf]
  exact signedReading_eq_toInt hw a

theorem ofI_eq_toNat_ofInt (w : Nat) (x : Int) : ofI w x = (BitVec.ofInt w x).toNat := (BitVec.toNat_ofInt x).symm

theorem ofI_lt (w : Nat) (x : Int) : ofI w x < 2 ^ w := by
  rw [ofI_eq_toNat_ofInt]
  exact (BitVec.ofInt w x).isLt

/-- An integer in the signed range is the signed reading of its word. -/
theorem toS_ofI (hw : 0 < w) {x : Int} (hlo : -2 ^ (w - 1) ≤ x) (hhi : x < 2 ^ (w - 1)) : toS w (ofI w x) = x := by
  rw [ofI_eq_toNat_ofInt, toS_toNat hw, BitVec.toInt_ofInt_eq_self hw hlo hhi]

theorem ofI_natCast {n : Nat} (h : n < 2 ^ w) : ofI w (n : Int) = n := by
  rw [ofI_eq_toNat_ofInt, BitVec.ofInt_natCast, BitVec.toNat_ofNat, Nat.mod_eq_of_lt h]

@[simp] theorem ofI_toInt (a : BitVec w) : ofI w a.toInt = a.toNat := by rw [ofI_eq_toNat_ofInt, BitVec.ofInt_toInt]

theorem readInt_signed (hw : 0 < w) (a : BitVec w) : readInt w false a.toNat = a.toInt := toS_toNat hw a

@[simp] theorem readInt_unsigned (w n : Nat) : readInt w true n = n := rfl

/-- Only the word 0 reads as 0. -/
theorem readInt_eq_zero (hw : 0 < w) (u : Bool) (a : BitVec w) : readInt w u a.toNat = 0 ↔ a.toNat = 0 := by
  cases u with
  | true => simp
  | false => rw [readInt_signed hw, ← BitVec.toInt_zero (w := w), BitVec.toInt_inj, ← BitVec.toNat_inj, BitVec.toNat_zero]

end

/-! ### Source operands -/

theorem widthOf_cases (h : Hdr) : widthOf h = 32 ∨ widthOf h = 64 := by
  unfold widthOf
  cases w64of h with
  | true => exact .inr rfl
  | false => exact .inl rfl

theorem widthOf_pos (h : Hdr) : 0 < widthOf h := by
  rcases widthOf_cases h with hw | hw <;> rw [hw] <;> decide

section
variable {l : Nat}

theorem val32_lt (a : Agent) (ex : List Nat) (o : Opnd) (hl : l < 32) : val32 a ex o l < 2 ^ 32 := by
  cases o with
  | v n => exact (vGet a n.toNat l).isLt
  | s n => exact Nat.mod_lt _ (by decide)
  | p n => exact (Bool.toNat_lt _).trans (by decide)
  | k n => exact (kGet a n.toNat).isLt
  | lid =>
    show (if isLadle a.key then 0 else l) < 2 ^ 32
    split <;> omega
  | amask =>
    show (if isLadle a.key then 1 else (maskOf ex).toNat) < 2 ^ 32
    split
    · decide
    · exact (maskOf ex).isLt
  | ones | sgn | fone | rsvd _ | zr => simp [val32]

theorem val64_lt (a : Agent) (o : Opnd) (l : Nat) : val64 a o l < 2 ^ 64 := by
  cases o with
  | v n =>
    have hlo := (vGet a n.toNat l).isLt
    have hhi := (vGet a (n.toNat + 1) l).isLt
    simp only [val64]
    omega
  | s n => exact (sGet a n.toNat).isLt
  | _ => exact (by decide : 0 < 2 ^ 64)

variable (c : Iss) {w : Nat}

theorem val_lt (hw : w = 32 ∨ w = 64) (o : Opnd) (hl : l < 32) : c.val w o l < 2 ^ w := by
  rcases hw with rfl | rfl
  · exact val32_lt c.a c.ex o hl
  · exact val64_lt c.a o l

theorem valB_lt (hw : w = 32 ∨ w = 64) (x : F3) (hl : l < 32) : c.valB w x l < 2 ^ w := by
  unfold Iss.valB
  split
  · exact ofI_lt _ _
  · exact val_lt c hw x.b hl

/-- A source operand is a word of its width. -/
theorem exists_val_eq (hw : w = 32 ∨ w = 64) (o : Opnd) (hl : l < 32) : ∃ a : BitVec w, c.val w o l = a.toNat :=
  ⟨BitVec.ofNat w (c.val w o l), by rw [BitVec.toNat_ofNat, Nat.mod_eq_of_lt (val_lt c hw o hl)]⟩

theorem exists_valB_eq (hw : w = 32 ∨ w = 64) (x : F3) (hl : l < 32) : ∃ b : BitVec w, c.valB w x l = b.toNat :=
  ⟨BitVec.ofNat w (c.valB w x l), by rw [BitVec.toNat_ofNat, Nat.mod_eq_of_lt (valB_lt c hw x hl)]⟩

/-- At 32 bits operand B with IMMB is the immediate itself (R196). -/
theorem valB_32 (x : F3) (l : Nat) : c.valB 32 x l = if immb x then x.imm.toNat else c.val 32 x.b l := by
  have himm : sext 32 32 x.imm.toNat = x.imm.toNat := by
    rw [sext, Nat.mod_eq_of_lt x.imm.isLt, toS_toNat (by decide), ofI_toInt]
  rw [Iss.valB, himm]

end

end Sys2Proof.Machine

end

