-- ==== Sys2Proof/Proofs/IntegerWrap.lean ====
section
/-! Integer results (R244, R245, R253): wrapped ones are those of words, saturated ones the exact value clamped. -/

namespace Sys2Proof.Machine

-- one declaration at a time: a thread for each would be too many
set_option Elab.async false

section
variable {w : Nat} (hw : 0 < w) (a b c : BitVec w)

/-! ### Wrapped results -/

theorem finishInt_wrap (w : Nat) (x : Int) : finishInt w false x = (BitVec.ofInt w x).toNat := ofI_eq_toNat_ofInt w x

include hw

theorem addInt_wrap : addInt w false a.toNat b.toNat = (a + b).toNat := by
  simp only [addInt, finishInt_wrap, toS_toNat hw, BitVec.ofInt_add, BitVec.ofInt_toInt]

theorem subInt_wrap : subInt w false a.toNat b.toNat = (a - b).toNat := by
  simp only [subInt, finishInt_wrap, toS_toNat hw, Int.sub_eq_add_neg, BitVec.sub_eq_add_neg, BitVec.ofInt_add, BitVec.ofInt_neg,
    BitVec.ofInt_toInt]

theorem negInt_wrap : negInt w false a.toNat = (-a).toNat := by
  simp only [negInt, finishInt_wrap, toS_toNat hw, BitVec.ofInt_neg, BitVec.ofInt_toInt]

/-- The magnitude is the value or its negation by the sign bit. -/
theorem absInt_wrap : absInt w false a.toNat = (if a.msb then -a else a).toNat := by
  simp only [absInt, finishInt_wrap, toS_toNat hw, BitVec.msb_eq_toInt, decide_eq_true_eq]
  split_ifs with hneg
  · rw [Int.ofNat_natAbs_of_nonpos hneg.le, BitVec.ofInt_neg, BitVec.ofInt_toInt]
  · rw [Int.natAbs_of_nonneg (not_lt.mp hneg), BitVec.ofInt_toInt]

theorem madInt_wrap : madInt w false a.toNat b.toNat c.toNat = (a * b + c).toNat := by
  simp only [madInt, finishInt_wrap, toS_toNat hw, BitVec.ofInt_add, BitVec.ofInt_mul, BitVec.ofInt_toInt]

/-! ### Saturated results -/

/-- A saturated result reads as the exact value clamped to the signed range. -/
theorem toS_finishInt_sat (x : Int) : toS w (finishInt w true x) = max (-2 ^ (w - 1)) (min (2 ^ (w - 1) - 1) x) := by
  have hsat : satS w x = max (-2 ^ (w - 1)) (min (2 ^ (w - 1) - 1) x) := by simp [satS]
  have hpos : (0 : Int) < 2 ^ (w - 1) := by positivity
  have hlo : -2 ^ (w - 1) ≤ satS w x := hsat ▸ le_max_left _ _
  have hhi : satS w x < 2 ^ (w - 1) := hsat ▸ max_lt (by omega) ((min_le_left _ _).trans_lt (by omega))
  rw [finishInt, if_pos rfl, toS_ofI hw hlo hhi, hsat]

end

section
variable {w : Nat} (a b : BitVec w)

/-! ### High products -/

theorem mulhInt_unsigned : mulhInt w true a.toNat b.toNat = a.toNat * b.toNat / 2 ^ w := by
  have hlt : a.toNat * b.toNat / 2 ^ w < 2 ^ w := Nat.div_lt_of_lt_mul (Nat.mul_lt_mul'' a.isLt b.isLt)
  rw [mulhInt, readInt_unsigned, readInt_unsigned, ← Nat.cast_mul, ← Int.natCast_div, ofI_natCast hlt]

/-- The high word of a number of two words, read from an integer of which it is the residue. -/
theorem toNat_high_ofInt (w : Nat) (x : Int) : ((BitVec.ofInt (2 * w) x).extractLsb' w w).toNat = ofI w (x / ((2 ^ w : Nat) : Int)) := by
  have hsq : 2 ^ (2 * w) = 2 ^ w * 2 ^ w := by rw [two_mul, pow_add]
  have hnat : (((BitVec.ofInt (2 * w) x).toNat : Nat) : Int) = x % (((2 ^ w : Nat) : Int) * ((2 ^ w : Nat) : Int)) := by
    rw [BitVec.toNat_ofInt, hsq, Int.toNat_of_nonneg (Int.emod_nonneg _ (by positivity)), Nat.cast_mul]
  have hm : ((2 ^ w : Nat) : Int) ≠ 0 := by positivity
  rw [ofI, BitVec.extractLsb'_toNat, Nat.shiftRight_eq_div_pow, ← Int.toNat_natCast (_ % _), Int.natCast_mod, Int.natCast_div, hnat]
  generalize ((2 ^ w : Nat) : Int) = m at hm ⊢
  rw [Int.emod_def x, mul_assoc, Int.sub_mul_ediv_left _ _ hm, Int.sub_mul_emod_self_left]

theorem mulhInt_signed (hw : 0 < w) :
    mulhInt w false a.toNat b.toNat = ((a.signExtend (2 * w) * b.signExtend (2 * w)).extractLsb' w w).toNat := by
  have hprod : a.signExtend (2 * w) * b.signExtend (2 * w) = BitVec.ofInt (2 * w) (a.toInt * b.toInt) := by
    rw [BitVec.ofInt_mul, ← BitVec.toInt_signExtend_of_le (x := a) (by omega : w ≤ 2 * w),
      ← BitVec.toInt_signExtend_of_le (x := b) (by omega : w ≤ 2 * w), BitVec.ofInt_toInt, BitVec.ofInt_toInt]
  rw [hprod, toNat_high_ofInt, mulhInt, readInt_signed hw, readInt_signed hw]

/-! ### Shifts -/

theorem shlInt_word (n : Nat) : shlInt w n a.toNat = (a <<< n).toNat := by
  unfold shlInt
  split_ifs with hn
  · rw [BitVec.shiftLeft_eq_zero hn, BitVec.toNat_zero]
  · rw [BitVec.toNat_shiftLeft, Nat.shiftLeft_eq]

theorem shrInt_word (n : Nat) : shrInt w n a.toNat = (a >>> n).toNat := by
  unfold shrInt
  split_ifs with hn
  · rw [BitVec.ushiftRight_eq_zero hn, BitVec.toNat_zero]
  · rw [BitVec.toNat_ushiftRight, Nat.shiftRight_eq_div_pow]

/-- Shifting right by more than the width less one leaves the sign, as that shift does. -/
theorem toInt_ediv_saturates {n : Nat} (hn : w - 1 ≤ n) : a.toInt / ((2 ^ n : Nat) : Int) = a.toInt / ((2 ^ (w - 1) : Nat) : Int) := by
  have hle : (2 : Int) ^ (w - 1) ≤ 2 ^ n := pow_le_pow_right₀ (by decide) hn
  have hlo := a.le_toInt
  have hhi := a.toInt_lt
  push_cast
  rcases lt_or_ge a.toInt 0 with hneg | hnonneg
  · rw [Int.ediv_eq_neg_one_of_neg_of_le hneg (by omega), Int.ediv_eq_neg_one_of_neg_of_le hneg (by omega)]
  · rw [Int.ediv_eq_zero_of_lt hnonneg (by omega), Int.ediv_eq_zero_of_lt hnonneg hhi]

theorem sarInt_word (hw : 0 < w) (n : Nat) : sarInt w n a.toNat = (a.sshiftRight n).toNat := by
  have hdiv : a.toInt / ((2 ^ min n (w - 1) : Nat) : Int) = a.toInt / ((2 ^ n : Nat) : Int) := by
    rcases le_total n (w - 1) with hn | hn
    · rw [min_eq_left hn]
    · rw [min_eq_right hn, toInt_ediv_saturates a hn]
  rw [sarInt, toS_toNat hw, hdiv, BitVec.sshiftRight_eq, Int.shiftRight_eq_div_pow, ofI_eq_toNat_ofInt]

/-- The two parts of a rotation share no bit. -/
theorem rotInt_word (hw : 0 < w) (n : Nat) : rotInt w n a.toNat = (a.rotateLeft n).toNat := by
  have hk : n % w < w := Nat.mod_lt n hw
  rw [BitVec.toNat_rotateLeft]
  simp only [rotInt]
  generalize n % w = k at hk ⊢
  have hsplit : 2 ^ w = 2 ^ (w - k) * 2 ^ k := by rw [← pow_add, Nat.sub_add_cancel hk.le]
  have hhigh : a.toNat * 2 ^ k % 2 ^ w = (a.toNat % 2 ^ (w - k)) <<< k := by rw [hsplit, Nat.mul_mod_mul_right, Nat.shiftLeft_eq]
  have hlow : a.toNat / 2 ^ (w - k) < 2 ^ k := Nat.div_lt_of_lt_mul (hsplit ▸ a.isLt)
  rw [Nat.shiftLeft_eq, Nat.shiftRight_eq_div_pow, hhigh, Nat.shiftLeft_add_eq_or_of_lt hlow]

end

end Sys2Proof.Machine

open Sys2Proof Sys2Proof.Machine

/-- Settles O55: a wrapped result is the word of the exact integer, a saturated one reads as that integer clamped. -/
theorem integerWrap : Obligations.IntegerWrap := by
  unfold Obligations.IntegerWrap
  intro w a b c hw
  have hsat := toS_finishInt_sat hw
  refine ⟨addInt_wrap hw a b, subInt_wrap hw a b, (BitVec.toNat_mul a b).symm, negInt_wrap hw a, absInt_wrap hw a, madInt_wrap hw a b c,
    ?_, ?_, ?_, ?_, ?_, mulhInt_unsigned a b, mulhInt_signed a b hw,
    fun n => ⟨shlInt_word a n, shrInt_word a n, sarInt_word a hw n, rotInt_word a hw n⟩⟩
  · rw [addInt, hsat, toS_toNat hw, toS_toNat hw]
  · rw [subInt, hsat, toS_toNat hw, toS_toNat hw]
  · rw [negInt, hsat, toS_toNat hw]
  · rw [absInt, hsat, toS_toNat hw]
  · rw [madInt, hsat, toS_toNat hw, toS_toNat hw, toS_toNat hw]

end

