-- ==== Sys2Proof/Proofs/IntegerForms.lean ====
section
/-! Integer arithmetic, comparisons, moves, logic and shifts at their issue (R242 to R256). -/

namespace Sys2Proof.Machine

-- one declaration at a time: a thread for each would be too many
set_option Elab.async false

/-! ### What an instruction whose only effect is a result comes to, by the form of its result -/

/-- An instruction whose own effect always ends in a next state completes with it. -/
theorem completesAs_of_ok {i : Instr} {h : Hdr} {f : Iss → Eff} {g : Iss → State} (hexec : ∀ s, exec i s = issue i h s f)
    (hok : ∀ c, f c = .ok (g c)) : completesAs i h g := fun s c hc => by
  rw [hexec, issue_goes f hc, hok, result_ok]

section
variable {i : Instr} {h : Hdr} {x : F3} {d : Opnd} {w dw lat : Nat}

/-- A value for each lane. -/
theorem completesAs_alu {f : Iss → Nat → Nat} (hexec : ∀ s, exec i s = issue i h s fun c => c.alu i d w lat (f c)) :
    completesAs i h fun c => c.wrote i d w lat (f c) := completesAs_of_ok hexec fun _ => rfl

/-- A predicate for each lane. -/
theorem completesAs_aluP {f : Iss → Nat → Bool × FFlags} (hexec : ∀ s, exec i s = issue i h s fun c => c.aluP i d lat (f c)) :
    completesAs i h fun c => c.wroteP i d lat (f c) := completesAs_of_ok hexec fun _ => rfl

/-- A function of A and B. -/
theorem completesAs_binW (f : Nat → Nat → Nat) (hexec : ∀ s, exec i s = issue i h s fun c => c.binW i x w lat f) :
    completesAs i h fun c => c.wrote i x.d w lat fun l => f (c.val w x.a l) (c.valB w x l) := completesAs_alu hexec

/-- A function of A. -/
theorem completesAs_unW (f : Nat → Nat) (hexec : ∀ s, exec i s = issue i h s fun c => c.unW i x w dw lat f) :
    completesAs i h fun c => c.wrote i x.d dw lat fun l => f (c.val w x.a l) := completesAs_alu hexec

/-- A shift of A by B's low word (R253). -/
theorem completesAs_shift (f : Nat → Nat → Nat → Nat) (hexec : ∀ s, exec i s = issue i x.h s fun c => c.shift i x f) :
    completesAs i x.h fun c => c.wrote i x.d (widthOf x.h) 4 fun l =>
      f (widthOf x.h) (shiftAmount (widthOf x.h) (bit x.h.mod 0) (c.valB 32 x l)) (c.val (widthOf x.h) x.a l) := completesAs_alu hexec

end

/-! ### Instructions whose values have a rule of their own -/

section
variable (x : F3)

/-- IDIV (R247): 12 cycles. -/
theorem idiv_completes : completesAs (.idiv x) x.h fun c => c.wrote (.idiv x) x.d (widthOf x.h) 12 fun l =>
    divInt (widthOf x.h) (bit x.h.mod 0) (c.val (widthOf x.h) x.a l) (c.valB (widthOf x.h) x l) := completesAs_binW (divInt _ _) fun _ => rfl

/-- IREM (R247): 12 cycles. -/
theorem irem_completes : completesAs (.irem x) x.h fun c => c.wrote (.irem x) x.d (widthOf x.h) 12 fun l =>
    remInt (widthOf x.h) (bit x.h.mod 0) (c.val (widthOf x.h) x.a l) (c.valB (widthOf x.h) x l) := completesAs_binW (remInt _ _) fun _ => rfl

/-- FSHF (R254). -/
theorem fshf_completes : completesAs (.fshf x) x.h fun c => c.wrote (.fshf x) x.d 32 4 fun l => funnel (bit x.h.mod 0)
    (if bit x.h.mod 2 then c.val 32 x.c l % 32 else min (c.val 32 x.c l) 32) (c.val 32 x.a l) (c.valB 32 x l) := completesAs_alu fun _ => rfl

end

end Sys2Proof.Machine

open Sys2Proof Sys2Proof.Machine

/-- Settles O14, instruction by instruction: the form of its result and the function of R245, R247 or R251; IADDC has its carry besides
(R246). -/
theorem integerComplete : Obligations.IntegerComplete := by
  unfold Obligations.IntegerComplete
  intro x
  refine ⟨?iadd, ?isub, ?imul, ?imulh, ?imad, ?imadw, ?idiv, ?irem, ?ineg, ?iabs, ?imin, ?imax, ?lea, ?dot4, ?iaddc⟩
  case iadd => exact completesAs_binW (addInt _ _) fun _ => rfl
  case isub => exact completesAs_binW (subInt _ _) fun _ => rfl
  case imul => exact completesAs_binW (mulInt _) fun _ => rfl
  case imulh => exact completesAs_binW (mulhInt _ _) fun _ => rfl
  case imad => exact completesAs_alu fun _ => rfl
  case imadw => exact completesAs_alu fun _ => rfl
  case idiv => exact idiv_completes x
  case irem => exact irem_completes x
  case ineg => exact completesAs_unW (negInt _ _) fun _ => rfl
  case iabs => exact completesAs_unW (absInt _ _) fun _ => rfl
  case imin => exact completesAs_binW (minInt _ _) fun _ => rfl
  case imax => exact completesAs_binW (maxInt _ _) fun _ => rfl
  case lea => exact completesAs_binW (leaInt _ _) fun _ => rfl
  case dot4 => exact completesAs_alu fun _ => rfl
  case iaddc => exact completesAs_of_ok (fun _ => rfl) fun _ => rfl

/-- Settles O15, instruction by instruction: the form of its result and the function of R248 to R250 or R252 to R256. -/
theorem logicMoveComplete : Obligations.LogicMoveComplete := by
  unfold Obligations.LogicMoveComplete
  intro x y
  refine ⟨?icmp, ?psel, ?mov, ?movi, ?movil, ?plut, ?p2v, ?v2p, ?and, ?or, ?xor, ?andn, ?not, ?lut3, ?shl, ?shr, ?sar, ?rot, ?fshf, ?bfe, ?bfi,
    ?popc, ?clz, ?ctz, ?brev, ?bperm⟩
  case icmp => exact completesAs_aluP fun _ => rfl
  case psel => exact completesAs_alu fun _ => rfl
  case mov => exact completesAs_unW id fun _ => rfl
  case movi => exact completesAs_alu fun _ => rfl
  case movil => exact completesAs_alu fun _ => rfl
  case plut => exact completesAs_aluP fun _ => rfl
  case p2v => exact completesAs_alu fun _ => rfl
  case v2p => exact completesAs_of_ok (fun _ => rfl) fun _ => rfl
  case and => exact completesAs_binW Nat.land fun _ => rfl
  case or => exact completesAs_binW Nat.lor fun _ => rfl
  case xor => exact completesAs_binW Nat.xor fun _ => rfl
  case andn => exact completesAs_binW (fun a b => a &&& (2 ^ widthOf x.h - 1 - b)) fun _ => rfl
  case not => exact completesAs_unW (2 ^ widthOf x.h - 1 - ·) fun _ => rfl
  case lut3 => exact completesAs_alu fun _ => rfl
  case shl => exact completesAs_shift shlInt fun _ => rfl
  case shr => exact completesAs_shift shrInt fun _ => rfl
  case sar => exact completesAs_shift sarInt fun _ => rfl
  case rot => exact completesAs_shift rotInt fun _ => rfl
  case fshf => exact fshf_completes x
  case bfe => exact completesAs_alu fun _ => rfl
  case bfi => exact completesAs_alu fun _ => rfl
  case popc => exact completesAs_unW (popCount · (widthOf x.h)) fun _ => rfl
  case clz => exact completesAs_unW (clz _) fun _ => rfl
  case ctz => exact completesAs_unW (ctz _) fun _ => rfl
  case brev => exact completesAs_unW (brev _) fun _ => rfl
  case bperm => exact completesAs_alu fun _ => rfl

end

