-- ==== Sys2Proof/Proofs/Division.lean ====
section
/-! Division (R247): IDIV and IREM on words, and the equation of quotient and remainder. -/

namespace Sys2Proof.Machine

-- one declaration at a time: a thread for each would be too many
set_option Elab.async false

/-- A quotient and a remainder of a division that truncates toward zero (R247). -/
def Truncates (a b q r : Int) : Prop := a = q * b + r ∧ r.natAbs < b.natAbs ∧ (r = 0 ∨ (r < 0 ↔ a < 0))

/-- A signed quotient that is not representable (R247). -/
def QuotientOverflows (w : Nat) (u : Bool) (a b : Int) : Prop := u = false ∧ a = -2 ^ (w - 1) ∧ b = -1

/-- Truncated quotient and remainder of integers are such a pair. -/
theorem truncates_tdiv_tmod {a b : Int} (hb : b ≠ 0) : Truncates a b (a.tdiv b) (a.tmod b) := by
  refine ⟨(Int.tdiv_mul_add_tmod a b).symm, ?_, ?_⟩
  · rw [Int.natAbs_tmod]
    exact Nat.mod_lt _ (Int.natAbs_pos.mpr hb)
  · by_cases hdvd : b ∣ a
    · exact .inl (Int.tmod_eq_zero_of_dvd hdvd)
    · have hsign : (a.tmod b).sign = a.sign := by rw [Int.sign_tmod, if_neg hdvd]
      exact .inr (by rw [← Int.sign_eq_neg_one_iff_neg, hsign, Int.sign_eq_neg_one_iff_neg])

/-! ### Zero divisors -/

@[simp] theorem divInt_zero (w : Nat) (u : Bool) (n : Nat) : divInt w u n 0 = 2 ^ w - 1 := if_pos rfl

@[simp] theorem remInt_zero (w : Nat) (u : Bool) (n : Nat) : remInt w u n 0 = n := if_pos rfl

section
variable {w : Nat} (hw : 0 < w) (u : Bool) {a b : BitVec w}

theorem divInt_of_ne (h : b.toNat ≠ 0) : divInt w u a.toNat b.toNat = ofI w (Int.tdiv (readInt w u a.toNat) (readInt w u b.toNat)) := if_neg h

theorem remInt_of_ne (h : b.toNat ≠ 0) : remInt w u a.toNat b.toNat = ofI w (Int.tmod (readInt w u a.toNat) (readInt w u b.toNat)) := if_neg h

include hw

/-! ### Overflow -/

/-- The least number by -1: its quotient is not representable and wraps to itself. -/
theorem divInt_overflow (ha : readInt w false a.toNat = -2 ^ (w - 1)) (hb : readInt w false b.toNat = -1) :
    divInt w false a.toNat b.toNat = 2 ^ (w - 1) := by
  have hne : b.toNat ≠ 0 := fun h0 => absurd ((readInt_eq_zero hw false b).mpr h0) (by rw [hb]; decide)
  have hlt : 2 ^ (w - 1) < 2 ^ w := Nat.pow_lt_pow_right (by decide) (by omega)
  rw [divInt_of_ne false hne, ha, hb, Int.tdiv_neg, Int.tdiv_one, neg_neg]
  exact_mod_cast ofI_natCast hlt

theorem remInt_overflow (hb : readInt w false b.toNat = -1) : remInt w false a.toNat b.toNat = 0 := by
  have hne : b.toNat ≠ 0 := fun h0 => absurd ((readInt_eq_zero hw false b).mpr h0) (by rw [hb]; decide)
  rw [remInt_of_ne false hne, hb, Int.tmod_neg, Int.tmod_one]
  simp [ofI]

/-! ### Every other division -/

/-- A representable quotient reads as the truncated quotient of the operands as read. -/
theorem readInt_divInt (hb : readInt w u b.toNat ≠ 0)
    (hfits : ¬ QuotientOverflows w u (readInt w u a.toNat) (readInt w u b.toNat)) :
    readInt w u (divInt w u a.toNat b.toNat) = (readInt w u a.toNat).tdiv (readInt w u b.toNat) := by
  have hne : b.toNat ≠ 0 := mt (readInt_eq_zero hw u b).mpr hb
  rw [divInt_of_ne u hne]
  cases u with
  | true =>
    have hlt : a.toNat / b.toNat < 2 ^ w := (Nat.div_le_self _ _).trans_lt a.isLt
    rw [readInt_unsigned, readInt_unsigned, readInt_unsigned, ← Int.ofNat_tdiv, ofI_natCast hlt]
  | false =>
    have hword : a ≠ BitVec.intMin w ∨ b ≠ -1#w := by
      by_contra hboth
      obtain ⟨rfl, rfl⟩ : a = BitVec.intMin w ∧ b = -1#w := by simpa using hboth
      refine hfits ⟨rfl, ?_, ?_⟩
      · rw [readInt_signed hw, BitVec.toInt_intMin_of_pos hw]
      · rw [readInt_signed hw, BitVec.neg_one_eq_allOnes, BitVec.toInt_allOnes, if_pos hw]
    rw [readInt_signed hw, readInt_signed hw, ← BitVec.toInt_sdiv_of_ne_or_ne a b hword, ofI_toInt, readInt_signed hw]

/-- Every remainder is representable. -/
theorem readInt_remInt (hb : readInt w u b.toNat ≠ 0) :
    readInt w u (remInt w u a.toNat b.toNat) = (readInt w u a.toNat).tmod (readInt w u b.toNat) := by
  have hne : b.toNat ≠ 0 := mt (readInt_eq_zero hw u b).mpr hb
  rw [remInt_of_ne u hne]
  cases u with
  | true =>
    have hlt : a.toNat % b.toNat < 2 ^ w := (Nat.mod_le _ _).trans_lt a.isLt
    rw [readInt_unsigned, readInt_unsigned, readInt_unsigned, ← Int.ofNat_tmod, ofI_natCast hlt]
  | false => rw [readInt_signed hw, readInt_signed hw, ← BitVec.toInt_srem, ofI_toInt, readInt_signed hw]

/-- The quotient of IDIV: all ones for a zero divisor, the dividend's bits on overflow, else that of truncation (R247). -/
theorem divInt_rule : (readInt w u b.toNat = 0 → divInt w u a.toNat b.toNat = 2 ^ w - 1)
    ∧ (QuotientOverflows w u (readInt w u a.toNat) (readInt w u b.toNat) → divInt w u a.toNat b.toNat = 2 ^ (w - 1))
    ∧ (readInt w u b.toNat ≠ 0 → ¬ QuotientOverflows w u (readInt w u a.toNat) (readInt w u b.toNat) →
      ∃ r, Truncates (readInt w u a.toNat) (readInt w u b.toNat) (readInt w u (divInt w u a.toNat b.toNat)) r) := by
  refine ⟨fun hzero => ?_, ?_, fun hne hfits => ⟨(readInt w u a.toNat).tmod (readInt w u b.toNat), ?_⟩⟩
  · rw [(readInt_eq_zero hw u b).mp hzero, divInt_zero]
  · rintro ⟨rfl, ha, hb⟩
    exact divInt_overflow hw ha hb
  · rw [readInt_divInt hw u hne hfits]
    exact truncates_tdiv_tmod hne

/-- The remainder of IREM: the dividend for a zero divisor, 0 on overflow, else that of truncation (R247). -/
theorem remInt_rule : (readInt w u b.toNat = 0 → remInt w u a.toNat b.toNat = a.toNat)
    ∧ (QuotientOverflows w u (readInt w u a.toNat) (readInt w u b.toNat) → remInt w u a.toNat b.toNat = 0)
    ∧ (readInt w u b.toNat ≠ 0 → ∃ q, Truncates (readInt w u a.toNat) (readInt w u b.toNat) q (readInt w u (remInt w u a.toNat b.toNat))) := by
  refine ⟨fun hzero => ?_, ?_, fun hne => ⟨(readInt w u a.toNat).tdiv (readInt w u b.toNat), ?_⟩⟩
  · rw [(readInt_eq_zero hw u b).mp hzero, remInt_zero]
  · rintro ⟨rfl, -, hb⟩
    exact remInt_overflow hw hb
  · rw [readInt_remInt hw u hne]
    exact truncates_tdiv_tmod hne

end

end Sys2Proof.Machine

open Sys2Proof Sys2Proof.Machine

/-- Settles O56: the operands of a lane are words, on which the quotient and the remainder obey the rule. -/
theorem divisionRule : Obligations.DivisionRule := by
  unfold Obligations.DivisionRule
  intro x s c
  refine ⟨fun hc => ⟨_, idiv_completes x s c hc, fun l hl => ?_⟩, fun hc => ⟨_, irem_completes x s c hc, fun l hl => ?_⟩⟩
  · obtain ⟨a, ha⟩ := exists_val_eq c (widthOf_cases x.h) x.a hl
    obtain ⟨b, hb⟩ := exists_valB_eq c (widthOf_cases x.h) x hl
    simp only [ha, hb]
    exact divInt_rule (widthOf_pos x.h) _
  · obtain ⟨a, ha⟩ := exists_val_eq c (widthOf_cases x.h) x.a hl
    obtain ⟨b, hb⟩ := exists_valB_eq c (widthOf_cases x.h) x hl
    simp only [ha, hb]
    obtain ⟨hzero, hover, hrest⟩ := remInt_rule (widthOf_pos x.h) (bit x.h.mod 0) (a := a) (b := b)
    exact ⟨hzero, hover, fun hne _ => hrest hne⟩

end

