-- ==== Sys2Proof/Proofs/FunnelShift.lean ====
section
/-! The funnel shift (R254) as a shift of one 64-bit word. -/

namespace Sys2Proof.Machine

-- one declaration at a time: a thread for each would be too many
set_option Elab.async false

section
variable (hi lo : BitVec 32) (n : Nat)

theorem toNat_pair : (hi ++ lo).toNat = hi.toNat * 2 ^ 32 + lo.toNat := by
  rw [BitVec.toNat_append, ← Nat.shiftLeft_add_eq_or_of_lt lo.isLt, Nat.shiftLeft_eq]

theorem funnel_right : funnel true n lo.toNat hi.toNat = (((hi ++ lo) >>> n).extractLsb' 0 32).toNat := by
  rw [BitVec.extractLsb'_toNat, BitVec.toNat_ushiftRight, toNat_pair, Nat.shiftRight_zero, Nat.shiftRight_eq_div_pow]
  simp only [funnel, if_true]

/-- What the shift pushes out above bit 63 does not reach the high word. -/
theorem funnel_left : funnel false n lo.toNat hi.toNat = (((hi ++ lo) <<< n).extractLsb' 32 32).toNat := by
  rw [BitVec.extractLsb'_toNat, BitVec.toNat_shiftLeft, toNat_pair, Nat.shiftRight_eq_div_pow, Nat.shiftLeft_eq, pow_add,
    Nat.mod_mul_right_div_self, Nat.mod_mod]
  simp only [funnel, Bool.false_eq_true, if_false]

/-- The direction of the shift picks the word that is kept. -/
theorem funnel_word (r : Bool) : funnel r n lo.toNat hi.toNat =
    (if r then ((hi ++ lo) >>> n).extractLsb' 0 32 else ((hi ++ lo) <<< n).extractLsb' 32 32).toNat := by
  cases r with
  | true => exact funnel_right hi lo n
  | false => exact funnel_left hi lo n

end

end Sys2Proof.Machine

open Sys2Proof Sys2Proof.Machine

/-- Settles O57: the operands of a lane are words, and FSHF shifts the pair of them. -/
theorem funnelShift : Obligations.FunnelShift := by
  unfold Obligations.FunnelShift
  intro x s c hc
  refine ⟨_, fshf_completes x s c hc, fun l hl => ?_⟩
  obtain ⟨lo, hlo⟩ := exists_val_eq c (.inl rfl) x.a hl
  obtain ⟨hi, hhi⟩ := exists_valB_eq c (.inl rfl) x hl
  simp only [← valB_32, hlo, hhi, BitVec.ofNat_toNat, BitVec.setWidth_eq]
  exact funnel_word hi lo _ _

end

