-- ==== Sys2Proof/Proofs/FloatForms.lean ====
section
/-! Floating-point arithmetic, special functions and binary64 at their issue (R263 to R275). -/

namespace Sys2Proof.Machine

-- one declaration at a time: a thread for each would be too many
set_option Elab.async false

/-! ### Results with flags -/

theorem aluF_eq_wroteF (c : Iss) (i : Instr) (d : Opnd) (w lat : Nat) (f : Nat → Nat × FFlags) :
    c.aluF i d w lat f = .ok (c.wroteF i d w lat f) := by
  simp only [Iss.aluF, Iss.wroteF, List.flatMap_map, List.map_map, Function.comp_def]

section
variable {i : Instr} {h : Hdr} {x : F3} {d : Opnd} {w lat : Nat}

/-- A value and flags for each lane. -/
theorem completesAs_aluF {f : Iss → Nat → Nat × FFlags} (hexec : ∀ s, exec i s = issue i h s fun c => c.aluF i d w lat (f c)) :
    completesAs i h fun c => c.wroteF i d w lat (f c) := completesAs_of_ok hexec fun c => aluF_eq_wroteF c i d w lat (f c)

/-- A binary32 or packed function of A and B, in a mode that the issue reads. -/
theorem completesAs_fp2 (f : Iss → Nat → Nat → Nat × FFlags) (hexec : ∀ s, exec i s = issue i h s fun c => c.fp2 i x (f c)) :
    completesAs i h fun c => c.wroteF i x.d 32 4 fun l => f c (c.val 32 x.a l) (c.valB 32 x l) := completesAs_aluF hexec

/-- A special function of A (R272). -/
theorem completesAs_sfu (f : Iss → SFun) (hexec : ∀ s, exec i s = issue i h s fun c => c.sfu i x (f c)) :
    completesAs i h fun c => c.wroteF i x.d 32 12 fun l => specialFn (f c) (BitVec.ofNat 32 (c.val 32 x.a l)) := completesAs_aluF hexec

end

/-! ### The FP64 lanes of a quadrant (R275) -/

@[simp] theorem dpTaken_mode (c : Iss) (h : Hdr) : c.dpTaken.mode h = c.mode h := by rw [Iss.mode, dpTaken_a, Iss.mode]

@[simp] theorem dpTaken_pred (c : Iss) (o : Opnd) (l : Nat) : c.dpTaken.pred o l = c.pred o l := by
  unfold Iss.dpTaken; split <;> rfl

section
variable {i : Instr} {h : Hdr} {d : Opnd} {w lat : Nat}

/-- With the lanes busy the issue is put off. -/
theorem completesWhen_lacking_of_onDp {f : Iss → Eff} (hexec : ∀ s, exec i s = issue i h s fun c => c.onDp f) :
    completesWhen i h (·.dpFree = false) Iss.lacking := fun s c hc hbusy => by
  have hlater : c.onDp f = c.later := if_neg (by simp [hbusy])
  rw [hexec, issue_goes _ hc, hlater]
  rfl

/-- With the lanes free the instruction takes them and completes. -/
theorem completesWhen_free_of_onDp {f : Iss → Eff} {g : Iss → State} (hexec : ∀ s, exec i s = issue i h s fun c => c.onDp f)
    (hok : ∀ c, f c.dpTaken = .ok (g c)) : completesWhen i h (·.dpFree = true) g := fun s c hc hfree => by
  have htaken : c.onDp f = f c.dpTaken := if_pos hfree
  rw [hexec, issue_goes _ hc, htaken, hok, result_ok]

/-- A value and flags for each lane, which do not depend on the lanes taken. -/
theorem completesWhen_aluF_onDp {f : Iss → Nat → Nat × FFlags}
    (hexec : ∀ s, exec i s = issue i h s fun c => c.onDp fun c => c.aluF i d w lat (f c)) (htaken : ∀ c, f c.dpTaken = f c) :
    completesWhen i h (·.dpFree = true) fun c => c.dpTaken.wroteF i d w lat (f c) :=
  completesWhen_free_of_onDp hexec fun c => by rw [aluF_eq_wroteF, htaken]

/-- A predicate and flags for each lane, which do not depend on the lanes taken. -/
theorem completesWhen_aluP_onDp {f : Iss → Nat → Bool × FFlags}
    (hexec : ∀ s, exec i s = issue i h s fun c => c.onDp fun c => c.aluP i d lat (f c)) (htaken : ∀ c, f c.dpTaken = f c) :
    completesWhen i h (·.dpFree = true) fun c => c.dpTaken.wroteP i d lat (f c) :=
  completesWhen_free_of_onDp hexec fun c => by rw [htaken]; rfl

end

theorem doubleForms_lacking (x : F3) : ∀ f ∈ doubleForms, completesWhen (f x) x.h (·.dpFree = false) Iss.lacking := by
  simp only [doubleForms, List.forall_mem_cons, List.not_mem_nil, false_implies, implies_true, and_true]
  refine ⟨?dadd, ?dmul, ?dfma, ?dcmp⟩
  case dadd => exact completesWhen_lacking_of_onDp fun _ => rfl
  case dmul => exact completesWhen_lacking_of_onDp fun _ => rfl
  case dfma => exact completesWhen_lacking_of_onDp fun _ => rfl
  case dcmp => exact completesWhen_lacking_of_onDp fun _ => rfl

end Sys2Proof.Machine

open Sys2Proof Sys2Proof.Machine

/-- Settles O17, instruction by instruction: the form of its result and the function of R267 to R271 or R274; which lanes FCMP evaluates
rests on log entry 12. -/
theorem floatComplete : Obligations.FloatComplete := by
  unfold Obligations.FloatComplete
  intro x
  refine ⟨?fadd, ?fsub, ?fmul, ?ffma, ?fmin, ?fmax, ?fcmp, ?fclass, ?frnd, ?ffrac, ?fscale, ?pkadd, ?pkmul, ?pkfma, ?pkmax⟩
  case fadd => exact completesAs_fp2 (fun c a b => satIf f32 x.h (addCode f32 (c.mode x.h) a b)) fun _ => rfl
  case fsub => exact completesAs_fp2 (fun c a b => satIf f32 x.h (addCode f32 (c.mode x.h) a (negCode f32 b))) fun _ => rfl
  case fmul => exact completesAs_fp2 (fun c a b => satIf f32 x.h (mulCode f32 (c.mode x.h) a b)) fun _ => rfl
  case ffma => exact completesAs_aluF fun _ => rfl
  case fmin => exact completesAs_fp2 (fun _ => minMaxCode f32 false) fun _ => rfl
  case fmax => exact completesAs_fp2 (fun _ => minMaxCode f32 true) fun _ => rfl
  case fcmp => exact completesAs_aluP fun _ => rfl
  case fclass => exact completesAs_unW (2 ^ fclassBit ·) fun _ => rfl
  case frnd => exact completesAs_aluF fun _ => rfl
  case ffrac => exact completesAs_aluF fun _ => rfl
  case fscale => exact completesAs_fp2 (fun c a n => satIf f32 x.h (fscaleCode (c.mode x.h) a n)) fun _ => rfl
  case pkadd =>
    exact completesAs_fp2 (fun c a b => packedHalves fun k => satIf f16 x.h (addCode f16 (c.mode x.h) (halfOf k a) (halfOf k b))) fun _ => rfl
  case pkmul =>
    exact completesAs_fp2 (fun c a b => packedHalves fun k => satIf f16 x.h (mulCode f16 (c.mode x.h) (halfOf k a) (halfOf k b))) fun _ => rfl
  case pkfma => exact completesAs_aluF fun _ => rfl
  case pkmax => exact completesAs_fp2 (fun _ a b => packedHalves fun k => minMaxCode f16 true (halfOf k a) (halfOf k b)) fun _ => rfl

/-- Settles O18: each special function has its own result of 12 cycles, a free value inside the bound of R272 (log entry 4); a binary64
operation is one on the FP64 lanes, whose taking changes none of its operands. -/
theorem specialDoubleComplete : Obligations.SpecialDoubleComplete := by
  unfold Obligations.SpecialDoubleComplete
  intro x
  refine ⟨?frcp, ?frsq, ?fsqrt, ?fexp2, ?flog2, ?fsin, ?fcos, ?ftanh, ?dadd, ?dmul, ?dfma, ?dcmp, doubleForms_lacking x⟩
  case frcp => exact completesAs_sfu (fun _ => .rcp) fun _ => rfl
  case frsq => exact completesAs_sfu (fun _ => .rsq) fun _ => rfl
  case fsqrt => exact completesAs_sfu (fun c => .sqrt (c.mode x.h)) fun _ => rfl
  case fexp2 => exact completesAs_sfu (fun _ => .exp2) fun _ => rfl
  case flog2 => exact completesAs_sfu (fun _ => .log2) fun _ => rfl
  case fsin => exact completesAs_sfu (fun _ => .sin) fun _ => rfl
  case fcos => exact completesAs_sfu (fun _ => .cos) fun _ => rfl
  case ftanh => exact completesAs_sfu (fun _ => .tanh) fun _ => rfl
  case dadd => exact completesWhen_aluF_onDp (fun _ => rfl) fun c => by simp only [dpTaken_mode, dpTaken_val]
  case dmul => exact completesWhen_aluF_onDp (fun _ => rfl) fun c => by simp only [dpTaken_mode, dpTaken_val]
  case dfma => exact completesWhen_aluF_onDp (fun _ => rfl) fun c => by simp only [dpTaken_mode, dpTaken_val]
  case dcmp => exact completesWhen_aluP_onDp (fun _ => rfl) fun c => by simp only [dpTaken_pred, dpTaken_val]

end

