-- ==== Sys2Proof/Proofs/EventsTaken.lean ====
section
/-! What is left of agents, teams and grids when an event is taken (R318, R319, R389, R394, R396). -/

namespace Sys2Proof.Machine

-- one declaration at a time: a thread for each would be too many
set_option Elab.async false

/-! ### What the log and the engines leave alone -/

/-- The agents, teams and grids of a state are those of another. -/
structure SameWork (s t : State) : Prop where
  agents : t.agents = s.agents
  teams : t.teams = s.teams
  grids : t.grids = s.grids

theorem SameWork.trans {s t u : State} (h : SameWork s t) (k : SameWork t u) : SameWork s u :=
  ⟨k.agents.trans h.agents, k.teams.trans h.teams, k.grids.trans h.grids⟩

theorem sameWork_ite {c : Prop} [Decidable c] {s t u : State} (ht : SameWork s t) (hu : SameWork s u) : SameWork s (if c then t else u) := by
  split <;> assumption

theorem foldl_sameWork {α : Type} {f : State → α → State} (hf : ∀ t a, SameWork t (f t a)) (l : List α) (s : State) : SameWork s (l.foldl f s) :=
  foldl_keeps (P := SameWork s) (fun t a h => h.trans (hf t a)) l ⟨rfl, rfl, rfl⟩

theorem agentOf_congr {s t : State} (h : t.agents = s.agents) (k : AgentKey) : agentOf t k = agentOf s k := congrArg (List.find? _) h

theorem teamOf_congr {s t : State} (h : t.teams = s.teams) (u : Nat) : teamOf t u = teamOf s u := congrArg (List.find? _) h

theorem gridOf_congr {s t : State} (h : t.grids = s.grids) (n : Nat) : gridOf t n = gridOf s n := congrArg (List.find? _) h

theorem logRecord_sameWork (s : State) (r : FaultRec) : SameWork s (logRecord s r) :=
  sameWork_ite ⟨rfl, rfl, rfl⟩ (sameWork_ite ⟨rfl, rfl, rfl⟩ ⟨rfl, rfl, rfl⟩)

theorem logDiscarded_sameWork (s : State) (a : Agent) (t : Team) (g : Grid) (ds : List Deferred) : SameWork s (logDiscarded s a t g ds) :=
  sameWork_ite (foldl_sameWork (fun s _ => logRecord_sameWork s _) ds s) ⟨rfl, rfl, rfl⟩

theorem regSetBit_sameWork (s : State) (r : Reg) (i : Nat) (b : Bool) : SameWork s (regSetBit s r i b) := ⟨rfl, rfl, rfl⟩

theorem showEngine_sameWork (s : State) (c e : Nat) : SameWork s (showEngine s c e) :=
  SameWork.trans (t := regSet s (.cestat c e) 22 16 (queued s c e)) ⟨rfl, rfl, rfl⟩
    (foldl_sameWork (fun t _ => regSetBit_sameWork t (.cestat c e) _ _) _ _)

theorem clearSlots_sameWork (s : State) (us : List Nat) : SameWork s (clearSlots s us) :=
  foldl_sameWork (fun s _ => sameWork_ite ⟨rfl, rfl, rfl⟩
    (SameWork.trans (t := updEngine s _ _ _) ⟨rfl, rfl, rfl⟩ (showEngine_sameWork _ _ _))) _ s

theorem reopenStep_agents (s : State) (t : Team) (n : Nat) : (reopenStep s t n).agents = s.agents := rfl

theorem withdrawArrival_agents (s : State) (a : Agent) (t : Team) : (withdrawArrival s a t).agents = s.agents := by
  unfold withdrawArrival
  split
  · exact foldl_keeps (P := fun u : State => u.agents = s.agents) (fun u n h => (reopenStep_agents u t n).trans h) _ rfl
  · rfl

/-! ### The unwind (R318, R394) -/

/-- What an unwind to a handler leaves of an agent: the lanes that have not exited are ready at the handler, the event is in the registers for it,
and nothing is outstanding; every register is as before. -/
def unwound (a : Agent) (e : Event) (handler : Nat) (rest : List Nat) (b : Agent) : Prop :=
  b.regions = rest
    ∧ (∀ l ∈ laneIds a.key, laneState a l ≠ .exited → laneState b l = .ready ∧ lpcOf b l = handler)
    ∧ (∀ l ∈ laneIds a.key, laneState a l = .exited → laneState b l = .exited ∧ lpcOf b l = lpcOf a l)
    ∧ b.crcause.toNat % 2 ^ 16 = e.cause ∧ b.cri = e.cri ∧ b.crpc = BitVec.ofNat 64 e.pc ∧ b.issueCount = 0
    ∧ b.vars = [] ∧ b.deferred = [] ∧ b.hold = none ∧ b.marker = false ∧ b.addrTable = []
    ∧ b.v = a.v ∧ b.s = a.s ∧ b.p = a.p ∧ b.k = a.k ∧ b.fpstat = a.fpstat

/-- The cause is the low half of the word that %crcause gets. -/
theorem crcause_low (cause sub depth : Nat) (deferred : Bool) (h : cause < 2 ^ 16) :
    (BitVec.ofNat 32 (cause + sub * 2 ^ 16 + depth * 2 ^ 24 + deferred.toNat * 2 ^ 31)).toNat % 2 ^ 16 = cause := by
  rw [BitVec.toNat_ofNat]
  omega

theorem unwinds_iff {cause : Nat} : unwinds cause = true ↔ 18 ≤ cause ∧ cause ≤ 24 := decide_eq_true_iff

theorem agentOf_unwind {s : State} {a : Agent} (t : Team) {e : Event} {handler : Nat} {rest : List Nat} (ha : agentOf s a.key = some a)
    (hr : a.regions = handler :: rest) (hu : unwinds e.cause = true) :
    ∃ b, agentOf (unwind s a t e) a.key = some b ∧ unwound a e handler rest b := by
  have hcause : e.cause < 2 ^ 16 := (unwinds_iff.mp hu).2.trans_lt (by norm_num)
  have hlive : ∀ l ∈ laneIds a.key, l ∈ (laneIds a.key).filter (fun l => laneState a l != .exited) ↔ laneState a l ≠ .exited := by
    intro l hl
    simp [hl]
  simp only [unwind, hr]
  rw [agentOf_updAgent_same, agentOf_congr (s := s), ha]
  · refine ⟨_, rfl, rfl, fun l hl hst => ?_, fun l hl hst => ?_, crcause_low _ _ _ _ hcause, rfl, rfl, rfl, rfl, rfl, rfl, rfl, rfl, rfl, rfl, rfl,
      rfl, rfl⟩
    · have hmem := (hlive l hl).mpr hst
      exact ⟨(sget_foldl_sset _ _ _ _ l).trans (if_pos hmem), (sget_foldl_sset _ _ _ _ l).trans (if_pos hmem)⟩
    · have hout := mt (hlive l hl).mp (not_not.mpr hst)
      exact ⟨((sget_foldl_sset _ _ _ _ l).trans (if_neg hout)).trans hst, (sget_foldl_sset _ _ _ _ l).trans (if_neg hout)⟩
  · rw [withdrawArrival_agents]
    split <;> rfl
  · exact fun _ => rfl

/-! ### The termination (R396) -/

/-- The grids that a termination stops. -/
def stoppedGrids (s : State) (g : Nat) : List Nat := (s.grids.filter fun x => descends s 12 x.id g).map (·.id)

/-- Their teams. -/
def stoppedTeams (s : State) (g : Nat) : List Team := s.teams.filter fun t => (stoppedGrids s g).contains t.grid

theorem descends_self (s : State) (fuel g : Nat) : descends s fuel g g = true := by
  cases fuel <;> simp [descends]

theorem mem_stoppedGrids {s : State} {n : Nat} {g : Grid} (hg : gridOf s n = some g) : n ∈ stoppedGrids s n :=
  List.mem_map.mpr ⟨g, List.mem_filter.mpr ⟨List.mem_of_find?_eq_some hg, by rw [gridOf_id hg]; exact descends_self s 12 n⟩, gridOf_id hg⟩

theorem mem_stoppedTeams {s : State} {u : Nat} {t : Team} {g : Grid} (ht : teamOf s u = some t) (hg : gridOf s t.grid = some g) :
    t ∈ stoppedTeams s t.grid :=
  List.mem_filter.mpr ⟨List.mem_of_find?_eq_some ht, List.contains_iff_mem.mpr (mem_stoppedGrids hg)⟩

/-- Tagged waits go; a team is found as before. -/
theorem teamOf_discardWork (s : State) (k : AgentKey) (core u : Nat) :
    teamOf (discardWork s k core) u = (teamOf s u).map fun t => { t with tagWaits := t.tagWaits.filter fun w => w.agent != k } := by
  show (s.teams.map _).find? _ = _
  rw [List.find?_map]
  rfl

/-- The first stage of a termination: its grids and teams are marked. -/
def markStopped (s : State) (n cause : Nat) : State :=
  { s with
    grids := updWhere (fun x => (stoppedGrids s n).contains x.id)
      (fun x => { x with terminated := true, faulted := some (x.faulted.getD cause) }) s.grids
    teams := updWhere (fun t => (stoppedGrids s n).contains t.grid) (fun t => { t with terminated := true }) s.teams }

/-- The second: the work of its agents is discarded. -/
def discardStopped (ts : List Team) (s : State) : State :=
  s.agents.foldl (fun s a => match ts.find? fun t => t.uid == a.key.team with
    | some t => discardWork s a.key t.core
    | none => s) s

/-- An agent that has been stopped. -/
def stopAgent (a : Agent) : Agent :=
  { a with ended := true, vars := [], deferred := [], pend := [], marker := false, hold := none, absent := [], adv := a.adv.filter (·.counts) }

/-- The third: they end, their readers go, and the copies that waited for a swap go on. -/
def endStopped (ts : List Team) (s : State) : State :=
  { s with
    readers := s.readers.filter fun r => !r.goal.owner.any fun k => ts.any fun t => t.uid == k.team
    engines := s.engines.map fun e =>
      (e.1, { e.2 with queue := updWhere (fun c => ts.any fun t => t.uid == c.issuer.team) (fun c => { c with held := [] }) e.2.queue })
    agents := updWhere (fun a => ts.any fun t => t.uid == a.key.team) stopAgent s.agents }

theorem terminateGrid_eq (s : State) (n cause : Nat) : terminateGrid s n cause =
    clearSlots (endStopped (stoppedTeams s n) (discardStopped (stoppedTeams s n) (markStopped s n cause))) ((stoppedTeams s n).map (·.uid)) := rfl

/-- Agents, teams and grids after a termination. -/
theorem terminateGrid_sameWork (s : State) (n cause : Nat) :
    SameWork (endStopped (stoppedTeams s n) (discardStopped (stoppedTeams s n) (markStopped s n cause))) (terminateGrid s n cause) := by
  rw [terminateGrid_eq]
  exact clearSlots_sameWork _ _

/-- Agents whose work is discarded one by one keep what each discarding keeps. -/
theorem discardStopped_keeps {P : State → Prop} (ts : List Team) {s : State} (hP : ∀ s k core, P s → P (discardWork s k core)) (h : P s) :
    P (discardStopped ts s) := by
  refine foldl_keeps (P := P) ?_ s.agents h
  intro u a hu
  split
  · exact hP u _ _ hu
  · exact hu

/-- An element that an update in place finds. -/
theorem find_updWhere_of {α : Type} {p q : α → Bool} {f : α → α} {l : List α} {a : α} (hf : ∀ a, q (f a) = q a) (ha : l.find? q = some a)
    (hp : p a = true) : (updWhere p f l).find? q = some (f a) := by
  rw [find_updWhere p q f l fun a _ => hf a, ha, Option.map_some, if_pos hp]

section
variable {s : State} {t : Team} {g : Grid} {u : Nat} (cause : Nat)

/-- A terminated grid is marked. -/
theorem gridOf_terminateGrid {n : Nat} (hg : gridOf s n = some g) : ∃ x, gridOf (terminateGrid s n cause) n = some x ∧ x.terminated = true := by
  have hgrids : (terminateGrid s n cause).grids = (markStopped s n cause).grids :=
    (terminateGrid_sameWork s n cause).grids.trans
      (discardStopped_keeps (P := fun u => u.grids = (markStopped s n cause).grids) _ (fun _ _ _ h => h) rfl)
  have hin : (stoppedGrids s n).contains g.id = true := List.contains_iff_mem.mpr ((gridOf_id hg).symm ▸ mem_stoppedGrids hg)
  refine ⟨{ g with terminated := true, faulted := some (g.faulted.getD cause) }, ?_, rfl⟩
  exact (gridOf_congr hgrids n).trans (find_updWhere_of (fun _ => rfl) hg hin)

variable (ht : teamOf s u = some t) (hg : gridOf s t.grid = some g)
include ht hg

/-- The teams of a terminated grid are marked. -/
theorem teamOf_terminateGrid : ∃ v, teamOf (terminateGrid s t.grid cause) u = some v ∧ v.terminated = true := by
  rw [teamOf_congr (terminateGrid_sameWork s t.grid cause).teams]
  refine discardStopped_keeps (P := fun w => ∃ v, teamOf w u = some v ∧ v.terminated = true) _ (fun w k core hw => ?_)
    ⟨{ t with terminated := true }, ?_, rfl⟩
  · obtain ⟨v, hv, hterm⟩ := hw
    exact ⟨_, (teamOf_discardWork w k core u).trans (congrArg _ hv), hterm⟩
  · exact find_updWhere_of (fun _ => rfl) ht (List.contains_iff_mem.mpr (mem_stoppedGrids hg))

/-- The agents of a terminated grid's teams have ended. -/
theorem ended_of_mem_terminateGrid : ∀ b ∈ (terminateGrid s t.grid cause).agents, b.key.team = u → b.ended = true := by
  intro b hb hteam
  rw [(terminateGrid_sameWork s t.grid cause).agents] at hb
  obtain ⟨a, -, rfl⟩ := List.mem_map.mp hb
  by_cases hin : ((stoppedTeams s t.grid).any fun v => v.uid == a.key.team) = true
  · rw [if_pos hin]
    rfl
  · rw [if_neg hin] at hteam
    exact absurd (List.any_eq_true.mpr ⟨t, mem_stoppedTeams ht hg, by simp [teamOf_uid ht, hteam]⟩) hin

end

/-! ### The event -/

section
variable {s : State} {k : AgentKey} {e : Event} {a : Agent} {t : Team} {g : Grid}

/-- Inside a region an event that unwinds leaves its agent at the handler (R318, R389, R394). -/
theorem agentOf_raise_unwinds {handler : Nat} {rest : List Nat} (ha : agentOf s k = some a) (ht : teamOf s k.team = some t)
    (hg : gridOf s t.grid = some g) (hr : a.regions = handler :: rest) (hu : unwinds e.cause = true) :
    ∃ b, agentOf (raise s k e) k = some b ∧ unwound a e handler rest b := by
  rw [raise_unwinds e [] ha ht hg hu (by rw [hr]; exact List.cons_ne_nil handler rest)]
  cases agentOf_key ha
  refine agentOf_unwind t ((agentOf_congr ?_ _).trans ha) hr hu
  exact ((sameWork_ite (logRecord_sameWork s _) ⟨rfl, rfl, rfl⟩).trans (logDiscarded_sameWork _ a t g _)).agents

/-- Otherwise it ends in the termination of the agent's grid, where agents, teams and grids are as they were (R389, R396). -/
theorem raise_terminateGrid (ha : agentOf s k = some a) (ht : teamOf s k.team = some t) (hg : gridOf s t.grid = some g)
    (hu : unwinds e.cause = false ∨ a.regions = []) : ∃ s', SameWork s s' ∧ raise s k e = terminateGrid s' t.grid e.cause := by
  rw [raise_terminates e [] ha ht hg hu, gridOf_id hg]
  exact ⟨_, (logRecord_sameWork s _).trans (logDiscarded_sameWork _ a t g _), rfl⟩

end

end Sys2Proof.Machine

open Sys2Proof Sys2Proof.Machine

/-- Settles O59: the unwind's agent is `unwound`, and a termination marks the grid that it is for. -/
theorem eventTaken : Obligations.EventTaken := by
  unfold Obligations.EventTaken
  intro s k e a t g ha ht hg
  refine ⟨fun h r hr hu => ?_, fun hout => ?_⟩
  · obtain ⟨b, hb, hun⟩ := agentOf_raise_unwinds ha ht hg hr hu
    cases agentOf_key ha
    exact ⟨b, hb, hun⟩
  · obtain ⟨s', hs, hraise⟩ := raise_terminateGrid (e := e) ha ht hg hout.symm
    rw [hraise, gridOf_id hg]
    exact gridOf_terminateGrid e.cause ((gridOf_congr hs.grids _).trans hg)

end

