-- ==== Sys2Proof/Proofs/RegionControl.lean ====
section
/-! Child launches, containment regions, traps and breakpoints at their issue (R191, R316, R318 to R320). -/

namespace Sys2Proof.Machine

-- one declaration at a time: a thread for each would be too many
set_option Elab.async false

/-! ### What an instruction comes to, by its own effect where a condition holds -/

section
variable {i : Instr} {h : Hdr} {f : Iss → Eff} {p : Iss → Prop} (hexec : ∀ s, exec i s = issue i h s f)
include hexec

/-- An issue that goes on ends in the instruction's own effect. -/
theorem exec_of_eff {s : State} {c : Iss} {e : Eff} (hc : turnOf i h s = .goes c) (he : f c = e) : exec i s = e.result c.a.key := by
  rw [hexec, issue_goes f hc, he]

theorem completesWhen_of_ok {g : Iss → State} (hok : ∀ c, p c → f c = .ok (g c)) : completesWhen i h p g :=
  fun _ c hc hp => exec_of_eff hexec hc (hok c hp)

theorem completesOnce_of_ok {g : Iss → Nat → State} (hnone : ∀ c, p c → c.act = [] → f c = .ok c.s)
    (hsome : ∀ c l r, p c → c.act = l :: r → f c = .ok (g c l)) : completesOnce i h p g :=
  fun _ c hc hp => ⟨fun hact => exec_of_eff hexec hc (hnone c hp hact), fun l r hact => exec_of_eff hexec hc (hsome c l r hp hact)⟩

theorem raisesWhen_of_fault {cause sub : Nat} {lanes : Iss → BitVec 32} (hfault : ∀ c, p c → f c = c.fault cause sub (lanes c)) :
    raisesWhen i h p cause sub lanes := fun _ c hc hp => exec_of_eff hexec hc (hfault c hp)

/-- Where its condition fails an instruction is illegal (R200). -/
theorem raisesWhen_of_illegal (hfault : ∀ c, p c → f c = c.illegal) : raisesWhen i h p 1 0 fun c => maskOf c.ex :=
  raisesWhen_of_fault hexec hfault

end

/-! ### TRAP (R319) -/

section
variable {x : F3} {s : State} {c : Iss} (hc : turnOf (.trap x) x.h s = .goes c)
include hc

theorem execTrap_goes (h : c.act = []) : exec (.trap x) s = .next c.s :=
  exec_of_eff (e := .ok c.s) (fun _ => rfl) hc (if_pos (by simp [h]))

theorem execTrap_raises (h : c.act ≠ []) :
    exec (.trap x) s = .next (raise c.s0 c.a.key (mkEvent 23 0 (BitVec.ofNat 32 (fld x.imm 15 0)) c.pc)) :=
  exec_of_eff (e := c.fault 23 0 (BitVec.ofNat 32 (fld x.imm 15 0))) (fun _ => rfl) hc (if_neg (by simp [h]))

end

/-- In the state before its issue's bookkeeping the agent stands with its team and grid. -/
theorem goes_before {i : Instr} {h : Hdr} {s : State} {c : Iss} (hc : turnOf i h s = .goes c) :
    ∃ a, agentOf c.s0 c.a.key = some a ∧ teamOf c.s0 c.a.key.team = some c.t ∧ gridOf c.s0 c.t.grid = some c.g
      ∧ c.a.key.team = c.t.uid ∧ c.a = book a h c.pc c.ex (cycleOf c.s0 c.t.core) := by
  obtain ⟨k, a, hk, -, ha, ht, hg, -, -, -, -, -, -, hb, -, -⟩ := turnOf_goes hc
  have hkey : k = c.a.key := Option.some.inj (hk.symm.trans (goes_key hc))
  rw [hkey] at ha ht
  exact ⟨a, ha, ht, hg, (teamOf_uid ht).symm, hb⟩

/-! ### BKPT (R320) -/

/-- An agent halted before the BKPT of a PC. -/
def haltBefore (code : BitVec 16) (pc : Nat) (a : Agent) : Agent := { a with hold := some (.bkpt code pc) }

/-- A debugged agent that nothing lets pass halts before its BKPT, and the debugger is told. -/
theorem execBkpt_halts {x : F3} {s : State} {c : Iss} (hc : turnOf (.bkpt x) x.h s = .goes c) (hact : c.act ≠ [])
    (hon : bit c.s0.debugOn c.g.domain = true) (hpass : c.pc ∉ c.a.debugPass) :
    exec (.bkpt x) s = .next (emitOut (updAgent c.s0 c.a.key (haltBefore (BitVec.ofNat 16 (fld x.imm 15 0)) c.pc))
      (.debugHalt c.a.key (BitVec.ofNat 16 (fld x.imm 15 0)))) := by
  have hstops : (c.act.isEmpty || !bit c.s0.debugOn c.g.domain || c.a.debugPass.contains c.pc) = false := by simp [hact, hon, hpass]
  exact exec_of_eff (fun _ => rfl) hc (if_neg (Bool.eq_false_iff.mp hstops))

end Sys2Proof.Machine

open Sys2Proof Sys2Proof.Machine

/-- Settles O23: TRAP raises its event, which unwinds or terminates as every event of cause 23 does. -/
theorem trapTaken : Obligations.TrapTaken := by
  unfold Obligations.TrapTaken
  intro x s c hc
  refine ⟨execTrap_goes hc, fun hact => ?_⟩
  obtain ⟨a, ha, ht, hg, hteam, hbook⟩ := goes_before hc
  refine ⟨execTrap_raises hc hact, fun h r hr => ?_, fun hr => ?_⟩
  · have hra : a.regions = h :: r := by rwa [hbook] at hr
    obtain ⟨b, hb, hregions, hlive, -, hcause, hcri, hcrpc, hcount, -⟩ := agentOf_raise_unwinds
      (e := mkEvent 23 0 (BitVec.ofNat 32 (fld x.imm 15 0)) c.pc) ha ht hg hra rfl
    have hkey : a.key = c.a.key := by rw [hbook, book_key]
    rw [hkey] at hlive
    refine ⟨b, hb, hregions, hcause, hcri, hcrpc, hcount, fun l hl hst => hlive l hl ?_⟩
    rwa [hbook] at hst
  · have hra : a.regions = [] := by rwa [hbook] at hr
    obtain ⟨s', hs, hraise⟩ := raise_terminateGrid
      (e := mkEvent 23 0 (BitVec.ofNat 32 (fld x.imm 15 0)) c.pc) ha ht hg (.inr hra)
    have ht' := (teamOf_congr hs.teams _).trans ht
    have hg' := (gridOf_congr hs.grids _).trans hg
    obtain ⟨y, hy, hyterm⟩ := gridOf_terminateGrid 23 hg'
    obtain ⟨u, hu, huterm⟩ := teamOf_terminateGrid 23 ht' hg'
    rw [hraise, gridOf_id hg, ← hteam]
    exact ⟨y, u, hy, hyterm, hu, huterm, ended_of_mem_terminateGrid 23 ht' hg'⟩

/-- Settles O24: each of the four ends by the first of its checks that fails, a LAUNCH that passes them all in its release, a BKPT in its halt. -/
theorem regionControlComplete : Obligations.RegionControlComplete := by
  unfold Obligations.RegionControlComplete
  intro x y
  refine ⟨?launch, ?depth, ?misaligned, ?foreign, ?cropen, ?tooMany, ?badTarget, ?crclose, ?noRegion, ?bkptPasses, ?bkptHalts⟩
  case launch =>
    refine completesOnce_of_ok (fun _ => rfl) (fun c ⟨hidx, htl, _, _⟩ hact => ?_) fun c l r ⟨hidx, htl, hdepth, halign⟩ hact => ?_
    · simp [hidx, htl, hact]
    · have hl : val64 c.a x.a l % 64 = 0 := halign l (by simp [hact])
      simp [hidx, htl, hact, Nat.not_le.mpr hdepth, hl]
  case depth =>
    refine raisesWhen_of_fault (fun _ => rfl) fun c ⟨hidx, htl, hact, hdepth⟩ => ?_
    obtain ⟨l, r, hact⟩ := List.exists_cons_of_ne_nil hact
    simp [hidx, htl, hact, hdepth]
  case misaligned =>
    intro s c l r hc hidx htl hact hdepth hbad
    refine exec_of_eff (e := c.faultAt 5 0 (maskOf c.act) (val64 c.a x.a l)) (fun _ => rfl) hc ?_
    simp [hidx, htl, hact, Nat.not_le.mpr hdepth, hbad]
  case foreign => exact raisesWhen_of_illegal (fun _ => rfl) fun c hp => if_pos (by simpa using hp)
  case cropen =>
    refine completesWhen_of_ok (fun _ => rfl) fun c ⟨hgo, hfew⟩ => ?_
    simp only [hgo, if_neg (Nat.not_le.mpr hfew), Iss.upd]
  case tooMany =>
    refine raisesWhen_of_fault (fun _ => rfl) fun c ⟨hgo, hmany⟩ => ?_
    simp only [hgo, if_pos hmany]
  case badTarget => exact raisesWhen_of_fault (fun _ => rfl) fun c hbad => by simp only [hbad]
  case crclose => exact fun h r => completesWhen_of_ok (fun _ => rfl) fun c hr => by simp only [hr, Iss.upd]
  case noRegion => exact raisesWhen_of_illegal (fun _ => rfl) fun c hr => by simp only [hr]
  case bkptPasses => exact completesWhen_of_ok (fun _ => rfl) fun c hp => if_pos (by simpa [or_assoc] using hp)
  case bkptHalts =>
    exact fun s c hc hact hon hpass => ⟨_, execBkpt_halts hc hact hon hpass, rfl, fun a ha => agentOf_updAgent_of ha fun _ => rfl⟩

end

