-- ==== Sys2Proof/Proofs/Timelines.lean ====
section
/-! Steps, reductions, timelines, time and special registers at their issue (R157 to R160, R321 to R329). -/

namespace Sys2Proof.Machine

-- one declaration at a time: a thread for each would be too many
set_option Elab.async false

/-! ### Instructions behind a check, and those that act once for all lanes (R200, R307) -/

/-- The own effect of an instruction that acts with its lowest active lane, and not at all without one. -/
def Iss.once (c : Iss) (g : Nat → State) : Eff :=
  match c.act with
  | [] => .ok c.s
  | l :: _ => .ok (g l)

theorem once_of_nil {c : Iss} (g : Nat → State) (h : c.act = []) : c.once g = .ok c.s := by simp only [Iss.once, h]

theorem once_of_cons {c : Iss} (g : Nat → State) {l : Nat} {r : List Nat} (h : c.act = l :: r) : c.once g = .ok (g l) := by
  simp only [Iss.once, h]

section
variable {i : Instr} {h : Hdr} {ok : Iss → Bool} {f : Iss → Eff} {g : Iss → Nat → State}

/-- An instruction is illegal where its check fails. -/
theorem raisesWhen_of_check (hexec : ∀ s, exec i s = issue i h s fun c => if !ok c then c.illegal else f c) :
    raisesWhen i h (fun c => ok c = false) 1 0 fun c => maskOf c.ex :=
  raisesWhen_of_illegal hexec fun c hbad => by rw [hbad]; rfl

/-- Where its check passes it has its effect. -/
theorem completesWhen_of_check {g : Iss → State} (hexec : ∀ s, exec i s = issue i h s fun c => if !ok c then c.illegal else .ok (g c)) :
    completesWhen i h (fun c => ok c = true) g :=
  completesWhen_of_ok hexec fun c hgood => by rw [hgood]; rfl

theorem completesOnce_of_check (hexec : ∀ s, exec i s = issue i h s fun c => if !ok c then c.illegal else c.once (g c)) :
    completesOnce i h (fun c => ok c = true) g :=
  completesOnce_of_ok hexec (fun c hgood hact => by rw [hgood]; exact once_of_nil _ hact) fun c l r hgood hact => by
    rw [hgood]; exact once_of_cons _ hact

end

section
variable (x : F3)

/-- TLRD (R325). -/
theorem tlrd_completes : completesWhen (.tlrd x) x.h (fun c => hasTimeline c.t x.bnd.toNat = true) fun c =>
    c.wroteLanes (c.act.take 1) 64 2 x.d fun _ =>
      if bit x.imm 0 then (timelineOf c.t x.bnd.toNat).issued else (timelineOf c.t x.bnd.toNat).completed := completesWhen_of_check fun _ => rfl

/-- TLADV (R326) takes a number and begins its release beside the agent. -/
theorem tladv_completes : completesOnce (.tladv x) x.h (fun c => hasTimeline c.t x.bnd.toNat = true) fun c _ =>
    let r := takeNumber c.s c.t.uid x.bnd.toNat
    let i := fresh r.1
    updAgent i.2 c.a.key fun a =>
      { a with adv := a.adv ++ [⟨i.1, .count x.bnd.toNat r.2, 2, false, 0, 0, c.n, c.a.paths.filter (scopeHas 2), none⟩] } :=
  completesOnce_of_ok (fun _ => rfl) (fun c htl hact => by simp [htl, hact]) fun c l r htl hact => by simp [htl, hact]

/-- SLEEP (R327) of no time has no effect. -/
theorem sleep_completes : completesOnce (.sleep x) x.h (fun _ => True) fun c l =>
    if c.valB 64 x l % 2 ^ 32 = 0 then c.s
    else updAgent c.s c.a.key fun a => { a with hold := some (.sleep (coreTime c.s c.t.core + c.valB 64 x l % 2 ^ 32)) } := by
  have hexec : ∀ s, exec (.sleep x) s = issue (.sleep x) x.h s fun c => c.once fun l =>
      if c.valB 64 x l % 2 ^ 32 = 0 then c.s
      else updAgent c.s c.a.key fun a => { a with hold := some (.sleep (coreTime c.s c.t.core + c.valB 64 x l % 2 ^ 32)) } := fun _ => rfl
  exact completesOnce_of_ok hexec (fun c _ hact => once_of_nil _ hact) fun c l r _ hact => once_of_cons _ hact

end

end Sys2Proof.Machine

open Sys2Proof Sys2Proof.Machine

/-- Settles O25, instruction by instruction: the effect behind the check of the group or of the timeline, and the event where it fails. -/
theorem timelineComplete : Obligations.TimelineComplete := by
  unfold Obligations.TimelineComplete
  intro x
  refine ⟨?step, ?noStep, ?redt, ?noRedt, ?waittl, ?noWaittl, ?noTlrd, ?tladv, ?noTladv, ?sleep, ?rdtime, ?movsr, ?noMovsr, ?movrs⟩
  case step => exact completesWhen_of_check fun _ => rfl
  case noStep => exact raisesWhen_of_check fun _ => rfl
  case redt => exact completesOnce_of_check fun _ => rfl
  case noRedt => exact raisesWhen_of_check fun _ => rfl
  case waittl => exact completesOnce_of_check fun _ => rfl
  case noWaittl => exact raisesWhen_of_check fun _ => rfl
  case noTlrd => exact raisesWhen_of_check fun _ => rfl
  case tladv => exact tladv_completes x
  case noTladv => exact raisesWhen_of_check fun _ => rfl
  case sleep => exact sleep_completes x
  case rdtime => exact completesAs_of_ok (fun _ => rfl) fun _ => rfl
  case movsr => exact completesWhen_of_ok (fun _ => rfl) fun c hp => if_neg (by simpa [and_assoc] using hp)
  case noMovsr => exact raisesWhen_of_illegal (fun _ => rfl) fun c hp => if_pos (by simpa [and_assoc] using hp)
  case movrs => exact completesAs_of_ok (fun _ => rfl) fun _ => rfl

/-- Settles O26: with its timeline the one result of TLRD is the count that its IMM[0] names. -/
theorem timelineRead : Obligations.TimelineRead := by
  unfold Obligations.TimelineRead
  exact fun x s c hc htl => tlrd_completes x s c hc htl

end

