-- ==== Sys2Proof/Proofs/MatrixForms.lean ====
section
/-! Matrix instructions at their issue (R282 to R301). -/

namespace Sys2Proof.Machine

-- one declaration at a time: a thread for each would be too many
set_option Elab.async false

/-! ### Earlier stores landed (R127) -/

/-- What the landing of an agent's stores can change of its team. -/
theorem landFor_frame (t : Team) (k : AgentKey) (rs : List (Nat × Nat)) : ∃ present ladleMem stepPoison stores,
    landFor t k rs = { t with present := present, ladleMem := ladleMem, stepPoison := stepPoison, stores := stores } := by
  refine foldl_keeps (P := fun u => ∃ present ladleMem stepPoison stores,
    u = { t with present := present, ladleMem := ladleMem, stepPoison := stepPoison, stores := stores }) ?_ _
    ⟨t.present, t.ladleMem, t.stepPoison, t.stores.filter _, rfl⟩
  rintro _ w ⟨present, ladleMem, stepPoison, stores, rfl⟩
  obtain ⟨present', ladleMem', stepPoison', hput⟩ := putStepBytes_frame
    { t with present := present, ladleMem := ladleMem, stepPoison := stepPoison, stores := stores } w.off w.bytes
  exact ⟨present', ladleMem', stepPoison', stores, hput⟩

section
variable (c : Iss) (rs : List (Nat × Nat))

@[simp] theorem landed_uid : (c.landed rs).t.uid = c.t.uid := by
  obtain ⟨_, _, _, _, h⟩ := landFor_frame c.t c.a.key rs
  show (landFor c.t c.a.key rs).uid = c.t.uid
  rw [h]

@[simp] theorem landed_core : (c.landed rs).t.core = c.t.core := by
  obtain ⟨_, _, _, _, h⟩ := landFor_frame c.t c.a.key rs
  show (landFor c.t c.a.key rs).core = c.t.core
  rw [h]

end

/-! ### The collective rule and the vote (R286, R287, R292) -/

theorem collective_of_all {c : Iss} (hex : maskOf c.ex = 0xFFFFFFFF) (hact : maskOf c.act = 0xFFFFFFFF) : c.collective = .all := by
  have hsome : c.act ≠ [] := by
    intro hnil
    rw [hnil] at hact
    exact absurd hact (by decide)
  simp [Iss.collective, hex, hact, hsome]

section
variable (x : F3)

theorem execMma_eq (zero : Bool) (s : State) :
    exec (if zero then .mmaz x else .mma x) s = issue (if zero then .mmaz x else .mma x) x.h s fun c => c.mma x zero := by
  cases zero <;> rfl

/-- Where every lane executes and none is active a collective instruction has no effect. -/
theorem mma_of_none {c : Iss} (zero : Bool) (h : c.collective = .none) : c.mma x zero = .ok c.s := by
  simp only [Iss.mma, h]

end

/-! ### MMA and MMAZ (R284 to R290) -/

section
variable (c : Iss) (x : F3)

/-- The ranges of step memory that an MMA reads: its B tile and the side array (R284). -/
def Iss.tileReads : List (Nat × Nat) :=
  operandReads (c.vote x.d).fb (val64 c.a x.b 0 % 2 ^ 20) (val64 c.a x.b 0 / 2 ^ 20 % 2 ^ 20) false

/-- Whether the A latch holds the instruction's fragment in the agreed format (R289). -/
def Iss.latched : Bool := match c.a.latch with | some l => l.field == x.a && l.fmt == (c.vote x.d).fa | none => false

/-- The fragment that an MMA uses, from the latch or from its registers (R289). -/
def Iss.usedFragment : List (BitVec 320) :=
  match c.a.latch with
  | some l => if c.latched x then l.frag else c.fragment x.a (sideRead (c.vote x.d).fa false)
  | none => c.fragment x.a (sideRead (c.vote x.d).fa false)

/-- The band scales of A and B (R285). -/
def Iss.bandScales : Nat := if isS x.c then val64 c.a x.c 0 else 0

/-- The rows of A. -/
def Iss.mmaRows : List (List (Option FVal)) := fragValues (c.vote x.d).fa (c.usedFragment x) (c.bandScales x % 2 ^ 16)

/-- The team as an MMA reads its B tile, behind the warp's earlier stores (R127, R290). -/
def Iss.mmaView : Team := (c.landed (c.tileReads x)).tileView (c.vote x.d).fb

/-- The columns of B. -/
def Iss.mmaCols : List (List (Option FVal)) :=
  stepOperand (c.mmaView x) (c.vote x.d).fb (val64 c.a x.b 0 % 2 ^ 20) (val64 c.a x.b 0 / 2 ^ 20 % 2 ^ 20) false
    (c.bandScales x / 2 ^ 16 % 2 ^ 16)

/-- The team with the product accumulated on its tile, and whether that saturated (R184, R290). -/
def Iss.mmaProduct (zero isInt : Bool) : Team × Bool :=
  mmaTile (c.landed (c.tileReads x)).t (fld x.imm 5 0) zero isInt (goodRows (c.mmaRows x)) (goodRows (c.mmaCols x))

/-- The state after an MMA: the tile, %accsat two cycles later, and the A latch (R158, R289, R290). -/
def Iss.mmaDone (zero isInt : Bool) : State :=
  updAgent (Iss.pend { c.landed (c.tileReads x) with
    s := updTeam (c.landed (c.tileReads x)).s (c.landed (c.tileReads x)).t.uid fun _ => (c.mmaProduct x zero isInt).1 } 2
      (if (c.mmaProduct x zero isInt).2 then [.accsat] else [])) c.a.key fun a =>
    { a with latch := if x.h.keep then some ⟨x.a, (c.vote x.d).fa, c.usedFragment x⟩ else none }

/-- An MMA with nothing in its way: all lanes agree on a legal pair, its tile and operands are the team's, present, and without poison or
illegal codes in what it reads (R285 to R290). -/
structure MmaReady (zero isInt : Bool) : Prop where
  executing : maskOf c.ex = 0xFFFFFFFF
  active : maskOf c.act = 0xFFFFFFFF
  agreeA : (c.vote x.d).ma = 0
  agreeB : (c.vote x.d).mb = 0
  pair : mmaPair c.t.hdr.version (c.vote x.d).fa (c.vote x.d).fb = some isInt
  blocks : sideRead (c.vote x.d).fa false = true → fragReg x.a + 10 ≤ c.t.hdr.vregs
  tile : fld x.imm 5 0 < c.t.hdr.accTiles
  desc : c.descFault x (c.vote x.d) (val64 c.a x.b 0) = none
  operands : ∀ r ∈ c.tileReads x, readWaits c.t r.1 r.2 = [] ∧ stepPoisoned (c.mmaView x) r.1 r.2 = false
  fragment : c.latched x = false →
    poisonRead c.a ((List.range (if sideRead (c.vote x.d).fa false then 10 else 8)).map (fragReg x.a + ·)) [] c.act = none
  rows : badRows (c.mmaRows x) = []
  cols : badRows (c.mmaCols x) = []
  old : zero = false → tilePoisoned c.t (fld x.imm 5 0) = false

end

/-- With nothing in its way an MMA passes its checks, those of its B tile behind the landed stores last, and accumulates. -/
theorem mma_of_ready {c : Iss} {x : F3} {zero isInt : Bool} (h : MmaReady c x zero isInt) : c.mma x zero = .ok (c.mmaDone x zero isInt) := by
  have hall := collective_of_all h.executing h.active
  have hblocks : (sideRead (c.vote x.d).fa false && decide (c.t.hdr.vregs < fragReg x.a + 10)) = false := by simpa using h.blocks
  have hwaits : ((c.tileReads x).flatMap fun r => readWaits c.t r.1 r.2) = [] := List.flatMap_eq_nil_iff.mpr fun r hr => (h.operands r hr).1
  have hfrag : (if c.latched x then none else
      poisonRead c.a ((List.range (if sideRead (c.vote x.d).fa false then 10 else 8)).map (fragReg x.a + ·)) [] c.act) = none := by
    cases hl : c.latched x with
    | false => exact h.fragment hl
    | true => rfl
  have hrows : (!(badRows (c.mmaRows x)).isEmpty) = false := by rw [h.rows]; rfl
  have hold : (!zero && tilePoisoned c.t (fld x.imm 5 0)) = false := by simpa using h.old
  have hclean : ((c.tileReads x).any fun r => stepPoisoned (c.mmaView x) r.1 r.2) = false :=
    List.any_eq_false.mpr fun r hr => by rw [(h.operands r hr).2]; exact Bool.false_ne_true
  have hcols : (!(badRows (c.mmaCols x)).isEmpty) = false := by rw [h.cols]; rfl
  unfold Iss.tileReads at hwaits
  simp only [Iss.mma, hall, h.agreeA, h.agreeB, h.pair, hblocks, Nat.not_le.mpr h.tile, h.desc, hwaits, BitVec.or_self, bne_self_eq_false,
    List.isEmpty_nil, Bool.not_true, Bool.false_eq_true, if_false]
  split
  · rename_i hpoison
    exact absurd (hpoison.symm.trans hfrag) (Option.some_ne_none _)
  · exact (if_neg (Bool.eq_false_iff.mp hrows)).trans ((if_neg (Bool.eq_false_iff.mp hold)).trans
      ((if_neg (Bool.eq_false_iff.mp hclean)).trans (if_neg (Bool.eq_false_iff.mp hcols))))

/-! ### Places of an output tile (R295, R298) -/

section
variable (c : Iss) (x : F3) (l : Nat)

/-- The destination format word of ACCEPI or ACCCK. -/
def Iss.outFormat : Word32 := BitVec.ofNat 32 (val64 c.a x.b l / 2 ^ 32)

/-- Bits of an element of the output tile. -/
def Iss.outWidth : Nat := codeWidth (fwCode (c.outFormat x l))

/-- The offsets that its descriptor gives: the output tile, the bias vector and the check vector. -/
def Iss.outOff : Nat := val64 c.a x.a l % 2 ^ 20
def Iss.biasOff : Nat := val64 c.a x.a l / 2 ^ 20 % 2 ^ 20
def Iss.checkOff : Nat := val64 c.a x.a l / 2 ^ 40 % 2 ^ 20

/-! ### ACCEPI (R295 to R298) -/

/-- The range of the bias vector, where ACCEPI reads one. -/
def Iss.biasRange : List (Nat × Nat) := if bit x.h.mod 2 then [(c.biasOff x l, 128)] else []

/-- The ranges that ACCEPI writes. -/
def Iss.outRanges : List (Nat × Nat) := (c.outOff x l, 128 * c.outWidth x l) :: if bit x.h.mod 4 then [(c.checkOff x l, 128)] else []

/-- The issue behind the warp's earlier stores in the banks that ACCEPI reads and writes (R127). -/
def Iss.epiLanded : Iss := c.landed (c.biasRange x l ++ c.outRanges x l)

/-- What ACCEPI asks for. -/
def Iss.epiAsked : Epi :=
  ⟨bit x.imm 6, val64 c.a x.b l % 2 ^ 32, c.outFormat x l, fld x.h.mod 1 0,
    if bit x.h.mod 2 then some (biasWords (c.epiLanded x l).t (c.biasOff x l)) else none, if bit x.h.mod 3 then some x.bnd.toNat else none⟩

/-- What its epilogue gives. -/
def Iss.epiResult : EpiOut :=
  epilogue (c.epiLanded x l).t (fld x.imm 5 0) (c.epiAsked x l) (drawAt (c.epiLanded x l).t c.a.key) ((List.range 32).map (roundCounter c.a))

/-- The state with the hit bit and the rounding counters of the epilogue, and its codes in the output tile. -/
def Iss.epiWritten : State :=
  landIn (updAgent (if (c.epiResult x l).hit then setHit (c.epiLanded x l).s c.t.uid x.bnd.toNat else (c.epiLanded x l).s) c.a.key fun a =>
    (c.epiResult x l).counters.zipIdx.foldl (fun a e => setCounter a e.2 e.1) a) c.t.uid (c.outOff x l)
      (tileBytes (c.outWidth x l) (c.epiResult x l).codes) false

/-- The state after ACCEPI, with the check words too where it writes them. -/
def Iss.epiDone : State :=
  if bit x.h.mod 4 then landIn (c.epiWritten x l) c.t.uid (c.checkOff x l) (checkBytes (columnSums (c.epiResult x l).codes)) false
  else c.epiWritten x l

/-- An ACCEPI with nothing in its way: a legal format, its tile and places the team's, the lines that it needs present, nothing that it reads
poisoned, and no bound that traps (R124, R138, R186, R295 to R298). -/
structure EpiReady : Prop where
  format : fmtOk c.t.hdr.version .dest (c.outFormat x l) = true
  wide : bit x.h.mod 4 = true → 8 ≤ c.outWidth x l
  tile : fld x.imm 5 0 < c.t.hdr.accTiles
  desc : val64 c.a x.a l / 2 ^ 60 = 0
  places : epiPlaces c.t (c.outWidth x l) (c.outOff x l) (if bit x.h.mod 2 then some (c.biasOff x l) else none)
    (if bit x.h.mod 4 then some (c.checkOff x l) else none) = none
  bias : bit x.h.mod 2 = true → readWaits c.t (c.biasOff x l) 128 = [] ∧ stepPoisoned (c.epiLanded x l).t (c.biasOff x l) 128 = false
  outLines : absentLines c.t (c.outOff x l) (128 * c.outWidth x l) = []
  checkLines : bit x.h.mod 4 = true → absentLines c.t (c.checkOff x l) 128 = []
  clean : tilePoisoned (c.epiLanded x l).t (fld x.imm 5 0) = false
  untrapped : (c.epiResult x l).trapped = []

end

section
variable {x : F3} {c : Iss} {l : Nat}

/-- A bias vector that is present holds nothing back. -/
theorem biasRange_waits (h : bit x.h.mod 2 = true → readWaits c.t (c.biasOff x l) 128 = []) :
    (c.biasRange x l).flatMap (fun r => readWaits c.t r.1 r.2) = [] := by
  unfold Iss.biasRange
  split
  · rename_i hb
    simpa using h hb
  · rfl

theorem outRanges_lines (hout : absentLines c.t (c.outOff x l) (128 * c.outWidth x l) = [])
    (hck : bit x.h.mod 4 = true → absentLines c.t (c.checkOff x l) 128 = []) :
    (c.outRanges x l).flatMap (fun r => absentLines c.t r.1 r.2) = [] := by
  rw [Iss.outRanges, List.flatMap_cons, hout, List.nil_append]
  split
  · rename_i hk
    simpa using hck hk
  · rfl

end

theorem execAccepi_of_ready {x : F3} {s : State} {c : Iss} {l : Nat} {r : List Nat} (hc : turnOf (.accepi x) x.h s = .goes c) (hact : c.act = l :: r)
    (h : EpiReady c x l) : exec (.accepi x) s = .next (c.epiDone x l) := by
  have hformat : (!fmtOk c.t.hdr.version .dest (c.outFormat x l) || (bit x.h.mod 4 && decide (c.outWidth x l < 8))) = false := by
    simpa [h.format] using h.wide
  have hwaits : ((c.biasRange x l).flatMap (fun r => readWaits c.t r.1 r.2) ++ (c.outRanges x l).flatMap fun r => absentLines c.t r.1 r.2) = [] := by
    rw [biasRange_waits fun hb => (h.bias hb).1, outRanges_lines h.outLines h.checkLines, List.append_nil]
  have hclean : (tilePoisoned (c.epiLanded x l).t (fld x.imm 5 0)
      || (bit x.h.mod 2 && stepPoisoned (c.epiLanded x l).t (c.biasOff x l) 128)) = false := by
    simpa [h.clean] using fun hb => (h.bias hb).2
  have huntrapped : (!(c.epiResult x l).trapped.isEmpty) = false := by rw [h.untrapped]; rfl
  have hplaces := h.places
  unfold Iss.outFormat Iss.outWidth Iss.outFormat at hformat
  unfold Iss.biasRange Iss.outRanges at hwaits
  unfold Iss.outWidth Iss.outFormat Iss.outOff Iss.biasOff Iss.checkOff at hwaits hplaces
  refine exec_of_eff (e := .ok (c.epiDone x l)) (fun _ => rfl) hc ?_
  simp only [hact, hformat, Nat.not_le.mpr h.tile, h.desc, hplaces, hwaits, bne_self_eq_false, List.isEmpty_nil, Bool.not_true, Bool.false_eq_true,
    if_false, landed_uid]
  exact (if_neg (Bool.eq_false_iff.mp hclean)).trans (if_neg (Bool.eq_false_iff.mp huntrapped))

/-! ### ACCCK (R299) -/

section
variable (c : Iss) (x : F3) (l : Nat)

/-- The issue behind the warp's earlier stores in the banks that ACCCK reads (R127). -/
def Iss.checkLanded : Iss := c.landed [(c.outOff x l, 128 * c.outWidth x l), (c.checkOff x l, 128)]

/-- The columns whose sums differ from the check words. -/
def Iss.badColumns : BitVec 32 :=
  maskOf ((List.range 32).filter fun j =>
    ((columnSums (readCodes (c.checkLanded x l).t (fwCode (c.outFormat x l)) (c.outOff x l)))[j]?).getD 0
      != stepRead (c.checkLanded x l).t (c.checkOff x l + 4 * j) 4)

/-- An ACCCK with nothing in its way: a legal format, places of the team, present and without poison. -/
structure CheckReady : Prop where
  reserved : fld (c.outFormat x l) 31 15 = 0
  assigned : codeAssigned c.t.hdr.version (fwCode (c.outFormat x l)) = true
  wide : 8 ≤ c.outWidth x l
  desc : val64 c.a x.a l / 2 ^ 60 = 0
  places : epiPlaces c.t (c.outWidth x l) (c.outOff x l) none (some (c.checkOff x l)) = none
  outLines : readWaits c.t (c.outOff x l) (128 * c.outWidth x l) = []
  checkLines : readWaits c.t (c.checkOff x l) 128 = []
  outClean : stepPoisoned (c.checkLanded x l).t (c.outOff x l) (128 * c.outWidth x l) = false
  checkClean : stepPoisoned (c.checkLanded x l).t (c.checkOff x l) 128 = false

end

theorem execAccck_of_ready {x : F3} {s : State} {c : Iss} {l : Nat} {r : List Nat} (hc : turnOf (.accck x) x.h s = .goes c) (hact : c.act = l :: r)
    (h : CheckReady c x l) : exec (.accck x) s = .next (addVar (c.checkLanded x l).s c.a.key c.n (regWrites 64 x.d l (c.badColumns x l).toNat)
      (if c.badColumns x l = 0 then none else some ⟨c.n, l, mkEvent 21 1 (c.badColumns x l) c.pc, false⟩)) := by
  have hformat : (fld (c.outFormat x l) 31 15 != 0 || !codeAssigned c.t.hdr.version (fwCode (c.outFormat x l))
      || decide (c.outWidth x l < 8)) = false := by
    simp [h.reserved, h.assigned, h.wide]
  have hwaits : readWaits c.t (c.outOff x l) (128 * c.outWidth x l) ++ readWaits c.t (c.checkOff x l) 128 = [] := by
    rw [h.outLines, h.checkLines, List.append_nil]
  have hclean : (stepPoisoned (c.checkLanded x l).t (c.outOff x l) (128 * c.outWidth x l)
      || stepPoisoned (c.checkLanded x l).t (c.checkOff x l) 128) = false := by rw [h.outClean, h.checkClean]; rfl
  have hplaces := h.places
  unfold Iss.outWidth Iss.outFormat at hformat
  unfold Iss.outWidth Iss.outFormat Iss.outOff Iss.checkOff at hwaits hplaces
  refine exec_of_eff (e := .ok _) (fun _ => rfl) hc ?_
  simp only [hact, hformat, h.desc, hplaces, hwaits, bne_self_eq_false, List.isEmpty_nil, Bool.not_true, Bool.false_eq_true, if_false]
  exact if_neg (Bool.eq_false_iff.mp hclean)

/-! ### MJOB (R300, R301) -/

section
variable (c : Iss) (x : F3) (l : Nat)

/-- Where MJOB's operand says that its card is. -/
def Iss.cardAt : Nat := if immb x then x.imm.toNat else val64 c.a x.b l

/-- The issue behind the warp's earlier stores in the card's banks (R127). -/
def Iss.cardLanded : Iss := c.landed [(c.cardAt x l % 2 ^ 20, 128)]

/-- The bytes of the card. -/
def Iss.cardBytes : List Byte := stepBytes (c.cardLanded x l).t (c.cardAt x l % 2 ^ 20) 128

/-- The number of the job on its timeline, with the state in which it has been taken. -/
def Iss.jobNumber : State × Nat := takeNumber (c.cardLanded x l).s c.t.uid (parseCard (c.cardBytes x l)).tl

/-- The job as it is queued. -/
def Iss.newJob : Job :=
  { issuer := c.a.key, n := (c.jobNumber x l).2, pc := c.pc, card := parseCard (c.cardBytes x l), step := 0, accumulated := false, early := []
    draws := List.replicate 32 0, asked := cycleOf c.s c.t.core, tested := false, admitted := false, blocked := 0, fault := none, finished := false }

/-- An MJOB with nothing in its way: room on the queue, and a good card, present and without poison. -/
structure CardReady : Prop where
  room : (coreOf c.s0 c.t.core).jobs.length < 4
  near : c.cardAt x l / 2 ^ 20 = 0
  region : inOneRegion c.t (c.cardAt x l % 2 ^ 20) 128 = true
  aligned : c.cardAt x l % 2 ^ 20 % 128 = 0
  lines : readWaits c.t (c.cardAt x l % 2 ^ 20) 128 = []
  clean : stepPoisoned (c.cardLanded x l).t (c.cardAt x l % 2 ^ 20) 128 = false
  good : cardOk (c.cardLanded x l).t (c.cardBytes x l) (parseCard (c.cardBytes x l)) = true

end

theorem execMjob_of_ready {x : F3} {s : State} {c : Iss} {l : Nat} {r : List Nat} (hc : turnOf (.mjob x) x.h s = .goes c) (hact : c.act = l :: r)
    (h : CardReady c x l) : exec (.mjob x) s
      = .next (refreshBusy (updCore (c.jobNumber x l).1 c.t.core fun k => { k with jobs := k.jobs ++ [c.newJob x l] }) c.t.core) := by
  have hplace : (c.cardAt x l / 2 ^ 20 != 0 || !inOneRegion c.t (c.cardAt x l % 2 ^ 20) 128) = false := by rw [h.near, h.region]; rfl
  have haligned := h.aligned
  have hlines := h.lines
  have hgood : (!cardOk (c.cardLanded x l).t (c.cardBytes x l) (parseCard (c.cardBytes x l))) = false := by rw [h.good]; rfl
  unfold Iss.cardAt at hplace haligned hlines
  refine exec_of_eff (e := .ok _) (fun _ => rfl) hc ?_
  simp only [hact, Nat.not_le.mpr h.room, hplace, haligned, hlines, bne_self_eq_false, List.isEmpty_nil, Bool.not_true, Bool.false_eq_true, if_false,
    landed_uid, landed_core]
  exact (if_neg (Bool.eq_false_iff.mp h.clean)).trans (if_neg (Bool.eq_false_iff.mp hgood))

/-- While four jobs wait MJOB is put off (R301, R351). -/
theorem execMjob_of_full {x : F3} {s : State} {c : Iss} (hc : turnOf (.mjob x) x.h s = .goes c) (hact : c.act ≠ [])
    (hfull : 4 ≤ (coreOf c.s0 c.t.core).jobs.length) : exec (.mjob x) s = .next c.lacking := by
  obtain ⟨l, r, hact⟩ := List.exists_cons_of_ne_nil hact
  exact exec_of_eff (e := c.later) (fun _ => rfl) hc (by simp only [hact, if_pos hfull])

/-! ### Tiles cleared (R293) -/

/-- A table without the entries of some keys. -/
theorem sget_filter {V : Type} (d : V) (q : Nat → Bool) (m : Sparse V) (k : Nat) :
    sget d (m.filter fun e => q e.1) k = if q k then sget d m k else d := by
  induction m with
  | nil => simp [sget]
  | cons e m ih =>
    obtain ⟨a, v⟩ := e
    simp only [sget, List.filter_cons] at ih ⊢
    by_cases ha : a = k
    · subst ha
      cases hq : q a
      · simpa [hq] using ih
      · simp [slookup]
    · cases hq : q a
      · simpa [hq, ha, slookup_cons] using ih
      · simpa [ha, slookup_cons] using ih

/-- A team without the words and the poison marks of some tiles. -/
def clearTiles (first count : Nat) (t : Team) : Team :=
  { t with
    acc := t.acc.filter fun e => decide (e.1 < first * 1024 ∨ (first + count) * 1024 ≤ e.1)
    accPoison := t.accPoison.filter fun e => decide (e.1 < first * 1024 ∨ (first + count) * 1024 ≤ e.1) }

theorem sget_acc_clearTiles (first count : Nat) (t : Team) (k : Nat) :
    sget 0 (clearTiles first count t).acc k = if first * 1024 ≤ k ∧ k < (first + count) * 1024 then 0 else sget 0 t.acc k := by
  refine (sget_filter 0 (fun k => decide (k < first * 1024 ∨ (first + count) * 1024 ≤ k)) t.acc k).trans ?_
  by_cases hin : first * 1024 ≤ k ∧ k < (first + count) * 1024
  · rw [if_pos hin, if_neg (by simp only [decide_eq_true_eq]; omega)]
  · rw [if_neg hin, if_pos (by simp only [decide_eq_true_eq]; omega)]

theorem execAccz_clears {x : F3} {s : State} {c : Iss} (hc : turnOf (.accz x) x.h s = .goes c) (hact : c.act ≠ [])
    (htiles : fld x.imm 5 0 + fld x.imm 14 8 ≤ c.t.hdr.accTiles) :
    exec (.accz x) s = .next (updTeam c.s c.t.uid (clearTiles (fld x.imm 5 0) (fld x.imm 14 8))) :=
  exec_of_eff (e := .ok _) (fun _ => rfl) hc ((if_neg (by simpa using hact)).trans (if_neg (Nat.not_lt.mpr htiles)))

/-! ### Matrix instructions without effect (R286, R307) -/

section
variable (x : F3)

theorem completes_of_noVote : ∀ i ∈ [Instr.mma x, .mmaz x, .fmtv x], completesWhen i x.h (fun c => c.collective = .none) (·.s) := by
  simp only [List.forall_mem_cons, List.not_mem_nil, false_implies, implies_true, and_true]
  refine ⟨?mma, ?mmaz, ?fmtv⟩
  case mma => exact completesWhen_of_ok (fun _ => rfl) fun c hnone => mma_of_none x false hnone
  case mmaz => exact completesWhen_of_ok (fun _ => rfl) fun c hnone => mma_of_none x true hnone
  case fmtv => exact completesWhen_of_ok (fun _ => rfl) fun c hnone => by simp only [hnone]

theorem completes_of_noLane :
    ∀ i ∈ [Instr.accld x, .accst x, .accz x, .accepi x, .accck x, .mjob x], completesWhen i x.h (fun c => c.act = []) (·.s) := by
  simp only [List.forall_mem_cons, List.not_mem_nil, false_implies, implies_true, and_true]
  refine ⟨?accld, ?accst, ?accz, ?accepi, ?accck, ?mjob⟩
  case accld => exact completesWhen_of_ok (fun _ => rfl) fun c hact => if_pos (List.isEmpty_iff.mpr hact)
  case accst => exact completesWhen_of_ok (fun _ => rfl) fun c hact => if_pos (List.isEmpty_iff.mpr hact)
  case accz => exact completesWhen_of_ok (fun _ => rfl) fun c hact => if_pos (List.isEmpty_iff.mpr hact)
  case accepi => exact completesWhen_of_ok (fun _ => rfl) fun c hact => by simp only [hact]
  case accck => exact completesWhen_of_ok (fun _ => rfl) fun c hact => by simp only [hact]
  case mjob => exact completesWhen_of_ok (fun _ => rfl) fun c hact => by simp only [hact]

end

end Sys2Proof.Machine

open Sys2Proof Sys2Proof.Machine

/-- Settles O27, instruction by instruction: with nothing in its way each passes its checks in order and has its effect. -/
theorem matrixComplete : Obligations.MatrixComplete := by
  unfold Obligations.MatrixComplete
  intro x
  refine ⟨?mma, ?noVote, ?noLane, ?fmtv, ?accld, ?accst, ?accz, ?accepi, ?accck, ?mjob, ?mjobFull⟩
  case mma =>
    intro zero isInt s c v tile blocks cached desc off side reads bands frag rows c1 u cols hc hex hact hma hmb hpair hblocks htile hdesc hreads hpoison
      hrows hcols hold
    exact exec_of_eff (execMma_eq x zero) hc (mma_of_ready ⟨hex, hact, hma, hmb, hpair, hblocks, htile, hdesc, hreads, hpoison, hrows, hcols, hold⟩)
  case noVote => exact completes_of_noVote x
  case noLane => exact completes_of_noLane x
  case fmtv =>
    intro s c hc hex hact
    exact exec_of_eff (e := .ok _) (fun _ => rfl) hc (by simp only [collective_of_all hex hact])
  case accld =>
    exact completesWhen_of_ok (fun _ => rfl) fun c ⟨hact, htile⟩ =>
      (if_neg (mt List.isEmpty_iff.mp hact)).trans (if_neg (Nat.not_le.mpr htile))
  case accst =>
    exact completesWhen_of_ok (fun _ => rfl) fun c ⟨hact, htile⟩ =>
      (if_neg (mt List.isEmpty_iff.mp hact)).trans (if_neg (Nat.not_le.mpr htile))
  case accz =>
    refine fun s c hc hact htiles => ⟨_, execAccz_clears hc hact htiles, fun u hu => ⟨clearTiles _ _ u, ?_, sget_acc_clearTiles _ _ u⟩⟩
    exact (teamOf_updTeam_same c.s c.t.uid (clearTiles _ _) fun _ => rfl).trans (congrArg _ hu)
  case accepi =>
    intro s c l r hc hact desc sb fmt width useCk useBias useBnd tile out biasOff ckOff hfmt hwide htile hdesc hplaces bias c1 hbias hout hck hclean p e
      htrap
    exact execAccepi_of_ready hc hact ⟨hfmt, hwide, htile, hdesc, hplaces, hbias, hout, hck, hclean, htrap⟩
  case accck =>
    intro s c l r hc hact desc fmt code width out ckOff hres hcode hwide hdesc hplaces hout hck c1 hcleanOut hcleanCk
    exact execAccck_of_ready hc hact ⟨hres, hcode, hwide, hdesc, hplaces, hout, hck, hcleanOut, hcleanCk⟩
  case mjob =>
    intro s c l r hc hact hroom v c1 b hlocal hregion haligned hlines hclean hgood
    exact execMjob_of_ready hc hact ⟨hroom, hlocal, hregion, haligned, hlines, hclean, hgood⟩
  case mjobFull =>
    exact fun s c hc ⟨hact, hfull⟩ => execMjob_of_full hc hact hfull

end

