-- ==== Sys2Proof/Proofs/QueueSteps.lean ====
section
/-! Queues, the dispatcher, placement and retirement (R305, R341 to R344, R356 to R366). -/

namespace Sys2Proof.Machine

-- one declaration at a time: a thread for each would be too many
set_option Elab.async false

/-! ### Registers of a queue (R357, R359) -/

section
variable (s : State) (v : Word64) {q : Nat} (hq : q < 2048)
include hq

theorem writeQcfg_of_exists : writeQcfg s q v = restartHeads s (regPut s (.qcfg q)
    (if regBit s (.qcfg q) 63 then setFld (regWritten (.qcfg q) (regGet s (.qcfg q)) v) 61 50 (regFld s (.qcfg q) 61 50)
      else regWritten (.qcfg q) (regGet s (.qcfg q)) v)) := if_neg (Nat.not_le.mpr hq)

/-- A write with clear set zeroes both drop counters. -/
theorem writeQstat_of_clear (hv : bit v 31 = true) : writeQstat s q v = regSet s (.qstat q) 63 32 0 :=
  if_neg (by simp [hv, hq])

end

/-! ### Dispatch (R362, R365, R366) -/

section
variable {s : State} {n : Nat} {r : Queued} {e : TakeEnd} (hd : dispatching s = true) (ht : s.lastTake ≤ timeAt s 31)
include hd ht

theorem execDispatchTake_takes (hf : firstEligible s (dispatchOrder s (s.queues.map (·.1))) = some (n, r, e)) (he : e ≠ .unread) :
    execDispatchTake s = .next (takeHead s n r e) := by
  have hdue : (!dispatching s || decide (timeAt s 31 < s.lastTake)) = false := by simp [hd, ht]
  simp only [execDispatchTake, hdue, hf]
  cases e with
  | unread => exact absurd rfl he
  | refused check => rfl
  | accepted h => rfl
  | waits => rfl

/-- An image that has not been read for this take is read first. -/
theorem execDispatchTake_reads (hf : firstEligible s (dispatchOrder s (s.queues.map (·.1))) = some (n, r, .unread)) (hj : judging s n = false) :
    execDispatchTake s = .next (beginJudge s n r) := by
  have hdue : (!dispatching s || decide (timeAt s 31 < s.lastTake)) = false := by simp [hd, ht]
  simp only [execDispatchTake, hdue, hf, hj]
  rfl

end

/-! ### Placement (R341 to R343) -/

section
variable {s : State} {n : Nat} {g : Grid} (hg : gridOf s n = some g)
include hg

theorem execTeamPlace_of_fits {team core : Nat} (hfit : teamFits s g team core = true) :
    execTeamPlace n team core s = .next (updGrid (placeTeam s g team core) n fun g => { g with nextTeam := team + 1 }) := by
  simp only [execTeamPlace, hg, hfit, if_true]

theorem execCohortPlace_of_fits {cores : List Nat} (hfit : cohortFits s g cores = true) :
    execCohortPlace n cores s = .next (placeCohort s g cores) := by
  simp only [execCohortPlace, hg, hfit, if_true]

/-- A grid whose work is over retires (R344). -/
theorem execGridRetire_of_over (hover : gridOver s g = true) : execGridRetire n s = .next (retireGrid s g) := by
  simp only [execGridRetire, hg, hover, if_true]

end

theorem execTeamRetire_of_over {s : State} {u : Nat} {t : Team} (ht : teamOf s u = some t) (hover : teamOver s t = true) :
    execTeamRetire u s = .next (updGrid (removeTeam s t) t.grid fun g => { g with retired := g.retired + 1 }) := by
  simp only [execTeamRetire, ht, hover, Bool.not_true, Bool.false_eq_true, if_false]

/-! ### The wait of a cohort (R343) -/

/-- A child cohort of a queue that has waited 1 ms at the launch units. -/
def waitingChild (s : State) (q : Nat) : Option Grid := s.grids.find? fun g =>
  g.queue == q && g.parentGrid.isSome && g.hdr.cohort && !g.terminated && g.nextTeam == 0 && !g.blocking && waitedLong s g.since

section
variable {s : State} {q : Nat}

theorem execCohortWaitExpiry_child {g : Grid} (hchild : waitingChild s q = some g) :
    execCohortWaitExpiry q s = .next (updGrid s g.id fun g => { g with blocking := true }) := by
  unfold waitingChild at hchild
  simp only [execCohortWaitExpiry, hchild]

theorem execCohortWaitExpiry_head {r : Queued} {rest : List Queued} (hchild : waitingChild s q = none) (hq : queueOf s q = r :: rest)
    (hb : r.blocking = false) (hready : headReady s q = true) (hlong : waitedLong s r.headSince = true) (hwaits : judgeLast s q r = .waits) :
    execCohortWaitExpiry q s = .next { s with queues := sset [] s.queues q ({ r with blocking := true } :: rest) } := by
  unfold waitingChild at hchild
  simp only [execCohortWaitExpiry, hchild, hq, hb, hready, hlong, hwaits]
  rfl

end

end Sys2Proof.Machine

open Sys2Proof Sys2Proof.Machine

/-- Settles O40: each event takes the branch that its conditions name; a write with QSTAT.clear set takes the branch of that bit. -/
theorem queueEvents : Obligations.QueueEvents := by
  unfold Obligations.QueueEvents
  intro q v
  refine ⟨fun s w => rfl, fun s hq => congrArg _ (writeQcfg_of_exists s v hq), fun s hq => ?_, fun s n r e hd ht hf => ⟨fun he => ?_, ?_⟩,
    fun s g team core hg hfit => execTeamPlace_of_fits hg hfit, fun s g cores hg hfit => execCohortPlace_of_fits hg hfit,
    fun s => ⟨fun g hchild => execCohortWaitExpiry_child hchild, fun r rest hchild hq hb hready hlong hwaits =>
      execCohortWaitExpiry_head hchild hq hb hready hlong hwaits⟩,
    fun s t ht hover => execTeamRetire_of_over ht hover, fun s g hg hover => execGridRetire_of_over hg hover⟩
  · exact congrArg _ (writeQstat_of_clear s _ hq (bit_setBit_same v true (by decide)))
  · exact execDispatchTake_takes hd ht hf he
  · rintro rfl hj
    exact execDispatchTake_reads hd ht hf hj

end

