-- ==== Sys2Proof/Proofs/PowerSteps.lean ====
section
/-! Power, thermal reports and pacing (R369 to R385, R406 to R408, R415, R424). -/

namespace Sys2Proof.Machine

-- one declaration at a time: a thread for each would be too many
set_option Elab.async false

/-! ### Telemetry, shedding and droop (R369 to R380) -/

section
variable {s : State}

theorem execControlIntervalBoundary_of_due (loads : List Nat) (ht : s.lastBoundary + 5000 ≤ timeAt s 31) (hlive : socketFailed s 31 = false) :
    execControlIntervalBoundary loads s = .next (atBoundary s loads) := if_neg (by simp [ht, hlive])

theorem execShedSafeDeadline_of_due {c : Nat} (hc : [1, 2, 3].find? (deadlineDue s) = some c) :
    execShedSafeDeadline s = .next { s with shedSince := sinsert s.shedSince (8 + c) 1 } := by
  simp only [execShedSafeDeadline, hc]

theorem execTelemetryStale_of_due (hfresh : regBit s .shelfstat 48 = false)
    (ht : s.lastSample + 1000 * max 300 (regFld s .pwrcfg 47 32) ≤ timeAt s 31) :
    execTelemetryStale s = .next { regSetBit s .shelfstat 48 true with staleSince := timeAt s 31 } :=
  if_neg (by simp only [hfresh, Bool.false_or, decide_eq_true_eq]; omega)

theorem execDroopDetect_of_cluster {n : Nat} (hn : n < 96) :
    execDroopDetect n s = .next (showHalved { s with
      clusters := supd clusterInit s.clusters n fun c => { c with halvedUntil := some (timeAt s (n / 8) + droopHold s) } } n) :=
  if_neg (Nat.not_le.mpr hn)

theorem execDroopHoldExpiry_of_due {n t : Nat} (hhalved : (sget clusterInit s.clusters n).halvedUntil = some t) (ht : t ≤ timeAt s (n / 8)) :
    execDroopHoldExpiry n s = .next (showHalved { s with clusters := supd clusterInit s.clusters n fun c => { c with halvedUntil := none } } n) := by
  simp only [execDroopHoldExpiry, hhalved, if_neg (Nat.not_lt.mpr ht)]

end

/-! ### Thermal reports (R406 to R409) -/

section
variable {s : State} {n deg : Nat} (hrun : running s n = true)
include hrun

/-- At the hard limit the package trips at once. -/
theorem execThermalReport_trips (hhard : regFld s .thermHard 7 0 ≤ deg) :
    execThermalReport n deg s
      = .next (regSetBit { s with hardTrip := true, em := s.em.map fun e => { e with cut := e.cut || regBit s .emstat 62 } } .emstat 63 true) := by
  simp only [execThermalReport, hrun, hhard, Bool.not_true, Bool.false_eq_true, if_false, if_true]

variable (hhard : deg < regFld s .thermHard 7 0)
include hhard

/-- Below both limits a report does nothing. -/
theorem execThermalReport_below (hsave : deg < regFld s .thermSave 7 0) : execThermalReport n deg s = .next s := by
  simp [execThermalReport, hrun, Nat.not_le.mpr hhard, hsave]

section
variable (hon : regBit s .thermSave 31 = true) (hsave : regFld s .thermSave 7 0 ≤ deg) (hidle : regBit s .emstat 62 = false)
  (hdone : regBit s .emstat 61 = false)
include hon hsave hidle hdone

theorem execThermalReport_saves (hsize : emSize s ≠ 0) (hbase : isHostMem (emBase s) = true) (hhost : hostReached s = true) :
    execThermalReport n deg s = .next (beginEmergency s) := by
  simp [execThermalReport, hrun, Nat.not_le.mpr hhard, hon, Nat.not_lt.mpr hsave, hidle, hdone, hsize, hbase, hhost]

/-- A save that cannot be made is recorded in every domain with work. -/
theorem execThermalReport_records (hno : emSize s = 0 ∨ isHostMem (emBase s) = false ∨ hostReached s = false) :
    execThermalReport n deg s = .next ((residentDomains s).foldl (fun s d => thermalRecord s d 0 0 false 0) s) := by
  simp [execThermalReport, hrun, Nat.not_le.mpr hhard, hon, Nat.not_lt.mpr hsave, hidle, hdone, or_assoc, hno]

end

end

/-! ### Pacing (R424) -/

section
variable {s : State} (ht : s.lastPace + 50000 ≤ timeAt s 31)
include ht

theorem execPacePeriodEnd_off (hoff : regBit s .pacecfg 31 = false) :
    execPacePeriodEnd s = .next { s with lastPace := timeAt s 31, lateCopies := 0, lags := [] } := by
  simp only [execPacePeriodEnd, if_neg (Nat.not_lt.mpr ht), hoff, Bool.not_false, if_true]

/-- An enabled pacing sends its late copies and keeps the greatest lag word of the period, 0 without one. -/
theorem execPacePeriodEnd_on (hon : regBit s .pacecfg 31 = true) : ∃ t, execPacePeriodEnd s = .next t
    ∧ t.lastPace = timeAt s 31 ∧ t.lastL = (s.lags.max?).getD 0 ∧ t.outputs = s.outputs ++ [.lag s.lateCopies] := by
  simp only [execPacePeriodEnd, if_neg (Nat.not_lt.mpr ht), hon, Bool.not_true, Bool.false_eq_true, if_false]
  exact ⟨_, rfl, rfl, rfl, rfl⟩

end

end Sys2Proof.Machine

open Sys2Proof Sys2Proof.Machine

/-- Settles O41: each event takes the branch that its conditions name. -/
theorem powerEvents : Obligations.PowerEvents := by
  unfold Obligations.PowerEvents
  intro n v
  refine ⟨fun s loads ht hlive => execControlIntervalBoundary_of_due loads ht hlive, fun s c hc => execShedSafeDeadline_of_due hc,
    fun s f w => ⟨rfl, rfl⟩, fun s hfresh ht => execTelemetryStale_of_due hfresh ht, fun s => rfl, fun s hn => execDroopDetect_of_cluster hn,
    fun s t hhalved ht => execDroopHoldExpiry_of_due hhalved ht, fun s deg hrun => ⟨?trips, ?saves, ?records, ?below⟩, fun s => rfl,
    fun s ht hoff => execPacePeriodEnd_off ht hoff, fun s ht hon => execPacePeriodEnd_on ht hon, fun s => rfl⟩
  case trips => exact fun hhard => execThermalReport_trips hrun hhard
  case saves =>
    exact fun hhard hon hsave hidle hdone hsize hbase hhost => execThermalReport_saves hrun hhard hon hsave hidle hdone hsize hbase hhost
  case records => exact fun hhard hon hsave hidle hdone hno => execThermalReport_records hrun hhard hon hsave hidle hdone hno
  case below => exact fun hhard hsave => execThermalReport_below hrun hhard hsave

end

