-- ==== Sys2Proof/Proofs/Scans.lean ====
section
/-! In-field scans (R410, R411, R425). -/

namespace Sys2Proof.Machine

-- one declaration at a time: a thread for each would be too many
set_option Elab.async false

/-! ### Commands of SCANCTL -/

section
variable {s : State} {v : Word64}

/-- While busy a command is ignored (R410). -/
theorem writeScanctl_of_busy (hbusy : regBit s .scanctl 61 = true) : writeScanctl s v = s := if_pos hbusy

/-- The socket is a field apart from the command. -/
theorem socket_setFld (v : Word64) (c : Nat) : fld (setFld v 63 62 c) 58 54 = fld v 58 54 := fld_setFld_apart v c (by decide) (by decide)

section
variable {sock : Nat} (hidle : regBit s .scanctl 61 = false) (hcompute : isCompute sock = true) (hsock : fld v 58 54 = sock)
include hidle hcompute hsock

/-- A drain runs until no core of the socket is busy (R411). -/
theorem writeScanctl_drain (hcmd : fld v 63 62 = 1) :
    writeScanctl s v = setScanCommand (regSetBit (setDrain (regPut s .scanctl (regWritten .scanctl (regGet s .scanctl) v)) sock true)
      .scanctl 61 true) 1 := by
  simp only [writeScanctl, hidle, hcompute, hsock, hcmd, Bool.not_true, Bool.false_eq_true, if_false]

/-- A run is only begun on a drained socket (R411). -/
theorem writeScanctl_run (hcmd : fld v 63 62 = 2) :
    writeScanctl s v =
      let s1 := regPut s .scanctl (regWritten .scanctl (regGet s .scanctl) v)
      if socketDrained s1 sock then setScanCommand (regSetBit (regSet s1 .scanctl 60 59 0) .scanctl 61 true) 2 else s1 := by
  simp only [writeScanctl, hidle, hcompute, hsock, hcmd, Bool.not_true, Bool.false_eq_true, if_false]

/-- A socket that has failed its scan is not released (R411). -/
theorem writeScanctl_release (hcmd : fld v 63 62 = 3) :
    writeScanctl s v =
      let s1 := regPut s .scanctl (regWritten .scanctl (regGet s .scanctl) v)
      if s1.scanFail.getLsbD sock then s1 else setDrain s1 sock false := by
  simp only [writeScanctl, hidle, hcompute, hsock, hcmd, Bool.not_true, Bool.false_eq_true, if_false]

end

end

/-! ### Completions -/

section
variable {s : State} (hbusy : regBit s .scanctl 61 = true)
include hbusy

theorem execScanDrainComplete_of_idle (hcmd : scanCommand s = 1) (hidle : socketIdle s (scanSocket s) = true) :
    execScanDrainComplete s = .next (setScanCommand (regSetBit s .scanctl 61 false) 0) := if_neg (by simp [hbusy, hcmd, hidle])

end

/-- The base and the length in bytes of the package that SCANCTL names (R410). -/
def scanBase (s : State) : Nat := regFld s .scanctl 51 12 * 4096
def scanLength (s : State) : Nat := regFld s .scanctl 11 0 * 4096

/-- The bytes of the package. -/
def scanBytes (s : State) : List Byte := homeBytes s (scanBase s) (scanLength s)

/-- Those before its signature. -/
def scanBody (s : State) : List Byte := (scanBytes s).take (scanLength s - 2420)

/-- Whether the package lies in DRAM without poison and with a good signature (R410). -/
def scanGood (s : State) : Prop :=
  (decide (2420 ≤ scanLength s) && decide (scanBase s + scanLength s ≤ dramTop s) && !rangePoisoned s (scanBase s) (scanLength s)) = true
    ∧ Config.signatureValid 1 (sha3 (scanBody s)) ((scanBytes s).drop (scanLength s - 2420)) = true

/-- The end of a run with a result (R410). -/
def endRun (s : State) (result : Nat) : State := setScanCommand (regSetBit (regSet s .scanctl 60 59 result) .scanctl 61 false) 0

/-- The state in which a good package has been applied: measured, and the scanned logic zeroed (R411, R425). -/
def scanApplied (s : State) : State := zeroSocket (extendMeas s 5 (sha3 (scanBody s))) (scanSocket s)

section
variable {s : State} (hbusy : regBit s .scanctl 61 = true) (hcmd : scanCommand s = 2) (hfree : hostHolds s (scanBase s) (scanLength s) = false)
include hbusy hcmd hfree

/-- What a run ends in where the host holds none of its package. -/
theorem execScanRunComplete_eq : execScanRunComplete s =
    if !(decide (2420 ≤ scanLength s) && decide (scanBase s + scanLength s ≤ dramTop s) && !rangePoisoned s (scanBase s) (scanLength s))
      || !Config.signatureValid 1 (sha3 (scanBody s)) ((scanBytes s).drop (scanLength s - 2420)) then .next (endRun s 3)
    else if Config.scanPasses (scanSocket s) (scanBody s) then .next (endRun (scanApplied s) 1)
    else .next (endRun { scanApplied s with scanFail := (scanApplied s).scanFail ||| BitVec.ofNat 32 (2 ^ scanSocket s) } 2) := by
  have hdue : (!regBit s .scanctl 61 || scanCommand s != 2) = false := by simp [hbusy, hcmd]
  exact (if_neg (by simp [hdue])).trans (if_neg (Bool.eq_false_iff.mp hfree))

theorem execScanRunComplete_of_good (hgood : scanGood s) : execScanRunComplete s =
    if Config.scanPasses (scanSocket s) (scanBody s) then .next (endRun (scanApplied s) 1)
    else .next (endRun { scanApplied s with scanFail := (scanApplied s).scanFail ||| BitVec.ofNat 32 (2 ^ scanSocket s) } 2) :=
  (execScanRunComplete_eq hbusy hcmd hfree).trans (if_neg (by rw [hgood.1, hgood.2]; decide))

/-- Any other package is not applied. -/
theorem execScanRunComplete_of_bad (hbad : ¬ scanGood s) : execScanRunComplete s = .next (endRun s 3) := by
  refine (execScanRunComplete_eq hbusy hcmd hfree).trans (if_pos ?_)
  rw [← Bool.not_and, Bool.not_eq_true', Bool.eq_false_iff, Ne, Bool.and_eq_true]
  exact hbad

end

end Sys2Proof.Machine

open Sys2Proof Sys2Proof.Machine

/-- Settles O43: a command is its write of SCANCTL with the command's field set; a run's end turns on whether its package is good. -/
theorem scanEvents : Obligations.ScanEvents := by
  unfold Obligations.ScanEvents
  intro v sock
  refine ⟨fun s hbusy => ⟨?_, ?_, ?_⟩, fun s hidle hcompute hsock => ?drain, fun s hidle hcompute hsock => ?run,
    fun s hidle hcompute hsock => ?release, fun s hbusy hcmd hidle => execScanDrainComplete_of_idle hbusy hcmd hidle,
    fun s hbusy hcmd hfree => ⟨fun hgood hpass => ?passed, fun hgood hfail => ?failed,
      fun hbad => execScanRunComplete_of_bad hbusy hcmd hfree hbad⟩⟩
  · exact congrArg Host.Outcome.next (writeScanctl_of_busy hbusy)
  · exact congrArg Host.Outcome.next (writeScanctl_of_busy hbusy)
  · exact congrArg Host.Outcome.next (writeScanctl_of_busy hbusy)
  case drain => exact congrArg Host.Outcome.next (writeScanctl_drain hidle hcompute ((socket_setFld v 1).trans hsock) (command_setFld v (by decide)))
  case run => exact congrArg Host.Outcome.next (writeScanctl_run hidle hcompute ((socket_setFld v 2).trans hsock) (command_setFld v (by decide)))
  case release => exact congrArg Host.Outcome.next (writeScanctl_release hidle hcompute ((socket_setFld v 3).trans hsock) (command_setFld v (by decide)))
  case passed => exact (execScanRunComplete_of_good hbusy hcmd hfree hgood).trans (if_pos hpass)
  case failed => exact (execScanRunComplete_of_good hbusy hcmd hfree hgood).trans (if_neg (Bool.eq_false_iff.mp hfail))

end
